-- ==== Sys2Proof/Word.lean ====
section
/-! DEFINITION. The word types of the Sahtil X2 and their plainest arithmetic. -/

namespace Sys2Proof

/-- A byte of memory. -/
abbrev Byte := BitVec 8
/-- A lane register (R8). -/
abbrev W32 := BitVec 32
/-- An s-register, an address or an instruction word (R11, R74). -/
abbrev W64 := BitVec 64

/-- Bit slice `x[h:l]` of R2, as a value of the width asked for. -/
def bits (n : Nat) {w : Nat} (x : BitVec w) (l : Nat) : BitVec n := x.extractLsb' l n

end Sys2Proof
end

