-- ==== Sys2Proof/Syntax.lean ====
section
/-! DEFINITION. The instructions and events of spec/opcode_table.json as data: field types, the five
formats of R76, the Exdin form of R311 and R312, the hart form of R98, and one constructor of `Instr` per row. -/

namespace Sys2Proof

/-- Type codes of R79. -/
inductive Ty where
  | i8 | i16 | i32 | i64 | n8 | n16 | n32 | n64 | b8 | b16 | b32 | b64 | b128
  | f16 | bf16 | f32 | e4m3 | e5m2 | e2m1
  deriving DecidableEq, Repr

/-- Rounding codes of R80. -/
inductive Rnd where
  | ne | tz | pi | mi | sr
  deriving DecidableEq, Repr

/-- Width codes of an access (R82). -/
inductive Width where
  | n8 | n16 | b32 | b64 | b128 | i8 | i16
  deriving DecidableEq, Repr

/-- Ordering codes of an access (R82). -/
inductive Ord where
  | plain | weak | acq | rel | ar | sc
  deriving DecidableEq, Repr

/-- Scopes of R178. -/
inductive Scope where
  | core | clus | dev | sys
  deriving DecidableEq, Repr

/-- The guard of an instruction word: predicate PG, negated by PN (R14, R75). -/
structure Guard where
  pg : BitVec 3
  pn : Bool
  deriving DecidableEq, Repr

/-- R format (R76, R78), with the long immediate of R84 when LX = 1. -/
structure RForm where
  g : Guard
  d : BitVec 8
  a : BitVec 8
  b : BitVec 8
  c : BitVec 8
  lx : Option (BitVec 64)
  ty : Ty
  rm : Rnd
  sat : Bool
  xm : BitVec 4
  deriving DecidableEq, Repr

/-- I format (R76, R81). -/
structure IForm where
  g : Guard
  d : BitVec 8
  a : BitVec 8
  imm : BitVec 32
  ik : BitVec 2
  deriving DecidableEq, Repr

/-- M format (R76, R82). -/
structure MForm where
  g : Guard
  w : Width
  d : BitVec 8
  a : BitVec 8
  x : BitVec 8
  off : BitVec 16
  ord : Ord
  scp : Scope
  view : Bool
  deriving DecidableEq, Repr

/-- X format (R76). -/
structure XForm where
  g : Guard
  d : BitVec 8
  a : BitVec 8
  b : BitVec 8
  c : BitVec 8
  imm : BitVec 16
  deriving DecidableEq, Repr

/-- B format (R76): OFF32 counts words. -/
structure BForm where
  g : Guard
  a : BitVec 8
  b : BitVec 8
  off : BitVec 32
  deriving DecidableEq, Repr

/-- The four words of an inline parameter block (R92, R93). -/
structure ParamBlock where
  w0 : BitVec 64
  w1 : BitVec 64
  w2 : BitVec 64
  w3 : BitVec 64
  deriving DecidableEq, Repr

/-- Register fields of a hart extension instruction (R98). -/
structure HForm where
  rd : BitVec 5
  rs1 : BitVec 5
  rs2 : BitVec 5
  deriving DecidableEq, Repr

/-- An operand word of an Exdin instruction (R312). -/
inductive ExOp where
  | reg (n : BitVec 12)
  | imm (v : BitVec 30)
  | shape (sym : BitVec 2) (mul : BitVec 8) (shr : BitVec 4) (add : BitVec 16)
  | target (off : BitVec 30)
  deriving DecidableEq, Repr

/-- Head-word fields and operands of an Exdin instruction (R311); the guard operand, when G = 1, stands
in `guard` and not in `ops`. -/
structure ExForm where
  ty : Ty
  rm : Rnd
  sat : Bool
  guard : Option (ExOp × Bool)
  xm : BitVec 11
  ops : List ExOp
  deriving DecidableEq, Repr

/-- The rows of spec/opcode_table.json, one constructor each: first the rows with fields (native instructions, the
bundle, the harts' extension instructions, the Exdin operations, and two rows that name a raw word), then the rows
without: seven instructions whose word has no free bit, and the events of the device. The arguments of an event stand
in the state (`State.args`), as its constructor's comment lists them. -/
inductive Instr where
  /-- IADD (R137). -/
  | iadd (f : RForm)
  /-- ISUB (R137). -/
  | isub (f : RForm)
  /-- IADDC (R140). -/
  | iaddc (f : RForm)
  /-- IMUL (R137). -/
  | imul (f : RForm)
  /-- IMULH (R138). -/
  | imulh (f : RForm)
  /-- IMAD (R137). -/
  | imad (f : RForm)
  /-- IDIV (R139). -/
  | idiv (f : RForm)
  /-- IREM (R139). -/
  | irem (f : RForm)
  /-- INEG (R137). -/
  | ineg (f : RForm)
  /-- IABS (R137). -/
  | iabs (f : RForm)
  /-- IMIN (R137). -/
  | imin (f : RForm)
  /-- IMAX (R137). -/
  | imax (f : RForm)
  /-- ICMP (R141). -/
  | icmp (f : RForm)
  /-- IADD_IMM32 (R142). -/
  | iaddImm32 (f : IForm)
  /-- IMUL_IMM32 (R142). -/
  | imulImm32 (f : IForm)
  /-- AND_IMM32 (R142). -/
  | andImm32 (f : IForm)
  /-- OR_IMM32 (R142). -/
  | orImm32 (f : IForm)
  /-- XOR_IMM32 (R142). -/
  | xorImm32 (f : IForm)
  /-- SHL_IMM32 (R142). -/
  | shlImm32 (f : IForm)
  /-- SHR_IMM32 (R142). -/
  | shrImm32 (f : IForm)
  /-- SAR_IMM32 (R142). -/
  | sarImm32 (f : IForm)
  /-- ROT_IMM32 (R142). -/
  | rotImm32 (f : IForm)
  /-- MOVI_32 (R142). -/
  | movi32 (f : IForm)
  /-- IADD_IMM64 (R142). -/
  | iaddImm64 (f : IForm)
  /-- IMUL_IMM64 (R142). -/
  | imulImm64 (f : IForm)
  /-- AND_IMM64 (R142). -/
  | andImm64 (f : IForm)
  /-- OR_IMM64 (R142). -/
  | orImm64 (f : IForm)
  /-- XOR_IMM64 (R142). -/
  | xorImm64 (f : IForm)
  /-- SHL_IMM64 (R142). -/
  | shlImm64 (f : IForm)
  /-- SHR_IMM64 (R142). -/
  | shrImm64 (f : IForm)
  /-- SAR_IMM64 (R142). -/
  | sarImm64 (f : IForm)
  /-- ROT_IMM64 (R142). -/
  | rotImm64 (f : IForm)
  /-- MOVI_64 (R142). -/
  | movi64 (f : IForm)
  /-- AND (R143). -/
  | andR (f : RForm)
  /-- OR (R143). -/
  | orR (f : RForm)
  /-- XOR (R143). -/
  | xorR (f : RForm)
  /-- ANDN (R143). -/
  | andn (f : RForm)
  /-- NOT (R143). -/
  | notR (f : RForm)
  /-- SHL (R144). -/
  | shl (f : RForm)
  /-- SHR (R144). -/
  | shr (f : RForm)
  /-- SAR (R144). -/
  | sar (f : RForm)
  /-- ROT (R144). -/
  | rot (f : RForm)
  /-- BFX (R145). -/
  | bfx (f : RForm)
  /-- BFI (R145). -/
  | bfi (f : RForm)
  /-- POPC (R143). -/
  | popc (f : RForm)
  /-- CLZ (R143). -/
  | clz (f : RForm)
  /-- CTZ (R143). -/
  | ctz (f : RForm)
  /-- BREV (R143). -/
  | brev (f : RForm)
  /-- NOP (R146). -/
  | nop (f : RForm)
  /-- MOV (R146). -/
  | mov (f : RForm)
  /-- MOVL (R146). -/
  | movl (f : RForm)
  /-- SEL (R147). -/
  | sel (f : RForm)
  /-- PSET (R148). -/
  | pset (f : RForm)
  /-- PMOV (R149). -/
  | pmov (f : RForm)
  /-- LEA (R150). -/
  | lea (f : RForm)
  /-- FADD (R152). -/
  | fadd (f : RForm)
  /-- FSUB (R152). -/
  | fsub (f : RForm)
  /-- FMUL (R152). -/
  | fmul (f : RForm)
  /-- FFMA (R152). -/
  | ffma (f : RForm)
  /-- FMIN (R119). -/
  | fmin (f : RForm)
  /-- FMAX (R119). -/
  | fmax (f : RForm)
  /-- FCMP (R153). -/
  | fcmp (f : RForm)
  /-- FCLASS (R154). -/
  | fclass (f : RForm)
  /-- FDIV (R152). -/
  | fdiv (f : RForm)
  /-- FSQRT (R152). -/
  | fsqrt (f : RForm)
  /-- FADD_IMM (R155). -/
  | faddImm (f : IForm)
  /-- FMUL_IMM (R155). -/
  | fmulImm (f : IForm)
  /-- FMIN_IMM (R155). -/
  | fminImm (f : IForm)
  /-- FMAX_IMM (R155). -/
  | fmaxImm (f : IForm)
  /-- FRCP (R156). -/
  | frcp (f : RForm)
  /-- FRSQ (R156). -/
  | frsq (f : RForm)
  /-- FEXP2 (R156). -/
  | fexp2 (f : RForm)
  /-- FLOG2 (R156). -/
  | flog2 (f : RForm)
  /-- FSIN (R156). -/
  | fsin (f : RForm)
  /-- FCOS (R156). -/
  | fcos (f : RForm)
  /-- FTANH (R156). -/
  | ftanh (f : RForm)
  /-- HADD2 (R159). -/
  | hadd2 (f : RForm)
  /-- HMUL2 (R159). -/
  | hmul2 (f : RForm)
  /-- HFMA2 (R159). -/
  | hfma2 (f : RForm)
  /-- DOT4 (R160). -/
  | dot4 (f : RForm)
  /-- CVT (R162). -/
  | cvt (f : RForm)
  /-- CVTI (R121). -/
  | cvti (f : RForm)
  /-- CVTF (R122). -/
  | cvtf (f : RForm)
  /-- RND (R162). -/
  | rnd (f : RForm)
  /-- PACK (R164). -/
  | pack (f : RForm)
  /-- UNPACK (R165). -/
  | unpack (f : RForm)
  /-- SCALEQ (R167). -/
  | scaleq (f : RForm)
  /-- BSCALE (R166). -/
  | bscale (f : RForm)
  /-- SHFLI (R169). -/
  | shfli (f : XForm)
  /-- SHFLX (R169). -/
  | shflx (f : XForm)
  /-- SHFLD (R169). -/
  | shfld (f : XForm)
  /-- SHFLA (R169). -/
  | shfla (f : XForm)
  /-- BCAST (R169). -/
  | bcast (f : XForm)
  /-- VOTE (R170). -/
  | vote (f : RForm)
  /-- REDL (R171). -/
  | redl (f : RForm)
  /-- SCANL (R171). -/
  | scanl (f : RForm)
  /-- XMOV (R172). -/
  | xmov (f : XForm)
  /-- LD (R181). -/
  | ld (f : MForm)
  /-- ST (R181). -/
  | st (f : MForm)
  /-- LDS (R181). -/
  | lds (f : MForm)
  /-- STS (R181). -/
  | sts (f : MForm)
  /-- LDK (R181). -/
  | ldk (f : MForm)
  /-- STK (R181). -/
  | stk (f : MForm)
  /-- LDC (R184). -/
  | ldc (f : MForm)
  /-- PREF (R190). -/
  | pref (f : MForm)
  /-- GATH (R188). -/
  | gath (f : MForm)
  /-- SCAT (R188). -/
  | scat (f : MForm)
  /-- ATOM (R193). -/
  | atom (f : XForm)
  /-- ATOMS (R193). -/
  | atoms (f : XForm)
  /-- RED (R193). -/
  | red (f : XForm)
  /-- FENCE (R199). -/
  | fence (f : XForm)
  /-- PFENCE (R201). -/
  | pfence (f : XForm)
  /-- VJOIN (R202). -/
  | vjoin (f : XForm)
  /-- CCTL (R204). -/
  | cctl (f : XForm)
  /-- TALLOC (R214). -/
  | talloc (f : XForm)
  /-- TSEAL (R216). -/
  | tseal (f : XForm)
  /-- TLD (R221). -/
  | tld (f : XForm)
  /-- TST (R221). -/
  | tst (f : XForm)
  /-- TDROP (R222). -/
  | tdrop (f : XForm)
  /-- TQUERY (R223). -/
  | tquery (f : XForm)
  /-- QPOST (R226). -/
  | qpost (f : XForm)
  /-- QTAKE (R226). -/
  | qtake (f : XForm)
  /-- QADV (R226). -/
  | qadv (f : XForm)
  /-- QCNT (R226). -/
  | qcnt (f : XForm)
  /-- MLEASE (R229). -/
  | mlease (f : XForm)
  /-- MREL (R229). -/
  | mrel (f : XForm)
  /-- MLOADW (R232). -/
  | mloadw (f : XForm) (blk : Option ParamBlock)
  /-- MSWAP (R231). -/
  | mswap (f : XForm)
  /-- MSTREAM (R235). -/
  | mstream (f : XForm) (blk : Option ParamBlock)
  /-- MZERO (R238). -/
  | mzero (f : XForm)
  /-- MREAD (R238). -/
  | mread (f : XForm)
  /-- MWRITE (R238). -/
  | mwrite (f : XForm)
  /-- MMETA (R237). -/
  | mmeta (f : XForm)
  /-- MSHAPE (R239). -/
  | mshape (f : XForm)
  /-- CPY (R274). -/
  | cpy (f : XForm) (blk : Option ParamBlock)
  /-- CPY_ALLOC (R274). -/
  | cpyAlloc (f : XForm) (blk : Option ParamBlock)
  /-- CPYW (R278). -/
  | cpyw (f : XForm)
  /-- CPYQ (R279). -/
  | cpyq (f : XForm)
  /-- SPLW (R284). -/
  | splw (f : XForm)
  /-- SPLR (R284). -/
  | splr (f : XForm)
  /-- SPLF (R285). -/
  | splf (f : XForm)
  /-- MBSEND (R290). -/
  | mbsend (f : XForm)
  /-- LAUNCH (R292). -/
  | launch (f : XForm)
  /-- BAR (R257). -/
  | bar (f : XForm)
  /-- BARX_ARV (R257). -/
  | barxArv (f : XForm)
  /-- BARX_EXP (R257). -/
  | barxExp (f : XForm)
  /-- BARW (R257). -/
  | barw (f : XForm)
  /-- BBROT (R257). -/
  | bbrot (f : XForm)
  /-- WAITC (R262). -/
  | waitc (f : XForm)
  /-- QPOINT (R265). -/
  | qpoint (f : XForm)
  /-- BRA (R244). -/
  | bra (f : BForm)
  /-- CALL (R245). -/
  | call (f : BForm)
  /-- RCONV (R250). -/
  | rconv (f : BForm)
  /-- MODE_VLIW (R54). -/
  | modeVliw (f : BForm)
  /-- MODE_SIMT (R55). -/
  | modeSimt (f : BForm)
  /-- LOOP (R253). -/
  | loop (f : BForm)
  /-- BRX (R246). -/
  | brx (f : XForm)
  /-- RET (R246). -/
  | ret (f : XForm)
  /-- EXIT (R249). -/
  | exit (f : XForm)
  /-- REGANG (R44). -/
  | regang (f : XForm)
  /-- LEND (R254). -/
  | lend (f : XForm)
  /-- YIELD (R266). -/
  | yield (f : XForm)
  /-- SLEEP (R267). -/
  | sleep (f : XForm)
  /-- PGRANT (R294). -/
  | pgrant (f : XForm)
  /-- PRELS (R294). -/
  | prels (f : XForm)
  /-- PGATE (R296). -/
  | pgate (f : XForm)
  /-- TRAP (R297). -/
  | trap (f : XForm)
  /-- HRET (R390). -/
  | hret (f : XForm)
  /-- BRK (R297). -/
  | brk (f : XForm)
  /-- PROBE (R300). -/
  | probe (f : XForm)
  /-- DOCINV (R301). -/
  | docinv (f : XForm)
  /-- SREAD (R299). -/
  | sread (f : XForm)
  /-- SWRITE (R299). -/
  | swrite (f : XForm)
  /-- BUNDLE (R448). -/
  | bundle (hdr : BitVec 64) (words : List (BitVec 64))
  /-- HCPY (R282). -/
  | hcpy (f : HForm)
  /-- HWAIT (R281). -/
  | hwait (f : HForm)
  /-- HALLOC (R281). -/
  | halloc (f : HForm)
  /-- HPOST (R281). -/
  | hpost (f : HForm)
  /-- HSIG (R281). -/
  | hsig (f : HForm)
  /-- HSLEEP (R283). -/
  | hsleep (f : HForm)
  /-- EXDIN_NOP (R314). -/
  | exNop (f : ExForm)
  /-- EXDIN_MOV (R314). -/
  | exMov (f : ExForm)
  /-- EXDIN_ADD (R314). -/
  | exAdd (f : ExForm)
  /-- EXDIN_SUB (R314). -/
  | exSub (f : ExForm)
  /-- EXDIN_MUL (R314). -/
  | exMul (f : ExForm)
  /-- EXDIN_MAD (R314). -/
  | exMad (f : ExForm)
  /-- EXDIN_DIV (R314). -/
  | exDiv (f : ExForm)
  /-- EXDIN_REM (R314). -/
  | exRem (f : ExForm)
  /-- EXDIN_MIN (R314). -/
  | exMin (f : ExForm)
  /-- EXDIN_MAX (R314). -/
  | exMax (f : ExForm)
  /-- EXDIN_AND (R314). -/
  | exAnd (f : ExForm)
  /-- EXDIN_OR (R314). -/
  | exOr (f : ExForm)
  /-- EXDIN_XOR (R314). -/
  | exXor (f : ExForm)
  /-- EXDIN_SHL (R314). -/
  | exShl (f : ExForm)
  /-- EXDIN_SHR (R314). -/
  | exShr (f : ExForm)
  /-- EXDIN_BITC (R314). -/
  | exBitc (f : ExForm)
  /-- EXDIN_BFX (R314). -/
  | exBfx (f : ExForm)
  /-- EXDIN_BFI (R314). -/
  | exBfi (f : ExForm)
  /-- EXDIN_CMP (R314). -/
  | exCmp (f : ExForm)
  /-- EXDIN_SEL (R314). -/
  | exSel (f : ExForm)
  /-- EXDIN_FADD (R314). -/
  | exFadd (f : ExForm)
  /-- EXDIN_FSUB (R314). -/
  | exFsub (f : ExForm)
  /-- EXDIN_FMUL (R314). -/
  | exFmul (f : ExForm)
  /-- EXDIN_FFMA (R314). -/
  | exFfma (f : ExForm)
  /-- EXDIN_FMIN (R314). -/
  | exFmin (f : ExForm)
  /-- EXDIN_FMAX (R314). -/
  | exFmax (f : ExForm)
  /-- EXDIN_FDIV (R314). -/
  | exFdiv (f : ExForm)
  /-- EXDIN_FSQRT (R314). -/
  | exFsqrt (f : ExForm)
  /-- EXDIN_FCMP (R314). -/
  | exFcmp (f : ExForm)
  /-- EXDIN_FUNC (R314). -/
  | exFunc (f : ExForm)
  /-- EXDIN_CVT (R314). -/
  | exCvt (f : ExForm)
  /-- EXDIN_QUANT (R314). -/
  | exQuant (f : ExForm)
  /-- EXDIN_BSCALE (R314). -/
  | exBscale (f : ExForm)
  /-- EXDIN_SHFL (R314). -/
  | exShfl (f : ExForm)
  /-- EXDIN_BCAST (R314). -/
  | exBcast (f : ExForm)
  /-- EXDIN_VOTE (R314). -/
  | exVote (f : ExForm)
  /-- EXDIN_XRED (R315). -/
  | exXred (f : ExForm)
  /-- EXDIN_XSCAN (R315). -/
  | exXscan (f : ExForm)
  /-- EXDIN_LD (R314). -/
  | exLd (f : ExForm)
  /-- EXDIN_ST (R314). -/
  | exSt (f : ExForm)
  /-- EXDIN_LDS (R314). -/
  | exLds (f : ExForm)
  /-- EXDIN_STS (R314). -/
  | exSts (f : ExForm)
  /-- EXDIN_ATOM (R314). -/
  | exAtom (f : ExForm)
  /-- EXDIN_FENCE (R314). -/
  | exFence (f : ExForm)
  /-- EXDIN_TALLOC (R314). -/
  | exTalloc (f : ExForm)
  /-- EXDIN_TSEAL (R314). -/
  | exTseal (f : ExForm)
  /-- EXDIN_TLD (R314). -/
  | exTld (f : ExForm)
  /-- EXDIN_TST (R314). -/
  | exTst (f : ExForm)
  /-- EXDIN_TDROP (R314). -/
  | exTdrop (f : ExForm)
  /-- EXDIN_QPOST (R314). -/
  | exQpost (f : ExForm)
  /-- EXDIN_QTAKE (R314). -/
  | exQtake (f : ExForm)
  /-- EXDIN_COPY (R314). -/
  | exCopy (f : ExForm)
  /-- EXDIN_WLOAD (R314). -/
  | exWload (f : ExForm)
  /-- EXDIN_MM (R314). -/
  | exMm (f : ExForm)
  /-- EXDIN_ACC (R314). -/
  | exAcc (f : ExForm)
  /-- EXDIN_IF (R316). -/
  | exIf (f : ExForm)
  /-- EXDIN_LOOP (R314). -/
  | exLoop (f : ExForm)
  /-- EXDIN_BRK (R314). -/
  | exBrk (f : ExForm)
  /-- EXDIN_SREG (R314). -/
  | exSreg (f : ExForm)
  /-- EXDIN_EXIT (R314). -/
  | exExit (f : ExForm)
  /-- UNDEFINED_WORD (R96). -/
  | undefinedWord (w : BitVec 64)
  /-- HART_BASE_INSTRUCTION (R280). -/
  | hartBaseInstruction (w : BitVec 32)
  /-- GSYNC (R260). -/
  | gsync
  /-- PHASE (R63). -/
  | phase
  /-- JOIN (R47). -/
  | join
  /-- EXDIN_ELSE (R316). -/
  | exElse
  /-- EXDIN_ENDIF (R316). -/
  | exEndif
  /-- EXDIN_ENDLOOP (R316). -/
  | exEndloop
  /-- EXDIN_BAR (R314). -/
  | exBar
  /-- QTAIL (R351); arguments: q v. -/
  | qtail
  /-- QCTL (R351); arguments: q v. -/
  | qctl
  /-- REGISTER_WRITE (R4); arguments: off v. -/
  | registerWrite
  /-- INVGO (R416). -/
  | invgo
  /-- LAUNCH_PACKET_READ (R356); arguments: q. -/
  | launchPacketRead
  /-- STEAL_REQUEST (R361); arguments: d, the code object of a grid that would start. -/
  | stealRequest
  /-- UNIT_PLACEMENT (R366); arguments: d, 0 or one more than a core, the code object of a grid that starts. -/
  | unitPlacement
  /-- BLOCK_END (R41); arguments: c b. -/
  | blockEnd
  /-- GRID_COMPLETION (R357); arguments: g. -/
  | gridCompletion
  /-- MAILBOX_HANDLER_LAUNCH (R291); arguments: m. -/
  | mailboxHandlerLaunch
  /-- MAILBOX_DELIVERY (R290); arguments: m. -/
  | mailboxDelivery
  /-- SERVICE_MAILBOX_MESSAGE (R414). -/
  | serviceMailboxMessage
  /-- COPY_COMPLETION (R276); arguments: c q ecc byte, or 768 plus a context with a record's number for q. -/
  | copyCompletion
  /-- GATHER_ELEMENT (R188); arguments: c id lane ecc. -/
  | gatherElement
  /-- WEIGHT_LOAD_COMPLETION (R232); arguments: k ecc addr. -/
  | weightLoadCompletion
  /-- STREAM_COMPLETION (R235); arguments: k ecc addr. -/
  | streamCompletion
  /-- LOAD_RETURN (R183); arguments: c id ecc. -/
  | loadReturn
  /-- STORE_DRAIN (R183); arguments: c id. -/
  | storeDrain
  /-- STAMPED_WRITE_APPLY (R344); arguments: id d. -/
  | stampedWriteApply
  /-- MONITOR_REEXAMINE (R262); arguments: c b g, or 768 plus a context and a saved block's index. -/
  | monitorReexamine
  /-- MONITOR_POLL (R262); arguments: as of MONITOR_REEXAMINE. -/
  | monitorPoll
  /-- WAITC_TIMEOUT (R262); arguments: as of MONITOR_REEXAMINE. -/
  | waitcTimeout
  /-- SLEEP_DEADLINE (R267); arguments: c b g. -/
  | sleepDeadline
  /-- TILE_GRANT (R214); arguments: k p. -/
  | tileGrant
  /-- POOL_STALL (R215); arguments: k p. -/
  | poolStall
  /-- TILE_DRAIN (R212); arguments: k p g. -/
  | tileDrain
  /-- LEASE_GRANT (R229); arguments: k. -/
  | leaseGrant
  /-- LEASE_EXPIRY (R228); arguments: k. -/
  | leaseExpiry
  /-- POWER_GRANT (R380); arguments: k. -/
  | powerGrant
  /-- POWER_WINDOW (R295); arguments: c b mw. -/
  | powerWindow
  /-- POWER_BUDGET (R379); arguments: mw. -/
  | powerBudget
  /-- VAULT_SENSOR_READING (R364); arguments: temps, free pages. -/
  | vaultSensorReading
  /-- THROTTLE_STEP (R369); arguments: k mw. -/
  | throttleStep
  /-- HOT_PAGE_MIGRATION (R370); arguments: v, pages as x sg pg frame. -/
  | hotPageMigration
  /-- AGENT_COUNTER_WRITEBACK (R376); arguments: x. -/
  | agentCounterWriteback
  /-- CLOCK_CHANGE (R378); arguments: k ghz ratio. -/
  | clockChange
  /-- PREEMPT_FOR_PRIORITY (R371); arguments: d, the code object of a grid that starts. -/
  | preemptForPriority
  /-- STARVATION_RESUME (R372); arguments: x. -/
  | starvationResume
  /-- BLOCK_RESUME (R403); arguments: x n. -/
  | blockResume
  /-- TASK_BUDGET_EXPIRY (R373); arguments: c. -/
  | taskBudgetExpiry
  /-- TASK_PRELOAD (R373); arguments: c. -/
  | taskPreload
  /-- PHASE_TASK_START (R65); arguments: c. -/
  | phaseTaskStart
  /-- RILL_APPEND (R123); arguments: c words. -/
  | rillAppend
  /-- SPILLWAY_PUSH_ARRIVAL (R284); arguments: c. -/
  | spillwayPushArrival
  /-- IMPRECISE_TRAP_DELIVERY (R386); arguments: c b g. -/
  | impreciseTrapDelivery
  /-- DEADLOCK_WATCHDOG (R404); arguments: x. -/
  | deadlockWatchdog
  /-- CORE_ACKNOWLEDGE (R400); arguments: x c. -/
  | coreAcknowledge
  /-- INVALIDATION_WATCHDOG (R401); arguments: x c. -/
  | invalidationWatchdog
  /-- MIGRATION_QUANTUM (R406); arguments: x sg pg host dev. -/
  | migrationQuantum
  /-- HOLD_EXPIRY (R406); arguments: x sg pg. -/
  | holdExpiry
  /-- CHECKPOINT (R430); arguments: x. -/
  | checkpoint
  /-- INSTRUCTION_SAMPLE (R428); arguments: c, four counts of lane cycles, lvl x. -/
  | instructionSample
  /-- FATAL_ERROR (R424); arguments: strap syndrome ecc, die, cluster, core and vault. -/
  | fatalError
  /-- MODULE_RESET (R420); arguments: strap. -/
  | moduleReset
  /-- PATROL_SCRUB (R422); arguments: sram dram ecc, 0 or one more than a context, 0 or one more than a core with b g and an address,
  places. -/
  | patrolScrub
  /-- FLIT_RETRY (R417); arguments: port other. -/
  | flitRetry
  /-- CREDIT_RETURN (R417); arguments: port ch. -/
  | creditReturn
  /-- PEER_WRITE_ARRIVAL (R418); arguments: port a weak, and the bytes. -/
  | peerWriteArrival
  /-- HOST_ACCESS (R412); arguments: port target a write relaxed count, a stopped block as x bx by bz, and the bytes of a write. -/
  | hostAccess
  /-- FEATGET (R415). -/
  | featget
  /-- FEATSET (R326). -/
  | featset
  /-- CTXNEW (R415). -/
  | ctxnew
  /-- CTXEND (R415). -/
  | ctxend
  /-- MBXREG (R415); arguments: dev. -/
  | mbxreg
  /-- MBXUNREG (R415); arguments: dev. -/
  | mbxunreg
  /-- CODESYNC (R415); arguments: dev. -/
  | codesync
  /-- ATTEST (R421). -/
  | attest
  /-- DBGCTL (R426); arguments: dev. -/
  | dbgctl
  /-- STOP (R429). -/
  | stop
  /-- RESUME (R429). -/
  | resume
  /-- CKPT (R430). -/
  | ckpt
  /-- IMGWRITE (R415). -/
  | imgwrite
  /-- RESET (R415). -/
  | reset
  /-- DUMPBASE (R415). -/
  | dumpbase
  /-- COUPLING (R415). -/
  | coupling
  /-- FETCH_FAULT (R247). -/
  | fetchFault
  /-- SPILLWAY_POP_ARRIVAL (R285); arguments: c. -/
  | spillwayPopArrival
  /-- DOCINV_COMPLETION (R301); arguments: c b g. -/
  | docinvCompletion
  /-- PAGE_MOVE_COMPLETION (R370); arguments: the move's index. -/
  | pageMoveCompletion
  /-- PEER_READ_ARRIVAL (R418); arguments: port a n atom op ty b c. -/
  | peerReadArrival
  /-- FORCED_UNLOAD (R407); arguments: forced base len, contexts. -/
  | forcedUnload
  /-- REPLAY (R431); arguments: x. -/
  | replay
  /-- UNKNOWN_COMMAND (R413). -/
  | unknownCommand
  deriving DecidableEq, Repr

end Sys2Proof
end

