-- ==== Sys2Proof/WellFormed.lean ====
section
/-! DEFINITION. The encoding checks of R96 steps 3, 5 and 6 that a word decides alone: the codes and unused fields of
R77 to R82 and R93, the register kinds of R9, the guards of R243, and the fields of each instruction. A word that fails
one decodes to no instruction (Decode.lean). -/

namespace Sys2Proof

/-! ## Codes -/

/-- R79. -/
def Ty.code : Ty → BitVec 5
  | .i8 => 0x00 | .i16 => 0x01 | .i32 => 0x02 | .i64 => 0x03
  | .n8 => 0x04 | .n16 => 0x05 | .n32 => 0x06 | .n64 => 0x07
  | .b8 => 0x08 | .b16 => 0x09 | .b32 => 0x0A | .b64 => 0x0B | .b128 => 0x0C
  | .f16 => 0x10 | .bf16 => 0x11 | .f32 => 0x12 | .e4m3 => 0x13 | .e5m2 => 0x14 | .e2m1 => 0x15

/-- R79; the codes left out trap ILLEGAL. -/
def Ty.ofCode (c : BitVec 5) : Option Ty :=
  match c.toNat with
  | 0x00 => some .i8 | 0x01 => some .i16 | 0x02 => some .i32 | 0x03 => some .i64
  | 0x04 => some .n8 | 0x05 => some .n16 | 0x06 => some .n32 | 0x07 => some .n64
  | 0x08 => some .b8 | 0x09 => some .b16 | 0x0A => some .b32 | 0x0B => some .b64 | 0x0C => some .b128
  | 0x10 => some .f16 | 0x11 => some .bf16 | 0x12 => some .f32
  | 0x13 => some .e4m3 | 0x14 => some .e5m2 | 0x15 => some .e2m1
  | _ => none

/-- R80. -/
def Rnd.code : Rnd → BitVec 3
  | .ne => 0 | .tz => 1 | .pi => 2 | .mi => 3 | .sr => 4

/-- R80; 5 to 7 trap ILLEGAL. -/
def Rnd.ofCode (c : BitVec 3) : Option Rnd :=
  match c.toNat with
  | 0 => some .ne | 1 => some .tz | 2 => some .pi | 3 => some .mi | 4 => some .sr | _ => none

/-- R82. -/
def Width.code : Width → BitVec 4
  | .n8 => 0x0 | .n16 => 0x1 | .b32 => 0x2 | .b64 => 0x3 | .b128 => 0x4 | .i8 => 0x8 | .i16 => 0x9

/-- R82. -/
def Width.ofCode (c : BitVec 4) : Option Width :=
  match c.toNat with
  | 0x0 => some .n8 | 0x1 => some .n16 | 0x2 => some .b32 | 0x3 => some .b64 | 0x4 => some .b128
  | 0x8 => some .i8 | 0x9 => some .i16 | _ => none

/-- R82. -/
def Ord.code : Ord → BitVec 3
  | .plain => 0 | .weak => 1 | .acq => 2 | .rel => 3 | .ar => 4 | .sc => 5

/-- R82. -/
def Ord.ofCode (c : BitVec 3) : Option Ord :=
  match c.toNat with
  | 0 => some .plain | 1 => some .weak | 2 => some .acq | 3 => some .rel | 4 => some .ar | 5 => some .sc
  | _ => none

/-- R82. -/
def Scope.code : Scope → BitVec 2
  | .core => 0 | .clus => 1 | .dev => 2 | .sys => 3

/-- R82. -/
def Scope.ofCode (c : BitVec 2) : Scope :=
  match c.toNat with
  | 0 => .core | 1 => .clus | 2 => .dev | _ => .sys

/-- Bytes of an access (R180). -/
def Width.size : Width → Nat
  | .n8 | .i8 => 1 | .n16 | .i16 => 2 | .b32 => 4 | .b64 => 8 | .b128 => 16

/-- Signed codes (R82). -/
def Width.signed : Width → Bool
  | .i8 | .i16 => true | _ => false

/-- Width in bits of a type (R106, R107). -/
def Ty.bits : Ty → Nat
  | .i8 | .n8 | .b8 | .e4m3 | .e5m2 => 8
  | .i16 | .n16 | .b16 | .f16 | .bf16 => 16
  | .i32 | .n32 | .b32 | .f32 => 32
  | .i64 | .n64 | .b64 => 64
  | .b128 => 128
  | .e2m1 => 4

def Ty.signed : Ty → Bool
  | .i8 | .i16 | .i32 | .i64 => true | _ => false

def Ty.isInt : Ty → Bool
  | .i8 | .i16 | .i32 | .i64 | .n8 | .n16 | .n32 | .n64 => true | _ => false

/-! ## Register and resource fields -/

/-- How an instruction uses an 8-bit field: unused; a register of 32, 64 or 128 bits (R9); a predicate index; an
s-register of R206 (`sreg`) or of R269 (`sregN`, not `s63`); a resource index below a bound (R77). -/
inductive Use where
  | zero
  | reg (w : Nat)
  | pred
  | sreg
  | sregN
  | index (n : Nat)
  deriving DecidableEq, Repr

/-- R9, R77, R180: whether a field's value is legal, whatever the lane's register count. -/
def Use.ok (u : Use) (x : BitVec 8) : Bool :=
  match u with
  | .zero => x.toNat == 0
  | .reg w =>
    if w ≤ 32 then true
    else if w ≤ 64 then decide (x.toNat ≥ 0xC0) || x.toNat % 2 == 0
    else decide (x.toNat < 0xC0) && x.toNat % 4 == 0
  | .pred => decide (x.toNat < 8)
  | .sreg => decide (x.toNat ≥ 0xC0)
  | .sregN => decide (x.toNat ≥ 0xC0) && decide (x.toNat < 0xFF)
  | .index n => decide (x.toNat < n)

/-- The unguarded word, PG = 7 and PN = 0 (R243). -/
def Guard.always : Guard := ⟨7, false⟩

def Guard.isAlways (g : Guard) : Bool := g.pg == 7 && !g.pn

/-! ## R format -/

/-- What an R-format instruction uses (R78): its types, the widths of its register fields, whether it takes LX, how
many RM and XM codes, and SAT. -/
structure RUse where
  types : List Ty
  d : Use
  a : Use
  b : Use := .zero
  c : Use := .zero
  lx : Bool := false
  rms : Nat := 1
  sat : Bool := false
  xms : Nat := 1
  deriving Repr

def RUse.ok (u : RUse) (f : RForm) : Bool :=
  u.types.contains f.ty && u.d.ok f.d && u.a.ok f.a
    && (match f.lx with | some _ => u.lx && f.b.toNat == 0 | none => u.b.ok f.b)
    && u.c.ok f.c && decide (f.rm.code.toNat < u.rms) && (u.sat || !f.sat) && decide (f.xm.toNat < u.xms)

/-- The source type code in C[7:3] (R76), when C[2:0] is zero. -/
def RForm.src (f : RForm) : Option Ty :=
  if f.c.toNat % 8 == 0 then Ty.ofCode (bits 5 f.c 3) else none

/-- C[7:3] is a type of the list (R76, R161). -/
def RForm.srcIn (f : RForm) (l : List Ty) : Bool :=
  match f.src with | some t => l.contains t | none => false

/-- The operation width of R129. -/
def RForm.w (f : RForm) : Nat := f.ty.bits

def int4 : List Ty := [.i32, .n32, .i64, .n64]
def bit2 : List Ty := [.b32, .b64]
def ints : List Ty := [.i8, .i16, .i32, .i64, .n8, .n16, .n32, .n64]
def floats6 : List Ty := [.f32, .f16, .bf16, .e4m3, .e5m2, .e2m1]
def floats3 : List Ty := [.f32, .f16, .bf16]
def narrow5 : List Ty := [.f16, .bf16, .e4m3, .e5m2, .e2m1]
def scaled3 : List Ty := [.e4m3, .e5m2, .e2m1]

/-- Three-register integer form of R136 and R143. -/
def RForm.wide3 (f : RForm) (types : List Ty) (sat : Bool) : Bool :=
  RUse.ok { types, d := .reg f.w, a := .reg f.w, b := .reg f.w, lx := true, sat } f

/-- One-source form of R136 and R143. -/
def RForm.wide2 (f : RForm) (types : List Ty) (sat : Bool) : Bool :=
  RUse.ok { types, d := .reg f.w, a := .reg f.w, sat } f

/-- Shift form: B is 32 bits wide (R144, R145). -/
def RForm.shift3 (f : RForm) (types : List Ty) : Bool :=
  RUse.ok { types, d := .reg f.w, a := .reg f.w, b := .reg 32, lx := true } f

/-- Elements of a format per register (R115). -/
def Ty.perReg (t : Ty) : Nat := 32 / t.bits

/-- R118: whether `.sr` may convert from `s` into `d`. -/
def srLegal (d s : Ty) : Bool :=
  (narrow5.contains d && s == .f32) || (scaled3.contains d && (s == .f16 || s == .bf16))

/-- R118 with the RM field: `.sr` only where it is legal. -/
def RForm.srOk (f : RForm) : Bool :=
  f.rm != .sr || (match f.src with | some s => srLegal f.ty s | none => false)

/-- R171: types and operations of `REDL` and `SCANL`. -/
def redlPair (op : Nat) (t : Ty) : Bool :=
  if op ≤ 2 then int4.contains t || (t == .f32 && op != 0)
  else decide (op ≤ 5) && bit2.contains t

/-! ## I format -/

/-- R81: the 64-bit *imm*. -/
def IForm.val (f : IForm) : W64 :=
  match f.ik.toNat with
  | 0 => f.imm.signExtend 64
  | 1 => f.imm.setWidth 64
  | 2 => f.imm ++ (0 : W32)
  | _ => f.imm.setWidth 64

/-- R142: fields of an integer immediate form of width `w`; a count of `w` or more is illegal in a shift. DESIGN CHOICE: the
count is the `w` low bits of the immediate, so IK 2 shifts a 32-bit value by 0 (log 73). -/
def IForm.intOk (f : IForm) (w : Nat) (shift : Bool) : Bool :=
  f.ik.toNat != 3 && (Use.reg w).ok f.d && (Use.reg w).ok f.a
    && (!shift || decide ((f.val.setWidth w).toNat < w))

/-- R142: `MOVI`. -/
def IForm.moviOk (f : IForm) (w : Nat) : Bool := f.a.toNat == 0 && (Use.reg w).ok f.d

/-! ## M format -/

/-- R180: the data register. -/
def MForm.dOk (f : MForm) : Bool := (Use.reg (8 * f.w.size)).ok f.d

/-- R179: plain and weak accesses have SCP 0; the codes a load or store accepts. -/
def MForm.ordOk (f : MForm) (ords : List Ord) (scps : List Scope) : Bool :=
  ords.contains f.ord && scps.contains f.scp
    && ((f.ord != .plain && f.ord != .weak) || f.scp == .core)

def loadOrds : List Ord := [.plain, .weak, .acq, .sc]
def storeOrds : List Ord := [.plain, .weak, .rel, .sc]
def allScopes : List Scope := [.core, .clus, .dev, .sys]

/-! ## X format -/

/-- Fields of an X-format word (R77): the uses of D, A, B and C, and the IMM16 bits that must be zero. -/
structure XUse where
  d : Use := .zero
  a : Use := .zero
  b : Use := .zero
  c : Use := .zero
  zero : BitVec 16 := 0
  deriving Repr

def XUse.ok (u : XUse) (f : XForm) : Bool :=
  u.d.ok f.d && u.a.ok f.a && u.b.ok f.b && u.c.ok f.c && (f.imm &&& u.zero) == 0

/-- A field of IMM16, `n` bits from bit `l`. -/
def XForm.fld (f : XForm) (n l : Nat) : Nat := (bits n f.imm l).toNat

/-- R191: type of an atomic. -/
def atomTy (c : Nat) : Option Ty :=
  match c with
  | 0 => some .i32 | 1 => some .n32 | 2 => some .i64 | 3 => some .n64
  | 4 => some .b32 | 5 => some .b64 | 6 => some .f32 | _ => none

/-- R192: OP and TYPE pairs. -/
def atomPair (op : Nat) (t : Ty) : Bool :=
  if op ≤ 2 then int4.contains t
  else if op ≤ 7 then bit2.contains t
  else decide (op ≤ 10) && t == .f32

/-- R191, R192, R195, R196: the checks of an atomic; `red` and `shared` mark `RED` and `ATOMS`. -/
def XForm.atomOk (f : XForm) (red shared : Bool) : Bool :=
  let op := f.fld 4 12
  match atomTy (f.fld 3 9), Ord.ofCode (bits 3 f.imm 6) with
  | some t, some ord =>
    let r := Use.reg t.bits
    atomPair op t
      && XUse.ok { d := if red then .zero else r, a := if shared then .reg 32 else .reg 64, b := r,
                   c := if op == 7 then r else .zero, zero := if shared then 0x0003 else 0x000F } f
      && (!red || (op != 6 && op != 7 && (ord == .plain || ord == .weak || ord == .rel)))
      && (!shared || (f.fld 1 3 == 0 && f.fld 2 4 == 0)
            || (f.fld 1 3 == 1 && f.fld 1 2 == 0 && decide (f.fld 2 4 ≤ 1)))
  | _, _ => false

/-- R169: the checks of a shuffle; `idx` marks `SHFLI`. -/
def XForm.shflOk (f : XForm) (idx : Bool) : Bool :=
  let g := f.fld 3 13
  let w := if f.fld 1 12 == 1 then 64 else 32
  decide (g ≤ 4)
    && XUse.ok { d := .reg w, a := .reg w, b := if idx then .reg 32 else .zero, zero := 0x0FC0 } f
    && (if idx then f.fld 6 0 == 0 else decide (f.fld 6 0 < 4 * 2 ^ g))

/-- Field `i` of a parameter block, 0 to 15 (R93). -/
def ParamBlock.field (b : ParamBlock) (i : Nat) : BitVec 16 :=
  bits 16 (match i / 4 with | 0 => b.w0 | 1 => b.w1 | 2 => b.w2 | _ => b.w3) (16 * (i % 4))

/-- R93: a substitution field has bits [14:6] zero. -/
def ParamBlock.ok (b : ParamBlock) : Bool :=
  (List.range 16).all fun i =>
    let x := b.field i
    !(x.getLsbD 15) || (x &&& 0x7FC0) == 0

/-- R92: PB and SW of an engine instruction, and its block. -/
def XForm.blkOk (f : XForm) (blk : Option ParamBlock) : Bool :=
  let pb := f.fld 1 15 == 1
  let sw := f.fld 1 14 == 1
  !(pb && sw) && (match blk with | some b => pb && b.ok | none => !pb)

/-- R299: selectors of R23 and the width of the register, in bits. -/
def selWidth (sel : Nat) : Option Nat :=
  if sel = 0x18 ∨ sel = 0x20 then some 64
  else if sel ≤ 0x06 ∨ (0x08 ≤ sel ∧ sel ≤ 0x0A) ∨ (0x0C ≤ sel ∧ sel ≤ 0x0E) ∨ (0x10 ≤ sel ∧ sel ≤ 0x13)
      ∨ sel = 0x19 ∨ sel = 0x1A ∨ (0x28 ≤ sel ∧ sel ≤ 0x30 ∧ (sel ≤ 0x29 ∨ sel = 0x30)) then some 32
  else none

/-- R248, R241: the fields of a B-format word. -/
def BForm.regs (f : BForm) (a : Use) : Bool := a.ok f.a && f.b.toNat == 0

/-! ## The bundle and the Exdin form -/

/-- Set bits of a word. -/
def popcount {w : Nat} (x : BitVec w) : Nat :=
  (List.range w).foldl (fun n i => if x.getLsbD i then n + 1 else n) 0

/-- OCC of a header (R86). -/
def occOf (hdr : W64) : BitVec 16 := bits 16 hdr 42

/-- Bit length of an operand count (R311). -/
def ExForm.nop (f : ExForm) : Nat := f.ops.length + (if f.guard.isSome then 1 else 0)

/-- Operand kinds an Exdin operand position accepts: a register (`r`), any value (`v`: register, immediate or
shape) or a target (`t`). -/
inductive ExPos where
  | r | v | t
  deriving DecidableEq, Repr

def ExPos.ok (p : ExPos) (o : ExOp) : Bool :=
  match p, o with
  | .r, .reg _ => true
  | .v, .reg _ => true
  | .v, .imm _ => true
  | .v, .shape s _ _ _ => s != 3
  | .t, .target _ => true
  | _, _ => false

/-- Operand words against positions, one for one. -/
def exOps (ps : List ExPos) (os : List ExOp) : Bool :=
  match ps, os with
  | [], [] => true
  | p :: ps, o :: os => p.ok o && exOps ps os
  | _, _ => false

/-- What an Exdin operation uses (R313, R314): types, operand positions, RM codes, SAT and XM bits that may be
set. -/
structure ExUse where
  types : List Ty
  pos : List ExPos
  rms : Nat := 1
  sat : Bool := false
  xmMask : BitVec 11 := 0
  deriving Repr

/-- The guard operand names a register (R311). -/
def ExForm.guardOk (f : ExForm) : Bool :=
  match f.guard with | none => true | some (.reg _, _) => true | some _ => false

def ExUse.ok (u : ExUse) (f : ExForm) : Bool :=
  u.types.contains f.ty && exOps u.pos f.ops && decide (f.rm.code.toNat < u.rms) && (u.sat || !f.sat)
    && (f.xm &&& ~~~u.xmMask) == 0 && f.guardOk && decide (f.nop ≤ 7)

/-- A field of XM. -/
def ExForm.x (f : ExForm) (n l : Nat) : Nat := (bits n f.xm l).toNat

/-- Operations that take no TY code hold zero there. -/
def untyped : List Ty := [.i8]

/-- Types of one register value (R305). -/
def valTys : List Ty :=
  [.i8, .i16, .i32, .i64, .n8, .n16, .n32, .n64, .b8, .b16, .b32, .b64, .f16, .bf16, .f32, .e4m3, .e5m2, .e2m1]

/-- Memory types of an Exdin access: 8 to 64 bits. -/
def memTys : List Ty :=
  [.i8, .i16, .i32, .i64, .n8, .n16, .n32, .n64, .b8, .b16, .b32, .b64, .f16, .bf16, .f32, .e4m3, .e5m2]

/-- An ordering and scope in XM (R314). -/
def exOrd (f : ExForm) (l : Nat) (s : Nat) (ords : List Ord) : Bool :=
  match Ord.ofCode (bits 3 f.xm l) with
  | some o => ords.contains o && ((o != .plain && o != .weak) || f.x 2 s == 0)
  | none => false

/-! ## Instructions -/

/-- R162: `CVTI`. From a floating-point source RM 0 to 3 and no SAT; from an integer source RM 0. -/
def cvtiOk (f : RForm) : Bool :=
  match f.src with
  | some t =>
    (ints.contains t || floats3.contains t)
      && RUse.ok { types := ints, d := .reg f.w, a := .reg t.bits, c := .index 256,
                   rms := if t.isInt then 1 else 4, sat := t.isInt } f
  | none => false

/-- R162: `CVTF`. -/
def cvtfOk (f : RForm) : Bool :=
  match f.src with
  | some t =>
    ints.contains t
      && RUse.ok { types := floats3, d := .reg 32, a := .reg t.bits, c := .index 256, rms := 4, sat := true } f
  | none => false

/-- R146: `MOVL` requires LX. -/
def movlOk (f : RForm) : Bool :=
  f.lx.isSome && RUse.ok { types := bit2, d := .reg f.w, a := .zero, lx := true } f

/-- R149: `PMOV.get` and `PMOV.put`. -/
def pmovOk (f : RForm) : Bool :=
  let get := f.xm == 0
  RUse.ok { types := [.i8], d := if get then .reg 32 else .zero, a := if get then .zero else .reg 32, xms := 2 } f

/-- R170: `VOTE`. -/
def voteOk (f : RForm) : Bool :=
  RUse.ok { types := [.i8], d := if f.xm == 3 then .reg 64 else .pred, a := .pred, xms := 4 } f

/-- R171: `REDL` and `SCANL`. -/
def redlOk (f : RForm) (scan : Bool) : Bool :=
  RUse.ok { types := int4 ++ bit2 ++ [.f32], d := .reg f.w, a := .reg f.w, c := .index 5,
            xms := if scan then 16 else 8 } f
    && redlPair (f.xm.toNat % 8) f.ty

/-- R160: `DOT4`: RM is zero for the integer types. -/
def dot4Ok (f : RForm) : Bool :=
  RUse.ok { types := [.i8, .n8, .e4m3, .e5m2], d := .reg 32, a := .reg 32, b := .reg 32, c := .reg 32,
            rms := if f.ty == .i8 || f.ty == .n8 then 1 else 4, sat := true } f

/-- R151: arithmetic of major 0x08. -/
def fp3Ok (f : RForm) (arith three : Bool) : Bool :=
  RUse.ok { types := [.f32], d := .reg 32, a := .reg 32, b := .reg 32, c := if three then .reg 32 else .zero,
            lx := true, rms := if arith then 4 else 1, sat := arith } f

/-- R156: the transcendentals. -/
def fnOk (f : RForm) : Bool := RUse.ok { types := [.f32], d := .reg 32, a := .reg 32 } f

/-- R159: the packed pairs. -/
def hpOk (f : RForm) (three : Bool) : Bool :=
  RUse.ok { types := [.f16, .bf16], d := .reg 32, a := .reg 32, b := .reg 32, c := if three then .reg 32 else .zero,
            lx := true, rms := 4, sat := true } f

/-- R155: the FP32 immediate forms. -/
def fimmOk (f : IForm) : Bool := f.ik.toNat == 3 && (Use.reg 32).ok f.d && (Use.reg 32).ok f.a

/-- R179: a load or store of major 0x18. -/
def memOk (f : MForm) (base : Nat) (load : Bool) (scps : List Scope) (view : Bool) : Bool :=
  f.dOk && (Use.reg base).ok f.a && f.ordOk (if load then loadOrds else storeOrds) scps
    && (load || !f.w.signed) && (view || !f.view)

/-- R187: `GATH` and `SCAT`. -/
def gathOk (f : MForm) : Bool :=
  Use.sregN.ok f.d && (Use.reg 64).ok f.a && !f.w.signed && f.ord == .plain && f.scp == .core

/-- R190: `PREF`. -/
def prefOk (f : MForm) : Bool :=
  (Use.index 3).ok f.d && (Use.reg 64).ok f.a && f.w == .n8 && f.ord == .plain && f.scp == .core && !f.view

/-- R240: `MREAD` and `MWRITE`. -/
def mrwOk (f : XForm) : Bool :=
  decide (f.fld 2 9 < 3) && XUse.ok { d := .reg (32 * 2 ^ f.fld 2 9), a := .index 16, b := .sreg, zero := 0x0001 } f

/-- R220: width code of `TLD` and `TST`. -/
def XForm.tileW (f : XForm) : Option Width := Width.ofCode (bits 4 f.imm 11)

/-- R220. -/
def tldOk (f : XForm) (load : Bool) : Bool :=
  match f.tileW with
  | some w =>
    (load || !w.signed)
      && XUse.ok { d := .reg (8 * w.size), a := .sreg, b := .reg 32, zero := if load then 0x07FF else 0x87FF } f
  | none => false

/-- R269: the two forms of `CPY`. -/
def cpyOk (f : XForm) (blk : Option ParamBlock) (alloc : Bool) : Bool :=
  f.blkOk blk
    && (if alloc then
          f.fld 1 13 == 1 && f.fld 1 12 == 0 && XUse.ok { d := .sregN, a := .sregN, c := .sregN, zero := 0x00FF } f
        else f.fld 1 13 == 0 && XUse.ok { a := .sregN, b := .sregN, zero := 0x0FFF } f)

/-- A word that must be unguarded (R243). -/
def XForm.bareOk (f : XForm) (u : XUse) : Bool := f.g.isAlways && u.ok f

/-- R246: a branch whose A is a pair or an s-register. -/
def jumpOk (f : XForm) : Bool := XUse.ok { a := .reg 64, zero := 0xFFFF } f

/-- R172: `XMOV`. DESIGN CHOICE: an s-register of either parity may be the destination of a wide move (log 73). -/
def xmovOk (f : XForm) : Bool :=
  let wide := f.fld 1 5 == 1
  let lreg := f.fld 1 4 == 1
  XUse.ok { d := .reg (if wide then 64 else 32), a := .index 0xC0, b := if lreg then .reg 32 else .zero,
            zero := if lreg then 0xFFCF else 0xFFC0 } f
    && (!wide || f.a.toNat % 2 == 0)

/-- R290, R269: `MBSEND`. -/
def mbsendOk (f : XForm) : Bool :=
  let n := f.fld 7 0
  XUse.ok { a := .sregN, b := .sregN, zero := 0xFF80 } f && decide (1 ≤ n) && decide (n ≤ 64)
    && decide (f.b.toNat - 0xC0 + (n + 7) / 8 - 1 ≤ 62)

/-- R299, R23: `SREAD`. -/
def sreadOk (f : XForm) : Bool :=
  match selWidth (f.fld 8 0) with
  | some w => XUse.ok { d := .reg w, zero := 0xFF00 } f
  | none => false

/-- R165: `UNPACK`. -/
def unpackOk (f : RForm) : Bool :=
  f.srcIn narrow5
    && RUse.ok { types := [.f32], d := .reg 32, a := .reg 32, c := .index 256,
                 xms := match f.src with | some t => t.perReg | none => 0 } f

/-- The words of a bundle: the header has MAJ 0x3C, and OCC counts the words (R86, R87). -/
def bundleOk (hdr : W64) (words : List W64) : Bool :=
  bits 6 hdr 58 == 0x3C && words.length == popcount (occOf hdr)

/-- A custom-0 word that decodes to one of the six extension instructions (R98). -/
def hartExt (w : W32) : Bool :=
  bits 7 w 0 == 0x0B && bits 7 w 25 == 0 && decide ((bits 3 w 12).toNat < 6)

/-- R314, R162: the types and modes of an Exdin `cvt`. -/
def exCvtOk (f : ExForm) : Bool :=
  match Ty.ofCode (bits 5 f.xm 0) with
  | some s =>
    let base := fun rms sat => ExUse.ok { types := valTys, pos := [.r, .v], rms, sat, xmMask := 0x01F } f
    if f.ty.isInt then
      if s.isInt then base 1 true else floats3.contains s && base 4 false
    else if s.isInt then floats3.contains f.ty && base 4 true
    else floats6.contains f.ty && floats6.contains s && base 5 true && (f.rm != .sr || srLegal f.ty s)
  | none => false

/-- R314, R315: `xred` and `xscan`. -/
def exRedOk (f : ExForm) (scan : Bool) : Bool :=
  let fadd := f.ty == .f32 && f.x 3 8 == 0
  ExUse.ok { types := int4 ++ bit2 ++ [.f32], pos := [.r, .v], rms := if fadd then 4 else 1, sat := fadd,
             xmMask := if scan then 0x70F else 0x707 } f
    && (fadd || redlPair (f.x 3 8) f.ty) && decide (f.x 3 0 ≤ 4)

/-- R314: an Exdin memory access with its ordering, scope and view in XM. -/
def exMemOk (f : ExForm) (load shared : Bool) (pos : List ExPos) : Bool :=
  ExUse.ok { types := memTys, pos, xmMask := if shared then 0x027 else 0x01F } f
    && exOrd f 0 3 (if load then loadOrds else storeOrds)

/-- R314: an Exdin `atom`. -/
def exAtomOk (f : ExForm) : Bool :=
  ExUse.ok { types := int4 ++ bit2 ++ [.f32], pos := [.r, .v, .v, .v], xmMask := 0x7FC } f
    && atomPair (f.x 4 7) f.ty && (Ord.ofCode (bits 3 f.xm 4)).isSome

/-- R314, R238: an Exdin `acc`. -/
def exAccOk (f : ExForm) : Bool :=
  match f.x 2 0 with
  | 0 => ExUse.ok { types := untyped, pos := [.r, .v, .v], xmMask := 0x003 } f
  | 1 => ExUse.ok { types := [.b32, .b64, .f32, .i32], pos := [.r, .r, .v, .v], xmMask := 0x003 } f
  | 2 => ExUse.ok { types := [.b32, .b64, .f32, .i32], pos := [.r, .v, .v, .v], xmMask := 0x003 } f
  | _ => false

/-- R314, R23: an Exdin `sreg`; TY holds what the selector gives, as the native destination must (R299). -/
def exSregOk (f : ExForm) : Bool :=
  ExUse.ok { types := valTys, pos := [.r], xmMask := 0x0FF } f
    && (match selWidth (f.x 8 0) with
      | some w => decide (w ≤ f.ty.bits)
      | none => decide (0x80 ≤ f.x 8 0 ∧ f.x 8 0 ≤ 0x82))

/-- An Exdin operation with no guard (R316, R243). -/
def ExForm.bare (f : ExForm) (u : ExUse) : Bool := f.guard.isNone && u.ok f

/-- R136 and R143 in Exdin: one destination and `n` sources. -/
def exIntOk (f : ExForm) (types : List Ty) (n : Nat) (sat : Bool) (xm : BitVec 11) : Bool :=
  ExUse.ok { types, pos := .r :: List.replicate n .v, sat, xmMask := xm } f

/-- R152 in Exdin. -/
def exFpOk (f : ExForm) (n : Nat) (arith : Bool) : Bool :=
  ExUse.ok { types := [.f32], pos := .r :: List.replicate n .v, rms := if arith then 4 else 1, sat := arith } f

/-- Whether an instruction is one that a word can encode: every check of R96 steps 3, 5 and 6 that the word decides
alone. Rows without fields, and events, carry no check. -/
def Instr.wf : Instr → Bool
  | .iadd f | .isub f | .imul f | .idiv f => f.wide3 int4 true
  | .iaddc f => RUse.ok { types := [.n32, .n64], d := .reg f.w, a := .reg f.w, b := .reg f.w, c := .index 16,
                          lx := true, xms := 8 } f
  | .imulh f | .irem f | .imin f | .imax f => f.wide3 int4 false
  | .imad f => RUse.ok { types := int4, d := .reg f.w, a := .reg f.w, b := .reg f.w, c := .reg f.w, lx := true,
                         sat := true } f
  | .ineg f | .iabs f => f.wide2 [.i32, .i64] true
  | .icmp f => RUse.ok { types := int4, d := .pred, a := .reg f.w, b := .reg f.w, lx := true, xms := 6 } f
  | .iaddImm32 f | .imulImm32 f | .andImm32 f | .orImm32 f | .xorImm32 f => f.intOk 32 false
  | .shlImm32 f | .shrImm32 f | .sarImm32 f | .rotImm32 f => f.intOk 32 true
  | .movi32 f => f.moviOk 32
  | .iaddImm64 f | .imulImm64 f | .andImm64 f | .orImm64 f | .xorImm64 f => f.intOk 64 false
  | .shlImm64 f | .shrImm64 f | .sarImm64 f | .rotImm64 f => f.intOk 64 true
  | .movi64 f => f.moviOk 64
  | .andR f | .orR f | .xorR f | .andn f => f.wide3 bit2 false
  | .notR f | .brev f => f.wide2 bit2 false
  | .shl f | .shr f | .sar f | .rot f => f.shift3 bit2
  | .bfx f => f.shift3 int4
  | .bfi f => RUse.ok { types := bit2, d := .reg f.w, a := .reg f.w, b := .reg 32, c := .reg f.w, lx := true } f
  | .popc f | .clz f | .ctz f => RUse.ok { types := bit2, d := .reg 32, a := .reg f.w } f
  | .nop f => RUse.ok { types := untyped, d := .zero, a := .zero } f
  | .mov f => RUse.ok { types := [.b32, .b64, .b128], d := .reg f.w, a := .reg f.w } f
  | .movl f => movlOk f
  | .sel f => RUse.ok { types := bit2, d := .reg f.w, a := .reg f.w, b := .reg f.w, c := .index 16, lx := true } f
  | .pset f => RUse.ok { types := untyped, d := .pred, a := .pred, b := .pred, xms := 16 } f
  | .pmov f => pmovOk f
  | .lea f => RUse.ok { types := [.i32, .n32], d := .reg 64, a := .reg 64, b := .reg 32, lx := true, xms := 8 } f
  | .fadd f | .fsub f | .fmul f | .fdiv f => fp3Ok f true false
  | .ffma f => fp3Ok f true true
  | .fmin f | .fmax f => fp3Ok f false false
  | .fcmp f => RUse.ok { types := [.f32], d := .pred, a := .reg 32, b := .reg 32, lx := true, xms := 8 } f
  | .fclass f => RUse.ok { types := floats3, d := .reg 32, a := .reg 32 } f
  | .fsqrt f => RUse.ok { types := [.f32], d := .reg 32, a := .reg 32, rms := 4, sat := true } f
  | .faddImm f | .fmulImm f | .fminImm f | .fmaxImm f => fimmOk f
  | .frcp f | .frsq f | .fexp2 f | .flog2 f | .fsin f | .fcos f | .ftanh f => fnOk f
  | .hadd2 f | .hmul2 f => hpOk f false
  | .hfma2 f => hpOk f true
  | .dot4 f => dot4Ok f
  | .cvt f => RUse.ok { types := floats6, d := .reg 32, a := .reg 32, c := .index 256, rms := 5, sat := true } f
                && f.srcIn floats6 && f.srOk
  | .cvti f => cvtiOk f
  | .cvtf f => cvtfOk f
  | .rnd f => RUse.ok { types := floats3, d := .reg 32, a := .reg 32, rms := 4 } f
  | .pack f => RUse.ok { types := narrow5, d := .reg 32, a := .reg 32, b := .reg 32, c := .index 256, rms := 5,
                         sat := true, xms := f.ty.perReg / 2 } f && f.srcIn [.f32]
  | .unpack f => unpackOk f
  | .scaleq f => RUse.ok { types := scaled3, d := .reg 32, a := .reg 32, b := .reg 32, c := .index 256, lx := true,
                           rms := 5, sat := true } f && f.srcIn [.f32]
  | .bscale f => RUse.ok { types := scaled3, d := .reg 32, a := .reg 32, c := .index 256 } f && f.srcIn [.f32]
  | .shfli f => f.shflOk true
  | .shflx f | .shfld f | .shfla f | .bcast f => f.shflOk false
  | .vote f => voteOk f
  | .redl f => redlOk f false
  | .scanl f => redlOk f true
  | .xmov f => xmovOk f
  | .ld f => memOk f 64 true allScopes false
  | .st f => memOk f 64 false allScopes false
  | .lds f => memOk f 32 true [.core] true
  | .sts f => memOk f 32 false [.core] true
  | .ldk f => memOk f 32 true [.core, .clus] false
  | .stk f => memOk f 32 false [.core, .clus] false
  | .ldc f => memOk f 64 true [.core] false && f.ord == .plain
  | .pref f => prefOk f
  | .gath f | .scat f => gathOk f
  | .atom f => f.atomOk false false
  | .atoms f => f.atomOk false true
  | .red f => f.atomOk true false
  | .fence f => decide (2 ≤ f.fld 3 13) && decide (f.fld 3 13 ≤ 5) && XUse.ok { zero := 0x07FF } f
  | .pfence f => XUse.ok { zero := 0x0FFF } f
  | .vjoin f => XUse.ok { zero := 0xFFFF } f
  | .cctl f => decide (f.fld 3 13 < 4) && XUse.ok { a := .reg 64, zero := 0x1FFF } f
  | .talloc f => XUse.ok { d := .sreg, b := .sreg, c := if f.fld 12 0 == 0 then .sreg else .zero } f
  | .tseal f => XUse.ok { a := .sreg, zero := 0xFFFF } f
  | .tld f => tldOk f true
  | .tst f => tldOk f false
  | .tdrop f => XUse.ok { a := .sreg, b := if f.fld 12 0 == 0 then .sreg else .zero, zero := 0xF000 } f
  | .tquery f => XUse.ok { d := .reg 64, a := .sreg, zero := 0xFFFF } f
  | .qpost f => XUse.ok { d := .index 32, a := .sreg, zero := 0xFFFF } f
  | .qtake f => XUse.ok { d := .sreg, a := .index 32, zero := 0x1E00 } f && decide (1 ≤ f.fld 9 0)
                  && decide (f.fld 9 0 ≤ 256)
  | .qadv f => XUse.ok { d := .index 32, b := if f.fld 9 0 == 0 then .sreg else .zero, zero := 0x3E00 } f
                 && decide (f.fld 9 0 ≤ 256)
  | .qcnt f => XUse.ok { d := .reg 32, a := .index 32, zero := 0x3FFF } f
  | .mlease f => XUse.ok { zero := 0x7FE0 } f && decide (1 ≤ f.fld 5 0) && decide (f.fld 5 0 ≤ 16)
  | .mrel f | .mswap f => XUse.ok { zero := 0xFFFF } f
  | .mloadw f blk => XUse.ok { a := .sreg, zero := 0x3FFF } f && f.blkOk blk
  | .mstream f blk => XUse.ok { d := .index 16, a := .sreg, zero := 0x0FFF } f && f.blkOk blk
  | .mzero f => XUse.ok { d := .index 16, zero := 0x001F } f && decide (1 ≤ f.fld 6 5)
                  && decide (f.fld 5 11 + f.fld 6 5 ≤ 32)
  | .mread f | .mwrite f => mrwOk f
  | .mmeta f => XUse.ok { a := .reg 64, zero := 0xFFFF } f
  | .mshape f => XUse.ok { d := .index 4, a := .reg 32, zero := 0x0FFF } f && decide (f.fld 2 14 < 3)
  | .cpy f blk => cpyOk f blk false
  | .cpyAlloc f blk => cpyOk f blk true
  | .cpyw f => XUse.ok { zero := 0xFFE0 } f && decide (f.fld 5 0 ≤ 16)
  | .cpyq f => XUse.ok { d := .reg 32, zero := 0xFFFF } f
  | .splw f => XUse.ok { a := .reg 32, zero := 0xFFFF } f
  | .splr f | .splf f => XUse.ok { d := .reg 32, zero := 0xFFFF } f
  | .mbsend f => mbsendOk f
  | .launch f => XUse.ok { d := .sregN, a := .sregN, zero := 0xFFFF } f
  | .bar f | .barxArv f => f.bareOk { d := .index 64, zero := 0xFFFF }
  | .barxExp f => f.bareOk { d := .index 64, zero := 0x7FE0 } && f.fld 1 15 == 1
  | .barw f => XUse.ok { d := .index 64, zero := 0xFFFF } f
  | .bbrot f => XUse.ok { zero := 0xFFC0 } f
  | .waitc f => XUse.ok { d := .pred, a := .sreg, b := .sreg, c := .sreg, zero := 0x07FF } f
                  && decide (f.fld 3 13 < 6)
  | .qpoint f | .exit f | .lend f | .yield f | .prels f | .pgate f => XUse.ok { zero := 0xFFFF } f
  | .bra f | .modeVliw f | .modeSimt f => f.regs .zero
  | .call f => f.regs (.reg 64) && f.a != 0xFF
  | .rconv f => f.regs .zero && f.g.isAlways
  | .loop f => f.regs (.reg 32) && f.g.isAlways
  | .brx f | .ret f | .hret f => jumpOk f
  | .regang f => f.bareOk {}
  | .sleep f => XUse.ok { a := .sreg } f
  | .pgrant f => XUse.ok { zero := 0xFFF8 } f
  | .trap f | .brk f | .probe f => XUse.ok {} f
  | .docinv f => XUse.ok { a := .sregN, b := .sregN, zero := 0xFFFF } f
  | .sread f => sreadOk f
  | .swrite f => (selWidth (f.fld 8 0)).isSome && XUse.ok { a := .reg 32, zero := 0xFF00 } f
  | .bundle hdr words => bundleOk hdr words
  | .hcpy _ | .hwait _ | .halloc _ | .hpost _ | .hsig _ | .hsleep _ => true
  | .exNop f | .exExit f => ExUse.ok { types := untyped, pos := [] } f
  | .exMov f => ExUse.ok { types := valTys, pos := [.r, .v] } f
  | .exAdd f | .exSub f | .exMul f | .exDiv f => exIntOk f int4 2 true 0
  | .exMad f => exIntOk f int4 3 true 0
  | .exRem f | .exMin f | .exMax f | .exBfx f => exIntOk f int4 2 false 0
  | .exAnd f | .exOr f | .exXor f | .exShl f => exIntOk f bit2 2 false 0
  | .exShr f => exIntOk f bit2 2 false 0x001
  | .exBitc f => exIntOk f bit2 1 false 0x003
  | .exBfi f => exIntOk f bit2 3 false 0
  | .exCmp f => exIntOk f int4 2 false 0x007 && decide (f.x 3 0 < 6)
  | .exSel f => ExUse.ok { types := bit2, pos := [.r, .r, .v, .v] } f
  | .exFadd f | .exFsub f | .exFmul f | .exFdiv f => exFpOk f 2 true
  | .exFfma f => exFpOk f 3 true
  | .exFmin f | .exFmax f => exFpOk f 2 false
  | .exFsqrt f => exFpOk f 1 true
  | .exFcmp f => ExUse.ok { types := [.f32], pos := [.r, .v, .v], xmMask := 0x007 } f
  | .exFunc f => ExUse.ok { types := [.f32], pos := [.r, .v], xmMask := 0x007 } f && decide (f.x 3 0 < 7)
  | .exCvt f => exCvtOk f
  | .exQuant f => ExUse.ok { types := scaled3, pos := [.r, .v, .v], rms := 5, sat := true } f
  | .exBscale f => ExUse.ok { types := scaled3, pos := [.r, .v] } f
  | .exShfl f => ExUse.ok { types := bit2, pos := [.r, .v, .v], xmMask := 0x067 } f && decide (f.x 3 0 ≤ 4)
  | .exBcast f => ExUse.ok { types := bit2, pos := [.r, .v, .v], xmMask := 0x007 } f && decide (f.x 3 0 ≤ 4)
  | .exVote f => ExUse.ok { types := untyped, pos := [.r, .r], xmMask := 0x003 } f
  | .exXred f => exRedOk f false
  | .exXscan f => exRedOk f true
  | .exLd f => exMemOk f true false [.r, .v, .v]
  | .exSt f => exMemOk f false false [.v, .v, .v]
  | .exLds f => exMemOk f true true [.r, .v, .v]
  | .exSts f => exMemOk f false true [.v, .v, .v]
  | .exAtom f => exAtomOk f
  | .exFence f => ExUse.ok { types := untyped, pos := [], xmMask := 0x01F } f && decide (2 ≤ f.x 3 0)
                    && decide (f.x 3 0 ≤ 5)
  | .exTalloc f => ExUse.ok { types := untyped, pos := [.r, .v, .v], xmMask := 0x00F } f
  | .exTseal f => ExUse.ok { types := untyped, pos := [.r] } f
  | .exTld f => ExUse.ok { types := memTys, pos := [.r, .r, .v], xmMask := 0x001 } f
  | .exTst f => ExUse.ok { types := memTys, pos := [.r, .v, .v] } f
  | .exTdrop f => ExUse.ok { types := untyped, pos := [.r, .v] } f
  | .exQpost f => ExUse.ok { types := untyped, pos := [.r], xmMask := 0x01F } f
  | .exQtake f => ExUse.ok { types := untyped, pos := [.r, .v], xmMask := 0x0FF } f
  | .exCopy f => ExUse.ok { types := untyped, pos := [.v, .v, .v, .v, .v, .v], xmMask := 0x1FF } f
  | .exWload f => ExUse.ok { types := untyped, pos := [.v, .v, .v, .v], xmMask := 0x1FF } f
  | .exMm f => ExUse.ok { types := untyped, pos := [.r, .v, .v, .v, .v, .v], xmMask := 0x3FF } f
  | .exAcc f => exAccOk f
  | .exIf f => f.bare { types := untyped, pos := [.r, .t, .t] }
  | .exLoop f => f.bare { types := untyped, pos := [.v, .t] }
  | .exBrk f => ExUse.ok { types := untyped, pos := [.r] } f
  | .exSreg f => exSregOk f
  | .hartBaseInstruction w => !hartExt w
  | .undefinedWord _ | .gsync | .phase | .join | .exElse | .exEndif | .exEndloop | .exBar | .qtail | .qctl
  | .registerWrite | .invgo | .launchPacketRead | .stealRequest | .unitPlacement | .blockEnd | .gridCompletion
  | .mailboxHandlerLaunch | .mailboxDelivery | .serviceMailboxMessage | .copyCompletion | .gatherElement
  | .weightLoadCompletion | .streamCompletion | .loadReturn | .storeDrain | .stampedWriteApply
  | .monitorReexamine | .monitorPoll | .waitcTimeout | .sleepDeadline | .tileGrant | .poolStall | .tileDrain
  | .leaseGrant | .leaseExpiry | .powerGrant | .powerWindow | .powerBudget | .vaultSensorReading | .throttleStep
  | .hotPageMigration | .agentCounterWriteback | .clockChange | .preemptForPriority | .starvationResume
  | .blockResume | .taskBudgetExpiry | .taskPreload | .phaseTaskStart | .rillAppend | .spillwayPushArrival
  | .impreciseTrapDelivery | .deadlockWatchdog | .coreAcknowledge | .invalidationWatchdog | .migrationQuantum
  | .holdExpiry | .checkpoint | .instructionSample | .fatalError | .moduleReset | .patrolScrub | .flitRetry
  | .creditReturn | .peerWriteArrival | .hostAccess | .featget | .featset | .ctxnew | .ctxend | .mbxreg
  | .mbxunreg | .codesync | .attest | .dbgctl | .stop | .resume | .ckpt | .imgwrite | .reset | .dumpbase
  | .coupling | .fetchFault | .spillwayPopArrival | .docinvCompletion | .pageMoveCompletion | .peerReadArrival
  | .forcedUnload | .replay | .unknownCommand => true

end Sys2Proof
end

