-- ==== Sys2Proof/Decode.lean ====
section
/-! DEFINITION. The decoders of the native word (R75 to R97), of a bundle (R86), of a hart's word (R98) and of an Exdin
head word (R311 to R313), each total and rejecting by name, and the encoders from the same tables. -/

namespace Sys2Proof

/-- Why a word decodes to no instruction. -/
inductive DecodeErr where
  /-- R96 step 1: MAJ 0x30 to 0x37 or 0x3E. -/
  | reservedMajor
  /-- R96 step 2: MAJ 0x3D or 0x3F, or a bundle header out of place, or no header where one stands. -/
  | illegalMajor
  /-- R96 step 3: a function value or operation code that R95 or R314 does not assign. -/
  | unassigned
  /-- R96 steps 5 and 6: a field or code that the instruction does not accept. -/
  | badField
  /-- The list of words ends inside the instruction. -/
  | truncated
  deriving DecidableEq, Repr

/-! ## Fields of a word (R75, R76) -/

def wordMaj (w : W64) : Nat := (bits 6 w 58).toNat

def wordGuard (w : W64) : Guard := ⟨bits 3 w 55, (bits 1 w 54) == 1⟩

/-- R format. LX takes the following word (R84). -/
def getR (w : W64) (lx : Option W64) : Option RForm :=
  match Ty.ofCode (bits 5 w 8), Rnd.ofCode (bits 3 w 5) with
  | some ty, some rm =>
    some { g := wordGuard w, d := bits 8 w 38, a := bits 8 w 30, b := bits 8 w 22, c := bits 8 w 14, lx,
           ty, rm, sat := bits 1 w 4 == 1, xm := bits 4 w 0 }
  | _, _ => none

/-- I format. -/
def getI (w : W64) : IForm :=
  { g := wordGuard w, d := bits 8 w 42, a := bits 8 w 34, imm := bits 32 w 2, ik := bits 2 w 0 }

/-- M format. -/
def getM (w : W64) : Option MForm :=
  match Width.ofCode (bits 4 w 46), Ord.ofCode (bits 3 w 3) with
  | some wd, some ord =>
    some { g := wordGuard w, w := wd, d := bits 8 w 38, a := bits 8 w 30, x := bits 8 w 22, off := bits 16 w 6,
           ord, scp := Scope.ofCode (bits 2 w 1), view := bits 1 w 0 == 1 }
  | _, _ => none

/-- X format. -/
def getX (w : W64) : XForm :=
  { g := wordGuard w, d := bits 8 w 40, a := bits 8 w 32, b := bits 8 w 24, c := bits 8 w 16, imm := bits 16 w 0 }

/-- B format. -/
def getB (w : W64) : BForm := { g := wordGuard w, a := bits 8 w 40, b := bits 8 w 32, off := bits 32 w 0 }

/-! ## The opcode map (R94, R95) -/

/-- R-format majors. -/
def rOp (maj fn : Nat) : Option (RForm → Instr) :=
  match maj, fn with
  | 0x00, 0x00 => some .iadd | 0x00, 0x01 => some .isub | 0x00, 0x02 => some .iaddc | 0x00, 0x03 => some .imul
  | 0x00, 0x04 => some .imulh | 0x00, 0x05 => some .imad | 0x00, 0x06 => some .idiv | 0x00, 0x07 => some .irem
  | 0x00, 0x08 => some .ineg | 0x00, 0x09 => some .iabs | 0x00, 0x0A => some .imin | 0x00, 0x0B => some .imax
  | 0x00, 0x0C => some .icmp
  | 0x03, 0x00 => some .andR | 0x03, 0x01 => some .orR | 0x03, 0x02 => some .xorR | 0x03, 0x03 => some .andn
  | 0x03, 0x04 => some .notR | 0x03, 0x05 => some .shl | 0x03, 0x06 => some .shr | 0x03, 0x07 => some .sar
  | 0x03, 0x08 => some .rot | 0x03, 0x09 => some .bfx | 0x03, 0x0A => some .bfi | 0x03, 0x0B => some .popc
  | 0x03, 0x0C => some .clz | 0x03, 0x0D => some .ctz | 0x03, 0x0E => some .brev
  | 0x04, 0x00 => some .nop | 0x04, 0x01 => some .mov | 0x04, 0x02 => some .movl | 0x04, 0x03 => some .sel
  | 0x04, 0x04 => some .pset | 0x04, 0x05 => some .pmov | 0x04, 0x06 => some .lea
  | 0x08, 0x00 => some .fadd | 0x08, 0x01 => some .fsub | 0x08, 0x02 => some .fmul | 0x08, 0x03 => some .ffma
  | 0x08, 0x04 => some .fmin | 0x08, 0x05 => some .fmax | 0x08, 0x06 => some .fcmp | 0x08, 0x07 => some .fclass
  | 0x08, 0x08 => some .fdiv | 0x08, 0x09 => some .fsqrt
  | 0x0A, 0x00 => some .frcp | 0x0A, 0x01 => some .frsq | 0x0A, 0x02 => some .fexp2 | 0x0A, 0x03 => some .flog2
  | 0x0A, 0x04 => some .fsin | 0x0A, 0x05 => some .fcos | 0x0A, 0x06 => some .ftanh
  | 0x0B, 0x00 => some .hadd2 | 0x0B, 0x01 => some .hmul2 | 0x0B, 0x02 => some .hfma2 | 0x0B, 0x03 => some .dot4
  | 0x10, 0x00 => some .cvt | 0x10, 0x01 => some .cvti | 0x10, 0x02 => some .cvtf | 0x10, 0x03 => some .rnd
  | 0x11, 0x00 => some .pack | 0x11, 0x01 => some .unpack | 0x11, 0x02 => some .scaleq | 0x11, 0x03 => some .bscale
  | 0x15, 0x00 => some .vote | 0x15, 0x01 => some .redl | 0x15, 0x02 => some .scanl
  | _, _ => none

/-- I-format majors. -/
def iOp (maj fn : Nat) : Option (IForm → Instr) :=
  match maj, fn with
  | 0x01, 0x0 => some .iaddImm32 | 0x01, 0x1 => some .imulImm32 | 0x01, 0x2 => some .andImm32
  | 0x01, 0x3 => some .orImm32 | 0x01, 0x4 => some .xorImm32 | 0x01, 0x5 => some .shlImm32
  | 0x01, 0x6 => some .shrImm32 | 0x01, 0x7 => some .sarImm32 | 0x01, 0x8 => some .rotImm32
  | 0x01, 0x9 => some .movi32
  | 0x02, 0x0 => some .iaddImm64 | 0x02, 0x1 => some .imulImm64 | 0x02, 0x2 => some .andImm64
  | 0x02, 0x3 => some .orImm64 | 0x02, 0x4 => some .xorImm64 | 0x02, 0x5 => some .shlImm64
  | 0x02, 0x6 => some .shrImm64 | 0x02, 0x7 => some .sarImm64 | 0x02, 0x8 => some .rotImm64
  | 0x02, 0x9 => some .movi64
  | 0x09, 0x0 => some .faddImm | 0x09, 0x1 => some .fmulImm | 0x09, 0x2 => some .fminImm | 0x09, 0x3 => some .fmaxImm
  | _, _ => none

/-- M-format majors. -/
def mOp (maj fn : Nat) : Option (MForm → Instr) :=
  match maj, fn with
  | 0x18, 0x0 => some .ld | 0x18, 0x1 => some .st | 0x18, 0x2 => some .lds | 0x18, 0x3 => some .sts
  | 0x18, 0x4 => some .ldk | 0x18, 0x5 => some .stk | 0x18, 0x6 => some .ldc | 0x18, 0x7 => some .pref
  | 0x19, 0x0 => some .gath | 0x19, 0x1 => some .scat
  | _, _ => none

/-- X-format majors. `BARX` is two instructions by IMM16[15] (R257). -/
def xOp (maj fn : Nat) (imm : BitVec 16) : Option (XForm → Instr) :=
  match maj, fn with
  | 0x14, 0x00 => some .shfli | 0x14, 0x01 => some .shflx | 0x14, 0x02 => some .shfld | 0x14, 0x03 => some .shfla
  | 0x14, 0x04 => some .bcast | 0x16, 0x00 => some .xmov
  | 0x1A, 0x00 => some .atom | 0x1A, 0x01 => some .atoms | 0x1A, 0x02 => some .red
  | 0x1B, 0x00 => some .fence | 0x1B, 0x01 => some .pfence | 0x1B, 0x02 => some .vjoin | 0x1B, 0x03 => some .cctl
  | 0x20, 0x00 => some .talloc | 0x20, 0x01 => some .tseal | 0x20, 0x02 => some .tld | 0x20, 0x03 => some .tst
  | 0x20, 0x04 => some .tdrop | 0x20, 0x05 => some .tquery
  | 0x21, 0x00 => some .qpost | 0x21, 0x01 => some .qtake | 0x21, 0x02 => some .qadv | 0x21, 0x03 => some .qcnt
  | 0x24, 0x00 => some .mlease | 0x24, 0x01 => some .mrel | 0x24, 0x03 => some .mswap
  | 0x24, 0x05 => some .mzero | 0x24, 0x06 => some .mread | 0x24, 0x07 => some .mwrite | 0x24, 0x08 => some .mmeta
  | 0x24, 0x09 => some .mshape
  | 0x28, 0x01 => some .cpyw | 0x28, 0x02 => some .cpyq
  | 0x29, 0x00 => some .splw | 0x29, 0x01 => some .splr | 0x29, 0x02 => some .splf
  | 0x2A, 0x00 => some .mbsend | 0x2A, 0x01 => some .launch
  | 0x2C, 0x00 => some .bar | 0x2C, 0x01 => some (if imm.getLsbD 15 then .barxExp else .barxArv)
  | 0x2C, 0x02 => some .barw | 0x2C, 0x03 => some .bbrot | 0x2C, 0x05 => some .waitc
  | 0x2C, 0x07 => some .qpoint
  | 0x2F, 0x00 => some .brx | 0x2F, 0x01 => some .ret | 0x2F, 0x02 => some .exit
  | 0x2F, 0x04 => some .regang | 0x2F, 0x05 => some .lend | 0x2F, 0x06 => some .yield | 0x2F, 0x07 => some .sleep
  | 0x38, 0x00 => some .pgrant | 0x38, 0x01 => some .prels | 0x38, 0x02 => some .pgate
  | 0x39, 0x00 => some .trap | 0x39, 0x01 => some .hret | 0x39, 0x02 => some .brk | 0x39, 0x03 => some .probe
  | 0x39, 0x04 => some .docinv
  | 0x3A, 0x00 => some .sread | 0x3A, 0x01 => some .swrite
  | _, _ => none

/-- X-format instructions whose word has no free bit: unguarded, every other field zero (R243, R77). -/
def xnOp (maj fn : Nat) : Option Instr :=
  match maj, fn with
  | 0x2C, 0x04 => some .gsync | 0x2C, 0x06 => some .phase | 0x2F, 0x03 => some .join
  | _, _ => none

/-- X-format instructions that may own a parameter block (R92). `CPY` is two instructions by IMM16[13] (R269). -/
def xbOp (maj fn : Nat) (imm : BitVec 16) : Option (XForm → Option ParamBlock → Instr) :=
  match maj, fn with
  | 0x24, 0x02 => some .mloadw | 0x24, 0x04 => some .mstream
  | 0x28, 0x00 => some (if imm.getLsbD 13 then .cpyAlloc else .cpy)
  | _, _ => none

/-- B-format major. -/
def bOp (maj fn : Nat) : Option (BForm → Instr) :=
  match maj, fn with
  | 0x2E, 0x00 => some .bra | 0x2E, 0x01 => some .call | 0x2E, 0x02 => some .rconv | 0x2E, 0x03 => some .modeVliw
  | 0x2E, 0x04 => some .modeSimt | 0x2E, 0x05 => some .loop
  | _, _ => none

/-! ## Decoding -/

/-- R96 steps 1 and 2 for a word of SIMT code or of a slot. -/
def majErr (maj : Nat) : DecodeErr :=
  if (0x30 ≤ maj ∧ maj ≤ 0x37) ∨ maj = 0x3E then .reservedMajor
  else if maj = 0x3C ∨ maj = 0x3D ∨ maj = 0x3F then .illegalMajor
  else .unassigned

/-- The instruction when its fields are legal (R96 steps 5 and 6), with the words that follow it. -/
def checked (i : Instr) (rest : List W64) : Except DecodeErr (Instr × List W64) :=
  if i.wf then .ok (i, rest) else .error .badField

/-- Decodes the first instruction of SIMT code or of a slot (R75 to R97). -/
def decodeNative (ws : List W64) : Except DecodeErr (Instr × List W64) :=
  match ws with
  | [] => .error .truncated
  | w :: rest =>
    let maj := wordMaj w
    match rOp maj (bits 8 w 46).toNat with
    | some k =>
      match bits 1 w 13 == 1, rest with
      | true, [] => .error .truncated
      | true, imm :: rest =>
        match getR w (some imm) with
        | some f => checked (k f) rest
        | none => .error .badField
      | false, rest =>
        match getR w none with
        | some f => checked (k f) rest
        | none => .error .badField
    | none =>
      match iOp maj (bits 4 w 50).toNat with
      | some k => checked (k (getI w)) rest
      | none =>
        match mOp maj (bits 4 w 50).toNat with
        | some k =>
          match getM w with
          | some f => checked (k f) rest
          | none => .error .badField
        | none =>
          match xOp maj (bits 6 w 48).toNat (bits 16 w 0) with
          | some k => checked (k (getX w)) rest
          | none =>
            match xbOp maj (bits 6 w 48).toNat (bits 16 w 0) with
            | some k =>
              match bits 1 w 15 == 1, rest with
              | true, a :: b :: c :: d :: rest => checked (k (getX w) (some ⟨a, b, c, d⟩)) rest
              | true, _ => .error .truncated
              | false, rest => checked (k (getX w) none) rest
            | none =>
              match bOp maj (bits 6 w 48).toNat with
              | some k => checked (k (getB w)) rest
              | none =>
                match xnOp maj (bits 6 w 48).toNat with
                | some i => if (getX w).bareOk { zero := 0xFFFF } then .ok (i, rest) else .error .badField
                | none => .error (majErr maj)

/-- Words that follow the head word of a native instruction (R84, R92). DESIGN CHOICE: a word whose function is unassigned has
none, so a bundle that gives its slot a surrendered word breaks R88 (log 73). -/
def wordsAfter (w : W64) : Nat :=
  let maj := wordMaj w
  if (rOp maj (bits 8 w 46).toNat).isSome then (if bits 1 w 13 == 1 then 1 else 0)
  else if (xbOp maj (bits 6 w 48).toNat (bits 16 w 0)).isSome then (if bits 1 w 15 == 1 then 4 else 0)
  else 0

/-- Decodes a bundle: its header and one word for each bit of OCC (R86, R87). -/
def decodeBundle (ws : List W64) : Except DecodeErr (Instr × List W64) :=
  match ws with
  | [] => .error .truncated
  | hdr :: rest =>
    if wordMaj hdr = 0x3C then
      if popcount (occOf hdr) ≤ rest.length then
        .ok (.bundle hdr (rest.take (popcount (occOf hdr))), rest.drop (popcount (occOf hdr)))
      else .error .truncated
    else .error .illegalMajor

/-- Decodes a word of a hart (R98). Every other word belongs to RV64IMAC, its illegal words among them. -/
def decodeHart (w : W32) : Instr :=
  if hartExt w then
    let f : HForm := ⟨bits 5 w 7, bits 5 w 15, bits 5 w 20⟩
    match (bits 3 w 12).toNat with
    | 0 => .hcpy f | 1 => .hwait f | 2 => .halloc f | 3 => .hpost f | 4 => .hsig f | _ => .hsleep f
  else .hartBaseInstruction w

/-- R314: the operation of an OPC. -/
def exOp (opc : Nat) : Option (ExForm → Instr) :=
  match opc with
  | 0x00 => some .exNop | 0x01 => some .exMov | 0x02 => some .exAdd | 0x03 => some .exSub | 0x04 => some .exMul
  | 0x05 => some .exMad | 0x06 => some .exDiv | 0x07 => some .exRem | 0x08 => some .exMin | 0x09 => some .exMax
  | 0x0A => some .exAnd | 0x0B => some .exOr | 0x0C => some .exXor | 0x0D => some .exShl | 0x0E => some .exShr
  | 0x0F => some .exBitc | 0x10 => some .exBfx | 0x11 => some .exBfi | 0x12 => some .exCmp | 0x13 => some .exSel
  | 0x14 => some .exFadd | 0x15 => some .exFsub | 0x16 => some .exFmul | 0x17 => some .exFfma
  | 0x18 => some .exFmin | 0x19 => some .exFmax | 0x1A => some .exFdiv | 0x1B => some .exFsqrt
  | 0x1C => some .exFcmp | 0x1D => some .exFunc | 0x1E => some .exCvt | 0x1F => some .exQuant
  | 0x20 => some .exBscale | 0x21 => some .exShfl | 0x22 => some .exBcast | 0x23 => some .exVote
  | 0x24 => some .exXred | 0x25 => some .exXscan | 0x26 => some .exLd | 0x27 => some .exSt | 0x28 => some .exLds
  | 0x29 => some .exSts | 0x2A => some .exAtom | 0x2B => some .exFence | 0x2C => some .exTalloc
  | 0x2D => some .exTseal | 0x2E => some .exTld | 0x2F => some .exTst | 0x30 => some .exTdrop
  | 0x31 => some .exQpost | 0x32 => some .exQtake | 0x33 => some .exCopy | 0x34 => some .exWload
  | 0x35 => some .exMm | 0x36 => some .exAcc | 0x37 => some .exIf
  | 0x3A => some .exLoop | 0x3C => some .exBrk
  | 0x3E => some .exSreg | 0x3F => some .exExit
  | _ => none

/-- R314, R316: the operations whose head word has no free bit. -/
def exnOp (opc : Nat) : Option Instr :=
  match opc with
  | 0x38 => some .exElse | 0x39 => some .exEndif | 0x3B => some .exEndloop | 0x3D => some .exBar
  | _ => none

/-- R312: an operand word. -/
def getExOp (w : W32) : Option ExOp :=
  match (bits 2 w 30).toNat with
  | 0 => if bits 18 w 12 == 0 then some (.reg (bits 12 w 0)) else none
  | 1 => some (.imm (bits 30 w 0))
  | 2 => some (.shape (bits 2 w 28) (bits 8 w 20) (bits 4 w 16) (bits 16 w 0))
  | _ => some (.target (bits 30 w 0))

/-- Every operand word of a list (R312). -/
def getExOps : List W32 → Option (List ExOp)
  | [] => some []
  | w :: ws =>
    match getExOp w, getExOps ws with
    | some o, some os => some (o :: os)
    | _, _ => none

/-- NOP of a head word (R311). -/
def exNopOf (w : W32) : Nat := (bits 3 w 17).toNat

/-- Splits off the guard operand when G is set (R311). -/
def exSplit (g gn : Bool) (ops : List ExOp) : Option (Option (ExOp × Bool) × List ExOp) :=
  if g then
    match ops with
    | o :: os => some (some (o, gn), os)
    | [] => none
  else if gn then none else some (none, ops)

/-- Decodes an Exdin instruction: a head word and its operand words (R311 to R313). -/
def decodeExdin (ws : List W32) : Except DecodeErr (Instr × List W32) :=
  match ws with
  | [] => .error .truncated
  | w :: rest =>
    match exOp (bits 7 w 25).toNat with
    | none =>
      match exnOp (bits 7 w 25).toNat with
      | some i => if bits 25 w 0 == 0 then .ok (i, rest) else .error .badField
      | none => .error .unassigned
    | some k =>
      if rest.length < exNopOf w then .error .truncated
      else
        match Ty.ofCode (bits 5 w 20), Rnd.ofCode (bits 3 w 14), getExOps (rest.take (exNopOf w)) with
        | some ty, some rm, some ops =>
          match exSplit (bits 1 w 12 == 1) (bits 1 w 11 == 1) ops with
          | some (guard, ops) =>
            let i := k { ty, rm, sat := bits 1 w 13 == 1, guard, xm := bits 11 w 0, ops }
            if i.wf then .ok (i, rest.drop (exNopOf w)) else .error .badField
          | none => .error .badField
        | _, _, _ => .error .badField

/-! ## Encoding -/

/-- A one-bit field. -/
def bit (b : Bool) : BitVec 1 := if b then 1 else 0

/-- The words of an R-format instruction (R76, R78, R84). -/
def putR (maj : BitVec 6) (fn : BitVec 8) (f : RForm) : List W64 :=
  (maj ++ f.g.pg ++ bit f.g.pn ++ fn ++ f.d ++ f.a ++ f.b ++ f.c ++ bit f.lx.isSome ++ f.ty.code ++ f.rm.code
      ++ bit f.sat ++ f.xm : BitVec 64)
    :: f.lx.toList

/-- The word of an I-format instruction (R76). -/
def putI (maj : BitVec 6) (fn : BitVec 4) (f : IForm) : List W64 :=
  [(maj ++ f.g.pg ++ bit f.g.pn ++ fn ++ f.d ++ f.a ++ f.imm ++ f.ik : BitVec 64)]

/-- The word of an M-format instruction (R76, R82). -/
def putM (maj : BitVec 6) (fn : BitVec 4) (f : MForm) : List W64 :=
  [(maj ++ f.g.pg ++ bit f.g.pn ++ fn ++ f.w.code ++ f.d ++ f.a ++ f.x ++ f.off ++ f.ord.code ++ f.scp.code
      ++ bit f.view : BitVec 64)]

/-- The word of an X-format instruction (R76). -/
def putX (maj : BitVec 6) (fn : BitVec 6) (f : XForm) : List W64 :=
  [(maj ++ f.g.pg ++ bit f.g.pn ++ fn ++ f.d ++ f.a ++ f.b ++ f.c ++ f.imm : BitVec 64)]

/-- The words of an X-format instruction with its parameter block (R92). -/
def putXB (maj : BitVec 6) (fn : BitVec 6) (f : XForm) (blk : Option ParamBlock) : List W64 :=
  putX maj fn f ++ (match blk with | some b => [b.w0, b.w1, b.w2, b.w3] | none => [])

/-- The word of a B-format instruction (R76). -/
def putB (maj : BitVec 6) (fn : BitVec 6) (f : BForm) : List W64 :=
  [(maj ++ f.g.pg ++ bit f.g.pn ++ fn ++ f.a ++ f.b ++ f.off : BitVec 64)]

/-- The word of a hart extension instruction (R98). -/
def putH (f3 : BitVec 3) (f : HForm) : W32 :=
  (0#7 ++ f.rs2 ++ f.rs1 ++ f3 ++ f.rd ++ 0x0B#7 : BitVec 32)

/-- R312. -/
def putExOp : ExOp → W32
  | .reg n => (0#2 ++ 0#18 ++ n : BitVec 32)
  | .imm v => (1#2 ++ v : BitVec 32)
  | .shape s m r a => (2#2 ++ s ++ m ++ r ++ a : BitVec 32)
  | .target o => (3#2 ++ o : BitVec 32)

/-- The words of an Exdin instruction (R311). -/
def putEx (opc : BitVec 7) (f : ExForm) : List W32 :=
  let gn := match f.guard with | some (_, n) => n | none => false
  (opc ++ f.ty.code ++ BitVec.ofNat 3 f.nop ++ f.rm.code ++ bit f.sat ++ bit f.guard.isSome ++ bit gn ++ f.xm
      : BitVec 32)
    :: ((match f.guard with | some (o, _) => [putExOp o] | none => []) ++ f.ops.map putExOp)

/-- The fields of an X-format word with no free bit. -/
def bareX : XForm := { g := .always, d := 0, a := 0, b := 0, c := 0, imm := 0 }

/-- The words of a native instruction or bundle; empty for every other constructor. -/
def encodeNative : Instr → List W64
  | .iadd f => putR 0x00 0x00 f
  | .isub f => putR 0x00 0x01 f
  | .iaddc f => putR 0x00 0x02 f
  | .imul f => putR 0x00 0x03 f
  | .imulh f => putR 0x00 0x04 f
  | .imad f => putR 0x00 0x05 f
  | .idiv f => putR 0x00 0x06 f
  | .irem f => putR 0x00 0x07 f
  | .ineg f => putR 0x00 0x08 f
  | .iabs f => putR 0x00 0x09 f
  | .imin f => putR 0x00 0x0A f
  | .imax f => putR 0x00 0x0B f
  | .icmp f => putR 0x00 0x0C f
  | .andR f => putR 0x03 0x00 f
  | .orR f => putR 0x03 0x01 f
  | .xorR f => putR 0x03 0x02 f
  | .andn f => putR 0x03 0x03 f
  | .notR f => putR 0x03 0x04 f
  | .shl f => putR 0x03 0x05 f
  | .shr f => putR 0x03 0x06 f
  | .sar f => putR 0x03 0x07 f
  | .rot f => putR 0x03 0x08 f
  | .bfx f => putR 0x03 0x09 f
  | .bfi f => putR 0x03 0x0A f
  | .popc f => putR 0x03 0x0B f
  | .clz f => putR 0x03 0x0C f
  | .ctz f => putR 0x03 0x0D f
  | .brev f => putR 0x03 0x0E f
  | .nop f => putR 0x04 0x00 f
  | .mov f => putR 0x04 0x01 f
  | .movl f => putR 0x04 0x02 f
  | .sel f => putR 0x04 0x03 f
  | .pset f => putR 0x04 0x04 f
  | .pmov f => putR 0x04 0x05 f
  | .lea f => putR 0x04 0x06 f
  | .fadd f => putR 0x08 0x00 f
  | .fsub f => putR 0x08 0x01 f
  | .fmul f => putR 0x08 0x02 f
  | .ffma f => putR 0x08 0x03 f
  | .fmin f => putR 0x08 0x04 f
  | .fmax f => putR 0x08 0x05 f
  | .fcmp f => putR 0x08 0x06 f
  | .fclass f => putR 0x08 0x07 f
  | .fdiv f => putR 0x08 0x08 f
  | .fsqrt f => putR 0x08 0x09 f
  | .frcp f => putR 0x0A 0x00 f
  | .frsq f => putR 0x0A 0x01 f
  | .fexp2 f => putR 0x0A 0x02 f
  | .flog2 f => putR 0x0A 0x03 f
  | .fsin f => putR 0x0A 0x04 f
  | .fcos f => putR 0x0A 0x05 f
  | .ftanh f => putR 0x0A 0x06 f
  | .hadd2 f => putR 0x0B 0x00 f
  | .hmul2 f => putR 0x0B 0x01 f
  | .hfma2 f => putR 0x0B 0x02 f
  | .dot4 f => putR 0x0B 0x03 f
  | .cvt f => putR 0x10 0x00 f
  | .cvti f => putR 0x10 0x01 f
  | .cvtf f => putR 0x10 0x02 f
  | .rnd f => putR 0x10 0x03 f
  | .pack f => putR 0x11 0x00 f
  | .unpack f => putR 0x11 0x01 f
  | .scaleq f => putR 0x11 0x02 f
  | .bscale f => putR 0x11 0x03 f
  | .vote f => putR 0x15 0x00 f
  | .redl f => putR 0x15 0x01 f
  | .scanl f => putR 0x15 0x02 f
  | .iaddImm32 f => putI 0x01 0x0 f
  | .imulImm32 f => putI 0x01 0x1 f
  | .andImm32 f => putI 0x01 0x2 f
  | .orImm32 f => putI 0x01 0x3 f
  | .xorImm32 f => putI 0x01 0x4 f
  | .shlImm32 f => putI 0x01 0x5 f
  | .shrImm32 f => putI 0x01 0x6 f
  | .sarImm32 f => putI 0x01 0x7 f
  | .rotImm32 f => putI 0x01 0x8 f
  | .movi32 f => putI 0x01 0x9 f
  | .iaddImm64 f => putI 0x02 0x0 f
  | .imulImm64 f => putI 0x02 0x1 f
  | .andImm64 f => putI 0x02 0x2 f
  | .orImm64 f => putI 0x02 0x3 f
  | .xorImm64 f => putI 0x02 0x4 f
  | .shlImm64 f => putI 0x02 0x5 f
  | .shrImm64 f => putI 0x02 0x6 f
  | .sarImm64 f => putI 0x02 0x7 f
  | .rotImm64 f => putI 0x02 0x8 f
  | .movi64 f => putI 0x02 0x9 f
  | .faddImm f => putI 0x09 0x0 f
  | .fmulImm f => putI 0x09 0x1 f
  | .fminImm f => putI 0x09 0x2 f
  | .fmaxImm f => putI 0x09 0x3 f
  | .ld f => putM 0x18 0x0 f
  | .st f => putM 0x18 0x1 f
  | .lds f => putM 0x18 0x2 f
  | .sts f => putM 0x18 0x3 f
  | .ldk f => putM 0x18 0x4 f
  | .stk f => putM 0x18 0x5 f
  | .ldc f => putM 0x18 0x6 f
  | .pref f => putM 0x18 0x7 f
  | .gath f => putM 0x19 0x0 f
  | .scat f => putM 0x19 0x1 f
  | .shfli f => putX 0x14 0x00 f
  | .shflx f => putX 0x14 0x01 f
  | .shfld f => putX 0x14 0x02 f
  | .shfla f => putX 0x14 0x03 f
  | .bcast f => putX 0x14 0x04 f
  | .xmov f => putX 0x16 0x00 f
  | .atom f => putX 0x1A 0x00 f
  | .atoms f => putX 0x1A 0x01 f
  | .red f => putX 0x1A 0x02 f
  | .fence f => putX 0x1B 0x00 f
  | .pfence f => putX 0x1B 0x01 f
  | .vjoin f => putX 0x1B 0x02 f
  | .cctl f => putX 0x1B 0x03 f
  | .talloc f => putX 0x20 0x00 f
  | .tseal f => putX 0x20 0x01 f
  | .tld f => putX 0x20 0x02 f
  | .tst f => putX 0x20 0x03 f
  | .tdrop f => putX 0x20 0x04 f
  | .tquery f => putX 0x20 0x05 f
  | .qpost f => putX 0x21 0x00 f
  | .qtake f => putX 0x21 0x01 f
  | .qadv f => putX 0x21 0x02 f
  | .qcnt f => putX 0x21 0x03 f
  | .mlease f => putX 0x24 0x00 f
  | .mrel f => putX 0x24 0x01 f
  | .mswap f => putX 0x24 0x03 f
  | .mzero f => putX 0x24 0x05 f
  | .mread f => putX 0x24 0x06 f
  | .mwrite f => putX 0x24 0x07 f
  | .mmeta f => putX 0x24 0x08 f
  | .mshape f => putX 0x24 0x09 f
  | .cpyw f => putX 0x28 0x01 f
  | .cpyq f => putX 0x28 0x02 f
  | .splw f => putX 0x29 0x00 f
  | .splr f => putX 0x29 0x01 f
  | .splf f => putX 0x29 0x02 f
  | .mbsend f => putX 0x2A 0x00 f
  | .launch f => putX 0x2A 0x01 f
  | .bar f => putX 0x2C 0x00 f
  | .barxExp f => putX 0x2C 0x01 f
  | .barxArv f => putX 0x2C 0x01 f
  | .barw f => putX 0x2C 0x02 f
  | .bbrot f => putX 0x2C 0x03 f
  | .waitc f => putX 0x2C 0x05 f
  | .qpoint f => putX 0x2C 0x07 f
  | .brx f => putX 0x2F 0x00 f
  | .ret f => putX 0x2F 0x01 f
  | .exit f => putX 0x2F 0x02 f
  | .regang f => putX 0x2F 0x04 f
  | .lend f => putX 0x2F 0x05 f
  | .yield f => putX 0x2F 0x06 f
  | .sleep f => putX 0x2F 0x07 f
  | .pgrant f => putX 0x38 0x00 f
  | .prels f => putX 0x38 0x01 f
  | .pgate f => putX 0x38 0x02 f
  | .trap f => putX 0x39 0x00 f
  | .hret f => putX 0x39 0x01 f
  | .brk f => putX 0x39 0x02 f
  | .probe f => putX 0x39 0x03 f
  | .docinv f => putX 0x39 0x04 f
  | .sread f => putX 0x3A 0x00 f
  | .swrite f => putX 0x3A 0x01 f
  | .mloadw f blk => putXB 0x24 0x02 f blk
  | .mstream f blk => putXB 0x24 0x04 f blk
  | .cpyAlloc f blk => putXB 0x28 0x00 f blk
  | .cpy f blk => putXB 0x28 0x00 f blk
  | .bra f => putB 0x2E 0x00 f
  | .call f => putB 0x2E 0x01 f
  | .rconv f => putB 0x2E 0x02 f
  | .modeVliw f => putB 0x2E 0x03 f
  | .modeSimt f => putB 0x2E 0x04 f
  | .loop f => putB 0x2E 0x05 f
  | .gsync => putX 0x2C 0x04 bareX
  | .phase => putX 0x2C 0x06 bareX
  | .join => putX 0x2F 0x03 bareX
  | .bundle hdr words => hdr :: words
  | _ => []

/-- The word of a hart's instruction; empty for every other constructor. -/
def encodeHart : Instr → List W32
  | .hcpy f => [putH 0 f] | .hwait f => [putH 1 f] | .halloc f => [putH 2 f] | .hpost f => [putH 3 f]
  | .hsig f => [putH 4 f] | .hsleep f => [putH 5 f] | .hartBaseInstruction w => [w]
  | _ => []

/-- The words of an Exdin instruction; empty for every other constructor. -/
def encodeExdin : Instr → List W32
  | .exNop f => putEx 0x00 f
  | .exMov f => putEx 0x01 f
  | .exAdd f => putEx 0x02 f
  | .exSub f => putEx 0x03 f
  | .exMul f => putEx 0x04 f
  | .exMad f => putEx 0x05 f
  | .exDiv f => putEx 0x06 f
  | .exRem f => putEx 0x07 f
  | .exMin f => putEx 0x08 f
  | .exMax f => putEx 0x09 f
  | .exAnd f => putEx 0x0A f
  | .exOr f => putEx 0x0B f
  | .exXor f => putEx 0x0C f
  | .exShl f => putEx 0x0D f
  | .exShr f => putEx 0x0E f
  | .exBitc f => putEx 0x0F f
  | .exBfx f => putEx 0x10 f
  | .exBfi f => putEx 0x11 f
  | .exCmp f => putEx 0x12 f
  | .exSel f => putEx 0x13 f
  | .exFadd f => putEx 0x14 f
  | .exFsub f => putEx 0x15 f
  | .exFmul f => putEx 0x16 f
  | .exFfma f => putEx 0x17 f
  | .exFmin f => putEx 0x18 f
  | .exFmax f => putEx 0x19 f
  | .exFdiv f => putEx 0x1A f
  | .exFsqrt f => putEx 0x1B f
  | .exFcmp f => putEx 0x1C f
  | .exFunc f => putEx 0x1D f
  | .exCvt f => putEx 0x1E f
  | .exQuant f => putEx 0x1F f
  | .exBscale f => putEx 0x20 f
  | .exShfl f => putEx 0x21 f
  | .exBcast f => putEx 0x22 f
  | .exVote f => putEx 0x23 f
  | .exXred f => putEx 0x24 f
  | .exXscan f => putEx 0x25 f
  | .exLd f => putEx 0x26 f
  | .exSt f => putEx 0x27 f
  | .exLds f => putEx 0x28 f
  | .exSts f => putEx 0x29 f
  | .exAtom f => putEx 0x2A f
  | .exFence f => putEx 0x2B f
  | .exTalloc f => putEx 0x2C f
  | .exTseal f => putEx 0x2D f
  | .exTld f => putEx 0x2E f
  | .exTst f => putEx 0x2F f
  | .exTdrop f => putEx 0x30 f
  | .exQpost f => putEx 0x31 f
  | .exQtake f => putEx 0x32 f
  | .exCopy f => putEx 0x33 f
  | .exWload f => putEx 0x34 f
  | .exMm f => putEx 0x35 f
  | .exAcc f => putEx 0x36 f
  | .exIf f => putEx 0x37 f
  | .exLoop f => putEx 0x3A f
  | .exBrk f => putEx 0x3C f
  | .exSreg f => putEx 0x3E f
  | .exExit f => putEx 0x3F f
  | .exElse => [0x38#7 ++ 0#25] | .exEndif => [0x39#7 ++ 0#25]
  | .exEndloop => [0x3B#7 ++ 0#25] | .exBar => [0x3D#7 ++ 0#25]
  | _ => []

/-! ## The bits of an opcode-table row -/

/-- The low words of a number, least significant first. -/
def splitWords (w : Nat) : (n : Nat) → List W64
  | 0 => []
  | n + 1 => BitVec.ofNat 64 w :: splitWords (w / 2 ^ 64) n

/-- The 32-bit words of a number, least significant first. -/
def splitHalves (w : Nat) : (n : Nat) → List W32
  | 0 => []
  | n + 1 => BitVec.ofNat 32 w :: splitHalves (w / 2 ^ 32) n

/-- The instruction that the decoders read from an opcode-table row's bits: rows of 32 bits are a hart's extension word
or an Exdin head word, wider rows a native word or bundle; words above the bits given are zero. -/
def decodeTableWord (nbits w : Nat) : Option Instr :=
  if nbits ≤ 32 then
    if hartExt (BitVec.ofNat 32 w) then some (decodeHart (BitVec.ofNat 32 w))
    else
      match decodeExdin (splitHalves w 8) with
      | .ok (i, _) => some i
      | .error _ => none
  else if wordMaj (BitVec.ofNat 64 w) = 0x3C then
    match decodeBundle (splitWords w 17) with
    | .ok (i, _) => some i
    | .error _ => none
  else
    match decodeNative (splitWords w 5) with
    | .ok (i, _) => some i
    | .error _ => none

end Sys2Proof
end

