-- ==== Sys2Proof/Config.lean ====
section
/-! DEFINITION. What an implementation of the module fixes, and the values the spec leaves open. A constant with
no body is a free value: nothing can evaluate it. -/

namespace Sys2Proof.Config

/-- Offered feature words FW0 to FW3 (R327, reset column). -/
def offered : List W64 := [0xFFF#64, 0#64, 0#64, 0xF#64]

/-- Thermal coupling K[c][v] of a tower's core `c` and vault position `v`, loaded from the Rhavos image at
boot (R364, R420): a free value of the image and the tower (log 14). -/
opaque coupling : (image : List Byte) → (tower c v : Nat) → BitVec 8

/-- Whether a cluster lies in the beneath set of a vault (R369: "given in the tables"), by the image that brings the tables (R420,
log 14). -/
opaque beneath : (image : List Byte) → (vault cluster : Nat) → Bool

/-- The hotness threshold of R370, loaded from the image (R420, log 14). -/
opaque hotness : (image : List Byte) → Nat

/-- The digest of the running image (R421), log 13. -/
opaque sha512 : (image : List Byte) → List Byte

/-- The device's Ed25519 signature over the first 176 bytes of a report (R421), log 13. -/
opaque sign : (report : List Byte) → List Byte

/-- The identity public key (R421), log 13. -/
opaque identityKey : List Byte

/-- Whether a firmware image verifies under R420 step 3 (log 13). -/
opaque imageVerifies : (image : List Byte) → Bool

/-- A byte that two accesses without a join compete for (R189), per draw of the free counter (log 11). -/
opaque freeByte : Nat → Byte

/-- The instructions issued per tagged sample and other random picks (R428), per draw (log 11). -/
opaque freePick : Nat → Nat

/-- The die that holds a port, host ports first: the spec gives none (R344, R410), log 9. -/
opaque portDie : (port : Nat) → BitVec 4

/-- Where Rhavos puts the ring of mailbox 0 in device memory (R414), log 13. -/
opaque serviceRing : BitVec 64

end Sys2Proof.Config
end

