-- ==== Sys2Proof/Machine/State.lean ====
section
/-! DEFINITION. The state of the module as plain data: lanes, slices, gangs and blocks (file 01 and 02 of the
spec), cores, clusters, contexts, grids and the module itself, and its value at module reset. -/

namespace Sys2Proof.Machine

/-- Why a step of the model stops. -/
inductive Fault where
  /-- Raised by every meaning of an instruction word when the state's `cur` names no resident gang, thread or
  running hart: no agent of that kind exists to issue it. Safe: the hardware has no such step (log 17). -/
  | noIssuer
  deriving DecidableEq, Repr

/-- Why a step of the model is refused. -/
inductive Refusal where
  /-- Raised by the arm of an instruction that has no meaning yet. Safe. -/
  | notModelled (mnemonic : String)
  deriving DecidableEq, Repr

/-- Bytes by address: addresses strictly rising, no byte equal to zero, which an unlisted address reads as
(log 3). -/
abbrev Mem := List Host.Cell

/-- Values by number, numbers strictly rising. -/
abbrev Tab (β : Type) := List (Nat × β)

/-- One lane (R8, R14, R26). An unlisted register holds zero. -/
structure Lane where
  v : List (Nat × W32) := []
  p : BitVec 7 := 0
  fp : BitVec 5 := 0
  deriving DecidableEq, Repr

/-- A divergence-stack entry (R45). -/
inductive DivEntry where
  | join (addr : W64) (expect parked : BitVec 4)
  | path (addr : W64) (mask : BitVec 4)
  deriving DecidableEq, Repr

/-- An open `if` or `loop` region of cracked Exdin code (R316), log 21: the stack depth below its join entry, the
slices that entered, the first head word of a loop's body, and its iterations left; for an `if`, the lanes of the slice that run
from `else`. -/
structure ExRegion where
  loop : Bool
  depth : Nat
  slices : BitVec 16
  start : W64
  remain : W32
  deriving DecidableEq, Repr

/-- One slice of a block (R36, R11, R45, R237). `live` marks the lanes that have not exited. -/
structure Slice where
  gang : Nat
  pc : W64
  live : BitVec 4
  active : BitVec 4
  stack : List DivEntry := []
  ex : List ExRegion := []
  s : List (Nat × W64) := []
  mc : Option W64 := none
  deriving DecidableEq, Repr

/-- A level of a VLIW thread's loop stack (R61). -/
structure LoopLevel where
  start : W64
  stop : W64
  count : W32
  deriving DecidableEq, Repr

/-- The waiting states of R69. `adv` says that the PC still stands at the waiting instruction; `filling` holds an address of the
page; `waitc` the location and the comparison that ends the wait. -/
inductive Wait where
  | ready
  | operand
  | talloc | qtake | splr | splw | mlease | pgrant
  | cpyRoom | cpyAlloc | cpyPend | cpyw | gathPend
  | mbsend (m : Nat)
  | launch
  | docinv (start len : W64) (done : Bool)
  | qpoint (adv : Bool)
  | mcmd | mswap | accum | rill
  | filling (va : W64)
  | waitc (sp a w cmp : Nat) (signed : Bool) (than : W64)
  | barHold (bar : Nat) (adv : Bool)
  | bar (bar : Nat) (adv : Bool)
  | barw (bar : Nat) (adv : Bool)
  | regang (mask : BitVec 16)
  | phase
  | gsync (gen : Nat) (adv : Bool)
  | sleep (due : Nat) (adv : Bool)
  deriving DecidableEq, Repr

/-- A handler frame captured at entry (R388, R390), with the depths of the slices' divergence stacks. `waits` holds the waits
that the interrupted bundle has begun and that its return takes up again (R259), `granted` whether a lease request of the
instruction at `rpc` has been granted (R229). -/
structure Frame where
  sup : Bool
  rpc : W64
  active : W64
  slices : BitVec 16
  vliw : Bool
  s61 : W64
  s62 : W64
  loops : List LoopLevel
  cause : Byte
  resumable : Bool
  depths : List (Nat × Nat)
  dues : List (W64 × Nat × Nat) := []
  waits : List Wait := []
  granted : Bool := false
  deriving DecidableEq, Repr

/-- What a record says of the instruction that issued an operation: its slots, and bits 0 and 1 of FLAGS (R389). -/
structure Origin where
  slots : BitVec 16 := 0
  flags : Nat := 0
  deriving DecidableEq, Repr

/-- A cause to be reported at the next boundary (R386), with the write bit, the origin and the time of detection of its record
(R389). -/
structure Pend where
  cause : Byte
  pc : W64
  addr : W64
  lanes : W64
  slices : BitVec 16
  write : Bool := false
  org : Origin := {}
  time : Nat := 0
  deriving DecidableEq, Repr

/-- A gang of slices, or a VLIW thread (R42, R52). `more` holds the further waits of a thread whose bundle began several
(R259), and the `DOCINV` waits of its bundle that have ended; `dues` the deadlines of waiting `WAITC` and `SLEEP`
instructions by PC and slot (16 outside a bundle); `granted` marks a lease request that has been granted (R229). -/
structure Gang where
  vliw : Bool := false
  loops : List LoopLevel := []
  frames : List Frame := []
  wait : Wait := .ready
  more : List Wait := []
  dues : List (W64 × Nat × Nat) := []
  granted : Bool := false
  skip : Bool := false
  pend : List Pend := []
  passed : Nat := 0
  deriving DecidableEq, Repr

/-- A byte location: space 0 device memory, 1 memory behind a port, 2 pool of core `i`, 3 cluster scratch of
cluster `i`, 4 Cistern bytes of cluster `i`, 5 memory
behind a port through the home slices' held lines. -/
structure Loc where
  sp : Nat
  i : Nat
  a : Nat
  deriving DecidableEq, Repr

/-- The place of bytes an engine reads or writes: a space (0 global, 1 scratchpad, 2 cluster scratch, 3 tile), a byte
base in it, a view, the core or cluster, the first byte of the scratchpad or the tile there, the tile's handle and, for
global bytes, the translation at issue by 64 KiB page (R401). -/
structure Region where
  sp : Nat
  base : Nat
  view : Bool := false
  own : Nat := 0
  org : Nat := 0
  h : Nat := 0
  pages : List (Nat × Loc) := []
  deriving DecidableEq, Repr

/-- A queued copy (R272 to R276). `moved` is set once its bytes stand at the destination. -/
structure CopyOp where
  id : Nat
  n : List Nat
  ss : List Nat
  ds : List Nat
  src : Region
  dst : Region
  dbase : W64
  con : Bool
  post : Option Nat
  bar : Option Nat
  mail : Option Nat
  total : Nat
  pc : W64
  slices : BitVec 16
  ctx : Nat
  grid : Nat
  moved : Bool
  org : Origin := {}
  deriving DecidableEq, Repr

/-- A copy queue (R271). -/
structure CopyQueue where
  ops : List CopyOp := []
  strict : Bool := false
  stalls : BitVec 16 := 0
  deriving DecidableEq, Repr

/-- What a phased block keeps between phases (R63). -/
structure PhaseRec where
  lanes : List Lane
  s : List (Nat × W64)
  pc : W64
  live : List (BitVec 4)
  deriving DecidableEq, Repr

/-- Scratchpad bytes written through one view and not yet joined with the other (R202), kept while memory debug is set:
word address, view, writing lane, lanes that have joined since. -/
structure ViewMark where
  addr : Nat
  view : Bool
  lane : Nat
  joined : BitVec 64
  deriving DecidableEq, Repr

/-- A resident block (R35 to R38). Its key on the core is its lowest physical slice. `pend` holds imprecise causes that no
gang holds yet (R386); `donated` names the grid at whose priority the block runs (R382); with `halt` a stop holds it, which saves
it as soon as it can be saved (R429); with `gone` it takes CODE-GONE at its next phase (R407). -/
structure Block where
  grid : Nat
  ctx : Nat
  idx : Nat
  bx : W32
  byy : W32
  bz : W32
  width : Nat
  n : Nat
  phys : List Nat
  lanes : List Lane
  slices : List Slice
  gangs : Tab Gang
  nextGang : Nat
  agent : BitVec 8 := 0
  bbase : BitVec 6 := 0
  borg : BitVec 6 := 0
  nbr : Nat := 1
  phasecnt : W32 := 0
  phaseArr : BitVec 16 := 0
  phaseRec : Option PhaseRec := none
  scrBase : Nat := 0
  scrLen : Nat := 0
  zBase : Nat := 0
  zpb : Nat := 0
  cq : CopyQueue := {}
  crs : Nat := 0
  grant : Option Nat := none
  regrant : Option Nat := none
  excess : Nat := 0
  throttled : Bool := false
  holdUntil : Nat := 0
  halt : Bool := false
  gone : Bool := false
  leaseSaved : Option (Nat × Nat × Nat) := none
  order : Nat := 0
  placedAt : Nat := 0
  runSince : Nat := 0
  issued : Nat := 0
  donated : Option Nat := none
  heat : Nat := 0
  views : List ViewMark := []
  pend : List Pend := []
  deriving DecidableEq, Repr

/-- A flume (R19), with the grid that holds it (R224). -/
structure Flume where
  ring : List (Nat × W32) := []
  posts : BitVec 16 := 0
  cur : List (BitVec 16) := [0, 0, 0, 0]
  ncur : Nat := 0
  part : Nat := 0
  grid : Option Nat := none
  deriving DecidableEq, Repr

/-- A physical barrier (R20), with the arrivals held back by R256: block, gang, slices, waits. -/
structure Barrier where
  exp : Nat := 0
  arr : Nat := 0
  pend : Nat := 0
  ph : Bool := false
  held : List (Nat × Nat × Nat × Bool) := []
  deriving DecidableEq, Repr

/-- A store event not yet drained (R183): its bytes in runs, which are performed together. `thr` names the lane or thread,
`va` the address, `agent` whom it is charged to (R34), `grp` the instruction or bundle that issued it. `wide` marks a release
of device or system scope (R344); `fence` a release fence, which writes nothing and keeps its place among its thread's
stores (R199). -/
structure BufStore where
  id : Nat
  blk : Nat
  thr : Nat
  runs : List (Loc × List Byte)
  weak : Bool
  rel : Bool
  va : W64 := 0
  fence : Bool := false
  agent : Nat := 0
  wide : Bool := false
  grp : Nat := 0
  deriving DecidableEq, Repr

/-- A load whose data has not returned (R183): the destination of one lane and the value it was bound to; an s-register's is
written in `slices`, those of the gang that issued it (R11). `src` holds the
bytes it reads, `by_` the thread that reads them, `strong` whether it is not weak. `late` marks a weak load that binds its
value when it returns (R337). -/
structure PendLoad where
  id : Nat
  blk : Nat
  lane : Nat
  sreg : Bool
  reg : Nat
  w : Width
  val : BitVec 128
  pc : W64
  va : W64
  src : List (Loc × Nat) := []
  by_ : Nat := 0
  strong : Bool := true
  late : Bool := false
  slices : BitVec 16 := 0
  org : Origin := {}
  deriving DecidableEq, Repr

/-- An element of a gather or scatter: its lane, its global location and its scratchpad bytes in runs. -/
structure GatherElem where
  lane : Nat
  va : W64
  glob : Loc
  scr : List (Loc × Nat)
  deriving DecidableEq, Repr

/-- A gather or scatter in flight (R188), with the elements not yet moved and its physical barrier. -/
structure GatherOp where
  id : Nat
  blk : Nat
  scat : Bool
  size : Nat
  elems : List GatherElem
  bar : Nat
  pc : W64
  slices : BitVec 16
  org : Origin := {}
  deriving DecidableEq, Repr

/-- A 128-byte line in a cluster's L1, under the tag of its path (R330), with the context and agent whose fill brought it
in (R375). -/
structure L1Line where
  tile : Bool
  ctx : Nat
  agent : Nat
  addr : W64
  deriving DecidableEq, Repr

/-- A 128-byte line in a home slice (R330), device or external, with the context and agent whose fill brought it in. -/
structure HomeLine where
  ext : Bool
  line : Nat
  ctx : Nat
  agent : Nat
  dirty : Bool
  deriving DecidableEq, Repr

/-- A cached 8-byte word of one context: tag, address, generation and the bytes held (R184, R320), log 6. -/
structure CacheWord where
  ctx : Nat
  addr : W64
  gen : Nat
  data : W64
  deriving DecidableEq, Repr

/-- An entry of a decoded-op cache (R320): the words of one Exdin instruction of a context's code object, under the generation
and the head word's address. -/
structure CrackEntry where
  ctx : Nat
  gen : Nat
  addr : W64
  data : List Byte
  deriving DecidableEq, Repr

/-- A Spillway entry: the words at positions 0 to 63 that are not zero, and its context (R284, R286). -/
structure SpillEntry where
  words : List (Nat × W32)
  ctx : Nat
  deriving DecidableEq, Repr

/-- What a hart waits for (R69). -/
inductive HartWait where
  | ready
  | hwait
  | halloc
  | hcpy
  | hsig (m : Nat)
  | hsleep (deadline : Nat)
  deriving DecidableEq, Repr

/-- A loader or storer hart, RV64IMAC in machine mode (R280), log 12. `resv` is the reservation of a load-reserve with
the value it read, `wake` the reasons of R283. -/
structure Hart where
  run : Bool := false
  grid : Nat := 0
  ctx : Nat := 0
  x : List (Nat × W64) := []
  pc : W64 := 0
  store : List Byte := []
  mstatus : W64 := 0x1800
  mtvec : W64 := 0
  mepc : W64 := 0
  mcause : W64 := 0
  mtval : W64 := 0
  mscratch : W64 := 0
  mie : W64 := 0
  mcycle : W64 := 0
  minstret : W64 := 0
  resv : Option (Loc × W64) := none
  wait : HartWait := .ready
  wake : BitVec 4 := 0
  cq : CopyQueue := {}
  deriving DecidableEq, Repr

/-- A task of a core's task queue (R65, R373): a block's next phase, with the number that orders it among all phase tasks; a
cluster group of a handler's or a `LAUNCH`'s grid placed here while its resources were held; a cluster group that was
pre-empted when its budget had run out. -/
inductive Task where
  | phase (blk num : Nat)
  | launch (gid grp : Nat)
  | resume (ctx gid grp : Nat)
  deriving DecidableEq, Repr

/-- A tagged instruction (R428), with its block, and the block coordinates and `%phasecnt` of its record. -/
structure Sample where
  ctx : Nat
  blk : Nat
  pc : W64
  bx : W32
  byy : W32
  bz : W32
  phasecnt : W32
  vliw : Bool
  exdin : Bool
  time : Nat
  deriving DecidableEq, Repr

/-- A core's issue slot: the physical slices that have issued in it, their quarters, each with the grid and the PC at which its
SIMT gangs share the issue (R51; none for a bundle), the 16 words popped for its SIMT quarters (R124), and the highest quarter
whose bundle has popped one (R125). A model's own record of which issues share a slot (log 7). -/
structure IssueSlot where
  slices : BitVec 16 := 0
  quarters : Tab (Option (Nat × W64)) := []
  rill : Option (List W64) := none
  bundle : Option Nat := none
  deriving DecidableEq, Repr

/-- One core. -/
structure Core where
  spw : W64 := 0
  pool : Mem := []
  poolCtx : Tab Nat := []
  blocks : Tab Block := []
  flumes : Tab Flume := []
  bars : Tab Barrier := []
  qmask : BitVec 4 := 0
  shapes : List (Nat × W64) := []
  rill : List W64 := []
  slot : IssueSlot := {}
  kc : List CacheWord := []
  ic : List CacheWord := []
  dc : List CrackEntry := []
  sbuf : List BufStore := []
  loads : List PendLoad := []
  inbound : List SpillEntry := []
  arriving : List SpillEntry := []
  outFree : Nat := 32
  popsInFlight : Nat := 0
  pgatePend : Option Nat := none
  gated : Bool := false
  tasks : List Task := []
  preload : Bool := false
  gathers : List GatherOp := []
  loader : Hart := {}
  storer : Hart := {}
  rot : List (Nat × Nat) := []
  samples : List Sample := []
  nextId : Nat := 0
  deriving DecidableEq, Repr

/-- Tile states (R212). -/
inductive TileSt where
  | writing | sealed | draining
  deriving DecidableEq, Repr

/-- Who allocated a tile (R212): a block of a core, or a hart of it. -/
structure Owner where
  hart : Bool
  core : Nat
  key : Nat
  grid : Nat
  bx : W32
  byy : W32
  bz : W32
  deriving DecidableEq, Repr

/-- A live tile (R212); `reads` counts issued reads that have not completed. -/
structure Tile where
  size : Nat
  cnt : Nat
  st : TileSt
  ker : Bool
  owner : Owner
  agent : BitVec 8
  gen : Nat
  reads : Nat
  deriving DecidableEq, Repr

/-- A waiting allocation (R214): who waits, and for what. `copy` marks a request that its agent issues again once it may
be granted: a `CPY`, an `HCPY`, a bundle. -/
structure AllocReq where
  hart : Bool
  core : Nat
  key : Nat
  gang : Nat
  copy : Bool
  size : Nat
  count : Nat
  ker : Bool
  dst : BitVec 8
  slot : Option Nat
  deriving DecidableEq, Repr

/-- A Cistern partition (R208 to R215). -/
structure Part where
  units : Nat
  lastgen : List (Nat × Nat) := []
  used : List Nat := []
  tiles : Tab Tile := []
  reqs : List AllocReq := []
  stall : Nat := 0
  deriving DecidableEq, Repr

/-- A held matrix lease (R228); `fresh` names the gang whose command waited for it and has not yet issued (R230). -/
structure Lease where
  core : Nat
  blk : Nat
  cls : Nat
  cmds : Nat
  cyc : Nat
  fresh : Option Nat := none
  deriving DecidableEq, Repr

/-- A waiting lease request (R229); `again` marks a command that waits for a lease which its block held (R230). -/
structure LeaseReq where
  core : Nat
  blk : Nat
  gang : Nat
  cls : Nat
  cmds : Nat
  cyc : Nat
  again : Bool := false
  deriving DecidableEq, Repr

/-- A weight plane with all it latches (R231), and the grid that loaded it. Column `j`: data bytes at 192 j, scales at 32 j, index bytes at
128 j. -/
structure Plane where
  valid : Bool := false
  ctx : Nat := 0
  grid : Nat := 0
  fmt : Ty := .i8
  sparse : Bool := false
  data : Mem := []
  scales : List (Nat × BitVec 9) := []
  index : Mem := []
  deriving DecidableEq, Repr

/-- A weight load in flight (R232). -/
structure WLoad where
  core : Nat
  blk : Nat
  ctx : Nat
  grid : Nat
  src : Region
  fmt : Ty
  sparse : Bool
  cstride : Nat
  doff : Nat
  soff : Nat
  ioff : Nat
  sstride : Nat
  istride : Nat
  consume : Bool
  slices : BitVec 16 := 0
  pc : W64 := 0
  org : Origin := {}
  deriving DecidableEq, Repr

/-- A stream in flight (R234, R235), with the plane it runs against. -/
structure StreamOp where
  core : Nat
  blk : Nat
  tile : Nat
  src : Region
  afmt : Ty
  rows : Nat
  row0 : Nat
  aoff : Nat
  astride : Nat
  soff : Nat
  sstride : Nat
  acc : Bool
  mword : W64
  consume : Bool
  plane : Plane
  slices : BitVec 16 := 0
  pc : W64 := 0
  org : Origin := {}
  deriving DecidableEq, Repr

/-- One cluster. Clock and ratio stand in units of 0.1 GHz and of half a lane cycle a front-end cycle, `frac` in twentieths
of a lane cycle; `throttle` lists the vaults beneath which it was throttled, and 128 for its power controller (R369, R381).
`csuGrid` is the cluster group that holds the cluster scratch (R39) and `csuCtx` the
context that last held it; `l1` lists the lines in the L1 and `tl` the words that its tile path holds, newest first. -/
structure Cluster where
  cpw : W64 := 0
  csu : Mem := []
  csuGrid : Option (Nat × Nat) := none
  csuCtx : Nat := 0
  cist : Mem := []
  parts : List Part := []
  partGrid : Option Nat := none
  lease : Option Lease := none
  reqs : List LeaseReq := []
  rr0 : Nat := 0
  rr1 : Nat := 0
  ones : Nat := 0
  active : Plane := {}
  shadow : Plane := {}
  wloads : List WLoad := []
  streams : List StreamOp := []
  tl : List CacheWord := []
  l1 : List L1Line := []
  ghz : Nat := 10
  ratio : Nat := 4
  cfgGhz : Nat := 10
  cfgRatio : Nat := 4
  throttle : List Nat := []
  frac : Nat := 0
  budget : Nat := 0
  preqs : List (Nat × Nat × Nat × Nat) := []
  noGrants : Bool := false
  deriving DecidableEq, Repr

/-- A segment entry as a grid locked it (R393, R394). -/
structure Seg where
  base : W64
  limit : W64
  ptab : W64
  attr : W64
  deriving DecidableEq, Repr

/-- A launch packet (R352). -/
structure Packet where
  code : W64 := 0
  arg : W64 := 0
  signal : W64 := 0
  gx : W32 := 1
  gy : W32 := 1
  gz : W32 := 1
  dep : W32 := 0
  spw : W64 := 0
  cpw : W64 := 0
  cpd : W64 := 0
  carry : W64 := 0
  kdesc : W64 := 0
  succ : W64 := 0
  lctl : W64 := 0
  res : W64 := 0
  succn : BitVec 16 := 0
  deriving DecidableEq, Repr

/-- An Exdin kernel's header fields, declarations and residency map (R303, R305, R307). -/
structure ExInfo where
  nreg : Nat
  decls : List W32
  map : List W32
  deriving DecidableEq, Repr

/-- A grid, from the acceptance of its packet to its completion (R36, R356, R357). `slot` is the mailbox and slot
number of a handler grid (R291), `queue` the host queue whose order it keeps (R351). -/
structure Grid where
  pkt : Packet := {}
  va : W64 := 0
  ctx : Nat := 0
  prio : Nat := 0
  order : Nat := 0
  slot : Option (Nat × Nat) := none
  queue : Option Nat := none
  uh : W64 := 0
  fdecl : List Byte := []
  flumes : W32 := 0
  gen : Nat := 0
  hasHart : Bool := false
  loaderImg : List Byte := []
  storerImg : List Byte := []
  segs : List Seg := []
  m : W32 := 0
  n : W32 := 0
  k : W32 := 0
  exdin : Option ExInfo := none
  started : Bool := false
  placed : List Nat := []
  owner : List (Nat × Nat) := []
  ended : List Nat := []
  armed : Bool := false
  cause : Byte := 0
  refuse : Byte := 0
  done : Bool := false
  notified : Nat := 0
  gsyncGen : Nat := 0
  gsyncArr : List (Nat × Nat) := []
  windows : List Nat := []
  deriving DecidableEq, Repr

/-- Counters of one agent (R376). -/
structure AgentCtr where
  pages : Nat := 0
  scrip : Nat := 0
  grans : Nat := 0
  fills : Nat := 0
  shared : Nat := 0
  wbacks : Nat := 0
  deriving DecidableEq, Repr

/-- An invalidation (R399): its number in the context's order, whether software requested it, its range, when it began, the
cores that have still to acknowledge it, and the quiescent gangs of R400 (core, block, gang). -/
structure InvReq where
  num : Nat
  soft : Bool
  start : W64
  len : W64
  since : Nat
  owed : List Nat
  quiet : List (Nat × Nat × Nat)
  deriving DecidableEq, Repr

/-- A saved block (R402): its state, its pool bytes by offset, its barriers by offset from BORG, its group's cluster
scratch, its slices' records and frames of the fault area when it is inside a handler, the core and the cluster that it
belongs to, the number of its queued phase task, when it was saved, the grid that displaced it (R382), whether it is
eligible to resume (R72), held by a stop (R429), and due to take WATCHDOG (R404) or CODE-GONE (R407). `num` names the
record; `dump` the place of its stop's barrier dump among those of the context (R429); `part` the context's record that holds
its grid's spilled partitions, `coreRec` the one that holds its core's state, none while that stands on the core; `since` is
the time from which it is due (R372). -/
structure SavedBlock where
  blk : Block
  core : Nat
  scratch : Mem
  acc : Mem
  bars : List Barrier
  csu : Mem
  area : List Byte
  clus : Nat
  task : Option Nat
  savedAt : Nat
  by_ : Option Nat
  eligible : Bool
  stopped : Bool
  watchdog : Bool
  codeGone : Bool
  dump : Nat := 0
  num : Nat := 0
  part : Option Nat := none
  coreRec : Option Nat := none
  since : Nat := 0
  deriving DecidableEq, Repr

/-- A core record of a context (R402), with the core that it belongs to and the Spillway's entries in both directions; `mate`
is the record of the partner core, which goes with it while it holds entries, and `pinned` says that the mate's restore has
put those on the core (R403, R286). -/
structure CoreRec where
  core : Nat
  flumes : Tab Flume
  rill : List W64
  shapes : List (Nat × W64)
  inbound : List SpillEntry
  outbound : List SpillEntry
  mate : Option Nat
  pinned : Bool
  loader : Option Hart
  storer : Option Hart
  deriving DecidableEq, Repr

/-- A cluster record of a context, under a number of its own: a grid's spilled partitions with their bytes, or the weight
planes that it had loaded on a cluster (R210, R231). -/
structure ClusterRec where
  grid : Nat
  clus : Nat
  parts : List Part
  cist : Mem
  active : Option Plane
  shadow : Option Plane
  deriving DecidableEq, Repr

/-- A translation of a PRESENT page that accesses have used (R395): the place of its entry, the entry, the page's first
address and its size. -/
structure Trans where
  ph : Nat
  entry : W64
  va : W64
  n : Nat
  deriving DecidableEq, Repr

/-- A resident context (R33). `tlb` holds the translations in use; `marked` the Exdin kernels that validation has marked, by
their address and generation (R304); `savePage` is the page size of the save area's segment as
the last table read gave it (R393); `ckDue` the time from which its next checkpoint is due (R430); `closing` is set
while CTXEND waits for what is left of it (R415). -/
structure Context where
  prio : Nat := 0
  saveVa : W64 := 0
  saveSize : W64 := 0
  savePt : W64 := 0
  savePage : Nat := 65536
  sup : W64 := 0
  feat : List W64 := [0, 0, 0, 0]
  scrip : Nat := 0
  agents : Tab AgentCtr := []
  dbg : W64 := 0
  traceVa : W64 := 0
  traceSize : W64 := 0
  ckT : Nat := 0
  ckBase : W64 := 0
  ckSize : W64 := 0
  ckDue : Nat := 0
  invs : List InvReq := []
  invSeq : Nat := 0
  saved : List SavedBlock := []
  coreRecs : Tab CoreRec := []
  clusRecs : Tab ClusterRec := []
  parked : Bool := false
  closing : Bool := false
  stalledSince : Option Nat := none
  tlb : List Trans := []
  marked : List (W64 × Nat) := []
  deriving DecidableEq, Repr

/-- A launch queue's registers (R350). -/
structure Queue where
  base : W64 := 0
  en : Bool := false
  ctx : Nat := 0
  szl : Nat := 0
  tail : W32 := 0
  head : W32 := 0
  deriving DecidableEq, Repr

/-- A mailbox entry (R288) with its handler launches: slots waiting, and the grid now running (R291). -/
structure Mailbox where
  handler : W64 := 0
  ring : W64 := 0
  tail : W32 := 0
  depth : Nat := 0
  opn : Bool := false
  owner : Nat := 0
  valid : Bool := false
  slots : List Nat := []
  running : Option Nat := none
  deriving DecidableEq, Repr

/-- A device-side delivery waiting for its step (R290): the message, the sender's context, and whom a failure is
reported to. -/
inductive DeliverFrom where
  | copy (core q id : Nat)
  | hartRec (num q id : Nat)
  | grid (gid : Nat)
  deriving DecidableEq, Repr

/-- A delivery in waiting. -/
structure Delivery where
  mbx : Nat
  kind : Nat
  payload : List Byte
  ctx : Nat
  src : DeliverFrom
  deriving DecidableEq, Repr

/-- A vault and its home slice: estimate and reading in units of 2^-10 degrees C (R364), page access counts and
free-page count (R370), and the lines in the home slice, newest first (R330). -/
structure Vault where
  e : Int := 0
  reading : Nat := 0
  counts : List (Nat × Nat) := []
  free : Nat := 0
  lines : List HomeLine := []
  deriving DecidableEq, Repr

/-- A page being moved (R370, R406): context, segment, page, old and new frame, and how far the move is. -/
structure PageMove where
  ctx : Nat
  seg : Nat
  page : Nat
  oldFrame : Nat
  newFrame : Nat
  copied : Bool
  inv : Option Nat
  toHost : Bool
  migr : Bool
  deriving DecidableEq, Repr

/-- A request of R406 that was not carried out at once: its page, the side that asks, and the time from which it is evaluated
again. -/
structure Deferred where
  ctx : Nat
  seg : Nat
  page : Nat
  toHost : Bool
  due : Nat
  deriving DecidableEq, Repr

/-- A stamped write that has left its die (R344), to the address `va`. `old` holds the bytes it replaced, once its home die has
applied it; it is kept until every die's clock covers it. -/
structure Stamped where
  id : Nat
  src : Nat
  thr : Nat × Nat × Nat
  stamp : List W64
  loc : Loc
  bytes : List Byte
  va : W64 := 0
  old : Option (List Byte) := none
  deriving DecidableEq, Repr

/-- A peer port (R417). -/
structure Port where
  credits : List Nat := [256, 256, 256]
  retries : Nat := 0
  up : Bool := true
  deriving DecidableEq, Repr

/-- Rhavos mailbox registers (R413). -/
structure RhRegs where
  len : W32 := 0
  seq : BitVec 16 := 0
  opc : BitVec 16 := 0
  done : Bool := false
  busy : Bool := false
  seqDone : BitVec 16 := 0
  result : BitVec 16 := 0
  args : Mem := []
  deriving DecidableEq, Repr

/-- STATE of R416. -/
inductive ModSt where
  | boot | recovery | ready | locked | fatal
  deriving DecidableEq, Repr

/-- A fatal error that Rhavos handles (R424): the time at its detection, the detecting unit and the syndrome as the event names them
(R425), and whether the dump has been written. -/
structure FatalInfo where
  time : Nat
  unit : List Nat
  syndrome : Nat
  dumped : Bool := false
  deriving DecidableEq, Repr

/-- Log entries Rhavos keeps (R351, R356, R414, R422), and what the validation of an Exdin kernel reports (R304). -/
inductive LogEntry where
  | refused (va : W64) (code : Nat)
  | badDoorbell (q : Nat)
  | mailDropped (m : Nat)
  | message (m : Nat)
  | succMiss (va : W64)
  | context (x : Nat) (cause : Nat)
  | corrected (sram dram : Nat) (places : List Nat)
  | portDown (port : Nat)
  | invalid (code : W64) (word reason : Nat)
  deriving DecidableEq, Repr

/-- An entry of a context's order logs (R430), in one order: kind 0 an atomic at an address by a lane (grid, block, lane);
1 a delivery to a mailbox (kind of message, sender); 2 a host or peer write at an address. -/
structure OrderRec where
  kind : Nat
  addr : Nat
  who : List Nat
  bytes : List Byte
  deriving DecidableEq, Repr

/-- A checkpoint of a context (R430): the context with its saved blocks, its grids, its mailboxes, device memory as it stood,
and the order logs since. -/
structure Checkpoint where
  ctx : Nat
  context : Context
  grids : List (Nat × Grid)
  mbx : List (Nat × Mailbox)
  mem : Mem
  log : List OrderRec
  deriving DecidableEq, Repr

/-- The module's own state. -/
structure Sys where
  time : Nat := 0
  st : ModSt := .boot
  /-- The values of STATE since the last module reset, oldest first (R425). -/
  hist : List ModSt := []
  failure : Option FatalInfo := none
  boots : Nat := 0
  /-- What the last host or peer read returned (R348, R418). -/
  readData : List Byte := []
  lockedFeat : Option (List W64) := none
  invCtx : BitVec 12 := 0
  invStart : W64 := 0
  invLen : W64 := 0
  errors : List Nat := [0, 0, 0, 0, 0, 0, 0]
  queues : Tab Queue := []
  rh : RhRegs := {}
  mbx : Tab Mailbox := []
  deliveries : List Delivery := []
  vaults : Tab Vault := []
  moves : List PageMove := []
  deferred : List Deferred := []
  vc : List (Nat × W64) := []
  stamped : List Stamped := []
  toggles : List (Nat × Nat) := []
  coop : Option Nat := none
  pins : List (Nat × Nat × Nat × Nat) := []
  ports : Tab Port := []
  image : List Byte := []
  dumpBase : Option (W64 × W64) := none
  log : List LogEntry := []
  checkpoints : List Checkpoint := []
  replay : Option (Nat × List OrderRec) := none
  nextGrid : Nat := 0
  nextOrder : Nat := 0
  nextId : Nat := 0
  deriving DecidableEq, Repr

/-- A saved block becomes eligible to resume, and is due from then on (R72, R372). -/
def SavedBlock.makeEligible (time : Nat) (v : SavedBlock) : SavedBlock :=
  if v.eligible then v else { v with eligible := true, since := time }

/-- An agent that issues instruction words. -/
inductive Agent where
  | none
  | gang (core blk gang : Nat)
  | hart (core : Nat) (storer : Bool)
  deriving DecidableEq, Repr

/-- Arguments of an event: its numbers in the order its constructor's comment lists them (flags and options as 0 or 1
before their value), and its bytes. -/
structure Args where
  num : List Nat := []
  bytes : List Byte := []
  deriving DecidableEq, Repr

/-- What takes place next (log 1). -/
inductive Turn where
  /-- The agent issues its next instruction or bundle. -/
  | issue (a : Agent)
  /-- Nanoseconds pass. -/
  | tick (ns : Nat)
  /-- An event of the table takes place. -/
  | event (i : Instr) (a : Args)
  deriving DecidableEq, Repr

/-- The whole module. -/
structure State where
  /-- Device memory by physical address (R331). -/
  mem : Mem := []
  /-- Memory behind host ports (0, 1) and peer ports (2 to 17), at port * 2^64 + address. -/
  ext : Mem := []
  /-- Modified bytes of external lines held at home slices, not yet written back (R204). -/
  held : List (Nat × Byte × Bool) := []
  cores : Tab Core := []
  clusters : Tab Cluster := []
  ctxs : Tab Context := []
  grids : Tab Grid := []
  sys : Sys := {}
  /-- The model's own: what takes place next, in order (log 1). -/
  agenda : List Turn := []
  /-- The model's own: the agent that issues (log 1). -/
  cur : Agent := .none
  /-- The model's own: the arguments of the event that takes place (log 1). -/
  args : Args := {}
  /-- The model's own: how many free values have been drawn (log 11). -/
  free : Nat := 0
  deriving DecidableEq, Repr

/-- The module right after reset: nothing resident, STATE BOOT, every register at the value the spec gives or log 4
names. -/
def State.reset : State := {}

end Sys2Proof.Machine
end

