-- ==== Sys2Proof/Machine/Ops.lean ====
section
/-! DEFINITION. The named operations of the machine: byte stores and tables, the effects a meaning is made of and their one
interpreter, access to lanes, slices, gangs and blocks, the issuing unit, translation (13 R393 to R396, R449), and
taking a trap (R387 to R391). -/

namespace Sys2Proof.Machine

/-! ## Sparse stores and tables -/

/-- The value at an address; an unlisted address holds zero (log 3). -/
def cellGet {w : Nat} (t : List (Nat × BitVec w)) (a : Nat) : BitVec w :=
  match t with
  | [] => 0
  | (k, x) :: r => if k = a then x else cellGet r a

/-- Writes one cell, keeping addresses strictly rising and no zero listed; a zero removes every cell of the address. -/
def cellSet {w : Nat} (t : List (Nat × BitVec w)) (a : Nat) (b : BitVec w) : List (Nat × BitVec w) :=
  match t with
  | [] => if b = 0 then [] else [(a, b)]
  | (k, x) :: r =>
    if k < a then (k, x) :: cellSet r a b
    else if k = a then (if b = 0 then cellSet r a b else (a, b) :: r)
    else if b = 0 then (k, x) :: cellSet r a b
    else (a, b) :: (k, x) :: r

/-- Addresses strictly rise from `lo`, and no listed value is zero. -/
def cellsFrom {w : Nat} (lo : Nat) : List (Nat × BitVec w) → Bool
  | [] => true
  | (k, x) :: r => decide (lo ≤ k) && decide (x ≠ 0) && cellsFrom (k + 1) r

/-- The canonical form of a byte store. -/
def Mem.wf (m : Mem) : Bool := cellsFrom 0 m

def Mem.read (m : Mem) (a : Nat) : Byte := cellGet m a

def Mem.write (m : Mem) (a : Nat) (b : Byte) : Mem := cellSet m a b

/-- Bytes written at rising addresses. -/
def Mem.writeAll (m : Mem) (a : Nat) : List Byte → Mem
  | [] => m
  | b :: bs => (m.write a b).writeAll (a + 1) bs

/-- `n` bytes from `a` set to zero. -/
def Mem.zero (m : Mem) (a n : Nat) : Mem := m.filter fun c => decide (c.1 < a) || decide (a + n ≤ c.1)

/-- `n` bytes from `a`. -/
def Mem.bytes (m : Mem) (a : Nat) : (n : Nat) → List Byte
  | 0 => []
  | n + 1 => m.read a :: m.bytes (a + 1) n

/-- The number that bytes spell, least significant first (R1). -/
def leNat : List Byte → Nat
  | [] => 0
  | b :: bs => b.toNat + 256 * leNat bs

/-- The low `n` bytes of a number, least significant first (R1). -/
def leBytes (x : Nat) : (n : Nat) → List Byte
  | 0 => []
  | n + 1 => BitVec.ofNat 8 x :: leBytes (x / 256) n

def Tab.get? {β : Type} (t : Tab β) (k : Nat) : Option β :=
  match t with
  | [] => none
  | (j, v) :: r => if j = k then some v else Tab.get? r k

def Tab.set {β : Type} (t : Tab β) (k : Nat) (v : β) : Tab β :=
  match t with
  | [] => [(k, v)]
  | (j, w) :: r => if j < k then (j, w) :: Tab.set r k v else if j = k then (k, v) :: r else (k, v) :: (j, w) :: r

def Tab.del {β : Type} (t : Tab β) (k : Nat) : Tab β := t.filter fun e => decide (e.1 ≠ k)

/-- Changes the entry of `k`, if it is listed. -/
def Tab.modify {β : Type} (t : Tab β) (k : Nat) (f : β → β) : Tab β :=
  match t with
  | [] => []
  | (j, v) :: r => if j = k then (j, f v) :: r else (j, v) :: Tab.modify r k f

/-- Changes element `i` of a list. -/
def modAt {β : Type} (l : List β) (i : Nat) (f : β → β) : List β :=
  match l, i with
  | [], _ => []
  | x :: r, 0 => f x :: r
  | x :: r, i + 1 => x :: modAt r i f

/-- Every element `f` yields for 0 to `n` - 1. -/
def forN {β : Type} (n : Nat) (f : Nat → List β) : List β := (List.range n).flatMap f

/-! ## Parts of the state by name -/

/-- Core `c` = 48 × die + 4 × cluster + core (R391). -/
def State.core (s : State) (c : Nat) : Core := (s.cores.get? c).getD {}

/-- Cluster `k` = 12 × die + cluster. -/
def State.cluster (s : State) (k : Nat) : Cluster := (s.clusters.get? k).getD {}

def State.ctx? (s : State) (x : Nat) : Option Context := s.ctxs.get? x

def State.grid? (s : State) (g : Nat) : Option Grid := s.grids.get? g

def State.block? (s : State) (c b : Nat) : Option Block := (s.core c).blocks.get? b

/-- Number `i` of the event's arguments. -/
def State.arg (s : State) (i : Nat) : Nat := s.args.num.getD i 0

/-- Cluster of a core. -/
def clusterOf (c : Nat) : Nat := c / 4
/-- Die of a core (R23). -/
def dieOf (c : Nat) : Nat := c / 48

/-! ## Effects

A meaning answers a program: effects, and reads of the state as it then stands. `Prog.run` is the one interpreter. An
effect on a core or a cluster leaves its byte stores as they are; bytes change by `write` and `zero` alone. -/

inductive Eff where
  /-- Bytes at a location. -/
  | write (l : Loc) (bs : List Byte)
  /-- Zero bytes at a location. -/
  | zero (l : Loc) (n : Nat)
  | core (c : Nat) (f : Core → Core)
  | clus (k : Nat) (f : Cluster → Cluster)
  | ctx (x : Nat) (f : Context → Context)
  | newCtx (x : Nat) (v : Context)
  | delCtx (x : Nat)
  | grid (g : Nat) (f : Grid → Grid)
  | newGrid (g : Nat) (v : Grid)
  | delGrid (g : Nat)
  | sys (f : Sys → Sys)
  | held (f : List (Nat × Byte × Bool) → List (Nat × Byte × Bool))
  | cur (a : Agent)
  | draw

/-- Applies `f` to a core but for its byte store. -/
def Core.update (f : Core → Core) (k : Core) : Core := { f k with pool := k.pool }

/-- Applies `f` to a cluster but for its byte stores. -/
def Cluster.update (f : Cluster → Cluster) (k : Cluster) : Cluster := { f k with csu := k.csu, cist := k.cist }

/-- Bytes of non-coherent external memory that the device has written stay with the home slice (R204, R348). -/
def heldSet (h : List (Nat × Byte × Bool)) (a : Nat) (b : Byte) (dirty : Bool) : List (Nat × Byte × Bool) :=
  (a, b, dirty) :: h.filter fun e => decide (e.1 ≠ a)

def heldAll (h : List (Nat × Byte × Bool)) (a : Nat) : List Byte → List (Nat × Byte × Bool)
  | [] => h
  | b :: bs => heldAll (heldSet h a b true) (a + 1) bs

/-- Writes bytes at a location (log 5). -/
def State.writeLoc (s : State) (l : Loc) (bs : List Byte) : State :=
  match l.sp with
  | 0 => { s with mem := s.mem.writeAll l.a bs }
  | 1 => { s with ext := s.ext.writeAll l.a bs }
  | 2 => { s with cores := s.cores.set l.i { s.core l.i with pool := (s.core l.i).pool.writeAll l.a bs } }
  | 3 => { s with clusters := s.clusters.set l.i { s.cluster l.i with csu := (s.cluster l.i).csu.writeAll l.a bs } }
  | 4 => { s with clusters := s.clusters.set l.i { s.cluster l.i with cist := (s.cluster l.i).cist.writeAll l.a bs } }
  | _ => { s with held := heldAll s.held l.a bs }

def State.zeroLoc (s : State) (l : Loc) (n : Nat) : State :=
  match l.sp with
  | 0 => { s with mem := s.mem.zero l.a n }
  | 1 => { s with ext := s.ext.zero l.a n }
  | 2 => { s with cores := s.cores.set l.i { s.core l.i with pool := (s.core l.i).pool.zero l.a n } }
  | 3 => { s with clusters := s.clusters.set l.i { s.cluster l.i with csu := (s.cluster l.i).csu.zero l.a n } }
  | 4 => { s with clusters := s.clusters.set l.i { s.cluster l.i with cist := (s.cluster l.i).cist.zero l.a n } }
  | _ => s

/-- The byte at a location. -/
def State.readLoc (s : State) (l : Loc) : Byte :=
  match l.sp with
  | 0 => s.mem.read l.a
  | 1 => s.ext.read l.a
  | 2 => (s.core l.i).pool.read l.a
  | 3 => (s.cluster l.i).csu.read l.a
  | 4 => (s.cluster l.i).cist.read l.a
  | _ =>
    match s.held.find? fun e => decide (e.1 = l.a) with
    | some (_, b, _) => b
    | none => s.ext.read l.a

/-- `n` bytes from a location. -/
def State.readBytes (s : State) (l : Loc) : (n : Nat) → List Byte
  | 0 => []
  | n + 1 => s.readLoc l :: s.readBytes { l with a := l.a + 1 } n

def Eff.apply (e : Eff) (s : State) : State :=
  match e with
  | .write l bs => s.writeLoc l bs
  | .zero l n => s.zeroLoc l n
  | .core c f => { s with cores := s.cores.set c ((s.core c).update f) }
  | .clus k f => { s with clusters := s.clusters.set k ((s.cluster k).update f) }
  | .ctx x f => { s with ctxs := s.ctxs.modify x f }
  | .newCtx x v => { s with ctxs := s.ctxs.set x v }
  | .delCtx x => { s with ctxs := s.ctxs.del x }
  | .grid g f => { s with grids := s.grids.modify g f }
  | .newGrid g v => { s with grids := s.grids.set g v }
  | .delGrid g => { s with grids := s.grids.del g }
  | .sys f => { s with sys := f s.sys }
  | .held f => { s with held := f s.held }
  | .cur a => { s with cur := a }
  | .draw => { s with free := s.free + 1 }

/-- A sequence of effects in which a later part may read the state that the earlier part left. -/
inductive Prog where
  | done
  | eff (e : Eff) (rest : Prog)
  | read (k : State → Prog)

def Prog.run : Prog → State → State
  | .done, s => s
  | .eff e rest, s => rest.run (e.apply s)
  | .read k, s => (k s).run s

/-- One program after another. -/
def Prog.andThen : Prog → Prog → Prog
  | .done, q => q
  | .eff e rest, q => .eff e (rest.andThen q)
  | .read k, q => .read fun s => (k s).andThen q

def Prog.one (e : Eff) : Prog := .eff e .done

def Prog.all : List Prog → Prog
  | [] => .done
  | p :: ps => p.andThen (Prog.all ps)

/-- The programs of a list's elements in order. -/
def Prog.each {β : Type} (l : List β) (f : β → Prog) : Prog := Prog.all (l.map f)

def Prog.when (b : Bool) (p : Prog) : Prog := if b then p else .done

/-! ## Lanes, slices, gangs and blocks -/

def Lane.reg (l : Lane) (i : Nat) : W32 := cellGet l.v i

def Lane.setReg (l : Lane) (i : Nat) (x : W32) : Lane := { l with v := cellSet l.v i x }

/-- Predicate `i`; `p7` reads true (R14). -/
def Lane.pred (l : Lane) (i : Nat) : Bool := i == 7 || l.p.getLsbD i

/-- Writes predicate `i`; a write to `p7` is discarded (R14). -/
def Lane.setPred (l : Lane) (i : Nat) (b : Bool) : Lane :=
  if i ≥ 7 then l
  else { l with p := if b then l.p ||| ((1 : BitVec 7) <<< i) else l.p &&& ~~~((1 : BitVec 7) <<< i) }

/-- `n` registers from `i` as one value, the lowest register in the low bits (R9). -/
def Lane.regs (l : Lane) (i : Nat) : (n : Nat) → Nat
  | 0 => 0
  | n + 1 => (l.reg i).toNat + 2 ^ 32 * l.regs (i + 1) n

def Lane.setRegs (l : Lane) (i : Nat) (x : Nat) : (n : Nat) → Lane
  | 0 => l
  | n + 1 => (l.setReg i (BitVec.ofNat 32 x)).setRegs (i + 1) (x / 2 ^ 32) n

/-- `s`i of a slice's copy; `s63` reads zero (R11). -/
def Slice.sreg (x : Slice) (i : Nat) : W64 := if i ≥ 63 then 0 else cellGet x.s i

/-- Writes `s`i; a write to `s63` is discarded (R11). -/
def Slice.setS (x : Slice) (i : Nat) (v : W64) : Slice := if i ≥ 63 then x else { x with s := cellSet x.s i v }

/-- A slice is live while a lane of it has not exited (R49). -/
def Slice.isLive (x : Slice) : Bool := x.live ≠ 0

def Block.lane (b : Block) (i : Nat) : Lane := b.lanes.getD i {}

def Block.modLane (b : Block) (i : Nat) (f : Lane → Lane) : Block := { b with lanes := modAt b.lanes i f }

def Block.modSlice (b : Block) (i : Nat) (f : Slice → Slice) : Block := { b with slices := modAt b.slices i f }

def Block.modGang (b : Block) (g : Nat) (f : Gang → Gang) : Block := { b with gangs := b.gangs.modify g f }

def Block.slice? (b : Block) (i : Nat) : Option Slice := b.slices[i]?

/-- Slices of a gang that are live, ascending (R42). -/
def Block.members (b : Block) (g : Nat) : List Nat :=
  (List.range b.slices.length).filter fun i =>
    match b.slice? i with | some x => x.gang == g && x.isLive | none => false

/-- Lanes of a 4-bit mask of slice `i`, ascending. -/
def maskLanes (i : Nat) (m : BitVec 4) : List Nat :=
  (List.range 4).filterMap fun j => if m.getLsbD j then some (4 * i + j) else none

/-- Active lanes of a list of slices, ascending (R45). -/
def Block.activeLanes (b : Block) (ms : List Nat) : List Nat :=
  ms.flatMap fun i => match b.slice? i with | some x => maskLanes i x.active | none => []

/-- A set of lanes or slices as a mask. -/
def maskOf (w : Nat) (l : List Nat) : BitVec w := l.foldl (fun m i => m ||| ((1 : BitVec w) <<< i)) 0

/-- Physical lane of a block lane (R124). -/
def Block.physLane (b : Block) (i : Nat) : Nat := 4 * (b.phys.getD (i / 4) 0) + i % 4

/-- Slices of the block that are not live (R49). -/
def Block.deadCount (b : Block) : Nat := (b.slices.filter fun x => !x.isLive).length

/-- A program on one block. -/
def onBlock (c b : Nat) (f : Block → Block) : Prog :=
  .one (.core c fun k => { k with blocks := k.blocks.modify b f })

def onGang (c b g : Nat) (f : Gang → Gang) : Prog := onBlock c b fun x => x.modGang g f

/-! ## The issuing unit -/

/-- A gang, a thread, or one slot of a thread's bundle, at issue: where it stands, the words around it, its slices,
its active lanes and those whose guard passes. `pre` is the state from which registers and memory are read. -/
structure U where
  c : Nat
  b : Nat
  g : Nat
  core : Core
  blk : Block
  gang : Gang
  grid : Grid
  ctx : Context
  pc : W64
  next : W64
  slot : Option Nat
  members : List Nat
  active : List Nat
  part : List Nat
  pre : State
  /-- A hart that issues an engine operation: whether it is the storer. Its `b` is 0 or 1, and its block a stand-in. -/
  hart : Option Bool := none

/-- The unit of the gang or thread that `cur` names; `len` is the instruction's length in bytes. -/
def unitOf (s : State) (len : Nat) : Option U :=
  match s.cur with
  | .gang c b g =>
    match s.block? c b with
    | none => none
    | some blk =>
      match blk.gangs.get? g, s.grid? blk.grid, s.ctx? blk.ctx with
      | some gang, some grid, some ctx =>
        let ms := blk.members g
        match ms.head?.bind blk.slice? with
        | none => none
        | some x =>
          let act := blk.activeLanes ms
          some { c, b, g, core := s.core c, blk, gang, grid, ctx, pc := x.pc, next := x.pc + BitVec.ofNat 64 len,
                 slot := none, members := ms, active := act, part := act, pre := s }
      | _, _, _ => none
  | _ => none

/-- The unit with its participating lanes: active lanes whose guard passes (R14, R174). -/
def U.guarded (u : U) (g : Guard) : U :=
  { u with part := u.active.filter fun i => (u.blk.lane i).pred g.pg.toNat != g.pn }

/-- The unit of slot `k` of a thread's bundle: one lane, with its own guard (R16, R17). -/
def U.atSlot (u : U) (k : Nat) (g : Guard) : U :=
  let i := 4 * (u.members.headD 0) + k
  { u with slot := some k, active := [i] }.guarded g

/-- The s-register copies a gang reads are those of its lowest slice; they agree (R11). -/
def U.s (u : U) (i : Nat) : W64 :=
  match u.members.head?.bind u.blk.slice? with
  | some x => x.sreg i
  | none => 0

/-- User level: no handler frame, or the top frame is a user handler's (R388). -/
def U.user (u : U) : Bool := match u.gang.frames with | f :: _ => !f.sup | [] => true

/-- A feature bit of the context's mask (R328). -/
def U.feat (u : U) (word bit : Nat) : Bool := (u.ctx.feat.getD word 0).getLsbD bit

def featExdin := 0
def featVliw := 1
def featE2m1 := 2
def featSparse := 3
def featSrnd := 4
def featSpill := 5
def featMbox := 6
def featDlaunch := 7

/-! ## Causes (R385) -/

def cTrap := 0x00
def cIllegal := 0x01
def cReservedMajor := 0x02
def cPrivileged := 0x03
def cMisaligned := 0x04
def cSegment := 0x05
def cPage := 0x06
def cPermission := 0x07
def cTileOverread := 0x08
def cTileUnderread := 0x09
def cTileHandle := 0x0A
def cPoolStall := 0x0B
def cQueueFull := 0x0C
def cCopyRight := 0x0D
def cPowerOverdraw := 0x0E
def cQuota := 0x0F
def cLease := 0x10
def cViewHazard := 0x11
def cMixedSize := 0x12
def cBreakpoint := 0x13
def cWatchdog := 0x14
def cCodeGone := 0x15
def cSpillway := 0x16
def cMode := 0x17
def cEcc := 0x18
def cScratchBounds := 0x19
def cFlumeOverflow := 0x1A
def cContextEnd := 0x1B

/-- Causes at supervisor level; the other vectored causes are at user level (R385). -/
def supCause (c : Nat) : Bool :=
  c == cTrap || c == cPrivileged || c == cSegment || c == cPage || c == cPermission || c == cQuota
    || c == cWatchdog || c == cCodeGone || c == cEcc

/-- Causes that are not resumable (R385). -/
def finalCause (c : Nat) : Bool := c == cSegment || c == cCodeGone

/-- One fault record to be written: its cause, address, lanes, granted frame, slots and write bit (R389). -/
structure Rec where
  cause : Nat
  addr : W64 := 0
  lanes : List Nat
  frame : W64 := 0
  slots : BitVec 16 := 0
  write : Bool := false
  /-- A write to a page whose entry has RO set: step 5 of R176. -/
  ro : Bool := false

/-- A trap to be taken: the reported cause, its records in order, the bits of FLAGS that say write, fetch or
imprecise, what has taken effect before it (R396), bits 0 and 1 of FLAGS where they are not those of the gang as it stands,
and the time of detection where that is not now (R389). -/
structure TrapReq where
  cause : Nat
  recs : List Rec
  write : Bool := false
  fetch : Bool := false
  imprecise : Bool := false
  pre : Prog := .done
  form : Option Nat := none
  time : Option Nat := none

/-- What an instruction does at issue. -/
inductive Issue where
  /-- It traps. -/
  | trap (t : TrapReq)
  /-- It waits under R69, with what the wait itself records. -/
  | wait (w : Wait) (p : Prog)
  /-- It takes effect; the unit goes on at the next instruction. -/
  | commit (p : Prog)
  /-- It takes effect, and the thread goes on at an address. -/
  | goto (a : W64) (p : Prog)
  /-- It takes effect and has itself set the PCs of the slices. -/
  | own (p : Prog)
  /-- It takes effect, and the unit then waits for an event that ends the wait. -/
  | stay (w : Wait) (p : Prog)
  /-- It vectors after the instruction (R297). -/
  | vector (cause : Nat) (n : W64)

abbrev Sem := U → State → Issue

/-- An instruction that takes effect does so after `p`. -/
def Issue.after (p : Prog) (i : Issue) : Issue :=
  match i with
  | .commit q => .commit (p.andThen q)
  | .goto a q => .goto a (p.andThen q)
  | .own q => .own (p.andThen q)
  | .stay w q => .stay w (p.andThen q)
  | i => i

/-- An instruction that waits records `p` beside what its wait records. -/
def Issue.waiting (p : Prog) (i : Issue) : Issue :=
  match i with
  | .wait w q => .wait w (p.andThen q)
  | i => i

/-- What the records of this unit's instruction say of it. -/
def U.origin (u : U) : Origin :=
  { slots := match u.slot with | some k => maskOf 16 [k] | none => 0
    flags := (if u.gang.vliw then 1 else 0) + if u.grid.exdin.isSome && u.gang.frames.isEmpty then 2 else 0 }

/-- The key of this unit among the deadlines of its gang. -/
def U.dueKey (u : U) : Nat := u.slot.getD 16

/-- The deadline that a wait of this instruction has fixed, if it issues again (R262, R267). -/
def U.due (u : U) : Option Nat := (u.gang.dues.find? fun e => e.1 == u.pc && e.2.1 == u.dueKey).map (·.2.2)

/-- A precise trap of every participating lane, with no address. -/
def U.trap (u : U) (cause : Nat) : Issue := .trap { cause, recs := [{ cause, lanes := u.part }] }

/-- A precise trap of every active lane: the encoding traps, raised whatever the guard (R75). -/
def U.illegal (u : U) : Issue := .trap { cause := cIllegal, recs := [{ cause := cIllegal, lanes := u.active }] }

/-! ## Translation (R393 to R396, R449) -/

def Seg.attrBit (g : Seg) (i : Nat) : Bool := g.attr.getLsbD i
def Seg.isSave (g : Seg) : Bool := g.attrBit 47
def Seg.isExt (g : Seg) : Bool := g.attrBit 6
def Seg.coherent (g : Seg) : Bool := g.attrBit 7

/-- Page size (R393). -/
def Seg.page (g : Seg) : Nat := if g.attrBit 5 then 2 ^ 21 else 2 ^ 16

/-- The valid segment that holds an address (R393, R174). -/
def findSeg (segs : List Seg) (va : W64) : Option Seg :=
  if bits 8 va 56 == 0 then
    segs.find? fun g => g.attrBit 0 && decide (g.base.toNat ≤ va.toNat) && decide (va.toNat < g.base.toNat + g.limit.toNat)
  else none

/-- ST of a page-table entry (R395). -/
def pteSt (p : W64) : Nat := (bits 2 p 0).toNat
def pteRo (p : W64) : Bool := p.getLsbD 2
def pteHost (p : W64) : Bool := p.getLsbD 3

/-- The 64-bit word at a device physical address. -/
def State.word (s : State) (a : Nat) : W64 := BitVec.ofNat 64 (leNat (s.mem.bytes a 8))

/-- The location a page-table entry gives an address (R395). -/
def pteLoc (g : Seg) (p : W64) (va : W64) : Loc :=
  let off := (va.toNat - g.base.toNat) % g.page
  if g.isExt then
    { sp := if g.coherent then 1 else 5, i := 0, a := 2 ^ 64 * (bits 6 p 58).toNat + 2 ^ 16 * (bits 42 p 16).toNat + off }
  else { sp := 0, i := 0, a := 2 ^ 16 * (bits 23 p 16).toNat / g.page * g.page + off }

/-- A walk's answer: no segment; the entry lies in a page that is not PRESENT; it lies in a page of the save area whose own entry is
not as R449 has it; or the entry, with its place. -/
inductive Walk where
  | noSeg
  | ptMissing (pteVa : W64)
  | saveBad
  | pte (g : Seg) (phys : Nat) (p : W64)

/-- The entry at a place: the one in use, when the page was PRESENT as it was first used (R395). -/
def State.pteAt (s : State) (tlb : List Trans) (ph : Nat) : W64 :=
  match tlb.find? fun t => t.ph == ph with
  | some t => t.entry
  | none => s.word ph

/-- An entry of the save area's table that is not PRESENT, is read-only, or has no device frame: an error in control state (R449). -/
def saveEntryBad (p : W64) : Bool := pteSt p != 1 || pteRo p || pteHost p || bits 19 p 39 != 0

/-- R449: the page-table entry of an address. The fuel bounds the two nested translations that R449 allows. -/
def walk (s : State) (tlb : List Trans) (segs : List Seg) (savePt : W64) : (fuel : Nat) → W64 → Walk
  | 0, _ => .noSeg
  | n + 1, va =>
    match findSeg segs va with
    | none => .noSeg
    | some g =>
      let j := (va.toNat - g.base.toNat) / g.page
      if g.isSave then
        let ph := savePt.toNat + 8 * j
        .pte g ph (s.pteAt tlb ph)
      else
        let pva := g.ptab + BitVec.ofNat 64 (8 * j)
        match walk s tlb segs savePt n pva with
        | .pte g2 _ p2 =>
          if g2.isSave && saveEntryBad p2 then .saveBad
          else if pteSt p2 = 1 ∧ !g2.isExt then
            let ph := (pteLoc g2 p2 pva).a
            .pte g ph (s.pteAt tlb ph)
          else .ptMissing pva
        | .saveBad => .saveBad
        | _ => .ptMissing pva

/-- R449: page tables lie at most two translations from the save area's. -/
def walkFuel : Nat := 4

def State.walkFor (s : State) (g : Grid) (x : Context) (va : W64) : Walk := walk s x.tlb g.segs x.savePt walkFuel va

/-- An address and the addresses of the entries that translate it, up to one of the save area. -/
def pteVas (segs : List Seg) : (fuel : Nat) → W64 → List W64
  | 0, _ => []
  | n + 1, va =>
    match findSeg segs va with
    | some g => if g.isSave then [va] else va :: pteVas segs n (g.ptab + BitVec.ofNat 64 (8 * ((va.toNat - g.base.toNat) / g.page)))
    | none => []

/-- The translations that accesses use are kept until an invalidation covers them (R395, R401). -/
def keepTrans (xid : Nat) (g : Grid) (vas : List W64) : Prog :=
  .read fun s =>
    match s.ctx? xid with
    | none => .done
    | some x =>
      let new := vas.flatMap (pteVas g.segs walkFuel) |>.filterMap fun va =>
        match s.walkFor g x va with
        | .pte sg ph p =>
          if pteSt p == 1 && x.tlb.all (fun t => t.ph != ph) then
            some ({ ph, entry := p, va := va - BitVec.ofNat 64 ((va.toNat - sg.base.toNat) % sg.page), n := sg.page } : Trans)
          else none
        | _ => none
      Prog.when (!new.isEmpty) (.one (.ctx xid fun c =>
        { c with tlb := new.foldl (fun l t => if l.any fun e => e.ph == t.ph then l else t :: l) c.tlb }))

/-- Translations of a byte range are given up (R399 to R401). -/
def Context.dropTrans (x : Context) (a n : Nat) : Context :=
  { x with tlb := x.tlb.filter fun t => decide (t.va.toNat + t.n ≤ a) || decide (a + n ≤ t.va.toNat) }

/-- The location of an address in a grid's locked table whatever its permissions, when its page is PRESENT. -/
def State.locate (s : State) (g : Grid) (x : Context) (va : W64) : Option (Seg × Loc) :=
  match s.walkFor g x va with
  | .pte sg _ p => if pteSt p = 1 ∧ !pteHost p then some (sg, pteLoc sg p va) else none
  | _ => none

/-- Bytes of one access of one lane. -/
structure Acc where
  lane : Nat
  va : W64
  size : Nat

/-- Use of an address that a segment may forbid (R393); `rw` is an atomic's, which reads and writes. -/
inductive Use3 where
  | rd | wr | fx | rw
  deriving DecidableEq

/-- A use that writes. -/
def Use3.writes (u : Use3) : Bool := u == .wr || u == .rw

/-- R393: ATTR bits R, W, X; the save area at user level. `sup` is supervisor level, `area` the user-visible part. -/
def segAllows (g : Seg) (use : Use3) (sup area : Bool) : Bool :=
  (match use with | .rd => g.attrBit 2 | .wr => g.attrBit 3 | .fx => g.attrBit 4 | .rw => g.attrBit 2 && g.attrBit 3)
    && (!g.isSave || (if sup then use != .fx else use == .rd && area))

/-- R391, R393: offsets of the save area that user level may read: user-level records and user frames. -/
def userArea (off : Nat) : Bool :=
  decide (0x20000 ≤ off) && decide (off < 0x20000 + 768 * 0x4000)
    && (let o := (off - 0x20000) % 0x4000
        (decide (0x1000 ≤ o) && decide (o < 0x2000)) || (decide (0x2000 ≤ o) && o % 512 < 256))

/-- Outcome of step 4 of R176 for one page. -/
inductive PageRes where
  | ok
  | filling
  | page (addr frame : W64) (p : Prog)
  | quota (addr : W64)

/-- Writes a 64-bit word at a device physical address. -/
def putWord (a : Nat) (x : W64) : Prog := .one (.write ⟨0, 0, a⟩ (leBytes x.toNat 8))

/-- Physical address of a byte of a context's save area (R392, R449). -/
def saveLoc (s : State) (x : Context) (off : Nat) : Loc :=
  let p := s.pteAt x.tlb (x.savePt.toNat + 8 * (off / x.savePage))
  ⟨0, 0, 2 ^ 16 * (bits 23 p 16).toNat / x.savePage * x.savePage + off % x.savePage⟩

/-- A word of the save area. -/
def saveWord (s : State) (x : Context) (off : Nat) : W64 :=
  BitVec.ofNat 64 (leNat (s.readBytes (saveLoc s x off) 8))

/-- Some page of `n` bytes of the save area from `off` on has an entry that R449 forbids. -/
def State.saveBroken (s : State) (x : Context) (off n : Nat) : Bool :=
  let lo := off / x.savePage
  (List.range ((off + n - 1) / x.savePage - lo + 1)).any fun i =>
    saveEntryBad (s.pteAt x.tlb (x.savePt.toNat + 8 * (lo + i)))

/-! ## Ending grids and contexts (R387, R390) -/

/-- Every lane of a slice has exited, with no stack left. -/
def Slice.kill (x : Slice) : Slice := { x with live := 0, active := 0, stack := [], ex := [] }

/-- Every lane of a block ends as by `EXIT`. -/
def Block.kill (b : Block) : Block := { b with slices := b.slices.map Slice.kill }

/-- A context without a grid's saved blocks, its harts in core records, and core records of no block. -/
def Context.dropGrid (x : Context) (gid : Nat) : Context :=
  let saved := x.saved.filter fun v => v.blk.grid != gid
  let keep := fun (h : Option Hart) => h.filter fun h => h.grid != gid
  { x with
    saved
    coreRecs := (x.coreRecs.filter fun r => saved.any fun v => v.coreRec == some r.1).map fun r =>
      (r.1, { r.2 with loader := keep r.2.loader, storer := keep r.2.storer }) }

/-- A grid ends with a cause: its resident blocks' lanes exit, its saved blocks are dropped and blocks not yet placed
count as ended (R387, R390). -/
def killGrid (gid : Nat) (cause : Nat) : Prog :=
  .read fun s =>
    Prog.all [
      Prog.each s.cores fun e => .one (.core e.1 fun k =>
        { k with blocks := k.blocks.map fun b => if b.2.grid == gid then (b.1, b.2.kill) else b }),
      Prog.each s.ctxs fun e => .one (.ctx e.1 fun x => x.dropGrid gid),
      .one (.grid gid fun g => { g with cause := BitVec.ofNat 8 cause, armed := false, done := true })]

/-- Every grid and packet of a context ends with a cause (R387). -/
def killContext (x cause : Nat) : Prog :=
  .read fun s =>
    Prog.when (s.grids.any fun e => e.2.ctx == x && !e.2.done) <|
      (Prog.each s.grids fun e => if e.2.ctx == x then killGrid e.1 cause else .done).andThen
        (.one (.sys fun y => { y with log := y.log ++ [.context x cause] }))

/-- Writes bytes of the save area whose pages have been examined, one at a time, so that no run crosses a page. -/
def saveBytes (x : Nat) (off : Nat) (bs : List Byte) : Prog :=
  .read fun s =>
    match s.ctx? x with
    | none => .done
    | some ctx =>
      Prog.each (List.range bs.length) fun i => .one (.write (saveLoc s ctx (off + i)) (bs.drop i |>.take 1))

/-- Writes bytes of the save area. A page that is not there is an error in control state, and Rhavos ends the context's grids
(R449, R423, log 65). -/
def saveWrite (x : Nat) (off : Nat) (bs : List Byte) : Prog :=
  .read fun s =>
    match s.ctx? x with
    | none => .done
    | some ctx => if s.saveBroken ctx off bs.length then killContext x cEcc else saveBytes x off bs

/-! ## Records (R389, R392) -/

/-- The 64 bytes of a fault record (R389). -/
def recBytes (pc addr lanes : W64) (bx byy bz : W32) (slots : BitVec 16) (cause flags next : Nat) (ctx agent : Nat)
    (frame : W64) (time : Nat) : List Byte :=
  leBytes pc.toNat 8 ++ leBytes addr.toNat 8 ++ leBytes lanes.toNat 8 ++ leBytes bx.toNat 4 ++ leBytes byy.toNat 4
    ++ leBytes bz.toNat 4 ++ leBytes slots.toNat 2 ++ leBytes cause 1 ++ leBytes flags 1 ++ leBytes next 1
    ++ [0] ++ leBytes ctx 2 ++ leBytes agent 1 ++ [0, 0, 0] ++ leBytes frame.toNat 8 ++ leBytes time 8

/-- A flag of FLAGS. -/
def flagBit (b : Bool) (i : Nat) : Nat := if b then 2 ^ i else 0

/-- Appends a record to a context's event log, or counts it as dropped (R392). -/
def logRecord (x : Nat) (bs : List Byte) : Prog :=
  .read fun s =>
    match s.ctx? x with
    | none => .done
    | some ctx =>
      let h := saveWord s ctx 80
      let t := saveWord s ctx 88
      if s.saveBroken ctx 80 24 then killContext x cEcc
      else if decide ((t - h).toNat < 256) then
        Prog.all [saveWrite x (0xD000 + 64 * (t.toNat % 256)) bs, saveWrite x 88 (leBytes (t.toNat + 1) 8)]
      else saveWrite x 96 (leBytes ((saveWord s ctx 96).toNat + 1) 8)

/-- Rhavos ends every grid and packet of a context with a cause, and writes the context's log entry: a record with the cause
alone (R387, R392, log 74). -/
def endContextGrids (x cause : Nat) : Prog :=
  (killContext x cause).andThen <| .read fun s =>
    logRecord x (recBytes 0 0 0 0 0 0 0 cause (flagBit (finalCause cause) 5 + flagBit true 7) 0xFF x 0 0 s.sys.time)

/-! ## First touch (R396) -/

/-- The counters of an agent: those that the device holds, or those of its record (R376, log 72). -/
def State.agentCtr (s : State) (x : Context) (a : Nat) : AgentCtr :=
  match x.agents.get? a with
  | some r => r
  | none =>
    let w := fun (i : Nat) => (saveWord s x (0x9000 + 64 * a + 8 * i)).toNat
    { pages := w 1, scrip := w 2, grans := w 3, fills := w 4, shared := w 5, wbacks := w 6 }

/-- Changes an agent's counters; a record in a broken page of the save area ends the context's grids (R376, R449, log 65). -/
def onAgent (x a : Nat) (f : AgentCtr → AgentCtr) : Prog :=
  .read fun s =>
    match s.ctx? x with
    | none => .done
    | some ctx =>
      let r := f (s.agentCtr ctx a)
      (Prog.when ((ctx.agents.get? a).isNone && s.saveBroken ctx (0x9000 + 64 * a) 64) (killContext x cEcc)).andThen
        (.one (.ctx x fun c => { c with agents := c.agents.set a r }))

/-- R396: the first-touch step on a TOUCH page, as one indivisible step: the frame is the one at the ring's head. A frame that
is not a device frame aligned to its page size ends the context's grids (R392, R423, log 65). -/
def firstTouch (s : State) (xid : Nat) (x : Context) (g : Seg) (phys : Nat) (p : W64) (agent : Nat) (va : W64) : PageRes :=
  let a := if g.attrBit 12 then (bits 8 g.attr 13).toNat else agent
  let big := g.attrBit 5
  let c := if big then 32 else 1
  let pages := (s.agentCtr x a).pages
  let quota := (saveWord s x (0x9000 + 64 * a)).toNat
  let filling := (p &&& ~~~(3 : W64)) ||| 3
  let hOff := if big then 48 else 32
  let h := saveWord s x hOff
  let t := saveWord s x (hOff + 8)
  if s.saveBroken x 0 64 || s.saveBroken x (0x9000 + 64 * a) 64 then .page va 0 (endContextGrids xid cEcc)
  else if (x.feat.getD 0 0).getLsbD 11 && decide (pages + c > quota) then .quota va
  else if h = t then .page va 0 (putWord phys filling)
  else
    let l := (bits 8 (saveWord s x 24) (if big then 8 else 0)).toNat
    let ring := saveWord s x (if big then 16 else 8)
    let off := ring.toNat - x.saveVa.toNat + 8 * (h.toNat % 2 ^ l)
    let frame := saveWord s x off
    if s.saveBroken x off 8 ∨ frame.toNat % g.page ≠ 0 ∨ frame.toNat ≥ 2 ^ 39 then .page va 0 (endContextGrids xid cEcc)
    else
      .page va frame
        (Prog.all [putWord phys filling, saveWrite xid hOff (leBytes (h.toNat + 1) 8),
          onAgent xid a fun r => { r with pages := r.pages + c }])

/-- Steps 2 to 5 of R176 for the global side of an instruction. -/
inductive GCheck where
  /-- Every byte may be reached. -/
  | ok
  /-- Some page is FILLING, which this address names, and nothing is raised. -/
  | filling (va : W64)
  | trap (t : TrapReq)

/-- Lanes that raise a cause, in one record whose address is its lowest lane's (R389). -/
def oneRec (cause : Nat) (l : List Acc) : List Rec :=
  [{ cause, addr := (l.head?.map (·.va)).getD 0, lanes := l.map (·.lane) }]

/-- The page of an address that step 4 examines: its entry's place, or the first address of the missing table page. -/
def pageKey (s : State) (g : Grid) (x : Context) (va : W64) : Nat :=
  match s.walkFor g x va with
  | .pte _ ph _ => 2 * ph
  | .ptMissing pva =>
    match findSeg g.segs pva with
    | some t => 2 * (pva.toNat - (pva.toNat - t.base.toNat) % t.page) + 1
    | none => 2 * pva.toNat + 1
  | .noSeg | .saveBad => 0

/-- Step 4 of R176 for one page. A PRESENT page of host memory raises PAGE (R406). A page of the save area whose entry R449 forbids
is an error in control state. -/
def pageStep (s : State) (xid : Nat) (g : Grid) (x : Context) (agent : Nat) (va : W64) : PageRes :=
  match s.walkFor g x va with
  | .noSeg => .ok
  | .saveBad => .page va 0 (endContextGrids xid cEcc)
  | .ptMissing pva => .page pva 0 .done
  | .pte sg ph p =>
    if sg.isSave && saveEntryBad p then .page va 0 (endContextGrids xid cEcc)
    else match pteSt p with
    | 0 => .page va 0 .done
    | 1 => if pteHost p then .page va 0 .done else .ok
    | 2 => firstTouch s xid x sg ph p agent va
    | _ => .filling

/-- Distinct keys of a list in order of first appearance. -/
def dedup (l : List Nat) : List Nat := l.foldl (fun acc k => if acc.contains k then acc else acc ++ [k]) []

/-- Steps 1 to 5 of R176, in every participating lane. -/
def checkGlobal (s : State) (xid : Nat) (g : Grid) (x : Context) (agent : Nat) (sup : Bool) (use : Use3)
    (atomScopeOk : Seg → Bool) (accs : List Acc) : GCheck :=
  let bad1 := accs.filter fun a => a.va.toNat % a.size != 0
  let seg := fun (a : Acc) => findSeg g.segs a.va
  let bad2 := accs.filter fun a => (seg a).isNone
  let bad3 := accs.filter fun a =>
    match seg a with
    | some sg => !segAllows sg use sup (userArea (a.va.toNat - sg.base.toNat)) || !atomScopeOk sg
    | none => false
  let w := use.writes
  let mk := fun cause l => GCheck.trap { cause, recs := oneRec cause l, write := w, fetch := use == .fx }
  if bad1 ≠ [] then mk cMisaligned bad1
  else if bad2 ≠ [] then mk cSegment bad2
  else if bad3 ≠ [] then mk cPermission bad3
  else
    let keys := dedup (accs.map fun a => pageKey s g x a.va)
    let step := fun (acc : State × List Rec × Option W64 × List Prog) (k : Nat) =>
      let l := accs.filter fun a => pageKey acc.1 g x a.va == k
      match l.head? with
      | none => acc
      | some a =>
        let x' := (acc.1.ctx? xid).getD x
        match pageStep acc.1 xid g x' agent a.va with
        | .ok => acc
        | .filling => (acc.1, acc.2.1, some (acc.2.2.1.getD a.va), acc.2.2.2)
        | .page addr frame p =>
          (p.run acc.1, acc.2.1 ++ [{ cause := cPage, addr, lanes := l.map (·.lane), frame }], acc.2.2.1, acc.2.2.2 ++ [p])
        | .quota addr =>
          (acc.1, acc.2.1 ++ [{ cause := cQuota, addr, lanes := l.map (·.lane) }], acc.2.2.1, acc.2.2.2)
    let res := keys.foldl step (s, [], none, [])
    let recs := res.2.1
    if recs ≠ [] then
      let cause := if recs.any (fun r => r.cause == cQuota) then cQuota else cPage
      .trap { cause, recs, write := w, fetch := use == .fx, pre := Prog.all res.2.2.2 }
    else
      let bad5 := accs.filter fun a =>
        match s.walkFor g x a.va with
        | .pte _ _ p => w && pteSt p == 1 && pteRo p
        | _ => false
      if bad5 ≠ [] then
        .trap { cause := cPermission, recs := (oneRec cPermission bad5).map fun r => { r with ro := true }, write := w, fetch := use == .fx }
      else match res.2.2.1 with | some va => .filling va | none => .ok

/-- The checks of R176 for an instruction of the unit. -/
def U.check (u : U) (s : State) (use : Use3) (accs : List Acc) : GCheck :=
  checkGlobal s u.blk.ctx u.grid u.ctx u.blk.agent.toNat (!u.user) use (fun _ => true) accs

/-! ## Loads that have not returned (R183) -/

/-- Registers an access of width `w` covers (R180). -/
def regsOf (w : Width) : Nat := if w.size ≤ 4 then 1 else w.size / 4

/-- The value a load of width `w` writes, extended to 32 bits when narrower (R180). -/
def extendTo32 (w : Width) (x : Nat) : Nat :=
  match w with
  | .i8 => ((BitVec.ofNat 8 x).signExtend 32).toNat
  | .i16 => ((BitVec.ofNat 16 x).signExtend 32).toNat
  | _ => x

/-- Writes a returned load's value to its destination (R180, R13): an s-register in the slices of the gang that issued the load,
whatever gangs they have parted into since (R11, R12). -/
def PendLoad.deliver (p : PendLoad) (b : Block) : Block :=
  if p.sreg then
    ((List.range b.slices.length).filter p.slices.getLsbD).foldl
      (fun b i => b.modSlice i fun x => x.setS p.reg (p.val.setWidth 64)) b
  else b.modLane p.lane fun l => l.setRegs p.reg p.val.toNat (regsOf p.w)

/-- The load's destination lies in one of the slices `ms`. -/
def PendLoad.meets (p : PendLoad) (ms : List Nat) : Bool :=
  if p.sreg then ms.any p.slices.getLsbD else ms.contains (p.lane / 4)

/-- Writes every outstanding load of the slices `ms` of block `b` (R388: earlier instructions write their results
before a handler is entered; R57, R402 in the same way). -/
def retireLoads (b : Nat) (ms : List Nat) (k : Core) : Core :=
  let mine := k.loads.filter fun p => p.blk == b && p.meets ms
  { k with
    blocks := k.blocks.modify b fun x => mine.foldl (fun x p => p.deliver x) x
    loads := k.loads.filter fun p => !(p.blk == b && p.meets ms) }

/-! ## Vaults (R331) -/

/-- R331: the vault of a device physical address. -/
def vaultOf (a : Nat) : Nat :=
  let u := a / 4096 % 2 ^ 27
  (u % 128) ^^^ (u / 128 % 128)

/-- The die whose crossbar holds a vault's home slice: the deck die of its tower (log 9). -/
def vaultDie (v : Nat) : Nat := 2 * (v / 16) + 1

/-- The die of the home slice of a device physical address. -/
def homeDie (a : Nat) : Nat := vaultDie (vaultOf a)

/-- R331: the byte offset within the vault. -/
def vaultOff (a : Nat) : Nat := 4096 * (a / 4096 % 2 ^ 27 / 128) + a % 4096

/-! ## Home slices (R330, R332, R375) -/

/-- Lines of an 8 MiB home slice (R330). -/
def homeMax : Nat := 65536

/-- The vault whose home slice serves a location; an external one by bits [38:12] of its virtual address (R332). -/
def homeVault (l : Loc) (va : W64) : Nat := if l.sp = 0 then vaultOf l.a else vaultOf va.toNat

/-- The location lies in memory behind home slices. -/
def Loc.isGlobal (l : Loc) : Bool := l.sp == 0 || l.sp == 1 || l.sp == 5

/-- A write of die `d` to a location crosses to a home slice on another die (R344). -/
def crosses (d : Nat) (l : Loc) (va : W64) : Bool := l.isGlobal && vaultDie (homeVault l va) != d

/-- A line may leave its home slice for want of room: not one whose modified bytes only `CCTL` writes out (R204). -/
def State.mayEvict (s : State) (e : HomeLine) : Bool :=
  !(e.ext && s.held.any fun h => h.2.2 && h.1 / 128 == e.line)

/-- A home slice counts an access to a 64 KiB page of device memory (R370). -/
def Vault.count (v : Vault) (l : Loc) : Vault :=
  let p := l.a / 65536
  if l.sp = 0 then { v with counts := Tab.set v.counts p (((Tab.get? v.counts p).getD 0) + 1) } else v

/-- An access of agent `a` of context `x` that reaches a home slice: it is counted (log 86), and a line that is not there is
brought in and charged, at the cost of the oldest (R375, log 6). -/
def homeTouch (x a : Nat) (va : W64) (l : Loc) (write : Bool) : Prog :=
  Prog.when l.isGlobal <|
    let v := homeVault l va
    (Prog.one (.sys fun y => { y with vaults := y.vaults.set v (((y.vaults.get? v).getD {}).count l) })).andThen <| .read fun s =>
      let ext := l.sp != 0
      let ls := ((s.sys.vaults.get? v).getD {}).lines
      let put := fun (ls : List HomeLine) => Prog.one (.sys fun y =>
        { y with vaults := y.vaults.set v { (y.vaults.get? v).getD {} with lines := ls } })
      match ls.find? fun e => e.ext == ext && e.line == l.a / 128 with
      | some e =>
        (Prog.when (e.ctx != x || e.agent != a) (onAgent x a fun r => { r with shared := r.shared + 1 })).andThen
          (Prog.when (write && !e.dirty) (put (ls.map fun f => if f = e then { f with dirty := true } else f)))
      | none =>
        let fill := fun (ls : List HomeLine) =>
          (onAgent x a fun r => { r with fills := r.fills + 1 }).andThen
            (put ({ ext, line := l.a / 128, ctx := x, agent := a, dirty := write } :: ls))
        if ls.length < homeMax then fill ls
        else
          match ls.reverse.find? s.mayEvict with
          | none => .done
          | some o =>
            (Prog.when o.dirty (onAgent x a fun r => { r with wbacks := r.wbacks + 1 })).andThen
              (fill (ls.filter fun f => f != o))

/-! ## Vector clocks and stamped writes (R344, log 9) -/

def vcAt (y : Sys) (d e : Nat) : W64 := cellGet y.vc (16 * d + e)

def vcSet (y : Sys) (d e : Nat) (v : W64) : Sys := { y with vc := cellSet y.vc (16 * d + e) v }

/-- A die's clock takes an entry that is larger than its own. -/
def vcRaise (y : Sys) (d e : Nat) (v : W64) : Sys := if (vcAt y d e).toNat < v.toNat then vcSet y d e v else y

/-- A die's clock takes every larger entry of another clock. -/
def vcMerge (y : Sys) (d : Nat) (v : List W64) : Sys := (List.range 16).foldl (fun y e => vcRaise y d e (v.getD e 0)) y

/-- A die's clock covers a write: the die has applied it. -/
def Stamped.seenBy (w : Stamped) (y : Sys) (d : Nat) : Bool := decide ((w.stamp.getD w.src 0).toNat ≤ (vcAt y d w.src).toNat)

/-- Writes that stand in memory and that every die has applied are kept no longer. -/
def Sys.prune (y : Sys) : Sys :=
  { y with stamped := y.stamped.filter fun w => w.old.isNone || (List.range 16).any fun d => !w.seenBy y d }

/-- The die of the home slice that a stamped write goes to. -/
def Stamped.home (w : Stamped) : Nat := vaultDie (homeVault w.loc w.va)

/-- A write's bytes and `n` bytes at a location have one in common. -/
def Stamped.meets (w : Stamped) (l : Loc) (n : Nat) : Bool :=
  w.loc.sp == l.sp && w.loc.i == l.i && decide (w.loc.a < l.a + n) && decide (l.a < w.loc.a + w.bytes.length)

/-- `w` follows `v`: its stamp covers it. -/
def Stamped.follows (w v : Stamped) : Bool := decide ((v.stamp.getD v.src 0).toNat ≤ (w.stamp.getD v.src 0).toNat)

/-- A die applies a received stamped write only when it is the next of its source, and its clock covers the rest of the
stamp. A clock that has taken later stamps from a read covers the entry too; then the home slice performs the write behind
those of the same bytes that it follows (log 9). -/
def stampReady (y : Sys) (w : Stamped) (d : Nat) : Bool :=
  let rest := (List.range 16).all fun e => e == w.src || decide ((w.stamp.getD e 0).toNat ≤ (vcAt y d e).toNat)
  if d = w.home then
    w.old.isNone && rest && decide ((w.stamp.getD w.src 0).toNat ≤ (vcAt y d w.src).toNat + 1)
      && y.stamped.all fun v => v.id == w.id || v.old.isSome || !w.follows v || !v.meets w.loc w.bytes.length
  else d != w.src && rest && vcAt y d w.src == w.stamp.getD w.src 0 - 1

/-- A write is performed at its home slice; it stands behind those performed before it. -/
def landStamped (w : Stamped) : Prog :=
  .read fun s => (Prog.one (.write w.loc w.bytes)).andThen (.one (.sys fun y =>
    let y := vcRaise y w.home w.src (w.stamp.getD w.src 0)
    let rest := y.stamped.filter fun v => v.id != w.id
    Sys.prune { y with stamped := rest ++ [{ w with old := some (s.readBytes w.loc w.bytes.length) }] }))

/-- A die applies a stamped write: at its home the bytes are written, elsewhere the die's lines give up the old ones. -/
def applyStamped (w : Stamped) (d : Nat) : Prog :=
  if d = w.home then landStamped w
  else .one (.sys fun y => Sys.prune (vcRaise y d w.src (w.stamp.getD w.src 0)))

/-- The writes that a die's clock covers and that satisfy `f` are performed at their homes, in the order in which they left. -/
def landSome (d : Nat) (f : Stamped → Bool) : Prog :=
  .read fun s => Prog.each (s.sys.stamped.filter fun w => w.old.isNone && w.seenBy s.sys d && f w) landStamped

/-- Every write that a die's clock covers is performed at its home. -/
def landCovered (d : Nat) : Prog := landSome d fun _ => true

/-- All that a die has written or applied is performed at its home slice and applied on every die: what its release,
acquire and `.sc` operations wait for. -/
def settleDie (d : Nat) : Prog :=
  (landCovered d).andThen (.one (.sys fun y =>
    Sys.prune ((List.range 16).foldl (fun z e => vcMerge z e ((List.range 16).map (vcAt y d))) y)))

/-- Bytes at `l` are to be read or overwritten for die `d`: the writes to them that its clock covers are performed first. -/
def landMet (d : Nat) (l : Loc) (n : Nat) : Prog :=
  .read fun s => Prog.when (!s.sys.stamped.isEmpty) (landSome d fun w => w.meets l n)

/-- A read on die `d` returns bytes at `l` from their home slice: the writes to them that its clock covers have been performed,
and the stamps of those that it reads merge into the clock, which then covers what those writes follow. -/
def mergeRead (d : Nat) (l : Loc) (n : Nat) : Prog :=
  (landMet d l n).andThen <| .read fun s =>
    let ws := s.sys.stamped.filter fun w => w.old.isSome && !w.seenBy s.sys d && w.meets l n
    Prog.when (!ws.isEmpty) (.one (.sys fun y => Sys.prune (ws.foldl (fun y w => vcMerge y d w.stamp) y)))

/-- A die's clock covers every write that stands in memory, and what those follow stands there too. -/
def catchUp (d : Nat) : Prog :=
  .read fun s =>
    let ws := s.sys.stamped.filter fun w => w.old.isSome && !w.seenBy s.sys d
    Prog.when (!ws.isEmpty) <|
      (Prog.one (.sys fun y => ws.foldl (fun y w => vcMerge y d w.stamp) y)).andThen <|
        (landCovered d).andThen (.one (.sys Sys.prune))

/-- A write of die `d` that is performed at once toward a home slice on another die takes the die's next stamp, which every
clock covers; traffic within the die carries none. -/
def tickClock (d : Nat) (l : Loc) (va : W64) : Prog :=
  Prog.when (crosses d l va) <| .one (.sys fun y =>
    let v := vcAt y d d + 1
    (List.range 16).foldl (fun y e => vcSet y e d v) y)

/-- The same behind all that the die has written or applied. -/
def bumpClock (d : Nat) (l : Loc) (va : W64) : Prog :=
  Prog.when (crosses d l va) ((settleDie d).andThen (tickClock d l va))

/-- Die `d` writes bytes at once at their point of coherence, behind the writes to them that it has applied. -/
def writeNow (d : Nat) (l : Loc) (va : W64) (bs : List Byte) : Prog :=
  Prog.all [mergeRead d l bs.length, bumpClock d l va, .one (.write l bs)]

/-- Sends a stamped write toward another die. -/
def sendStamped (c : Nat) (e : BufStore) (r : Loc × List Byte) : Prog :=
  .one (.sys fun y =>
    let d := dieOf c
    let y := vcSet y d d (vcAt y d d + 1)
    { y with stamped := y.stamped ++ [{ id := y.nextId, src := d, thr := (c, e.blk, e.thr),
                                        stamp := (List.range 16).map (vcAt y d), loc := r.1, bytes := r.2, va := e.va }],
             nextId := y.nextId + 1 })

/-! ## Store buffers (R183) -/

/-- Two runs of bytes overlap. -/
def overlap (l1 : Loc) (n1 : Nat) (l2 : Loc) (n2 : Nat) : Bool :=
  l1.sp == l2.sp && l1.i == l2.i && decide (l1.a < l2.a + n2) && decide (l2.a < l1.a + n1)

/-- Two stores have a byte in common. -/
def BufStore.meets (e f : BufStore) : Bool :=
  e.runs.any fun r => f.runs.any fun q => overlap r.1 r.2.length q.1 q.2.length

/-- A store's line fills at its home slices are charged to the agent that its block held at issue (R34, R375). -/
def chargeStore (c : Nat) (e : BufStore) : Prog :=
  .read fun s =>
    match s.block? c e.blk with
    | some b => Prog.each e.runs fun r => homeTouch b.ctx e.agent e.va r.1 true
    | none => .done

/-- A weak store follows the stamped writes to its bytes that its die has sent or applied (R335); nor may the die go on reading
what such a write replaced. -/
def afterStamped (d : Nat) (e : BufStore) : Prog := Prog.each e.runs fun r => mergeRead d r.1 r.2.length

/-- A store goes to another die's home slice. -/
def BufStore.leaves (c : Nat) (e : BufStore) : Bool :=
  !e.weak && !e.fence && !e.runs.isEmpty && e.runs.all fun r => crosses (dieOf c) r.1 e.va

/-- A buffered store is performed at its point of coherence, or leaves for another die under a stamp; a release of device or
system scope leaves behind all that its die has sent (R344). One that is not weak and stays is performed behind all that its
die has sent (R337); a fence has its place there and writes nothing. -/
def performStore (c : Nat) (e : BufStore) : Prog :=
  if e.leaves c then Prog.all [Prog.when e.wide (settleDie (dieOf c)), chargeStore c e, Prog.each e.runs (sendStamped c e)]
  else Prog.all [if e.weak then afterStamped (dieOf c) e else settleDie (dieOf c), chargeStore c e,
    Prog.each e.runs fun r => .one (.write r.1 r.2)]

/-- Entries of a core's buffer up to the last that satisfies `f`. -/
def upToLast (f : BufStore → Bool) (l : List BufStore) : List BufStore := (l.reverse.dropWhile fun e => !f e).reverse

/-- Performs a core's buffered stores in order up to the last that satisfies `f`; the others keep their places. -/
def drainTo (c : Nat) (f : BufStore → Bool) : Prog :=
  .read fun s =>
    let l := upToLast f (s.core c).sbuf
    (Prog.each l (performStore c)).andThen (.one (.core c fun k => { k with sbuf := k.sbuf.drop l.length }))

/-- Performs every buffered store of a thread, and those that stand before them. -/
def drainThread (c b thr : Nat) : Prog := drainTo c fun e => e.blk == b && e.thr == thr

/-- Performs every buffered store of a block. -/
def drainBlock (c b : Nat) : Prog := drainTo c fun e => e.blk == b

/-! ## Bytes as a thread sees them -/

/-- The byte that its own stamped writes of a location still in flight give a thread, or the location's. -/
def seeSent (s : State) (c b thr : Nat) (l : Loc) (k : Byte) : Byte :=
  (s.sys.stamped.reverse.findSome? fun e =>
    if e.old.isNone && e.thr == (c, b, thr) && e.loc.sp == l.sp && decide (e.loc.a ≤ l.a) then e.bytes[l.a - e.loc.a]?
    else none).getD k

/-- The byte that a line in an L1 still shows on a die: of the writes performed after the last that the die has applied, the one
that the first of them replaced. -/
def staleByte (y : Sys) (d : Nat) (l : Loc) : Option Byte :=
  let ws := y.stamped.filter fun w => w.old.isSome && w.meets l 1
  match (ws.reverse.takeWhile fun w => !w.seenBy y d).getLast? with
  | some w => w.old.bind fun o => o[l.a - w.loc.a]?
  | none => none

/-- The byte at a location as one thread sees it: its own latest buffered or stamped store, else what the line shows when
the cluster's L1 holds it (`held`), else the location. -/
def seeByte (s : State) (c b thr : Nat) (held : Bool) (l : Loc) : Byte :=
  let own := (s.core c).sbuf.reverse.findSome? fun e =>
    if e.blk == b && e.thr == thr then
      e.runs.findSome? fun r =>
        if r.1.sp == l.sp && r.1.i == l.i && decide (r.1.a ≤ l.a) then r.2[l.a - r.1.a]? else none
    else none
  match own with
  | some x => x
  | none => seeSent s c b thr l ((if held then staleByte s.sys (dieOf c) l else none).getD (s.readLoc l))

def seeBytes (s : State) (c b thr : Nat) (held : Bool) (l : Loc) : (n : Nat) → List Byte
  | 0 => []
  | n + 1 => seeByte s c b thr held l :: seeBytes s c b thr held { l with a := l.a + 1 } n

/-! ## Weak loads bound late (R337) -/

/-- A late load with the value that its bytes hold now. -/
def PendLoad.bound (p : PendLoad) (s : State) (c : Nat) : PendLoad :=
  { p with late := false
           val := BitVec.ofNat 128 (extendTo32 p.w (leNat (p.src.flatMap fun r => seeBytes s c p.blk p.by_ false r.1 r.2))) }

/-- Binds the late loads of core `c` that satisfy `f`. -/
def bindLate (c : Nat) (f : PendLoad → Bool) : Prog :=
  .read fun s =>
    let l := (s.core c).loads.filter fun p => p.late && f p
    Prog.when (!l.isEmpty) <|
      (Prog.each l fun p => Prog.each p.src fun r => mergeRead (dieOf c) r.1 r.2).andThen <| .read fun t =>
        .one (.core c fun k => { k with loads := k.loads.map fun p => if p.late && f p then p.bound t c else p })

/-- A thread's stores are all performed, where it parts into lanes or its lanes join in it (R334). -/
def joinThread (c b thr : Nat) : Prog := (drainThread c b thr).andThen (settleDie (dieOf c))

/-! ## Taking a trap (R387 to R391) -/

/-- Offset of a core's fault area in the save area (R392). -/
def faultArea (c : Nat) : Nat := 0x20000 + 0x4000 * c

/-- Offset of a record's entry (R391). -/
def recOff (c : Nat) (sup : Bool) (physLane : Nat) : Nat := faultArea c + (if sup then 0 else 0x1000) + 64 * physLane

/-- Offset of a frame (R391). -/
def frameOff (c : Nat) (sup : Bool) (physSlice : Nat) : Nat :=
  faultArea c + 0x2000 + 512 * physSlice + (if sup then 256 else 0)

/-- The 256 bytes of a frame that R391 lays out, with the outermost loop level first (log 69). -/
def frameBytes (f : Frame) : List Byte :=
  leBytes f.rpc.toNat 8 ++ leBytes f.active.toNat 8 ++ leBytes f.slices.toNat 2 ++ leBytes (if f.vliw then 1 else 0) 6
    ++ leBytes f.s61.toNat 8 ++ leBytes f.s62.toNat 8 ++ List.replicate 24 0
    ++ (f.loops.reverse.flatMap fun l => leBytes l.start.toNat 8 ++ leBytes l.stop.toNat 8 ++ leBytes l.count.toNat 8)
    ++ List.replicate (24 * (8 - f.loops.length)) 0

/-- Records in ascending order of their lowest lane (R389). -/
def sortRecs (l : List Rec) : List Rec :=
  l.foldl (fun acc r =>
    (acc.filter fun q => decide (q.lanes.headD 0 ≤ r.lanes.headD 0)) ++ [r]
      ++ (acc.filter fun q => decide (q.lanes.headD 0 > r.lanes.headD 0))) []

/-- A wait that a committed bundle has begun: the thread's PC stands behind it (R259). -/
def Wait.begun : Wait → Bool
  | .barHold _ false | .bar _ false | .barw _ false | .gsync _ false | .qpoint false | .sleep _ false => true
  | _ => false

/-- What vectoring does to the gang's block: the frame is captured, the handler's lanes become active, and a thread
runs its handler in SIMT (R388). -/
def Block.vector (b : Block) (g : Nat) (f : Frame) (lanes : List Nat) (entry rec1 frame : W64) : Block :=
  let ms := b.members g
  let b := b.modGang g fun x =>
    { x with frames := f :: x.frames, vliw := false, loops := [], wait := .ready, more := [], dues := [], granted := false }
  ms.foldl (fun b i => b.modSlice i fun x =>
    ({ x with pc := entry, active := maskOf 4 ((lanes.filter fun l => l / 4 == i).map (· % 4)),
              stack := if f.vliw then [] else x.stack }.setS 62 rec1).setS 61 frame) b

/-- The count of class-1 grants restarts whenever no class-0 request waits (R229). -/
def Cluster.countOnes (q : Cluster) : Cluster := { q with ones := if q.reqs.any fun r => r.cls == 0 then q.ones else 0 }

/-- A thread that vectors goes on as lanes, in one program order (R57): its stores are performed first. -/
def drainVliw (c b g : Nat) : Prog :=
  .read fun s =>
    match s.block? c b with
    | some blk =>
      match blk.gangs.get? g with
      | some x => Prog.when x.vliw (joinThread c b (64 + (blk.members g).headD 0 / 4))
      | none => .done
    | none => .done

/-- A cluster without the requests that a gang waits with: its instruction issues again later (R73). A lease kept for a command
of the gang is kept for it no longer (R230), and ends where a cracked operation took it for itself (`own`). -/
def Cluster.forgetGang (q : Cluster) (c b g : Nat) (own : Bool) : Cluster :=
  Cluster.countOnes
    { q with
      lease := q.lease.bind fun l =>
        if l.core == c && l.blk == b && l.fresh == some g then (if own then none else some { l with fresh := none }) else some l
      parts := q.parts.map fun p => { p with reqs := p.reqs.filter fun r => r.hart || r.core != c || r.key != b || r.gang != g }
      reqs := q.reqs.filter fun r => !(r.core == c && r.blk == b && r.gang == g)
      preqs := q.preqs.filter fun r => !(r.1 == c && r.2.1 == b && r.2.2.1 == g) }

/-- What precedes the entry of a handler: loads return, and a thread's stores are performed. -/
def beforeVector (c b g : Nat) : Prog :=
  Prog.all [bindLate c fun p => p.blk == b,
    .one (.core c fun k => retireLoads b (match k.blocks.get? b with | some x => x.members g | none => []) k),
    drainVliw c b g]

/-- A preloaded task is discarded (R373). -/
def dropPreload (c : Nat) : Prog := .one (.core c fun k => { k with preload := false })

/-- R388: the gang or thread `g` of block `b` on core `c` vectors, resuming at `resume`; `pc` goes into the records. A
cause that finds no handler goes to Rhavos, as does a fault area that cannot be written (R387, R449). -/
def takeTrap (c b g : Nat) (t : TrapReq) (pc resume : W64) : Prog :=
  t.pre.andThen <| (beforeVector c b g).andThen <| .read fun s =>
    match s.block? c b with
    | none => .done
    | some blk =>
      match blk.gangs.get? g, s.grid? blk.grid, s.ctx? blk.ctx with
      | some gang, some grid, some ctx =>
        let inSup := match gang.frames with | f :: _ => f.sup | [] => false
        let sup := supCause t.cause || grid.uh == 0 || !gang.frames.isEmpty
        let ms := blk.members g
        if ms.isEmpty then .done
        else if inSup || (sup && ctx.sup == 0) then (dropPreload c).andThen (endContextGrids blk.ctx t.cause)
        else if s.saveBroken ctx (faultArea c) 0x4000 then (dropPreload c).andThen (endContextGrids blk.ctx cEcc)
        else
          let act := blk.activeLanes ms
          let recs := sortRecs (t.recs.map fun r => if r.lanes.isEmpty then { r with lanes := act } else r)
          let phys := fun (r : Rec) => blk.physLane (r.lanes.headD 0)
          let n := recs.length
          let fslice := (ms.map fun i => blk.phys.getD i 0).foldl min 15
          let x := (ms.head?.bind blk.slice?).getD { gang := g, pc := 0, live := 0, active := 0 }
          let fr : Frame :=
            { sup, rpc := resume, active := maskOf 64 act, slices := maskOf 16 ms, vliw := gang.vliw,
              s61 := x.sreg 61, s62 := x.sreg 62, loops := gang.loops, cause := BitVec.ofNat 8 t.cause,
              resumable := !finalCause t.cause, dues := gang.dues, granted := gang.granted,
              waits := (gang.wait :: gang.more).filter Wait.begun,
              depths := ms.map fun i => (i, if gang.vliw then 0 else match blk.slice? i with | some y => y.stack.length | none => 0) }
          let vec := dedup ((recs.filter fun r => gang.vliw || r.cause == t.cause).flatMap (·.lanes))
          let va := fun (off : Nat) => ctx.saveVa + BitVec.ofNat 64 off
          let writes := (List.range n).map fun i =>
            match recs[i]? with
            | none => Prog.done
            | some r =>
              let last := i + 1 == n
              let flags := t.form.getD (flagBit gang.vliw 0 + flagBit (grid.exdin.isSome && gang.frames.isEmpty) 1)
                + flagBit (t.write || r.write) 2 + flagBit t.fetch 3 + flagBit t.imprecise 4 + flagBit (finalCause r.cause) 5
                + flagBit sup 6 + flagBit last 7
              let next := if last then 0xFF else match recs[i + 1]? with | some q => phys q | none => 0xFF
              saveBytes blk.ctx (recOff c sup (phys r))
                (recBytes pc r.addr (maskOf 64 r.lanes) blk.bx blk.byy blk.bz r.slots r.cause flags next blk.ctx
                  blk.agent.toNat r.frame (t.time.getD s.sys.time))
          let rec1 := va (recOff c sup (match recs with | r :: _ => phys r | [] => 0))
          let frv := va (frameOff c sup fslice)
          let entry := if sup then ctx.sup else grid.uh
          Prog.all [Prog.all writes, saveBytes blk.ctx (frameOff c sup fslice) (frameBytes fr),
            onBlock c b fun y => y.vector g fr vec entry rec1 frv,
            .one (.clus (clusterOf c) fun q => q.forgetGang c b g (grid.exdin.isSome && gang.frames.isEmpty)), Prog.when sup (dropPreload c),
            Prog.when gang.vliw (.one (.core c fun k =>
              { k with qmask := k.qmask &&& ~~~((1 : BitVec 4) <<< (fslice / 4)) }))]
      | _, _, _ => .done

/-! ## Issue in SIMT code -/

/-- The slices of a gang go on at an address. -/
def Block.setPc (b : Block) (ms : List Nat) (a : W64) : Block :=
  ms.foldl (fun b i => b.modSlice i fun x => { x with pc := a }) b

/-- The gang has issued: it no longer waits. -/
def Gang.issued (x : Gang) : Gang := { x with wait := .ready, more := [], dues := [], granted := false }

/-- Completion of an instruction whose unit goes on at `a`. -/
def U.advance (u : U) (a : W64) : Prog :=
  onBlock u.c u.b fun b => ({ b with issued := b.issued + 1 }.setPc u.members a).modGang u.g Gang.issued

/-- The outcome of an issue, carried out (R73, R388). -/
def U.carry (u : U) (i : Issue) : Prog :=
  match i with
  | .trap t => takeTrap u.c u.b u.g t u.pc u.pc
  | .wait w p => p.andThen (onGang u.c u.b u.g fun x => { x with wait := w })
  | .commit p => p.andThen (u.advance u.next)
  | .goto a p => p.andThen (u.advance a)
  | .own p => p.andThen (onBlock u.c u.b fun b => { b with issued := b.issued + 1 })
  | .stay w p => p.andThen (onGang u.c u.b u.g fun x => { x with wait := w })
  | .vector cause n =>
    (u.advance u.next).andThen
      (takeTrap u.c u.b u.g { cause, recs := [{ cause, addr := n, lanes := u.part }] } u.pc u.next)

/-- Runs a native instruction of `len` bytes as the gang that `cur` names issues it in SIMT code. A thread that meets
such a word where a bundle header stands traps ILLEGAL (R91). -/
def runSimt (len : Nat) (g : Guard) (sem : Sem) (s : State) : Host.Outcome State Fault Refusal :=
  match unitOf s len with
  | none => .fault .noIssuer
  | some u => .next (((u.guarded g).carry (if u.gang.vliw then u.illegal else sem (u.guarded g) s)).run s)

/-- Runs an event: it always leads to a next state, the same one when its condition does not hold (log 16). -/
def runEvent (p : State → Prog) (s : State) : Host.Outcome State Fault Refusal := .next ((p s).run s)

end Sys2Proof.Machine
end

