-- ==== Sys2Proof/Machine/Flags.lean ====
section
/-! DEFINITION. The sticky flags of `%fpflags` (R26), and the integer results whose carry and range an instruction
looks at (R137 to R140). -/

namespace Sys2Proof.Machine

/-! ## `%fpflags` -/

def fNV : BitVec 5 := 1
def fDZ : BitVec 5 := 2
def fOF : BitVec 5 := 4
def fUF : BitVec 5 := 8
def fNX : BitVec 5 := 16

/-- An instruction that raises flags ORs them into the lane's (R26). -/
def Lane.raise (l : Lane) (f : BitVec 5) : Lane := { l with fp := l.fp ||| f }

/-! ## Integers of a width -/

/-- A source read as a signed or unsigned integer of `w` bits (R137). -/
def intVal (signed : Bool) (w x : Nat) : Int :=
  if signed && decide (x % 2 ^ w ≥ 2 ^ (w - 1)) then (x % 2 ^ w : Int) - 2 ^ w else (x % 2 ^ w : Nat)

/-- The low `w` bits of an exact integer (R137). -/
def wrapTo (w : Nat) (x : Int) : Nat := (x % 2 ^ w).toNat

def typeMin (signed : Bool) (w : Nat) : Int := if signed then -2 ^ (w - 1) else 0
def typeMax (signed : Bool) (w : Nat) : Int := if signed then 2 ^ (w - 1) - 1 else 2 ^ w - 1

/-- Clamps an exact result to the type's range (R137). -/
def clampTo (signed : Bool) (w : Nat) (x : Int) : Int := max (typeMin signed w) (min (typeMax signed w) x)

/-- The result of an exact integer under SAT (R137). -/
def intResult (signed sat : Bool) (w : Nat) (x : Int) : Nat :=
  wrapTo w (if sat then clampTo signed w x else x)

/-- Carry out of an unsigned sum of `w` bits (R140). -/
def carryOut (w : Nat) (sum : Nat) : Bool := decide (sum ≥ 2 ^ w)

/-- The six comparisons, by code (R141). -/
def cmpInt (cc : Nat) (a b : Int) : Bool :=
  match cc with
  | 0 => decide (a = b) | 1 => decide (a ≠ b) | 2 => decide (a < b)
  | 3 => decide (a ≤ b) | 4 => decide (a > b) | _ => decide (a ≥ b)

end Sys2Proof.Machine
end

