-- ==== Sys2Proof/Machine/Operands.lean ====
section
/-! DEFINITION. The operand space: register fields in SIMT code and in a VLIW slot (R15, R16), their ranges (R8, R9),
reads and writes (R11, R13, R129, R130), operands not yet written (R183), and the Rill fields of R124 and R125. -/

namespace Sys2Proof.Machine

/-- Lane and register index that a field below 0xC0 names for lane `i` (R15, R16). -/
def U.place (u : U) (i : Nat) (f : BitVec 8) : Nat × Nat :=
  match u.slot with
  | none => (i, f.toNat)
  | some k =>
    let d := f.toNat / 64
    (i - k + (4 * (k / 4) + (k + d) % 4), f.toNat % 64)

/-- Whether a field names an s-register. -/
def isS (f : BitVec 8) : Bool := decide (f.toNat ≥ 0xC0)

/-- Registers of 32 bits in a value of `w` bits. -/
def regCount (w : Nat) : Nat := if w ≤ 32 then 1 else w / 32

/-- R8, R9: the field's registers lie below the lane's register count. -/
def U.regOk (u : U) (f : BitVec 8) (w : Nat) : Bool :=
  w == 0 || isS f || decide ((u.place 0 f).2 + regCount w ≤ u.blk.n)

/-- The value of `w` bits that a field names for lane `i` (R13, R129). -/
def U.rd (u : U) (i : Nat) (f : BitVec 8) (w : Nat) : Nat :=
  if w = 0 then 0
  else if isS f then (u.s (f.toNat - 0xC0)).toNat % 2 ^ w
  else
    let p := u.place i f
    (u.blk.lane p.1).regs p.2 (regCount w)

/-- The value an instruction that acts once for the gang reads: that of the lowest participating lane (log 22). -/
def U.rd1 (u : U) (f : BitVec 8) (w : Nat) : Nat := u.rd (u.part.headD 0) f w

/-- An s-register by its field. -/
def U.sf (u : U) (f : BitVec 8) : W64 := u.s (f.toNat - 0xC0)

/-- Writes an s-register in every slice of the gang (R11). -/
def Block.putS (b : Block) (ms : List Nat) (i : Nat) (v : W64) : Block :=
  ms.foldl (fun b j => b.modSlice j fun x => x.setS i v) b

/-- Writes results of `w` bits, given by lane in ascending order; an s-register takes the lowest lane's (R13). -/
def U.putBlock (u : U) (f : BitVec 8) (w : Nat) (vals : List (Nat × Nat)) (b : Block) : Block :=
  if w = 0 then b
  else if isS f then
    match vals with
    | [] => b
    | (_, v) :: _ => b.putS u.members (f.toNat - 0xC0) (BitVec.ofNat 64 v)
  else
    vals.foldl (fun b e => b.modLane (u.place e.1 f).1 fun l => l.setRegs (u.place e.1 f).2 e.2 (regCount w)) b

def U.put (u : U) (f : BitVec 8) (w : Nat) (vals : List (Nat × Nat)) : Prog :=
  onBlock u.c u.b (u.putBlock f w vals)

/-- Writes one value for the gang: in every participating lane, or in the s-register (R206). That each participating lane takes
it is the model's choice (log 22). -/
def U.putAll (u : U) (f : BitVec 8) (w v : Nat) : Prog := u.put f w (u.part.map fun i => (i, v))

/-- Writes a predicate in lanes. -/
def U.putPred (u : U) (p : Nat) (vals : List (Nat × Bool)) : Prog :=
  onBlock u.c u.b fun b => vals.foldl (fun b e => b.modLane e.1 fun l => l.setPred p e.2) b

/-- A register that a load of this unit has not written yet (R183). -/
def U.pending (u : U) (fs : List (BitVec 8 × Nat)) : Bool :=
  u.core.loads.any fun p =>
    p.blk == u.b && fs.any fun e =>
      e.2 != 0 &&
        if isS e.1 then p.sreg && p.reg == e.1.toNat - 0xC0 && u.members.any p.slices.getLsbD
        else !p.sreg && u.active.any fun i =>
          let q := u.place i e.1
          q.1 == p.lane && decide (q.2 < p.reg + regsOf p.w) && decide (p.reg < q.2 + regCount e.2)

/-- R8, R9, then R183: a field out of range traps ILLEGAL; an operand or destination not yet written waits. -/
def U.need (u : U) (fs : List (BitVec 8 × Nat)) (k : Issue) : Issue :=
  if !(fs.all fun e => u.regOk e.1 e.2) then u.illegal
  else if u.pending fs then .wait .operand .done
  else k

/-- An instruction that acts once for the gang has no effect when no active lane's guard passes (R206). -/
def U.once (u : U) (k : Issue) : Issue := if u.part.isEmpty then .commit .done else k

/-! ## The Rill queue (R123 to R126) -/

/-- The words of a SIMT instruction: those that its issue slot has popped, or the queue's (R124). -/
def U.simtRill (u : U) : List W64 := u.core.slot.rill.getD u.core.rill

/-- The 16-bit field of a lane: from its issue slot's 16 words by physical lane, or from the queue's first word by slot. -/
def U.rnd (u : U) (i : Nat) : Nat :=
  match u.slot with
  | none =>
    let l := u.blk.physLane i
    (bits 16 (u.simtRill.getD (l / 4) 0) (16 * (l % 4))).toNat
  | some k => (bits 16 (u.core.rill.headD 0) (16 * (k % 4))).toNat

/-- Words that the queue must hold for an instruction of this unit (R124, R125, R126). -/
def U.rillNeed (u : U) : Nat := if u.slot.isSome then 1 else if u.core.slot.rill.isSome then 0 else 16

/-- The core pops 16 words, once for the SIMT quarters of an issue slot (R124). -/
def Core.popSimt (k : Core) : Core :=
  match k.slot.rill with
  | some _ => k
  | none => { k with rill := k.rill.drop 16, slot := { k.slot with rill := some (k.rill.take 16) } }

/-- A SIMT instruction takes its words; a bundle's one word is popped when the bundle commits (R124, R125). -/
def U.popRill (u : U) : Prog := if u.slot.isSome then .done else .one (.core u.c Core.popSimt)

/-- A gang on the physical slices `ps`, at grid and PC `at_`, or a thread with its bundle (`none`), issues in the slot behind the
core's: where a slice of its own has issued already, where a quarter of its own issues something else (R51), or where R125 puts
its pop before one already made. -/
def Core.newSlot (k : Core) (ps : List Nat) (at_ : Option (Nat × W64)) : Bool :=
  let qs := dedup (ps.map (· / 4))
  let late := match k.slot.bundle with | some b => at_.isSome || decide (qs.foldl min 3 < b) | none => false
  let other := qs.any fun q => match k.slot.quarters.get? q with | some e => e.isNone || e != at_ | none => false
  ps.any k.slot.slices.getLsbD || other || late

/-- It issues in the core's slot, or in the next. -/
def Core.openSlot (k : Core) (ps : List Nat) (at_ : Option (Nat × W64)) : Core :=
  let qs := dedup (ps.map (· / 4))
  let slot : IssueSlot := if k.newSlot ps at_ then {} else k.slot
  { k with slot := { slot with slices := slot.slices ||| maskOf 16 ps
                               quarters := qs.foldl (fun t q => t.set q at_) slot.quarters } }

/-- The physical slices of the unit, and where its quarters stand in an issue slot. -/
def U.physSlices (u : U) : List Nat := u.members.map fun i => u.blk.phys.getD i 0
def U.slotAt (u : U) : Option (Nat × W64) := if u.gang.vliw then none else some (u.blk.grid, u.pc)

/-- The unit issues in a slot of its core. -/
def U.openSlot (u : U) : Prog := .one (.core u.c fun k => k.openSlot u.physSlices u.slotAt)

/-! ## Lane arithmetic -/

/-- What one lane computes from: its sources, its old destination, its predicates and its Rill field. -/
structure In where
  a : Nat
  b : Nat
  c : Nat
  d : Nat
  p : Nat → Bool
  rnd : Nat

/-- What one lane computes: a result, predicates and flags. -/
structure Res where
  val : Nat := 0
  preds : List (Nat × Bool) := []
  flags : BitVec 5 := 0

/-- A lane operation: the widths of its register fields (0 for a field that names no register), whether it reads its
destination, whether it takes a Rill field, and its result. -/
structure AluOp where
  wd : Nat := 0
  wa : Nat := 0
  wb : Nat := 0
  wc : Nat := 0
  rdD : Bool := false
  rill : Bool := false
  fn : In → Res

/-- The results of a lane operation in the participating lanes; all lanes read before any writes (R130). -/
def U.results (u : U) (o : AluOp) (d a b c : BitVec 8) (imm : Option W64) : List (Nat × Res) :=
  u.part.map fun i =>
    (i, o.fn { a := u.rd i a o.wa, b := match imm with | some x => x.toNat | none => u.rd i b o.wb, c := u.rd i c o.wc,
               d := if o.rdD then u.rd i d o.wd else 0, p := (u.blk.lane i).pred, rnd := u.rnd i })

/-- Writes results, predicates and flags (R26, R130). -/
def U.commitRes (u : U) (wd : Nat) (d : BitVec 8) (rs : List (Nat × Res)) (b : Block) : Block :=
  let b := u.putBlock d wd (rs.map fun e => (e.1, e.2.val)) b
  rs.foldl (fun b e =>
    b.modLane e.1 fun l => (e.2.preds.foldl (fun l q => l.setPred q.1 q.2) l).raise e.2.flags) b

/-- The meaning of a lane operation in SIMT code or in a slot (R129 to R133). -/
def laneSem (o : AluOp) (d a b c : BitVec 8) (imm : Option W64) : Sem := fun u _ =>
  u.need [(d, o.wd), (a, o.wa), (b, if imm.isSome then 0 else o.wb), (c, o.wc)] <|
    if o.rill && !u.feat 0 featSrnd then u.illegal
    else if o.rill && !u.part.isEmpty && decide (u.core.rill.length < u.rillNeed) then .wait .rill .done
    else
      .commit ((onBlock u.c u.b (u.commitRes o.wd d (u.results o d a b c imm))).andThen
        (Prog.when (o.rill && !u.part.isEmpty) u.popRill))

/-- An R-format lane operation. -/
def semR (f : RForm) (o : AluOp) : Sem := laneSem o f.d f.a f.b f.c f.lx


def runR (f : RForm) (sem : Sem) (s : State) : Host.Outcome State Fault Refusal := runSimt (if f.lx.isSome then 16 else 8) f.g sem s
def runI (f : IForm) (sem : Sem) (s : State) : Host.Outcome State Fault Refusal := runSimt 8 f.g sem s
def runM (f : MForm) (sem : Sem) (s : State) : Host.Outcome State Fault Refusal := runSimt 8 f.g sem s
def runX (f : XForm) (sem : Sem) (s : State) : Host.Outcome State Fault Refusal := runSimt 8 f.g sem s
def runB (f : BForm) (sem : Sem) (s : State) : Host.Outcome State Fault Refusal := runSimt 8 f.g sem s

/-- Length in bytes of an instruction with a parameter block (R92). -/
def blkLen (blk : Option ParamBlock) : Nat := if blk.isSome then 40 else 8

end Sys2Proof.Machine
end

