-- ==== Sys2Proof/Machine/Alu.lean ====
section
/-! DEFINITION. Integer, logic, bit-field, move, select, predicate and address instructions (R136 to R150). Each has its
operation on one lane's values and its meaning over the lanes. -/

namespace Sys2Proof.Machine

/-! ## Operations on one lane's values -/

/-- An integer operation of R136 with an exact result (R137). -/
def opExact (t : Ty) (sat : Bool) (wc : Nat) (op : Int → Int → Int → Int) : AluOp :=
  let w := t.bits
  { wd := w, wa := w, wb := w, wc,
    fn := fun x =>
      let r := op (intVal t.signed w x.a) (intVal t.signed w x.b) (intVal t.signed w x.c)
      { val := intResult t.signed sat w r } }

/-- R138. -/
def opMulh (t : Ty) : AluOp :=
  let w := t.bits
  { wd := w, wa := w, wb := w,
    fn := fun x => { val := wrapTo w (Int.fdiv (intVal t.signed w x.a * intVal t.signed w x.b) (2 ^ w)) } }

/-- R139: quotient and remainder truncated toward zero; division by zero gives all ones, or the dividend. -/
def opDiv (t : Ty) (sat : Bool) : AluOp :=
  let w := t.bits
  { wd := w, wa := w, wb := w,
    fn := fun x =>
      let a := intVal t.signed w x.a
      let b := intVal t.signed w x.b
      { val := if b = 0 then 2 ^ w - 1 else intResult t.signed sat w (Int.tdiv a b) } }

/-- R139. -/
def opRem (t : Ty) : AluOp :=
  let w := t.bits
  { wd := w, wa := w, wb := w,
    fn := fun x =>
      let a := intVal t.signed w x.a
      let b := intVal t.signed w x.b
      { val := if b = 0 then x.a % 2 ^ w else wrapTo w (Int.tmod a b) } }

/-- R140: C names the carry-in and XM the carry-out. -/
def opAddc (w : Nat) (c : BitVec 8) (xm : BitVec 4) : AluOp :=
  { wd := w, wa := w, wb := w,
    fn := fun x =>
      let cin := if c.getLsbD 3 then 0 else if x.p (c.toNat % 8) then 1 else 0
      let sum := x.a % 2 ^ w + x.b % 2 ^ w + cin
      { val := sum % 2 ^ w, preds := [(xm.toNat % 8, carryOut w sum)] } }

/-- R141: the destination predicate and the comparison. -/
def opCmp (t : Ty) (cc p : Nat) : AluOp :=
  let w := t.bits
  { wa := w, wb := w,
    fn := fun x => { preds := [(p, cmpInt cc (intVal t.signed w x.a) (intVal t.signed w x.b))] } }

/-- A bitwise operation of R143. -/
def opBits (w : Nat) (op : Nat → Nat → Nat) : AluOp :=
  { wd := w, wa := w, wb := w, fn := fun x => { val := op (x.a % 2 ^ w) (x.b % 2 ^ w) % 2 ^ w } }

/-- AND NOT on `w` bits. -/
def andNot (w a b : Nat) : Nat := a &&& (b ^^^ (2 ^ w - 1))

/-- R144: the count is B[7:0]. -/
def shlN (w a c : Nat) : Nat := if c ≥ w then 0 else (a <<< c) % 2 ^ w
def shrN (w a c : Nat) : Nat := if c ≥ w then 0 else (a % 2 ^ w) >>> c
def sarN (w a c : Nat) : Nat := wrapTo w (Int.fdiv (intVal true w a) (2 ^ min c w))
def rotN (w a c : Nat) : Nat := ((a % 2 ^ w) <<< (c % w) ||| (a % 2 ^ w) >>> (w - c % w)) % 2 ^ w

/-- A shift of R144. -/
def opShift (w : Nat) (op : Nat → Nat → Nat → Nat) : AluOp :=
  { wd := w, wa := w, wb := 32, fn := fun x => { val := op w x.a (x.b % 256) } }

/-- R145: the clipped position and length of a control operand. -/
def fieldOf (w ctl : Nat) : Nat × Nat :=
  let pos := min (ctl % 256) w
  (pos, min (ctl / 256 % 256) (w - pos))

/-- R145. -/
def opBfx (t : Ty) : AluOp :=
  let w := t.bits
  { wd := w, wa := w, wb := 32,
    fn := fun x =>
      let pl := fieldOf w x.b
      let v := (x.a >>> pl.1) % 2 ^ pl.2
      { val := if pl.2 = 0 then 0 else if t.signed then wrapTo w (intVal true pl.2 v) else v } }

/-- R145: the field's bits of A are inserted into C. -/
def opBfi (w : Nat) : AluOp :=
  { wd := w, wa := w, wb := 32, wc := w,
    fn := fun x =>
      let pl := fieldOf w x.b
      let m := (2 ^ pl.2 - 1) <<< pl.1
      { val := (andNot w (x.c % 2 ^ w) m ||| ((x.a % 2 ^ pl.2) <<< pl.1)) % 2 ^ w } }

/-- Set bits of the low `w` bits. -/
def popN (w a : Nat) : Nat := popcount (BitVec.ofNat w a)
/-- Leading zeros; `w` for zero (R143). -/
def clzN (w a : Nat) : Nat := if a % 2 ^ w = 0 then w else w - 1 - Nat.log2 (a % 2 ^ w)
/-- Trailing zeros; `w` for zero (R143). -/
def ctzN (w a : Nat) : Nat := ((List.range w).find? fun i => a.testBit i).getD w
/-- Bit reversal (R143). -/
def revN (w a : Nat) : Nat := (List.range w).foldl (fun r i => 2 * r + (if a.testBit i then 1 else 0)) 0

/-- A bit count, written as 32 bits (R143). -/
def opCount (w : Nat) (op : Nat → Nat → Nat) : AluOp := { wd := 32, wa := w, fn := fun x => { val := op w x.a } }

def opRev (w : Nat) : AluOp := { wd := w, wa := w, fn := fun x => { val := revN w x.a } }

/-- A copy of `w` bits (R146). -/
def opMov (w : Nat) : AluOp := { wd := w, wa := w, fn := fun x => { val := x.a % 2 ^ w } }

/-- R147: the selecting predicate, negated by bit 3. -/
def opSel (w : Nat) (c : BitVec 8) : AluOp :=
  { wd := w, wa := w, wb := w,
    fn := fun x => { val := (if x.p (c.toNat % 8) != c.getLsbD 3 then x.a else x.b) % 2 ^ w } }

/-- R150. Under LX the immediate stands for the extended B. -/
def opLea (t : Ty) (sh : Nat) (lx : Bool) : AluOp :=
  { wd := 64, wa := 64, wb := 32,
    fn := fun x => { val := wrapTo 64 ((x.a : Int) + (if lx then (x.b : Int) else intVal t.signed 32 x.b) * 2 ^ sh) } }

/-- R148: the truth table XM[2 pa + pb]. -/
def opPset (f : RForm) : AluOp :=
  { fn := fun x =>
      let i := 2 * (if x.p f.a.toNat then 1 else 0) + (if x.p f.b.toNat then 1 else 0)
      { preds := [(f.d.toNat, f.xm.getLsbD i)] } }

/-- R149: bits 0 to 6 the predicates, bit 7 one. -/
def predByte (p : Nat → Bool) : Nat := (List.range 7).foldl (fun n i => n + if p i then 2 ^ i else 0) 128

def opPget : AluOp := { wd := 32, fn := fun x => { val := predByte x.p } }
def opPput : AluOp := { wa := 32, fn := fun x => { preds := (List.range 7).map fun i => (i, x.a.testBit i) } }

/-- The integer operations of R136 by their place in the table, shared with Exdin (R314). -/
def intAdd (t : Ty) (sat : Bool) : AluOp := opExact t sat 0 fun a b _ => a + b
def intSub (t : Ty) (sat : Bool) : AluOp := opExact t sat 0 fun a b _ => a - b
def intMul (t : Ty) (sat : Bool) : AluOp := opExact t sat 0 fun a b _ => a * b
def intMad (t : Ty) (sat : Bool) : AluOp := opExact t sat t.bits fun a b c => a * b + c
def intMin (t : Ty) : AluOp := opExact t false 0 fun a b _ => min a b
def intMax (t : Ty) : AluOp := opExact t false 0 fun a b _ => max a b
/-- One-source forms read no B. -/
def intNeg (t : Ty) (sat : Bool) : AluOp := { opExact t sat 0 fun a _ _ => -a with wb := 0 }
def intAbs (t : Ty) (sat : Bool) : AluOp := { opExact t sat 0 fun a _ _ => if a < 0 then -a else a with wb := 0 }

/-- An I-format operation: B is the immediate (R142). -/
def semI (f : IForm) (o : AluOp) : Sem := laneSem o f.d f.a 0 0 (some f.val)

/-- R142: `MOVI` writes the immediate. -/
def semMovi (f : IForm) (w : Nat) : Sem :=
  laneSem { wd := w, fn := fun x => { val := x.b % 2 ^ w } } f.d 0 0 0 (some f.val)

/-! ## Meanings -/

/-- R137. -/
def semIadd (f : RForm) : Sem := semR f (intAdd f.ty f.sat)
def execIadd (f : RForm) (s : State) : Host.Outcome State Fault Refusal := runR f (semIadd f) s

/-- R137. -/
def semIsub (f : RForm) : Sem := semR f (intSub f.ty f.sat)
def execIsub (f : RForm) (s : State) : Host.Outcome State Fault Refusal := runR f (semIsub f) s

/-- R140. -/
def semIaddc (f : RForm) : Sem := semR f { opAddc f.w f.c f.xm with wc := 0 }
def execIaddc (f : RForm) (s : State) : Host.Outcome State Fault Refusal := runR f (semIaddc f) s

/-- R137. -/
def semImul (f : RForm) : Sem := semR f (intMul f.ty f.sat)
def execImul (f : RForm) (s : State) : Host.Outcome State Fault Refusal := runR f (semImul f) s

/-- R138. -/
def semImulh (f : RForm) : Sem := semR f (opMulh f.ty)
def execImulh (f : RForm) (s : State) : Host.Outcome State Fault Refusal := runR f (semImulh f) s

/-- R137. -/
def semImad (f : RForm) : Sem := semR f (intMad f.ty f.sat)
def execImad (f : RForm) (s : State) : Host.Outcome State Fault Refusal := runR f (semImad f) s

/-- R139. -/
def semIdiv (f : RForm) : Sem := semR f (opDiv f.ty f.sat)
def execIdiv (f : RForm) (s : State) : Host.Outcome State Fault Refusal := runR f (semIdiv f) s

/-- R139. -/
def semIrem (f : RForm) : Sem := semR f (opRem f.ty)
def execIrem (f : RForm) (s : State) : Host.Outcome State Fault Refusal := runR f (semIrem f) s

/-- R137. -/
def semIneg (f : RForm) : Sem := semR f (intNeg f.ty f.sat)
def execIneg (f : RForm) (s : State) : Host.Outcome State Fault Refusal := runR f (semIneg f) s

/-- R137. -/
def semIabs (f : RForm) : Sem := semR f (intAbs f.ty f.sat)
def execIabs (f : RForm) (s : State) : Host.Outcome State Fault Refusal := runR f (semIabs f) s

/-- R137. -/
def semImin (f : RForm) : Sem := semR f (intMin f.ty)
def execImin (f : RForm) (s : State) : Host.Outcome State Fault Refusal := runR f (semImin f) s

/-- R137. -/
def semImax (f : RForm) : Sem := semR f (intMax f.ty)
def execImax (f : RForm) (s : State) : Host.Outcome State Fault Refusal := runR f (semImax f) s

/-- R141. -/
def semIcmp (f : RForm) : Sem := semR f (opCmp f.ty f.xm.toNat f.d.toNat)
def execIcmp (f : RForm) (s : State) : Host.Outcome State Fault Refusal := runR f (semIcmp f) s

/-- R142. -/
def semIaddImm32 (f : IForm) : Sem := semI f (intAdd .n32 false)
def execIaddImm32 (f : IForm) (s : State) : Host.Outcome State Fault Refusal := runI f (semIaddImm32 f) s

/-- R142. -/
def semImulImm32 (f : IForm) : Sem := semI f (intMul .n32 false)
def execImulImm32 (f : IForm) (s : State) : Host.Outcome State Fault Refusal := runI f (semImulImm32 f) s

/-- R142. -/
def semAndImm32 (f : IForm) : Sem := semI f (opBits 32 fun a b => a &&& b)
def execAndImm32 (f : IForm) (s : State) : Host.Outcome State Fault Refusal := runI f (semAndImm32 f) s

/-- R142. -/
def semOrImm32 (f : IForm) : Sem := semI f (opBits 32 fun a b => a ||| b)
def execOrImm32 (f : IForm) (s : State) : Host.Outcome State Fault Refusal := runI f (semOrImm32 f) s

/-- R142. -/
def semXorImm32 (f : IForm) : Sem := semI f (opBits 32 fun a b => a ^^^ b)
def execXorImm32 (f : IForm) (s : State) : Host.Outcome State Fault Refusal := runI f (semXorImm32 f) s

/-- R142. -/
def semShlImm32 (f : IForm) : Sem := semI f (opShift 32 shlN)
def execShlImm32 (f : IForm) (s : State) : Host.Outcome State Fault Refusal := runI f (semShlImm32 f) s

/-- R142. -/
def semShrImm32 (f : IForm) : Sem := semI f (opShift 32 shrN)
def execShrImm32 (f : IForm) (s : State) : Host.Outcome State Fault Refusal := runI f (semShrImm32 f) s

/-- R142. -/
def semSarImm32 (f : IForm) : Sem := semI f (opShift 32 sarN)
def execSarImm32 (f : IForm) (s : State) : Host.Outcome State Fault Refusal := runI f (semSarImm32 f) s

/-- R142. -/
def semRotImm32 (f : IForm) : Sem := semI f (opShift 32 rotN)
def execRotImm32 (f : IForm) (s : State) : Host.Outcome State Fault Refusal := runI f (semRotImm32 f) s

/-- R142. -/
def semMovi32 (f : IForm) : Sem := semMovi f 32
def execMovi32 (f : IForm) (s : State) : Host.Outcome State Fault Refusal := runI f (semMovi32 f) s

/-- R142. -/
def semIaddImm64 (f : IForm) : Sem := semI f (intAdd .n64 false)
def execIaddImm64 (f : IForm) (s : State) : Host.Outcome State Fault Refusal := runI f (semIaddImm64 f) s

/-- R142. -/
def semImulImm64 (f : IForm) : Sem := semI f (intMul .n64 false)
def execImulImm64 (f : IForm) (s : State) : Host.Outcome State Fault Refusal := runI f (semImulImm64 f) s

/-- R142. -/
def semAndImm64 (f : IForm) : Sem := semI f (opBits 64 fun a b => a &&& b)
def execAndImm64 (f : IForm) (s : State) : Host.Outcome State Fault Refusal := runI f (semAndImm64 f) s

/-- R142. -/
def semOrImm64 (f : IForm) : Sem := semI f (opBits 64 fun a b => a ||| b)
def execOrImm64 (f : IForm) (s : State) : Host.Outcome State Fault Refusal := runI f (semOrImm64 f) s

/-- R142. -/
def semXorImm64 (f : IForm) : Sem := semI f (opBits 64 fun a b => a ^^^ b)
def execXorImm64 (f : IForm) (s : State) : Host.Outcome State Fault Refusal := runI f (semXorImm64 f) s

/-- R142. -/
def semShlImm64 (f : IForm) : Sem := semI f (opShift 64 shlN)
def execShlImm64 (f : IForm) (s : State) : Host.Outcome State Fault Refusal := runI f (semShlImm64 f) s

/-- R142. -/
def semShrImm64 (f : IForm) : Sem := semI f (opShift 64 shrN)
def execShrImm64 (f : IForm) (s : State) : Host.Outcome State Fault Refusal := runI f (semShrImm64 f) s

/-- R142. -/
def semSarImm64 (f : IForm) : Sem := semI f (opShift 64 sarN)
def execSarImm64 (f : IForm) (s : State) : Host.Outcome State Fault Refusal := runI f (semSarImm64 f) s

/-- R142. -/
def semRotImm64 (f : IForm) : Sem := semI f (opShift 64 rotN)
def execRotImm64 (f : IForm) (s : State) : Host.Outcome State Fault Refusal := runI f (semRotImm64 f) s

/-- R142. -/
def semMovi64 (f : IForm) : Sem := semMovi f 64
def execMovi64 (f : IForm) (s : State) : Host.Outcome State Fault Refusal := runI f (semMovi64 f) s

/-- R143. -/
def semAndR (f : RForm) : Sem := semR f (opBits f.w fun a b => a &&& b)
def execAndR (f : RForm) (s : State) : Host.Outcome State Fault Refusal := runR f (semAndR f) s

/-- R143. -/
def semOrR (f : RForm) : Sem := semR f (opBits f.w fun a b => a ||| b)
def execOrR (f : RForm) (s : State) : Host.Outcome State Fault Refusal := runR f (semOrR f) s

/-- R143. -/
def semXorR (f : RForm) : Sem := semR f (opBits f.w fun a b => a ^^^ b)
def execXorR (f : RForm) (s : State) : Host.Outcome State Fault Refusal := runR f (semXorR f) s

/-- R143. -/
def semAndn (f : RForm) : Sem := semR f (opBits f.w fun a b => andNot f.w a b)
def execAndn (f : RForm) (s : State) : Host.Outcome State Fault Refusal := runR f (semAndn f) s

/-- R143. -/
def semNotR (f : RForm) : Sem := semR f { opBits f.w (fun a _ => a ^^^ (2 ^ f.w - 1)) with wb := 0 }
def execNotR (f : RForm) (s : State) : Host.Outcome State Fault Refusal := runR f (semNotR f) s

/-- R144. -/
def semShl (f : RForm) : Sem := semR f (opShift f.w shlN)
def execShl (f : RForm) (s : State) : Host.Outcome State Fault Refusal := runR f (semShl f) s

/-- R144. -/
def semShr (f : RForm) : Sem := semR f (opShift f.w shrN)
def execShr (f : RForm) (s : State) : Host.Outcome State Fault Refusal := runR f (semShr f) s

/-- R144. -/
def semSar (f : RForm) : Sem := semR f (opShift f.w sarN)
def execSar (f : RForm) (s : State) : Host.Outcome State Fault Refusal := runR f (semSar f) s

/-- R144. -/
def semRot (f : RForm) : Sem := semR f (opShift f.w rotN)
def execRot (f : RForm) (s : State) : Host.Outcome State Fault Refusal := runR f (semRot f) s

/-- R145. -/
def semBfx (f : RForm) : Sem := semR f (opBfx f.ty)
def execBfx (f : RForm) (s : State) : Host.Outcome State Fault Refusal := runR f (semBfx f) s

/-- R145. -/
def semBfi (f : RForm) : Sem := semR f (opBfi f.w)
def execBfi (f : RForm) (s : State) : Host.Outcome State Fault Refusal := runR f (semBfi f) s

/-- R143. -/
def semPopc (f : RForm) : Sem := semR f (opCount f.w popN)
def execPopc (f : RForm) (s : State) : Host.Outcome State Fault Refusal := runR f (semPopc f) s

/-- R143. -/
def semClz (f : RForm) : Sem := semR f (opCount f.w clzN)
def execClz (f : RForm) (s : State) : Host.Outcome State Fault Refusal := runR f (semClz f) s

/-- R143. -/
def semCtz (f : RForm) : Sem := semR f (opCount f.w ctzN)
def execCtz (f : RForm) (s : State) : Host.Outcome State Fault Refusal := runR f (semCtz f) s

/-- R143. -/
def semBrev (f : RForm) : Sem := semR f (opRev f.w)
def execBrev (f : RForm) (s : State) : Host.Outcome State Fault Refusal := runR f (semBrev f) s

/-- R146. -/
def semNop (f : RForm) : Sem := semR f { fn := fun _ => {} }
def execNop (f : RForm) (s : State) : Host.Outcome State Fault Refusal := runR f (semNop f) s

/-- R146. -/
def semMov (f : RForm) : Sem := semR f (opMov f.w)
def execMov (f : RForm) (s : State) : Host.Outcome State Fault Refusal := runR f (semMov f) s

/-- R146. -/
def semMovl (f : RForm) : Sem := semR f { wd := f.w, fn := fun x => { val := x.b % 2 ^ f.w } }
def execMovl (f : RForm) (s : State) : Host.Outcome State Fault Refusal := runR f (semMovl f) s

/-- R147. -/
def semSel (f : RForm) : Sem := semR f (opSel f.w f.c)
def execSel (f : RForm) (s : State) : Host.Outcome State Fault Refusal := runR f (semSel f) s

/-- R148. -/
def semPset (f : RForm) : Sem := semR f (opPset f)
def execPset (f : RForm) (s : State) : Host.Outcome State Fault Refusal := runR f (semPset f) s

/-- R149. -/
def semPmov (f : RForm) : Sem := semR f (if f.xm == 0 then opPget else opPput)
def execPmov (f : RForm) (s : State) : Host.Outcome State Fault Refusal := runR f (semPmov f) s

/-- R150. -/
def semLea (f : RForm) : Sem := semR f (opLea f.ty f.xm.toNat f.lx.isSome)
def execLea (f : RForm) (s : State) : Host.Outcome State Fault Refusal := runR f (semLea f) s

end Sys2Proof.Machine
end

