-- ==== Sys2Proof/Machine/Float.lean ====
section
/-! DEFINITION. Number formats and exact arithmetic (R106 to R122, R127): values as signed rationals, `RoundToFormat`, the
special cases of R119 and R152, conversions, the E8M1 scale, and the seven functions of R156 to sufficient precision
(log 10). -/

namespace Sys2Proof.Machine

/-! ## Values -/

/-- A floating-point value: a NaN, signalling or not; an infinity; or sign and magnitude `num / den`, `den` > 0, zeros
signed. -/
inductive FVal where
  | nan (sig : Bool)
  | inf (neg : Bool)
  | fin (neg : Bool) (num den : Nat)
  deriving DecidableEq, Repr

def FVal.zero (neg : Bool) : FVal := .fin neg 0 1

/-- A format of R107: exponent and mantissa bits, bias, least exponent, largest finite value, and whether it has
infinities and a NaN. -/
structure Fmt where
  ebits : Nat
  mbits : Nat
  bias : Nat
  emin : Int
  maxF : Nat
  hasInf : Bool
  nan : Option Nat
  deriving Repr

def fmtOf (t : Ty) : Fmt :=
  match t with
  | .f16 => ⟨5, 10, 15, -14, 65504, true, some 0x7E00⟩
  | .bf16 => ⟨8, 7, 127, -126, (2 ^ 8 - 1) * 2 ^ 120, true, some 0x7FC0⟩
  | .e4m3 => ⟨4, 3, 7, -6, 448, false, some 0x7F⟩
  | .e5m2 => ⟨5, 2, 15, -14, 57344, true, some 0x7E⟩
  | .e2m1 => ⟨2, 1, 1, 0, 6, false, none⟩
  | _ => ⟨8, 23, 127, -126, (2 ^ 24 - 1) * 2 ^ 104, true, some 0x7FC00000⟩

/-- `n * 2 ^ e` as a fraction. -/
def dyadic (neg : Bool) (n : Nat) (e : Int) : FVal :=
  if e ≥ 0 then .fin neg (n * 2 ^ e.toNat) 1 else .fin neg n (2 ^ (-e).toNat)

/-- The value of an encoding (R108 to R112). -/
def fdec (t : Ty) (x : Nat) : FVal :=
  let f := fmtOf t
  let m := x % 2 ^ f.mbits
  let e := x / 2 ^ f.mbits % 2 ^ f.ebits
  let neg := (x / 2 ^ (f.mbits + f.ebits)) % 2 == 1
  if f.hasInf && e == 2 ^ f.ebits - 1 then
    (if m = 0 then .inf neg else .nan (decide (m < 2 ^ (f.mbits - 1))))
  else if t == .e4m3 && e == 15 && m == 7 then .nan false
  else if e = 0 then (if m = 0 then .zero neg else dyadic neg m (f.emin - f.mbits))
  else dyadic neg (2 ^ f.mbits + m) (e - f.bias - f.mbits)

/-- R109, R110: the default NaN; E2M1 has none. -/
def defaultNaN (t : Ty) : Nat := (fmtOf t).nan.getD 0

/-- Sign bit of a format. -/
def signBit (t : Ty) (neg : Bool) : Nat :=
  if neg then 2 ^ ((fmtOf t).mbits + (fmtOf t).ebits) else 0

/-- Encoding of magnitude `q * 2 ^ k` with `q` below 2 ^ (mbits + 1), exact in the format. -/
def encMag (t : Ty) (neg : Bool) (q : Nat) (k : Int) : Nat :=
  let f := fmtOf t
  signBit t neg +
    (if q < 2 ^ f.mbits then q
     else (k + f.mbits + f.bias).toNat * 2 ^ f.mbits + (q - 2 ^ f.mbits))

/-- Largest finite value with a sign. -/
def encMax (t : Ty) (neg : Bool) : Nat :=
  let f := fmtOf t
  let l := Nat.log2 f.maxF
  encMag t neg (f.maxF / 2 ^ (l - f.mbits) * 2 ^ (f.mbits - l)) ((l : Int) - f.mbits)

/-- Infinity with a sign. -/
def encInf (t : Ty) (neg : Bool) : Nat := signBit t neg + (2 ^ (fmtOf t).ebits - 1) * 2 ^ (fmtOf t).mbits

/-- R117: what a magnitude above the largest finite value gives. -/
def overflowTo (t : Ty) (neg : Bool) (mode : Rnd) (sat : Bool) : Nat :=
  let toInf := match mode with | .ne | .sr => true | .tz => false | .pi => !neg | .mi => neg
  if toInf then
    if t == .e2m1 || sat then encMax t neg
    else match t with | .e4m3 => 0x7F | _ => encInf t neg
  else encMax t neg

/-- Floor of the binary logarithm of `n / d`. -/
def flog (n d : Nat) : Int :=
  let l : Int := (Nat.log2 n : Int) - Nat.log2 d
  if l ≥ 0 then (if n ≥ d * 2 ^ l.toNat then l else l - 1)
  else (if n * 2 ^ (-l).toNat ≥ d then l else l - 1)

/-- Whether a magnitude is rounded up (R116): quotient `q`, remainder `r` of the divisor `d`. -/
def roundsUp (mode : Rnd) (neg : Bool) (q r d rnd : Nat) : Bool :=
  match mode with
  | .ne => decide (2 * r > d) || (decide (2 * r = d) && q % 2 == 1)
  | .tz => false
  | .pi => decide (r > 0) && !neg
  | .mi => decide (r > 0) && neg
  | .sr => decide (r * 2 ^ 16 + rnd * d ≥ d * 2 ^ 16)

/-- R116: `RoundToFormat` with the flags it raises. -/
def roundTo (t : Ty) (mode : Rnd) (sat : Bool) (rnd : Nat) (x : FVal) : Nat × BitVec 5 :=
  let f := fmtOf t
  let sat := sat || t == .e2m1
  match x with
  | .nan _ => if t == .e2m1 then (0, fNV) else (defaultNaN t, 0)
  | .inf neg =>
    if sat then (encMax t neg, 0)
    else if f.hasInf then (encInf t neg, 0) else (defaultNaN t, fNV)
  | .fin neg num den =>
    if num = 0 then (signBit t neg, 0)
    else
      let e0 := flog num den
      let k := max e0 f.emin - f.mbits
      let n := if k ≥ 0 then num else num * 2 ^ (-k).toNat
      let d := if k ≥ 0 then den * 2 ^ k.toNat else den
      let q := n / d
      let r := n % d
      let q' := q + if roundsUp mode neg q r d rnd then 1 else 0
      let fl := if r = 0 then 0 else if e0 < f.emin then fNX ||| fUF else fNX
      let excess := if k ≥ 0 then decide (q' * 2 ^ k.toNat > f.maxF) else decide (q' > f.maxF * 2 ^ (-k).toNat)
      if excess then (overflowTo t neg mode sat, fl ||| fOF ||| fNX)
      else if q' = 2 ^ (f.mbits + 1) then (encMag t neg (2 ^ f.mbits) (k + 1), fl)
      else (encMag t neg q' k, fl)

/-! ## Arithmetic (R119, R152): an exact value and whether the operation is invalid or divides by zero -/

def FVal.isSig : FVal → Bool | .nan s => s | _ => false
def FVal.isNan : FVal → Bool | .nan _ => true | _ => false
def FVal.isZero : FVal → Bool | .fin _ n _ => n == 0 | _ => false
def FVal.neg : FVal → FVal
  | .nan s => .nan s | .inf n => .inf (!n) | .fin n a b => .fin (!n) a b
def FVal.abs : FVal → FVal
  | .nan s => .nan s | .inf _ => .inf false | .fin _ a b => .fin false a b

/-- NV when an operand is signalling (R109). -/
def sigFlag (l : List FVal) : BitVec 5 := if l.any FVal.isSig then fNV else 0

/-- Signed numerator over a common denominator. -/
def sInt (neg : Bool) (n : Nat) : Int := if neg then -(n : Int) else n

/-- The sum of two values; an exact zero sum of unlike zeros is +0, or -0 under `.mi` (R119). -/
def fAdd (mode : Rnd) (x y : FVal) : FVal × BitVec 5 :=
  match x, y with
  | .nan _, _ => (.nan false, sigFlag [x, y])
  | _, .nan _ => (.nan false, sigFlag [x, y])
  | .inf a, .inf b => if a = b then (.inf a, 0) else (.nan false, fNV)
  | .inf a, _ => (.inf a, 0)
  | _, .inf b => (.inf b, 0)
  | .fin s a b, .fin t c d =>
    let n := sInt s (a * d) + sInt t (c * b)
    if n = 0 then
      (if a = 0 ∧ c = 0 ∧ s = t then (.zero s, 0) else (.zero (mode == .mi), 0))
    else (.fin (decide (n < 0)) n.natAbs (b * d), 0)

/-- The product of two values. -/
def fMul (x y : FVal) : FVal × BitVec 5 :=
  match x, y with
  | .nan _, _ => (.nan false, sigFlag [x, y])
  | _, .nan _ => (.nan false, sigFlag [x, y])
  | .inf a, .inf b => (.inf (a != b), 0)
  | .inf a, .fin t c _ => if c = 0 then (.nan false, fNV) else (.inf (a != t), 0)
  | .fin s a _, .inf b => if a = 0 then (.nan false, fNV) else (.inf (s != b), 0)
  | .fin s a b, .fin t c d => (.fin (s != t) (a * c) (b * d), 0)

/-- The product-sum, rounded nowhere; 0 × ∞ is invalid whatever the third operand (R152). -/
def fFma (mode : Rnd) (x y z : FVal) : FVal × BitVec 5 :=
  if x.isNan || y.isNan then (.nan false, sigFlag [x, y, z])
  else
    let p := fMul x y
    if p.1.isNan then (.nan false, fNV)
    else fAdd mode p.1 z

/-- The quotient of two values (R152). -/
def fDiv (x y : FVal) : FVal × BitVec 5 :=
  match x, y with
  | .nan _, _ => (.nan false, sigFlag [x, y])
  | _, .nan _ => (.nan false, sigFlag [x, y])
  | .inf _, .inf _ => (.nan false, fNV)
  | .inf a, .fin t _ _ => (.inf (a != t), 0)
  | .fin s _ _, .inf b => (.zero (s != b), 0)
  | .fin s a b, .fin t c d =>
    if c = 0 then (if a = 0 then (.nan false, fNV) else (.inf (s != t), fDZ))
    else (.fin (s != t) (a * d) (b * c), 0)

/-! ## Roots and functions

A value that is not exact is given as a fraction between the two neighbours it lies between at a precision far beyond
the format's, so that it rounds as the exact value does (log 10). -/

/-- Integer square root by bits, from bit `n` - 1 down. -/
def isqrtFrom (x : Nat) : (n r : Nat) → Nat
  | 0, r => r
  | n + 1, r => isqrtFrom x n (if (r + 2 ^ n) * (r + 2 ^ n) ≤ x then r + 2 ^ n else r)

def isqrt (x : Nat) : Nat := isqrtFrom x (Nat.log2 x / 2 + 1) 0

/-- The positive square root of `num / den` (R152). -/
def sqrtFrac (num den : Nat) : FVal :=
  let p := 256
  let x := num * 2 ^ (2 * p) / den
  let r := isqrt x
  if r * r = x ∧ num * 2 ^ (2 * p) % den = 0 then .fin false r (2 ^ p)
  else .fin false (2 * r + 1) (2 ^ (p + 1))

/-- R152: `FSQRT`. -/
def fSqrt (x : FVal) : FVal × BitVec 5 :=
  match x with
  | .nan s => (.nan false, if s then fNV else 0)
  | .inf neg => if neg then (.nan false, fNV) else (.inf false, 0)
  | .fin neg n d => if n = 0 then (.zero neg, 0) else if neg then (.nan false, fNV) else (sqrtFrac n d, 0)

/-- Sum of p / (2k+1), p shrinking by `m2`, signs alternating when `alt`: inverse tangents of 1/m. -/
def invSeries (alt : Bool) (m2 : Nat) : (fuel k p : Nat) → Int
  | 0, _, _ => 0
  | n + 1, k, p =>
    let rest := invSeries alt m2 n (k + 1) (p / m2)
    (p / (2 * k + 1) : Nat) + (if alt then -rest else rest)

/-- π at scale 2 ^ p (Machin). -/
def piAt (p : Nat) : Nat :=
  (16 * invSeries true 25 (p / 4) 0 (2 ^ p / 5) - 4 * invSeries true 57121 (p / 15 + 2) 0 (2 ^ p / 239)).toNat

/-- The natural logarithm of 2 at scale 2 ^ p. -/
def ln2At (p : Nat) : Nat := (2 * invSeries false 9 (p / 3 + 2) 0 (2 ^ p / 3)).toNat

/-- Sum of z^(2k+1) / (2k+1) at scale 2 ^ p. -/
def atanhAt (p z2 : Nat) : (fuel k t : Nat) → Nat
  | 0, _, _ => 0
  | n + 1, k, t => t / (2 * k + 1) + atanhAt p z2 n (k + 1) (t * z2 / 2 ^ p)

/-- Sum of the exponential's terms at scale 2 ^ p from term `t` of index `k`. -/
def expAt (p y : Nat) : (fuel k t : Nat) → Nat
  | 0, _, _ => 0
  | n + 1, k, t => t + expAt p y n (k + 1) (t * y / 2 ^ p / (k + 1))

/-- Alternating terms of sine or cosine at scale 2 ^ p from term `t` of index `k`. -/
def trigAt (p y2 : Nat) : (fuel k t : Nat) → Int
  | 0, _, _ => 0
  | n + 1, k, t => (t : Int) - trigAt p y2 n (k + 2) (t * y2 / 2 ^ p / ((k + 1) * (k + 2)))

def fnPrec : Nat := 320

/-- A magnitude just below `v` at scale 2 ^ p: a value that is not exact. -/
def nearly (neg : Bool) (v p : Nat) : FVal := .fin neg (2 * v - 1) (2 ^ (p + 1))

/-- 2 to a rational (R156): exact at an integer. -/
def exp2Val (neg : Bool) (n d : Nat) : FVal :=
  let x := sInt neg n
  let i := Int.fdiv x d
  let fr := (Int.fmod x d).toNat
  if fr = 0 then dyadic false 1 i
  else
    let p := fnPrec
    let y := fr * ln2At p / d
    let v := expAt p y 80 0 (2 ^ p)
    if i ≥ 0 then nearly false (v * 2 ^ i.toNat) p else nearly false v (p + (-i).toNat)

/-- log2 of a positive rational (R156): exact at a power of two. -/
def log2Val (n d : Nat) : FVal :=
  let p := fnPrec
  let e := flog n d
  let a := if e ≥ 0 then n else n * 2 ^ (-e).toNat
  let b := if e ≥ 0 then d * 2 ^ e.toNat else d
  if a = b then (if e = 0 then .zero false else .fin (decide (e < 0)) e.natAbs 1)
  else
    let z := (a - b) * 2 ^ p / (a + b)
    let l := 2 * atanhAt p (z * z / 2 ^ p) 110 0 z
    let r : Int := e * 2 ^ p + (l * 2 ^ p / ln2At p : Nat)
    nearly (decide (r < 0)) r.natAbs p

/-- sin or cos of a nonzero rational with a power-of-two denominator, by exact reduction modulo π/2 (R156). -/
def trigVal (cos : Bool) (neg : Bool) (n d : Nat) : FVal :=
  let big := 720
  let p := fnPrec
  let half := piAt big / 2
  let x := n * 2 ^ big / d
  let k := x / half
  let y := (x % half) / 2 ^ (big - p)
  let y2 := y * y / 2 ^ p
  let s := trigAt p y2 60 1 y
  let c := trigAt p y2 60 0 (2 ^ p)
  let quad := (if cos then k + 1 else k) % 4
  let v := if quad % 2 = 0 then s else c
  nearly ((decide (quad ≥ 2)) != (neg && !cos)) v.toNat p

/-- tanh of a rational with 2^-12 < |x| < 9.5 (R156). -/
def tanhVal (neg : Bool) (n d : Nat) : FVal :=
  let p := fnPrec
  let e := expAt p (2 * n * 2 ^ p / d) 200 0 (2 ^ p)
  nearly neg ((e - 2 ^ p) * 2 ^ p / (e + 2 ^ p)) p

/-- R158: a function's result rounded once; NX comes only with OF, or with UF for a result that is tiny before rounding
(R119) and not exact (log 71). -/
def roundFn (x : FVal) : Nat × BitVec 5 :=
  let r := roundTo .f32 .ne false 0 x
  (r.1,
   if (r.2 &&& fOF) != 0 then fOF ||| fNX
   else if (r.2 &&& fUF) != 0 then fUF ||| fNX
   else 0)

/-- The special inputs of R157 and the values of R156, by FN of major 0x0A. -/
def fnOp (fn : Nat) (x : Nat) : Nat × BitVec 5 :=
  let v := fdec .f32 x
  let nan := fun (f : BitVec 5) => (defaultNaN .f32, f)
  let inf := fun (neg : Bool) (f : BitVec 5) => (encInf .f32 neg, f)
  match v with
  | .nan s => nan (if s then fNV else 0)
  | .inf neg =>
    match fn with
    | 0 => (signBit .f32 neg, 0)
    | 1 => if neg then nan fNV else (0, 0)
    | 2 => if neg then (0, 0) else inf false 0
    | 3 => if neg then nan fNV else inf false 0
    | 4 => nan fNV
    | 5 => nan fNV
    | _ => (signBit .f32 neg + 0x3F800000, 0)
  | .fin neg n d =>
    if n = 0 then
      match fn with
      | 0 => inf neg fDZ
      | 1 => inf neg fDZ
      | 2 => (0x3F800000, 0)
      | 3 => inf true fDZ
      | 4 => (signBit .f32 neg, 0)
      | 5 => (0x3F800000, 0)
      | _ => (signBit .f32 neg, 0)
    else
      match fn with
      | 0 => roundFn (.fin neg d n)
      | 1 => if neg then nan fNV else roundFn (sqrtFrac d n)
      | 2 =>
        if !neg && decide (n ≥ 128 * d) then inf false (fOF ||| fNX)
        else if neg && decide (n ≥ 150 * d) then (0, fUF ||| fNX)
        else roundFn (exp2Val neg n d)
      | 3 => if neg then nan fNV else roundFn (log2Val n d)
      | 4 => roundFn (trigVal false neg n d)
      | 5 => roundFn (trigVal true neg n d)
      | _ =>
        if n * 2 ^ 12 ≤ d then (x % 2 ^ 32, 0)
        else if decide (2 * n ≥ 19 * d) then (signBit .f32 neg + 0x3F800000, 0)
        else roundFn (tanhVal neg n d)

/-! ## Comparisons, minimum and maximum -/

/-- Order of two values that are not NaNs, zeros equal. -/
def fLt (x y : FVal) : Bool :=
  match x, y with
  | .inf a, .inf b => a && !b
  | .inf a, _ => a
  | _, .inf b => !b
  | .fin s a b, .fin t c d => decide (sInt s (a * d) < sInt t (c * b))
  | _, _ => false

def fEq (x y : FVal) : Bool := !x.isNan && !y.isNan && !fLt x y && !fLt y x

/-- R153: the eight codes of `FCMP`. -/
def fcmpCode (cc : Nat) (x y : FVal) : Bool :=
  let un := x.isNan || y.isNan
  match cc with
  | 0 => !un && fEq x y
  | 1 => un || !fEq x y
  | 2 => !un && fLt x y
  | 3 => !un && (fLt x y || fEq x y)
  | 4 => !un && fLt y x
  | 5 => !un && (fLt y x || fEq x y)
  | 6 => un
  | _ => !un

/-- R119: minimum (`mx` false) or maximum of two encodings, NaN as missing data, −0 below +0. -/
def fminmax (mx : Bool) (a b : Nat) : Nat × BitVec 5 :=
  let x := fdec .f32 a
  let y := fdec .f32 b
  let fl := sigFlag [x, y]
  if x.isNan then (if y.isNan then (defaultNaN .f32, fl) else (b % 2 ^ 32, fl))
  else if y.isNan then (a % 2 ^ 32, fl)
  else
    let lt := fLt x y || (fEq x y && decide (a % 2 ^ 32 > b % 2 ^ 32))
    (if lt != mx then a % 2 ^ 32 else b % 2 ^ 32, fl)

/-- R154: the bit of the class mask. -/
def fclassBit (t : Ty) (x : Nat) : Nat :=
  let f := fmtOf t
  match fdec t x with
  | .nan s => if s then 8 else 9
  | .inf neg => if neg then 0 else 7
  | .fin neg n d =>
    if n = 0 then (if neg then 3 else 4)
    else
      let sub := decide (flog n d < f.emin)
      if neg then (if sub then 2 else 1) else (if sub then 5 else 6)

/-! ## Conversions (R120 to R122, R162) -/

/-- A rational rounded to an integer in a mode. -/
def toInteger (mode : Rnd) (neg : Bool) (n d : Nat) : Nat × Bool :=
  let q := n / d
  let r := n % d
  (q + (if roundsUp mode neg q r d 0 then 1 else 0), r != 0)

/-- R121: conversion to an integer type, clamped. -/
def toIntType (t : Ty) (mode : Rnd) (x : FVal) : Int × BitVec 5 :=
  let lo := typeMin t.signed t.bits
  let hi := typeMax t.signed t.bits
  match x with
  | .nan _ => (0, fNV)
  | .inf neg => (if neg then lo else hi, fNV)
  | .fin neg n d =>
    let qi := toInteger mode neg n d
    let v := sInt neg qi.1
    if v < lo then (lo, fNV) else if v > hi then (hi, fNV) else (v, if qi.2 then fNX else 0)

/-- R162: `RND`. -/
def rndVal (t : Ty) (mode : Rnd) (x : Nat) : Nat × BitVec 5 :=
  match fdec t x with
  | .nan s => (defaultNaN t, if s then fNV else 0)
  | .inf neg => (encInf t neg, 0)
  | .fin neg n d => ((roundTo t .tz false 0 (.fin neg (toInteger mode neg n d).1 1)).1, 0)

/-- R120: conversion between formats. -/
def cvtVal (dst src : Ty) (mode : Rnd) (sat : Bool) (rnd x : Nat) : Nat × BitVec 5 :=
  let v := fdec src x
  let r := roundTo dst mode sat rnd v
  (r.1, r.2 ||| sigFlag [v])

/-- An integer as a value (R122). -/
def intF (i : Int) : FVal := .fin (decide (i < 0)) i.natAbs 1

/-! ## The E8M1 scale (R113) -/

/-- The value of a scale code below 0x1FF. -/
def scaleVal (c : Nat) : FVal := if c = 0x1FF then .nan false else dyadic false (2 + c % 2) ((c / 2 : Nat) - 128)

/-- R166: the code `BSCALE` computes. -/
def bscaleCode (t : Ty) (x : Nat) : Nat :=
  match (fdec .f32 x).abs with
  | .nan _ => 0x1FF
  | .inf _ => 0x1FF
  | .fin _ n d =>
    if n = 0 then 0
    else
      let v := FVal.fin false n (d * (fmtOf t).maxF)
      if !fLt (scaleVal 0) v then 0
      else if fLt (scaleVal 0x1FE) v then 0x1FE
      else ((List.range 0x1FF).find? fun c => !fLt (scaleVal c) v).getD 0x1FE

/-! ## Sums of products (R127, R160) -/

/-- The exact sum of products and an addend, with NV where R160 raises it. -/
def dotSum (mode : Rnd) (c : FVal) (ps : List (FVal × FVal)) : FVal × BitVec 5 :=
  let fl := sigFlag (c :: ps.flatMap fun p => [p.1, p.2])
  let prods := ps.map fun p => fMul p.1 p.2
  let bad := prods.any fun p => (p.2 &&& fNV) != 0
  let r := (prods.map (·.1)).foldl (fun acc x =>
      let y := fAdd mode acc.1 x
      (y.1, acc.2 ||| y.2)) (c, (0 : BitVec 5))
  let anyNan := c.isNan || ps.any fun p => p.1.isNan || p.2.isNan
  let infs := (c :: prods.map (·.1)).any (fun x => x == .inf true) && (c :: prods.map (·.1)).any (fun x => x == .inf false)
  if anyNan || bad || infs then (.nan false, fl ||| (if bad || infs then fNV else 0)) else (r.1, fl ||| r.2)

end Sys2Proof.Machine
end

