-- ==== Sys2Proof/Machine/Access.lean ====
section
/-! DEFINITION. How accesses reach storage (06 R173 to R186, 11 R330 to R347): address spaces and views, store buffers and
their drains, stamped writes, cached lines, and the shared load, store and atomic operations. -/

namespace Sys2Proof.Machine

/-! ## Places -/

/-- Address spaces of R173. -/
inductive Space where
  | global | scratch | clus
  deriving DecidableEq, Repr

/-- Granules of the core partition word (R27). -/
def spwRfg (w : W64) : Nat := (bits 7 w 57).toNat
def spwSpg (w : W64) : Nat := (bits 7 w 50).toNat
def spwAcg (w : W64) : Nat := (bits 7 w 43).toNat
def spwSpb (w : W64) : Nat := (bits 13 w 30).toNat
def spwZpb (w : W64) : Nat := (bits 5 w 25).toNat

/-- Fields of the cluster partition word (R31). -/
def cpwCsu (w : W64) : Nat := (bits 8 w 56).toNat
def cpwL1u (w : W64) : Nat := (bits 8 w 48).toNat
def cpwCiu (w : W64) : Nat := (bits 8 w 40).toNat
def cpwNp (w : W64) : Nat := (bits 4 w 36).toNat

/-- First byte of a block's scratchpad in the pool. -/
def scrOrigin (k : Core) (b : Block) : Nat := 16384 * spwRfg k.spw + b.scrBase

/-- First byte of a block's accumulator tile in the pool (R18). -/
def accOrigin (k : Core) (b : Block) (z : Nat) : Nat := 16384 * (spwRfg k.spw + spwSpg k.spw) + b.zBase + 32768 * z

/-- Pool byte of a scratchpad address through a view (R30). -/
def viewByte (view : Bool) (a : Nat) : Nat :=
  if view then a / 256 * 256 + ((a / 4 % 64) ^^^ (a / 256 % 64)) * 4 + a % 4 else a

/-- Runs of contiguous bytes of a scratchpad access: words under the swizzled view, else one run. -/
def scratchRuns (c : Nat) (k : Core) (b : Block) (view : Bool) (a n : Nat) : List (Loc × Nat) :=
  if view then
    (List.range ((n + 3) / 4)).map fun i =>
      (⟨2, c, scrOrigin k b + viewByte true (a + 4 * i)⟩, min 4 (n - 4 * i))
  else [(⟨2, c, scrOrigin k b + a⟩, n)]

/-- The memory-model thread of a lane: the lane, or the VLIW thread of its quarter (R333). -/
def U.thr (u : U) (i : Nat) : Nat := if u.gang.vliw then 64 + i / 16 else i

/-- The threads of the participating lanes. -/
def U.thrs (u : U) : List Nat := dedup (u.part.map u.thr)

/-- The late loads of some lanes are bound. -/
def U.bind (u : U) (ls : List Nat) : Prog := bindLate u.c fun p => p.blk == u.b && ls.contains p.lane

/-- All that the threads of some lanes, or a hart, have read and written so far is performed (R344); a hart's own writes are
performed as it issues them. -/
def U.settle (u : U) (ls : List Nat) : Prog :=
  Prog.all [
    Prog.when u.hart.isNone ((u.bind ls).andThen (Prog.each (dedup (ls.map u.thr)) (drainThread u.c u.b))),
    settleDie (dieOf u.c)]

/-- What the participating lanes have read and written so far is performed. -/
def U.drain (u : U) : Prog := u.settle u.part

/-- What the lanes of the gang's slices have read and written so far is performed, those that are not active among them: before
a fork, an arrival or a release of a resource (R188, R258, R260, R277, R345). -/
def U.release (u : U) : Prog := u.settle (u.members.flatMap fun i => (List.range 4).map (4 * i + ·))

/-- A fence of class `.sc` (R342): what precedes it is performed, and what stands in memory is applied everywhere. -/
def U.fullFence (u : U) : Prog := Prog.all [u.drain, catchUp (dieOf u.c), settleDie (dieOf u.c)]

def wideScope (x : Scope) : Bool := x == .dev || x == .sys

/-! ## Peer ports (R417) -/

/-- The peer port of a location, if it lies behind one. -/
def Loc.peer (l : Loc) : Option Nat :=
  if (l.sp = 1 ∨ l.sp = 5) ∧ l.a / 2 ^ 64 ≥ 2 then some (l.a / 2 ^ 64 - 2) else none

def Sys.port (y : Sys) (p : Nat) : Port := (y.ports.get? p).getD {}

/-- Credit of a channel of a port: 0 REQ, 1 RSP, 2 MAIL. -/
def Sys.credit (y : Sys) (p ch : Nat) : Nat := (y.port p).credits.getD ch 0

def Sys.setCredit (y : Sys) (p ch n : Nat) : Sys :=
  { y with ports := y.ports.set p { y.port p with credits := modAt (y.port p).credits ch fun _ => n } }

/-- The flits on REQ that accesses take, by peer port; each access has its place and its own flits (log 57). -/
def peerFlits (ls : List (Loc × Nat)) : List (Nat × Nat) :=
  (List.range 16).filterMap fun p =>
    let n := ((ls.filter fun l => l.1.peer == some p).map (·.2)).sum
    if n = 0 then none else some (p, min 256 n)

/-- Every port is up and has the credit on REQ. -/
def State.portsOpen (s : State) (ns : List (Nat × Nat)) : Bool :=
  ns.all fun e => (s.sys.port e.1).up && decide (e.2 ≤ s.sys.credit e.1 0)

/-- The flits leave. -/
def spendReq (ns : List (Nat × Nat)) : Prog :=
  Prog.each ns fun e => .one (.sys fun y => y.setCredit e.1 0 (y.credit e.1 0 - e.2))

/-! ## Checks of the two offset spaces (R174 to R176) -/

/-- An access of one lane at an exact address. -/
structure LAcc where
  lane : Nat
  ea : Int
  size : Nat

def LAcc.va (a : LAcc) : W64 := BitVec.ofInt 64 a.ea

/-- Lanes of one cause in one record. -/
def lrec (cause : Nat) (l : List LAcc) : List Rec :=
  [{ cause, addr := (l.head?.map LAcc.va).getD 0, lanes := l.map (·.lane) }]

/-- MISALIGNED, then SCRATCH-BOUNDS for an offset space of `lim` bytes. -/
def checkOffsets (lim : Nat) (write : Bool) (accs : List LAcc) : Option TrapReq :=
  let bad1 := accs.filter fun a => decide (a.ea % (a.size : Int) ≠ 0)
  let bad2 := accs.filter fun a => decide (a.ea < 0) || decide (a.ea + (a.size : Int) > (lim : Int))
  if bad1 ≠ [] then some { cause := cMisaligned, recs := lrec cMisaligned bad1, write }
  else if bad2 ≠ [] then some { cause := cScratchBounds, recs := lrec cScratchBounds bad2, write }
  else none

/-- Limit of an offset space for the unit's block. -/
def U.limit (u : U) (s : State) (sp : Space) : Nat :=
  match sp with
  | .scratch => u.blk.scrLen
  | .clus => 65536 * cpwCsu (s.cluster (clusterOf u.c)).cpw
  | .global => 0

/-- Runs of bytes of a checked access. -/
def U.runs (u : U) (s : State) (sp : Space) (view : Bool) (a : LAcc) : List (Loc × Nat) :=
  match sp with
  | .scratch => scratchRuns u.c u.core u.blk view a.ea.toNat a.size
  | .clus => [(⟨3, clusterOf u.c, a.ea.toNat⟩, a.size)]
  | .global =>
    match s.locate u.grid u.ctx a.va with
    | some (_, l) => [(l, a.size)]
    | none => []

/-- The addresses and places of global accesses. -/
def U.places (u : U) (s : State) (accs : List LAcc) : List (W64 × Loc) :=
  accs.filterMap fun a => (s.locate u.grid u.ctx a.va).map fun e => (a.va, e.2)

/-- The flits that global accesses of lanes send to peers, one a lane. -/
def U.flits (u : U) (s : State) (accs : List LAcc) : List (Nat × Nat) := peerFlits ((u.places s accs).map fun p => (p.2, 1))

/-- Global accesses go ahead: the translations that they use are kept, and requests leave for peers (R395, R417). -/
def U.sent (u : U) (s : State) (accs : List LAcc) : Prog :=
  (keepTrans u.blk.ctx u.grid (accs.map LAcc.va)).andThen (spendReq (u.flits s accs))

/-- All checks of an access of the participating lanes; `atom` gives R197 its segment condition. One that reaches a peer waits for
credit (R417). -/
def U.cleared (u : U) (s : State) (sp : Space) (use : Use3) (atom : Seg → Bool) (accs : List LAcc) (k : Issue) : Issue :=
  match sp with
  | .global =>
    match checkGlobal s u.blk.ctx u.grid u.ctx u.blk.agent.toNat (!u.user) use atom
        (accs.map fun a => { lane := a.lane, va := a.va, size := a.size }) with
    | .ok => if s.portsOpen (u.flits s accs) then k.after (u.sent s accs) else .wait .operand .done
    | .filling va => .wait (.filling va) .done
    | .trap t => .trap t
  | _ =>
    match checkOffsets (u.limit s sp) use.writes accs with
    | some t => .trap t
    | none => k

/-! ## Memory debug (R177, R185, R202) -/

/-- The context's memory-debug control (R426). -/
def Context.memDebug (x : Context) : Bool := x.dbg.getLsbD 0

/-- Single-copy atomic parts of an access, with their byte offsets: a `.b128` access is two 8-byte halves (R185). -/
def LAcc.parts (a : LAcc) : List (Nat × LAcc) :=
  if a.size ≤ 8 then [(0, a)] else [(0, { a with size := 8 }), (8, { a with ea := a.ea + 8, size := 8 })]

/-- Strong accesses that are outstanding at home slices: their threads, places and sizes. -/
def State.outstanding (s : State) : List ((Nat × Nat × Nat) × Loc × Nat) :=
  (s.cores.flatMap fun k =>
    (k.2.sbuf.filter fun e => !e.weak).flatMap (fun e => e.runs.map fun r => ((k.1, e.blk, e.thr), r.1, r.2.length)) ++
    (k.2.loads.filter (·.strong)).flatMap (fun p => p.src.map fun r => ((k.1, p.blk, p.by_), r.1, r.2)))
  ++ (s.sys.stamped.filter (·.old.isNone)).map (fun w => (w.thr, w.loc, w.bytes.length))

/-- While memory debug is set, a strong global access that overlaps an outstanding strong access of another thread with
another size is reported at the next boundary (R185; log 23). -/
def mixedSize (u : U) (s : State) (write : Bool) (accs : List LAcc) : Prog :=
  if u.ctx.memDebug then
    let bad := accs.filter fun a => a.parts.any fun p =>
      (u.runs s .global false p.2).any fun r => s.outstanding.any fun o =>
        o.1 != (u.c, u.b, u.thr a.lane) && o.2.2 != r.2 && overlap r.1 r.2 o.2.1 o.2.2
    match bad with
    | [] => .done
    | a :: _ => onGang u.c u.b u.g fun x =>
        { x with pend := x.pend ++ [{ cause := BitVec.ofNat 8 cMixedSize, pc := u.pc, addr := a.va, write, org := u.origin, time := s.sys.time,
                                      lanes := maskOf 64 (bad.map (·.lane)), slices := maskOf 16 u.members }] }
  else .done

/-- Marks scratchpad words written through a view (R202). -/
def markViews (u : U) (view : Bool) (accs : List LAcc) : Prog :=
  if u.ctx.memDebug then
    onBlock u.c u.b fun b =>
      accs.foldl (fun b a =>
        (List.range ((a.size + 3) / 4)).foldl (fun b i =>
          let w := viewByte view (a.ea.toNat + 4 * i) / 4
          { b with views := { addr := w, view, lane := a.lane, joined := 0 } :: b.views.filter fun m => m.addr != w }) b) b
  else .done

/-- A read through the other view of a word marked and not joined raises VIEW-HAZARD at the next boundary (R202). -/
def viewHazard (u : U) (view : Bool) (accs : List LAcc) : Prog :=
  if u.ctx.memDebug then
    let bad := accs.filter fun a =>
      (List.range ((a.size + 3) / 4)).any fun i =>
        let w := viewByte view (a.ea.toNat + 4 * i) / 4
        u.blk.views.any fun m => m.addr == w && m.view != view && !m.joined.getLsbD a.lane
    match bad with
    | [] => .done
    | a :: _ => onGang u.c u.b u.g fun x =>
        { x with pend := x.pend ++ [{ cause := BitVec.ofNat 8 cViewHazard, pc := u.pc, addr := a.va, org := u.origin, time := u.pre.sys.time,
                                      lanes := maskOf 64 (bad.map (·.lane)), slices := maskOf 16 u.members }] }
  else .done

/-- Words of the scratchpad that an engine operation writes through a view are marked, by no lane of the block; one that it reads
through the other view raises VIEW-HAZARD, unless a lane that issues the operation has joined (R202, R345). -/
def engineViews (u : U) (view write : Bool) (spans : List (Nat × Nat)) : Prog :=
  if u.ctx.memDebug then
    let words := dedup (spans.flatMap fun x => (List.range ((x.1 % 4 + x.2 + 3) / 4)).map fun i => viewByte view (x.1 / 4 * 4 + 4 * i) / 4)
    if write then
      onBlock u.c u.b fun b =>
        { b with views := words.map (fun w => { addr := w, view, lane := 64, joined := 0 }) ++ b.views.filter fun m => !words.contains m.addr }
    else
      let bad := u.blk.views.any fun m => words.contains m.addr && m.view != view && u.part.all fun i => !m.joined.getLsbD i
      Prog.when bad <| onGang u.c u.b u.g fun x =>
        { x with pend := x.pend ++ [{ cause := BitVec.ofNat 8 cViewHazard, pc := u.pc, addr := BitVec.ofNat 64 ((spans.head?.map (·.1)).getD 0),
                                      org := u.origin, lanes := maskOf 64 u.part, slices := maskOf 16 u.members, time := u.pre.sys.time }] }
  else .done

/-! ## Cached lines (R184, R200, R330): words and lines held since they were fetched -/

/-- Whether a segment lets a path cache (R393): bit 0 `.ls`, 1 `.kc`, 2 `.tl`, 3 `.if`. -/
def Seg.caches (g : Seg) (path : Nat) : Bool := g.attrBit (8 + path)

/-- 8-byte words of a 64 KiB constant cache, and of a 128 KiB instruction cache (R330). -/
def kcMax : Nat := 8192
def icMax : Nat := 16384

/-- Entries of a decoded-op cache (R320). -/
def dcMax : Nat := 4096

/-- A decoded-op cache without a context's instructions of a byte range. -/
def dropCracks (l : List CrackEntry) (ctx : Nat) (a n : Nat) : List CrackEntry :=
  l.filter fun e => !(e.ctx == ctx && decide (e.addr.toNat + e.data.length > a) && decide (e.addr.toNat < a + n))

/-- A decoded-op cache without a context's instructions. -/
def dropCracksOf (l : List CrackEntry) (ctx : Nat) : List CrackEntry := l.filter fun e => e.ctx != ctx

/-- A byte through a list of cached words of a generation (R320). -/
def cachedByte (l : List CacheWord) (ctx gen : Nat) (va : W64) : Option Byte :=
  (l.find? fun w => w.ctx == ctx && w.gen == gen && w.addr == va &&& ~~~(7 : W64)).map fun w => bits 8 w.data (8 * (va.toNat % 8))

/-- A list of at most `cap` cached words, newest first, with the word of an address fetched, if it is not there (log 6). -/
def fetchWord (cap : Nat) (l : List CacheWord) (ctx gen : Nat) (va data : W64) : List CacheWord :=
  if l.any fun w => w.ctx == ctx && w.gen == gen && w.addr == va &&& ~~~(7 : W64) then l
  else ({ ctx, addr := va &&& ~~~(7 : W64), gen, data } :: l).take cap

/-- A list without a context's words. -/
def dropCtx (l : List CacheWord) (ctx : Nat) : List CacheWord := l.filter fun w => w.ctx != ctx

/-- A list without a context's words of a byte range. -/
def dropRange (l : List CacheWord) (ctx : Nat) (a n : Nat) : List CacheWord :=
  l.filter fun w => !(w.ctx == ctx && decide (w.addr.toNat + 8 > a) && decide (w.addr.toNat < a + n))

/-- A core gives up what it has fetched of a context's byte range (R247, R320). -/
def dropCode (c ctx a n : Nat) : Prog :=
  .one (.core c fun k => { k with ic := dropRange k.ic ctx a n, dc := dropCracks k.dc ctx a n })

/-- The tile paths of all clusters give up words of a byte range, which the engine or the host has written (R340). -/
def dropTiles (ctx a n : Nat) : Prog :=
  .read fun s => Prog.each s.clusters fun e => Prog.when (!e.2.tl.isEmpty) (.one (.clus e.1 fun q => { q with tl := dropRange q.tl ctx a n }))

/-- All words held by the constant and tile paths of a context are given up (R339), or those of every context. -/
def dropPaths (ctx : Option Nat) (kc : Bool) : Prog :=
  let keep := fun (l : List CacheWord) => match ctx with | some x => dropCtx l x | none => []
  .read fun s =>
    (Prog.each s.clusters fun e => Prog.when (!e.2.tl.isEmpty) (.one (.clus e.1 fun q => { q with tl := keep q.tl }))).andThen
      (Prog.when kc (Prog.each s.cores fun e => Prog.when (!e.2.kc.isEmpty) (.one (.core e.1 fun k => { k with kc := keep k.kc }))))

/-- The 128-byte line of an address. -/
def lineOf (va : W64) : W64 := va &&& ~~~(127 : W64)

/-- Lines that a cluster's L1 has room for (R31, R330). -/
def Cluster.l1Max (q : Cluster) : Nat := 512 * cpwL1u q.cpw

/-- A line joins the L1 at the cost of the oldest; the tile path holds words of its own lines alone (R330, log 6). -/
def Cluster.addLine (q : Cluster) (e : L1Line) : Cluster :=
  let l := (e :: q.l1).take q.l1Max
  { q with l1 := l, tl := q.tl.filter fun w => l.any fun e => e.tile && e.ctx == w.ctx && e.addr == lineOf w.addr }

/-- The cluster's L1 holds an address's line under the tag of a path. -/
def Cluster.holds (q : Cluster) (tile : Bool) (x : Nat) (va : W64) : Bool :=
  q.l1.any fun e => e.tile == tile && e.ctx == x && e.addr == lineOf va

/-- Accesses of a path reach the lines of some addresses: a line that a segment lets the path cache comes into the
cluster's L1, and one that is not there comes from its home slice; fills and hits on other agents' lines are counted
(R375). -/
def U.touch (u : U) (tile : Bool) (ps : List (W64 × Loc)) : Prog :=
  let path := if tile then 2 else 0
  let lines := dedup (ps.map fun p => (lineOf p.1).toNat)
  Prog.each lines fun n => .read fun s =>
    let va := BitVec.ofNat 64 n
    let k := clusterOf u.c
    let a := u.blk.agent.toNat
    let l := ((ps.find? fun p => (lineOf p.1).toNat == n).map (·.2)).getD ⟨6, 0, 0⟩
    let cached := (match findSeg u.grid.segs va with | some g => g.caches path | none => false) && (s.cluster k).l1Max != 0
    match (if cached then (s.cluster k).l1.find? fun e => e.tile == tile && e.ctx == u.blk.ctx && e.addr == va else none) with
    | some e => Prog.when (e.agent != a) (onAgent u.blk.ctx a fun r => { r with shared := r.shared + 1 })
    | none =>
      (homeTouch u.blk.ctx a va l false).andThen <| Prog.when cached <|
        (onAgent u.blk.ctx a fun r => { r with fills := r.fills + 1 }).andThen
          (.one (.clus k fun q => q.addLine { tile, ctx := u.blk.ctx, agent := a, addr := va }))

/-! ## Loads and stores (R181 to R183) -/

/-- A global access finds its line in the cluster's L1. -/
def U.hits (u : U) (s : State) (sp : Space) (a : LAcc) : Bool :=
  sp == .global && (s.cluster (clusterOf u.c)).holds false u.blk.ctx a.va

/-- A load's values by lane, from the state `s`. -/
def U.loadVals (u : U) (s : State) (sp : Space) (view : Bool) (accs : List LAcc) : List (Nat × Nat) :=
  accs.map fun a =>
    (a.lane, leNat ((u.runs s sp view a).flatMap fun r => seeBytes s u.c u.b (u.thr a.lane) (u.hits s sp a) r.1 r.2))

/-- What loads returning from their home slices, and from the cluster's L1, have performed before them (R344). -/
def U.mergeLoads (u : U) (s : State) (sp : Space) (accs : List LAcc) : Prog :=
  Prog.when (sp == .global && !s.sys.stamped.isEmpty) <|
    Prog.each accs fun a => Prog.each (u.runs s sp false a) fun r =>
      if u.hits s sp a then landMet (dieOf u.c) r.1 r.2 else mergeRead (dieOf u.c) r.1 r.2

/-- A constant-path load's values, each byte from the core's constant cache where it is held (R184). -/
def U.constVals (u : U) (s : State) (accs : List LAcc) : List (Nat × Nat) :=
  accs.map fun a =>
    (a.lane, leNat ((List.range a.size).map fun i =>
      let va := a.va + BitVec.ofNat 64 i
      match cachedByte (s.core u.c).kc u.blk.ctx 0 va with
      | some x => x
      | none => match s.locate u.grid u.ctx va with | some (_, l) => s.readLoc l | none => 0))

/-- Words of some accesses that the core's constant cache does not hold, with their segments and places. -/
def U.constWords (u : U) (s : State) (accs : List LAcc) : List (W64 × Seg × Loc) :=
  accs.flatMap fun a =>
    (List.range ((a.size + 7) / 8)).filterMap fun i =>
      let va := (a.va + BitVec.ofNat 64 (8 * i)) &&& ~~~(7 : W64)
      if (cachedByte (s.core u.c).kc u.blk.ctx 0 va).isSome then none
      else (s.locate u.grid u.ctx va).map fun e => (va, e)

/-- What a constant-path load that misses has performed before it (R344). -/
def U.mergeConst (u : U) (s : State) (accs : List LAcc) : Prog :=
  Prog.when (!s.sys.stamped.isEmpty) (Prog.each (u.constWords s accs) fun w => mergeRead (dieOf u.c) w.2.2 8)

/-- Words a constant-path load brings into the constant cache, whose lines come from their home slices. -/
def U.constFill (u : U) (s : State) (accs : List LAcc) : Prog :=
  let words := u.constWords s accs
  Prog.all [
    Prog.each (dedup (words.map fun w => (lineOf w.1).toNat)) fun n =>
      match words.find? fun w => (lineOf w.1).toNat == n with
      | some w => homeTouch u.blk.ctx u.blk.agent.toNat w.1 w.2.2 false
      | none => .done,
    .one (.core u.c fun k => words.foldl (fun k w =>
      if w.2.1.caches 1 then
        { k with kc := fetchWord kcMax k.kc u.blk.ctx 0 w.1 (BitVec.ofNat 64 (leNat (s.readBytes w.2.2 8))) }
      else k) k)]

/-- What an outstanding load keeps of its access (R185, R337). -/
structure LoadSrc where
  runs : LAcc → List (Loc × Nat) := fun _ => []
  strong : Bool := false
  late : Bool := false

/-- A load's bound values become outstanding; each destination is written when its data returns (R183). -/
def U.bindLoads (u : U) (w : Width) (d : BitVec 8) (accs : List LAcc) (x : LoadSrc) (vals : List (Nat × Nat)) : Prog :=
  let vals := if isS d then vals.take 1 else vals
  .one (.core u.c fun k =>
    { k with
      loads := k.loads ++ (vals.zipIdx.map fun e =>
        let p := u.place e.1.1 d
        let a := accs.find? fun a => a.lane == e.1.1
        { id := k.nextId + e.2, blk := u.b, lane := if isS d then e.1.1 else p.1, sreg := isS d,
          reg := if isS d then d.toNat - 0xC0 else p.2, w, val := BitVec.ofNat 128 (extendTo32 w e.1.2), pc := u.pc,
          va := (a.map LAcc.va).getD 0, src := (a.map x.runs).getD [], by_ := u.thr e.1.1, strong := x.strong,
          late := x.late, slices := maskOf 16 u.members, org := u.origin })
      nextId := k.nextId + vals.length })

/-- Late loads of the same threads whose bytes an access meets are bound before it (R341). -/
def U.bindMet (u : U) (s : State) (sp : Space) (accs : List LAcc) : Prog :=
  Prog.when (sp == .global && (s.core u.c).loads.any (·.late)) <|
    bindLate u.c fun p => p.blk == u.b && accs.any fun a => u.thr a.lane == p.by_ &&
      (u.runs s sp false a).any fun r => p.src.any fun q => overlap r.1 r.2 q.1 q.2

/-- What an acquire or `.sc` read waits for (R342, R344). -/
def U.acquire (u : U) (ord : Ord) (scp : Scope) : Prog :=
  Prog.all [Prog.when (ord == .sc) u.fullFence, Prog.when (ord == .acq && wideScope scp) (settleDie (dieOf u.c))]

/-- What a load does once its checks have passed (R181, R182); `k` takes the values read. A weak load of a lane may bind its
value as late as its return (R337). The loads of a bundle read what stood before it, behind its acquire reads (R60). -/
def U.loadProg (u : U) (sp : Space) (ord : Ord) (scp : Scope) (view : Bool) (accs : List LAcc)
    (k : LoadSrc → List (Nat × Nat) → Prog) : Prog :=
  Prog.all [
    Prog.when u.slot.isNone (u.acquire ord scp),
    Prog.when (sp == .scratch) (viewHazard u view accs),
    .read fun t => u.bindMet t sp accs,
    .read fun t => Prog.when u.slot.isNone (u.mergeLoads t sp accs),
    .read fun t =>
      let from_ := if u.slot.isSome then u.pre else t
      Prog.all [
        Prog.when (ord != .weak && sp == .global) (mixedSize u t false accs),
        Prog.when (sp == .global) (u.touch false (u.places t accs)),
        k { runs := fun a => a.parts.flatMap fun p => u.runs t sp view p.2, strong := sp == .global && ord != .weak,
            late := sp == .global && ord == .weak && u.slot.isNone } (u.loadVals from_ sp view accs)]]

/-- The shared load: checks, then its effect (R176, R181). -/
def U.load (u : U) (s : State) (sp : Space) (ord : Ord) (scp : Scope) (view : Bool) (accs : List LAcc)
    (k : LoadSrc → List (Nat × Nat) → Prog) : Issue :=
  u.cleared s sp .rd (fun _ => true) accs (.commit (u.loadProg sp ord scp view accs k))

/-- Bytes laid over runs. -/
def layRuns : List (Loc × Nat) → List Byte → List (Loc × List Byte)
  | [], _ => []
  | r :: rs, bs => (r.1, bs.take r.2) :: layRuns rs (bs.drop r.2)

/-- One lane's store enters the core's store buffer, an entry for each part that is single-copy atomic (R185). -/
def U.bufferStore (u : U) (s : State) (sp : Space) (view weak rel wide : Bool) (a : LAcc) (val : Nat) : Prog :=
  .one (.core u.c fun k =>
    a.parts.foldl (fun k p =>
      { k with sbuf := k.sbuf ++ [{ id := k.nextId, blk := u.b, thr := u.thr a.lane,
                                    runs := layRuns (u.runs s sp view p.2) (leBytes (val / 2 ^ (8 * p.1)) p.2.size),
                                    weak, rel, va := p.2.va, agent := u.blk.agent.toNat, wide,
                                    grp := (u.pre.core u.c).nextId }],
               nextId := k.nextId + 1 }) k)

/-- What a store does once its checks have passed: its lanes' bytes enter the buffer in ascending lane order, behind what a
release follows (R181, R182). -/
def U.storeProg (u : U) (s : State) (sp : Space) (ord : Ord) (scp : Scope) (view : Bool) (accs : List LAcc) (vals : Nat → Nat) : Prog :=
  let rel := ord == .rel || ord == .sc
  Prog.all [
    Prog.when rel (u.bind u.part),
    .read fun t => u.bindMet t sp accs,
    Prog.when (sp == .scratch) (markViews u view accs),
    Prog.when (ord != .weak && sp == .global) (.read fun t => mixedSize u t true accs),
    Prog.each accs fun a => u.bufferStore s sp view (ord == .weak) rel (rel && wideScope scp) a (vals a.lane),
    Prog.when (ord == .sc) u.fullFence]

/-- The shared store: checks, then its effect (R176, R181). -/
def U.store (u : U) (s : State) (sp : Space) (ord : Ord) (scp : Scope) (view : Bool) (accs : List LAcc) (vals : Nat → Nat) : Issue :=
  u.cleared s sp .wr (fun _ => true) accs (.commit (u.storeProg s sp ord scp view accs vals))

/-- A release fence takes its place in the buffer behind its threads' stores (R199). -/
def U.bufferFence (u : U) (wide : Bool) : Prog :=
  .one (.core u.c fun k =>
    (dedup (u.part.map u.thr)).foldl (fun k t =>
      { k with sbuf := k.sbuf ++ [{ id := k.nextId, blk := u.b, thr := t, runs := [], weak := false, rel := true, fence := true, wide,
                                    grp := (u.pre.core u.c).nextId }],
               nextId := k.nextId + 1 }) k)

/-! ## Atomics (R191 to R197) -/

/-- R193: the new value of a location of `t`'s width. -/
def atomNew (op : Nat) (t : Ty) (old b c : Nat) : Nat :=
  let w := t.bits
  match op with
  | 0 => (old + b) % 2 ^ w
  | 1 => if intVal t.signed w b < intVal t.signed w old then b else old
  | 2 => if intVal t.signed w b > intVal t.signed w old then b else old
  | 3 => old &&& b
  | 4 => old ||| b
  | 5 => old ^^^ b
  | 6 => b
  | 7 => if old = b then c else old
  | 8 => (roundTo .f32 .ne false 0 (fAdd .ne (fdec .f32 old) (fdec .f32 b)).1).1
  | 9 => (fminmax false old b).1
  | _ => (fminmax true old b).1

/-- Bytes of a non-coherent external location are brought to their port and no longer held (log 24). -/
def toPort (l : Loc) (n : Nat) : Prog :=
  if l.sp == 5 then
    .read fun s =>
      (Prog.each (List.range n) fun i =>
        match s.held.find? fun e => decide (e.1 = l.a + i) with
        | some (a, b, true) => .one (.write ⟨1, 0, a⟩ [b])
        | _ => .done).andThen
      (.one (.held fun h => h.filter fun e => !(decide (l.a ≤ e.1) && decide (e.1 < l.a + n))))
  else .done

/-- The place of an atomic on external memory is the port (R196). -/
def Loc.atPort (l : Loc) : Loc := if l.sp = 5 then { l with sp := 1 } else l

/-- Bytes in runs, and the bytes of a value written to them. -/
def readRuns (s : State) (rs : List (Loc × Nat)) : List Byte := rs.flatMap fun r => s.readBytes r.1 r.2

def writeRuns : List (Loc × Nat) → List Byte → Prog
  | [], _ => .done
  | r :: rs, bs => .eff (.write r.1 (bs.take r.2)) (writeRuns rs (bs.drop r.2))

/-- One indivisible read and write of a location (R193). -/
def rmw (rs : List (Loc × Nat)) (n : Nat) (new : Nat → Nat) (k : Nat → Prog) : Prog :=
  (Prog.each rs fun r => toPort r.1 r.2).andThen <| .read fun s =>
    let rs := rs.map fun r => (r.1.atPort, r.2)
    let old := leNat (readRuns s rs)
    (writeRuns rs (leBytes (new old) n)).andThen (k old)

/-- R197: segments that an atomic of a scope may reach. -/
def atomSeg (scp : Scope) (g : Seg) : Bool := !g.isExt || scp == .sys

/-! ## Order logs and replay (R430, R431) -/

/-- An entry joins the order logs of a context that is checkpointed. -/
def logOrder (x : Nat) (e : OrderRec) : Prog :=
  .read fun s =>
    match s.ctx? x with
    | none => .done
    | some c =>
      Prog.when (c.ckT != 0 && s.sys.replay.isNone) (.one (.sys fun y =>
        { y with checkpoints := y.checkpoints.map fun k => if k.ctx = x then { k with log := k.log ++ [e] } else k }))

/-- An atomic's entry. -/
def atomRec (a : Nat) (who : List Nat) : OrderRec := { kind := 0, addr := a, who, bytes := [] }

/-- What is left of a replay's logs when atomics are performed in this order; none when one of them is not the next that
its home slice logged. -/
def replayTake : List OrderRec → List OrderRec → Option (List OrderRec)
  | log, [] => some log
  | log, e :: r =>
    match log.find? fun d => d.kind == 0 && vaultOf d.addr == vaultOf e.addr with
    | none => replayTake log r
    | some d => if d = e then replayTake (log.erase d) r else none

/-- A replayed context's atomics keep the logged order. -/
def State.replayAllows (s : State) (x : Nat) (es : List OrderRec) : Bool :=
  match s.sys.replay with
  | some (y, log) => y != x || (replayTake log es).isSome
  | none => true

/-- An atomic is performed: it joins the logs, or leaves a replay's. -/
def orderAtomic (x : Nat) (e : OrderRec) : Prog :=
  (logOrder x e).andThen (.one (.sys fun y =>
    match y.replay with
    | some (z, log) => if z = x then { y with replay := some (z, (replayTake log [e]).getD log) } else y
    | none => y))

/-- Entries of an access's atomics on device memory. -/
def U.atomRecs (u : U) (s : State) (accs : List LAcc) : List OrderRec :=
  accs.filterMap fun a =>
    match s.locate u.grid u.ctx a.va with
    | some (_, l) => if l.sp = 0 then some (atomRec l.a [u.blk.grid, u.blk.idx, a.lane]) else none
    | none => none

/-- The old value of an atomic goes to its destination; an s-register takes that of the lowest lane (R13). -/
def U.atomOld (u : U) (w : Nat) (d : BitVec 8) (accs : List LAcc) (a : LAcc) (old : Nat) : Prog :=
  Prog.when (!isS d || some a.lane == u.part.head?)
    (u.bindLoads (if w = 64 then .b64 else .b32) d accs {} [(a.lane, old)])

/-- One lane's atomic on the location of its access (R193). -/
def U.atomicLane (u : U) (sp : Space) (view : Bool) (ord : Ord) (scp : Scope) (t : Ty) (op : Nat)
    (put : LAcc → Nat → Prog) (a : LAcc) (b c : Nat) : Prog :=
  .read fun s =>
    let rs := u.runs s sp view a
    (Prog.when (sp == .global) (Prog.each rs fun r =>
      Prog.when (r.1.sp == 0 || scp != .sys) (homeTouch u.blk.ctx u.blk.agent.toNat a.va r.1 true))).andThen <|
    rmw rs a.size (fun old => atomNew op t old b c) fun old =>
      Prog.all [
        Prog.when (sp == .global && ord != .weak) (Prog.each rs fun r => bumpClock (dieOf u.c) r.1 a.va),
        Prog.when (sp == .global) (Prog.each (u.atomRecs s [a]) (orderAtomic u.blk.ctx)),
        put a old]

/-- What an atomic does once its checks have passed: each lane's operation in ascending order (R194), behind what the lanes
have stored; `put` takes the old values. -/
def U.atomicProg (u : U) (sp : Space) (view : Bool) (ord : Ord) (scp : Scope) (t : Ty) (op : Nat)
    (put : LAcc → Nat → Prog) (accs : List LAcc) (b c : Nat → Nat) : Prog :=
  Prog.all [
    if sp == .global then u.fullFence else u.drain,
    Prog.when (sp == .scratch) (viewHazard u view accs),
    Prog.when (ord != .weak && sp == .global) (.read fun s => mixedSize u s true accs),
    Prog.each accs fun a => u.atomicLane sp view ord scp t op put a (b a.lane) (c a.lane),
    Prog.when (sp == .scratch) (markViews u view accs)]

/-- The shared atomic: checks of a read and a write, then its effect (R176, R191). -/
def U.atomic (u : U) (s : State) (sp : Space) (view : Bool) (ord : Ord) (scp : Scope) (t : Ty) (op : Nat)
    (put : LAcc → Nat → Prog) (accs : List LAcc) (b c : Nat → Nat) : Issue :=
  u.cleared s sp .rw (atomSeg scp) accs <|
    if sp == .global && !s.replayAllows u.blk.ctx (u.atomRecs s accs) then .wait .operand .done
    else .commit (u.atomicProg sp view ord scp t op put accs b c)

end Sys2Proof.Machine
end

