-- ==== Sys2Proof/Machine/Memory.lean ====
section
/-! DEFINITION. Memory instructions (R173 to R205): loads and stores, gather and scatter, prefetch, atomics, fences, view
joins and cache control. -/

namespace Sys2Proof.Machine

/-! ## Effective addresses (R174) -/

/-- R174, for one lane: base, index and offset; `base` is the width of A. -/
def U.ea (u : U) (f : MForm) (base i : Nat) : Int :=
  (u.rd i f.a base : Int)
    + (if f.x.toNat = 0xFF then 0 else (BitVec.ofNat 32 (u.rd i f.x 32)).toInt * (f.w.size : Int)) + f.off.toInt

/-- The accesses of the participating lanes. -/
def U.accs (u : U) (f : MForm) (base : Nat) : List LAcc :=
  u.part.map fun i => { lane := i, ea := u.ea f base i, size := f.w.size }

/-- Width of the data register (R180). -/
def dataW (w : Width) : Nat := if w.size ≤ 4 then 32 else 8 * w.size

/-! ## Loads and stores (R179 to R186) -/

/-- A load of a space (R181). -/
def loadSem (sp : Space) (base : Nat) (f : MForm) : Sem := fun u s =>
  u.need [(f.d, dataW f.w), (f.a, base), (f.x, 32)] <|
    let accs := u.accs f base
    u.load s sp f.ord f.scp f.view accs (u.bindLoads f.w f.d accs)

/-- A store to a space (R181). -/
def storeSem (sp : Space) (base : Nat) (f : MForm) : Sem := fun u s =>
  u.need [(f.d, dataW f.w), (f.a, base), (f.x, 32)] <|
    u.store s sp f.ord f.scp f.view (u.accs f base) fun i => u.rd i f.d (dataW f.w)

def semLd (f : MForm) : Sem := loadSem .global 64 f
def execLd (f : MForm) (s : State) : Host.Outcome State Fault Refusal := runM f (semLd f) s

def semSt (f : MForm) : Sem := storeSem .global 64 f
def execSt (f : MForm) (s : State) : Host.Outcome State Fault Refusal := runM f (semSt f) s

def semLds (f : MForm) : Sem := loadSem .scratch 32 f
def execLds (f : MForm) (s : State) : Host.Outcome State Fault Refusal := runM f (semLds f) s

def semSts (f : MForm) : Sem := storeSem .scratch 32 f
def execSts (f : MForm) (s : State) : Host.Outcome State Fault Refusal := runM f (semSts f) s

def semLdk (f : MForm) : Sem := loadSem .clus 32 f
def execLdk (f : MForm) (s : State) : Host.Outcome State Fault Refusal := runM f (semLdk f) s

def semStk (f : MForm) : Sem := storeSem .clus 32 f
def execStk (f : MForm) (s : State) : Host.Outcome State Fault Refusal := runM f (semStk f) s

/-- R184: a load through the constant cache. -/
def semLdc (f : MForm) : Sem := fun u s =>
  u.need [(f.d, dataW f.w), (f.a, 64), (f.x, 32)] <|
    let accs := u.accs f 64
    u.cleared s .global .rd (fun _ => true) accs <|
      .commit <| (Prog.when u.slot.isNone (u.mergeConst s accs)).andThen <| .read fun t =>
        let s := if u.slot.isSome then u.pre else t
        (u.bindLoads f.w f.d accs {} (u.constVals s accs)).andThen (u.constFill s accs)
def execLdc (f : MForm) (s : State) : Host.Outcome State Fault Refusal := runM f (semLdc f) s

/-- The addresses that a prefetch may fill: those in pages that may be read (R190). -/
def U.prefetched (u : U) (s : State) (accs : List LAcc) : List LAcc :=
  accs.filter fun a =>
    a.ea % (a.size : Int) == 0 &&
    match s.locate u.grid u.ctx a.va with
    | some (g, _) => segAllows g .rd (!u.user) (userArea (a.va.toNat - g.base.toNat))
    | none => false

/-- A prefetch brings each line to a level: 0 the L1, 1 its home slice, 2 the core's constant cache (R190). -/
def U.prefetch (u : U) (level : Nat) (accs : List LAcc) : Prog :=
  .read fun s =>
    match level with
    | 0 => u.touch false (u.places s (accs.filter fun a => match findSeg u.grid.segs a.va with | some g => g.caches 0 | none => false))
    | 1 => Prog.each (dedup (accs.map fun a => (lineOf a.va).toNat)) fun n =>
        match s.locate u.grid u.ctx (BitVec.ofNat 64 n) with
        | some (_, l) => homeTouch u.blk.ctx u.blk.agent.toNat (BitVec.ofNat 64 n) l false
        | none => .done
    | _ =>
      let lines := (dedup (accs.map fun (a : LAcc) => (lineOf a.va).toNat)).map fun (n : Nat) => ({ lane := 0, ea := (n : Int), size := 128 } : LAcc)
      (u.mergeConst s lines).andThen (.read fun t => u.constFill t lines)

/-- R190: the lines whose pages may be read are brought to the level that D names. -/
def semPref (f : MForm) : Sem := fun u s =>
  u.need [(f.a, 64), (f.x, 32)] <|
    .commit (u.prefetch (f.d.toNat % 4) (u.prefetched s (u.accs f 64)))
def execPref (f : MForm) (s : State) : Host.Outcome State Fault Refusal := runM f (semPref f) s

/-! ## Gather and scatter (R187 to R189) -/

/-- Largest pending-byte count of a barrier (R20). -/
def pendMax : Nat := 2 ^ 24 - 1

/-- Physical barrier of a name (R20). -/
def Block.barOf (b : Block) (name : Nat) : Nat := (name + b.bbase.toNat) % 64

def Core.bar (k : Core) (i : Nat) : Barrier := (k.bars.get? i).getD {}

def Core.setBar (k : Core) (i : Nat) (v : Barrier) : Core := { k with bars := k.bars.set i v }

/-- A physical barrier lies in the block's range (R255). -/
def Block.ownsBar (b : Block) (i : Nat) : Bool := decide ((i + 64 - b.borg.toNat) % 64 < b.nbr)

/-- Adds to a barrier's pending bytes. -/
def addPend (c i n : Nat) : Prog :=
  .one (.core c fun k => k.setBar i { k.bar i with pend := (k.bar i).pend + n })

/-- `GATH` and `SCAT` (R188). -/
def gatherSem (scat : Bool) (f : MForm) : Sem := fun u s =>
  if u.slot.isSome then u.illegal
  else
    u.need [(f.d, 64), (f.a, 64), (f.x, 32)] <|
      let desc := u.sf f.d
      let bar := u.blk.barOf (bits 6 desc 20).toNat
      if u.part.isEmpty then .commit .done
      else if bits 38 desc 26 != 0 || !u.blk.ownsBar bar then u.illegal
      else
        let size := f.w.size
        let glob := u.accs f 64
        let scr := u.part.map fun i => ({ lane := i, ea := (bits 20 desc 0).toNat + (i * size : Nat), size } : LAcc)
        u.cleared s .global (if scat then .wr else .rd) (fun _ => true) glob <|
          u.cleared s .scratch (if scat then .rd else .wr) (fun _ => true) scr <|
            let n := size * u.part.length
            if (u.core.bar bar).pend + n > pendMax then .wait .gathPend .done
            else
              .commit <| Prog.all [
                u.release, addPend u.c bar n, if scat then viewHazard u f.view scr else markViews u f.view scr,
                Prog.each (u.places s glob) fun p => homeTouch u.blk.ctx u.blk.agent.toNat (lineOf p.1) p.2 scat,
                .one (.core u.c fun k =>
                  { k with
                    gathers := k.gathers ++ [{
                      id := k.nextId, blk := u.b, scat, size, bar, pc := u.pc, slices := maskOf 16 u.members, org := u.origin,
                      elems := (glob.zip scr).map fun e =>
                        { lane := e.1.lane, va := e.1.va,
                          glob := ((u.runs s .global false e.1).head?.map (·.1)).getD ⟨0, 0, 0⟩,
                          scr := u.runs s .scratch f.view e.2 } }]
                    nextId := k.nextId + 1 })]

def semGath (f : MForm) : Sem := gatherSem false f
def execGath (f : MForm) (s : State) : Host.Outcome State Fault Refusal := runM f (semGath f) s

def semScat (f : MForm) : Sem := gatherSem true f
def execScat (f : MForm) (s : State) : Host.Outcome State Fault Refusal := runM f (semScat f) s

/-! ## Atomics (R191 to R197) -/

/-- `ATOM`, `ATOMS` and `RED` from their IMM16 (R191). -/
def atomSem (sp : Space) (view red : Bool) (f : XForm) : Sem := fun u s =>
  match atomTy (f.fld 3 9), Ord.ofCode (bits 3 f.imm 6) with
  | some t, some ord =>
    let w := t.bits
    let cas := f.fld 4 12 == 7
    let base := if sp == .global then 64 else 32
    u.need [(f.d, if red then 0 else w), (f.a, base), (f.b, w), (f.c, if cas then w else 0)] <|
      let accs := u.part.map fun i => { lane := i, ea := u.rd i f.a base, size := w / 8 }
      u.atomic s sp view ord (Scope.ofCode (bits 2 f.imm 4)) t (f.fld 4 12)
        (fun a old => if red then .done else u.atomOld w f.d accs a old) accs
        (fun i => u.rd i f.b w) (fun i => if cas then u.rd i f.c w else 0)
  | _, _ => u.illegal

def semAtom (f : XForm) : Sem := atomSem .global false false f
def execAtom (f : XForm) (s : State) : Host.Outcome State Fault Refusal := runX f (semAtom f) s

def semAtoms (f : XForm) : Sem := atomSem (if f.fld 1 3 == 1 then .clus else .scratch) (f.fld 1 2 == 1) false f
def execAtoms (f : XForm) (s : State) : Host.Outcome State Fault Refusal := runX f (semAtoms f) s

def semRed (f : XForm) : Sem := atomSem .global false true f
def execRed (f : XForm) (s : State) : Host.Outcome State Fault Refusal := runX f (semRed f) s

/-! ## Fences, view joins and cache control (R198 to R205) -/

/-- R199, R344: the lanes' earlier reads are made before a fence of any class completes. A release fence takes its place
among their stores; at device or system scope a fence waits for what its die has sent; one of class `.sc` waits for all
(log 25). -/
def fenceProg (ord : Ord) (scp : Scope) (u : U) : Prog :=
  Prog.when (!u.part.isEmpty) <|
    if ord == .sc then u.fullFence
    else Prog.all [u.bind u.part, Prog.when (wideScope scp) (settleDie (dieOf u.c)), Prog.when (ord != .acq) (u.bufferFence (wideScope scp))]

def fenceSem (ord : Ord) (scp : Scope) : Sem := fun u _ => .commit (fenceProg ord scp u)

def semFence (f : XForm) : Sem :=
  fenceSem ((Ord.ofCode (bits 3 f.imm 13)).getD .sc) (Scope.ofCode (bits 2 f.imm 11))
def execFence (f : XForm) (s : State) : Host.Outcome State Fault Refusal := runX f (semFence f) s

/-- A cluster gives up what its tile path holds for a context. -/
def Cluster.dropTile (q : Cluster) (x : Nat) : Cluster :=
  { q with tl := dropCtx q.tl x, l1 := q.l1.filter fun e => !(e.tile && e.ctx == x) }

/-- R201: the lanes' stores are performed, and what a path has cached for the context is dropped, so that later reads
refetch it. -/
def pfenceProg (path : Nat) (u : U) : Prog :=
  Prog.when (!u.part.isEmpty) <| u.fullFence.andThen <|
    match path with
    | 0 => .done
    | 1 => .one (.core u.c fun k => { k with kc := dropCtx k.kc u.blk.ctx })
    | 2 => .one (.clus (clusterOf u.c) fun q => q.dropTile u.blk.ctx)
    | _ => .one (.core u.c fun k => { k with ic := dropCtx k.ic u.blk.ctx, dc := dropCracksOf k.dc u.blk.ctx })

def semPfence (f : XForm) : Sem := fun u _ => .commit (pfenceProg (f.fld 2 14) u)
def execPfence (f : XForm) (s : State) : Host.Outcome State Fault Refusal := runX f (semPfence f) s

/-- Lanes whose accesses a `VJOIN` orders: its own, or in a slot all those of the thread (R203). -/
def U.joined (u : U) : List Nat :=
  if u.slot.isSome then u.members.flatMap fun i => (List.range 4).map (4 * i + ·) else u.part

/-- R202: the lanes' own marks go, and they have joined the others'. -/
def vjoinProg (u : U) : Prog :=
  Prog.when (!u.part.isEmpty) <| u.drain.andThen <|
    onBlock u.c u.b fun b =>
      { b with views := (b.views.filter fun m => !u.joined.contains m.lane).map fun m =>
                 { m with joined := m.joined ||| maskOf 64 u.joined } }

def semVjoin (_f : XForm) : Sem := fun u _ => .commit (vjoinProg u)
def execVjoin (f : XForm) (s : State) : Host.Outcome State Fault Refusal := runX f (semVjoin f) s

/-- R204, codes 2 and 3: the modified bytes of a held line are written out; `drop` then drops the line. -/
def writeBack (l : Loc) (drop : Bool) : Prog :=
  if l.sp == 5 then
    .read fun s =>
      let mine := s.held.filter fun e => decide (l.a ≤ e.1) && decide (e.1 < l.a + 128)
      (Prog.each mine fun e => Prog.when e.2.2 (.one (.write ⟨1, 0, e.1⟩ [e.2.1]))).andThen
        (.one (.held fun h =>
          if drop then h.filter fun e => !(decide (l.a ≤ e.1) && decide (e.1 < l.a + 128))
          else h.map fun e => if decide (l.a ≤ e.1) && decide (e.1 < l.a + 128) then (e.1, e.2.1, false) else e))
  else .done

/-- A line of an external segment is clean in its home slice once it is written out, or leaves it (R204). -/
def homeClean (va : W64) (l : Loc) (drop : Bool) : Prog :=
  Prog.when (l.sp != 0) <| .one (.sys fun y =>
    { y with vaults := y.vaults.modify (homeVault l va) fun v =>
        let mine := fun (e : HomeLine) => e.ext && e.line == l.a / 128
        { v with lines := if drop then v.lines.filter fun e => !mine e
                          else v.lines.map fun e => if mine e then { e with dirty := false } else e } })

/-- R204 on one line. -/
def cctlLine (u : U) (op : Nat) (line : W64) : Prog :=
  match op with
  | 0 => .one (.clus (clusterOf u.c) fun k =>
      { k with l1 := k.l1.filter fun e => !(e.ctx == u.blk.ctx && e.addr == line)
               tl := dropRange k.tl u.blk.ctx line.toNat 128 })
  | 1 => .one (.core u.c fun k => { k with kc := dropRange k.kc u.blk.ctx line.toNat 128 })
  | _ => .read fun s =>
      match s.locate u.grid u.ctx line with
      | some (_, l) => (writeBack l (op == 3)).andThen (homeClean line l (op == 3))
      | none => .done

/-- The flits of the lines that a `CCTL` writes to peers, by port (R417). -/
def U.lineFlits (u : U) (s : State) (op : Nat) (lines : List Nat) : List (Nat × Nat) :=
  if op < 2 then []
  else peerFlits (lines.filterMap fun n => (s.locate u.grid u.ctx (BitVec.ofNat 64 (128 * n))).map fun e => (e.2, 1))

/-- R204, R205: each distinct line of the participating lanes, once. -/
def semCctl (f : XForm) : Sem := fun u s =>
  u.need [(f.a, 64)] <|
    let lines := dedup (u.part.map fun i => u.rd i f.a 64 / 128)
    let flits := u.lineFlits s (f.fld 3 13) lines
    if !s.portsOpen flits then .wait .operand .done
    else
      .commit (Prog.all [spendReq flits, u.drain,
        Prog.each lines fun n => cctlLine u (f.fld 3 13) (BitVec.ofNat 64 (128 * n))])
def execCctl (f : XForm) (s : State) : Host.Outcome State Fault Refusal := runX f (semCctl f) s

end Sys2Proof.Machine
end

