-- ==== Sys2Proof/Machine/Tile.lean ====
section
/-! DEFINITION. Cistern tiles and flumes (07 R206 to R227): handles and their resolution, allocation, the tile checks of
R218, and the instructions of majors 0x20 and 0x21. -/

namespace Sys2Proof.Machine

/-! ## Partitions and handles -/

/-- Granules of a partition (R209). -/
def Part.granules (p : Part) : Nat := 16 * p.units

/-- First byte of partition `i` in the cluster's Cistern region. -/
def partOrigin (parts : List Part) (i : Nat) : Nat := 65536 * ((parts.take i).map (·.units)).sum

/-- Partitions that a grid holds on a cluster (R209). -/
def partsOf (s : State) (k g : Nat) : List Part :=
  let q := s.cluster k
  if q.partGrid == some g then q.parts else []

/-- The tile path of the unit's cluster fetches afresh for its context: what a synchronising action of its agents serves
(R339, R340). -/
def U.dropTile (u : U) : Prog := .one (.clus (clusterOf u.c) fun q => q.dropTile u.blk.ctx)

def U.parts (u : U) (s : State) : List Part := partsOf s (clusterOf u.c) u.blk.grid

/-- A change to one partition of a cluster. -/
def onPart (k p : Nat) (f : Part → Part) : Prog := .one (.clus k fun q => { q with parts := modAt q.parts p f })

/-- R211. -/
def handleOf (gen part gran : Nat) : Nat := 2 ^ 24 * gen + 2 ^ 21 * part + gran

def hPart (h : Nat) : Nat := h / 2 ^ 21 % 8
def hGran (h : Nat) : Nat := h % 2 ^ 11
def hGen (h : Nat) : Nat := h / 2 ^ 24 % 256

/-- Generation of the last tile that started at a granule (R212). -/
def Part.genOf (p : Part) (g : Nat) : Nat := ((p.lastgen.find? fun e => e.1 == g).map (·.2)).getD 0

/-- What a handle resolves to (R213). -/
inductive HRes where
  | bad
  | spent
  | tile (t : Tile)

/-- R213. -/
def resolve (parts : List Part) (h : Nat) : HRes :=
  match parts[hPart h]? with
  | none => .bad
  | some q =>
    let g := hGran h
    if h / 2 ^ 11 % 2 ^ 10 != 0 || decide (g ≥ q.granules) || !q.used.contains g then .bad
    else if hGen h != q.genOf g then .bad
    else
      match q.tiles.get? g with
      | some t => if t.gen == hGen h && t.st != .draining then .tile t else .spent
      | none => .spent

/-! ## Allocation (R212, R214) -/

/-- No live tile holds a granule. -/
def Part.isFree (p : Part) (g : Nat) : Bool := p.tiles.all fun e => decide (g < e.1) || decide (e.1 + e.2.size ≤ g)

/-- Free granules (R223). -/
def Part.freeCount (p : Part) : Nat := ((List.range p.granules).filter p.isFree).length

/-- The lowest-numbered run of free granules that is large enough (R214). -/
def Part.freeRun (p : Part) (n : Nat) : Option Nat :=
  (List.range (p.granules + 1 - n)).find? fun g => (List.range n).all fun i => p.isFree (g + i)

/-- A new tile at a granule (R212): the partition and the generation. -/
def Part.place (p : Part) (g : Nat) (t : Tile) : Part × Nat :=
  let gen := (p.genOf g + 1) % 256
  ({ p with lastgen := (g, gen) :: p.lastgen.filter (fun e => e.1 != g), used := if p.used.contains g then p.used else g :: p.used,
            tiles := p.tiles.set g { t with gen := gen }, stall := 0 }, gen)

/-- A grant or a free in a partition of cluster `k` reaches the `HSLEEP` of the cluster's harts (R283). -/
def wakeCistern (k : Nat) : Prog :=
  .read fun s =>
    Prog.each (s.cores.filter fun e => clusterOf e.1 == k && (e.2.loader.run || e.2.storer.run)) fun e =>
      .one (.core e.1 fun c =>
        let f := fun (h : Hart) => if h.run then { h with wake := h.wake ||| 8 } else h
        { c with loader := f c.loader, storer := f c.storer })

/-- A request that partition `p` of cluster `k` can grant: the tile is placed, its granules are recorded for the agent,
and `next` takes its handle (R214). -/
def allocTile (k p x size count : Nat) (ker : Bool) (owner : Owner) (agent : BitVec 8) (next : Nat → Prog) : Prog :=
  .read fun s =>
    match (s.cluster k).parts[p]? with
    | none => .done
    | some q =>
      match q.freeRun size with
      | none => .done
      | some g =>
        let r := q.place g { size, cnt := count, st := .writing, ker, owner, agent, gen := 0, reads := 0 }
        Prog.all [onPart k p fun _ => r.1, onAgent x agent.toNat fun a => { a with grans := a.grans + size },
          wakeCistern k, next (handleOf r.2 p g)]

/-- The sizes and counts that R214 refuses. -/
def allocBad (q : Part) (size count : Nat) : Bool :=
  size == 0 || decide (size > 256) || decide (size > q.granules) || count == 0 || decide (count > 4095)

def AllocReq.isOf (r : AllocReq) (hart : Bool) (core key gang : Nat) : Bool :=
  r.hart == hart && r.core == core && r.key == key && r.gang == gang

/-- A request may be granted now: no earlier one waits in the partition, and a run is free (R214). -/
def Part.mayGrant (q : Part) (hart : Bool) (core key gang size : Nat) : Bool :=
  (match q.reqs with | [] => true | r :: _ => r.isOf hart core key gang) && (q.freeRun size).isSome

/-- A request joins the waiting order, unless it stands there already. -/
def Part.enqueue (q : Part) (r : AllocReq) : Part :=
  if q.reqs.any fun e => e.isOf r.hart r.core r.key r.gang then q else { q with reqs := q.reqs ++ [r] }

/-- A request leaves the waiting order. -/
def Part.unqueue (q : Part) (hart : Bool) (core key gang : Nat) : Part :=
  { q with reqs := q.reqs.filter fun e => !e.isOf hart core key gang }

def U.owner (u : U) : Owner :=
  { hart := u.hart.isSome, core := u.c, key := u.b, grid := u.blk.grid, bx := u.blk.bx, byy := u.blk.byy, bz := u.blk.bz }

/-- The owner of a tile (R212): a block by its coordinates, a hart by its core. -/
def Owner.same (a b : Owner) : Bool :=
  a.hart == b.hart && a.grid == b.grid
    && (if a.hart then a.core == b.core && a.key == b.key else a.bx == b.bx && a.byy == b.byy && a.bz == b.bz)

/-! ## Uses of a tile (R216 to R218) -/

/-- The uses that R218 orders. -/
inductive TUse where
  | write | seal | read | consume
  | drop (n : Nat)
  | post

/-- R218 steps 1 to 3: the cause of the first failing check, or the tile. -/
def tileCheck (parts : List Part) (me : Owner) (h : Nat) (use : TUse) : Nat ⊕ Tile :=
  match resolve parts h with
  | .bad => .inl cTileHandle
  | .spent => .inl (match use with | .consume | .drop _ => cTileOverread | _ => cTileHandle)
  | .tile t =>
    let mine := t.owner.same me
    let stOk :=
      match use with
      | .write | .seal => t.st == .writing && mine
      | .read => t.st == .sealed || (t.st == .writing && mine)
      | _ => t.st == .sealed
    let owed := match use with | .consume => 1 | .drop n => n | _ => 0
    if !stOk then .inl cTileHandle
    else if t.cnt < owed then .inl cTileOverread
    else .inr t

/-- CNT falls by `n`; at zero the tile is DRAINING (R212, R217). Every stall counter of the cluster restarts (R215). -/
def consumeTile (k h n : Nat) : Prog :=
  (onPart k (hPart h) fun q =>
    { q with tiles := q.tiles.modify (hGran h) fun t =>
               { t with cnt := t.cnt - n, st := if t.cnt - n = 0 then .draining else t.st } }).andThen
    (.one (.clus k fun q => { q with parts := q.parts.map fun p => { p with stall := 0 } }))

/-- R216. -/
def sealTile (k h : Nat) : Prog :=
  onPart k (hPart h) fun q => { q with tiles := q.tiles.modify (hGran h) fun t => { t with st := .sealed } }

/-- Reads of a tile by an engine that have not completed (R212). -/
def tileReads (k h : Nat) (f : Nat → Nat) : Prog :=
  onPart k (hPart h) fun q => { q with tiles := q.tiles.modify (hGran h) fun t => { t with reads := f t.reads } }

/-- The location of a byte of a tile. -/
def tileLoc (parts : List Part) (k h off : Nat) : Loc := ⟨4, k, partOrigin parts (hPart h) + 4096 * hGran h + off⟩

/-- Runs `k` on the tile when steps 1 to 3 of R218 pass. -/
def U.tile (u : U) (s : State) (h : Nat) (use : TUse) (k : Tile → Issue) : Issue :=
  match tileCheck (u.parts s) u.owner h use with
  | .inl cause => u.trap cause
  | .inr t => k t

/-! ## Tile instructions (R214 to R223) -/

/-- `TALLOC` with its operands (R214); `write` takes the handle to its destination. `direct` marks a destination that a
grant may write while the gang waits. -/
def tallocOp (u : U) (s : State) (p size count : Nat) (ker : Bool) (direct : Option (BitVec 8))
    (write : Nat → Prog) : Issue :=
  match (u.parts s)[p]? with
  | none => u.illegal
  | some q =>
    u.once <|
      if allocBad q size count then u.trap cIllegal
      else
        let k := clusterOf u.c
        if q.mayGrant false u.c u.b u.g size then
          .commit ((onPart k p fun q => q.unqueue false u.c u.b u.g).andThen
            (allocTile k p u.blk.ctx size count ker u.owner u.blk.agent write))
        else
          .wait .talloc (onPart k p fun q => q.enqueue
            { hart := u.hart.isSome, core := u.c, key := u.b, gang := u.g, copy := direct.isNone, size, count, ker,
              dst := direct.getD 0, slot := u.slot })

/-- R214, R220. DESIGN CHOICE: the rule gives the count register no width; C[31:0] is read as the size's B[31:0] is
(log 73). -/
def semTalloc (f : XForm) : Sem := fun u s =>
  u.need [(f.d, 32), (f.b, 32), (f.c, 32)] <|
    let count := if f.fld 12 0 = 0 then u.rd1 f.c 32 else f.fld 12 0
    tallocOp u s (f.fld 3 13) (u.rd1 f.b 32) count (f.fld 1 12 == 1)
      (if u.slot.isSome then none else some f.d) fun h => u.putAll f.d 32 h
def execTalloc (f : XForm) (s : State) : Host.Outcome State Fault Refusal := runX f (semTalloc f) s

/-- `TSEAL` (R216): a release at cluster scope. -/
def tsealOp (u : U) (s : State) (h : Nat) : Issue :=
  u.once <| u.tile s h .seal fun _ => .commit (Prog.all [u.release, u.dropTile, sealTile (clusterOf u.c) h])

def semTseal (f : XForm) : Sem := fun u s => u.need [(f.a, 32)] <| tsealOp u s (u.rd1 f.a 32)
def execTseal (f : XForm) (s : State) : Host.Outcome State Fault Refusal := runX f (semTseal f) s

/-- `TLD` and `TST` after their operands (R218, R221). -/
def tileAccess (u : U) (s : State) (h : Nat) (use : TUse) (write : Bool) (accs : List LAcc) (k : List Part → Prog) : Issue :=
  u.once <| u.tile s h use fun t =>
    match checkOffsets (4096 * t.size) write accs with
    | some r => .trap r
    | none => .commit (k (u.parts s))

/-- `TLD` (R221). -/
def tldOp (u : U) (s : State) (w : Width) (con : Bool) (h : Nat) (accs : List LAcc) (put : List (Nat × Nat) → Prog) : Issue :=
  let k := clusterOf u.c
  tileAccess u s h (if con then .consume else .read) false accs fun parts =>
    (Prog.read fun t =>
      let from_ := if u.slot.isSome then u.pre else t
      put (accs.map fun a => (a.lane, leNat (from_.readBytes (tileLoc parts k h a.ea.toNat) w.size)))).andThen
      (Prog.when con (consumeTile k h 1))

/-- `TST` (R221): lanes in ascending order. -/
def tstOp (u : U) (s : State) (w : Width) (h : Nat) (accs : List LAcc) (vals : Nat → Nat) : Issue :=
  tileAccess u s h .write true accs fun parts =>
    Prog.each accs fun a =>
      .one (.write (tileLoc parts (clusterOf u.c) h a.ea.toNat) (leBytes (vals a.lane) w.size))

/-- Tile offsets of the participating lanes: B[31:0], not scaled. -/
def U.tileAccs (u : U) (b : BitVec 8) (n : Nat) : List LAcc :=
  u.part.map fun i => { lane := i, ea := u.rd i b 32, size := n }

def semTld (f : XForm) : Sem := fun u s =>
  match f.tileW with
  | none => u.illegal
  | some w =>
    u.need [(f.d, dataW w), (f.a, 32), (f.b, 32)] <|
      let accs := u.tileAccs f.b w.size
      tldOp u s w (f.fld 1 15 == 1) (u.rd1 f.a 32) accs (u.bindLoads w f.d accs {})
def execTld (f : XForm) (s : State) : Host.Outcome State Fault Refusal := runX f (semTld f) s

def semTst (f : XForm) : Sem := fun u s =>
  match f.tileW with
  | none => u.illegal
  | some w =>
    u.need [(f.d, dataW w), (f.a, 32), (f.b, 32)] <|
      tstOp u s w (u.rd1 f.a 32) (u.tileAccs f.b w.size) fun i => u.rd i f.d (dataW w)
def execTst (f : XForm) (s : State) : Host.Outcome State Fault Refusal := runX f (semTst f) s

/-- `TDROP` (R222). DESIGN CHOICE: no rule ranks the count's ILLEGAL and the checks of R218; the count is judged first
(log 73). -/
def tdropOp (u : U) (s : State) (h n : Nat) (reg : Bool) : Issue :=
  u.once <|
    if reg && (n == 0 || decide (n > 4095)) then u.trap cIllegal
    else u.tile s h (.drop n) fun _ => .commit (consumeTile (clusterOf u.c) h n)

/-- R220. DESIGN CHOICE: the rule gives the count register no width; B[31:0] is read (log 73). -/
def semTdrop (f : XForm) : Sem := fun u s =>
  u.need [(f.a, 32), (f.b, 32)] <|
    let reg := f.fld 12 0 == 0
    tdropOp u s (u.rd1 f.a 32) (if reg then u.rd1 f.b 32 else f.fld 12 0) reg
def execTdrop (f : XForm) (s : State) : Host.Outcome State Fault Refusal := runX f (semTdrop f) s

/-- R223. -/
def tqueryVal (parts : List Part) (h : Nat) : Nat :=
  let free := match parts[hPart h]? with | some q => q.freeCount | none => 0
  let t :=
    match resolve parts h with
    | .tile t => 2 ^ 63 + (if t.ker then 2 ^ 23 else 0) + (if t.st == .sealed then 2 ^ 21 else 0) + 2 ^ 12 * t.size + t.cnt
    | _ => 0
  t + 2 ^ 32 * free

def semTquery (f : XForm) : Sem := fun u s =>
  u.need [(f.d, 64), (f.a, 32)] <|
    u.once <| .commit <| .read fun t =>
      let from_ := if u.slot.isSome then s else t
      u.putAll f.d 64 (tqueryVal (u.parts from_) (u.rd1 f.a 32))
def execTquery (f : XForm) (s : State) : Host.Outcome State Fault Refusal := runX f (semTquery f) s

/-! ## Flumes (R224 to R227) -/

/-- The declaration of flume `q`: its partition and its number of cursors (R105's FLDECL). -/
def Grid.flume? (g : Grid) (q : Nat) : Option (Nat × Nat) :=
  if g.flumes.getLsbD q then
    let b := (g.fdecl.getD q 0).toNat
    some (b % 8, b / 8 % 4 + 1)
  else none

/-- The grid takes a flume on a core, with POSTS and cursors zero (R35, R224). -/
def takeFlume (f : Flume) (grid part ncur : Nat) : Flume :=
  if f.grid == some grid then f else { ring := f.ring, part, ncur, grid := some grid }

def Core.flume (k : Core) (q : Nat) : Flume := (k.flumes.get? q).getD {}

def Flume.beyond (f : Flume) (c : Nat) : Nat := (f.posts - f.cur.getD c 0).toNat

/-- A declared flume of the unit as it stands, or ILLEGAL (R19, R225). -/
def U.flume (u : U) (s : State) (q : Nat) (k : Flume → Issue) : Issue :=
  match u.grid.flume? q with
  | none => u.illegal
  | some (part, ncur) => k (takeFlume ((s.core u.c).flume q) u.blk.grid part ncur)

/-- Changes a flume that the unit's grid holds. -/
def U.onFlume (u : U) (q : Nat) (f : Flume → Flume) : Prog :=
  .one (.core u.c fun k =>
    let d := (u.grid.flume? q).getD (0, 0)
    { k with flumes := k.flumes.set q (f (takeFlume (k.flume q) u.blk.grid d.1 d.2)) })

/-- The handle joins the ring (R226). -/
def Flume.post (f : Flume) (h : Nat) : Flume :=
  { f with ring := cellSet f.ring (f.posts.toNat % 256) (BitVec.ofNat 32 h), posts := f.posts + 1 }

/-- Some cursor in use stands 256 handles behind (R226). -/
def Flume.full (f : Flume) : Bool := (List.range f.ncur).any fun c => f.beyond c == 256

def Flume.advance (f : Flume) (c m : Nat) : Flume :=
  { f with cur := modAt f.cur c fun x => x + BitVec.ofNat 16 m }

/-- `QPOST` (R226, R227). -/
def qpostOp (u : U) (s : State) (q h : Nat) : Issue :=
  u.flume s q fun f => u.once <| u.tile s h .post fun _ =>
    if hPart h != f.part then u.trap cTileHandle
    else if f.full then u.trap cFlumeOverflow
    else .commit (Prog.all [u.release, u.dropTile, u.onFlume q fun f => f.post h])

def semQpost (f : XForm) : Sem := fun u s =>
  u.need [(f.a, 32)] <| qpostOp u s f.d.toNat (u.rd1 f.a 32)
def execQpost (f : XForm) (s : State) : Host.Outcome State Fault Refusal := runX f (semQpost f) s

/-- `QTAKE` (R226). -/
def qtakeOp (u : U) (s : State) (q c n : Nat) (adv : Bool) (write : Nat → Prog) : Issue :=
  u.flume s q fun f =>
    if c ≥ f.ncur then u.illegal
    else u.once <|
      if f.beyond c < n then .wait .qtake .done
      else
        .commit <| (write (cellGet f.ring ((f.cur.getD c 0).toNat % 256)).toNat).andThen
          (u.onFlume q fun f => if adv then f.advance c 1 else f)

def semQtake (f : XForm) : Sem := fun u s =>
  u.need [(f.d, 32)] <|
    qtakeOp u s f.a.toNat (f.fld 2 14) (f.fld 9 0) (f.fld 1 13 == 1) fun h => u.putAll f.d 32 h
def execQtake (f : XForm) (s : State) : Host.Outcome State Fault Refusal := runX f (semQtake f) s

/-- R226. -/
def semQadv (f : XForm) : Sem := fun u s =>
  u.need [(f.b, 32)] <|
    u.flume s f.d.toNat fun fl =>
      let c := f.fld 2 14
      if c ≥ fl.ncur then u.illegal
      else
        let reg := f.fld 9 0 == 0
        let x := if reg then u.rd1 f.b 32 else f.fld 9 0
        u.once <|
          if reg && decide (x ≥ 512) then u.trap cIllegal
          else if x > fl.beyond c then u.trap cFlumeOverflow
          else .commit (u.onFlume f.d.toNat fun fl => fl.advance c x)
def execQadv (f : XForm) (s : State) : Host.Outcome State Fault Refusal := runX f (semQadv f) s

/-- R226. -/
def semQcnt (f : XForm) : Sem := fun u s =>
  u.need [(f.d, 32)] <|
    u.flume s f.a.toNat fun fl =>
      let c := f.fld 2 14
      if c ≥ fl.ncur then u.illegal
      else u.once (.commit (u.putAll f.d 32 (2 ^ 16 * fl.posts.toNat + fl.beyond c)))
def execQcnt (f : XForm) (s : State) : Host.Outcome State Fault Refusal := runX f (semQcnt f) s

end Sys2Proof.Machine
end

