-- ==== Sys2Proof/Machine/Matrix.lean ====
section
/-! DEFINITION. The matrix array (07 R228 to R240, R447; 04 R127, R128): lease, parameter blocks and source ranges of
engine operations, weight loads, streams, and accumulator rows. -/

namespace Sys2Proof.Machine

/-! ## Engine slots and parameter blocks (R22, R92, R93) -/

/-- PRIVILEGED, raised at decode by every active lane (R96 step 7). -/
def U.privileged (u : U) : Issue := .trap { cause := cPrivileged, recs := [{ cause := cPrivileged, lanes := u.active }] }

/-- R22, R92: user level without the bring-up feature. -/
def U.noBringup (u : U) : Bool := u.user && !u.feat 3 0

/-- Index of live (`sh` false) or shadow register `j` of engine slot `en`. -/
def shapeIdx (en : Nat) (sh : Bool) (j : Nat) : Nat := 8 * en + (if sh then 4 else 0) + j

/-- The value of field `i` of a block at issue (R93). -/
def U.blkField (u : U) (b : ParamBlock) (i : Nat) : Nat :=
  let x := b.field i
  if x.getLsbD 15 then (bits 16 (u.s (x.toNat % 64)) 0).toNat else x.toNat

/-- The four resolved words. -/
def U.blkWords (u : U) (b : ParamBlock) : List W64 :=
  (List.range 4).map fun j =>
    BitVec.ofNat 64 ((List.range 4).foldl (fun n f => n + u.blkField b (4 * j + f) * 2 ^ (16 * f)) 0)

/-- Registers that a block's fields read, as operand fields. -/
def blkRegs (blk : Option ParamBlock) : List (BitVec 8 × Nat) :=
  match blk with
  | none => []
  | some b => (List.range 16).filterMap fun i =>
      let x := b.field i
      if x.getLsbD 15 then some (BitVec.ofNat 8 (0xC0 + x.toNat % 64), 16) else none

/-- The live set an engine instruction uses, and the shadow set it leaves (R92). -/
def U.shapeSets (u : U) (en : Nat) (blk : Option ParamBlock) (sw : Bool) : List W64 × List W64 :=
  let live := (List.range 4).map fun j => cellGet u.core.shapes (shapeIdx en false j)
  let shad := (List.range 4).map fun j => cellGet u.core.shapes (shapeIdx en true j)
  match blk with
  | some b => (u.blkWords b, shad)
  | none => if sw then (shad, live) else (live, shad)

/-- Writes the live and shadow sets. -/
def setShapes (c en : Nat) (sets : List W64 × List W64) : Prog :=
  .one (.core c fun k =>
    { k with shapes := (List.range 4).foldl (fun m j =>
        cellSet (cellSet m (shapeIdx en false j) (sets.1.getD j 0)) (shapeIdx en true j) (sets.2.getD j 0)) k.shapes })

/-- Field `i`, 0 to 15, of a set of four words. -/
def setField (ws : List W64) (i : Nat) : Nat := (bits 16 (ws.getD (i / 4) 0) (16 * (i % 4))).toNat

/-- An engine instruction's privilege and its resolved fields (R92). -/
def U.withShape (u : U) (en : Nat) (f : XForm) (blk : Option ParamBlock) (k : (Nat → Nat) → Prog → Issue) : Issue :=
  let sw := f.fld 1 14 == 1
  if (blk.isNone || sw) && u.noBringup then u.privileged
  else
    let sets := u.shapeSets en blk sw
    k (setField sets.1) (setShapes u.c en sets)

/-! ## Source and destination ranges of an engine (R233, R274) -/

/-- A range of bytes with the alignment it must have; exact offsets in its space. -/
structure Span where
  a : Int
  n : Nat
  al : Nat := 1

/-- Starts of the 64 KiB pages that a global range touches, as addresses in the range. -/
def spanPages (a n : Nat) : List Nat :=
  if n = 0 then []
  else a :: ((List.range (n / 65536 + 1)).map fun i => (a / 65536 + 1 + i) * 65536).filter fun x => decide (x < a + n)

/-- What the check of a range finds. -/
inductive SpanRes where
  | ok
  | filling (va : W64)
  | bad (a : Int) (t : TrapReq)

/-- The trap of an address found by an engine's checks: one record of the participating lanes. -/
def U.engTrap (u : U) (cause : Nat) (a : Int) (write : Bool) : TrapReq :=
  { cause, recs := [{ cause, addr := BitVec.ofInt 64 a, lanes := u.part }], write }

/-- R176 on one range of global memory, page by page in ascending order. -/
def U.checkGlobalSpan (u : U) (s : State) (write : Bool) (x : Span) : SpanRes :=
  if x.a % (x.al : Int) ≠ 0 then .bad x.a (u.engTrap cMisaligned x.a write)
  else
    (spanPages (x.a % 2 ^ 64).toNat x.n).foldl (fun r va =>
      match r with
      | .bad .. => r
      | _ =>
        match u.check s (if write then .wr else .rd) (u.part.map fun i => { lane := i, va := BitVec.ofNat 64 va, size := 1 }) with
        | .ok => r
        | .filling va => .filling va
        | .trap t => .bad va t) .ok

/-- The checks of one range in an offset space of `lim` bytes. -/
def U.checkOffsetSpan (u : U) (lim : Nat) (write : Bool) (x : Span) : SpanRes :=
  if x.a % (x.al : Int) ≠ 0 then .bad x.a (u.engTrap cMisaligned x.a write)
  else if x.a < 0 ∨ x.a + x.n > lim then .bad x.a (u.engTrap cScratchBounds x.a write)
  else .ok

/-- The finding at the lowest address decides; a FILLING page waits only when nothing is raised. -/
def lowestRes (l : List SpanRes) : SpanRes :=
  l.foldl (fun r x =>
    match r, x with
    | .bad a t, .bad b t' => if b < a then .bad b t' else .bad a t
    | .bad a t, _ => .bad a t
    | _, .bad b t => .bad b t
    | .filling va, _ => .filling va
    | .ok, x => x) .ok

/-- All checks of a region's ranges. -/
def U.checkSpans (u : U) (s : State) (sp lim : Nat) (write : Bool) (l : List Span) (k : Issue) : Issue :=
  match lowestRes (l.map fun x => if sp = 0 then u.checkGlobalSpan s write x else u.checkOffsetSpan lim write x) with
  | .ok => if sp = 0 then k.after (keepTrans u.blk.ctx u.grid (l.flatMap fun x =>
      (spanPages (x.a % 2 ^ 64).toNat x.n).map (BitVec.ofNat 64))) else k
  | .filling va => .wait (.filling va) .done
  | .bad _ t => .trap t

/-- A region with the translation of its ranges at issue. -/
def U.region (u : U) (s : State) (sp base : Nat) (view : Bool) (l : List Span) : Region :=
  let k := clusterOf u.c
  match sp with
  | 0 =>
    let vas := l.flatMap fun x => spanPages (x.a % 2 ^ 64).toNat x.n
    let pages := (dedup (vas.map fun v => v / 65536)).filterMap fun p =>
      match s.locate u.grid u.ctx (BitVec.ofNat 64 (65536 * p)) with
      | some (_, l) => some (p, l)
      | none => none
    { sp, base, pages }
  | 1 => { sp, base, view, own := u.c, org := scrOrigin u.core u.blk }
  | 2 => { sp, base, own := k }
  | _ => { sp, base, own := k, h := base % 2 ^ 32, org := (tileLoc (u.parts s) k (base % 2 ^ 32) (base / 2 ^ 32)).a }

/-- The location of the byte at offset `o` from a region's base. -/
def Region.loc (r : Region) (o : Nat) : Loc :=
  match r.sp with
  | 0 =>
    let va := (r.base + o) % 2 ^ 64
    match r.pages.find? fun p => p.1 == va / 65536 with
    | some (_, l) => { l with a := l.a + va % 65536 }
    | none => ⟨6, 0, 0⟩
  | 1 => ⟨2, r.own, r.org + viewByte r.view (r.base + o)⟩
  | 2 => ⟨3, r.own, r.base + o⟩
  | _ => ⟨4, r.own, r.org + o⟩

/-- A byte of a region on the tile path (R207). -/
def tileByte (s : State) (k ctx : Nat) (r : Region) (o : Nat) : Byte :=
  if r.sp = 0 then
    match cachedByte (s.cluster k).tl ctx 0 (BitVec.ofNat 64 (r.base + o)) with
    | some x => x
    | none => s.readLoc (r.loc o)
  else s.readLoc (r.loc o)

/-- A number of `n` bytes of a region. -/
def tileNat (s : State) (k ctx : Nat) (r : Region) (o n : Nat) : Nat :=
  leNat ((List.range n).map fun i => tileByte s k ctx r (o + i))

/-! ## The lease (R228 to R230) -/

/-- The next request to be granted (R229), with the positions and the counter after it. -/
def Cluster.arbitrate (q : Cluster) : Option (LeaseReq × Cluster) :=
  let has0 := q.reqs.any fun r => r.cls == 0
  let has1 := q.reqs.any fun r => r.cls == 1
  let cls := if has1 && !(has0 && decide (q.ones ≥ 16)) then 1 else 0
  let pos := if cls = 1 then q.rr1 else q.rr0
  let pick := (List.range 4).findSome? fun i =>
    q.reqs.find? fun r => r.cls == cls && r.core % 4 == (pos + i) % 4
  match pick with
  | none => none
  | some r =>
    let next := (r.core % 4 + 1) % 4
    some (r, { q with
      lease := some { core := r.core, blk := r.blk, cls, cmds := r.cmds, cyc := r.cyc, fresh := if r.again then some r.gang else none }
      reqs := q.reqs.filter fun e => !(e.core == r.core && e.blk == r.blk && e.gang == r.gang)
      rr0 := if cls = 0 then next else q.rr0
      rr1 := if cls = 1 then next else q.rr1
      ones := if cls = 0 then 0 else if has0 then q.ones + 1 else 0 })

/-- A cluster with some of its lease requests. -/
def Cluster.keepReqs (q : Cluster) (f : LeaseReq → Bool) : Cluster := { q with reqs := q.reqs.filter f }.countOnes

/-- The lease that the unit's block holds. -/
def U.lease (u : U) (s : State) : Option Lease :=
  match (s.cluster (clusterOf u.c)).lease with
  | some l => if l.core == u.c && l.blk == u.b then some l else none
  | none => none

/-- A lease request joins the waiting ones, unless it stands there. -/
def Cluster.askLease (q : Cluster) (r : LeaseReq) : Cluster :=
  if q.reqs.any fun e => e.core == r.core && e.blk == r.blk && e.gang == r.gang then q else { q with reqs := q.reqs ++ [r] }

/-- `MREL` (R229). -/
def Cluster.release (q : Cluster) (c b : Nat) : Cluster :=
  match q.lease with
  | some l => if l.core == c && l.blk == b then { q with lease := none } else q
  | none => q

/-- DESIGN CHOICE: `MREL` or `MLEASE` on a resumed block before its first command gives up the lease that was saved, as it
ends a held one; the next command then traps LEASE (R230 does not say, log 73). -/
def dropLease (u : U) : Prog := onBlock u.c u.b fun b => { b with leaseSaved := none }

/-- R229: as it asks, the gang ends a lease that its block holds. The request is granted at once when arbitration picks it, and
waits otherwise; an instruction whose request has been granted goes on. -/
def mleaseOp (u : U) (s : State) (cls n : Nat) : Issue :=
  u.once (if u.gang.granted then .commit .done else ask (clusterOf u.c))
where
  ask (k : Nat) : Issue :=
    let r : LeaseReq := { core := u.c, blk := u.b, gang := u.g, cls, cmds := n, cyc := 4096 }
    let asked := u.gang.wait == .mlease || u.gang.more.contains .mlease
    let next := fun (q : Cluster) => (if asked then q else q.release u.c u.b).askLease r
    let q := next (s.cluster k)
    match (if q.lease.isNone then q.arbitrate else none) with
    | some (w, _) =>
      if w.core == u.c && w.blk == u.b && w.gang == u.g then
        .commit ((dropLease u).andThen (.one (.clus k fun q =>
          match (next q).arbitrate with | some (_, q') => q' | none => q)))
      else .wait .mlease ((dropLease u).andThen (.one (.clus k next)))
    | none => .wait .mlease ((dropLease u).andThen (.one (.clus k next)))

def semMlease (f : XForm) : Sem := fun u s => mleaseOp u s (f.fld 1 15) (f.fld 5 0)
def execMlease (f : XForm) (s : State) : Host.Outcome State Fault Refusal := runX f (semMlease f) s

/-- R229. -/
def semMrel (_f : XForm) : Sem := fun u _ =>
  u.once (.commit ((Prog.one (.clus (clusterOf u.c) fun q => q.release u.c u.b)).andThen (dropLease u)))
def execMrel (f : XForm) (s : State) : Host.Outcome State Fault Refusal := runX f (semMrel f) s

/-- Step 2 of R447: the lease, or the wait of R230. A lease granted again is kept for the command that waited for it; the
block's other commands wait behind that one. -/
def U.command (u : U) (s : State) (k : Issue) : Issue :=
  match u.lease s, u.blk.leaseSaved with
  | some l, _ =>
    if l.fresh == some u.g then k
    else if l.fresh.isSome then .wait .mcmd .done
    else if l.cmds == 0 || l.cyc == 0 then u.trap cLease
    else k
  | none, some (cls, cmds, cyc) =>
    if (s.cluster (clusterOf u.c)).reqs.any fun r => r.core == u.c && r.blk == u.b && r.again && r.gang != u.g then .wait .mcmd .done
    else .wait .mcmd (.one (.clus (clusterOf u.c) fun q =>
      q.askLease { core := u.c, blk := u.b, gang := u.g, cls, cmds, cyc, again := true }))
  | none, none => u.trap cLease

/-- CMDS falls by one; at zero, or with no cycle left, the lease ends (R228). -/
def countCommand (u : U) : Prog :=
  (Prog.one (.clus (clusterOf u.c) fun q =>
    { q with lease := q.lease.bind fun l =>
        if l.cmds ≤ 1 || l.cyc == 0 then none else some { l with cmds := l.cmds - 1, fresh := none } })).andThen
    (onBlock u.c u.b fun b => { b with leaseSaved := none })

/-! ## Weight planes (R231 to R233) -/

/-- Classes of formats that a plane and a stream must share (R234). -/
def fmtClass (t : Ty) : Nat :=
  match t with | .e4m3 | .e5m2 => 0 | .e2m1 => 1 | .i8 => 2 | _ => 3

/-- Formats of the array (R232). -/
def arrayFmt (c : Nat) : Option Ty :=
  if c = 0x00 ∨ c = 0x11 ∨ c = 0x13 ∨ c = 0x14 ∨ c = 0x15 then Ty.ofCode (BitVec.ofNat 5 c) else none

/-- Scales of a column (R232). -/
def scaleCount (t : Ty) (sparse : Bool) : Nat :=
  match fmtClass t with
  | 0 => if sparse then 12 else 6
  | 1 => if sparse then 24 else 12
  | _ => 0

/-- Index bytes of a column: a nibble for each group of four K positions. -/
def indexCount (t : Ty) (sparse : Bool) : Nat := if sparse then (if fmtClass t = 1 then 96 else 48) else 0

/-- What a parameter block's CTL says (R232). -/
structure EngCtl where
  sparse : Bool
  space : Nat
  consume : Bool
  view : Bool

def engCtl (x : Nat) : EngCtl :=
  { sparse := x % 2 == 1, space := x / 2 % 4, consume := x / 8 % 2 == 1, view := x / 16 % 2 == 1 }

/-- CTL's reserved bits, and CONSUME and VIEW outside their spaces (R232). -/
def ctlBad (x : Nat) : Bool :=
  let c := engCtl x
  decide (x ≥ 32) || (c.consume && c.space != 3) || (c.view && c.space != 1)

/-- Step 4 of R96 (R328) for a block's literal type and CTL: E2M1 and SPARSE need their feature bits whatever the guard. -/
def U.blkFeats (u : U) (blk : Option ParamBlock) : Bool :=
  match blk with
  | some b =>
    ((b.field 0).getLsbD 15 || arrayFmt (b.field 0).toNat != some .e2m1 || u.feat 0 featE2m1)
      && ((b.field 1).getLsbD 15 || !(engCtl (b.field 1).toNat).sparse || u.feat 0 featSparse)
  | none => true

/-- Step 1 of R447 for a weight load. -/
def mloadwBad (u : U) (p : Nat → Nat) : Bool :=
  match arrayFmt (p 0) with
  | none => true
  | some t =>
    let c := engCtl (p 1)
    ctlBad (p 1) || (c.sparse && (t == .i8 || t == .bf16)) || (c.sparse && !u.feat 0 featSparse)
      || (t == .e2m1 && !u.feat 0 featE2m1)
      || [3, 7, 10, 11, 12, 13, 14, 15].any (fun i => p i != 0)

/-- Base of an engine's source in its space: A whole, or A[31:0]. -/
def engBase (space : Nat) (a : Nat) : Nat := if space = 0 then a else a % 2 ^ 32

/-- First byte that ranges count from: a tile's own first byte, or the base. -/
def spanBase (space base : Nat) : Int := if space = 3 then 0 else base

/-- The tile checks of an engine's source, then the ranges (R233, R447 step 7). That the checks of R218 on a tile's handle and
state stand before MISALIGNED is the model's choice (log 35). -/
def U.engSource (u : U) (s : State) (c : EngCtl) (base : Nat) (l : List Span) (k : Issue) : Issue :=
  match c.space with
  | 0 => u.checkSpans s 0 0 false l k
  | 1 => u.checkSpans s 1 u.blk.scrLen false l k
  | 2 => u.checkSpans s 2 (u.limit s .clus) false l k
  | _ => u.tile s base (if c.consume then .consume else .read) fun t => u.checkSpans s 3 (4096 * t.size) false l k

/-- Counts a consuming read and marks the tile as read until the engine completes (R212, R217). -/
def U.engTake (u : U) (c : EngCtl) (base : Nat) : Prog :=
  let k := clusterOf u.c
  Prog.when (c.space == 3) ((tileReads k base (· + 1)).andThen (Prog.when c.consume (consumeTile k base 1)))

/-- Addresses and places of the lines that an engine's ranges of global memory touch. -/
def U.spanLines (u : U) (s : State) (l : List Span) : List (W64 × Loc) :=
  let lines := dedup (l.flatMap fun x =>
    let a := (x.a % 2 ^ 64).toNat / 128
    (List.range ((x.a % 2 ^ 64).toNat % 128 + x.n + 127)).filterMap fun i => if i % 128 = 127 then some (a + i / 128) else none)
  lines.filterMap fun n => (s.locate u.grid u.ctx (BitVec.ofNat 64 (128 * n))).map fun e => (BitVec.ofNat 64 (128 * n), e.2)

/-- An engine operation's lines are charged to the agent of its issuer (R375): those of the array on the tile path, those of
a copy at their home slices. -/
def U.engFill (u : U) (s : State) (sp : Nat) (tile write : Bool) (l : List Span) : Prog :=
  Prog.when (sp == 0) <|
    if tile then u.touch true (u.spanLines s l)
    else Prog.each (u.spanLines s l) fun p => homeTouch u.blk.ctx u.blk.agent.toNat p.1 p.2 write

/-- A read by an engine has completed; the tile may leave when it is DRAINING (R212). -/
def engDone (k : Nat) (r : Region) : Prog := Prog.when (r.sp == 3) (tileReads k r.h (· - 1))

/-- The ranges of a weight load (R232). -/
def mloadwSpans (p : Nat → Nat) (t : Ty) (c : EngCtl) (b : Int) : List Span :=
  (forN 256 fun j => [{ a := b + 64 * p 4 + j * p 2, n := 192, al := 16 }])
    ++ (if scaleCount t c.sparse = 0 then []
        else forN 256 fun j => [{ a := b + 64 * p 5 + j * p 8, n := 2 * scaleCount t c.sparse, al := 2 }])
    ++ (if c.sparse then forN 256 fun j => [{ a := b + 64 * p 6 + j * p 9, n := indexCount t true, al := 16 }] else [])

/-- The scratchpad ranges of an engine operation are read or written through a view (R202). -/
def U.engViews (u : U) (sp base : Nat) (view write : Bool) (l : List Span) : Prog :=
  Prog.when (sp == 1) (engineViews u view write (l.map fun x => (x.a.toNat, x.n)))

/-- `MLOADW` on its resolved fields and base (R232, R447). -/
def mloadwOp (u : U) (s : State) (p : Nat → Nat) (a : Nat) (shapes : Prog) : Issue :=
  u.once <|
    if mloadwBad u p then u.trap cIllegal
    else u.command s <|
      let t := (arrayFmt (p 0)).getD .i8
      let c := engCtl (p 1)
      let base := engBase c.space a
      let spans := mloadwSpans p t c (spanBase c.space base)
      u.engSource s c base spans <|
        .commit <| Prog.all [shapes, u.release, countCommand u, u.engTake c base, u.engFill s c.space true false spans,
          u.engViews c.space base c.view false spans,
          .one (.clus (clusterOf u.c) fun q =>
            { q with wloads := q.wloads ++ [{
                core := u.c, blk := u.b, ctx := u.blk.ctx, grid := u.blk.grid, src := u.region s c.space base c.view spans, fmt := t,
                sparse := c.sparse, cstride := p 2, doff := p 4, soff := p 5, ioff := p 6, sstride := p 8,
                istride := p 9, consume := c.consume, slices := maskOf 16 u.members, pc := u.pc, org := u.origin }] })]

def semMloadw (f : XForm) (blk : Option ParamBlock) : Sem := fun u s =>
  if !u.blkFeats blk then u.illegal
  else u.need ((f.a, 64) :: blkRegs blk) <|
    u.withShape 0 f blk fun p shapes => mloadwOp u s p (u.rd1 f.a 64) shapes
def execMloadw (f : XForm) (blk : Option ParamBlock) (s : State) : Host.Outcome State Fault Refusal :=
  runSimt (blkLen blk) f.g (semMloadw f blk) s

/-- Cells of `n` values in ascending order, zeros left out. -/
def cellsOf {w : Nat} (n : Nat) (f : Nat → BitVec w) : List (Nat × BitVec w) :=
  (List.range n).filterMap fun i => if f i = 0 then none else some (i, f i)

/-- The plane that a weight load leaves (R231, R232), read when it completes. -/
def WLoad.plane (w : WLoad) (s : State) : Plane :=
  let k := clusterOf w.core
  let b := fun o => tileByte s k w.ctx w.src o
  let ns := scaleCount w.fmt w.sparse
  let ni := indexCount w.fmt w.sparse
  { valid := true, ctx := w.ctx, grid := w.grid, fmt := w.fmt, sparse := w.sparse
    data := cellsOf (256 * 192) fun i => b (64 * w.doff + i / 192 * w.cstride + i % 192)
    scales := cellsOf (256 * 32) fun i =>
      if i % 32 < ns then BitVec.ofNat 9 (tileNat s k w.ctx w.src (64 * w.soff + i / 32 * w.sstride + 2 * (i % 32)) 2) else 0
    index := cellsOf (256 * 128) fun i =>
      if i % 128 < ni then b (64 * w.ioff + i / 128 * w.istride + i % 128) else 0 }

/-- The exchange of the two planes (R231). -/
def swapPlanes (k : Nat) : Prog := .one (.clus k fun q => { q with active := q.shadow, shadow := q.active })

/-- R231, R447. -/
def semMswap (_f : XForm) : Sem := fun u s =>
  u.once <| u.command s <|
    if (s.cluster (clusterOf u.c)).wloads ≠ [] then .wait .mswap .done
    else .commit ((countCommand u).andThen (swapPlanes (clusterOf u.c)))
def execMswap (f : XForm) (s : State) : Host.Outcome State Fault Refusal := runX f (semMswap f) s

/-! ## Streaming (R234 to R237, R127, R128) -/

/-- Step 1 of R447 for a stream. -/
def mstreamBad (u : U) (p : Nat → Nat) : Bool :=
  match arrayFmt (p 0) with
  | none => true
  | some t =>
    ctlBad (p 1) || (engCtl (p 1)).sparse || p 2 == 0 || decide (p 2 > 32) || decide (p 3 + p 2 > 32)
      || (t == .e2m1 && !u.feat 0 featE2m1) || [8, 9, 10, 11, 12, 13, 14, 15].any (fun i => p i != 0)

/-- Bytes of an activation row (R234). -/
def rowBytes (sparse : Bool) : Nat := if sparse then 384 else 192

/-- The ranges of a stream's unmasked rows (R236). -/
def mstreamSpans (p : Nat → Nat) (pl : Plane) (m : W64) (b : Int) : List Span :=
  forN (p 2) fun i =>
    if m.getLsbD i then []
    else
      [{ a := b + 64 * p 4 + i * p 5, n := rowBytes pl.sparse, al := 16 }]
        ++ (if scaleCount pl.fmt pl.sparse = 0 then []
            else [{ a := b + 64 * p 6 + i * p 7, n := 2 * scaleCount pl.fmt pl.sparse, al := 2 }])

/-- The metadata counter of the gang (R237). -/
def U.mc (u : U) : Option W64 := (u.members.head?.bind u.blk.slice?).bind (·.mc)

/-- The word at the counter on the tile path. -/
def U.metaWord (u : U) (s : State) (a : W64) : W64 :=
  match cachedByte (s.cluster (clusterOf u.c)).tl u.blk.ctx 0 a with
  | some _ => BitVec.ofNat 64 (leNat ((List.range 8).map fun i =>
      (cachedByte (s.cluster (clusterOf u.c)).tl u.blk.ctx 0 (a + BitVec.ofNat 64 i)).getD 0))
  | none => match s.locate u.grid u.ctx a with | some (_, l) => BitVec.ofNat 64 (leNat (s.readBytes l 8)) | none => 0

/-- The metadata word, after the checks of step 6 of R447; the word read is kept with its line in the L1 where the segment
allows it. -/
def U.withMeta (u : U) (s : State) (k : W64 → Prog → Issue) : Issue :=
  match u.mc with
  | none => k 0 .done
  | some a =>
    match u.check s .rd (u.part.map fun i => { lane := i, va := a, size := 8 }) with
    | .trap t => .trap t
    | .filling va => .wait (.filling va) .done
    | .ok =>
      let m := u.metaWord s a
      if bits 26 m 38 != 0 then u.trap cIllegal
      else
        k m <| Prog.all [keepTrans u.blk.ctx u.grid [a], u.touch true (u.places s [{ lane := 0, ea := a.toNat, size := 8 }]),
          catchUp (dieOf u.c),
          .one (.clus (clusterOf u.c) fun q =>
            if q.holds true u.blk.ctx a then { q with tl := fetchWord (16 * q.l1Max) q.tl u.blk.ctx 0 a m } else q)]

/-- Moves the metadata counter of slices by words; NONE stays (R90, R237). -/
def Block.advanceMc (b : Block) (ms : List Nat) (n : Nat) : Block :=
  ms.foldl (fun b i => b.modSlice i fun x => { x with mc := x.mc.map (· + BitVec.ofNat 64 (8 * n)) }) b

/-- A stream on the same tile of the block has not completed (R236). -/
def U.streaming (u : U) (s : State) (z : Nat) : Bool :=
  (s.cluster (clusterOf u.c)).streams.any fun x => x.core == u.c && x.blk == u.b && x.tile == z

/-- `MSTREAM` on its resolved fields, base, tile, ACC and SWAP (R234 to R236, R447); `word` finds the metadata word, and
`after` follows the stream. -/
def mstreamOp (u : U) (s : State) (p : Nat → Nat) (a z : Nat) (acc swap : Bool) (shapes : Prog)
    (word : (W64 → Prog → Issue) → Issue) (after : Prog) : Issue :=
  let k := clusterOf u.c
  u.once <|
    if mstreamBad u p then u.trap cIllegal
    else u.command s <|
      if swap && (s.cluster k).wloads ≠ [] then .wait .mswap .done
      else
        let pl := if swap then (s.cluster k).shadow else (s.cluster k).active
        let t := (arrayFmt (p 0)).getD .i8
        let c := engCtl (p 1)
        let base := engBase c.space a
        if !pl.valid || pl.ctx != u.blk.ctx then u.trap cLease
        else if fmtClass t != fmtClass pl.fmt then u.trap cIllegal
        else word fun m fill =>
          let spans := mstreamSpans p pl m (spanBase c.space base)
          u.engSource s c base spans <|
            if u.streaming s z then .wait .accum .done
            else
              .commit <| Prog.all [shapes, fill, u.release, countCommand u, u.engTake c base, u.engFill s c.space true false spans,
                u.engViews c.space base c.view false spans, Prog.when swap (swapPlanes k),
                .one (.clus k fun q =>
                  { q with streams := q.streams ++ [{
                      core := u.c, blk := u.b, tile := z, src := u.region s c.space base c.view spans, afmt := t,
                      rows := p 2, row0 := p 3, aoff := p 4, astride := p 5, soff := p 6, sstride := p 7, acc,
                      mword := m, consume := c.consume, plane := pl, slices := maskOf 16 u.members, pc := u.pc,
                      org := u.origin }] }),
                after]

def semMstream (f : XForm) (blk : Option ParamBlock) : Sem := fun u s =>
  if !u.blkFeats blk || f.d.toNat ≥ u.blk.zpb then u.illegal
  else
    u.need ((f.a, 64) :: blkRegs blk) <|
      u.withShape 1 f blk fun p shapes =>
        mstreamOp u s p (u.rd1 f.a 64) f.d.toNat (f.fld 1 12 == 1) (f.fld 1 13 == 1) shapes (u.withMeta s)
          (Prog.when u.slot.isNone (onBlock u.c u.b fun b => b.advanceMc u.members 1))
def execMstream (f : XForm) (blk : Option ParamBlock) (s : State) : Host.Outcome State Fault Refusal :=
  runSimt (blkLen blk) f.g (semMstream f blk) s

/-- A running exact sum: units of 2^-320, and the special values met. -/
structure ExactSum where
  sum : Int := 0
  nan : Bool := false
  pos : Bool := false
  neg : Bool := false

/-- Adds an exact value. Every finite value of an array is a multiple of the unit. -/
def ExactSum.add (x : ExactSum) (v : FVal) : ExactSum :=
  match v with
  | .nan _ => { x with nan := true }
  | .inf n => if n then { x with neg := true } else { x with pos := true }
  | .fin n a b => { x with sum := x.sum + sInt n (a * 2 ^ 320 / b) }

/-- The value of a sum: NaN for a NaN term or infinities of both signs. -/
def ExactSum.val (x : ExactSum) : FVal :=
  if x.nan || (x.pos && x.neg) then .nan false
  else if x.pos then .inf false
  else if x.neg then .inf true
  else .fin (decide (x.sum < 0)) x.sum.natAbs (2 ^ 320)

def exactSum (l : List FVal) : FVal := (l.foldl ExactSum.add {}).val

/-- Element `i` of packed bytes (R115). -/
def packedElem (t : Ty) (byte : Nat → Byte) (i : Nat) : Nat :=
  match t with
  | .e2m1 => (byte (i / 2)).toNat / 2 ^ (4 * (i % 2)) % 16
  | .bf16 => (byte (2 * i)).toNat + 256 * (byte (2 * i + 1)).toNat
  | _ => (byte i).toNat

/-- Elements of a plane's K extent (R234). -/
def kExtent (t : Ty) (sparse : Bool) : Nat :=
  (match t with | .e2m1 => 384 | .bf16 => 96 | _ => 192) * (if sparse then 2 else 1)

/-- The kept weights that stand at position `k` of column `j`; none is an exact zero (R232). -/
def Plane.weights (p : Plane) (j k : Nat) : List Nat :=
  let elem := fun e => packedElem p.fmt (fun o => cellGet p.data (192 * j + o)) e
  if p.sparse then
    let g := k / 4
    let nib := (cellGet p.index (128 * j + g / 2)).toNat / 2 ^ (4 * (g % 2)) % 16
    (if nib % 4 = k % 4 then [elem (2 * g)] else []) ++ (if nib / 4 = k % 4 then [elem (2 * g + 1)] else [])
  else [elem k]

/-- Elements of a block of R127: 32, or a sixth of a BF16 row. -/
def blockLen (t : Ty) : Nat := if t == .bf16 then 16 else 32

/-- R127 and R128 for one element: row bytes `row`, row scales `rs`, column `j`, skip mask `m`. -/
def chunkUpdate (p : Plane) (afmt : Ty) (row : Nat → Byte) (rs : Nat → Nat) (j : Nat) (m : W64) (accum : Bool) (acc : Nat) : Nat :=
  let n := kExtent p.fmt p.sparse
  let bl := blockLen p.fmt
  let skipped := fun b => m.getLsbD (32 + b * bl / (n / 6))
  let blocks := (List.range (n / bl)).filter fun b => !skipped b
  if p.fmt == .i8 then
    let total := (blocks.flatMap fun b => (List.range bl).map fun i =>
        let k := b * bl + i
        ((p.weights j k).map fun w => intVal true 8 (row k).toNat * intVal true 8 w).sum).sum
    wrapTo 32 (if accum then (acc : Int) + total else total)
  else
    let total := exactSum <| blocks.map fun b =>
      let terms := (List.range bl).flatMap fun i =>
        let k := b * bl + i
        let a := fdec afmt (packedElem afmt row k)
        match p.weights j k with
        | [] => [(fMul a (FVal.zero false)).1]
        | ws => ws.map fun w => (fMul a (fdec p.fmt w)).1
      let sc := if scaleCount p.fmt p.sparse = 0 then FVal.fin false 1 1
        else (fMul (scaleVal (rs b % 512)) (scaleVal (cellGet p.scales (32 * j + b)).toNat)).1
      (fMul (exactSum terms) sc).1
    let accV := fdec .f32 acc
    if total.isZero then
      if accum then (if accV.isNan then defaultNaN .f32 else acc) else 0
    else (roundTo .f32 .ne false 0 (fAdd .ne (if accum then accV else FVal.zero false) total).1).1

/-- First byte of row `r` of a tile. -/
def rowLoc (c : Nat) (k : Core) (b : Block) (z r : Nat) : Loc := ⟨2, c, accOrigin k b z + 1024 * r⟩

/-- The rows of a stream, in order (R235). -/
def StreamOp.rowsProg (o : StreamOp) (ctx : Nat) : Prog :=
  Prog.each ((List.range o.rows).filter fun i => !o.mword.getLsbD i) fun i => .read fun s =>
    match s.block? o.core o.blk with
    | none => .done
    | some b =>
      let k := clusterOf o.core
      let l := rowLoc o.core (s.core o.core) b o.tile (o.row0 + i)
      let row := fun n => tileByte s k ctx o.src (64 * o.aoff + i * o.astride + n)
      let rs := fun n => tileNat s k ctx o.src (64 * o.soff + i * o.sstride + 2 * n) 2
      .one (.write l (forN 256 fun j =>
        leBytes (chunkUpdate o.plane o.afmt row rs j o.mword o.acc
          (leNat (s.readBytes { l with a := l.a + 4 * j } 4))) 4))

/-! ## Accumulator rows and shapes (R237 to R239) -/

/-- An accumulator instruction waits for a stream on its tile (R236), and traps where the tile does not exist (R18). -/
def U.accum (u : U) (s : State) (z : Nat) (k : Issue) : Issue :=
  if z ≥ u.blk.zpb then u.illegal
  else if !u.part.isEmpty && u.streaming s z then .wait .accum .done
  else k

/-- `MZERO` (R238). -/
def mzeroOp (u : U) (s : State) (z row n : Nat) : Issue :=
  u.accum s z <| u.once <| .commit (.one (.zero (rowLoc u.c u.core u.blk z row) (1024 * n)))

def semMzero (f : XForm) : Sem := fun u s => mzeroOp u s f.d.toNat (f.fld 5 11) (f.fld 6 5)
def execMzero (f : XForm) (s : State) : Host.Outcome State Fault Refusal := runX f (semMzero f) s

/-- The column of element `t` of a lane (R238); a slot counts as its own lane. -/
def U.accCol (u : U) (col e i t : Nat) : Nat := (col + e * (match u.slot with | some k => k | none => i) + t) % 256

/-- Location of an element. -/
def U.accLoc (u : U) (z r col : Nat) : Loc :=
  let l := rowLoc u.c u.core u.blk z r
  { l with a := l.a + 4 * col }

/-- `MREAD` of `e` elements a lane (R238). -/
def mreadVals (u : U) (s : State) (z r col e : Nat) : List (Nat × Nat) :=
  u.part.map fun i =>
    (i, (List.range e).foldl (fun n t =>
      n + 2 ^ (32 * t) * leNat (s.readBytes (u.accLoc z r (u.accCol col e i t)) 4)) 0)

/-- `MWRITE` of `e` elements a lane (R238). -/
def mwriteProg (u : U) (z r col e : Nat) (vals : Nat → Nat) : Prog :=
  Prog.each u.part fun i => Prog.each (List.range e) fun t =>
    .one (.write (u.accLoc z r (u.accCol col e i t)) (leBytes (vals i / 2 ^ (32 * t)) 4))

/-- Tile row of `MREAD` and `MWRITE`. -/
def U.accRow (u : U) (f : XForm) : Nat := (f.fld 5 11 + (u.sf f.b).toNat % 2 ^ 32) % 32

def semMread (f : XForm) : Sem := fun u s =>
  let e := 2 ^ f.fld 2 9
  u.need [(f.d, 32 * e), (f.b, 32)] <|
    u.accum s f.a.toNat <|
      .commit (.read fun t => u.put f.d (32 * e) (mreadVals u t f.a.toNat (u.accRow f) (f.fld 8 1) e))
def execMread (f : XForm) (s : State) : Host.Outcome State Fault Refusal := runX f (semMread f) s

def semMwrite (f : XForm) : Sem := fun u s =>
  let e := 2 ^ f.fld 2 9
  u.need [(f.d, 32 * e), (f.b, 32)] <|
    u.accum s f.a.toNat <|
      .commit (mwriteProg u f.a.toNat (u.accRow f) (f.fld 8 1) e fun i => u.rd i f.d (32 * e))
def execMwrite (f : XForm) (s : State) : Host.Outcome State Fault Refusal := runX f (semMwrite f) s

/-- R237. -/
def semMmeta (f : XForm) : Sem := fun u _ =>
  u.need [(f.a, 64)] <| u.once <|
    let a := BitVec.ofNat 64 (u.rd1 f.a 64)
    if f.a.toNat != 0xFF && a.toNat % 8 != 0 then .trap (u.engTrap cMisaligned a.toInt false)
    else
      .commit (onBlock u.c u.b fun b =>
        u.members.foldl (fun b i => b.modSlice i fun x => { x with mc := if f.a.toNat = 0xFF then none else some a }) b)
def execMmeta (f : XForm) (s : State) : Host.Outcome State Fault Refusal := runX f (semMmeta f) s

/-- R239: a field of a shadow register. -/
def semMshape (f : XForm) : Sem := fun u _ =>
  u.need [(f.a, 32)] <|
    if u.noBringup then u.privileged
    else u.once <|
      .commit (.one (.core u.c fun k =>
        let i := shapeIdx (f.fld 2 14) true f.d.toNat
        let sh := 16 * f.fld 2 12
        let old := cellGet k.shapes i
        let new := (old &&& ~~~(0xFFFF#64 <<< sh)) ||| (BitVec.ofNat 64 (u.rd1 f.a 32 % 2 ^ 16) <<< sh)
        { k with shapes := cellSet k.shapes i new }))
def execMshape (f : XForm) (s : State) : Host.Outcome State Fault Refusal := runX f (semMshape f) s

end Sys2Proof.Machine
end

