-- ==== Sys2Proof/Machine/Sync.lean ====
section
/-! DEFINITION. Synchronisation of major 0x2C (08 R255 to R268; 02 R44, R62 to R66): named barriers, supersteps,
condition monitors, phases and quiescent points, and what a slice's end does to them. -/

namespace Sys2Proof.Machine

/-! ## Waiting gangs -/

/-- Bytes of the instruction a gang waits at when its PC still stands there: 4 in cracked Exdin code, 8 elsewhere. -/
def waitLen (exdin : Bool) (x : Gang) : Nat := if exdin && x.frames.isEmpty then 4 else 8

/-- Ends a gang's wait; with `adv` it goes on behind its instruction. -/
def Block.wake (b : Block) (g : Nat) (adv : Bool) (len : Nat) : Block :=
  let b := b.modGang g Gang.issued
  if adv then
    (b.members g).foldl (fun b i => b.modSlice i fun x => { x with pc := x.pc + BitVec.ofNat 64 len }) b
  else b

/-- One wait of a gang ends: a thread with further waits goes on to the next. -/
def Block.endWait (b : Block) (g : Nat) (adv : Bool) (len : Nat) : Block :=
  match (b.gangs.get? g).map (·.more) with
  | some (w :: r) => b.modGang g fun x => { x with wait := w, more := r }
  | _ => b.wake g adv len

/-- Changes the waits that a thread's handler frames keep. -/
def Gang.framed (f : List Wait → List Wait) (x : Gang) : Gang :=
  { x with frames := x.frames.map fun r => { r with waits := f r.waits } }

/-- Ends the waits that `f` accepts, those that a thread takes up again behind its handlers among them; it answers whether the
PC still stands at the instruction. -/
def Block.wakeAll (b : Block) (exdin : Bool) (f : Wait → Option Bool) : Block :=
  b.gangs.foldl (fun b e =>
    let b := if e.2.frames.all fun r => r.waits.isEmpty then b
      else b.modGang e.1 (Gang.framed fun l => l.filter fun w => (f w).isNone)
    let b := if e.2.more.isEmpty then b else b.modGang e.1 fun x => { x with more := x.more.filter fun w => (f w).isNone }
    match f e.2.wait with
    | some adv => b.endWait e.1 adv (waitLen exdin e.2)
    | none => b) b

/-! ## Named barriers (R255 to R259) -/

/-- `TryRelease` on barrier `bar` of block `b` (R256): `BARW` waits end while nothing is pending, a complete phase
releases its gangs, and arrivals held back are then recorded in order. The fuel bounds the releases they cause. -/
def Core.tryRelease (b bar : Nat) (exdin : Bool) : (fuel : Nat) → Core → Core
  | 0, k => k
  | n + 1, k =>
    match k.blocks.get? b with
    | none => k
    | some blk =>
      let q := k.bar bar
      let wakes := fun (f : Wait → Option Bool) (k : Core) =>
        { k with blocks := k.blocks.modify b fun x => x.wakeAll exdin f }
      let k := if q.pend = 0 then wakes (fun w => match w with | .barw i adv => if i = bar then some adv else none | _ => none) k
        else k
      if q.arr ≥ 1 ∧ q.arr + blk.deadCount ≥ q.exp ∧ q.pend = 0 then
        let k := k.setBar bar { q with arr := 0, ph := !q.ph, held := [] }
        let k := wakes (fun w => match w with | .bar i adv => if i = bar then some adv else none | _ => none) k
        q.held.foldl (fun k h =>
          let q := k.bar bar
          if q.arr + h.2.2.1 > 31 then k.setBar bar { q with held := q.held ++ [h] }
          else
            match (k.blocks.get? b).bind fun x => x.gangs.get? h.2.1 with
            | some x =>
              match (x.wait :: x.more ++ x.frames.flatMap (·.waits)).findSome? fun w =>
                match w with | .barHold i adv => if i = bar then some adv else none | _ => none with
              | some adv =>
                let k := k.setBar bar { q with arr := q.arr + h.2.2.1 }
                let into := fun (w : Wait) => if w = .barHold bar adv then Wait.bar bar adv else w
                let enter := fun (y : Block) =>
                  if h.2.2.2 then y.modGang h.2.1 fun x => { x.framed (·.map into) with wait := into x.wait, more := x.more.map into }
                  else if x.wait = .barHold bar adv then y.endWait h.2.1 adv (waitLen exdin x)
                  else
                    let left := fun (l : List Wait) => l.filter fun w => w != .barHold bar adv
                    y.modGang h.2.1 fun x => { x.framed left with more := left x.more }
                let k := { k with blocks := k.blocks.modify b enter }
                k.tryRelease b bar exdin n
              | none => k
            | none => k) k
      else k

/-- Whether a grid runs cracked Exdin code. -/
def State.isExdin (s : State) (g : Nat) : Bool := match s.grid? g with | some x => x.exdin.isSome | none => false

/-- `TryRelease` on a barrier of a block. -/
def tryRelease (c b bar : Nat) : Prog :=
  .read fun s =>
    match s.block? c b with
    | some blk => .one (.core c fun k => k.tryRelease b bar (s.isExdin blk.grid) 64)
    | none => .done

/-- PEND of a barrier falls, and `TryRelease` runs (R188, R256, R276). -/
def subPend (c b bar n : Nat) : Prog :=
  (Prog.one (.core c fun k => k.setBar bar { k.bar bar with pend := (k.bar bar).pend - n })).andThen (tryRelease c b bar)

/-- Slices that arrive together: a gang's, or the four of a thread (R256). -/
def U.arrivals (u : U) : Nat := u.members.length

/-- `BAR` and `BARX.arv` on a physical barrier (R256, R257). The arrival is a release, and what leaves the barrier reads
afresh on the tile path (R258, R339). -/
def arriveOp (u : U) (s : State) (bar : Nat) (waits : Bool) : Issue :=
  if !u.blk.ownsBar bar then u.illegal
  else
    let q := (s.core u.c).bar bar
    let n := u.arrivals
    let add := Prog.one (.core u.c fun k => k.setBar bar { k.bar bar with arr := (k.bar bar).arr + n })
    if q.arr + n > 31 then
      .stay (.barHold bar true) (Prog.all [u.release, u.dropTile, .one (.core u.c fun k =>
        k.setBar bar { k.bar bar with held := (k.bar bar).held ++ [(u.b, u.g, n, waits)] })])
    else if !waits || (decide (q.arr + n + u.blk.deadCount ≥ q.exp) && q.pend == 0) then
      .commit (Prog.all [u.release, u.dropTile, add, tryRelease u.c u.b bar])
    else .stay (.bar bar true) (Prog.all [u.release, u.dropTile, add])

def semBar (f : XForm) : Sem := fun u s => arriveOp u s (u.blk.barOf f.d.toNat) true
def execBar (f : XForm) (s : State) : Host.Outcome State Fault Refusal := runX f (semBar f) s

def semBarxArv (f : XForm) : Sem := fun u s => arriveOp u s (u.blk.barOf f.d.toNat) false
def execBarxArv (f : XForm) (s : State) : Host.Outcome State Fault Refusal := runX f (semBarxArv f) s

/-- R257: sets EXP. -/
def semBarxExp (f : XForm) : Sem := fun u _ =>
  let bar := u.blk.barOf f.d.toNat
  let n := f.fld 5 0
  if !u.blk.ownsBar bar || n == 0 || decide (n > u.blk.width / 4) then u.illegal
  else .commit ((Prog.one (.core u.c fun k => k.setBar bar { k.bar bar with exp := n })).andThen (tryRelease u.c u.b bar))
def execBarxExp (f : XForm) (s : State) : Host.Outcome State Fault Refusal := runX f (semBarxExp f) s

/-- R257: waits until nothing is pending. -/
def semBarw (f : XForm) : Sem := fun u s =>
  let bar := u.blk.barOf f.d.toNat
  u.once <|
    if !u.blk.ownsBar bar then u.illegal
    else (if ((s.core u.c).bar bar).pend = 0 then .commit .done else .stay (.barw bar true) .done)
def execBarw (f : XForm) (s : State) : Host.Outcome State Fault Refusal := runX f (semBarw f) s

/-- R257: the new `%bbase`. -/
def rotBase (b : Block) (n : Nat) : BitVec 6 :=
  BitVec.ofNat 6 (b.borg.toNat + (b.bbase.toNat + 64 - b.borg.toNat + n) % 64 % b.nbr)

def semBbrot (f : XForm) : Sem := fun u _ =>
  u.once (.commit (onBlock u.c u.b fun b => { b with bbase := rotBase b (f.fld 6 0) }))
def execBbrot (f : XForm) (s : State) : Host.Outcome State Fault Refusal := runX f (semBbrot f) s

/-! ## Supersteps (R260) -/

/-- LCTL bits (R353). -/
def Packet.lbit (p : Packet) (i : Nat) : Bool := p.lctl.getLsbD i
def Packet.coop (p : Packet) : Bool := p.lbit 60
def Packet.phased (p : Packet) : Bool := p.lbit 59

/-- Blocks of a grid (R36). -/
def Packet.blocks (p : Packet) : Nat := p.gx.toNat * p.gy.toNat * p.gz.toNat

/-- No engine operation of a block is in flight. -/
def State.engineIdle (s : State) (c b : Nat) : Bool :=
  let k := s.core c
  let q := s.cluster (clusterOf c)
  (match k.blocks.get? b with | some x => x.cq.ops.isEmpty | none => true)
    && (k.gathers.all fun g => g.blk != b)
    && (q.wloads.all fun w => !(w.core == c && w.blk == b)) && (q.streams.all fun w => !(w.core == c && w.blk == b))

/-- Resident blocks of a grid, with their cores and keys. -/
def State.residents (s : State) (g : Nat) : List (Nat × Nat × Block) :=
  s.cores.flatMap fun e => (e.2.blocks.filter fun b => b.2.grid == g).map fun b => (e.1, b.1, b.2)

/-- Saved blocks of a grid (R402). -/
def State.savedOf (s : State) (g : Nat) : List SavedBlock :=
  s.ctxs.flatMap fun e => e.2.saved.filter fun v => v.blk.grid == g

/-- Every slice of a block has arrived at the superstep, or is not live (R260). -/
def gsyncHere (arr : List (Nat × Nat)) (b : Block) : Bool :=
  let m := ((arr.find? fun e => e.1 == b.idx).map (·.2)).getD 0
  (List.range b.slices.length).all fun i =>
    m.testBit i || (match b.slice? i with | some x => !x.isLive | none => true)

/-- The superstep of a grid may be released (R260). -/
def State.gsyncReady (s : State) (gid : Nat) (g : Grid) : Bool :=
  (List.range g.pkt.blocks).all fun i =>
    g.ended.contains i
      || ((s.residents gid).any fun r => r.2.2.idx == i && gsyncHere g.gsyncArr r.2.2 && s.engineIdle r.1 r.2.1)
      || ((s.savedOf gid).any fun v => v.blk.idx == i && gsyncHere g.gsyncArr v.blk && v.blk.cq.ops.isEmpty)

/-- Ends the waits of a superstep in a block. -/
def Block.leaveGsync (b : Block) (gen : Nat) : Block :=
  b.wakeAll false fun w => match w with | .gsync n adv => if n = gen then some adv else none | _ => none

/-- Releases a superstep when every slice has arrived and every engine operation has completed. -/
def tryGsync (gid : Nat) : Prog :=
  .read fun s =>
    match s.grid? gid with
    | none => .done
    | some g =>
      if g.pkt.coop && !g.gsyncArr.isEmpty && s.gsyncReady gid g then
        Prog.all [
          Prog.each (dedup ((s.residents gid).map fun r => clusterOf r.1)) fun k => .one (.clus k fun q => q.dropTile g.ctx),
          Prog.each (s.residents gid) fun r => onBlock r.1 r.2.1 fun b => b.leaveGsync g.gsyncGen,
          .one (.ctx g.ctx fun x =>
            { x with saved := x.saved.map fun v => if v.blk.grid = gid then { v with blk := v.blk.leaveGsync g.gsyncGen } else v }),
          .one (.grid gid fun g => { g with gsyncGen := g.gsyncGen + 1, gsyncArr := [] })]
      else .done

/-- Records the arrival of slices of block `idx`. -/
def Grid.arrive (g : Grid) (idx : Nat) (ms : List Nat) : Grid :=
  let old := ((g.gsyncArr.find? fun e => e.1 == idx).map (·.2)).getD 0
  { g with gsyncArr := (idx, old ||| (maskOf 16 ms).toNat) :: g.gsyncArr.filter fun e => e.1 != idx }

/-- R260: the gang arrives and stays, and the release, if this was the last arrival, ends its wait at once. -/
def semGsync : Sem := fun u _ =>
  if !u.grid.pkt.coop then u.illegal
  else
    .stay (.gsync u.grid.gsyncGen true)
      (u.release.andThen (.one (.grid u.blk.grid fun g => g.arrive u.blk.idx u.members)))

/-- The superstep is tried once the gang waits; a bundle's thread is tried when its bundle has committed. -/
def execGsync (s : State) : Host.Outcome State Fault Refusal :=
  match runSimt 8 Guard.always semGsync s, unitOf s 8 with
  | .next t, some u => .next ((tryGsync u.blk.grid).run t)
  | o, _ => o

/-! ## Phases (R62 to R66, R264) -/

/-- Bits of the carry mask (R62). -/
def carryVg (m : W64) (v : Nat) : Bool := m.getLsbD (v / 4)
def carryPf (m : W64) : Bool := m.getLsbD 48
def carrySlo (m : W64) : Bool := m.getLsbD 49
def carryShi (m : W64) : Bool := m.getLsbD 50

/-- The carried state of a lane; the rest is what a phase starts with (R63). -/
def carryLane (m : W64) (l : Lane) : Lane :=
  { v := l.v.filter fun e => carryVg m e.1, p := if carryPf m then l.p else 0, fp := if carryPf m then l.fp else 0 }

/-- The carried s-registers; `s0` is the argument pointer where it is not carried. -/
def carryS (m arg : W64) (s : List (Nat × W64)) : List (Nat × W64) :=
  let r := s.filter fun e => if e.1 < 32 then carrySlo m else carryShi m
  if carrySlo m then r else cellSet r 0 arg

/-- Every live slice of the block has arrived at `PHASE`. -/
def Block.phaseFull (b : Block) : Bool :=
  b.phaseArr != 0 && (List.range b.slices.length).all fun i =>
    b.phaseArr.getLsbD i || (match b.slice? i with | some x => !x.isLive | none => true)

/-- The block after the release of a phased kernel (R63): the record is written and no gang is left. -/
def Block.endPhase (b : Block) (m : W64) : Block :=
  match (List.range b.slices.length).find? fun i => match b.slice? i with | some x => x.isLive | none => false with
  | none => b
  | some i =>
    match b.slice? i with
    | none => b
    | some x =>
      { b with
        phaseRec := some { lanes := b.lanes.map (carryLane m), s := x.s, pc := x.pc + 8, live := b.slices.map (·.live) }
        lanes := b.lanes.map fun _ => {}
        gangs := [], grant := none, excess := 0, leaseSaved := none, phasecnt := b.phasecnt + 1, phaseArr := 0 }

/-- Releases the phase barrier when every live slice has arrived (R63, R66). -/
def tryPhase (c b : Nat) : Prog :=
  .read fun s =>
    match s.block? c b with
    | none => .done
    | some blk =>
      if !blk.phaseFull then .done
      else
        match s.grid? blk.grid with
        | none => .done
        | some g =>
          if g.pkt.phased then
            Prog.all [
              bindLate c fun p => p.blk == b,
              .one (.core c fun k =>
                { retireLoads b (List.range blk.slices.length) k with
                  blocks := (retireLoads b (List.range blk.slices.length) k).blocks.modify b fun x => x.endPhase g.pkt.carry
                  tasks := k.tasks ++ [.phase b s.sys.nextOrder] }),
              .one (.sys fun y => { y with nextOrder := y.nextOrder + 1 }),
              .one (.clus (clusterOf c) fun q => q.release c b)]
          else
            onBlock c b fun x =>
              { (x.wakeAll false fun w => match w with | .phase => some true | _ => none) with
                phasecnt := x.phasecnt + 1, phaseArr := 0 }

/-- R264, R66. -/
def semPhase : Sem := fun u _ =>
  if u.gang.vliw then u.trap cMode
  else
    let bad := u.members.filter fun i =>
      match u.blk.slice? i with | some x => !x.stack.isEmpty || x.active != x.live | none => false
    if bad ≠ [] then .trap { cause := cIllegal, recs := [{ cause := cIllegal, lanes := u.blk.activeLanes bad }] }
    else
      .stay .phase (Prog.all [u.release, u.dropTile,
        onBlock u.c u.b fun b => { b with phaseArr := b.phaseArr ||| maskOf 16 u.members }])

def execPhase (s : State) : Host.Outcome State Fault Refusal :=
  match runSimt 8 Guard.always semPhase s, unitOf s 8 with
  | .next t, some u => .next ((tryPhase u.c u.b).run t)
  | o, _ => o

/-! ## Regrouping (R44, R12) -/

/-- Slices that wait at `REGANG` with a mask at a PC. -/
def Block.atRegang (b : Block) (mask : BitVec 16) (pc : W64) : List Nat :=
  (List.range b.slices.length).filter fun i =>
    match b.slice? i with
    | some x =>
      x.isLive && x.pc == pc
        && (match b.gangs.get? x.gang with | some g => (match g.wait with | .regang m => m == mask | _ => false) | none => false)
    | none => false

/-- Live slices that a mask names. -/
def Block.named (b : Block) (mask : BitVec 16) : List Nat :=
  (List.range b.slices.length).filter fun i =>
    mask.getLsbD i && (match b.slice? i with | some x => x.isLive | none => false)

/-- Forms one gang of the named live slices behind the `REGANG`: the s-registers and the metadata counter are those of
the lowest-numbered slice that the mask names (R12, R44, R237). -/
def Block.regroup (b : Block) (mask : BitVec 16) (pc : W64) (len : Nat) : Block :=
  let ms := b.named mask
  match ms.head?.bind b.slice?, (List.range 16).find? fun i => mask.getLsbD i with
  | some x, some lo =>
    let src := (b.slice? lo).getD x
    let gone := (dedup (ms.filterMap fun i => (b.slice? i).map (·.gang))).filter fun g => g != x.gang
    let pend := gone.flatMap fun g => match b.gangs.get? g with | some y => y.pend | none => []
    let b := ms.foldl (fun b i => b.modSlice i fun y => { y with gang := x.gang, pc := pc + BitVec.ofNat 64 len, s := src.s, mc := src.mc }) b
    let b := gone.foldl (fun b g => { b with gangs := b.gangs.del g }) b
    b.modGang x.gang fun y => { y.issued with pend := y.pend ++ pend }
  | _, _ => b

/-- Joins the slices that wait at `REGANG`, where a set is complete; in cracked code they wait at a one-word head. -/
def Block.tryRegang (b : Block) (exdin : Bool) : Block :=
  b.gangs.foldl (fun b e =>
    match b.gangs.get? e.1, (b.members e.1).head?.bind b.slice? with
    | some g, some x =>
      match g.wait with
      | .regang mask => if (b.named mask).all (b.atRegang mask x.pc).contains then b.regroup mask x.pc (waitLen exdin g) else b
      | _ => b
    | _, _ => b) b

/-- The loads that write registers of the gang's slices return before its copies may be replaced (R12). -/
def U.returnLoads (u : U) : Prog :=
  (bindLate u.c fun p => p.blk == u.b).andThen (.one (.core u.c (retireLoads u.b u.members)))

/-- R44, R251. -/
def semRegang (f : XForm) : Sem := fun u _ =>
  let inRange := (List.range 16).all fun i => !f.imm.getLsbD i || decide (i < u.blk.slices.length)
  if u.gang.vliw || u.slot.isSome || !inRange || !(u.members.all fun i => f.imm.getLsbD i) then u.illegal
  else
    .own (u.returnLoads.andThen (onBlock u.c u.b fun b =>
      (b.modGang u.g fun x => { x with wait := .regang f.imm }).tryRegang u.grid.exdin.isSome))
def execRegang (f : XForm) (s : State) : Host.Outcome State Fault Refusal := runX f (semRegang f) s

/-! ## Imprecise causes and the end of slices -/

/-- FLAGS of an imprecise record in the event log (R389). -/
def Pend.flags (p : Pend) : Nat := p.org.flags + flagBit p.write 2 + flagBit true 4 + flagBit true 7

/-- The lowest slice still live of those that a cause is charged to (R386). -/
def Block.heldBy (b : Block) (p : Pend) : Option Slice :=
  ((List.range b.slices.length).find? fun i =>
    p.slices.getLsbD i && (match b.slice? i with | some x => x.isLive | none => false)).bind b.slice?

/-- Each pending imprecise cause goes to the gang that holds the lowest live slice of those it is charged to, and waits with
the block while no gang does; with no such slice left it is written to the event log (R386). -/
def settlePend (c b : Nat) : Prog :=
  .read fun s =>
    match s.block? c b with
    | none => .done
    | some blk =>
      let all := blk.pend ++ blk.gangs.flatMap fun e => e.2.pend
      if all.isEmpty then .done
      else
        let gang := fun (p : Pend) => (blk.heldBy p).map (·.gang)
        (onBlock c b fun x =>
          { x with
            pend := all.filter fun p => match gang p with | some g => (x.gangs.get? g).isNone | none => false
            gangs := x.gangs.map fun e => (e.1, { e.2 with pend := all.filter fun p => gang p == some e.1 }) }).andThen
        (Prog.each (all.filter fun p => (gang p).isNone) fun p =>
          logRecord blk.ctx (recBytes p.pc p.addr p.lanes blk.bx blk.byy blk.bz p.org.slots p.cause.toNat p.flags 0xFF blk.ctx
            blk.agent.toNat 0 p.time))

/-- What follows when slices of a block stop being live: its barriers, supersteps, phase barrier and `REGANG` sets are
tried again (R49, R44, R256, R260). -/
def afterExit (c b : Nat) : Prog :=
  .read fun s =>
    match s.block? c b with
    | none => .done
    | some blk =>
      Prog.all [
        settlePend c b,
        onBlock c b fun x => x.tryRegang (s.isExdin blk.grid),
        onBlock c b fun x => { x with gangs := x.gangs.filter fun e => !(x.members e.1).isEmpty },
        Prog.each (List.range blk.nbr) fun i => tryRelease c b ((blk.borg.toNat + i) % 64),
        tryPhase c b, tryGsync blk.grid]

/-! ## Condition monitors (R261 to R263) -/

/-- Fixes the deadline of this instruction's wait, unless an earlier issue has (R262, R267). -/
def U.setDue (u : U) (t : Nat) : Prog :=
  Prog.when u.due.isNone (onGang u.c u.b u.g fun x => { x with dues := (u.pc, u.dueKey, t) :: x.dues })

/-- A `WAITC` fixes its deadline as it first issues (R262). -/
def U.waitcDue (u : U) (f : XForm) (s : State) : Prog :=
  Prog.when (f.c.toNat != 0xFF && !u.part.isEmpty) (u.setDue (s.sys.time + (u.sf f.c).toNat))

/-- R262: `WAITC` on its operands. -/
def semWaitc (f : XForm) : Sem := fun u s =>
  u.need [(f.a, 64), (f.b, 64), (f.c, 64)] <| u.once <| Issue.waiting (u.waitcDue f s) <|
    let wide := f.fld 2 11 ≥ 2
    let signed := f.fld 1 11 == 1
    let w := if wide then 64 else 32
    let va := u.sf f.a
    let low := u.part.headD 0
    u.cleared s .global .rd (fun _ => true) (u.part.map fun i => { lane := i, ea := va.toNat, size := w / 8 }) <|
      match s.locate u.grid u.ctx va with
      | none => .wait (.filling va) .done
      | some (_, l) =>
        let read := mergeRead (dieOf u.c) l (w / 8)
        let value := leNat (seeBytes (read.run s) u.c u.b (u.thr low) false l (w / 8))
        let ok := cmpInt (f.fld 3 13) (intVal signed w value) (intVal signed w ((u.sf f.b).toNat % 2 ^ w))
        let finish := fun r => Issue.commit
          ((Prog.all [read, u.release, catchUp (dieOf u.c), u.putPred (f.d.toNat % 8) (u.part.map fun i => (i, r))]))
        if ok then finish true
        else
          let wait := Wait.waitc l.sp l.a w (f.fld 3 13) signed (u.sf f.b)
          let due := match u.due with
            | some t => some t
            | none => if f.c.toNat = 0xFF then none else some (s.sys.time + (u.sf f.c).toNat)
          match due with
          | some t => if t < s.sys.time then finish false else .wait wait (read.andThen u.release)
          | none => .wait wait (read.andThen u.release)

/-! ## Quiescent points (R265, R400) -/

/-- Invalidation requests of the context that the core has not acknowledged. -/
def Context.pendingInv (x : Context) (c : Nat) : Bool := x.invs.any fun r => r.owed.contains c

/-- Nothing that the slices `ms` of a block issued is outstanding, its stores apart: neither loads nor engine operations. -/
def State.quietOps (s : State) (c b : Nat) (ms : List Nat) : Bool :=
  let k := s.core c
  let q := s.cluster (clusterOf c)
  let mine := fun (m : BitVec 16) => ms.any m.getLsbD
  (k.loads.all fun p => !(p.blk == b && p.meets ms))
    && (match k.blocks.get? b with | some x => x.cq.ops.all fun o => !mine o.slices | none => true)
    && (k.gathers.all fun g => !(g.blk == b && mine g.slices))
    && (q.wloads.all fun w => !(w.core == c && w.blk == b && mine w.slices))
    && (q.streams.all fun w => !(w.core == c && w.blk == b && mine w.slices))

/-- A thread of the slices `ms`: a lane of theirs, or a VLIW thread whose quarter one of them lies in. -/
def thrIn (ms : List Nat) (t : Nat) : Bool := if t < 64 then ms.contains (t / 4) else ms.any fun i => i / 4 == t - 64

/-- Nothing that the slices `ms` of a block issued is outstanding: neither loads, stores nor engine operations (R265). -/
def State.quiet (s : State) (c b : Nat) (ms : List Nat) : Bool :=
  s.quietOps c b ms && ((s.core c).sbuf.all fun e => !(e.blk == b && thrIn ms e.thr))
    && s.sys.stamped.all fun w => w.old.isSome || !(w.thr.1 == c && w.thr.2.1 == b && thrIn ms w.thr.2.2)

/-- The gang counts as having acknowledged every pending invalidation (R265). -/
def acknowledge (x c b g : Nat) : Prog :=
  let ack := fun (r : InvReq) =>
    if !r.owed.contains c || r.quiet.contains (c, b, g) then r else { r with quiet := r.quiet ++ [(c, b, g)] }
  .one (.ctx x fun t => { t with invs := t.invs.map ack })

/-- The oldest invalidations of a context that no core owes complete in order, once no copy of a saved block goes on over the former
mapping: INVDONE counts those that software requested, and page moves that waited for one are over (R370, R401). -/
def completeInvs (x : Nat) : Prog :=
  .read fun s =>
    match s.ctx? x with
    | none => .done
    | some ctx =>
      let still := ctx.saved.all fun v => v.blk.cq.ops.all (·.moved)
      let done := if still then ctx.invs.takeWhile fun r => r.owed.isEmpty else []
      let n := (done.filter (·.soft)).length
      let ended := fun (m : PageMove) => m.ctx == x && done.any fun r => m.inv == some r.num
      Prog.all [
        .one (.ctx x fun c => { c with invs := c.invs.drop done.length }),
        Prog.when (n != 0) (saveWrite x 72 (leBytes ((saveWord s ctx 72).toNat + n) 8)),
        .one (.sys fun y =>
          { y with
            moves := y.moves.filter fun m => !ended m
            vaults := (y.moves.filter fun m => ended m && !m.migr).foldl (fun t m =>
              t.modify (vaultOf m.oldFrame) fun v => { v with free := v.free + 1 }) y.vaults })]

/-- An invalidation of a range of a context begins: accesses may use the new entries from now on. A core without a block of
the context owes nothing (R399, R400). -/
def invalidate (x : Nat) (start len : W64) (soft : Bool) : Prog :=
  .read fun s =>
    match s.ctx? x with
    | none => .done
    | some ctx =>
      let owed := (s.cores.filter fun e => e.2.blocks.any fun b => b.2.ctx == x).map (·.1)
      Prog.all [
        .one (.ctx x fun c =>
          { c.dropTrans start.toNat len.toNat with
                   invSeq := c.invSeq + 1,
                   invs := c.invs ++ [{ num := c.invSeq + 1, soft, start, len, since := s.sys.time, owed, quiet := [] }] }),
        Prog.when soft (saveWrite x 64 (leBytes ((saveWord s ctx 64).toNat + 1) 8)),
        completeInvs x]

/-- R265; in a slot it acts behind the bundle, so the thread stays until its accesses and engine operations have completed. -/
def semQpoint (_f : XForm) : Sem := fun u s =>
  u.once <|
    if !u.ctx.pendingInv u.c then .commit .done
    else if u.slot.isNone && s.quietOps u.c u.b u.members then .commit (u.release.andThen (acknowledge u.blk.ctx u.c u.b u.g))
    else .stay (.qpoint true) u.release
def execQpoint (f : XForm) (s : State) : Host.Outcome State Fault Refusal := runX f (semQpoint f) s

end Sys2Proof.Machine
end

