-- ==== Sys2Proof/Machine/Control.lean ====
section
/-! DEFINITION. Control flow (02 R42 to R57; 08 R241 to R254, R266, R267): the divergence stack and its resolution, the
parting of gangs, branches, exits, the two modes, the loop stack, and the yielding instructions. -/

namespace Sys2Proof.Machine

/-! ## The divergence stack (R45 to R48) -/

/-- Entries of a divergence stack (R45). -/
def stackMax : Nat := 32

/-- R47: runs when a slice has no active lane. An Exdin region whose join entry every lane has left ends with it. -/
def Slice.resolve (x : Slice) : Slice :=
  go x.stack x.ex
where
  go : List DivEntry → List ExRegion → Slice
    | [], _ => { x with live := 0, active := 0, stack := [], ex := [] }
    | .path a m :: r, ex => if m = 0 then go r ex else { x with active := m, pc := a, stack := r, ex }
    | .join a e p :: r, ex =>
      if e = 0 then go r (ex.filter fun t => decide (t.depth < r.length))
      else if p = e then { x with active := e, pc := a, stack := r, ex }
      else { x with active := 0, stack := .join a e p :: r, ex }

/-- Adds parked lanes to the topmost join entry. -/
def parkOn (m : BitVec 4) : List DivEntry → List DivEntry
  | [] => []
  | .join a e p :: r => .join a e (p ||| m) :: r
  | .path a x :: r => .path a x :: parkOn m r

def hasJoin (l : List DivEntry) : Bool := l.any fun e => match e with | .join .. => true | .path .. => false

/-- R47: the active lanes park on the topmost join entry, and the stack is resolved. -/
def Slice.joinLanes (x : Slice) : Slice := { x with stack := parkOn x.active x.stack, active := 0 }.resolve

/-- R48: exiting lanes leave the active mask and every entry. -/
def Slice.drop (x : Slice) (m : BitVec 4) : Slice :=
  { x with
    live := x.live &&& ~~~m, active := x.active &&& ~~~m
    stack := x.stack.map fun e =>
      match e with
      | .join a e p => .join a (e &&& ~~~m) (p &&& ~~~m)
      | .path a k => .path a (k &&& ~~~m) }

/-- R249 on one slice: the lanes `m` exit; the others go on at `next`. -/
def Slice.exitLanes (x : Slice) (m : BitVec 4) (next : W64) : Slice :=
  let y := x.drop m
  if m ≠ 0 ∧ y.active = 0 then y.resolve else { y with pc := next }

/-! ## Parting (R43) -/

/-- Gives every distinct PC of a gang's live slices a gang of its own; the lowest slice's group keeps the gang. -/
def Block.part (b : Block) (g : Nat) : Block :=
  let ms := b.members g
  let pcOf := fun i => ((b.slice? i).map (·.pc)).getD 0
  match ms, b.gangs.get? g with
  | [], _ => b
  | _, none => b
  | m :: _, some x =>
    let pcs := (dedup (ms.map fun i => (pcOf i).toNat)).filter fun p => p != (pcOf m).toNat
    pcs.foldl (fun b p =>
      let id := b.nextGang
      let b := (ms.filter fun i => (pcOf i).toNat == p).foldl (fun b i => b.modSlice i fun y => { y with gang := id }) b
      { b with gangs := b.gangs.set id { x with pend := [] }, nextGang := id + 1 }) b

/-- The gang has issued; its slices stand where the instruction has left them, and it parts. -/
def U.moved (u : U) (f : Block → Block) : Issue :=
  .own (Prog.all [
    onBlock u.c u.b fun b => ((f b).modGang u.g Gang.issued).part u.g,
    settlePend u.c u.b])

/-! ## Branches (R243 to R248) -/

/-- The lanes of a slice among a list of block lanes, as a mask. -/
def sliceMask (i : Nat) (l : List Nat) : BitVec 4 := maskOf 4 ((l.filter fun j => j / 4 == i).map (· % 4))

/-- Where a slice with no active lane goes: with the lowest slice that has one (log 26). -/
def Block.follow (b : Block) (ms : List Nat) : Block :=
  match ms.find? fun i => match b.slice? i with | some x => x.active != 0 | none => false with
  | none => b
  | some lead =>
    let pc := ((b.slice? lead).map (·.pc)).getD 0
    ms.foldl (fun b i => b.modSlice i fun x => if x.active = 0 then { x with pc } else x) b

/-- A `BRA` of one slice (R244). -/
def Slice.bra (x : Slice) (take : BitVec 4) (target next : W64) : Slice :=
  if x.active = 0 then x
  else if take = x.active then { x with pc := target }
  else if take = 0 then { x with pc := next }
  else { x with stack := .path target take :: x.stack, active := x.active &&& ~~~take, pc := next }

/-- Whether a `BRA` pushes in a slice. -/
def Slice.braPushes (x : Slice) (take : BitVec 4) : Bool := take != 0 && take != x.active

/-- Slices of the unit by number. -/
def U.slicesOf (u : U) : List (Nat × Slice) := u.members.filterMap fun i => (u.blk.slice? i).map fun x => (i, x)

/-- Slices whose full stack stops a push (R45). -/
def U.stackFull (u : U) (pushes : Nat → Slice → Nat) : List Nat :=
  (u.slicesOf.filter fun e => decide (e.2.stack.length + pushes e.1 e.2 > stackMax)).map (·.1)

/-- ILLEGAL in a set of lanes. -/
def illegalIn (l : List Nat) : Issue := .trap { cause := cIllegal, recs := [{ cause := cIllegal, lanes := l }] }

/-- ILLEGAL in the active lanes of some slices, or of the gang where those have none. -/
def U.illegalAt (u : U) (ms : List Nat) : Issue := illegalIn (u.blk.activeLanes ms)

/-- R244: the lanes whose guard passes go to `target`; `first` is written before the gang parts. -/
def braOp (u : U) (target : W64) (first : Prog) : Issue :=
  match u.slot with
  | some _ => if u.part.isEmpty then .commit .done else .goto target first
  | none =>
    let full := u.stackFull fun i x => if x.braPushes (sliceMask i u.part) then 1 else 0
    if full ≠ [] then u.illegalAt full
    else
      match u.moved fun b =>
          (u.members.foldl (fun b i => b.modSlice i fun x => x.bra (sliceMask i u.part) target u.next) b).follow u.members with
      | .own p => .own (first.andThen p)
      | i => i

/-- R83: a B-format target. -/
def U.target (u : U) (f : BForm) : W64 := u.pc + f.off.signExtend 64 * 8

def semBra (f : BForm) : Sem := fun u _ => braOp u (u.target f) .done
def execBra (f : BForm) (s : State) : Host.Outcome State Fault Refusal := runB f (semBra f) s

/-- R245: every lane that branches writes the return address. -/
def semCall (f : BForm) : Sem := fun u _ =>
  u.need [(f.a, 64)] <| braOp u (u.target f) (u.putAll f.a 64 u.next.toNat)
def execCall (f : BForm) (s : State) : Host.Outcome State Fault Refusal := runB f (semCall f) s

/-- Groups of a slice's active lanes by target, ascending by lowest lane (R46): target and lanes. Lanes that fall through
are a group of their own, at `next` (R246). -/
def laneGroups (targets : List (Nat × Option W64)) (next : W64) : List (W64 × BitVec 4) :=
  let ts := targets.foldl (fun acc e => if acc.contains e.2 then acc else acc ++ [e.2]) []
  ts.map fun t => (t.getD next, maskOf 4 ((targets.filter fun e => e.2 == t).map fun e => e.1 % 4))

/-- A `BRX` of one slice (R246): the first group runs, and the others are pushed so that they later run in ascending
order. -/
def Slice.brx (x : Slice) (groups : List (W64 × BitVec 4)) : Slice :=
  match groups with
  | [] => x
  | (a, m) :: r => { x with pc := a, active := m, stack := (r.map fun e => DivEntry.path e.1 e.2) ++ x.stack }

/-- R246: `BRX` and `RET` on the lanes' targets. -/
def brxOp (u : U) (target : Nat → W64) : Issue :=
  let bad := u.part.filter fun i => bits 3 (target i) 0 != 0
  match bad with
  | i :: _ => .trap { cause := cMisaligned, recs := [{ cause := cMisaligned, addr := target i, lanes := bad }] }
  | [] =>
    match u.slot with
    | some _ => match u.part with | i :: _ => .goto (target i) .done | [] => .commit .done
    | none =>
      let groups := fun i (x : Slice) =>
        laneGroups ((maskLanes i x.active).map fun l => (l, if u.part.contains l then some (target l) else none)) u.next
      let full := u.stackFull fun i x => (groups i x).length - 1
      if full ≠ [] then u.illegalAt full
      else
        u.moved fun b =>
          (u.members.foldl (fun b i => b.modSlice i fun x => x.brx (groups i x)) b).follow u.members

def semBrx (f : XForm) : Sem := fun u _ => u.need [(f.a, 64)] <| brxOp u fun i => BitVec.ofNat 64 (u.rd i f.a 64)
def execBrx (f : XForm) (s : State) : Host.Outcome State Fault Refusal := runX f (semBrx f) s

def semRet (f : XForm) : Sem := fun u _ => u.need [(f.a, 64)] <| brxOp u fun i => BitVec.ofNat 64 (u.rd i f.a 64)
def execRet (f : XForm) (s : State) : Host.Outcome State Fault Refusal := runX f (semRet f) s

/-! ## Exit and reconvergence (R249, R250) -/

/-- R249. A thread's exit ends its sixteen lanes. A live slice that is left with no active lane goes with the others. -/
def exitOp (u : U) : Issue :=
  if u.slot.isSome then
    if u.part.isEmpty then .commit .done
    else
      .own ((onBlock u.c u.b fun b =>
        (u.members.foldl (fun b i => b.modSlice i Slice.kill) b).modGang u.g fun x => { x.issued with loops := [] }).andThen
        (afterExit u.c u.b))
  else
    match u.moved fun b =>
        (u.members.foldl (fun b i => b.modSlice i fun x => x.exitLanes (sliceMask i u.part) u.next) b).follow u.members with
    | .own p => .own (p.andThen (afterExit u.c u.b))
    | i => i

def semExit (_f : XForm) : Sem := fun u _ => exitOp u
def execExit (f : XForm) (s : State) : Host.Outcome State Fault Refusal := runX f (semExit f) s

/-- R250: a join entry in every slice. -/
def semRconv (f : BForm) : Sem := fun u _ =>
  if u.slot.isSome then u.illegal
  else
    let full := u.stackFull fun _ _ => 1
    if full ≠ [] then u.illegalAt full
    else
      .commit (onBlock u.c u.b fun b =>
        u.members.foldl (fun b i => b.modSlice i fun x => { x with stack := .join (u.target f) x.active 0 :: x.stack }) b)
def execRconv (f : BForm) (s : State) : Host.Outcome State Fault Refusal := runB f (semRconv f) s

/-- R47, R250. A slice with no active lane goes with the others. -/
def semJoin : Sem := fun u _ =>
  if u.slot.isSome then u.illegal
  else
    let bad := u.slicesOf.flatMap fun e => if e.2.active != 0 && !hasJoin e.2.stack then maskLanes e.1 e.2.active else []
    if bad ≠ [] then illegalIn bad
    else
      u.moved fun b =>
        (u.members.foldl (fun b i => b.modSlice i fun x => if x.active = 0 then x else x.joinLanes) b).follow u.members
def execJoin (s : State) : Host.Outcome State Fault Refusal := runSimt 8 Guard.always semJoin s

/-! ## The two modes (R54 to R57, R252) -/

/-- R54: the gang is one physical quarter, whole, live, active and converged, and its guard passes everywhere. -/
def U.mayCollapse (u : U) : Bool :=
  u.slot.isNone && !u.gang.vliw && u.members.length == 4 && u.members.headD 0 % 4 == 0
    && u.members == (List.range 4).map (u.members.headD 0 + ·)
    && u.part.length == 16
    && (u.slicesOf.all fun e => e.2.stack.isEmpty && e.2.ex.isEmpty && e.2.live == 0xF)

/-- Physical quarter of a unit's lowest slice. -/
def U.physQuarter (u : U) : Nat := u.blk.phys.getD (u.members.headD 0) 0 / 4

/-- Sets or clears a quarter's bit of the quarter mask (R52). -/
def Core.setQuarter (k : Core) (q : Nat) (on : Bool) : Core :=
  { k with qmask := if on then k.qmask ||| ((1 : BitVec 4) <<< q) else k.qmask &&& ~~~((1 : BitVec 4) <<< q) }

/-- R54: loads and stores of the lanes are performed before the thread takes their program orders over (R57, R334). Under a guard
that never passes the check of R54 is made all the same, as R252 says of `MODE.simt`: the model's choice (log 79). -/
def semModeVliw (f : BForm) : Sem := fun u _ =>
  if !u.feat 0 featVliw then u.illegal
  else if !u.mayCollapse then u.trap cMode
  else
    .goto (u.target f) <| Prog.all [
      u.release,
      .one (.core u.c fun k => (retireLoads u.b u.members k).setQuarter u.physQuarter true),
      onGang u.c u.b u.g fun x => { x with vliw := true, loops := [] }]
def execModeVliw (f : BForm) (s : State) : Host.Outcome State Fault Refusal := runB f (semModeVliw f) s

/-- R55, R56, R252. -/
def semModeSimt (f : BForm) : Sem := fun u _ =>
  if !u.feat 0 featVliw then u.illegal
  else if u.slot != some 0 || !u.gang.loops.isEmpty then u.trap cMode
  else if u.part.isEmpty then .commit .done
  else
    .goto (u.target f) <| Prog.all [
      bindLate u.c fun p => p.blk == u.b,
      joinThread u.c u.b (64 + u.members.headD 0 / 4),
      .one (.core u.c fun k => (retireLoads u.b u.members k).setQuarter u.physQuarter false),
      onBlock u.c u.b fun b =>
        (u.members.foldl (fun b i => b.modSlice i fun x => { x with active := x.live, stack := [] }) b).modGang u.g
          fun x => { x with vliw := false }]
def execModeSimt (f : BForm) (s : State) : Host.Outcome State Fault Refusal := runB f (semModeSimt f) s

/-! ## The loop stack (R61, R253, R254) -/

/-- Levels of a loop stack (R61). -/
def loopMax : Nat := 8

/-- R253; in SIMT code the word traps ILLEGAL. -/
def semLoop (f : BForm) : Sem := fun u _ =>
  match u.slot with
  | none => u.illegal
  | some _ =>
    if !u.feat 0 featVliw then u.illegal
    else
      u.need [(f.a, 32)] <|
        let stop := u.target f
        let n := u.rd1 f.a 32
        if decide (f.off.toInt ≤ 0) then u.illegal
        else if n = 0 then .goto stop .done
        else if u.gang.loops.length ≥ loopMax then u.illegal
        else .goto u.next (onGang u.c u.b u.g fun x =>
          { x with loops := { start := u.next, stop, count := BitVec.ofNat 32 n } :: x.loops })
def execLoop (f : BForm) (s : State) : Host.Outcome State Fault Refusal := runB f (semLoop f) s

/-- R254. -/
def semLend (_f : XForm) : Sem := fun u _ =>
  match u.slot with
  | none => u.illegal
  | some _ =>
    if !u.feat 0 featVliw then u.illegal
    else if u.part.isEmpty then .commit .done
    else
      match u.gang.loops with
      | [] => u.illegal
      | l :: r => .goto l.stop (onGang u.c u.b u.g fun x => { x with loops := r })
def execLend (f : XForm) (s : State) : Host.Outcome State Fault Refusal := runX f (semLend f) s

/-! ## Yielding and sleeping (R266, R267) -/

/-- R266: the gang is not ready in the next issue slot, and goes behind the others in the rotation. -/
def semYield (_f : XForm) : Sem := fun u _ =>
  u.once (.commit ((onGang u.c u.b u.g fun x => { x with skip := true }).andThen
    (.one (.core u.c fun k => { k with rot := (k.rot.filter fun e => e != (u.b, u.g)) ++ [(u.b, u.g)] }))))
def execYield (f : XForm) (s : State) : Host.Outcome State Fault Refusal := runX f (semYield f) s

/-- R267: a deadline fixed at the first issue. -/
def semSleep (f : XForm) : Sem := fun u s =>
  u.need [(f.a, 64)] <| u.once <|
    let n := (u.sf f.a).toNat + f.imm.toNat
    if n = 0 then .commit .done
    else
      let t := u.due.getD (s.sys.time + n)
      .stay (.sleep t true) (u.setDue t)
def execSleep (f : XForm) (s : State) : Host.Outcome State Fault Refusal := runX f (semSleep f) s

end Sys2Proof.Machine
end

