-- ==== Sys2Proof/Machine/Engine.lean ====
section
/-! DEFINITION. The transfer unit and the Spillway (09 R271 to R279, R284 to R287), and the completions of engine
operations and memory accesses: gathers (R188), weight loads (R232), streams (R235), copies (R276), loads and stores
(R183), stamped writes (R344). -/

namespace Sys2Proof.Machine

/-! ## Copy queues (R271) -/

/-- Queue `q` of a core: 0 the loader hart's, 1 the storer hart's, n + 2 that of block n. -/
def State.queueOf (s : State) (c q : Nat) : CopyQueue :=
  match q with
  | 0 => (s.core c).loader.cq
  | 1 => (s.core c).storer.cq
  | b + 2 => match s.block? c b with | some x => x.cq | none => {}

def onQueue (c q : Nat) (f : CopyQueue → CopyQueue) : Prog :=
  match q with
  | 0 => .one (.core c fun k => { k with loader := { k.loader with cq := f k.loader.cq } })
  | 1 => .one (.core c fun k => { k with storer := { k.storer with cq := f k.storer.cq } })
  | b + 2 => onBlock c b fun x => { x with cq := f x.cq }

/-- The unit's queue. -/
def U.qkey (u : U) : Nat := match u.hart with | some st => if st then 1 else 0 | none => u.b + 2

/-- Entries of a copy queue. -/
def queueMax : Nat := 16

/-- R271: the unit holds the block's copy-right slice. -/
def U.copyRight (u : U) : Bool := u.hart.isSome || u.members.contains u.blk.crs

/-! ## Copies (R272 to R275) -/

/-- Offsets of a pattern's runs in units of bytes, in the order of R275. -/
def runOffsets (n1 n2 n3 s1 s2 s3 : Nat) : List Nat :=
  forN n3 fun i3 => forN n2 fun i2 => forN n1 fun i1 => [16 * (i1 * s1 + i2 * s2 + i3 * s3)]

/-- Extent of the destination under ALLOC (R273). -/
def copyExtent (p : Nat → Nat) : Nat :=
  p 1 + 16 * ((p 2 - 1) * p 8 + (p 3 - 1) * p 9 + (p 4 - 1) * p 10)

/-- Total bytes of a copy. -/
def copyTotal (p : Nat → Nat) : Nat := p 1 * p 2 * p 3 * p 4

/-- Bits of ACT (R272). -/
def actBar (p : Nat → Nat) : Bool := p 12 % 2 == 1
def actPost (p : Nat → Nat) : Bool := p 12 / 2 % 2 == 1
def actMail (p : Nat → Nat) : Bool := p 12 / 4 % 2 == 1

/-- Spaces of CTL. -/
def srcSpace (p : Nat → Nat) : Nat := p 0 % 4
def dstSpace (p : Nat → Nat) : Nat := p 0 / 4 % 4

/-- Physical barrier of a copy: through `%bbase` for a gang, as it stands for a hart (R272, R281). -/
def U.copyBar (u : U) (p : Nat → Nat) : Nat := if u.hart.isSome then p 13 % 64 else u.blk.barOf (p 13)

/-- R273. A mail action needs the MBOX feature, whose part it uses (R327; DESIGN CHOICE: R328 names `MBSEND` alone, log 80). -/
def copyBad (u : U) (p : Nat → Nat) (alloc con : Bool) (count : Nat) : Bool :=
  [1, 2, 3, 4].any (fun i => p i == 0 || decide (p i > 32767))
    || [5, 6, 7, 8, 9, 10].any (fun i => decide (p i > 32767))
    || p 11 != 0 || decide (p 0 ≥ 64) || decide (p 12 ≥ 8)
    || (p 0 / 16 % 2 == 1 && srcSpace p != 1) || (p 0 / 32 % 2 == 1 && dstSpace p != 1)
    || (con && srcSpace p != 3) || ((alloc || actPost p) && dstSpace p != 3)
    || decide (p 13 > 63) || decide (p 14 > 31) || decide (p 15 > 4095)
    || (!actBar p && p 13 != 0) || (!actPost p && p 14 != 0) || (!actMail p && p 15 != 0)
    || (actBar p && u.hart.isNone && !u.blk.ownsBar (u.copyBar p))
    || (actPost p && (u.grid.flume? (p 14)).isNone)
    || (actMail p && !u.feat 0 featMbox)
    || decide (copyTotal p > 16777215)
    || (alloc && (count == 0 || decide (count > 4095) || decide (copyExtent p > 2 ^ 20)))

/-- The base of a side in its space. -/
def copyBase (sp base : Nat) : Nat := if sp = 1 ∨ sp = 2 then base % 2 ^ 32 else base

/-- Ranges of a side's runs: exact offsets in the space, or in the tile. -/
def copySpans (sp base n : Nat) (offs : List Nat) : List Span :=
  let b : Int := if sp = 3 then (base / 2 ^ 32 : Nat) else copyBase sp base
  offs.map fun o => { a := b + (o : Nat), n }

/-- The checks of one side (R274 step 3). -/
def U.copySide (u : U) (s : State) (sp base n : Nat) (offs : List Nat) (use : TUse) (write : Bool) (k : Issue) : Issue :=
  let l := copySpans sp base n offs
  match sp with
  | 0 => u.checkSpans s 0 0 write l k
  | 1 => u.checkSpans s 1 u.blk.scrLen write l k
  | 2 => u.checkSpans s 2 (u.limit s .clus) write l k
  | _ => u.tile s (base % 2 ^ 32) use fun t => u.checkSpans s 3 (4096 * t.size) write l k

/-- The queued entry of a copy with its regions. -/
def U.copyEntry (u : U) (id : Nat) (p : Nat → Nat) (con : Bool) (src dst : Region) (dbase : Nat) : CopyOp :=
  { id, n := [p 1, p 2, p 3, p 4], ss := [p 5, p 6, p 7], ds := [p 8, p 9, p 10], src, dst,
    dbase := BitVec.ofNat 64 dbase, con, post := if actPost p then some (p 14) else none,
    bar := if actBar p then some (u.copyBar p) else none, mail := if actMail p then some (p 15) else none,
    total := copyTotal p, pc := u.pc, slices := maskOf 16 u.members, ctx := u.blk.ctx, grid := u.blk.grid, moved := false,
    org := if u.hart.isSome then {} else u.origin }

/-- Queues a copy whose checks have passed: what precedes it is performed, a tile source counts as read, PEND grows
(R274). -/
def queueCopy (u : U) (s : State) (p : Nat → Nat) (con : Bool) (sbase dbase : Nat) (dstOffs : List Nat) : Prog :=
  let srcOffs := runOffsets (p 2) (p 3) (p 4) (p 5) (p 6) (p 7)
  let ctl : EngCtl := { sparse := false, space := srcSpace p, consume := con, view := false }
  Prog.all [
    Prog.when u.hart.isNone u.release,
    u.engTake ctl (sbase % 2 ^ 32),
    Prog.when (actBar p) (addPend u.c (u.copyBar p) (copyTotal p)),
    .read fun t =>
      let from_ := copySpans (srcSpace p) sbase (p 1) srcOffs
      let into := copySpans (dstSpace p) dbase (p 1) dstOffs
      let src := u.region s (srcSpace p) (copyBase (srcSpace p) sbase) (p 0 / 16 % 2 == 1) from_
      let dst := u.region t (dstSpace p) (copyBase (dstSpace p) dbase) (p 0 / 32 % 2 == 1) into
      Prog.all [u.engFill s (srcSpace p) false false from_, u.engFill s (dstSpace p) false true into,
       u.engViews (srcSpace p) 0 (p 0 / 16 % 2 == 1) false from_, u.engViews (dstSpace p) 0 (p 0 / 32 % 2 == 1) true into,
       (onQueue u.c u.qkey fun q => { q with ops := q.ops ++ [u.copyEntry (t.core u.c).nextId p con src dst dbase] }).andThen
        (.one (.core u.c fun k => { k with nextId := k.nextId + 1 }))]]

/-- `CPY` and `HCPY` on resolved fields (R274): source base, destination base or none under ALLOC, partition, scope and
read count; `write` takes the handle of an allocated tile. -/
def copyOp (u : U) (s : State) (p : Nat → Nat) (sbase dbase : Nat) (alloc : Bool) (con : Bool) (part : Nat) (ker : Bool)
    (count : Nat) (shapes : Prog) (write : Nat → Prog) : Issue :=
  let k := clusterOf u.c
  let so := runOffsets (p 2) (p 3) (p 4) (p 5) (p 6) (p 7)
  let dof := runOffsets (p 2) (p 3) (p 4) (p 8) (p 9) (p 10)
  let q := s.queueOf u.c u.qkey
  let size := (copyExtent p + 4095) / 4096
  let hart := u.hart.isSome
  if !u.copyRight then u.trap cCopyRight
  else if copyBad u p alloc con count then u.trap cIllegal
  else
    u.copySide s (srcSpace p) sbase (p 1) so (if con then .consume else .read) false <|
      (if alloc then id else u.copySide s (dstSpace p) dbase (p 1) dof .write true) <|
        let dpart := if alloc then part else hPart (dbase % 2 ^ 32)
        if actPost p && some dpart != (u.grid.flume? (p 14)).map (·.1) then u.trap cTileHandle
        else if q.ops.length ≥ queueMax then
          if q.strict then u.trap cQueueFull
          else
            .wait .cpyRoom (Prog.when (u.gang.wait != .cpyRoom)
              (onQueue u.c u.qkey fun q => { q with stalls := if q.stalls = 0xFFFF then q.stalls else q.stalls + 1 }))
        else
          match (if alloc then (u.parts s)[part]? else some { units := 0 }) with
          | none => u.trap cIllegal
          | some r =>
            if alloc && allocBad r size count then u.trap cIllegal
            else if alloc && !r.mayGrant hart u.c u.b u.g size then
              .wait .cpyAlloc (onPart k part fun r => r.enqueue
                { hart, core := u.c, key := u.b, gang := u.g, copy := true, size, count, ker, dst := 0, slot := u.slot })
            else if actBar p && decide (((s.core u.c).bar (u.copyBar p)).pend + copyTotal p > pendMax) then
              .wait .cpyPend .done
            else if alloc then
              .commit <| Prog.all [shapes, onPart k part fun r => r.unqueue hart u.c u.b u.g,
                allocTile k part u.blk.ctx size count ker u.owner u.blk.agent fun h =>
                  (write h).andThen (queueCopy u s p con sbase h dof)]
            else .commit (shapes.andThen (queueCopy u s p con sbase dbase dof))

/-- A block's literal ACT asks for a message, and the context has no mailboxes (R96 step 4, log 80). -/
def U.mailBad (u : U) (blk : Option ParamBlock) : Bool :=
  match blk with
  | some b => !(b.field 12).getLsbD 15 && (b.field 12).getLsbD 2 && !u.feat 0 featMbox
  | none => false

def semCpy (f : XForm) (blk : Option ParamBlock) : Sem := fun u s =>
  if u.mailBad blk then u.illegal
  else u.need ((f.a, 64) :: (f.b, 64) :: blkRegs blk) <|
    u.withShape 2 f blk fun p shapes =>
      u.once <| copyOp u s p (u.sf f.a).toNat (u.sf f.b).toNat false (f.fld 1 12 == 1) 0 false 0 shapes fun _ => .done
def execCpy (f : XForm) (blk : Option ParamBlock) (s : State) : Host.Outcome State Fault Refusal :=
  runSimt (blkLen blk) f.g (semCpy f blk) s

/-- R269: a PART at or above NP traps at decode. The read count is read from the low 32 bits of its s-register (log 73). -/
def semCpyAlloc (f : XForm) (blk : Option ParamBlock) : Sem := fun u s =>
  if u.mailBad blk || decide (f.fld 3 9 ≥ (u.parts s).length) then u.illegal
  else
    u.need ((f.d, 64) :: (f.a, 64) :: (f.c, 64) :: blkRegs blk) <|
      u.withShape 2 f blk fun p shapes =>
        u.once <| copyOp u s p (u.sf f.a).toNat 0 true false (f.fld 3 9) (f.fld 1 8 == 1) ((u.sf f.c).toNat % 2 ^ 32) shapes
          fun h => u.putAll f.d 64 h
def execCpyAlloc (f : XForm) (blk : Option ParamBlock) (s : State) : Host.Outcome State Fault Refusal :=
  runSimt (blkLen blk) f.g (semCpyAlloc f blk) s

/-- R278. -/
def semCpyw (f : XForm) : Sem := fun u s =>
  u.once <|
    if !u.copyRight then u.trap cCopyRight
    else if (s.queueOf u.c u.qkey).ops.length ≤ f.fld 5 0 then .commit .done
    else .wait .cpyw .done
def execCpyw (f : XForm) (s : State) : Host.Outcome State Fault Refusal := runX f (semCpyw f) s

/-- R279. -/
def cpyqVal (q : CopyQueue) : Nat := 2 ^ 16 * q.stalls.toNat + (if q.strict then 32 else 0) + q.ops.length

def semCpyq (f : XForm) : Sem := fun u s =>
  u.need [(f.d, 32)] <| u.once <|
    if !u.copyRight then u.trap cCopyRight
    else .commit (u.putAll f.d 32 (cpyqVal (s.queueOf u.c u.qkey)))
def execCpyq (f : XForm) (s : State) : Host.Outcome State Fault Refusal := runX f (semCpyq f) s

/-! ## Causes found after issue (R386) -/

/-- Counter `i` of R422 rises by `n` and saturates: 0 and 1 SRAM corrected and uncorrectable, 2 and 3 DRAM, 4 and 5 host- and
peer-port retries, 6 peer ports gone down. -/
def countError (i n : Nat) : Prog :=
  .one (.sys fun y => { y with errors := modAt y.errors i fun k => min (2 ^ 64 - 1) (k + n) })

/-- An uncorrectable error in DRAM (1) or SRAM (2) is counted. -/
def countEcc (kind : Nat) : Prog :=
  if kind = 0 then .done else countError (if kind = 2 then 1 else 3) 1

/-- A cause to be reported at the next boundary of the gang that holds the lowest of the slices still live, or in the event
log. -/
def raiseLater (c b : Nat) (p : Pend) : Prog :=
  (onBlock c b fun x => { x with pend := x.pend ++ [p] }).andThen (settlePend c b)

/-- What an engine operation's completion may let go on: barriers apart, a superstep of the block's grid (R260). -/
def engineStep (c b : Nat) : Prog :=
  .read fun s => match s.block? c b with | some x => tryGsync x.grid | none => .done

/-! ## Completions of engine operations -/

/-- An engine of core `c` reads what stands in memory, and writes behind what its die has sent (R277, R344). -/
def engineSync (c : Nat) : Prog := (catchUp (dieOf c)).andThen (settleDie (dieOf c))

/-- Source and destination byte of every byte of a copy, in the order of R275. -/
def CopyOp.bytes (o : CopyOp) : List (Loc × Loc) :=
  let n := fun i => o.n.getD i 0
  let so := runOffsets (n 1) (n 2) (n 3) (o.ss.getD 0 0) (o.ss.getD 1 0) (o.ss.getD 2 0)
  let dof := runOffsets (n 1) (n 2) (n 3) (o.ds.getD 0 0) (o.ds.getD 1 0) (o.ds.getD 2 0)
  (so.zip dof).flatMap fun e => (List.range (n 0)).map fun i => (o.src.loc (e.1 + i), o.dst.loc (e.2 + i))

/-- The address of byte `i` of the source, in the order of R275; of a tile, its offset there. -/
def CopyOp.srcAddr (o : CopyOp) (i : Nat) : W64 :=
  let n := fun j => o.n.getD j 0
  let so := runOffsets (n 1) (n 2) (n 3) (o.ss.getD 0 0) (o.ss.getD 1 0) (o.ss.getD 2 0)
  BitVec.ofNat 64 ((if o.src.sp = 3 then o.src.base / 2 ^ 32 else o.src.base) + so.getD (i / n 0) 0 + i % n 0)

/-- The address of byte `i` of the destination. -/
def CopyOp.dstAddr (o : CopyOp) (i : Nat) : W64 :=
  let n := fun j => o.n.getD j 0
  let dof := runOffsets (n 1) (n 2) (n 3) (o.ds.getD 0 0) (o.ds.getD 1 0) (o.ds.getD 2 0)
  BitVec.ofNat 64 (o.dst.base + dof.getD (i / n 0) 0 + i % n 0)

/-- The place behind a peer port of which a region of global memory has a part, with the flits of `n` bytes (log 57). -/
def Region.flits (r : Region) (n : Nat) : List (Loc × Nat) :=
  match (if r.sp = 0 then r.pages.find? fun e => e.2.peer.isSome else none) with
  | some e => [(e.2, n / 240 + 1)]
  | none => []

/-- The flits of a copy's accesses to peers, by port (R417). -/
def CopyOp.flits (o : CopyOp) : List (Nat × Nat) := peerFlits (o.src.flits o.total ++ o.dst.flits o.total)

/-- Moves the bytes, but for one that met an uncorrectable error (R275, R277); those of global memory leave die `d`. DESIGN
CHOICE: they move in the order of R275's loops, so that the last write of a byte stands, and a byte already written is read as
written (R275 allows any order, log 82). -/
def CopyOp.move (o : CopyOp) (d : Nat) (ecc : Option Nat) : Prog :=
  Prog.each o.bytes.zipIdx fun e =>
    if ecc = some e.2 then .done
    else (tickClock d e.1.2 (o.dstAddr e.2)).andThen (.read fun s => .one (.write e.1.2 [s.readLoc e.1.1]))

/-- The tile paths give up what a copy has written to global memory (R340). -/
def CopyOp.dropTiles (o : CopyOp) : Prog :=
  let n := fun j => o.n.getD j 0
  Prog.when (o.dst.sp == 0) <| Prog.each (List.range (n 1 * n 2 * n 3)) fun i => Machine.dropTiles o.ctx (o.dstAddr (i * n 0)).toNat (n 0)

/-- The block a queue belongs to. -/
def queueBlock (q : Nat) : Option Nat := if q < 2 then none else some (q - 2)

/-- A cause of a copy found after issue; a hart's goes to the event log (log 27). -/
def copyCause (c q : Nat) (o : CopyOp) (cause : Nat) (addr : W64) : Prog :=
  match queueBlock q with
  | some b => .read fun s =>
      raiseLater c b { cause := BitVec.ofNat 8 cause, pc := o.pc, addr, lanes := 0, slices := o.slices, org := o.org, time := s.sys.time }
  | none => .read fun s =>
      logRecord o.ctx (recBytes o.pc addr 0 0 0 0 0 cause (flagBit true 4 + flagBit true 7) 0xFF o.ctx 0 0 s.sys.time)

/-- R276 step 1: the tile is sealed, unless it is, and posted; a full flume takes nothing (R277). -/
def copyPost (c q : Nat) (o : CopyOp) (fl : Nat) : Prog :=
  let k := clusterOf c
  let grid := o.grid
  .read fun s =>
    match resolve (partsOf s k grid) o.dst.h, (s.grid? grid).bind fun g => g.flume? fl with
    | .tile t, some (part, ncur) =>
      (Prog.when (t.st == .writing) ((Prog.one (.clus k fun q => q.dropTile o.ctx)).andThen (sealTile k o.dst.h))).andThen <|
        let f := takeFlume ((s.core c).flume fl) grid part ncur
        if f.full then copyCause c q o cFlumeOverflow 0
        else .one (.core c fun k => { k with flumes := k.flumes.set fl (f.post o.dst.h) })
    | _, _ => .done

/-- A copy of a hart has completed: it wakes the hart, if the grid's hart still runs (R283). -/
def Hart.copyDone (h : Hart) (gid : Nat) : Hart := if h.run && h.grid == gid then { h with wake := h.wake ||| 2 } else h

/-- Steps 4 and 5 of R276: the entry is freed, and a tile source is no longer read. -/
def freeCopy (c q : Nat) (o : CopyOp) : Prog :=
  Prog.all [onQueue c q fun x => { x with ops := x.ops.filter fun e => e.id != o.id },
    engDone (clusterOf c) o.src,
    Prog.when (q == 0) (.one (.core c fun k => { k with loader := k.loader.copyDone o.grid })),
    Prog.when (q == 1) (.one (.core c fun k => { k with storer := k.storer.copyDone o.grid })),
    match queueBlock q with | some b => engineStep c b | none => .done]

/-- R276 for the oldest copy of a queue; a mail action leaves the entry held until it is delivered. One that reaches a peer waits for
credit (R417). -/
def completeCopy (c q : Nat) (ecc : Option Nat) : Prog :=
  .read fun s =>
    match (s.queueOf c q).ops with
    | [] => .done
    | o :: _ =>
      if o.moved || !s.portsOpen o.flits then .done
      else
        let handle := if o.dst.sp = 3 then o.dst.h else 0
        Prog.all [
          spendReq o.flits, engineSync c, o.move (dieOf c) ecc, o.dropTiles,
          match ecc with
          | some i => copyCause c q o cEcc (o.srcAddr i)
          | none => .done,
          match o.post with | some fl => copyPost c q o fl | none => .done,
          match o.bar with
          | some bar =>
            match queueBlock q with
            | some b => subPend c b bar o.total
            | none => .read fun s =>
                -- A hart's barrier is a physical one: the block that owns it tries its release.
                match (s.core c).blocks.find? fun e => e.2.ownsBar bar with
                | some e => subPend c e.1 bar o.total
                | none => .one (.core c fun k => k.setBar bar { k.bar bar with pend := (k.bar bar).pend - o.total })
          | none => .done,
          match o.mail with
          | some m =>
            (onQueue c q fun x => { x with ops := x.ops.map fun e => if e.id = o.id then { e with moved := true } else e }).andThen
              (.one (.sys fun y => { y with deliveries := y.deliveries ++ [{
                mbx := m, kind := 1, payload := leBytes o.dbase.toNat 8 ++ leBytes o.total 4 ++ leBytes handle 4,
                ctx := o.ctx, src := .copy c q o.id }] }))
          | none => freeCopy c q o]

/-- One element of a gather or scatter is moved, and PEND falls by its size (R188, R189). An element of a `SCAT` waits for
lower lanes that name bytes of its own. -/
def moveElement (c id lane : Nat) (ecc : Bool) : Prog :=
  .read fun s =>
    match (s.core c).gathers.find? fun g => g.id == id with
    | none => .done
    | some g =>
      match g.elems.find? fun e => e.lane == lane with
      | none => .done
      | some e =>
        let blocked := g.scat && g.elems.any fun f => decide (f.lane < e.lane) && overlap f.glob g.size e.glob g.size
        let flits := peerFlits [(e.glob, 1)]
        if blocked || !s.portsOpen flits then .done
        else
          Prog.all [
            spendReq flits, engineSync c,
            (if ecc then
              raiseLater c g.blk
                { cause := BitVec.ofNat 8 cEcc, pc := g.pc, addr := e.va, lanes := maskOf 64 [lane], slices := g.slices, org := g.org,
                  time := s.sys.time }
            else if g.scat then (writeNow (dieOf c) e.glob e.va (readRuns s e.scr)).andThen <| .read fun t =>
              match t.block? c g.blk with | some b => dropTiles b.ctx e.va.toNat g.size | none => .done
            else .read fun t => writeRuns e.scr (t.readBytes e.glob g.size)),
            .one (.core c fun k =>
              let left := k.gathers.map fun x =>
                if x.id = id then { x with elems := x.elems.filter fun f => f.lane != lane } else x
              { k with gathers := left.filter fun x => !x.elems.isEmpty }),
            subPend c g.blk g.bar g.size, engineStep c g.blk]

/-- GATHER_ELEMENT: arguments core, operation, lane, and an uncorrectable error (0 none, 1 in DRAM, 2 in SRAM). -/
def gatherElement (s : State) : Prog :=
  (countEcc (s.arg 3)).andThen (moveElement (s.arg 0) (s.arg 1) (s.arg 2) (s.arg 3 != 0))
def execGatherElement (s : State) : Host.Outcome State Fault Refusal := runEvent gatherElement s

/-- Planes of a pre-empted context go to a record of it, one for each grid, when another context loads the array: those of
a grid with blocks saved, whose context has no block left on the cluster (R231). `x` is the context that loads. -/
def keepPlanes (k x : Nat) : Prog :=
  .read fun s =>
    let q := s.cluster k
    let here := fun (y : Nat) => s.cores.any fun e => clusterOf e.1 == k && e.2.blocks.any fun b => b.2.ctx == y
    let out := fun (p : Plane) => p.valid && p.ctx != x && !here p.ctx && !(s.savedOf p.grid).isEmpty
    Prog.each (dedup (([q.active, q.shadow].filter out).map (·.ctx))) fun y =>
      Prog.each (dedup (([q.active, q.shadow].filter fun p => out p && p.ctx == y).map (·.grid))) fun g =>
        let mine := fun (p : Plane) => out p && p.ctx == y && p.grid == g
        let r : ClusterRec :=
          { grid := g, clus := k, parts := [], cist := [], active := if mine q.active then some q.active else none
            shadow := if mine q.shadow then some q.shadow else none }
        Prog.all [
          .read fun t => .one (.ctx y fun c => { c with clusRecs := c.clusRecs.set t.sys.nextId r }),
          .one (.sys fun y => { y with nextId := y.nextId + 1 }),
          .one (.clus k fun q => { q with
            active := if mine q.active then {} else q.active
            shadow := if mine q.shadow then {} else q.shadow })]

/-- An uncorrectable error in what an engine operation of the array has read, at an address: 0 none, 1 in DRAM, 2 in SRAM
(R423). -/
def engineEcc (c b : Nat) (pc : W64) (slices : BitVec 16) (org : Origin) (ecc : Nat × W64) : Prog :=
  Prog.when (ecc.1 != 0) <| (countEcc ecc.1).andThen <| .read fun s =>
    raiseLater c b { cause := BitVec.ofNat 8 cEcc, pc, addr := ecc.2, lanes := 0, slices, org, time := s.sys.time }

/-- The oldest weight load of a cluster completes (R232). Bytes in error are loaded as they stand (log 82). -/
def completeWload (k : Nat) (ecc : Nat × W64 := (0, 0)) : Prog :=
  (engineSync (4 * k)).andThen <| .read fun s =>
    match (s.cluster k).wloads with
    | [] => .done
    | w :: r =>
      let flits := peerFlits (w.src.flits 0)
      Prog.when (s.portsOpen flits) <| Prog.all [spendReq flits, engineEcc w.core w.blk w.pc w.slices w.org ecc, keepPlanes k w.ctx,
        .one (.clus k fun q => { q with wloads := r, shadow := w.plane s }), engDone k w.src,
        engineStep w.core w.blk]

/-- WEIGHT_LOAD_COMPLETION: arguments cluster, an uncorrectable error (0 none, 1 in DRAM, 2 in SRAM) and its address. -/
def weightLoadCompletion (s : State) : Prog := completeWload (s.arg 0) (s.arg 1, BitVec.ofNat 64 (s.arg 2))
def execWeightLoadCompletion (s : State) : Host.Outcome State Fault Refusal := runEvent weightLoadCompletion s

/-- The oldest stream of a cluster completes (R235, R236). Bytes in error are read as they stand (log 82). -/
def completeStream (k : Nat) (ecc : Nat × W64 := (0, 0)) : Prog :=
  (engineSync (4 * k)).andThen <| .read fun s =>
    match (s.cluster k).streams with
    | [] => .done
    | o :: r =>
      let flits := peerFlits (o.src.flits 0)
      Prog.when (s.portsOpen flits) <| Prog.all [spendReq flits, engineEcc o.core o.blk o.pc o.slices o.org ecc,
        o.rowsProg o.plane.ctx, .one (.clus k fun q => { q with streams := r }), engDone k o.src,
        engineStep o.core o.blk]

/-- STREAM_COMPLETION: arguments cluster, an uncorrectable error and its address. -/
def streamCompletion (s : State) : Prog := completeStream (s.arg 0) (s.arg 1, BitVec.ofNat 64 (s.arg 2))
def execStreamCompletion (s : State) : Host.Outcome State Fault Refusal := runEvent streamCompletion s

/-! ## Loads, stores and stamped writes (R183, R344) -/

/-- A load is no longer outstanding. -/
def dropLoad (c id : Nat) : Prog := .one (.core c fun k => { k with loads := k.loads.filter fun q => q.id != id })

/-- The data of load `id` returns: one that binds late is bound now, and its destination is written (R183, R337). -/
def returnLoad (c id : Nat) : Prog :=
  (bindLate c fun q => q.id == id).andThen <| .read fun s =>
    match (s.core c).loads.find? fun p => p.id == id with
    | none => .done
    | some p => (dropLoad c id).andThen (onBlock c p.blk p.deliver)

/-- LOAD_RETURN: arguments core, load, and an uncorrectable error (0 none, 1 in DRAM, 2 in SRAM). An uncorrectable error
leaves the destination and is raised later (R177). -/
def loadReturn (s : State) : Prog :=
  let c := s.arg 0
  match (s.core c).loads.find? fun p => p.id == s.arg 1 with
  | none => .done
  | some p =>
    if s.arg 2 != 0 then
      Prog.all [dropLoad c p.id, countEcc (s.arg 2), raiseLater c p.blk
        { cause := BitVec.ofNat 8 cEcc, pc := p.pc, addr := p.va, lanes := maskOf 64 [p.lane], slices := maskOf 16 [p.lane / 4],
          org := p.org, time := s.sys.time }]
    else returnLoad c p.id
def execLoadReturn (s : State) : Host.Outcome State Fault Refusal := runEvent loadReturn s

/-- An older store that a store may not pass: one to its bytes of the same thread, or of the same instruction or bundle, whose
lanes and slots stand in order (R60, R181); or one of its thread when neither is weak or a release or a fence stands between
them (R337). -/
def BufStore.before (e f : BufStore) : Bool :=
  decide (e.id < f.id)
    && ((e.meets f && e.blk == f.blk && (e.thr == f.thr || e.grp == f.grp))
      || (e.blk == f.blk && e.thr == f.thr && ((!e.weak && !f.weak) || f.rel || f.fence || e.fence)))

/-- STORE_DRAIN: arguments core and store. A buffered store is performed. -/
def storeDrain (s : State) : Prog :=
  let c := s.arg 0
  match (s.core c).sbuf.find? fun e => e.id == s.arg 1 with
  | none => .done
  | some e =>
    if (s.core c).sbuf.any fun f => f.before e then .done
    else (performStore c e).andThen (.one (.core c fun k => { k with sbuf := k.sbuf.filter fun f => f.id != e.id }))
def execStoreDrain (s : State) : Host.Outcome State Fault Refusal := runEvent storeDrain s

/-- STAMPED_WRITE_APPLY: arguments write and die. The die applies a received stamped write when its stamp allows it
(R344). -/
def stampedWriteApply (s : State) : Prog :=
  match s.sys.stamped.find? fun w => w.id == s.arg 0 with
  | some w => if decide (s.arg 1 < 16) && stampReady s.sys w (s.arg 1) then applyStamped w (s.arg 1) else .done
  | none => .done
def execStampedWriteApply (s : State) : Host.Outcome State Fault Refusal := runEvent stampedWriteApply s

/-! ## The Spillway (R284 to R287) -/

/-- The partner core in the other die of the tower (R284). -/
def partner (c : Nat) : Nat := if dieOf c % 2 = 0 then c + 48 else c - 48

/-- Entries of a FIFO. -/
def spillMax : Nat := 32

/-- A context that holds the pair through an entry in either FIFO (R286). -/
def State.spillHolder (s : State) (c : Nat) : Option Nat :=
  let k := s.core c
  let q := s.core (partner c)
  ((k.inbound ++ k.arriving ++ q.inbound ++ q.arriving).head?).map (·.ctx)

/-- R286: the pair is free, or held by the unit's context. -/
def U.spill (u : U) (s : State) (k : Issue) : Issue :=
  match s.spillHolder u.c with
  | some x => if x = u.blk.ctx then k else u.trap cSpillway
  | none => k

/-- The lanes that `SPLW` and `SPLR` act in: in a slot whose guard passes, all sixteen of the thread (R287). -/
def U.spillLanes (u : U) : List Nat :=
  match u.slot with
  | none => u.part
  | some _ => if u.part.isEmpty then [] else u.blk.activeLanes u.members

/-- R287: in a slot the field names each lane's own register. -/
def U.spillField (u : U) (f : BitVec 8) : Bool := u.slot.isNone || isS f || decide (f.toNat < 0x40)

/-- The unit as a SIMT unit of the lanes it acts in. -/
def U.whole (u : U) : U := { u with slot := none, active := u.spillLanes, part := u.spillLanes }

/-- A held gate request takes effect once no entry is inbound and no block of another context is resident (R296). -/
def tryGate (c : Nat) : Prog :=
  .read fun s =>
    let k := s.core c
    match k.pgatePend with
    | some x =>
      if k.inbound.isEmpty && k.blocks.all fun e => e.2.ctx == x then
        .one (.core c fun k => { k with gated := true, pgatePend := none })
      else .done
    | none => .done

/-- The gate is lifted (R296). -/
def liftGate (c : Nat) : Prog := .one (.core c fun k => { k with gated := false })

/-- R284: one entry, a word at each participating lane's position. -/
def semSplw (f : XForm) : Sem := fun u s =>
  if !u.feat 0 featSpill || !u.spillField f.a then u.illegal
  else
    let v := u.whole
    v.need [(f.a, 32)] <|
      if v.part.isEmpty then .commit .done
      else
        u.spill s <|
          if (s.core u.c).outFree = 0 then .wait .splw .done
          else
            let entry : SpillEntry :=
              { words := v.part.foldl (fun m i => cellSet m i (BitVec.ofNat 32 (v.rd i f.a 32))) [], ctx := u.blk.ctx }
            .commit <| Prog.all [u.release,
              .one (.core u.c fun k => { k with outFree := k.outFree - 1 }),
              .one (.core (partner u.c) fun k => { k with arriving := k.arriving ++ [entry] })]
def execSplw (f : XForm) (s : State) : Host.Outcome State Fault Refusal := runX f (semSplw f) s

/-- R284: the oldest inbound entry; a held gate request may then take effect. -/
def semSplr (f : XForm) : Sem := fun u s =>
  if !u.feat 0 featSpill || !u.spillField f.d then u.illegal
  else
    let v := u.whole
    v.need [(f.d, 32)] <|
      if v.part.isEmpty then .commit .done
      else
        u.spill s <|
          match (s.core u.c).inbound with
          | [] => .wait .splr .done
          | e :: _ =>
            .commit <| Prog.all [settleDie (dieOf u.c),
              .one (.core u.c fun k => { k with inbound := k.inbound.drop 1, popsInFlight := k.popsInFlight + 1 }),
              v.put f.d 32 (v.part.map fun i => (i, (cellGet e.words i).toNat)),
              tryGate u.c]
def execSplr (f : XForm) (s : State) : Host.Outcome State Fault Refusal := runX f (semSplr f) s

/-- R285. -/
def splfVal (k : Core) : Nat := k.outFree + 256 * k.inbound.length

def semSplf (f : XForm) : Sem := fun u s =>
  if !u.feat 0 featSpill then u.illegal
  else u.need [(f.d, 32)] <| u.once <| u.spill s <| .commit (u.putAll f.d 32 (splfVal (s.core u.c)))
def execSplf (f : XForm) (s : State) : Host.Outcome State Fault Refusal := runX f (semSplf f) s

/-- SPILLWAY_PUSH_ARRIVAL: a pushed entry becomes poppable, and lifts the core's gate (R284, R296). -/
def spillwayPushArrival (s : State) : Prog :=
  let c := s.arg 0
  match (s.core c).arriving with
  | [] => .done
  | e :: r => (Prog.one (.core c fun k => { k with arriving := r, inbound := k.inbound ++ [e] })).andThen (liftGate c)
def execSpillwayPushArrival (s : State) : Host.Outcome State Fault Refusal := runEvent spillwayPushArrival s

/-- SPILLWAY_POP_ARRIVAL: a pop of the core reaches the partner's free-slot count (R285). -/
def spillwayPopArrival (s : State) : Prog :=
  let c := s.arg 0
  if (s.core c).popsInFlight = 0 then .done
  else (Prog.one (.core c fun k => { k with popsInFlight := k.popsInFlight - 1 })).andThen
    (.one (.core (partner c) fun k => { k with outFree := min spillMax (k.outFree + 1) }))
def execSpillwayPopArrival (s : State) : Host.Outcome State Fault Refusal := runEvent spillwayPopArrival s

end Sys2Proof.Machine
end

