-- ==== Sys2Proof/Machine/FpOps.lean ====
section
/-! DEFINITION. Floating-point, packed, conversion and narrow-format instructions (R151 to R167). -/

namespace Sys2Proof.Machine

/-- A result rounded to FP32, with the operation's own flags (R152). -/
def round32 (f : Rnd) (sat : Bool) (r : FVal × BitVec 5) : Nat × BitVec 5 :=
  let x := roundTo .f32 f sat 0 r.1
  (x.1, r.2 ||| x.2)

def opF (wb wc : Nat) (g : FVal → FVal → FVal → Nat × BitVec 5) : AluOp :=
  { wd := 32, wa := 32, wb, wc,
    fn := fun x =>
      let r := g (fdec .f32 x.a) (fdec .f32 x.b) (fdec .f32 x.c)
      { val := r.1, flags := r.2 } }

def opFadd (m : Rnd) (sat : Bool) : AluOp := opF 32 0 fun a b _ => round32 m sat (fAdd m a b)
def opFsub (m : Rnd) (sat : Bool) : AluOp := opF 32 0 fun a b _ => round32 m sat (fAdd m a b.neg)
def opFmul (m : Rnd) (sat : Bool) : AluOp := opF 32 0 fun a b _ => round32 m sat (fMul a b)
def opFfma (m : Rnd) (sat : Bool) : AluOp := opF 32 32 fun a b c => round32 m sat (fFma m a b c)
def opFdiv (m : Rnd) (sat : Bool) : AluOp := opF 32 0 fun a b _ => round32 m sat (fDiv a b)
def opFsqrt (m : Rnd) (sat : Bool) : AluOp := opF 0 0 fun a _ _ => round32 m sat (fSqrt a)

/-- R119. -/
def opFmm (mx : Bool) : AluOp :=
  { wd := 32, wa := 32, wb := 32,
    fn := fun x => let r := fminmax mx x.a x.b; { val := r.1, flags := r.2 } }

/-- R153. -/
def opFcmp (cc p : Nat) : AluOp :=
  { wa := 32, wb := 32,
    fn := fun x =>
      let a := fdec .f32 x.a
      let b := fdec .f32 x.b
      { preds := [(p, fcmpCode cc a b)], flags := sigFlag [a, b] } }

/-- R154. -/
def opFclass (t : Ty) : AluOp := { wd := 32, wa := 32, fn := fun x => { val := 2 ^ fclassBit t (x.a % 2 ^ t.bits) } }

/-- R156 to R158. -/
def opFn (fn : Nat) : AluOp :=
  { wd := 32, wa := 32, fn := fun x => let r := fnOp fn x.a; { val := r.1, flags := r.2 } }

/-- Element `i` of a register (R115). -/
def elem (t : Ty) (x i : Nat) : Nat := x / 2 ^ (t.bits * i) % 2 ^ t.bits

/-- Element `i` of a register replaced (R115). -/
def setElem (t : Ty) (x i v : Nat) : Nat :=
  x - elem t x i * 2 ^ (t.bits * i) + (v % 2 ^ t.bits) * 2 ^ (t.bits * i)

/-- R159: one operation on each element of a pair. -/
def opPair (t : Ty) (m : Rnd) (sat : Bool) (wc : Nat) (g : FVal → FVal → FVal → FVal × BitVec 5) : AluOp :=
  { wd := 32, wa := 32, wb := 32, wc,
    fn := fun x =>
      let one := fun (i : Nat) =>
        let e := g (fdec t (elem t x.a i)) (fdec t (elem t x.b i)) (fdec t (elem t x.c i))
        let r := roundTo t m sat 0 e.1
        (r.1, e.2 ||| r.2)
      let lo := one 0
      let hi := one 1
      { val := lo.1 + 2 ^ 16 * hi.1, flags := lo.2 ||| hi.2 } }

/-- R160. -/
def opDot4 (t : Ty) (m : Rnd) (sat : Bool) : AluOp :=
  { wd := 32, wa := 32, wb := 32, wc := 32,
    fn := fun x =>
      if t.isInt then
        let s := (List.range 4).foldl (fun s i => s + intVal t.signed 8 (elem t x.a i) * intVal t.signed 8 (elem t x.b i))
          (intVal t.signed 32 x.c)
        { val := intResult t.signed sat 32 s }
      else
        let r := round32 m sat (dotSum m (fdec .f32 x.c)
          ((List.range 4).map fun i => (fdec t (elem t x.a i), fdec t (elem t x.b i))))
        { val := r.1, flags := r.2 } }

/-- R120, R161: a narrow result is zero-filled. -/
def opCvt (dst src : Ty) (m : Rnd) (sat : Bool) : AluOp :=
  { wd := 32, wa := 32, rill := m == .sr,
    fn := fun x =>
      let r := cvtVal dst src m sat (if m == .sr then x.rnd else 0) (x.a % 2 ^ src.bits)
      { val := r.1, flags := r.2 } }

/-- Register width of a conversion's value: 64 bits for 64-bit types, else 32. -/
def regW (t : Ty) : Nat := if t.bits = 64 then 64 else 32

/-- R121, R122: an integer result is extended to 32 bits by its signedness (R161). -/
def opCvti (dst src : Ty) (m : Rnd) (sat : Bool) : AluOp :=
  { wd := regW dst, wa := regW src,
    fn := fun x =>
      if src.isInt then
        let v := intVal src.signed src.bits x.a
        { val := wrapTo (regW dst) (intVal dst.signed dst.bits (intResult dst.signed sat dst.bits v)) }
      else
        let r := toIntType dst m (fdec src (x.a % 2 ^ src.bits))
        { val := wrapTo (regW dst) r.1, flags := r.2 } }

/-- R122. -/
def opCvtf (dst src : Ty) (m : Rnd) (sat : Bool) : AluOp :=
  { wd := 32, wa := regW src,
    fn := fun x =>
      let r := roundTo dst m sat 0 (intF (intVal src.signed src.bits x.a))
      { val := r.1, flags := r.2 } }

/-- R162. -/
def opRnd (t : Ty) (m : Rnd) : AluOp :=
  { wd := 32, wa := 32, fn := fun x => let r := rndVal t m (x.a % 2 ^ t.bits); { val := r.1, flags := r.2 } }

/-- R164. -/
def opPack (t : Ty) (m : Rnd) (sat : Bool) (i : Nat) : AluOp :=
  { wd := 32, wa := 32, wb := 32, rdD := true, rill := m == .sr,
    fn := fun x =>
      let rnd := if m == .sr then x.rnd else 0
      let lo := cvtVal t .f32 m sat rnd x.a
      let hi := cvtVal t .f32 m sat rnd x.b
      { val := setElem t (setElem t x.d (2 * i) lo.1) (2 * i + 1) hi.1, flags := lo.2 ||| hi.2 } }

/-- R165. -/
def opUnpack (src : Ty) (i : Nat) : AluOp :=
  { wd := 32, wa := 32,
    fn := fun x => let r := cvtVal .f32 src .ne false 0 (elem src x.a i); { val := r.1, flags := r.2 } }

/-- R167: the quotient by the scale, exact; a NaN scale makes it NaN. -/
def opScaleq (t : Ty) (m : Rnd) (sat : Bool) : AluOp :=
  { wd := 32, wa := 32, wb := 32, rill := m == .sr,
    fn := fun x =>
      let a := fdec .f32 x.a
      let q := fDiv a (scaleVal (x.b % 512))
      let r := roundTo t m sat (if m == .sr then x.rnd else 0) q.1
      { val := r.1, flags := q.2 ||| r.2 } }

/-- R166. -/
def opBscale (t : Ty) : AluOp := { wd := 32, wa := 32, fn := fun x => { val := bscaleCode t x.a } }

/-- E2M1 in a conversion needs its feature bit (R327, R328). -/
def needE2m1 (b : Bool) (sem : Sem) : Sem := fun u s =>
  if b && !u.feat 0 featE2m1 then u.illegal else sem u s

/-- The source type of a two-type form (R76). -/
def srcTy (f : RForm) : Ty := f.src.getD .f32

/-- A function of major 0x0A by FN. -/
def semFn (f : RForm) (fn : Nat) : Sem := semR f (opFn fn)

/-! ## Meanings -/

/-- R152. -/
def semFadd (f : RForm) : Sem := semR f (opFadd f.rm f.sat)
def execFadd (f : RForm) (s : State) : Host.Outcome State Fault Refusal := runR f (semFadd f) s

/-- R152. -/
def semFsub (f : RForm) : Sem := semR f (opFsub f.rm f.sat)
def execFsub (f : RForm) (s : State) : Host.Outcome State Fault Refusal := runR f (semFsub f) s

/-- R152. -/
def semFmul (f : RForm) : Sem := semR f (opFmul f.rm f.sat)
def execFmul (f : RForm) (s : State) : Host.Outcome State Fault Refusal := runR f (semFmul f) s

/-- R152. -/
def semFfma (f : RForm) : Sem := semR f (opFfma f.rm f.sat)
def execFfma (f : RForm) (s : State) : Host.Outcome State Fault Refusal := runR f (semFfma f) s

/-- R152. -/
def semFdiv (f : RForm) : Sem := semR f (opFdiv f.rm f.sat)
def execFdiv (f : RForm) (s : State) : Host.Outcome State Fault Refusal := runR f (semFdiv f) s

/-- R152. -/
def semFsqrt (f : RForm) : Sem := semR f (opFsqrt f.rm f.sat)
def execFsqrt (f : RForm) (s : State) : Host.Outcome State Fault Refusal := runR f (semFsqrt f) s

/-- R119. -/
def semFmin (f : RForm) : Sem := semR f (opFmm false)
def execFmin (f : RForm) (s : State) : Host.Outcome State Fault Refusal := runR f (semFmin f) s

/-- R119. -/
def semFmax (f : RForm) : Sem := semR f (opFmm true)
def execFmax (f : RForm) (s : State) : Host.Outcome State Fault Refusal := runR f (semFmax f) s

/-- R153. -/
def semFcmp (f : RForm) : Sem := semR f (opFcmp f.xm.toNat f.d.toNat)
def execFcmp (f : RForm) (s : State) : Host.Outcome State Fault Refusal := runR f (semFcmp f) s

/-- R154. -/
def semFclass (f : RForm) : Sem := semR f (opFclass f.ty)
def execFclass (f : RForm) (s : State) : Host.Outcome State Fault Refusal := runR f (semFclass f) s

/-- R155. -/
def semFaddImm (f : IForm) : Sem := laneSem (opFadd .ne false) f.d f.a 0 0 (some (f.imm.setWidth 64))
def execFaddImm (f : IForm) (s : State) : Host.Outcome State Fault Refusal := runI f (semFaddImm f) s

/-- R155. -/
def semFmulImm (f : IForm) : Sem := laneSem (opFmul .ne false) f.d f.a 0 0 (some (f.imm.setWidth 64))
def execFmulImm (f : IForm) (s : State) : Host.Outcome State Fault Refusal := runI f (semFmulImm f) s

/-- R155. -/
def semFminImm (f : IForm) : Sem := laneSem (opFmm false) f.d f.a 0 0 (some (f.imm.setWidth 64))
def execFminImm (f : IForm) (s : State) : Host.Outcome State Fault Refusal := runI f (semFminImm f) s

/-- R155. -/
def semFmaxImm (f : IForm) : Sem := laneSem (opFmm true) f.d f.a 0 0 (some (f.imm.setWidth 64))
def execFmaxImm (f : IForm) (s : State) : Host.Outcome State Fault Refusal := runI f (semFmaxImm f) s

/-- R156. -/
def semFrcp (f : RForm) : Sem := semFn f 0
def execFrcp (f : RForm) (s : State) : Host.Outcome State Fault Refusal := runR f (semFrcp f) s

/-- R156. -/
def semFrsq (f : RForm) : Sem := semFn f 1
def execFrsq (f : RForm) (s : State) : Host.Outcome State Fault Refusal := runR f (semFrsq f) s

/-- R156. -/
def semFexp2 (f : RForm) : Sem := semFn f 2
def execFexp2 (f : RForm) (s : State) : Host.Outcome State Fault Refusal := runR f (semFexp2 f) s

/-- R156. -/
def semFlog2 (f : RForm) : Sem := semFn f 3
def execFlog2 (f : RForm) (s : State) : Host.Outcome State Fault Refusal := runR f (semFlog2 f) s

/-- R156. -/
def semFsin (f : RForm) : Sem := semFn f 4
def execFsin (f : RForm) (s : State) : Host.Outcome State Fault Refusal := runR f (semFsin f) s

/-- R156. -/
def semFcos (f : RForm) : Sem := semFn f 5
def execFcos (f : RForm) (s : State) : Host.Outcome State Fault Refusal := runR f (semFcos f) s

/-- R156. -/
def semFtanh (f : RForm) : Sem := semFn f 6
def execFtanh (f : RForm) (s : State) : Host.Outcome State Fault Refusal := runR f (semFtanh f) s

/-- R159. -/
def semHadd2 (f : RForm) : Sem := semR f (opPair f.ty f.rm f.sat 0 fun a b _ => fAdd f.rm a b)
def execHadd2 (f : RForm) (s : State) : Host.Outcome State Fault Refusal := runR f (semHadd2 f) s

/-- R159. -/
def semHmul2 (f : RForm) : Sem := semR f (opPair f.ty f.rm f.sat 0 fun a b _ => fMul a b)
def execHmul2 (f : RForm) (s : State) : Host.Outcome State Fault Refusal := runR f (semHmul2 f) s

/-- R159. -/
def semHfma2 (f : RForm) : Sem := semR f (opPair f.ty f.rm f.sat 32 fun a b c => fFma f.rm a b c)
def execHfma2 (f : RForm) (s : State) : Host.Outcome State Fault Refusal := runR f (semHfma2 f) s

/-- R160. -/
def semDot4 (f : RForm) : Sem := semR f (opDot4 f.ty f.rm f.sat)
def execDot4 (f : RForm) (s : State) : Host.Outcome State Fault Refusal := runR f (semDot4 f) s

/-- R162, R163. -/
def semCvt (f : RForm) : Sem := needE2m1 (f.ty == .e2m1 || srcTy f == .e2m1) (semR f (opCvt f.ty (srcTy f) f.rm f.sat))
def execCvt (f : RForm) (s : State) : Host.Outcome State Fault Refusal := runR f (semCvt f) s

/-- R121, R122. -/
def semCvti (f : RForm) : Sem := semR f (opCvti f.ty (srcTy f) f.rm f.sat)
def execCvti (f : RForm) (s : State) : Host.Outcome State Fault Refusal := runR f (semCvti f) s

/-- R122. -/
def semCvtf (f : RForm) : Sem := semR f (opCvtf f.ty (srcTy f) f.rm f.sat)
def execCvtf (f : RForm) (s : State) : Host.Outcome State Fault Refusal := runR f (semCvtf f) s

/-- R162. -/
def semRnd (f : RForm) : Sem := semR f (opRnd f.ty f.rm)
def execRnd (f : RForm) (s : State) : Host.Outcome State Fault Refusal := runR f (semRnd f) s

/-- R164. -/
def semPack (f : RForm) : Sem := needE2m1 (f.ty == .e2m1) (semR f (opPack f.ty f.rm f.sat f.xm.toNat))
def execPack (f : RForm) (s : State) : Host.Outcome State Fault Refusal := runR f (semPack f) s

/-- R165. -/
def semUnpack (f : RForm) : Sem := needE2m1 (srcTy f == .e2m1) (semR f (opUnpack (srcTy f) f.xm.toNat))
def execUnpack (f : RForm) (s : State) : Host.Outcome State Fault Refusal := runR f (semUnpack f) s

/-- R167. -/
def semScaleq (f : RForm) : Sem := needE2m1 (f.ty == .e2m1) (semR f (opScaleq f.ty f.rm f.sat))
def execScaleq (f : RForm) (s : State) : Host.Outcome State Fault Refusal := runR f (semScaleq f) s

/-- R166. -/
def semBscale (f : RForm) : Sem := needE2m1 (f.ty == .e2m1) (semR f (opBscale f.ty))
def execBscale (f : RForm) (s : State) : Host.Outcome State Fault Refusal := runR f (semBscale f) s

end Sys2Proof.Machine
end

