-- ==== Sys2Proof/Machine/Exchange.lean ====
section
/-! DEFINITION. Lane exchange, votes and reductions (R168 to R172). -/

namespace Sys2Proof.Machine

/-- The chapter's group forms trap in a slot (R133); a group wider than the block traps ILLEGAL at issue in the lanes whose
guard passes (R14, R132). `fs` are the register fields. -/
def groupSem (gw : Nat) (fs : List (BitVec 8 × Nat)) (k : U → Issue) : Sem := fun u _ =>
  if u.slot.isSome then u.illegal
  else u.need fs (if !u.part.isEmpty && decide (gw > u.blk.width) then u.trap cIllegal else k u)

/-- R169: the lane that lane `i` takes its value from, when it lies in the group and is active. -/
def exchange (act : List Nat) (gw i : Nat) (j : Int) : Nat :=
  let base := i - i % gw
  if j < base || j ≥ base + gw || !act.contains j.toNat then i else j.toNat

/-- A shuffle of `w`-bit values with group width `gw` (R169); `src` gives the source of lane `i`, B given. -/
def shuffle (w gw : Nat) (wb : Nat) (d a b : BitVec 8) (src : Nat → Nat → Int) : Sem :=
  groupSem gw [(d, w), (a, w), (b, wb)] fun u =>
      .commit (u.put d w (u.part.map fun i => (i, u.rd (exchange u.active gw i (src i (u.rd i b wb))) a w)))

/-- R169: group width and value width of an IMM16. -/
def shflG (f : XForm) : Nat := 4 * 2 ^ f.fld 3 13
def shflW (f : XForm) : Nat := if f.fld 1 12 == 1 then 64 else 32

/-- Source lanes of R169. -/
def srcIdx (gw i b : Nat) : Int := ((i - i % gw) + (b % 64) % gw : Nat)
def srcXor (k i : Nat) : Int := ((i ^^^ k : Nat) : Int)
def srcDown (k i : Nat) : Int := ((i + k : Nat) : Int)
def srcUp (k i : Nat) : Int := (i : Int) - k
def srcBcast (gw k i : Nat) : Int := ((i - i % gw) + k : Nat)

/-- R170: the result of a vote over the participants' predicates, ascending by lane. -/
def voteVal (code : Nat) (ps : List (Nat × Bool)) : Nat :=
  match code with
  | 0 => if ps.any (·.2) then 1 else 0
  | 1 => if ps.all (·.2) then 1 else 0
  | 2 => if ps.all (·.2) || ps.all (fun p => !p.2) then 1 else 0
  | _ => ps.foldl (fun n p => if p.2 then n + 2 ^ p.1 else n) 0

/-- R170 on a predicate `a` of each participant. -/
def voteSem (code : Nat) (a : Nat) (d : BitVec 8) : Sem := fun u _ =>
  if u.slot.isSome then u.illegal
  else
    u.need [(d, if code = 3 then 64 else 0)] <|
      let v := voteVal code (u.part.map fun i => (i, (u.blk.lane i).pred a))
      if code = 3 then .commit (u.putAll d 64 v)
      else .commit (u.putPred d.toNat (u.part.map fun i => (i, v == 1)))

/-- One step of a reduction on `w`-bit values, with flags (R171). -/
def redStep (op : Nat) (t : Ty) (a b : Nat) : Nat :=
  let w := t.bits
  match op with
  | 0 => (a + b) % 2 ^ w
  | 1 => if t == .f32 then (fminmax false a b).1 else if intVal t.signed w a ≤ intVal t.signed w b then a else b
  | 2 => if t == .f32 then (fminmax true a b).1 else if intVal t.signed w a ≥ intVal t.signed w b then a else b
  | 3 => a &&& b
  | 4 => a ||| b
  | _ => a ^^^ b

/-- R171: the identity of an operation. -/
def redIdent (op : Nat) (t : Ty) : Nat :=
  let w := t.bits
  match op with
  | 1 => if t == .f32 then encInf .f32 false else wrapTo w (typeMax t.signed w)
  | 2 => if t == .f32 then encInf .f32 true else wrapTo w (typeMin t.signed w)
  | 3 => 2 ^ w - 1
  | _ => 0

/-- R171: values of the contributing participants combined; the identity only where none contributes. A single NaN
becomes the default NaN. -/
def redAll (op : Nat) (t : Ty) (vs : List Nat) : Nat :=
  match vs with
  | [] => redIdent op t
  | v :: r =>
    let x := r.foldl (redStep op t) v
    if t == .f32 && (fdec .f32 x).isNan then defaultNaN .f32 else x

/-- Results of a reduction or scan over the participants' values (R171). -/
def reduceRes (op gw : Nat) (t : Ty) (scan ex : Bool) (vs : List (Nat × Nat)) : List (Nat × Res) :=
  vs.map fun v =>
    let i := v.1
    let grp := vs.filter fun e => e.1 / gw == i / gw
    let mine := if scan then grp.filter fun e => if ex then decide (e.1 < i) else decide (e.1 ≤ i) else grp
    let nv := t == .f32 && grp.any fun e => (fdec .f32 e.2).isSig
    (i, { val := redAll op t (mine.map (·.2)), flags := if nv then fNV else 0 })

/-- `REDL` and `SCANL` (R171). -/
def reduceSem (op gw : Nat) (t : Ty) (scan ex : Bool) (d a : BitVec 8) : Sem :=
  groupSem gw [(d, t.bits), (a, t.bits)] fun u =>
      .commit (onBlock u.c u.b
        (u.commitRes t.bits d (reduceRes op gw t scan ex (u.part.map fun i => (i, u.rd i a t.bits)))))

/-! ## Meanings -/

/-- R169. -/
def semShfli (f : XForm) : Sem := shuffle (shflW f) (shflG f) 32 f.d f.a f.b (srcIdx (shflG f))
def execShfli (f : XForm) (s : State) : Host.Outcome State Fault Refusal := runX f (semShfli f) s

/-- R169. -/
def semShflx (f : XForm) : Sem := shuffle (shflW f) (shflG f) 0 f.d f.a 0 fun i _ => srcXor (f.fld 6 0) i
def execShflx (f : XForm) (s : State) : Host.Outcome State Fault Refusal := runX f (semShflx f) s

/-- R169. -/
def semShfld (f : XForm) : Sem := shuffle (shflW f) (shflG f) 0 f.d f.a 0 fun i _ => srcDown (f.fld 6 0) i
def execShfld (f : XForm) (s : State) : Host.Outcome State Fault Refusal := runX f (semShfld f) s

/-- R169. -/
def semShfla (f : XForm) : Sem := shuffle (shflW f) (shflG f) 0 f.d f.a 0 fun i _ => srcUp (f.fld 6 0) i
def execShfla (f : XForm) (s : State) : Host.Outcome State Fault Refusal := runX f (semShfla f) s

/-- R169. -/
def semBcast (f : XForm) : Sem := shuffle (shflW f) (shflG f) 0 f.d f.a 0 fun i _ => srcBcast (shflG f) (f.fld 6 0) i
def execBcast (f : XForm) (s : State) : Host.Outcome State Fault Refusal := runX f (semBcast f) s

/-- R170. -/
def semVote (f : RForm) : Sem := voteSem f.xm.toNat f.a.toNat f.d
def execVote (f : RForm) (s : State) : Host.Outcome State Fault Refusal := runR f (semVote f) s

/-- R171. -/
def semRedl (f : RForm) : Sem := reduceSem (f.xm.toNat % 8) (4 * 2 ^ (f.c.toNat % 8)) f.ty false false f.d f.a
def execRedl (f : RForm) (s : State) : Host.Outcome State Fault Refusal := runR f (semRedl f) s

/-- R171. -/
def semScanl (f : RForm) : Sem := reduceSem (f.xm.toNat % 8) (4 * 2 ^ (f.c.toNat % 8)) f.ty true (f.xm.getLsbD 3) f.d f.a
def execScanl (f : RForm) (s : State) : Host.Outcome State Fault Refusal := runR f (semScanl f) s

/-- R172: the source is a plain register of a lane of the quarter, as it stood before the bundle. -/
def semXmov (f : XForm) : Sem := fun u _ =>
  match u.slot with
  | none => u.illegal
  | some _ =>
    let w := if f.fld 1 5 == 1 then 64 else 32
    let base := 4 * u.members.headD 0
    if f.a.toNat + regCount w > u.blk.n then u.illegal
    else
      u.need [(f.d, w), (f.b, if f.fld 1 4 == 1 then 32 else 0)] <|
        let src := fun i => base + (if f.fld 1 4 == 1 then u.rd i f.b 32 % 16 else f.fld 4 0)
        let busy := u.core.loads.any fun p =>
          p.blk == u.b && !p.sreg && u.active.any fun i =>
            src i == p.lane && decide (f.a.toNat < p.reg + regsOf p.w) && decide (p.reg < f.a.toNat + regCount w)
        if busy then .wait .operand .done
        else .commit (u.put f.d w (u.part.map fun i => (i, (u.blk.lane (src i)).regs f.a.toNat (regCount w))))
def execXmov (f : XForm) (s : State) : Host.Outcome State Fault Refusal := runX f (semXmov f) s

end Sys2Proof.Machine
end

