-- ==== Sys2Proof/Machine/ExCheck.lean ====
section
/-! DEFINITION. Validation of Exdin kernels (10 R303 to R307): the header, the register declarations, the rules that a
kernel's code must pass, and the residency map. -/

namespace Sys2Proof.Machine

/-- What an operand of an Exdin operation stands for (R305, R314): a value of a type; a whole number of a width; a whole
number of 32 or 64 bits, as an offset or an address; what `mov` copies; a predicate; a fragment; a handle; a place that an
engine reads or writes; a branch target. -/
inductive ExRole where
  | val (t : Ty)
  | int (w : Nat)
  | addr
  | copied (t : Ty)
  | pred
  | frag
  | handle
  | place
  | label
  deriving DecidableEq, Repr

/-- The form of an Exdin instruction, the operand that it writes, if any, and what its operands stand for (R314). -/
def exSpec (i : Instr) : Option (ExForm × Option Nat × List ExRole) :=
  match i with
  | .exNop f | .exFence f | .exExit f => some (f, none, [])
  | .exMov f => some (f, some 0, [.copied f.ty, .copied f.ty])
  | .exSreg f => some (f, some 0, [.val f.ty])
  | .exAdd f | .exSub f | .exMul f | .exDiv f | .exRem f | .exMin f | .exMax f | .exAnd f | .exOr f | .exXor f =>
    some (f, some 0, List.replicate 3 (.val f.ty))
  | .exMad f => some (f, some 0, List.replicate 4 (.val f.ty))
  | .exShl f | .exShr f | .exBfx f => some (f, some 0, [.val f.ty, .val f.ty, .int 32])
  | .exBfi f => some (f, some 0, [.val f.ty, .val f.ty, .int 32, .val f.ty])
  | .exBitc f => some (f, some 0, [if f.x 2 0 == 3 then .val f.ty else .int 32, .val f.ty])
  | .exCmp f | .exFcmp f => some (f, some 0, [.pred, .val f.ty, .val f.ty])
  | .exSel f => some (f, some 0, [.val f.ty, .pred, .val f.ty, .val f.ty])
  | .exFadd f | .exFsub f | .exFmul f | .exFmin f | .exFmax f | .exFdiv f => some (f, some 0, List.replicate 3 (.val f.ty))
  | .exFfma f => some (f, some 0, List.replicate 4 (.val f.ty))
  | .exFsqrt f | .exFunc f => some (f, some 0, [.val f.ty, .val f.ty])
  | .exBscale f => some (f, some 0, [.int 32, .val .f32])
  | .exQuant f => some (f, some 0, [.val f.ty, .val .f32, .int 32])
  | .exCvt f => some (f, some 0, [.val f.ty, .val ((Ty.ofCode (bits 5 f.xm 0)).getD .f32)])
  | .exShfl f | .exBcast f => some (f, some 0, [.val f.ty, .val f.ty, .int 32])
  | .exVote f => some (f, some 0, [if f.x 2 0 == 3 then .int 64 else .pred, .pred])
  | .exXred f | .exXscan f => some (f, some 0, [.val f.ty, .val f.ty])
  | .exLd f => some (f, some 0, [.val f.ty, .int 64, .addr])
  | .exSt f => some (f, none, [.int 64, .addr, .val f.ty])
  | .exLds f => some (f, some 0, [.val f.ty, .int 32, .addr])
  | .exSts f => some (f, none, [.int 32, .addr, .val f.ty])
  | .exAtom f => some (f, some 0, [.val f.ty, .int 64, .val f.ty, .val f.ty])
  | .exTalloc f => some (f, some 0, [.handle, .int 32, .int 32])
  | .exTseal f | .exQpost f => some (f, none, [.handle])
  | .exTld f => some (f, some 0, [.val f.ty, .handle, .int 32])
  | .exTst f => some (f, none, [.handle, .int 32, .val f.ty])
  | .exTdrop f => some (f, none, [.handle, .int 32])
  | .exQtake f => some (f, some 0, [.handle, .int 32])
  | .exCopy f => some (f, none, [.place, .place, .int 32, .int 32, .int 32, .int 32])
  | .exWload f => some (f, none, [.place, .int 32, .int 32, .int 32])
  | .exMm f => some (f, some 0, [.frag, .place, .int 32, .int 32, .int 32, .addr])
  | .exAcc f =>
    match f.x 2 0 with
    | 0 => some (f, some 0, [.frag, .int 32, .int 32])
    | 1 => some (f, some 1, [.frag, .val f.ty, .int 32, .int 32])
    | _ => some (f, some 0, [.frag, .int 32, .int 32, .val f.ty])
  | .exIf f => some (f, none, [.pred, .label, .label])
  | .exLoop f => some (f, none, [.int 32, .label])
  | .exBrk f => some (f, none, [.pred])
  | _ => none

/-- The form of an Exdin instruction. -/
def Instr.exForm (i : Instr) : Option ExForm := (exSpec i).map (·.1)

/-! ## Declarations (R305) -/

def declTy (d : W32) : Option Ty := Ty.ofCode (bits 5 d 0)
def declKind (d : W32) : Nat := (bits 3 d 5).toNat

/-- Width of the home of a register. -/
def declW (d : W32) : Nat := match declTy d with | some t => if t.bits = 64 then 64 else 32 | none => 32

/-- R305. The range `.i32-.n64` of a uniform register is read as the integer types of 32 and 64 bits, not as a range of R79's codes,
which would hold the narrower `.n` types too (DESIGN CHOICE, log 83). -/
def declOk (d : W32) : Bool :=
  bits 24 d 8 == 0 &&
    match declTy d with
    | none => false
    | some t =>
      match declKind d with
      | 0 => t != .b128
      | 1 => [Ty.i32, .i64, .n32, .n64, .b32, .b64].contains t
      | 2 => t == .b8
      | 3 => t == .f32 || t == .i32
      | 4 => t == .b32
      | _ => false

/-- A declared type serves an operation on `t`: the type itself, or any of its width where `t` is one of uninterpreted bits
(log 19). -/
def tyServes (t d : Ty) : Bool := d == t || ([Ty.b8, .b16, .b32, .b64].contains t && d.bits == t.bits)

/-- A declared type is a whole number or bits of `w` bits. -/
def tyInt (w : Nat) (d : Ty) : Bool := [Ty.i32, .i64, .n32, .n64, .b32, .b64].contains d && d.bits == w

/-- A register's kind and type serve a role (R304, R305, log 19). -/
def roleOk (r : ExRole) (d : W32) : Bool :=
  let ty := fun (f : Ty → Bool) => match declTy d with | some t => f t | none => false
  let num := decide (declKind d ≤ 1)
  match r with
  | .val t => num && ty (tyServes t)
  | .int w => num && ty (tyInt w)
  | .addr => num && ty fun t => tyInt 32 t || tyInt 64 t
  | .copied t => declKind d == 2 || (num && ty (tyServes t)) || (declKind d == 4 && t.bits == 32)
  | .pred => declKind d == 2
  | .frag => declKind d == 3
  | .handle => declKind d == 4
  | .place => declKind d == 4 || (num && ty fun t => tyInt 32 t || tyInt 64 t)
  | .label => false

/-- Every register operand of an instruction is declared and serves its role. -/
def exRegsOk (decls : List W32) (f : ExForm) (roles : List ExRole) : Bool :=
  ((f.ops.zip roles).all fun e =>
    match e.1 with
    | .reg n => match decls[n.toNat]? with | some d => roleOk e.2 d | none => false
    | _ => true)
    && (match f.guard with
      | some (.reg n, _) => match decls[n.toNat]? with | some d => declKind d == 2 | none => false
      | some _ => false
      | none => true)

/-! ## Code (R304) -/

/-- A fault that validation finds: the offset of the failing word, and the number of its reason among the requirements of
R304. -/
abbrev ExFault := Nat × Nat

/-- The instructions of a code section with the word offsets of their heads, up to the first word that decodes to nothing,
which the answer names. -/
def exDecodeAll (ws : List W32) (off : Nat) : (fuel : Nat) → List (Nat × Instr) × Option Nat
  | 0 => ([], none)
  | n + 1 =>
    if ws.isEmpty then ([], none)
    else
      match decodeExdin ws with
      | .ok (i, rest) =>
        let r := exDecodeAll rest (off + (ws.length - rest.length)) n
        ((off, i) :: r.1, r.2)
      | .error _ => ([], some off)

/-- An open region while nesting is checked: whether it is a loop, whether its `else` has come, its head. -/
abbrev ExOpen := Bool × Bool × Nat

/-- The regions open after an instruction at offset `o`; none where it breaks proper nesting. A `brk` outside every loop counts as
such a break (DESIGN CHOICE, log 83). -/
def exOpen (o : Nat) (i : Instr) (st : List ExOpen) : Option (List ExOpen) :=
  match i with
  | .exIf _ => some ((false, false, o) :: st)
  | .exLoop _ => some ((true, false, o) :: st)
  | .exElse => match st with | (false, false, h) :: t => some ((false, true, h) :: t) | _ => none
  | .exEndif => match st with | (false, _, _) :: t => some t | _ => none
  | .exEndloop => match st with | (true, _, _) :: t => some t | _ => none
  | .exBrk _ => if st.any (·.1) then some st else none
  | _ => some st

/-- The heads of the regions around each instruction, up to the first that breaks proper nesting, and the words that break
it: that one, or, in a section that decodes to its end, the heads of regions left open (R304). -/
def exNest (whole : Bool) : List (Nat × Instr) → List ExOpen → List (Nat × Instr × List (Bool × Nat)) × List Nat
  | [], st => ([], if whole then st.map (·.2.2) else [])
  | (o, i) :: r, st =>
    let here := (o, i, st.map fun e => (e.1, e.2.2))
    match exOpen o i st with
    | none => ([here], [o])
    | some st =>
      let n := exNest whole r st
      (here :: n.1, n.2)

/-- R306: whether an instruction writes a uniform or handle register. -/
def writesUniform (decls : List W32) (i : Instr) : Bool :=
  match exSpec i with
  | some (f, some k, _) =>
    match f.ops[k]? with
    | some (.reg n) => match decls[n.toNat]? with | some d => declKind d == 1 || declKind d == 4 | none => false
    | _ => false
  | _ => false

/-- The faults of a code section (R304, R306). -/
def exCodeFaults (decls : List W32) (ws : List W32) : List ExFault :=
  let d := exDecodeAll ws 0 (ws.length + 1)
  let heads : List Nat := d.1.map (·.1)
  let isHead := fun (t : Int) => heads.any (fun h => (h : Int) == t) || (match d.2 with | some o => decide (t ≥ o) | none => false)
  let nest := exNest d.2.isNone d.1 []
  let broken := nest.1.flatMap fun e =>
    match e.2.1 with | .exBrk _ => e.2.2.filterMap fun r => if r.1 then some r.2 else none | _ => []
  Option.toList (d.2.map fun o => (o, 2))
    ++ d.1.flatMap (fun e =>
      match exSpec e.2 with
      | some (f, _, roles) =>
        (if exRegsOk decls f roles then [] else [(e.1, 3)])
          ++ (if f.ops.all fun o => match o with | .target t => isHead (e.1 + t.toInt) | _ => true then [] else [(e.1, 4)])
      | none => [])
    ++ (nest.2.map fun o => (o, 5))
    ++ nest.1.filterMap fun e =>
      if writesUniform decls e.2.1 && !(e.2.2.all fun r => r.1 && !broken.contains r.2) then some (e.1, 6) else none

/-! ## The header and the residency map (R303, R307) -/

/-- A number of `n` bytes at an offset of a list of bytes. -/
def getN (bs : List Byte) (o n : Nat) : Nat := leNat ((bs.drop o).take n)

/-- 32-bit words of a list of bytes. -/
def words32 (bs : List Byte) (n : Nat) : List W32 := (List.range n).map fun i => BitVec.ofNat 32 (getN bs (4 * i) 4)

/-- The header's words that break their ranges (R303, R304). -/
def exHeaderFaults (h : List Byte) : List ExFault :=
  [(0, getN h 0 4 == 0x4E445845), (1, getN h 4 2 == 0x0100 && decide (1 ≤ getN h 6 2) && decide (getN h 6 2 ≤ 4096)),
   (2, decide (1 ≤ getN h 8 4) && decide (getN h 8 4 ≤ 2 ^ 24)), (3, getN h 12 4 % 4 == 0),
   (5, [8, 16, 32, 64].contains (getN h 20 2) && getN h 22 2 % 64 == 0), (14, getN h 56 4 == 0), (15, getN h 60 4 == 0)].filterMap
    fun e => if e.2 then none else some (e.1, 1)

/-- The header's feature words that need a bit outside a mask (R304, R328). -/
def exFeatFaults (h : List Byte) (mask : List W64) : List ExFault :=
  (List.range 8).filterMap fun i =>
    if (BitVec.ofNat 32 (getN h (24 + 4 * i) 4) &&& ~~~(bits 32 (mask.getD (i / 2) 0) (32 * (i % 2)))) != 0 then some (6 + i, 7) else none

/-- The earliest fault. -/
def firstFault (l : List ExFault) : Option ExFault :=
  l.foldl (fun m e =>
    match m with
    | some b => if e.1 < b.1 || (e.1 == b.1 && decide (e.2 < b.2)) then some e else some b
    | none => some e) none

/-- An Exdin kernel as it stands in memory. -/
structure ExImage where
  header : List Byte
  code : List W32
  decls : List W32
  homes : List W32

/-- R304: the first failing word of a kernel, from its header on, and the reason; the mask is that of the context. -/
def ExImage.fault (x : ExImage) (mask : List W64) : Option ExFault :=
  let h := exHeaderFaults x.header ++ exFeatFaults x.header mask
  if h ≠ [] then firstFault h
  else
    firstFault ((x.decls.zipIdx.filterMap fun e => if declOk e.1 then none else some (getN x.header 12 4 / 4 + e.2, 3))
      ++ ((exCodeFaults x.decls x.code).map fun e => (16 + e.1, e.2)))

def homeOf (m : W32) : Nat := (bits 4 m 28).toNat
def homeIdx (m : W32) : Nat := (bits 28 m 0).toNat

/-- A map entry lies in range for a launch of `n` registers, `zpb` tiles, `spb` bytes of scratchpad and `w` lanes
(R307). Whether a home suits the register's kind is not judged (DESIGN CHOICE, log 83). -/
def homeOk (n zpb spb w : Nat) (d m : W32) : Bool :=
  let i := homeIdx m
  match homeOf m with
  | 0 => decide (i + declW d / 32 ≤ n) && i % (declW d / 32) == 0
  | 1 => decide (i ≤ 62)
  | 2 => decide (i ≤ 6)
  | 3 => decide (i < zpb)
  | 4 => decide (i + declW d / 8 * w ≤ spb)
  | _ => false

end Sys2Proof.Machine
end

