-- ==== Sys2Proof/Machine/Launch.lean ====
section
/-! DEFINITION. Launch packets (12 R350 to R358; 03 R104, R105; 09 R292, R293): the device's own accesses to a context's
memory, packets, kernel descriptors, the checks of R356, acceptance, arming, `LAUNCH`, the queue registers, and the
completion of grids. -/

namespace Sys2Proof.Machine

/-! ## The device's accesses to a context's memory -/

/-- CXL runs on the host ports: the feature words are locked with its bit (R327, R410). -/
def State.cxl (s : State) : Bool := s.sys.lockedFeat.any fun l => (l.getD 0 0).getLsbD 8

/-- The context's current segment table (R392, R393): its valid entries. Without CXL no external memory is reached coherently
(R410). -/
def ctxSegs (s : State) (x : Context) : List Seg :=
  (List.range 1024).filterMap fun i =>
    let o := 0x1000 + 32 * i
    let word := saveWord s x (o + 24)
    let attr := if s.cxl then word else word &&& ~~~0x80
    if attr.getLsbD 0 then some { base := saveWord s x o, limit := saveWord s x (o + 8), ptab := saveWord s x (o + 16), attr }
    else none

/-- A stand-in grid for accesses through the current table. -/
def viaCtx (s : State) (x : Context) : Grid := { segs := ctxSegs s x }

/-- A grid's locked table, or before its start the current one (R394). -/
def Grid.via (g : Grid) (s : State) (x : Context) : Grid := if g.started then g else viaCtx s x

/-- The location of an address that the device may use in a context: permitted, PRESENT, and not RO for a write. -/
def devLoc (s : State) (g : Grid) (x : Context) (use : Use3) (va : W64) : Option Loc :=
  match s.walkFor g x va with
  | .pte sg _ p =>
    if segAllows sg use true true && pteSt p == 1 && !pteHost p && !(use == .wr && pteRo p) then some (pteLoc sg p va)
    else none
  | _ => none

/-- Bytes from an address, page by page; none when a page cannot be read. -/
def devRead (s : State) (g : Grid) (x : Context) : (fuel : Nat) → W64 → Nat → Option (List Byte)
  | 0, _, _ => none
  | f + 1, va, n =>
    if n = 0 then some []
    else
      let m := min n (65536 - va.toNat % 65536)
      match devLoc s g x .rd va with
      | none => none
      | some l => (devRead s g x f (va + BitVec.ofNat 64 m) (n - m)).map (s.readBytes l m ++ ·)

def State.devBytes (s : State) (g : Grid) (x : Context) (va : W64) (n : Nat) : Option (List Byte) :=
  devRead s g x (n / 65536 + 3) va n

/-- Writes bytes that lie in one page, where they may be written. -/
def devWrite (g : Grid) (x : Context) (va : W64) (bs : List Byte) : Prog :=
  .read fun s => match devLoc s g x .wr va with | some l => .one (.write l bs) | none => .done

/-! ## The packet and its descriptor (R352 to R354, R105) -/

def getW (bs : List Byte) (o : Nat) : W64 := BitVec.ofNat 64 (getN bs o 8)

/-- R352. -/
def parsePacket (b : List Byte) : Packet :=
  { code := getW b 0, arg := getW b 8, signal := getW b 16, gx := BitVec.ofNat 32 (getN b 24 4)
    gy := BitVec.ofNat 32 (getN b 28 4), gz := BitVec.ofNat 32 (getN b 32 4), dep := BitVec.ofNat 32 (getN b 36 4)
    spw := getW b 40, cpw := getW b 48, cpd := getW b 56, carry := getW b 64, kdesc := getW b 72, succ := getW b 80
    lctl := getW b 88, res := getW b 96, succn := BitVec.ofNat 16 (getN b 104 2) }

/-- Fields of LCTL (R353). -/
def Packet.lfld (p : Packet) (n l : Nat) : Nat := (bits n p.lctl l).toNat
def Packet.prio (p : Packet) : Nat := p.lfld 3 61
def Packet.ventry (p : Packet) : Bool := p.lbit 58
def Packet.exdin (p : Packet) : Bool := p.lbit 57
def Packet.strict (p : Packet) : Bool := p.lbit 56
def Packet.qstrict (p : Packet) : Bool := p.lbit 55
def Packet.regs (p : Packet) : Nat := p.lfld 8 24
def Packet.width (p : Packet) : Nat := 8 * 2 ^ p.lfld 2 22
def Packet.cg (p : Packet) : Nat := 2 ^ p.lfld 3 19
def Packet.tg (p : Packet) : Nat := p.lfld 5 14
def Packet.nbr (p : Packet) : Nat := p.lfld 7 7
def Packet.crs (p : Packet) : Nat := p.lfld 4 3

/-- Fields of RES (R354). -/
def Packet.rfld (p : Packet) (n l : Nat) : Nat := (bits n p.res l).toNat
def Packet.heat (p : Packet) : Nat := p.rfld 8 56
def Packet.heatv (p : Packet) : Bool := p.res.getLsbD 55
def Packet.vfloor (p : Packet) : Nat := if p.rfld 7 48 = 0 then 60 else p.rfld 7 48
def Packet.agent (p : Packet) : Nat := p.rfld 8 40
def Packet.budg (p : Packet) : Nat := p.rfld 10 30
def Packet.mbxv (p : Packet) : Bool := p.res.getLsbD 29
def Packet.mbx (p : Packet) : Nat := p.rfld 12 17
def Packet.gen (p : Packet) : Nat := p.rfld 16 0

/-- Bytes of scratchpad a block takes (R29). -/
def Packet.spb (p : Packet) : Nat := 256 * spwSpb p.spw

/-- Bytes of registers a block takes (R10). -/
def Packet.regBytes (p : Packet) : Nat := (p.width * p.regs * 4 + 1023) / 1024 * 1024

/-- Bytes of a phase record (R64). -/
def Packet.recBytes (p : Packet) : Nat :=
  if p.phased then
    let m := p.carry
    let c := popcount (bits 48 m 0)
    let n := 64 + 16 * p.width * c + (if carryPf m then 4 * p.width else 0)
      + 256 * ((if carrySlo m then 1 else 0) + (if carryShi m then 1 else 0))
    (n + 255) / 256 * 256
  else 0

/-- Units of the Cistern partitions that a packet describes (R208). -/
def Packet.units (p : Packet) : List Nat := (List.range (cpwNp p.cpw)).map fun k => (bits 7 p.cpd (8 * k)).toNat

/-- A kernel descriptor (R105). -/
structure KDesc where
  regs : Nat
  flags : Nat
  entry : W64
  uh : W64
  carry : W64
  cpd : W64
  heat : Nat
  crs : Nat
  flumes : W32
  feats : List W64
  fldecl : List Byte
  gen : Nat

/-- R105: a valid descriptor in 256 bytes. -/
def parseDesc (b : List Byte) : Option KDesc :=
  if getN b 0 4 == 0x4353444B && getN b 4 2 == 1 && getN b 42 2 == 0 && getN b 114 6 == 0 && getN b 120 136 == 0 then
    some { regs := getN b 6 1, flags := getN b 7 1, entry := getW b 8, uh := getW b 16, carry := getW b 24, cpd := getW b 32,
           heat := getN b 40 1, crs := getN b 41 1, flumes := BitVec.ofNat 32 (getN b 44 4),
           feats := (List.range 4).map fun i => getW b (48 + 8 * i), fldecl := (b.drop 80).take 32, gen := getN b 112 2 }
  else none

/-- The descriptor that a packet names, read in the launching context. -/
def readDesc (s : State) (g : Grid) (x : Context) (p : Packet) : Option KDesc :=
  (s.devBytes g x p.kdesc 256).bind parseDesc

/-! ## The checks of R356 -/

/-- 0x01. -/
def badFields (va : W64) (raw : List Byte) (p : Packet) : Bool :=
  let dim := fun (x : W32) => x == 0 || decide (x.toNat > 2 ^ 31)
  va.toNat % 128 != 0 || getN raw 106 22 != 0 || bits 23 p.lctl 32 != 0 || bits 3 p.lctl 0 != 0 || p.res.getLsbD 16
    || dim p.gx || dim p.gy || dim p.gz || p.regs % 8 != 0 || decide (p.regs < 8) || decide (p.regs > 192)
    || decide (p.lfld 3 19 > 5) || decide (p.tg < 1) || decide (p.tg > 24) || decide (p.nbr < 1) || decide (p.nbr > 64)
    || decide (p.crs ≥ p.width / 4) || decide (p.succn.toNat > 255)
    || (p.rfld 7 48 != 0 && (decide (p.rfld 7 48 < 60) || decide (p.rfld 7 48 > 97)))
    || p.code.toNat % (if p.exdin then 64 else 8) != 0 || p.signal.toNat % 8 != 0 || p.succ.toNat % 8 != 0
    || p.kdesc.toNat % 64 != 0

/-- 0x02 (R28). -/
def badSpw (p : Packet) : Bool :=
  let w := p.spw
  spwRfg w + spwSpg w + spwAcg w != 64 || spwAcg w % 2 != 0 || decide (p.spb > spwSpg w * 16384)
    || decide (2 * spwZpb w > spwAcg w) || decide (spwZpb w > 16) || decide (p.regBytes > spwRfg w * 16384)
    || bits 25 w 0 != 0

/-- 0x03 (R31, R208, R224). -/
def badCpw (p : Packet) (d : Option KDesc) : Bool :=
  let w := p.cpw
  let np := cpwNp w
  let unit := fun k => (bits 7 p.cpd (8 * k)).toNat
  cpwCsu w + cpwL1u w + cpwCiu w != 128 || cpwL1u w == 0 || decide (cpwCiu w < np) || decide (np > 8) || bits 36 w 0 != 0
    || (p.cpd &&& 0x8080808080808080) != 0
    || (decide (np ≥ 1) && ((List.range np).any (fun k => unit k == 0) || ((List.range np).map unit).sum != cpwCiu w))
    || (List.range 8).any (fun k => decide (k ≥ np) && unit k != 0)
    || (match d with
      | some d => (List.range 32).any fun q =>
          d.flumes.getLsbD q && decide (unit ((d.fldecl.getD q 0).toNat % 8) > 16)
      | none => false)

/-- 0x05 (R62). -/
def badCarry (p : Packet) : Bool :=
  (!p.phased && p.carry != 0) || bits 13 p.carry 51 != 0
    || (List.range 48).any fun i => p.carry.getLsbD i && decide (4 * i ≥ p.regs)

/-- 0x06 (R326, R328); an Exdin kernel's header names feature words too (R303). -/
def badFeats (y : Sys) (x : Context) (p : Packet) (d : Option KDesc) (h : Option (List Byte)) : Bool :=
  let has := fun i => (x.feat.getD 0 0).getLsbD i
  y.lockedFeat.isNone
    || (match d with
      | some d => (List.range 4).any fun i => (d.feats.getD i 0 &&& ~~~(x.feat.getD i 0)) != 0
      | none => false)
    || (match h with | some h => exFeatFaults h x.feat ≠ [] | none => false)
    || (p.ventry && !has featVliw) || (p.exdin && !has featExdin) || (p.phased && !has 10) || (p.mbxv && !has featMbox)
    || ((p.dep != 0 || p.succn != 0) && !has featDlaunch)

/-- R105: the packet contradicts its descriptor. -/
def contradicts (p : Packet) (d : KDesc) : Bool :=
  p.code != d.entry || p.regs != d.regs || p.lfld 2 22 != d.flags % 4 || p.crs != d.crs
    || p.phased != d.flags.testBit 2 || p.carry != d.carry || p.cpd != d.cpd
    || (d.flags.testBit 3 && (!p.heatv || p.heat != d.heat)) || p.exdin != d.flags.testBit 4
    || p.ventry != d.flags.testBit 5 || p.gen != d.gen

/-- An Exdin kernel as its header, code, declarations and map stand in memory (R303). -/
def exImage (s : State) (g : Grid) (x : Context) (p : Packet) : Option ExImage := do
  let h ← s.devBytes g x p.code 64
  let nreg := getN h 6 2
  let code ← s.devBytes g x (p.code + 64) (4 * getN h 8 4)
  let decl ← s.devBytes g x (p.code + BitVec.ofNat 64 (getN h 12 4)) (4 * nreg)
  let map ← s.devBytes g x (p.code + BitVec.ofNat 64 (getN h 16 4)) (4 * nreg)
  some { header := h, code := words32 code (getN h 8 4), decls := words32 decl nreg, homes := words32 map nreg }

/-- Whether validation has marked a packet's kernel: at this generation before, or by its check now (R304, log 19). -/
def ExImage.valid (m : ExImage) (x : Context) (p : Packet) : Bool :=
  x.marked.contains (p.code, p.gen) || (m.fault x.feat).isNone

/-- The residency information of a kernel with a map in range for the launch (R307). -/
def ExImage.info (m : ExImage) (p : Packet) : Option ExInfo :=
  if getN m.header 16 4 != 0 && (m.decls.zip m.homes).all (fun e => homeOk p.regs (spwZpb p.spw) p.spb p.width e.1 e.2) then
    some { nreg := getN m.header 6 2, decls := m.decls, map := m.homes }
  else none

/-- A packet's Exdin kernel, validated and with homes. -/
def exKernel (s : State) (g : Grid) (x : Context) (p : Packet) : Option ExInfo :=
  match exImage s g x p with
  | some m => if m.valid x p then m.info p else none
  | none => none

/-- The first failing word of a packet's kernel: in the image, or where that cannot be read whole the header's first, or the field
that leads out of what can be read; the header itself where that cannot be read (R304). -/
def exFault (s : State) (g : Grid) (x : Context) (p : Packet) : Option ExFault :=
  match exImage s g x p with
  | some m => m.fault x.feat
  | none =>
    match s.devBytes g x p.code 64 with
    | none => some (0, 1)
    | some h =>
      match firstFault (exHeaderFaults h ++ exFeatFaults h x.feat) with
      | some e => some e
      | none =>
        let reads := fun (o n : Nat) => (s.devBytes g x (p.code + BitVec.ofNat 64 o) n).isSome
        some (if !reads 64 (4 * getN h 8 4) then 2 else if !reads (getN h 12 4) (4 * getN h 6 2) then 3 else 4, 1)

/-- What validation leaves: its mark on the kernel, or its report of the first failing word (R304). -/
def validate (s : State) (xid : Nat) (g : Grid) (x : Context) (p : Packet) : Prog :=
  Prog.when (p.exdin && !x.marked.contains (p.code, p.gen)) <|
    match exFault s g x p with
    | none => .one (.ctx xid fun c => { c with marked := (p.code, p.gen) :: c.marked })
    | some e => .one (.sys fun y => { y with log := y.log ++ [.invalid p.code e.1 e.2] })

/-- The refusal code found at the read, 0 for none (R356). -/
def refusal (s : State) (xid : Nat) (x : Context) (g : Grid) (va : W64) (raw : List Byte) : Nat :=
  let p := parsePacket raw
  let d := readDesc s g x p
  if badFields va raw p then 0x01
  else if badSpw p then 0x02
  else if badCpw p d then 0x03
  else if p.blocks % p.cg != 0 || decide (p.cg * p.width > 256) then 0x04
  else if badCarry p then 0x05
  else if badFeats s.sys x p d (if p.exdin then s.devBytes g x p.code 64 else none) then 0x06
  else if (match d with | some d => contradicts p d | none => true) || (p.exdin && (exKernel s g x p).isNone) then 0x07
  else if p.ventry && (p.width == 8 || p.exdin) then 0x09
  else if s.grids.any fun e => e.2.armed && e.2.ctx == xid && e.2.va == va then 0x0A
  else 0

/-! ## Acceptance (R292, R293, R355) -/

/-- Packets in the task table: armed or queued (R292). -/
def State.tableCount (s : State) : Nat := (s.grids.filter fun e => !e.2.started && !e.2.done).length

def State.tableFull (s : State) : Bool := decide (s.tableCount ≥ 4096)

/-- A new grid, with the next number. -/
def addGrid (g : Grid) : Prog :=
  .read fun s =>
    (Prog.one (.newGrid s.sys.nextGrid { g with order := s.sys.nextOrder })).andThen
      (.one (.sys fun y => { y with nextGrid := y.nextGrid + 1, nextOrder := y.nextOrder + 1 }))

/-- A packet that has been read: its refusal code, and its acceptance, arming or refusal. A refused packet goes on to its
completion (R357). -/
def submit (s : State) (xid : Nat) (x : Context) (g : Grid) (va : W64) (raw : List Byte) (slot : Option (Nat × Nat))
    (queue : Option Nat) : Nat × Prog :=
  let p := parsePacket raw
  let code := refusal s xid x g va raw
  let base : Grid := { pkt := p, va, ctx := xid, prio := min p.prio x.prio, slot }
  if code != 0 then
    (code, Prog.all [Prog.when (code == 7) (validate s xid g x p),
      addGrid { base with refuse := BitVec.ofNat 8 code, done := true },
      Prog.when (p.signal == 0) (.one (.sys fun y => { y with log := y.log ++ [.refused va code] }))])
  else
    match readDesc s g x p with
    | none => (0, .done)
    | some d =>
      let armed := p.dep != 0
      let grid : Grid :=
        { base with uh := d.uh, fdecl := d.fldecl, flumes := d.flumes, gen := p.gen, armed,
                    queue := if armed then none else queue, exdin := if p.exdin then exKernel s g x p else none }
      (0, (validate s xid g x p).andThen (addGrid grid))

/-- `LAUNCH` (R292): a release at device scope. -/
def semLaunch (f : XForm) : Sem := fun u s =>
  if !u.feat 0 featDlaunch then u.illegal
  else
    u.need [(f.d, 64), (f.a, 64)] <| u.once <|
      let va := u.sf f.a
      if va.toNat % 128 != 0 then .trap (u.engTrap cMisaligned va.toInt false)
      else
        u.checkSpans s 0 0 false [{ a := (va.toNat : Int), n := 128 }] <|
          if s.tableFull then .wait .launch .done
          else
            .commit <| u.release.andThen <| .read fun t =>
              match t.devBytes u.grid u.ctx va 128 with
              | none => .done
              | some raw =>
                let r := submit t u.blk.ctx u.ctx u.grid va raw none none
                r.2.andThen (u.putAll f.d 64 r.1)
def execLaunch (f : XForm) (s : State) : Host.Outcome State Fault Refusal := runX f (semLaunch f) s

/-! ## Host launch queues (R350, R351) -/

def Sys.queue (y : Sys) (q : Nat) : Queue := (y.queues.get? q).getD {}

def Queue.pending (q : Queue) : Bool := q.en && q.head != q.tail

/-- Changes a queue. -/
def onHostQueue (q : Nat) (f : Queue → Queue) : Prog :=
  .one (.sys fun y => { y with queues := y.queues.set q (f (y.queue q)) })

/-- The context's parked blocks become eligible (R404). -/
def unpark (x : Nat) : Prog :=
  .read fun s => .one (.ctx x fun c =>
    if c.parked then
      { c with parked := false, stalledSince := none, saved := c.saved.map (SavedBlock.makeEligible s.sys.time) }
    else c)

/-- QTAIL: a doorbell that makes packets readable also wakes a parked context (R351, R404). A replay withholds it (R431). -/
def qtailProg (s : State) : Prog :=
  let q := s.arg 0
  let v := BitVec.ofNat 32 (s.arg 1)
  let old := s.sys.queue q
  if q ≥ 256 || s.sys.replay.isSome then .done
  else if (v - old.head).toNat > 2 ^ old.szl then .one (.sys fun y => { y with log := y.log ++ [.badDoorbell q] })
  else
    (onHostQueue q fun e => { e with tail := v }).andThen
      (Prog.when ((v - old.head).toNat > (old.tail - old.head).toNat) (unpark old.ctx))
def execQtail (s : State) : Host.Outcome State Fault Refusal := runEvent qtailProg s

/-- QCTL (R351). -/
def qctlProg (s : State) : Prog :=
  let q := s.arg 0
  let v := BitVec.ofNat 64 (s.arg 1)
  let old := s.sys.queue q
  let en := v.getLsbD 63
  let ctx := (bits 12 v 48).toNat
  let szl := (bits 4 v 44).toNat
  if q ≥ 256 then .done
  else if ctx = old.ctx ∧ szl = old.szl then onHostQueue q fun e => { e with en }
  else if !old.en && old.head == old.tail then onHostQueue q fun e => { e with en, ctx, szl }
  else .done
def execQctl (s : State) : Host.Outcome State Fault Refusal := runEvent qctlProg s

/-- Every core's fetched words of a context are dropped (R405, R415). -/
def dropFetched (x : Nat) : Prog :=
  .read fun s => Prog.each s.cores fun e => .one (.core e.1 fun k => { k with ic := dropCtx k.ic x, dc := dropCracksOf k.dc x })

/-- LAUNCH_PACKET_READ: argument queue. Queue order implies `PFENCE.if` (R351, R356, R405). A replay withholds the host's packets
(R431). -/
def launchPacketRead (s : State) : Prog :=
  let q := s.arg 0
  let e := s.sys.queue q
  if !e.pending || s.tableFull || s.sys.replay.isSome then .done
  else
    let va := e.base + BitVec.ofNat 64 (128 * (e.head.toNat % 2 ^ e.szl))
    let next := onHostQueue q fun e => { e with head := e.head + 1 }
    let refuse := (Prog.one (.sys fun y => { y with log := y.log ++ [.refused va 1] })).andThen next
    match s.ctx? e.ctx with
    | none => refuse
    | some x =>
      let g := viaCtx s x
      match s.devBytes g x va 128 with
      | none => refuse
      | some raw => Prog.all [(submit s e.ctx x g va raw none (some q)).2, dropFetched e.ctx, next]
def execLaunchPacketRead (s : State) : Host.Outcome State Fault Refusal := runEvent launchPacketRead s

/-! ## Grid completion (R357, R358, R219) -/

/-- A TILE-UNDERREAD record (R219). -/
def underreadBytes (ctx part gran : Nat) (t : Tile) (time : Nat) : List Byte :=
  let st := (if t.ker then 2 ^ 23 else 0) + (if t.st == .sealed then 2 ^ 21 else 0) + 2 ^ 12 * t.size + t.cnt
  let o := t.owner
  recBytes 0 (BitVec.ofNat 64 (handleOf t.gen part gran)) (BitVec.ofNat 64 st)
    (if o.hart then BitVec.ofNat 32 o.core else o.bx) (if o.hart then 0xFFFFFFFF else o.byy)
    (if o.hart then 0xFFFFFFFF else o.bz) 0 cTileUnderread 0x90 0xFF ctx t.agent.toNat 0 time

/-- Live tiles that a condition picks leave cluster `k` with their records; a strict grid takes its cause at the first
(R219). -/
def reclaim (k gid : Nat) (pick : Tile → Bool) : Prog :=
  .read fun s =>
    match s.grid? gid with
    | none => .done
    | some g =>
      let q := s.cluster k
      if q.partGrid != some gid then .done
      else
        let hits := q.parts.zipIdx.flatMap fun e =>
          (e.1.tiles.filter fun t => pick t.2 && t.2.st != .draining).map fun t => (e.2, t.1, t.2)
        Prog.all [
          Prog.each hits fun h => Prog.all [
            logRecord g.ctx (underreadBytes g.ctx h.1 h.2.1 h.2.2 s.sys.time),
            onAgent g.ctx h.2.2.agent.toNat fun a => { a with grans := a.grans - h.2.2.size }, wakeCistern k],
          Prog.when (!hits.isEmpty) (.one (.clus k fun q =>
            { q with parts := q.parts.map fun p =>
                { p with tiles := p.tiles.filter fun t => !(pick t.2 && t.2.st != .draining), stall := 0 } })),
          Prog.when (!hits.isEmpty && g.pkt.strict && g.cause == 0)
            (killGrid gid cTileUnderread)]

/-- The same for the tiles of a grid that stand in its context's records of spilled partitions (R210, R219). -/
def reclaimSpilled (gid : Nat) : Prog :=
  .read fun s =>
    match s.grid? gid with
    | none => .done
    | some g =>
      let recs : List (Nat × ClusterRec) := match s.ctx? g.ctx with | some x => x.clusRecs.filter fun r => r.2.grid == gid | none => []
      let hits : List (Nat × Nat × Tile) := recs.flatMap fun r => r.2.parts.zipIdx.flatMap fun e =>
        (e.1.tiles.filter fun t => t.2.st != .draining).map fun t => (e.2, t.1, t.2)
      Prog.all [
        Prog.each hits fun h => Prog.all [
          logRecord g.ctx (underreadBytes g.ctx h.1 h.2.1 h.2.2 s.sys.time),
          onAgent g.ctx h.2.2.agent.toNat fun a => { a with grans := a.grans - h.2.2.size }],
        Prog.when (!hits.isEmpty && g.pkt.strict && g.cause == 0) (killGrid gid cTileUnderread)]

/-- Entry `i` of a grid's successor list and the place of that packet's DEP, or the address that could not be reached. -/
def Grid.depAt (g : Grid) (s : State) (x : Context) (i : Nat) : Except W64 (W64 × Loc) :=
  let v := g.via s x
  let la := g.pkt.succ + BitVec.ofNat 64 (8 * i)
  match s.devBytes v x la 8 with
  | none => .error la
  | some bs =>
    let a := BitVec.ofNat 64 (leNat bs)
    match devLoc s v x .wr (a + 36) with
    | none => .error a
    | some l => .ok (a, l)

/-- The order log's entry of the atomic on a DEP in device memory (R430). -/
def depRec (gid i : Nat) (l : Loc) : List OrderRec := if l.sp = 0 then [atomRec l.a [gid, 2 ^ 33, i]] else []

/-- The entries of a completing grid's atomics. -/
def State.depRecs (s : State) (gid : Nat) (g : Grid) : List OrderRec :=
  match s.ctx? g.ctx with
  | none => []
  | some x => (List.range g.pkt.succn.toNat).flatMap fun i =>
      match g.depAt s x i with | .ok e => depRec gid i e.2 | .error _ => []

/-- The DEP of a successor falls by one, and an armed packet whose word reaches zero launches, after which fetched words are
read afresh (R293, R358, R405). -/
def successor (gid i : Nat) : Prog :=
  .read fun s =>
    match s.grid? gid with
    | none => .done
    | some g =>
      match s.ctx? g.ctx with
      | none => .done
      | some x =>
        match g.depAt s x i with
        | .error a => .one (.sys fun y => { y with log := y.log ++ [.succMiss a] })
        | .ok (a, l) =>
          rmw [(l, 4)] 4 (fun old => old - 1) fun old => (Prog.each (depRec gid i l) (orderAtomic g.ctx)).andThen <|
            if old = 1 then
              Prog.each s.grids fun e =>
                Prog.when (e.2.armed && e.2.ctx == g.ctx && e.2.va == a)
                  ((dropFetched g.ctx).andThen (.one (.grid e.1 fun h => { h with armed := false })))
            else .done

/-- The completion signal (R357). -/
def Grid.signal (g : Grid) : W64 :=
  BitVec.ofNat 64 (2 ^ 63 + 2 ^ 40 * g.cause.toNat + 2 ^ 32 * g.refuse.toNat)

/-- Every block has ended, or the grid was refused or ended and nothing of it is resident. -/
def State.gridOver (s : State) (gid : Nat) (g : Grid) : Bool :=
  (s.residents gid).isEmpty
    && (g.done || (g.started && (s.savedOf gid).isEmpty && decide (g.ended.length ≥ g.pkt.blocks)))

/-- R368: the lowest class that covered at least 95 % of the windows. -/
def toggleOf (ws : List Nat) : Nat :=
  ((List.range 8).find? fun k => decide (100 * (ws.filter fun w => decide (w ≤ k)).length ≥ 95 * ws.length)).getD 7

/-- A kernel at a generation, as the toggle classes name it (R368). -/
def Grid.kernelKey (g : Grid) : Nat := 2 ^ 80 * g.ctx + 2 ^ 16 * g.pkt.kdesc.toNat + g.gen

/-- HEAD of the mailbox of a handler grid advances by one (R291). -/
def handlerDone (m : Nat) : Prog :=
  .read fun s =>
    match s.sys.mbx.get? m with
    | none => .done
    | some e =>
      Prog.andThen (match s.ctx? e.owner with
        | some x =>
          match devLoc s (viaCtx s x) x .wr e.ring with
          | some l => .one (.write l (leBytes (leNat (s.readBytes l 8) + 1) 8))
          | none => .done
        | none => .done)
      (.one (.sys fun y => { y with mbx := y.mbx.modify m fun e => { e with running := none } }))

/-- A hart of a grid stops and resets; its copies go on to their end (R276, R280). -/
def Hart.leave (h : Hart) (gid : Nat) : Hart :=
  if h.run && h.grid == gid then { grid := h.grid, ctx := h.ctx, cq := { h.cq with stalls := 0 } } else h

/-- Step 4 of R357 and what the grid then gives back: its partitions (R209), its place in the tables. -/
def finishGrid (gid : Nat) : Prog :=
  .read fun s =>
    match s.grid? gid with
    | none => .done
    | some g =>
      Prog.all [
        (match s.ctx? g.ctx with
        | some x => Prog.when (g.pkt.signal != 0) (devWrite (g.via s x) x g.pkt.signal (leBytes g.signal.toNat 8))
        | none => .done),
        Prog.when (!g.windows.isEmpty) (.one (.sys fun y =>
          { y with toggles := (g.kernelKey, toggleOf g.windows) :: y.toggles.filter fun e => e.1 != g.kernelKey })),
        Prog.each s.clusters fun e =>
          Prog.when (e.2.partGrid == some gid || e.2.csuGrid.any (·.1 == gid)) (.one (.clus e.1 fun q =>
            let q := if q.partGrid = some gid then { q with parts := [], partGrid := none } else q
            { q with csuGrid := q.csuGrid.filter (·.1 != gid) })),
        .one (.ctx g.ctx fun x =>
          { x with clusRecs := x.clusRecs.filter fun r => r.2.grid != gid }),
        Prog.each s.cores fun e => .one (.core e.1 fun k =>
          { k with
            flumes := k.flumes.map fun f => if f.2.grid = some gid then (f.1, { f.2 with grid := none }) else f
            loader := k.loader.leave gid, storer := k.storer.leave gid }),
        .one (.sys fun y => { y with coop := if y.coop = some gid then none else y.coop }),
        (match g.slot with | some (m, _) => handlerDone m | none => .done),
        .one (.delGrid gid)]

/-- Steps 1 to 3 of R357; without MBXV step 4 follows at once. What the grid wrote is visible on every path from then on (R339,
log 87). A replay holds the atomics on DEP words to the logged order (R431). -/
def completeGrid (gid : Nat) : Prog :=
  .read fun s =>
    match s.grid? gid with
    | none => .done
    | some g =>
      if !s.gridOver gid g then .done
      else if g.notified = 1 then .done
      else if g.notified = 2 then finishGrid gid
      else if !s.replayAllows g.ctx (s.depRecs gid g) then .done
      else
        Prog.all [
          Prog.each (List.range 16) settleDie, dropPaths none true,
          Prog.each s.clusters fun e => reclaim e.1 gid fun _ => true, reclaimSpilled gid,
          Prog.each (List.range g.pkt.succn.toNat) (successor gid),
          .read fun t =>
            let g := (t.grid? gid).getD g
            if g.pkt.mbxv then
              (Prog.one (.grid gid fun g => { g with notified := 1 })).andThen (.one (.sys fun y =>
                { y with deliveries := y.deliveries ++ [{
                    mbx := g.pkt.mbx, kind := 3, payload := leBytes g.va.toNat 8 ++ leBytes g.signal.toNat 8, ctx := g.ctx,
                    src := .grid gid }] }))
            else finishGrid gid]

/-- GRID_COMPLETION: argument grid. -/
def gridCompletion (s : State) : Prog := completeGrid (s.arg 0)
def execGridCompletion (s : State) : Host.Outcome State Fault Refusal := runEvent gridCompletion s

end Sys2Proof.Machine
end

