-- ==== Sys2Proof/Machine/Place.lean ====
section
/-! DEFINITION. The start of grids and the placement of blocks (12 R359 to R368; 01 R28 to R35; 02 R38 to R41; 13 R394),
stealing, and the end of a block. -/

namespace Sys2Proof.Machine

/-! ## Room on a core (R363) -/

/-- `len` units at `a` lie below the limit and off every used run. -/
def fitsAt (used : List (Nat × Nat)) (lim len a : Nat) : Bool :=
  decide (a + len ≤ lim) && used.all fun u => decide (a + len ≤ u.1) || decide (u.1 + u.2 ≤ a)

/-- The lowest place of a run of `len` units. -/
def firstFit (used : List (Nat × Nat)) (lim len : Nat) : Option Nat :=
  if len = 0 then some 0
  else
    (0 :: used.map fun u => u.1 + u.2).foldl (fun best a =>
      if fitsAt used lim len a then match best with | some b => some (min a b) | none => some a else best) none

/-- The lowest of 64 barriers from which `len` consecutive ones, counted modulo 64, are off every used run (R255). -/
def barrierRun (used : List (Nat × Nat)) (len : Nat) : Option Nat :=
  (List.range 64).find? fun a => used.all fun u => decide (len ≤ (u.1 + 64 - a) % 64) && decide (u.2 ≤ (a + 64 - u.1) % 64)

/-- Physical slices for a width: the lowest-numbered of those that are free (R38; DESIGN CHOICE, log 81). -/
def slicesFor (width : Nat) (free : Nat → Bool) : Option (List Nat) :=
  let quarter := fun q => (List.range 4).map (4 * q + ·)
  let whole := (List.range 4).filter fun q => (quarter q).all free
  match width with
  | 8 => ((List.range 8).map fun h => [2 * h, 2 * h + 1]).find? fun l => l.all free
  | 16 => whole.head?.map quarter
  | 32 => match whole with | a :: b :: _ => some (quarter a ++ quarter b) | _ => none
  | _ => if whole.length = 4 then some (List.range 16) else none

/-- The packet of a resident block. -/
def State.pktOf (s : State) (b : Block) : Packet := match s.grid? b.grid with | some g => g.pkt | none => {}

/-- Bytes of the register-file region that a block holds: registers, but for a block between phases, and the phase record
(R10, R63, R64). -/
def State.regHeld (s : State) (b : Block) : Nat :=
  (if b.phaseRec.isNone then (s.pktOf b).regBytes else 0) + (s.pktOf b).recBytes

/-- The grid of a task of core `c`. -/
def State.taskGrid (s : State) (c : Nat) : Task → Option Grid
  | .phase b _ => (s.block? c b).bind fun x => s.grid? x.grid
  | .launch gid _ | .resume _ gid _ => s.grid? gid

/-- A phase task. -/
def Task.isPhase : Task → Bool
  | .phase .. => true
  | _ => false

/-- The tasks of a core that may be next, by descending priority: the first phase task of each, and the first of the others (R65,
R373). -/
def State.taskOrder (s : State) (c : Nat) : List Task :=
  (List.range 8).flatMap fun i =>
    let l := (s.core c).tasks.filter fun t => match s.taskGrid c t with | some g => !g.done && g.prio == 7 - i | none => false
    l.filter fun t => l.find? (fun u => u.isPhase == t.isPhase) == some t

/-- Bytes of registers and of scratchpad that a task needs: a phase task holds its scratchpad and its record. -/
def State.taskNeed (s : State) (c : Nat) (t : Task) : Nat × Nat :=
  match s.taskGrid c t, t with
  | some g, .phase .. => (g.pkt.regBytes, 0)
  | some g, _ => (g.pkt.regBytes + g.pkt.recBytes, g.pkt.spb)
  | none, _ => (0, 0)

/-- What a preloaded task reserves (R373). -/
def State.preloadNeed (s : State) (c : Nat) : Nat × Nat :=
  if (s.core c).preload then match s.taskOrder c with | t :: _ => s.taskNeed c t | [] => (0, 0) else (0, 0)

/-- Bytes of the register-file region in use, with those that a preloaded task reserves. -/
def State.regUse (s : State) (c : Nat) : Nat :=
  ((s.core c).blocks.map fun e => s.regHeld e.2).sum + (s.preloadNeed c).1

/-- Where a block would stand. -/
structure Spot where
  core : Nat
  phys : List Nat
  scr : Nat
  z : Nat
  borg : Nat
  deriving DecidableEq, Repr

/-- A hart is idle or runs the images of the grid (R280). -/
def Hart.freeFor (h : Hart) (gid : Nat) : Bool := !h.run || h.grid == gid

/-- R363 on one core. `phased` takes a block between phases, which needs no registers. -/
def State.spotOn (s : State) (gid : Nat) (g : Grid) (regs : Nat) (c : Nat) : Option Spot :=
  let k := s.core c
  let p := g.pkt
  let bs := k.blocks.map (·.2)
  let free := fun i => !(bs.any fun b => b.phys.contains i) && !k.qmask.getLsbD (i / 4)
  let flumesFree := (List.range 32).all fun q =>
    !g.flumes.getLsbD q || (match (k.flume q).grid with | some h => h == gid | none => true)
  if (!bs.isEmpty && k.spw != p.spw) || decide (s.regUse c + regs > 16384 * spwRfg p.spw)
      || (g.hasHart && !(k.loader.freeFor gid && k.storer.freeFor gid)) || !flumesFree then none
  else do
    let phys ← slicesFor p.width free
    let taken := bs.map fun b => (b.scrBase, b.scrLen)
    let lim := 16384 * spwSpg p.spw
    let n := (s.preloadNeed c).2
    let scr ← firstFit (match firstFit taken lim n with | some a => (a, n) :: taken | none => taken) lim p.spb
    let z ← firstFit (bs.map fun b => (b.zBase, 32768 * b.zpb)) (16384 * spwAcg p.spw) (32768 * spwZpb p.spw)
    let borg ← barrierRun (bs.map fun b => (b.borg.toNat, b.nbr)) p.nbr
    some { core := c, phys, scr, z, borg }

/-! ## Room on a cluster (R32, R39, R209, R210) -/

def coresOf (k : Nat) : List Nat := (List.range 4).map (4 * k + ·)

/-- Resident blocks of a cluster. -/
def State.clusterBlocks (s : State) (k : Nat) : List Block := (coresOf k).flatMap fun c => (s.core c).blocks.map (·.2)

/-- Partitions that may be spilled: their grid has blocks saved and none resident here (R210). -/
def State.spillable (s : State) (k : Nat) : Bool :=
  match (s.cluster k).partGrid with
  | none => false
  | some h => ((s.clusterBlocks k).all fun b => b.grid != h) && !(s.savedOf h).isEmpty

/-- The cluster may take a cluster group of the grid. -/
def State.clusterOk (s : State) (gid : Nat) (p : Packet) (k : Nat) : Bool :=
  let q := s.cluster k
  let held := q.partGrid.isSome && !s.spillable k
  (q.cpw == p.cpw || ((s.clusterBlocks k).isEmpty && !held))
    && q.csuGrid.isNone
    && (cpwNp p.cpw == 0 || q.partGrid == some gid || !held)

/-- The partitions of a cluster, with every granule's bytes, go to a record of the context, to which the grid's saved blocks
then belong (R210, R402). -/
def spillParts (k : Nat) : Prog :=
  .read fun s =>
    let q := s.cluster k
    match q.partGrid.bind fun h => (s.grid? h).map fun g => (h, g.ctx) with
    | none => .done
    | some (h, x) =>
      let n := s.sys.nextId
      let r : ClusterRec :=
        { grid := h, clus := k, parts := q.parts.map (fun p => { p with reqs := [] }), cist := q.cist, active := none, shadow := none }
      Prog.all [
        .one (.ctx x fun c => { c with
          clusRecs := c.clusRecs.set n r
          saved := c.saved.map fun v => if v.blk.grid = h ∧ v.clus = k ∧ v.part = none then { v with part := some n } else v }),
        .one (.sys fun y => { y with nextId := y.nextId + 1 }),
        .one (.clus k fun q => { q with parts := [], partGrid := none })]

/-- Bytes of the spill region that a block's save record takes: the storage that R402 lists, and 16 KiB for the rest (log 75). -/
def Packet.saveBytes (p : Packet) : Nat := p.regBytes + p.recBytes + p.spb + 32768 * spwZpb p.spw + 0x4000

/-- Bytes of it that the record of a grid's partitions takes. -/
def Packet.partBytes (p : Packet) : Nat := 65536 * cpwCiu p.cpw + 0x1000

/-- Bytes of a context's spill region that are reserved (R402). -/
def State.spillUsed (s : State) (x : Nat) : Nat :=
  (s.cores.map fun e => ((e.2.blocks.filter fun b => b.2.ctx == x).map fun b => (s.pktOf b.2).saveBytes).sum).sum
    + (s.clusters.map fun e => match e.2.partGrid.bind s.grid? with | some g => if g.ctx = x then g.pkt.partBytes else 0 | none => 0).sum
    + (match s.ctx? x with
      | some c => (c.saved.map fun v => (s.pktOf v.blk).saveBytes).sum
          + (c.clusRecs.map fun r => if r.2.parts.isEmpty then 0 else match s.grid? r.2.grid with | some g => g.pkt.partBytes | none => 0).sum
      | none => 0)

/-- The spill region can hold `n` bytes more (R402). -/
def State.spillRoom (s : State) (x n : Nat) : Bool :=
  match s.ctx? x with | some c => decide (0x1000000 + s.spillUsed x + n ≤ c.saveSize.toNat) | none => false

/-- The cluster takes the partition word and creates the grid's partitions, empty (R32, R209). -/
def enterCluster (k gid : Nat) (g : Grid) (grp : Nat) : Prog :=
  .read fun s =>
    let q := s.cluster k
    let p := g.pkt
    let own := q.partGrid == some gid
    let needs := q.partGrid.isSome && !own && (cpwNp p.cpw ≥ 1 || q.cpw != p.cpw)
    Prog.all [
      Prog.when needs (spillParts k),
      Prog.when (cpwNp p.cpw ≥ 1 && !own) (Prog.one (.zero ⟨4, k, 0⟩ (65536 * cpwCiu p.cpw))),
      Prog.when (cpwCsu p.cpw ≥ 1 && q.csuCtx != g.ctx) (Prog.one (.zero ⟨3, k, 0⟩ (65536 * cpwCsu p.cpw))),
      .one (.clus k fun q =>
        let q := { q with cpw := p.cpw, l1 := q.l1.take { q with cpw := p.cpw }.l1Max }
        let q := if cpwNp p.cpw ≥ 1 && !own then
            { q with parts := p.units.map (fun u => { units := u }), partGrid := some gid } else q
        if cpwCsu p.cpw ≥ 1 then { q with csuGrid := some (gid, grp), csuCtx := g.ctx } else q)]

/-! ## Heat and scrip (R364 to R368) -/

def towerOf (c : Nat) : Nat := c / 96

/-- K of a core and a vault position of its tower, from the running image. -/
def heatK (im : List Byte) (c v : Nat) : Nat := (Config.coupling im (towerOf c) (c % 96) v).toNat

def State.vault (s : State) (v : Nat) : Vault := (s.sys.vaults.get? v).getD {}

/-- R365: multiplier and bandwidth left, in percent, of a temperature in units of 2^-10 degrees. -/
def bandOf (t : Int) : Nat × Nat :=
  if t < 80 * 1024 then (1, 97)
  else if t < 90 * 1024 then (2, 94)
  else if t < 100 * 1024 then (4, 88)
  else if t ≤ 105 * 1024 then (8, 76)
  else (8, 40)

/-- T of a vault position with a candidate block (R364). -/
def State.heatT (s : State) (c h v : Nat) : Int := (s.vault (16 * towerOf c + v)).e + (h * heatK s.sys.image c v : Nat)

/-- R366: some vault that the core heats would be left below its floor. -/
def State.heatRefused (s : State) (c h floor : Nat) : Bool :=
  if h = 0 then false
  else (List.range 16).any fun v => heatK s.sys.image c v > 0 && decide ((bandOf (s.heatT c h v)).2 < floor)

/-- R367. -/
def State.scripOf (s : State) (c h : Nat) : Nat :=
  if h = 0 then 0 else ((List.range 16).map fun v => h * heatK s.sys.image c v * (bandOf (s.heatT c h v)).1).sum

/-- Heat weight of a grid's blocks (R354, R368). -/
def State.heatOf (s : State) (g : Grid) : Nat :=
  if g.pkt.heatv then g.pkt.heat
  else 32 * ((s.sys.toggles.find? fun e => e.1 == g.kernelKey).map (·.2)).getD 7 + 16

/-- Raises or lowers E by a block's heat on a core (R364). -/
def addHeat (c h : Nat) (up : Bool) : Prog :=
  if h = 0 then .done
  else .one (.sys fun y =>
    { y with vaults := (List.range 16).foldl (fun t v =>
        let n := 16 * towerOf c + v
        let old := (t.get? n).getD {}
        let d : Int := (h * heatK y.image c v : Nat)
        t.set n { old with e := if up then old.e + d else old.e - d }) y.vaults })

/-- R366: the floor on a tower for a candidate of a grid. -/
def State.floorOn (s : State) (g : Grid) (t : Nat) : Nat :=
  s.cores.foldl (fun m e =>
    if towerOf e.1 = t then e.2.blocks.foldl (fun m b => max m (s.pktOf b.2).vfloor) m else m) g.pkt.vfloor

/-- The charge of a placed block (R367). -/
def chargeScrip (x agent n : Nat) : Prog :=
  if n = 0 then .done
  else (Prog.one (.ctx x fun c => { c with scrip := (c.scrip + n) % 2 ^ 64 })).andThen
    (onAgent x agent fun a => { a with scrip := a.scrip + n })

/-! ## Choosing cores (R366) -/

/-- The pair with the lowest number, the first of equals. -/
def lowest {β : Type} (l : List (Nat × β)) : Option (Nat × β) :=
  l.foldl (fun best e => match best with | some b => if e.1 < b.1 then some e else some b | none => some e) none

/-- The core of cluster `k` with the lowest charge among those that pass R363 and are not refused. -/
def State.bestCore (s : State) (gid : Nat) (g : Grid) (regs h floor k : Nat) : Option (Nat × Spot) :=
  lowest ((coresOf k).filterMap fun c =>
    (s.spotOn gid g regs c).bind fun sp => if s.heatRefused c h floor then none else some (s.scripOf c h, sp))

/-- Gives each of a list its core, one after another, each judged in the state that the earlier leave; the sum of the
charges and the program that places them. -/
def assign {β : Type} (judge : State → β → Option (Nat × Spot)) (put : β → Spot → Nat → Prog) :
    List β → State → Option (Nat × Prog)
  | [], _ => some (0, .done)
  | i :: r, s =>
    match judge s i with
    | none => none
    | some (n, sp) =>
      match assign judge put r ((put i sp n).run s) with
      | none => none
      | some (t, p) => some (n + t, (put i sp n).andThen p)

/-! ## State at block start (R35) -/

/-- An Exdin register of the grid has its home at a place (R307). -/
def Grid.homes (g : Grid) (home i : Nat) : Bool :=
  match g.exdin with | some x => x.map.any fun m => homeOf m == home && homeIdx m == i | none => false

/-- Slices that start as one gang each list (R35, R53): threads of four slices under VENTRY. -/
def Packet.gangOf (p : Packet) (slice : Nat) : Nat := if p.ventry then slice / 4 else 0

/-- The gangs of a block that starts. -/
def Packet.gangs (p : Packet) : Tab Gang :=
  if p.ventry then (List.range (p.width / 16)).map fun q => (q, { vliw := true }) else [(0, {})]

/-- `s0` and `s1` at block start; a handler grid's `s0` is its slot (R291). In an Exdin kernel the home of a register starts as
zero (R305). -/
def Grid.startS (g : Grid) (slotVa : W64) : List (Nat × W64) :=
  match g.slot with
  | some _ => (cellSet (cellSet [] 0 slotVa) 1 g.pkt.arg).filter fun e => !g.homes 1 e.1
  | none => (cellSet [] 0 g.pkt.arg).filter fun e => !g.homes 1 e.1

/-- Address of a mailbox slot (R289). -/
def slotAddr (e : Mailbox) (i : Nat) : W64 := e.ring + BitVec.ofNat 64 (128 + 128 * (i % 2 ^ e.depth))

/-- Block `idx` of a grid as it starts at a spot. -/
def Grid.newBlock (g : Grid) (gid idx : Nat) (sp : Spot) (slotVa : W64) (heat time order : Nat) : Block :=
  let p := g.pkt
  let n := p.width / 4
  { grid := gid, ctx := g.ctx, idx, bx := BitVec.ofNat 32 (idx % p.gx.toNat)
    byy := BitVec.ofNat 32 (idx / p.gx.toNat % p.gy.toNat), bz := BitVec.ofNat 32 (idx / p.gx.toNat / p.gy.toNat)
    width := p.width, n := p.regs, phys := sp.phys, lanes := List.replicate p.width {}
    slices := (List.range n).map fun i =>
      { gang := p.gangOf i, pc := if p.exdin then p.code + 64 else p.code, live := 0xF, active := 0xF, s := g.startS slotVa }
    gangs := if p.coop then [] else p.gangs
    nextGang := n, agent := BitVec.ofNat 8 p.agent, bbase := BitVec.ofNat 6 sp.borg, borg := BitVec.ofNat 6 sp.borg
    nbr := p.nbr, scrBase := sp.scr, scrLen := p.spb, zBase := sp.z, zpb := spwZpb p.spw
    cq := { strict := p.qstrict }, crs := p.crs, order, placedAt := time, runSince := time, heat }

/-- Bytes of the pool that another context last held read zero (R35): `n` bytes from `a`, by units of 256. -/
def takePool (c x a n : Nat) : Prog :=
  .read fun s =>
    let k := s.core c
    let us := (List.range (n / 256)).map (a / 256 + ·)
    let foreign := us.filter fun u => (k.poolCtx.get? u).getD x != x
    (Prog.each foreign fun u => .one (.zero ⟨2, c, 256 * u⟩ 256)).andThen
      (.one (.core c fun k => { k with poolCtx := us.foldl (fun t u => t.set u x) k.poolCtx }))

/-- The core takes a partition word. Bytes that were registers hold another context's data as far as a later holder can tell
(R35). -/
def Core.setSpw (k : Core) (w : W64) : Core :=
  if k.spw = w then k
  else { k with spw := w, poolCtx := (List.range (64 * spwRfg k.spw)).foldl (fun t u => t.set u 4096) k.poolCtx }

/-- The homes of Exdin registers in a block's scratchpad at `scr` and its accumulator tiles at `acc` hold zero at its start
(R305). -/
def zeroHomes (c : Nat) (g : Grid) (scr acc : Nat) : Prog :=
  match g.exdin with
  | none => .done
  | some x => Prog.each (x.decls.zip x.map) fun e =>
      if homeOf e.2 = 3 then .one (.zero ⟨2, c, acc + 32768 * homeIdx e.2⟩ 32768)
      else if homeOf e.2 = 4 then .one (.zero ⟨2, c, scr + homeIdx e.2⟩ (declW e.1 / 8 * g.pkt.width))
      else .done

/-- A grid comes to a core: the first of its blocks there, and in the cluster, reads afresh on the constant and the tile path
(R68, R339). -/
def enterPaths (c gid : Nat) (g : Grid) : Prog :=
  .read fun s => Prog.all [
    Prog.when ((s.core c).blocks.all fun e => e.2.grid != gid) (.one (.core c fun k => { k with kc := dropCtx k.kc g.ctx })),
    Prog.when ((s.clusterBlocks (clusterOf c)).all fun b => b.grid != gid) (.one (.clus (clusterOf c) fun q => q.dropTile g.ctx)),
    catchUp (dieOf c)]

/-- The grid's harts start on a core where they are idle (R280). -/
def Core.startHarts (k : Core) (gid : Nat) (g : Grid) (c : Nat) : Core :=
  if g.hasHart && !k.loader.run && !k.storer.run then
    let fresh := fun (img : List Byte) (old : Hart) =>
      if img.isEmpty then old
      else
        ({ run := true, grid := gid, ctx := g.ctx, store := img.take 65536, x := cellSet (cellSet [] 10 g.pkt.arg) 11 (BitVec.ofNat 64 (c % 48)),
           cq := { ops := old.cq.ops, strict := g.pkt.qstrict } } : Hart)
    { k with loader := fresh g.loaderImg k.loader, storer := fresh g.storerImg k.storer }
  else k

/-- The grid takes its declared flumes on a core (R35, R224). -/
def Core.takeFlumes (k : Core) (gid : Nat) (g : Grid) : Core :=
  (List.range 32).foldl (fun k q =>
    match g.flume? q with
    | some (part, ncur) => { k with flumes := k.flumes.set q (takeFlume (k.flume q) gid part ncur) }
    | none => k) k

/-- The storage of a block at a spot: the core's partition word, its pool bytes, flumes, harts; the gate is lifted
(R29, R35, R224, R280, R296). -/
def takeSpot (gid : Nat) (g : Grid) (sp : Spot) : Prog :=
  let p := g.pkt
  let scr := 16384 * spwRfg p.spw + sp.scr
  let acc := 16384 * (spwRfg p.spw + spwSpg p.spw) + sp.z
  Prog.all [
    enterPaths sp.core gid g,
    .one (.core sp.core fun k => k.setSpw p.spw),
    takePool sp.core g.ctx scr p.spb, takePool sp.core g.ctx acc (32768 * spwZpb p.spw), zeroHomes sp.core g scr acc,
    .one (.core sp.core fun k => (k.takeFlumes gid g).startHarts gid g sp.core),
    liftGate sp.core]

/-- Physical quarters of a spot. -/
def Spot.quarters (sp : Spot) : List Nat := dedup (sp.phys.map (· / 4))

/-- The key of a block on its core: its lowest physical slice. -/
def Spot.key (sp : Spot) : Nat := sp.phys.foldl min 15

/-- Puts block `idx` of a grid on a core, with its charge (R35, R364, R367). -/
def placeFresh (gid : Nat) (g : Grid) (h : Nat) (idx : Nat) (sp : Spot) (charge : Nat) : Prog :=
  (takeSpot gid g sp).andThen <| .read fun s =>
    let slotVa := match g.slot with
      | some (m, i) => match s.sys.mbx.get? m with | some e => slotAddr e i | none => 0
      | none => 0
    let b := g.newBlock gid idx sp slotVa h s.sys.time s.sys.nextOrder
    Prog.all [
      .one (.core sp.core fun k =>
        let k := { k with blocks := k.blocks.set sp.key b }
        let k := if g.pkt.ventry then sp.quarters.foldl (fun k q => k.setQuarter q true) k else k
        (List.range g.pkt.nbr).foldl (fun k i => k.setBar ((sp.borg + i) % 64) { exp := g.pkt.width / 4 }) k),
      .one (.sys fun y => { y with nextOrder := y.nextOrder + 1 }),
      addHeat sp.core h true,
      chargeScrip g.ctx g.pkt.agent charge]

/-! ## Units (R359 to R361) -/

def Packet.groups (p : Packet) : Nat := p.blocks / p.cg
def Packet.unitCount (p : Packet) : Nat := (p.groups + p.tg - 1) / p.tg

/-- Cluster groups of a unit (R40, R359). -/
def Packet.unitGroups (p : Packet) (u : Nat) : List Nat :=
  ((List.range p.tg).map (p.tg * u + ·)).filter fun i => decide (i < p.groups)

/-- The die that owns a unit. -/
def Grid.ownerOf (g : Grid) (u : Nat) : Nat := ((g.owner.find? fun e => e.1 == u).map (·.2)).getD (u % 16)

/-- The first cluster group that die `d` has still to place, in ascending order of units. -/
def Grid.nextGroup (g : Grid) (d : Nat) : Option Nat :=
  (List.range g.pkt.unitCount).findSome? fun u =>
    if g.ownerOf u = d then (g.pkt.unitGroups u).find? fun i => !g.placed.contains i else none

/-- Grids that have units to place, by descending priority and then in order of acceptance (R360). -/
def State.gridOrder (s : State) : List (Nat × Grid) :=
  let l := s.grids.filter fun e => !e.2.armed && !e.2.done && decide (e.2.placed.length < e.2.pkt.groups)
  let before := fun (a b : Nat × Grid) => decide (a.2.prio > b.2.prio) || (a.2.prio == b.2.prio && decide (a.2.order < b.2.order))
  l.foldl (fun acc e => (acc.filter fun a => before a e) ++ [e] ++ (acc.filter fun a => !before a e)) []

/-- A grid may start: the earlier grids of its queue have started (R68), and no other cooperative grid is partly placed
or waits before it (R362). -/
def State.mayStart (s : State) (gid : Nat) (g : Grid) : Bool :=
  g.started
    || ((match g.queue with
        | some q => s.grids.all fun e =>
            e.2.queue != some q || e.2.started || e.2.done || decide (e.2.order ≥ g.order)
        | none => true)
      && (!g.pkt.coop
        || (s.sys.coop.all (· == gid) && s.grids.all fun e =>
            !(e.2.pkt.coop && !e.2.started && !e.2.done && !e.2.armed && decide (e.2.order < g.order)))))

/-! ## The start of a grid (R394, R309, R41, R362) -/

/-- R392: a first-touch ring lies inside the save area. -/
def ringOk (s : State) (x : Context) (o l : Nat) : Bool :=
  let base := (saveWord s x o).toNat
  decide (l ≤ 20) && decide (x.saveVa.toNat ≤ base) && decide (base + 8 * 2 ^ l ≤ x.saveVa.toNat + x.saveSize.toNat)

/-- A segment that holds the bytes of a page table. -/
def holds (g : Seg) (a n : Nat) : Bool := decide (g.base.toNat ≤ a) && decide (a + n ≤ g.base.toNat + g.limit.toNat)

/-- R449: where a segment's page table may lie. -/
def ptabOk (segs : List Seg) (g : Seg) : Bool :=
  if g.isSave then g.ptab == 0
  else
    let n := 8 * (g.limit.toNat / g.page)
    let a := g.ptab.toNat
    g.ptab.toNat % 8 == 0
      && segs.any fun h =>
        holds h a n
          && (h.isSave
            || (!h.isExt && !h.attrBit 46
              && segs.any fun v => v.isSave && holds v h.ptab.toNat (8 * (h.limit.toNat / h.page))))

/-- R393: the fields of a valid entry. -/
def segOk (g : Seg) : Bool :=
  g.base.toNat % g.page == 0 && bits 8 g.base 56 == 0 && g.limit != 0 && g.limit.toNat % g.page == 0
    && decide (g.base.toNat + g.limit.toNat ≤ 2 ^ 56) && bits 16 g.attr 48 == 0 && !g.attrBit 1
    && (!g.attrBit 45 || (bits 16 g.attr 29 != 0 && bits 8 g.attr 21 != 0))

/-- R394: the segment table that a grid reads at its start, when it passes. -/
def startTable (s : State) (x : Context) : Option (List Seg) :=
  let segs := ctxSegs s x
  let apart := fun (a b : Seg) =>
    decide (a.base.toNat + a.limit.toNat ≤ b.base.toNat) || decide (b.base.toNat + b.limit.toNat ≤ a.base.toNat)
  let ok := segs.all segOk && decide (segs.Pairwise fun a b => apart a b = true)
    && (match segs.filter Seg.isSave with | [g] => g.base == x.saveVa && g.limit == x.saveSize | _ => false)
    && segs.all (ptabOk segs)
    && ringOk s x 8 (saveWord s x 24 &&& 0xFF).toNat && ringOk s x 16 ((saveWord s x 24 >>> 8) &&& 0xFF).toNat
  if ok then some segs else none

/-- R308, R309: M, N and K of the shape record at an offset from the argument pointer. -/
def shapeAt (s : State) (g : Grid) (x : Context) (o : Nat) : Option (W32 × W32 × W32) :=
  let a := g.pkt.arg + BitVec.ofNat 64 o
  (s.devBytes g x a 64).bind fun b =>
    let f := fun i => getN b (4 * i) 4
    let ok := fun (v : Nat) => v != 0 && decide (v < 2 ^ 31)
    if a.toNat % 64 == 0 && ok (f 0) && ok (f 1) && ok (f 2) && getN b 12 52 == 0 then
      some (BitVec.ofNat 32 (f 0), BitVec.ofNat 32 (f 1), BitVec.ofNat 32 (f 2))
    else none

/-- What the code object of a grid that starts brings beside its packet: the hart images (R280), and for a kernel that the
translator has specialised to one shape its SROFF, M, N and K, for which R105 gives the descriptor no place (R321, log 76). -/
structure CodeObj where
  loader : List Byte := []
  storer : List Byte := []
  spec : Option (Nat × W32 × W32 × W32) := none

/-- The bound shape of a grid, where it has one: that of a cracked kernel, or that for which its kernel is specialised; none in
the option when the record fails R309 or differs (0x0B). -/
def Grid.shape (g : Grid) (s : State) (x : Context) (o : CodeObj) : Option (W32 × W32 × W32) :=
  if g.pkt.exdin then (s.devBytes g x (g.pkt.code + 22) 2).bind fun b => shapeAt s g x (leNat b)
  else
    match o.spec with
    | none => some (g.m, g.n, g.k)
    | some (off, r) => (shapeAt s g x off).bind fun t => if t = r then some t else none

/-- Blocks of a packet that fit an empty core. -/
def Packet.perCore (p : Packet) : Nat :=
  let by_ := fun (have_ need : Nat) => if need = 0 then 64 else have_ / need
  min (64 / p.width)
    (min (by_ (16384 * spwRfg p.spw) (p.regBytes + p.recBytes))
      (min (by_ (16384 * spwSpg p.spw) p.spb)
        (min (by_ (16384 * spwAcg p.spw) (32768 * spwZpb p.spw)) (64 / p.nbr))))

/-- R41: whether a cooperative grid could be resident as a whole on an empty module: 192 clusters, of which tower groups
keep to one tower's 24, a smaller last one too (R40, 0x08). -/
def Packet.fitsEmpty (p : Packet) : Bool :=
  let tower := 24 * (if cpwCsu p.cpw ≥ 1 then min 1 (4 * p.perCore / p.cg) else 4 * p.perCore / p.cg)
  let whole := p.groups / p.tg
  let last := p.groups % p.tg
  decide (whole ≤ 8 * (tower / p.tg))
    && (last == 0 || decide (whole < 8 * (tower / p.tg)) || decide (last ≤ tower % p.tg))

/-- The grid as it starts, or its refusal code (R356). -/
def Grid.start (g : Grid) (s : State) (x : Context) (o : CodeObj) : Grid ⊕ Nat :=
  match startTable s x with
  | none => .inr 0x01
  | some segs =>
    let h := { g with segs, started := true, hasHart := !o.loader.isEmpty || !o.storer.isEmpty,
                      loaderImg := o.loader, storerImg := o.storer }
    if g.pkt.coop && !g.pkt.fitsEmpty then .inr 0x08
    else
      match h.shape s x o with
      | some (m, n, k) => .inl { h with m, n, k }
      | none => .inr 0x0B

/-! ## Placing a unit -/

/-- The heat, the floor on a tower and the register bytes of a candidate block of a grid. -/
def State.judge (s : State) (gid : Nat) (g : Grid) (regs tower k : Nat) (t : State) : Option (Nat × Spot) :=
  if t.spillRoom g.ctx g.pkt.saveBytes then t.bestCore gid g regs (s.heatOf g) (s.floorOn g tower) k else none

/-- A cluster may take a group of the grid, whose partitions, if it must create them, the spill region can hold (R402). -/
def State.clusterTakes (s : State) (gid : Nat) (g : Grid) (k : Nat) : Bool :=
  s.clusterOk gid g.pkt k
    && (cpwNp g.pkt.cpw == 0 || (s.cluster k).partGrid == some gid || s.spillRoom g.ctx g.pkt.partBytes)

/-- The program that places a list of blocks on the cluster of a tower whose charges are lowest (R366). -/
def State.placeGroup {β : Type} (s : State) (gid : Nat) (g : Grid) (grp : Nat) (regs : Nat) (clusters : List Nat)
    (blocks : List β) (put : β → Spot → Nat → Prog) : Option Prog :=
  (lowest (clusters.filterMap fun k =>
    if s.clusterTakes gid g k then
      let enter := enterCluster k gid g grp
      (assign (fun t _ => s.judge gid g regs (k / 24) k t) put blocks (enter.run s)).map fun r => (r.1, enter.andThen r.2)
    else none)).map (·.2)

/-- Blocks of a cluster group by linear index (R39). -/
def Packet.groupBlocks (p : Packet) (grp : Nat) : List Nat := (List.range p.cg).map (p.cg * grp + ·)

/-- Clusters of a tower. -/
def clustersOf (t : Nat) : List Nat := (List.range 24).map (24 * t + ·)

/-- Raises a cause at the instruction of each gang that a condition picks. -/
def raiseAt (c b cause : Nat) (pick : Gang → Bool) : Prog :=
  .read fun s =>
    match s.block? c b with
    | none => .done
    | some x => Prog.each (x.gangs.filter fun e => pick e.2) fun e =>
        let pc := (((x.members e.1).head?.bind x.slice?).map (·.pc)).getD 0
        takeTrap c b e.1 { cause, recs := [{ cause, lanes := [] }] } pc pc

/-- A marked block takes CODE-GONE, or keeps the mark until it has a gang (R407). -/
def takeGone (c b : Nat) : Prog :=
  .read fun s =>
    match s.block? c b with
    | none => .done
    | some x =>
      if x.gangs.isEmpty then onBlock c b fun y => { y with gone := true }
      else (onBlock c b fun y => { y with gone := false }).andThen (raiseAt c b cCodeGone fun _ => true)

/-- The gangs of a block that starts, or starts a phase; a marked one takes CODE-GONE (R407). -/
def begins (c b : Nat) (f : Block → Block) : Prog :=
  .read fun s => (onBlock c b f).andThen (Prog.when ((s.block? c b).any (·.gone)) (takeGone c b))

/-- All blocks of a cooperative grid start together, those saved meanwhile too (R362). -/
def startCoop (gid : Nat) : Prog :=
  .read fun s =>
    match s.grid? gid with
    | none => .done
    | some g =>
      (Prog.each (s.residents gid) fun r => begins r.1 r.2.1 fun b => { b with gangs := g.pkt.gangs }).andThen
        (.one (.ctx g.ctx fun x => { x with saved := x.saved.map fun v =>
          if v.blk.grid = gid then
            { v with blk := { v.blk with gangs := g.pkt.gangs, gone := false }, codeGone := v.codeGone || v.blk.gone }
          else v }))

/-- What follows when a cluster group of a grid has been placed. -/
def groupPlaced (gid : Nat) (g : Grid) (grp : Nat) : Prog :=
  let all := decide (g.placed.length + 1 ≥ g.pkt.groups)
  Prog.all [
    .one (.grid gid fun h => { h with placed := grp :: h.placed }),
    Prog.when g.pkt.coop (.one (.sys fun y => { y with coop := if all then none else some gid })),
    Prog.when (g.pkt.coop && all) (startCoop gid)]

/-- The page size of the save area, from the table that a grid locks at its start (R393, R394). -/
def lockTable (x : Nat) (segs : List Seg) : Prog :=
  .one (.ctx x fun c => { c with savePage := match segs.find? Seg.isSave with | some g => g.page | none => c.savePage })

/-- What becomes of the next group of a grid that die `d` owns once the grid has started, or the refusal of a grid that may not
start. A save area whose header or tables cannot be read ends the context's grids (R449). -/
def State.startNext (s : State) (d gid : Nat) (g : Grid) (o : CodeObj) (k : Grid → Nat → Option Prog) : Option Prog :=
  match g.nextGroup d, s.ctx? g.ctx with
  | some grp, some x =>
    if !s.mayStart gid g then none
    else if !g.started && s.saveBroken x 0 0xD000 then some (endContextGrids g.ctx cEcc)
    else
      match if g.started then Sum.inl g else g.start s x o with
      | .inr code =>
        some ((Prog.one (.grid gid fun h => { h with refuse := BitVec.ofNat 8 code, done := true })).andThen
          (Prog.when (g.pkt.signal == 0) (.one (.sys fun y => { y with log := y.log ++ [.refused g.va code] }))))
      | .inl h => (k h grp).map fun p => (Prog.when (!g.started) (lockTable g.ctx h.segs)).andThen p
  | _, _ => none

/-- The next group of a grid that die `d` owns, placed on the tower of `d`. -/
def State.placeNext (s : State) (d gid : Nat) (g : Grid) (o : CodeObj) : Option Prog :=
  s.startNext d gid g o fun h grp =>
    let regs := g.pkt.regBytes + g.pkt.recBytes
    (s.placeGroup gid h grp regs (clustersOf (d / 2)) (g.pkt.groupBlocks grp) (placeFresh gid h (s.heatOf h))).map fun p =>
      Prog.all [.one (.grid gid fun _ => h), p, groupPlaced gid h grp]

/-- The next group, one block of a handler's or a `LAUNCH`'s grid, goes to the task queue of core `c`, which could take it if its
own blocks were gone (R373). -/
def State.queueNext (s : State) (d gid : Nat) (g : Grid) (o : CodeObj) (c : Nat) : Option Prog :=
  if g.queue.isSome || g.pkt.coop || g.pkt.cg != 1 || decide (c ≥ 768) || towerOf c != d / 2 then none
  else
    s.startNext d gid g o fun h grp =>
      let t := (Eff.core c fun k => { k with blocks := [], tasks := [], preload := false }).apply s
      (t.spotOn gid h (g.pkt.regBytes + g.pkt.recBytes) c).map fun _ =>
        Prog.all [.one (.grid gid fun _ => h), .one (.core c fun k => { k with tasks := k.tasks ++ [.launch gid grp] }),
          groupPlaced gid h grp]

/-- The code object that an event's arguments from number `i` on describe: the length of the loader image, which the storer
image follows; whether the kernel is specialised, and its SROFF, M, N and K. -/
def State.codeObj (s : State) (i : Nat) : CodeObj :=
  let w := fun j => BitVec.ofNat 32 (s.arg (i + j))
  { loader := s.args.bytes.take (s.arg i), storer := s.args.bytes.drop (s.arg i)
    spec := if s.arg (i + 1) = 0 then none else some (s.arg (i + 2), w 3, w 4, w 5) }

/-- UNIT_PLACEMENT: arguments die, 0 or one more than a core, and the code object of a grid that starts (R280, R321). A unit
that cannot be placed may join the core's task queue (R373). -/
def unitPlacement (s : State) : Prog :=
  let d := s.arg 0
  let o := s.codeObj 2
  if s.sys.st != .locked || d ≥ 16 then .done
  else
    match s.gridOrder.findSome? fun e => s.placeNext d e.1 e.2 o with
    | some p => p
    | none =>
      if s.arg 1 = 0 then .done else (s.gridOrder.findSome? fun e => s.queueNext d e.1 e.2 o (s.arg 1 - 1)).getD .done
def execUnitPlacement (s : State) : Host.Outcome State Fault Refusal := runEvent unitPlacement s

/-! ## Stealing (R361) -/

/-- Units of die `d` of which no cluster group is placed. -/
def Grid.unplacedUnits (g : Grid) (d : Nat) : List Nat :=
  (List.range g.pkt.unitCount).filter fun u =>
    g.ownerOf u == d && (g.pkt.unitGroups u).all fun i => !g.placed.contains i

/-- STEAL_REQUEST: arguments die, and the code object of a grid that would start. A die with a unit it can place sends none. -/
def stealRequest (s : State) : Prog :=
  let d := s.arg 0
  let canPlace := s.gridOrder.any fun e => (s.placeNext d e.1 e.2 (s.codeObj 1)).isSome
  if s.sys.st != .locked || d ≥ 16 || canPlace then .done
  else
    let victims := (List.range 15).map fun i => (d + 1 + i) % 16
    match victims.findSome? fun v =>
        s.gridOrder.findSome? fun e =>
          let us := e.2.unplacedUnits v
          if us.length ≥ 2 then us.getLast?.map fun u => (e.1, u) else none with
    | some (gid, u) => .one (.grid gid fun g => { g with owner := (u, d) :: g.owner.filter fun e => e.1 != u })
    | none => .done
def execStealRequest (s : State) : Host.Outcome State Fault Refusal := runEvent stealRequest s

/-! ## The end of a block (R41) -/

/-- What a block no longer resident asks for or holds on its cluster: allocations, leases, power. -/
def leaveCluster (c b : Nat) : Prog :=
  .one (.clus (clusterOf c) fun q =>
    let q := (q.release c b).keepReqs fun r => !(r.core == c && r.blk == b)
    { q with
      parts := q.parts.map fun p => { p with reqs := p.reqs.filter fun r => r.hart || r.core != c || r.key != b }
      preqs := q.preqs.filter fun r => !(r.1 == c && r.2.1 == b) })

/-- The core forgets a block: its loads, its stores already performed, the quarters of its threads (R52). -/
def Core.forget (k : Core) (b : Nat) : Core :=
  match k.blocks.get? b with
  | none => k
  | some x =>
    let qs := (dedup (x.phys.map (· / 4))).filter fun _ => decide (x.width ≥ 16)
    let k := qs.foldl (fun k q => k.setQuarter q false) k
    { k with blocks := k.blocks.del b, loads := k.loads.filter (fun p => p.blk != b),
             tasks := k.tasks.filter (fun t => match t with | .phase x _ => x != b | _ => true), rot := k.rot.filter fun e => e.1 != b }

/-- The last block of a grid on a core has ended, none of the core's saved blocks being of it: its flumes are free, and its harts
stop with the tiles that they own at block scope (R224, R280, R219). -/
def lastOnCore (c gid : Nat) : Prog :=
  .read fun s =>
    let k := s.core c
    if (k.blocks.any fun e => e.2.grid == gid) || (s.savedOf gid).any fun v => v.core == c && v.coreRec.isNone then .done
    else
      Prog.all [
        Prog.when ((k.loader.run && k.loader.grid == gid) || (k.storer.run && k.storer.grid == gid))
          (reclaim (clusterOf c) gid fun t => !t.ker && t.owner.hart && t.owner.core == c),
        .one (.core c fun k =>
          { k with
            flumes := k.flumes.map fun e => if e.2.grid = some gid then (e.1, { e.2 with grid := none }) else e
            loader := k.loader.leave gid, storer := k.storer.leave gid }),
        .one (.clus (clusterOf c) fun q =>
          { q with parts := q.parts.map fun p => { p with reqs := p.reqs.filter fun r => !(r.hart && r.core == c) } })]

/-- The cluster scratch is free once its group has no block left here; while a block of it is saved alone, held by a stop, the group
has neither ended nor been pre-empted, unless the block that leaves is saved too (R39, R429). -/
def freeScratch (c gid : Nat) (saved : Bool) : Prog :=
  .read fun s =>
    let k := clusterOf c
    match (s.cluster k).csuGrid with
    | some (h, grp) =>
      let of_ := fun (b : Block) => b.grid == gid && b.idx / (s.pktOf b).cg == grp
      if h = gid ∧ ((s.clusterBlocks k).all fun b => !of_ b) ∧ (saved ∨ (s.savedOf gid).all fun v => !of_ v.blk) then
        .one (.clus k fun q => { q with csuGrid := none })
      else .done
    | none => .done

/-- A block has ended: no lane is live and every operation that it issued has completed (R41). -/
def State.blockOver (s : State) (c b : Nat) : Bool :=
  match s.block? c b with
  | some x => x.deadCount == x.slices.length && s.engineIdle c b
  | none => false

/-- A block ends and gives back what it holds. -/
def endBlock (c b : Nat) : Prog :=
  .read fun s =>
    match s.block? c b with
    | none => .done
    | some x =>
      Prog.all [
        drainBlock c b,
        leaveCluster c b,
        reclaim (clusterOf c) x.grid fun t =>
          !t.ker && !t.owner.hart && t.owner.bx == x.bx && t.owner.byy == x.byy && t.owner.bz == x.bz,
        addHeat c x.heat false,
        .one (.core c fun k => k.forget b),
        .one (.grid x.grid fun g => { g with ended := x.idx :: g.ended }),
        lastOnCore c x.grid, freeScratch c x.grid false, tryGsync x.grid, tryGate c]

/-- BLOCK_END: arguments core, block. -/
def blockEnd (s : State) : Prog := Prog.when (s.blockOver (s.arg 0) (s.arg 1)) (endBlock (s.arg 0) (s.arg 1))
def execBlockEnd (s : State) : Host.Outcome State Fault Refusal := runEvent blockEnd s

end Sys2Proof.Machine
end

