-- ==== Sys2Proof/Machine/Mail.lean ====
section
/-! DEFINITION. Mailboxes (09 R288 to R291): the check and the delivery of a message, `MBSEND`, device-side deliveries and
handler launches. -/

namespace Sys2Proof.Machine

/-- The location of a byte of a mailbox's ring, when its owner may write it; mailbox 0's ring is at a device physical
address (R288). -/
def State.ringLoc (s : State) (m : Nat) (e : Mailbox) (va : W64) : Option Loc :=
  if m = 0 then some ⟨0, 0, va.toNat⟩
  else (s.ctx? e.owner).bind fun x => devLoc s (viaCtx s x) x .wr va

/-- What a send finds (R290). -/
inductive MailRes where
  /-- It cannot be delivered; the address that could not be reached, or 0. -/
  | bad (addr : W64)
  /-- The ring is full. -/
  | full
  | ok (p : Prog)

/-- The header word of a slot (R289). -/
def mailHeader (len kind ctx seq : Nat) : Nat := len + 2 ^ 8 * kind + 2 ^ 16 * ctx + 2 ^ 32 * (seq % 2 ^ 32)

/-- What an arriving message wakes: the gates of cores with a block of the owner (R296), its harts' `HSLEEP`, saved ones too (R283), and the
owner itself when it is parked (R404). -/
def mailWakes (owner : Nat) : Prog :=
  .read fun s =>
    let f := fun (h : Hart) => if h.run && h.ctx == owner then { h with wake := h.wake ||| 4 } else h
    Prog.all [
      Prog.each s.cores fun e => Prog.all [
        Prog.when (e.2.blocks.any fun b => b.2.ctx == owner) (liftGate e.1),
        .one (.core e.1 fun k => { k with loader := f k.loader, storer := f k.storer })],
      .one (.ctx owner fun c =>
        { c with coreRecs := c.coreRecs.map fun r => (r.1, { r.2 with loader := r.2.loader.map f, storer := r.2.storer.map f }) }),
      unpark owner]

/-- Slot and header of message `i` written, at the port where the ring lies behind one (R419), TAIL advanced, and a
handler launch queued (R290). -/
def mailWrite (m : Nat) (e : Mailbox) (l : Loc) (kind ctx : Nat) (payload : List Byte) : Prog :=
  let i := e.tail.toNat
  let body := payload.take 64 ++ List.replicate (64 - payload.length) 0
  let l' := l.atPort
  Prog.all [
    toPort l 72,
    .one (.write l' body),
    .one (.write { l' with a := l'.a + 64 } (leBytes (mailHeader payload.length kind ctx (i + 1)) 8)),
    .one (.sys fun y => { y with mbx := y.mbx.modify m fun e =>
      { e with tail := e.tail + 1, slots := if e.handler = 0 then e.slots else e.slots ++ [i] } }),
    mailWakes e.owner]

/-- A message of 16 bytes at the invalidation mailbox of a context that owns it is a request (R399); the device consumes it and
every other message there. -/
def invMessage (m : Nat) (e : Mailbox) (head : Loc) (kind : Nat) (payload : List Byte) : Prog :=
  .read fun s =>
    match s.ctx? e.owner with
    | none => .done
    | some x =>
      if s.saveBroken x 26 2 then endContextGrids e.owner cEcc
      else if m = 0 || leNat (s.readBytes (saveLoc s x 26) 2) != m then .done
      else
        (Prog.one (.write head (leBytes (leNat (s.readBytes head 8) + 1) 8))).andThen
          (Prog.when (kind == 0 && payload.length == 16)
            (invalidate e.owner (BitVec.ofNat 64 (leNat (payload.take 8))) (BitVec.ofNat 64 (leNat (payload.drop 8))) true))

/-- Flits on MAIL of a message to a peer mailbox: the read of HEAD, the payload and the header (R419, log 57). -/
def mailFlits : Nat := 3

/-- A message to a peer mailbox needs the port and credit on MAIL (R417, R419). -/
def State.peerRoom (s : State) (l : Loc) : Bool :=
  match l.peer with
  | some p => (s.sys.port p).up && decide (mailFlits ≤ s.sys.credit p 2)
  | none => true

def spendMail (l : Loc) : Prog :=
  match l.peer with
  | some p => .one (.sys fun y => y.setCredit p 2 (y.credit p 2 - mailFlits))
  | none => .done

/-- The check and the delivery of R290 for mailbox `m` and a sender of context `ctx`. The messages that stand in the ring are counted
modulo 2^32, from the low 32 bits of HEAD (DESIGN CHOICE, log 84). -/
def mailTo (s : State) (m kind ctx : Nat) (payload : List Byte) : MailRes :=
  match s.sys.mbx.get? m with
  | none => .bad 0
  | some e =>
    if !e.valid || (!e.opn && e.owner != ctx) then .bad 0
    else
      let slot := slotAddr e e.tail.toNat
      match s.ringLoc m e e.ring, s.ringLoc m e slot with
      | none, _ => .bad e.ring
      | _, none => .bad slot
      | some h, some l =>
        let head : W32 := BitVec.ofNat 32 (leNat (s.readBytes h.atPort 8))
        if s.sys.replay.any fun r => r.1 == e.owner then .ok .done
        else if (e.tail - head).toNat ≥ 2 ^ e.depth then .full
        else if !s.peerRoom l then .full
        else .ok (Prog.all [spendMail l, mailWrite m e l kind ctx payload, invMessage m e h kind payload,
          logOrder e.owner { kind := 1, addr := m, who := [kind, ctx], bytes := payload }])

/-- R290: `n` bytes from s-register `b` upward. -/
def U.message (u : U) (b n : Nat) : List Byte :=
  ((List.range ((n + 7) / 8)).flatMap fun i => leBytes (u.s (b + i)).toNat 8).take n

/-- `MBSEND` (R290): a release at system scope. It needs the feature MBOX (R327, R328). -/
def semMbsend (f : XForm) : Sem := fun u s =>
  let n := f.fld 7 0
  let b := f.b.toNat - 0xC0
  if !u.feat 0 featMbox then u.illegal
  else u.need ((f.a, 64) :: (List.range ((n + 7) / 8)).map fun i => (f.b + BitVec.ofNat 8 i, 64)) <|
    u.once <|
      let a := u.rd1 f.a 64
      if a ≥ 4096 then u.trap cIllegal
      else
        match mailTo s a 0 u.blk.ctx (u.message b n) with
        | .bad v => .trap { cause := cPermission, recs := [{ cause := cPermission, addr := v, lanes := u.part }], write := true }
        | .full => .wait (.mbsend a) u.release
        | .ok _ => .commit (u.release.andThen (.read fun t =>
            match mailTo t a 0 u.blk.ctx (u.message b n) with | .ok p => p | _ => .done))
def execMbsend (f : XForm) (s : State) : Host.Outcome State Fault Refusal := runX f (semMbsend f) s

/-! ## Device-side deliveries (R290) -/

/-- Core numbers from here on name a context: 768 plus its identifier. -/
def savedBase : Nat := 768

/-- Changes the saved block of a record. -/
def onSaved (x num : Nat) (f : Block → Block) : Prog :=
  .one (.ctx x fun t => { t with saved := t.saved.map fun v => if v.num = num then { v with blk := f v.blk } else v })

/-- A queue without an operation. -/
def CopyQueue.free (q : CopyQueue) (id : Nat) : CopyQueue := { q with ops := q.ops.filter fun e => e.id != id }

/-- A tile source of a copy is no longer read: on cluster `k`, or in the record `part` of spilled partitions (R212). -/
def savedDone (x k : Nat) (part : Option Nat) (o : CopyOp) : Prog :=
  match part with
  | none => engDone k o.src
  | some n =>
    Prog.when (o.src.sp == 3) (.one (.ctx x fun t => { t with clusRecs := t.clusRecs.modify n fun r =>
      { r with parts := modAt r.parts (hPart o.src.h) fun q =>
          { q with tiles := q.tiles.modify (hGran o.src.h) fun t => { t with reads := t.reads - 1 } } } }))

/-- The mail of a saved block's copy has been delivered, or has failed at an address: its entry is freed in the save record, and
a failure stands among its pending causes (R276, R290, R402). -/
def freeSaved (x num id : Nat) (failed : Option W64) : Prog :=
  .read fun s =>
    match (s.ctx? x).bind fun c => c.saved.find? fun v => v.num == num with
    | none => .done
    | some v =>
      match v.blk.cq.ops.find? fun o => o.id == id with
      | none => .done
      | some o =>
        (savedDone x v.clus v.part o).andThen (onSaved x num fun b =>
          { b with
            cq := b.cq.free id
            pend := match failed with
              | some a => b.pend ++ [{ cause := BitVec.ofNat 8 cPermission, pc := o.pc, addr := a, lanes := 0, slices := o.slices, org := o.org,
                                       time := s.sys.time }]
              | none => b.pend })

/-- The mail of a copy of a hart in a core record has been delivered, or has failed at an address: the entry is freed there, and a
failure goes to the event log (R276, R290, log 27). -/
def freeHartRec (x n q id : Nat) (failed : Option W64) : Prog :=
  .read fun s =>
    match (s.ctx? x).bind fun c => (c.coreRecs.get? n).map fun r => (c, r) with
    | none => .done
    | some (ctx, r) =>
      match ((if q = 0 then r.loader else r.storer).bind fun h => h.cq.ops.find? fun o => o.id == id) with
      | none => .done
      | some o =>
        let k := clusterOf r.core
        let part := if (s.cluster k).partGrid = some o.grid then none
          else (ctx.clusRecs.find? fun e => e.2.grid == o.grid && !e.2.parts.isEmpty).map (·.1)
        let f := fun (h : Hart) => { h with cq := h.cq.free id, wake := h.wake ||| 2 }
        Prog.all [
          (match failed with | some a => copyCause r.core q o cPermission a | none => .done),
          savedDone x k part o,
          .one (.ctx x fun t => { t with coreRecs := t.coreRecs.modify n fun r =>
            if q = 0 then { r with loader := r.loader.map f } else { r with storer := r.storer.map f } })]

/-- What follows a delivery's success, or its failure at an address. -/
def delivered (d : Delivery) (failed : Option W64) : Prog :=
  match d.src with
  | .grid g =>
    (Prog.when failed.isSome (.one (.sys fun y => { y with log := y.log ++ [.mailDropped d.mbx] }))).andThen
      (.one (.grid g fun h => { h with notified := 2 }))
  | .hartRec n q id => freeHartRec d.ctx n q id failed
  | .copy c q id => .read fun s =>
      if c ≥ savedBase then freeSaved (c - savedBase) q id failed
      else match (s.queueOf c q).ops.find? fun o => o.id == id with
      | none => .done
      | some o =>
        (match failed with | some a => copyCause c q o cPermission a | none => .done).andThen (freeCopy c q o)

/-- A list without its first element that a condition picks. -/
def dropFirst {β : Type} (f : β → Bool) : List β → List β
  | [] => []
  | x :: r => if f x then r else x :: dropFirst f r

/-- MAILBOX_DELIVERY: the oldest delivery to mailbox `m`; it waits while the ring is full. -/
def mailboxDelivery (s : State) : Prog :=
  let m := s.arg 0
  match s.sys.deliveries.find? fun d => d.mbx == m with
  | none => .done
  | some d =>
    let gone := Prog.one (.sys fun y => { y with deliveries := dropFirst (fun d => d.mbx == m) y.deliveries })
    match mailTo s m d.kind d.ctx d.payload with
    | .full => .done
    | .bad a => gone.andThen (delivered d (some a))
    | .ok p => Prog.all [gone, p, delivered d none]

/-! ## Handlers (R291) -/

/-- MAILBOX_HANDLER_LAUNCH: the grid of the oldest slot that waits; one at a time. -/
def mailboxHandlerLaunch (s : State) : Prog :=
  let m := s.arg 0
  match s.sys.mbx.get? m with
  | none => .done
  | some e =>
    match e.slots with
    | [] => .done
    | i :: r =>
      if e.handler == 0 || e.running.isSome || s.tableFull then .done
      else
        let take := fun (run : Option Nat) =>
          Prog.one (.sys fun y => { y with mbx := y.mbx.modify m fun e => { e with slots := r, running := run } })
        let refuse := Prog.all [take none, .one (.sys fun y => { y with log := y.log ++ [.refused e.handler 1] }), handlerDone m]
        match s.ctx? e.owner with
        | none => refuse
        | some x =>
          let g := viaCtx s x
          match s.devBytes g x e.handler 128 with
          | none => refuse
          | some raw =>
            (take (some s.sys.nextGrid)).andThen (submit s e.owner x g e.handler raw (some (m, i)) none).2
def execMailboxHandlerLaunch (s : State) : Host.Outcome State Fault Refusal := runEvent mailboxHandlerLaunch s

end Sys2Proof.Machine
end

