-- ==== Sys2Proof/Machine/Save.lean ====
section
/-! DEFINITION. Pre-emption and resumption (13 R402 to R404; 12 R371 to R373, R382; 02 R65, R72; 07 R210, R230, R231): saving
and resuming cluster groups, and the scheduler's steps that do so. -/

namespace Sys2Proof.Machine

/-! ## Saving (R402) -/

/-- A copy touches storage that is saved or spilled with its block: scratchpad, cluster scratch or tiles. -/
def CopyOp.touches (o : CopyOp) : Bool := o.src.sp != 0 || o.dst.sp != 0

/-- How many copies of a queue complete before a save: those up to the last that touches such storage, since none completes
before an earlier one (R276). -/
def CopyQueue.toFlush (q : CopyQueue) : Nat := q.ops.zipIdx.foldl (fun n e => if e.1.touches then e.2 + 1 else n) 0

/-- Operations that touch a block's own storage complete before it is saved (R402), and with them its weight loads, whose time
of completion is open (log 45). -/
def flushBlock (c b : Nat) : Prog :=
  .read fun s =>
    let k := clusterOf c
    let q := s.cluster k
    let upto := fun (l : List (Nat × Nat)) => (l.zipIdx.foldl (fun n e => if e.1 = (c, b) then e.2 + 1 else n) 0)
    Prog.all [
      Prog.each ((s.core c).gathers.filter fun g => g.blk == b) fun g =>
        Prog.each g.elems fun e => moveElement c g.id e.lane false,
      Prog.each (List.range (upto (q.wloads.map fun w => (w.core, w.blk)))) fun _ => completeWload k,
      Prog.each (List.range (upto (q.streams.map fun w => (w.core, w.blk)))) fun _ => completeStream k,
      Prog.each (List.range (s.queueOf c (b + 2)).toFlush) fun _ => completeCopy c (b + 2) none]

/-- A block may be saved: nothing that touches such storage waits for credit or behind a copy that its message holds (R276, R402,
R417). -/
def State.saveable (s : State) (c b : Nat) : Bool :=
  let t := (flushBlock c b).run s
  let q := t.cluster (clusterOf c)
  ((t.queueOf c (b + 2)).ops.all fun o => o.moved || !o.touches) && ((t.core c).gathers.all fun g => g.blk != b)
    && (q.wloads.all fun w => (w.core, w.blk) != (c, b)) && q.streams.all fun w => (w.core, w.blk) != (c, b)

/-- Cells of a byte store in a range, by offset. -/
def Mem.slice (m : Mem) (a n : Nat) : Mem :=
  m.filterMap fun e => if a ≤ e.1 ∧ e.1 < a + n then some (e.1 - a, e.2) else none

/-- Bytes of the fault area that belong to physical slices: records and frames of both levels (R391). -/
def sliceAreas (c : Nat) (phys : List Nat) : List (Nat × Nat) :=
  phys.flatMap fun p => [(recOff c true (4 * p), 256), (recOff c false (4 * p), 256), (frameOff c false p, 512)]

def readArea (s : State) (x : Context) (c : Nat) (phys : List Nat) : List Byte :=
  (sliceAreas c phys).flatMap fun e => (List.range e.2).map fun i => s.readLoc (saveLoc s x (e.1 + i))

/-- Writes bytes over a list of ranges of the save area. -/
def writeArea (x : Nat) : List (Nat × Nat) → List Byte → Prog
  | [], _ => .done
  | e :: r, bs => (saveWrite x e.1 (bs.take e.2)).andThen (writeArea x r (bs.drop e.2))

/-- Whether a block saved now may resume at once: nothing in it is ready while it is parked or waits for a page (R72). -/
def Block.mayRun (b : Block) : Bool :=
  (b.gangs.all fun e => match e.2.wait with | .filling _ => false | _ => true)
    && (b.gangs.isEmpty || b.gangs.any fun e => match e.2.wait with | .waitc .. => false | _ => true)

/-- The number of a block's phase task. -/
def Core.taskOf (k : Core) (b : Nat) : Option Nat :=
  k.tasks.findSome? fun t => match t with | .phase x n => if x = b then some n else none | _ => none

/-- A delivery for a copy of queue `q` of core `c` is for another holder of the copy. -/
def Delivery.moved (d : Delivery) (x c q : Nat) (f : Nat → Option DeliverFrom) : Delivery :=
  match d.src with
  | .copy c' q' id => if d.ctx = x ∧ c' = c ∧ q' = q then { d with src := (f id).getD d.src } else d
  | _ => d

/-- A delivery for a copy of a hart is for another holder of the copy: from one of a core's queues into a record, or back. -/
def Delivery.movedHart (d : Delivery) (x : Nat) (f : DeliverFrom → DeliverFrom) : Delivery := if d.ctx = x then { d with src := f d.src } else d

/-- The save record of a block, without its group's cluster scratch (R402). A lease that has run out has ended (R228). -/
def Block.record (x : Block) (s : State) (ctx : Context) (c b : Nat) (by_ : Option Nat) (stopped : Bool) : SavedBlock :=
  let k := s.core c
  let lease := match (s.cluster (clusterOf c)).lease with
    | some l =>
      if l.core == c && l.blk == b then
        (if l.fresh.isNone && (l.cyc == 0 || l.cmds == 0) then none else some (l.cls, l.cmds, l.cyc))
      else x.leaseSaved
    | none => x.leaseSaved
  { blk := { x with leaseSaved := lease, donated := none, halt := false }, core := c
    scratch := k.pool.slice (scrOrigin k x) x.scrLen, acc := k.pool.slice (accOrigin k x 0) (32768 * x.zpb)
    bars := (List.range x.nbr).map fun i => k.bar ((x.borg.toNat + i) % 64)
    csu := [], area := if x.gangs.any fun e => !e.2.frames.isEmpty then readArea s ctx c x.phys else []
    clus := clusterOf c, task := k.taskOf b, savedAt := s.sys.time, by_, eligible := x.mayRun, stopped, watchdog := false,
    codeGone := false, num := s.sys.nextId, since := s.sys.time }

/-- One block is saved; `csu` also saves its group's cluster scratch. Its stores are performed first, and its loads bound. A
save area that cannot be read ends the context's grids (R449). -/
def saveBlock (c b : Nat) (by_ : Option Nat) (stopped csu : Bool) : Prog :=
  Prog.all [flushBlock c b, drainBlock c b, settleDie (dieOf c), bindLate c fun p => p.blk == b,
    .one (.core c fun k => retireLoads b (List.range 16) k),
    .read fun s =>
      match s.block? c b, (s.block? c b).bind fun x => s.ctx? x.ctx with
      | some x, some ctx =>
        if (x.gangs.any fun e => !e.2.frames.isEmpty) && s.saveBroken ctx (faultArea c) 0x4000 then endContextGrids x.ctx cEcc
        else
          let v := x.record s ctx c b by_ stopped
          Prog.all [
            .one (.ctx x.ctx fun t =>
              { t with saved := t.saved ++ [{ v with csu := if csu then (s.cluster (clusterOf c)).csu else [] }] }),
            .one (.sys fun y =>
              { y with nextId := y.nextId + 1
                       deliveries := y.deliveries.map fun d =>
                         d.moved x.ctx c (b + 2) fun id => some (.copy (savedBase + x.ctx) v.num id) }),
            leaveCluster c b, addHeat c x.heat false, dropPreload c,
            .one (.core c fun k => { k.forget b with pgatePend := if k.pgatePend = some x.ctx then none else k.pgatePend }),
            liftGate c, tryGate c]
      | _, _ => .done]

/-- The oldest copy of a saved block completes in its save record: it lies in global memory alone (R276, R402). -/
def completeSaved (x num : Nat) (ecc : Option Nat) : Prog :=
  .read fun s =>
    match (s.ctx? x).bind fun c => c.saved.find? fun v => v.num == num with
    | none => .done
    | some v =>
      match v.blk.cq.ops with
      | [] => .done
      | o :: _ =>
        if o.moved || !s.portsOpen o.flits then .done
        else
          let i := fun (bar : Nat) => (bar + 64 - v.blk.borg.toNat) % 64
          Prog.all [
            spendReq o.flits, engineSync v.core, o.move (dieOf v.core) ecc,
            (match ecc with
              | some n => onSaved x num fun b => { b with pend := b.pend ++
                  [{ cause := BitVec.ofNat 8 cEcc, pc := o.pc, addr := o.srcAddr n, lanes := 0, slices := o.slices, org := o.org,
                     time := s.sys.time }] }
              | none => .done),
            (match o.bar with
              | some bar => .one (.ctx x fun t => { t with saved := t.saved.map fun w =>
                  if w.num = num then { w with bars := modAt w.bars (i bar) fun q => { q with pend := q.pend - o.total } } else w })
              | none => .done),
            (match o.mail with
              | some m =>
                (onSaved x num fun b => { b with cq := { b.cq with ops := b.cq.ops.map fun e =>
                  if e.id = o.id then { e with moved := true } else e } }).andThen
                (.one (.sys fun y => { y with deliveries := y.deliveries ++ [{
                  mbx := m, kind := 1, payload := leBytes o.dbase.toNat 8 ++ leBytes o.total 4 ++ leBytes 0 4, ctx := o.ctx
                  src := .copy (savedBase + x) num o.id }] }))
              | none => freeSaved x num o.id none),
            tryGsync v.blk.grid, completeInvs x]

/-- COPY_COMPLETION: arguments core, queue, an uncorrectable error (0 none, 1 in DRAM, 2 in SRAM) and the byte that met it; or
768 plus a context and the number of a save record. -/
def copyCompletion (s : State) : Prog :=
  let ecc := if s.arg 2 != 0 then some (s.arg 3) else none
  (countEcc (s.arg 2)).andThen
    (if s.arg 0 ≥ savedBase then completeSaved (s.arg 0 - savedBase) (s.arg 1) ecc else completeCopy (s.arg 0) (s.arg 1) ecc)
def execCopyCompletion (s : State) : Host.Outcome State Fault Refusal := runEvent copyCompletion s

/-- Neither core of a pair has a block of the context. -/
def State.pairLeft (s : State) (x c : Nat) : Bool :=
  ((s.core c).blocks.all fun e => e.2.ctx != x) && ((s.core (partner c)).blocks.all fun e => e.2.ctx != x)

/-- Entries of one core's inbound side that belong to a context. -/
def Core.entriesOf (k : Core) (x : Nat) : List SpillEntry := (k.inbound ++ k.arriving).filter fun e => e.ctx == x

/-- The records that the Spillway contents of core `c`'s pair stand in once record `n` of core `c` has been written: in it, and in the
latest record of the partner core that has no mate, which goes with it. -/
def saveSpill (x c n : Nat) : Prog :=
  .read fun s =>
    let own := (s.core c).entriesOf x
    let out := (s.core (partner c)).entriesOf x
    let m := (s.ctx? x).bind fun t =>
      ((t.coreRecs.filter fun r => r.2.core == partner c && r.2.mate.isNone && t.saved.any fun v => v.coreRec == some r.1).map (·.1)).max?
    let clear := fun (c : Nat) => Prog.one (.core c fun k =>
      { k with inbound := k.inbound.filter (fun e => e.ctx != x), arriving := k.arriving.filter (fun e => e.ctx != x)
               outFree := 32, popsInFlight := 0 })
    Prog.all [
      .one (.ctx x fun t => { t with coreRecs := t.coreRecs.modify n fun r => { r with inbound := own, outbound := out, mate := m } }),
      (match m with
        | some m => .one (.ctx x fun t =>
            { t with coreRecs := t.coreRecs.modify m fun r => { r with inbound := out, outbound := own, mate := some n } })
        | none => .done),
      clear c, clear (partner c), tryGate c, tryGate (partner c)]

/-- The core record of a context whose last block on the core has been saved, under a number of its own, once the copies of its
harts have completed; the Spillway's contents once no block of the context remains on either core (R402, R123). The blocks saved from
the core since its last record belong to it. -/
def saveCore (x c : Nat) : Prog :=
  (Prog.read fun s => Prog.when ((s.core c).blocks.all fun e => e.2.ctx != x) (Prog.each [0, 1] fun q =>
    Prog.each (List.range (s.queueOf c q).ops.length) fun _ => completeCopy c q none)).andThen <| .read fun s =>
    let k := s.core c
    if k.blocks.any fun e => e.2.ctx == x then .done
    else
      let mine : Flume → Bool := fun f => match f.grid with
        | some g => (match s.grid? g with | some y => y.ctx == x | none => false)
        | none => false
      let hart := fun (h : Hart) => if h.run && h.ctx == x then some h else none
      let n := s.sys.nextId
      let r : CoreRec :=
        { core := c, flumes := k.flumes.filter fun e => mine e.2, rill := k.rill, shapes := k.shapes, inbound := [], outbound := []
          mate := none, pinned := false, loader := hart k.loader, storer := hart k.storer }
      Prog.all [
        .one (.ctx x fun t =>
          { t with
            coreRecs := t.coreRecs.set n r
            saved := t.saved.map fun v => if v.core = c ∧ v.coreRec = none then { v with coreRec := some n } else v }),
        .one (.sys fun y =>
          { y with
            nextId := y.nextId + 1
            deliveries := y.deliveries.map fun d => d.movedHart x fun e =>
              match e with
              | .copy c' q id => if c' = c ∧ q < 2 then .hartRec n q id else e
              | e => e }),
        .one (.core c fun k =>
          { k with
            flumes := k.flumes.map fun (e : Nat × Flume) => if mine e.2 then (e.1, {}) else e
            rill := [], shapes := if k.blocks.isEmpty then [] else k.shapes
            loader := if (hart k.loader).isSome then {} else k.loader
            storer := if (hart k.storer).isSome then {} else k.storer }),
        .one (.clus (clusterOf c) fun q =>
          { q with parts := q.parts.map fun p => { p with reqs := p.reqs.filter fun r => !(r.hart && r.core == c) } }),
        Prog.when (s.pairLeft x c && (s.spillHolder c == some x)) (saveSpill x c n)]

/-- The agents' counters go to the agent table (R376). -/
def writeCounters (x : Nat) : Prog :=
  .read fun s =>
    match s.ctx? x with
    | none => .done
    | some c => Prog.each c.agents fun e =>
        saveWrite x (0x9000 + 64 * e.1 + 8)
          ([e.2.pages, e.2.scrip, e.2.grans, e.2.fills, e.2.shared, e.2.wbacks].flatMap fun n => leBytes n 8)

/-- Resident blocks of a cluster group, with their cores and keys. -/
def State.groupOf (s : State) (gid grp : Nat) : List (Nat × Nat × Block) :=
  (s.residents gid).filter fun r => r.2.2.idx / (s.pktOf r.2.2).cg == grp

/-- One cluster group is saved. -/
def saveOne (gid grp : Nat) (by_ : Option Nat) : Prog :=
  .read fun s =>
    let l := s.groupOf gid grp
    match l, s.grid? gid with
    | (c0, _, b0) :: _, some g =>
      let held := (s.cluster (clusterOf c0)).csuGrid == some (gid, grp)
      Prog.all [
        Prog.each l fun r => saveBlock r.1 r.2.1 by_ false (held && r.2.2.idx == b0.idx),
        Prog.each (dedup (l.map (·.1))) fun c => saveCore g.ctx c,
        freeScratch c0 gid true, writeCounters g.ctx]
    | _, _ => .done

/-- The cluster groups that are pre-empted with one: those of a whole cooperative grid (R260). -/
def State.groupsWith (s : State) (gid grp : Nat) : List Nat :=
  match s.grid? gid with
  | some g => if g.pkt.coop then dedup ((s.residents gid).map fun r => r.2.2.idx / g.pkt.cg) else [grp]
  | none => []

/-- A cluster group is saved whole, and a cooperative grid as a whole (R39, R260, R402). -/
def saveGroup (gid grp : Nat) (by_ : Option Nat) : Prog :=
  .read fun s => Prog.each (s.groupsWith gid grp) fun i => saveOne gid i by_

/-- Every block that would be saved with a cluster group may be saved. -/
def State.groupSaveable (s : State) (gid grp : Nat) : Bool :=
  (s.groupsWith gid grp).all fun i => (s.groupOf gid i).all fun r => s.saveable r.1 r.2.1

/-- The cluster group of a block. -/
def State.grpOf (s : State) (b : Block) : Nat := b.idx / (s.pktOf b).cg

/-! ## Resuming (R403) -/

/-- The saved block of a grid with an index. -/
def Context.savedBlock (x : Context) (gid idx : Nat) : Option SavedBlock :=
  x.saved.find? fun v => v.blk.grid == gid && v.blk.idx == idx

/-- The lowest-numbered saved block of the context that belongs to core record `n`. -/
def Context.lowestOf (x : Context) (n : Nat) : Option (Nat × Nat) :=
  ((x.saved.filter fun v => v.coreRec == some n).foldl (fun m v =>
    let n := (v.blk.grid, v.blk.idx)
    match m with
    | some p => if n.1 < p.1 ∨ (n.1 = p.1 ∧ n.2 < p.2) then some n else some p
    | none => some n) none)

/-- Core `c` has room for the state in a core record: its flumes and harts are free there, no block of the core sees its shape
registers change, and the pair holds no entries (R403, R286, log 45). -/
def State.recordFits (s : State) (r : CoreRec) (c : Nat) : Bool :=
  let k := s.core c
  (r.flumes.all fun e => (k.flume e.1).grid.isNone)
    && ((r.loader.isNone && r.storer.isNone) || (!k.loader.run && !k.storer.run))
    && (k.blocks.isEmpty || r.shapes == k.shapes)
    && ((r.inbound.isEmpty && r.outbound.isEmpty) || (s.spillHolder c).isNone)

/-- A core that the block may resume on as far as flumes, harts, the core record and the Spillway say (R403): where its core's state
stands on the core, that core, if the block's grid declares flumes or has harts there or the context's entries stand there; where a
record holds it, the record's lowest-numbered block takes it to a core with room for it, and another that needs it waits for that. -/
def State.coreAllowed (s : State) (x : Nat) (ctx : Context) (g : Grid) (v : SavedBlock) (c : Nat) : Bool :=
  let old := s.core v.core
  let gid := v.blk.grid
  match v.coreRec.bind fun n => (ctx.coreRecs.get? n).map fun r => (n, r) with
  | some (n, r) =>
    if ctx.lowestOf n == some (gid, v.blk.idx) then
      s.recordFits r c && (!r.pinned || c == r.core || s.spillHolder r.core != some x)
    else r.inbound.isEmpty && r.outbound.isEmpty && !r.pinned && g.flumes == 0
  | none =>
    let stays := ((old.blocks.any fun e => e.2.ctx == x) && g.flumes != 0)
      || (old.flumes.any fun f => f.2.grid == some gid) || (old.loader.run && old.loader.grid == gid)
      || (old.storer.run && old.storer.grid == gid) || s.spillHolder v.core == some x
    !stays || c == v.core

/-- A cluster that a cluster group may resume on as far as its partitions, planes and resident members say (R210, R231). -/
def State.clusterAllowed (s : State) (gid grp : Nat) (v : SavedBlock) (k : Nat) : Bool :=
  let old := s.cluster v.clus
  let plane := fun (p : Plane) => p.valid && p.ctx == v.blk.ctx && p.grid == gid
  (match v.part with
    | some _ => (s.cluster k).partGrid != some gid
    | none => old.partGrid != some gid || k == v.clus)
    && (!(plane old.active || plane old.shadow) || k == v.clus)
    && (old.csuGrid != some (gid, grp) || k == v.clus)
    && ((s.groupOf gid grp).all fun e => clusterOf e.1 == k)

/-- The state in which a cluster is judged for a group that partly holds it already. -/
def State.judged (s : State) (gid grp k : Nat) : State :=
  if (s.cluster k).csuGrid = some (gid, grp) then (Eff.clus k fun q => { q with csuGrid := none }).apply s else s

/-- The planes of a grid that were saved from cluster `old` go into the array of cluster `k`, the latest of each, but for one that
the context has loaded there since; the grid's other groups of that cluster follow them (R231). -/
def restorePlanes (x gid old k : Nat) : Prog :=
  .read fun s =>
    let rs : List (Nat × ClusterRec) := match s.ctx? x with
      | some c => c.clusRecs.filter fun r => r.2.grid == gid && r.2.clus == old && (r.2.active.isSome || r.2.shadow.isSome)
      | none => []
    let latest := fun (f : ClusterRec → Option Plane) =>
      rs.foldl (fun m r => match f r.2, m with
        | some p, some (n, _) => if r.1 > n then some (r.1, p) else m
        | some p, none => some (r.1, p)
        | none, _ => m) none
    let put := fun (saved : Option (Nat × Plane)) (p : Plane) => if p.valid && p.ctx == x then p else (saved.map (·.2)).getD p
    Prog.when (!rs.isEmpty) <| Prog.all [keepPlanes k x,
      .one (.clus k fun q => { q with active := put (latest (·.active)) q.active, shadow := put (latest (·.shadow)) q.shadow }),
      .one (.ctx x fun c =>
        { c with
          clusRecs := c.clusRecs.filter fun r => rs.all fun e => e.1 != r.1
          saved := c.saved.map fun v => if v.blk.grid = gid ∧ v.clus = old ∧ v.part = none then { v with clus := k } else v })]

/-- The spilled partitions of record `n` go onto cluster `k` whole, and the saved blocks that belong to them with them
(R210). -/
def restoreParts (x gid n k : Nat) : Prog :=
  .read fun s =>
    match (s.ctx? x).bind fun c => c.clusRecs.get? n with
    | none => .done
    | some r => Prog.all [
        Prog.each r.cist fun e => .one (.write ⟨4, k, e.1⟩ [e.2]),
        .one (.clus k fun q => { q with parts := r.parts, partGrid := some gid }),
        .one (.ctx x fun c =>
          { c with clusRecs := c.clusRecs.del n
                   saved := c.saved.map fun v => if v.part = some n then { v with part := none, clus := k } else v })]

/-- What a cluster takes back for a group that resumes on it. -/
def restoreCluster (x gid : Nat) (v : SavedBlock) (k : Nat) : Prog :=
  (restorePlanes x gid v.clus k).andThen (match v.part with | some n => restoreParts x gid n k | none => .done)

/-- The tiles that a hart owns follow it to its new core (R212). -/
def moveHartTiles (k gid old c : Nat) : Prog :=
  .one (.clus k fun q =>
    if q.partGrid = some gid then
      { q with parts := q.parts.map fun p => { p with tiles := p.tiles.map fun t =>
          if t.2.owner.hart && t.2.owner.core == old then (t.1, { t.2 with owner := { t.2.owner with core := c } }) else t } }
    else q)

/-- Core record `n` goes to core `c`: flumes, shape registers, Rill words where it holds any and no other context is resident,
harts, and the Spillway's contents, with which its mate is bound to the partner core (R403, R123, R286). The saved blocks of the
record belong to the core from then on. -/
def restoreCore (x n c : Nat) : Prog :=
  .read fun s =>
    match (s.ctx? x).bind fun t => t.coreRecs.get? n with
    | none => .done
    | some r =>
      let alone := (s.core c).blocks.all fun e => e.2.ctx == x
      let spill := !r.inbound.isEmpty || !r.outbound.isEmpty
      let ids := ([r.loader, r.storer].flatMap fun h => match h with | some h => h.cq.ops.map (·.id) | none => []).foldl max 0
      Prog.all [
        .one (.core c fun k =>
          { k with
            flumes := r.flumes.foldl (fun t e => t.set e.1 e.2) k.flumes
            rill := if alone && !r.rill.isEmpty then r.rill else k.rill
            shapes := r.shapes, nextId := max k.nextId (ids + 1)
            loader := r.loader.getD k.loader, storer := r.storer.getD k.storer }),
        .one (.sys fun y => { y with deliveries := y.deliveries.map fun d => d.movedHart x fun e =>
          match e with
          | .hartRec m q id => if m = n then .copy c q id else e
          | e => e }),
        (match r.loader, r.storer with
          | none, none => .done
          | some h, _ => moveHartTiles (clusterOf c) h.grid r.core c
          | none, some h => moveHartTiles (clusterOf c) h.grid r.core c),
        .one (.ctx x fun y =>
          { y with
            coreRecs := y.coreRecs.del n
            saved := y.saved.map fun v => if v.coreRec = some n then { v with coreRec := none, core := c } else v }),
        Prog.when spill (Prog.all [
          .one (.core c fun k => { k with inbound := r.inbound, outFree := 32 - r.outbound.length, popsInFlight := 0 }),
          .one (.core (partner c) fun k => { k with inbound := r.outbound, outFree := 32 - r.inbound.length, popsInFlight := 0 }),
          (match r.mate with
            | some m => .one (.ctx x fun y =>
                { y with coreRecs := y.coreRecs.modify m fun q =>
                    { q with core := partner c, inbound := [], outbound := [], mate := none, pinned := true } })
            | none => .done)])]

/-- A wait that names a physical barrier, in the block's new range. -/
def Wait.rebase (w : Wait) (f : Nat → Nat) : Wait :=
  match w with
  | .barHold i a => .barHold (f i) a
  | .bar i a => .bar (f i) a
  | .barw i a => .barw (f i) a
  | w => w

/-- A saved block as it stands at a new spot. -/
def SavedBlock.moved (v : SavedBlock) (sp : Spot) (heat time order firstId : Nat) : Block :=
  let b := v.blk
  let f := fun (i : Nat) => (sp.borg + (i + 64 - b.borg.toNat) % 64) % 64
  { b with
    phys := sp.phys, scrBase := sp.scr, zBase := sp.z, borg := BitVec.ofNat 6 sp.borg
    bbase := BitVec.ofNat 6 (f b.bbase.toNat)
    gangs := b.gangs.map fun e =>
      (e.1, { e.2 with wait := e.2.wait.rebase f, more := e.2.more.map fun w => w.rebase f
                       frames := e.2.frames.map fun r => { r with waits := r.waits.map fun w => w.rebase f } })
    cq := { b.cq with ops := b.cq.ops.zipIdx.map fun e => { e.1 with id := firstId + e.2, bar := e.1.bar.map f } }
    grant := none, regrant := match b.grant with | some n => some n | none => b.regrant
    heat, placedAt := time, runSince := time, order }

/-- One saved block resumes at a spot (R403). -/
def resumeOne (x gid : Nat) (g : Grid) (h : Nat) (idx : Nat) (sp : Spot) (charge : Nat) : Prog :=
  .read fun s =>
    match s.ctx? x, (s.ctx? x).bind fun c => c.savedBlock gid idx with
    | some ctx, some v =>
      let c := sp.core
      let p := g.pkt
      let key := sp.key
      let scr := 16384 * spwRfg p.spw + sp.scr
      let acc := 16384 * (spwRfg p.spw + spwSpg p.spw) + sp.z
      let put := fun (a : Nat) (m : Mem) => Prog.each m fun e => .one (.write ⟨2, c, a + e.1⟩ [e.2])
      Prog.all [
        (match v.coreRec with | some n => Prog.when (ctx.lowestOf n == some (gid, idx)) (restoreCore x n c) | none => .done),
        .one (.ctx x fun t => { t with saved := t.saved.filter fun w => !(w.blk.grid == gid && w.blk.idx == idx) }),
        enterPaths c gid g, .one (.core c fun k => k.setSpw p.spw),
        takePool c x scr p.spb, takePool c x acc (32768 * spwZpb p.spw),
        .one (.zero ⟨2, c, scr⟩ p.spb), .one (.zero ⟨2, c, acc⟩ (32768 * spwZpb p.spw)),
        put scr v.scratch, put acc v.acc,
        Prog.each v.csu fun e => .one (.write ⟨3, clusterOf c, e.1⟩ [e.2]),
        .read fun t =>
          let n := (t.core c).nextId
          let b := v.moved sp h t.sys.time t.sys.nextOrder n
          let vq := (dedup ((b.gangs.filter fun e => e.2.vliw).flatMap fun e =>
            (b.members e.1).map fun i => b.phys.getD i 0 / 4))
          Prog.all [
            .one (.core c fun k =>
              let k := { k with blocks := k.blocks.set key b, nextId := n + b.cq.ops.length }
              let k := vq.foldl (fun k q => k.setQuarter q true) (k.takeFlumes gid g)
              v.bars.zipIdx.foldl (fun k e =>
                k.setBar ((sp.borg + e.2) % 64) { e.1 with held := e.1.held.map fun w => (key, w.2) }) k),
            .one (.sys fun y =>
              { y with
                nextOrder := y.nextOrder + 1
                deliveries := y.deliveries.map fun d => d.moved x (savedBase + x) v.num fun id =>
                  (v.blk.cq.ops.findIdx? fun o => o.id == id).map fun i => .copy c (key + 2) (n + i) }),
            addHeat c h true, chargeScrip x v.blk.agent.toNat charge, liftGate c,
            (match b.regrant with
              | some n => .one (.clus (clusterOf c) fun q => { q with preqs := q.preqs ++ [(c, key, 0, n)] })
              | none => .done),
            Prog.when (!v.area.isEmpty) (writeArea x (sliceAreas c sp.phys) v.area),
            settlePend c key, Prog.each (List.range v.blk.nbr) fun i => tryRelease c key ((sp.borg + i) % 64),
            Prog.when v.watchdog (raiseAt c key cWatchdog fun y => y.wait != .ready),
            Prog.when v.codeGone (takeGone c key)]]
    | _, _ => .done

/-- Saved blocks of a cluster group that may resume, ascending. -/
def Context.savedGroup (x : Context) (gid grp cg : Nat) : List SavedBlock :=
  let l := x.saved.filter fun v => v.blk.grid == gid && v.blk.idx / cg == grp && !v.stopped
  l.foldl (fun acc v => (acc.filter fun w => w.blk.idx < v.blk.idx) ++ [v] ++ (acc.filter fun w => w.blk.idx ≥ v.blk.idx)) []

/-- A phase task joins a queue in the order of the tasks' numbers (R65). -/
def insertPhase (l : List Task) (b n : Nat) : List Task :=
  let before := fun (t : Task) => match t with | .phase _ m => decide (m < n) | _ => true
  l.takeWhile before ++ [.phase b n] ++ l.dropWhile before

/-- The phase tasks of resumed blocks are queued in the order in which they stood (R65). -/
def requeue (gid grp : Nat) (l : List SavedBlock) : Prog :=
  Prog.each l fun v => .read fun s =>
    match (s.groupOf gid grp).find? fun r => r.2.2.idx == v.blk.idx, v.task with
    | some r, some n => .one (.core r.1 fun k => { k with tasks := insertPhase k.tasks r.2.1 n })
    | _, _ => .done

/-- The program that resumes the saved blocks of one cluster group on the best of some clusters (R363, R403). -/
def State.resumeOn (s : State) (x gid grp : Nat) (ctx : Context) (g : Grid) (l : List SavedBlock) (v0 : SavedBlock)
    (clusters : List Nat) : Option Prog :=
  let h := s.heatOf g
  let judge := fun (k : Nat) (t : State) (v : SavedBlock) =>
    match t.ctx? x, (t.ctx? x).bind fun c => c.savedBlock gid v.blk.idx with
    | some cx, some w =>
      let regs := (if w.blk.phaseRec.isNone then g.pkt.regBytes else 0) + g.pkt.recBytes
      lowest ((coresOf k).filterMap fun c =>
        if t.coreAllowed x cx g w c then
          (t.spotOn gid g regs c).bind fun sp =>
            if t.heatRefused c h (s.floorOn g (k / 24)) then none else some (t.scripOf c h, sp)
        else none)
    | _, _ => none
  (lowest (clusters.filterMap fun k =>
    if s.clusterAllowed gid grp v0 k && (s.judged gid grp k).clusterOk gid g.pkt k then
      let fresh := (s.cluster k).csuGrid != some (gid, grp) && cpwCsu g.pkt.cpw ≥ 1
      let enter := Prog.all [enterCluster k gid g grp, restoreCluster x gid v0 k,
        Prog.when fresh (.one (.zero ⟨3, k, 0⟩ (65536 * cpwCsu g.pkt.cpw)))]
      (assign (judge k) (fun v sp n => resumeOne x gid g h v.blk.idx sp n) l (enter.run s)).map fun r =>
        (r.1, Prog.all [enter, r.2, requeue gid grp l, writeCounters x])
    else none)).map (·.2)

/-- The program that resumes one saved cluster group: on its old tower when a cluster there can take it, else, unless its tower
group keeps it to that tower (R40), on any other. -/
def State.resumeGrp (s : State) (x gid grp : Nat) : Option Prog :=
  match s.ctx? x, s.grid? gid with
  | some ctx, some g =>
    let l := ctx.savedGroup gid grp g.pkt.cg
    match l with
    | [] => none
    | v0 :: _ =>
      let home := clustersOf (towerOf v0.core)
      match s.resumeOn x gid grp ctx g l v0 home with
      | some p => some p
      | none =>
        if g.pkt.tg = 1 then s.resumeOn x gid grp ctx g l v0 ((List.range 192).filter fun k => !home.contains k) else none
  | _, _ => none

/-- Resumes several groups of a grid, each in the state that the earlier leave, or none. -/
def State.resumeAll (x gid : Nat) : List Nat → State → Option Prog
  | [], _ => some .done
  | i :: r, s =>
    match s.resumeGrp x gid i with
    | none => none
    | some p => (State.resumeAll x gid r (p.run s)).map p.andThen

/-- The program that resumes a saved cluster group, or the whole of a cooperative grid (R260, R403). -/
def State.resumeGroup (s : State) (x gid grp : Nat) : Option Prog :=
  match s.ctx? x, s.grid? gid with
  | some ctx, some g =>
    if g.pkt.coop then
      let l := dedup ((ctx.saved.filter fun v => v.blk.grid == gid && !v.stopped).map fun v => v.blk.idx / g.pkt.cg)
      if l.isEmpty then none else State.resumeAll x gid l s
    else s.resumeGrp x gid grp
  | _, _ => none

/-- BLOCK_RESUME: arguments context, index of a saved block. -/
def blockResume (s : State) : Prog :=
  let x := s.arg 0
  match s.ctx? x with
  | none => .done
  | some ctx =>
    match ctx.saved[s.arg 1]? with
    | none => .done
    | some v =>
      if !v.eligible || v.stopped || ctx.parked then .done
      else (s.resumeGroup x v.blk.grid (s.grpOf v.blk)).getD .done
def execBlockResume (s : State) : Host.Outcome State Fault Refusal := runEvent blockResume s

/-! ## Making room (R371, R372) -/

/-- Microseconds and milliseconds in nanoseconds. -/
def us (n : Nat) : Nat := 1000 * n
def ms (n : Nat) : Nat := 1000000 * n

/-- Saves victims one by one until `can` answers. -/
def makeRoom (can : State → Option Prog) (victim : State → Option Prog) : (fuel : Nat) → State → Option Prog
  | 0, s => can s
  | n + 1, s =>
    match can s with
    | some p => some p
    | none =>
      match victim s with
      | none => none
      | some q => (makeRoom can victim n (q.run s)).map q.andThen

/-- The priority at which a block runs: that of its context, or while it runs in a parked block's place that of the context which
displaced it (R382). -/
def State.runPrio (s : State) (b : Block) : Nat :=
  let of_ := fun (x : Nat) => match s.ctx? x with | some c => c.prio | none => 0
  match b.donated.bind s.grid? with | some g => of_ g.ctx | none => of_ b.ctx

/-- Every block that would be saved with a cluster group was placed or resumed at least 50 µs ago (R371, R372). -/
def State.groupHeld (s : State) (gid grp : Nat) : Bool :=
  (s.groupsWith gid grp).all fun i => (s.groupOf gid i).all fun r => decide (r.2.2.placedAt + us 50 ≤ s.sys.time)

/-- The youngest saveable cluster group of the lowest priority among resident blocks that a condition picks, none of which was
placed or resumed less than 50 µs ago; it is to be saved on behalf of a grid. -/
def State.victim (s : State) (pick : Nat → Block → Bool) (by_ : Option Nat) : Option Prog :=
  let l := s.cores.flatMap fun e => (e.2.blocks.filter fun b => pick e.1 b.2).map fun b => b.2
  let better := fun (a b : Block) =>
    decide (s.runPrio a < s.runPrio b) || (s.runPrio a == s.runPrio b && decide (a.order > b.order))
  let ok := l.filter fun b => s.groupSaveable b.grid (s.grpOf b) && s.groupHeld b.grid (s.grpOf b)
  (ok.foldl (fun m b => match m with | some a => if better b a then some b else some a | none => some b) none).map fun b =>
    saveGroup b.grid (s.grpOf b) by_

/-- PREEMPT_FOR_PRIORITY: arguments die, and the code object of a grid that starts. The first of its units whose context has
victims on the tower is placed in their stead (R371). -/
def preemptForPriority (s : State) : Prog :=
  let d := s.arg 0
  let o := s.codeObj 1
  let prio : Nat → Nat := fun x => match s.ctx? x with | some c => c.prio | none => 0
  if s.sys.st != .locked || d ≥ 16 then .done
  else
    let try_ := fun (e : Nat × Grid) =>
      if (e.2.nextGroup d).isNone || (s.placeNext d e.1 e.2 o).isSome then none
      else
        makeRoom (fun t => match t.grid? e.1 with | some g => t.placeNext d e.1 g o | none => none)
          (fun t => t.victim (fun c b => towerOf c == d / 2 && decide (t.runPrio b < prio e.2.ctx)) (some e.1)) 1024 s
    (s.gridOrder.findSome? try_).getD .done
def execPreemptForPriority (s : State) : Host.Outcome State Fault Refusal := runEvent preemptForPriority s

/-- The resident blocks of the groups that resume with one hold their cores for 50 µs (R372). -/
def markHeld (gid grp : Nat) : Prog :=
  .read fun s => Prog.each (s.groupsWith gid grp) fun i => Prog.each (s.groupOf gid i) fun r =>
    onBlock r.1 r.2.1 fun b => { b with holdUntil := s.sys.time + us 50 }

/-- The group of a saved block resumes, whatever must make room, and where that alone does not do, its grid's partitions and planes
are taken from the cluster that holds them (R372, R210, R231). -/
def State.resumeDue (s : State) (x : Nat) (v : SavedBlock) : Option Prog :=
  let gid := v.blk.grid
  let grp := s.grpOf v.blk
  let room := makeRoom (fun t => t.resumeGroup x gid grp)
    (fun t => t.victim (fun c b => towerOf c == towerOf v.core && !(b.grid == gid && t.grpOf b == grp)) none) 1024
  let take := (Prog.when ((s.cluster v.clus).partGrid == some gid && s.spillable v.clus) (spillParts v.clus)).andThen
    (keepPlanes v.clus 4096)
  let p : Option Prog := match room s with | some p => some p | none => (room (take.run s)).map take.andThen
  p.map fun p => p.andThen (markHeld gid grp)

/-- A list in the order of a number, the earlier of equals first. -/
def inOrder {β : Type} (f : β → Nat) (l : List β) : List β :=
  l.foldl (fun acc e => (acc.filter fun a => f a ≤ f e) ++ [e] ++ (acc.filter fun a => f a > f e)) []

/-- STARVATION_RESUME: argument context. Of its blocks that have been due for 2 ms the first whose group can resume does, the one
due longest first (R372). -/
def starvationResume (s : State) : Prog :=
  let x := s.arg 0
  match s.ctx? x with
  | none => .done
  | some ctx =>
    let l := ctx.saved.filter fun v => v.eligible && !v.stopped && decide (v.since + ms 2 ≤ s.sys.time)
    if ctx.parked then .done else ((inOrder (·.since) l).findSome? (s.resumeDue x)).getD .done
def execStarvationResume (s : State) : Host.Outcome State Fault Refusal := runEvent starvationResume s

/-! ## Tasks (R65, R373) -/

/-- The block as its next phase starts (R63). -/
def Block.startPhase (b : Block) (p : Packet) (time : Nat) : Block :=
  match b.phaseRec with
  | none => b
  | some r =>
    let s := carryS p.carry p.arg r.s
    { b with
      lanes := r.lanes
      slices := b.slices.zipIdx.map fun e =>
        let live := r.live.getD e.2 0
        if live = 0 then e.1 else { e.1 with gang := b.nextGang, pc := r.pc, live, active := live, stack := [], ex := [], s }
      gangs := [(b.nextGang, {})], nextGang := b.nextGang + 1, phaseRec := none, runSince := time }

/-- One block of a queued group is placed on the core whose queue holds it (R373). -/
def State.launchOn (s : State) (gid : Nat) (g : Grid) (grp c : Nat) : Option Prog :=
  let k := clusterOf c
  let h := s.heatOf g
  if s.clusterTakes gid g k && s.spillRoom g.ctx g.pkt.saveBytes then
    (s.spotOn gid g (g.pkt.regBytes + g.pkt.recBytes) c).bind fun sp =>
      if s.heatRefused c h (s.floorOn g (towerOf c)) then none
      else some ((enterCluster k gid g grp).andThen (placeFresh gid g h grp sp (s.scripOf c h)))
  else none

/-- The start of a task, when the core can hold it (R65, R373); what a preloaded task reserves is its own. -/
def State.taskStart (s : State) (c : Nat) (t : Task) : Option Prog :=
  let own := (s.taskOrder c).head? == some t
  let s := if own then (dropPreload c).run s else s
  let leave := Prog.one (.core c fun k => { k with tasks := k.tasks.filter (· != t), preload := k.preload && !own })
  match t with
  | .phase b _ =>
    (s.block? c b).bind fun x =>
      if s.regUse c + (s.pktOf x).regBytes ≤ 16384 * spwRfg (s.core c).spw then
        some ((begins c b fun y => y.startPhase (s.pktOf x) s.sys.time).andThen leave)
      else none
  | .launch gid grp => ((s.grid? gid).bind fun g => s.launchOn gid g grp c).map leave.andThen
  | .resume x gid grp => (s.resumeGroup x gid grp).map leave.andThen

/-- The first task of the core that can start starts; tasks of one priority keep their order (R65). -/
def startTask (c : Nat) : Prog :=
  .read fun s => ((s.taskOrder c).findSome? fun t => s.taskStart c t).getD .done

/-- PHASE_TASK_START: argument core. A pre-empted group that has resumed otherwise leaves the queue. -/
def phaseTaskStart (s : State) : Prog :=
  let c := s.arg 0
  let live := fun (t : Task) => match t with
    | .resume x gid grp => (s.ctx? x).any fun k => k.saved.any fun v => v.blk.grid == gid && s.grpOf v.blk == grp
    | _ => true
  (Prog.when ((s.core c).tasks.any fun t => !live t) (.one (.core c fun k => { k with tasks := k.tasks.filter live }))).andThen
    (startTask c)
def execPhaseTaskStart (s : State) : Host.Outcome State Fault Refusal := runEvent phaseTaskStart s

/-- TASK_PRELOAD: argument core. The next task's storage is reserved, when it is free; nothing else is visible (R373). -/
def taskPreload (s : State) : Prog :=
  let c := s.arg 0
  match s.taskOrder c with
  | t :: _ =>
    let n := s.taskNeed c t
    let k := s.core c
    let scr := firstFit (k.blocks.map fun b => (b.2.scrBase, b.2.scrLen)) (16384 * spwSpg k.spw) n.2
    Prog.when (!k.preload && decide (s.regUse c + n.1 ≤ 16384 * spwRfg k.spw) && scr.isSome) (.one (.core c fun k => { k with preload := true }))
  | [] => .done
def execTaskPreload (s : State) : Host.Outcome State Fault Refusal := runEvent taskPreload s

/-- TASK_BUDGET_EXPIRY: argument core. A block that has run longer than its budget is saved with its group, which goes to the tail
of the queue, and the preloaded task of equal or higher priority starts (R373). -/
def taskBudgetExpiry (s : State) : Prog :=
  let c := s.arg 0
  let k := s.core c
  let prio : Block → Nat := fun b => match s.grid? b.grid with | some g => g.prio | none => 0
  match s.taskOrder c, (s.taskOrder c).head?.bind (s.taskGrid c) with
  | t :: _, some g =>
    let waits := fun (e : Nat × Block) => match t with
      | .phase b _ => (s.groupOf e.2.grid (s.grpOf e.2)).any fun r => r.1 == c && r.2.1 == b
      | _ => false
    let excess := k.blocks.find? fun e =>
      let n := (s.pktOf e.2).budg
      n != 0 && !e.2.gangs.isEmpty && decide (e.2.runSince + 10000 * n < s.sys.time) && decide (e.2.holdUntil ≤ s.sys.time)
        && decide (g.prio ≥ prio e.2)
        && s.groupSaveable e.2.grid (s.grpOf e.2) && !waits e
    match excess with
    | some e =>
      Prog.when k.preload (Prog.all [saveGroup e.2.grid (s.grpOf e.2) none,
        .one (.core c fun k => { k with tasks := k.tasks ++ [.resume e.2.ctx e.2.grid (s.grpOf e.2)] }), startTask c])
    | none => .done
  | _, _ => .done
def execTaskBudgetExpiry (s : State) : Host.Outcome State Fault Refusal := runEvent taskBudgetExpiry s

/-! ## Donation (R382) and condition monitors (R262, R263) -/

/-- The cluster groups of which a grid displaced blocks that are still saved, oldest first: context, grid, group. -/
def State.displaced (s : State) (gid : Nat) : List (Nat × Nat × Nat) :=
  let l := s.ctxs.flatMap fun e => (e.2.saved.filter fun v => v.by_ == some gid && v.eligible && !v.stopped).map fun v => (e.1, v)
  let old := l.foldl (fun acc e => (acc.filter fun f => f.2.savedAt ≤ e.2.savedAt) ++ [e] ++ (acc.filter fun f => f.2.savedAt > e.2.savedAt)) []
  old.foldl (fun acc e =>
    let p := (e.1, e.2.blk.grid, s.grpOf e.2.blk)
    if acc.contains p then acc else acc ++ [p]) []

/-- The resident blocks of a group run at the priority of a grid's context. -/
def markDonated (gid grp by_ : Nat) : Prog :=
  .read fun s => Prog.each (s.groupOf gid grp) fun r => onBlock r.1 r.2.1 fun b => { b with donated := some by_ }

/-- The groups of a list that fit resume in a grid's place, each in the state that the earlier leave. -/
def donateTo (by_ : Nat) : List (Nat × Nat × Nat) → State → Option Prog
  | [], _ => none
  | (x, gid, grp) :: r, s =>
    match s.resumeGroup x gid grp with
    | none => donateTo by_ r s
    | some p =>
      let p := p.andThen (markDonated gid grp by_)
      some (match donateTo by_ r (p.run s) with | some q => p.andThen q | none => p)

/-- A gang parks in `WAITC` while blocks that its grid displaced are saved: its group is swapped for the oldest of them that fit
(R382). -/
def donate (c b g : Nat) : Prog :=
  .read fun s =>
    match s.block? c b with
    | none => .done
    | some x =>
      let parked := match x.gangs.get? g with | some y => (match y.wait with | .waitc .. => true | _ => false) | none => false
      let grp := s.grpOf x
      let l := s.displaced x.grid
      if parked && !l.isEmpty && s.groupSaveable x.grid grp then
        let save := saveGroup x.grid grp none
        match donateTo x.grid l (save.run s) with
        | some p => save.andThen p
        | none => .done
      else .done

/-- `WAITC` (R262); a gang that parks may donate its place. -/
def execWaitc (f : XForm) (s : State) : Host.Outcome State Fault Refusal :=
  match runX f (semWaitc f) s, unitOf s 8 with
  | .next t, some u => .next ((donate u.c u.b u.g).run t)
  | o, _ => o

/-- A parked gang is let issue its `WAITC` again. -/
def reexamine (c b g : Nat) : Prog :=
  onGang c b g fun x => match x.wait with | .waitc .. | .filling _ => { x with wait := .ready } | _ => x

/-- The wait of a saved gang of a grid ends: its comparison holds, or its page has left FILLING in the table that the grid locked
(R263, R72, R394). -/
def State.firesFor (s : State) (x : Context) (g : Grid) (w : Wait) : Bool :=
  match w with
  | .waitc sp a n cmp sg than =>
    cmpInt cmp (intVal sg n (leNat (s.readBytes ⟨sp, 0, a⟩ (n / 8)))) (intVal sg n (than.toNat % 2 ^ n))
  | .filling va =>
    match s.walkFor g x va with
    | .pte _ _ p => pteSt p != 3
    | _ => false
  | _ => false

/-- Waits that a condition picks end in a saved block. -/
def Block.unwait (b : Block) (f : Gang → Wait → Bool) : Block :=
  { b with gangs := b.gangs.map fun e => (e.1,
      if f e.2 e.2.wait || e.2.more.any (f e.2) then { e.2 with wait := .ready, more := [] } else e.2) }

/-- Gangs of a saved block whose waits a condition picks go on: it becomes eligible (R72), the blocks that run in its place are
saved again and it resumes (R263, R382); a parked context resumes (R404). -/
def savedFires (x n : Nat) (f : State → Context → Grid → Gang → Wait → Bool) : Prog :=
  .read fun s =>
    match s.ctx? x, (s.ctx? x).bind fun c => c.saved[n]? with
    | some ctx, some v =>
      let b := v.blk.unwait (f s ctx ((s.grid? v.blk.grid).getD {}))
      if b = v.blk then .done
      else
        let gid := v.blk.grid
        Prog.all [
          unpark x,
          .one (.ctx x fun c => { c with saved := modAt c.saved n fun w => { w.makeEligible s.sys.time with blk := b } }),
          .read fun t =>
            let back := t.cores.flatMap fun e => (e.2.blocks.filter fun b => b.2.donated == some gid).map fun b => b.2
            (makeRoom (fun t => t.resumeGroup x gid (t.grpOf v.blk))
              (fun t => match back.find? fun b => !(t.groupOf b.grid (t.grpOf b)).isEmpty && t.groupSaveable b.grid (t.grpOf b) with
                | some b => some (saveGroup b.grid (t.grpOf b) (some gid))
                | none => none) 64 t).getD .done]
    | _, _ => .done

/-- A saved block's monitor is examined. -/
def savedMonitor (x n : Nat) : Prog := savedFires x n fun s c g _ w => s.firesFor c g w

/-- MONITOR_REEXAMINE: arguments core, block, gang; or 768 plus a context, index of a saved block. -/
def monitorReexamine (s : State) : Prog :=
  if s.arg 0 ≥ savedBase then savedMonitor (s.arg 0 - savedBase) (s.arg 1) else reexamine (s.arg 0) (s.arg 1) (s.arg 2)
def execMonitorReexamine (s : State) : Host.Outcome State Fault Refusal := runEvent monitorReexamine s

/-- MONITOR_POLL: as a re-examination (R262). -/
def monitorPoll (s : State) : Prog :=
  if s.arg 0 ≥ savedBase then savedMonitor (s.arg 0 - savedBase) (s.arg 1) else reexamine (s.arg 0) (s.arg 1) (s.arg 2)
def execMonitorPoll (s : State) : Host.Outcome State Fault Refusal := runEvent monitorPoll s

/-- A `WAITC` of a gang waits past its deadline (R262). -/
def Gang.timedOut (x : Gang) (time : Nat) (w : Wait) : Bool :=
  match w with | .waitc .. => x.dues.any fun d => decide (d.2.2 < time) | _ => false

/-- WAITC_TIMEOUT: arguments core, block, gang, whose deadline has passed; or 768 plus a context, index of a saved block. -/
def waitcTimeout (s : State) : Prog :=
  if s.arg 0 ≥ savedBase then savedFires (s.arg 0 - savedBase) (s.arg 1) fun s _ _ x w => x.timedOut s.sys.time w
  else onGang (s.arg 0) (s.arg 1) (s.arg 2) fun x => if x.timedOut s.sys.time x.wait then { x with wait := .ready } else x
def execWaitcTimeout (s : State) : Host.Outcome State Fault Refusal := runEvent waitcTimeout s

/-! ## The deadlock watchdog (R404) -/

/-- The harts that run for a context, on cores and in core records. -/
def State.hartsOf (s : State) (x : Nat) (ctx : Context) : List Hart :=
  (s.cores.flatMap fun e => [e.2.loader, e.2.storer].filter fun h => h.run && h.ctx == x)
    ++ ctx.coreRecs.flatMap fun r => [r.2.loader, r.2.storer].filterMap id

/-- Every gang and hart of the context waits. -/
def State.allWait (s : State) (x : Nat) (ctx : Context) : Bool :=
  let waits := fun (b : Block) (gated : Bool) => b.halt || b.gangs.all fun e => gated || e.2.wait != .ready
  (s.cores.all fun e => e.2.blocks.all fun b => b.2.ctx != x || waits b.2 e.2.gated)
    && ((s.hartsOf x ctx).all fun h => h.wait != .ready) && ctx.saved.all fun v => v.stopped || waits v.blk false

/-- The addresses of the successor list of a grid. -/
def State.succOf (s : State) (g : Grid) (x : Context) : List W64 :=
  (List.range g.pkt.succn.toNat).filterMap fun i =>
    (s.devBytes (g.via s x) x (g.pkt.succ + BitVec.ofNat 64 (8 * i)) 8).map fun b => BitVec.ofNat 64 (leNat b)

/-- An engine operation, a queued launch, an armed packet with a running predecessor, or a mailbox handler is pending. -/
def State.pendingWork (s : State) (x : Nat) (ctx : Context) : Bool :=
  (s.cores.any fun e =>
    (e.2.blocks.any fun b => b.2.ctx == x && !s.engineIdle e.1 b.1)
      || e.2.tasks.any fun t => match t with | .launch gid _ => (s.grid? gid).any fun g => g.ctx == x && !g.done | _ => false)
    || ((s.hartsOf x ctx).any fun h => !h.cq.ops.isEmpty) || (ctx.saved.any fun v => !v.blk.cq.ops.isEmpty)
    || s.sys.deliveries.any (fun d => d.ctx == x)
    || s.grids.any (fun e => e.2.ctx == x && !e.2.done && !e.2.armed && decide (e.2.placed.length < e.2.pkt.groups))
    || s.grids.any (fun e => e.2.ctx == x && e.2.armed && s.grids.any fun h =>
        h.2.ctx == x && h.2.started && (s.succOf h.2 ctx).contains e.2.va)
    || s.sys.mbx.any fun e => e.2.owner == x && e.2.valid && (!e.2.slots.isEmpty || e.2.running.isSome)

/-- An address lies in the ring area of a registered mailbox. -/
def State.inRing (s : State) (a : Nat) : Bool :=
  s.sys.mbx.any fun e =>
    e.2.valid && (List.range (2 ^ e.2.depth + 1)).any fun i =>
      match s.ringLoc e.1 e.2 (e.2.ring + BitVec.ofNat 64 (128 * i)) with
      | some l => l.sp == 0 && decide (l.a ≤ a) && decide (a < l.a + 128)
      | none => false

/-- A wait that something outside the context may end. -/
def State.externalWait (s : State) (w : Wait) : Bool :=
  match w with
  | .waitc sp a .. => sp == 1 || sp == 5 || s.inRing a
  | .mbsend _ => true
  | _ => false

/-- Some wait of the context is external, or a block of it is held by a stop, which counts as such a wait (R429). -/
def State.waitsOutside (s : State) (x : Nat) (ctx : Context) : Bool :=
  let out := fun (b : Block) => b.halt || b.gangs.any fun g => s.externalWait g.2.wait || g.2.more.any s.externalWait
  (s.cores.any fun e => e.2.blocks.any fun b => b.2.ctx == x && out b.2)
    || ((s.hartsOf x ctx).any fun h => match h.wait with | .hsleep .. => true | _ => false)
    || ctx.saved.any fun v => v.stopped || out v.blk

/-- Resident blocks of a context, by grid and group. -/
def State.groupsOf (s : State) (x : Nat) : List (Nat × Nat) :=
  (s.cores.flatMap fun e => (e.2.blocks.filter fun b => b.2.ctx == x).map fun b => (b.2.grid, s.grpOf b.2)).foldl
    (fun acc p => if acc.contains p then acc else acc ++ [p]) []

/-- Saves every resident block of a context. -/
def saveContext (x : Nat) : Prog := .read fun s => Prog.each (s.groupsOf x) fun p => saveGroup p.1 p.2 none

/-- DEADLOCK_WATCHDOG: argument context. -/
def deadlockWatchdog (s : State) : Prog :=
  let x := s.arg 0
  match s.ctx? x with
  | none => .done
  | some ctx =>
    if ctx.parked then .done
    else if !(s.allWait x ctx) || s.pendingWork x ctx then .one (.ctx x fun c => { c with stalledSince := none })
    else
      match ctx.stalledSince with
      | none => .one (.ctx x fun c => { c with stalledSince := some s.sys.time })
      | some t =>
        if s.sys.time < t + ms 100 then .done
        else if s.waitsOutside x ctx then
          (saveContext x).andThen (.one (.ctx x fun c =>
            { c with parked := true, stalledSince := none, saved := c.saved.map fun v => { v with eligible := false } }))
        else
          Prog.all [
            .one (.ctx x fun c =>
              { c with stalledSince := none, saved := c.saved.map fun v => { v.makeEligible s.sys.time with watchdog := true } }),
            Prog.each s.cores fun e => Prog.each (e.2.blocks.filter fun b => b.2.ctx == x) fun b =>
              raiseAt e.1 b.1 cWatchdog fun y => y.wait != .ready]
def execDeadlockWatchdog (s : State) : Host.Outcome State Fault Refusal := runEvent deadlockWatchdog s

end Sys2Proof.Machine
end

