-- ==== Sys2Proof/Machine/System.lean ====
section
/-! DEFINITION. Instruction fetch (08 R247; 11 R330), power grants and the gate (09 R294, R296; 12 R380), handlers (09 R297,
R298; 13 R390), the special registers (01 R23 to R26), trace and stop (09 R300; 14 R427, R429), `DOCINV` (09 R301) and
the words that decode to nothing (03 R96). -/

namespace Sys2Proof.Machine

/-! ## Instruction fetch -/

/-- Whether the unit runs cracked Exdin code: an Exdin grid outside any handler (R317). -/
def U.inExdin (u : U) : Bool := u.grid.exdin.isSome && u.gang.frames.isEmpty

/-- A byte on the unit's instruction-fetch path: a native word's from the core's fetched words where it is held (R200); cracked
code is fetched from its home slices. -/
def U.fetchByte (u : U) (s : State) (cracked : Bool) (va : W64) : Byte :=
  match (if cracked then none else cachedByte (s.core u.c).ic u.blk.ctx 0 va) with
  | some b => b
  | none => match s.locate u.grid u.ctx va with | some (_, l) => s.readLoc l | none => 0

/-- The decoded-op entry of the Exdin instruction at an address: an exact match of context, generation and address (R320). -/
def U.crack? (u : U) (s : State) (va : W64) : Option CrackEntry :=
  (s.core u.c).dc.find? fun e => e.ctx == u.blk.ctx && e.gen == u.grid.gen && e.addr == va

/-- `n` bytes from an address on the fetch path; an Exdin instruction whose crack the core holds has the words that it was
cracked from (R320). -/
def U.fetchBytes (u : U) (s : State) (cracked : Bool) (va : W64) (n : Nat) : List Byte :=
  let fresh := (List.range n).map fun i => u.fetchByte s cracked (va + BitVec.ofNat 64 i)
  match (if cracked then u.crack? s va else none) with
  | some e => if n ≤ e.data.length then e.data.take n else fresh
  | none => fresh

/-- The words that a fetch of `n` bytes at the unit's PC finds in no cache, with their places. -/
def U.missing (u : U) (s : State) (n : Nat) : List (W64 × Seg × Loc) :=
  if u.inExdin && (u.crack? s u.pc).isSome then []
  else (List.range ((n + 7) / 8 + 1)).filterMap fun i =>
    let a := (u.pc + BitVec.ofNat 64 (8 * i)) &&& ~~~(7 : W64)
    if a.toNat ≥ u.pc.toNat + n || (!u.inExdin && (cachedByte (s.core u.c).ic u.blk.ctx 0 a).isSome) then none
    else (s.locate u.grid u.ctx a).map fun e => (a, e)

/-- A fetch of `n` bytes brings native words, or the crack of one instruction, into the core where the segment lets the path
cache (R320, R393); their lines come from the home slices (R375). -/
def U.fetchFill (u : U) (s : State) (n : Nat) : Prog :=
  let ws := u.missing s n
  Prog.when (!ws.isEmpty) <| Prog.all [
    keepTrans u.blk.ctx u.grid (ws.map (·.1)),
    Prog.each (dedup (ws.map fun w => (lineOf w.1).toNat)) fun n =>
      match ws.find? fun w => (lineOf w.1).toNat == n with
      | some w => homeTouch u.blk.ctx u.blk.agent.toNat w.1 w.2.2 false
      | none => .done,
    catchUp (dieOf u.c),
    .one (.core u.c fun k =>
      if u.inExdin then
        if ws.all fun w => w.2.1.caches 3 then
          { k with dc := ({ ctx := u.blk.ctx, gen := u.grid.gen, addr := u.pc, data := u.fetchBytes s true u.pc n } :: k.dc).take dcMax }
        else k
      else
        { k with ic := ws.foldl (fun ic w =>
            if w.2.1.caches 3 then fetchWord icMax ic u.blk.ctx 0 w.1 (BitVec.ofNat 64 (leNat (s.readBytes w.2.2 8))) else ic) k.ic })]

/-- The check of R247 on one word of `n` bytes at an address, for the active lanes of a unit. -/
def U.fetchCheck (u : U) (s : State) (va : W64) (n : Nat) : GCheck :=
  checkGlobal s u.blk.ctx u.grid u.ctx u.blk.agent.toNat (!u.user) .fx (fun _ => true)
    (u.active.map fun i => { lane := i, va, size := n })

/-- The first of `m` words of `n` bytes that cannot be fetched, with what stops it. -/
def U.fetchBad (u : U) (s : State) (n m : Nat) : Option GCheck :=
  (List.range m).findSome? fun i =>
    match u.fetchCheck s (u.pc + BitVec.ofNat 64 (n * i)) n with
    | .ok => none
    | r => some r

/-- Bytes of a head word. -/
def U.headBytes (u : U) : Nat := if u.inExdin then 4 else 8

/-- Words of the unit's instruction, from its head word (R84, R86, R92, R311). -/
def U.wordCount (u : U) (head : Nat) : Nat :=
  if u.inExdin then 1 + exNopOf (BitVec.ofNat 32 head)
  else
    let w := BitVec.ofNat 64 head
    if u.gang.vliw then (if wordMaj w = 0x3C then 1 + popcount (occOf w) else 1)
    else 1 + wordsAfter w

/-- The head word as it is fetched. -/
def U.head (u : U) (s : State) : Nat := leNat (u.fetchBytes s u.inExdin u.pc u.headBytes)

/-- What stops the fetch of the unit's instruction (R247). -/
def U.fetchStop (u : U) (s : State) : Option GCheck :=
  match u.fetchBad s u.headBytes 1 with
  | some r => some r
  | none => u.fetchBad s u.headBytes (u.wordCount (u.head s))

/-- FETCH_FAULT (R247): the trap of the fetch at the unit's PC. -/
def fetchFault (s : State) : Host.Outcome State Fault Refusal :=
  match unitOf s 0 with
  | none => .fault .noIssuer
  | some u =>
    .next ((match u.fetchStop s with
      | some (.trap t) => takeTrap u.c u.b u.g { t with fetch := true } u.pc u.pc
      | some (.filling va) => onGang u.c u.b u.g fun x => { x with wait := .filling va }
      | _ => .done).run s)
def execFetchFault (s : State) : Host.Outcome State Fault Refusal := fetchFault s

/-- UNDEFINED_WORD (R96): a word that decodes to nothing. Where a bundle header stands it is ILLEGAL (R91). -/
def undefinedCause (vliw : Bool) (w : W64) : Nat :=
  if !vliw && majErr (wordMaj w) == .reservedMajor then cReservedMajor else cIllegal

def execUndefinedWord (w : W64) (s : State) : Host.Outcome State Fault Refusal :=
  match unitOf s 8 with
  | none => .fault .noIssuer
  | some u =>
    let cause := undefinedCause (u.gang.vliw || u.inExdin) w
    .next ((u.carry (.trap { cause, recs := [{ cause, lanes := if u.gang.vliw then [] else u.active }] })).run s)

/-! ## Power (R294, R380) -/

/-- R380: whether class `n` may be granted to a block, in milliwatts. -/
def State.mayGrantPower (s : State) (k c b n : Nat) : Bool :=
  let q := s.cluster k
  let l := (coresOf k).flatMap fun c => (s.core c).blocks.map fun e => (c, e.1, e.2)
  let held := (l.map fun e => match e.2.2.grant with | some m => 1750 * (m + 1) | none => 0).sum
  let others := (l.filter fun e => e.2.2.grant.isNone && !(e.1 == c && e.2.1 == b)).length
  !q.noGrants && decide (held + 1750 * (n + 1) + 1750 * others ≤ q.budget)

/-- Requests stand in order of arrival; the head is this gang's or none waits. -/
def Cluster.powerTurn (q : Cluster) (c b g : Nat) : Bool :=
  match q.preqs with
  | [] => true
  | r :: _ => r.1 == c && r.2.1 == b && r.2.2.1 == g

def Cluster.dropPower (q : Cluster) (c b g : Nat) : Cluster :=
  { q with preqs := q.preqs.filter fun r => !(r.1 == c && r.2.1 == b && r.2.2.1 == g) }

def Cluster.askPower (q : Cluster) (c b g n : Nat) : Cluster :=
  if q.preqs.any fun r => r.1 == c && r.2.1 == b && r.2.2.1 == g then q else { q with preqs := q.preqs ++ [(c, b, g, n)] }

/-- The block holds the grant of a class. The windows that its draw has exceeded the class count on while a grant stays held
(R295), and a block with a grant is not gated (R381). -/
def Block.takeGrant (b : Block) (n : Nat) : Block :=
  { b with grant := some n, regrant := none, excess := if b.grant.isSome then b.excess else 0, throttled := false }

/-- `PGRANT` (R294). -/
def semPgrant (f : XForm) : Sem := fun u s =>
  let n := f.fld 3 0
  let k := clusterOf u.c
  let q := s.cluster k
  let take := onBlock u.c u.b fun b => b.takeGrant n
  u.once <|
    if (match u.blk.grant with | some m => decide (n ≤ m) | none => false) then
      .commit ((Prog.one (.clus k fun q => q.dropPower u.c u.b u.g)).andThen take)
    else if q.powerTurn u.c u.b u.g && s.mayGrantPower k u.c u.b n then
      .commit ((Prog.one (.clus k fun q => q.dropPower u.c u.b u.g)).andThen take)
    else .wait .pgrant (.one (.clus k fun q => q.askPower u.c u.b u.g n))
def execPgrant (f : XForm) (s : State) : Host.Outcome State Fault Refusal := runX f (semPgrant f) s

/-- `PRELS` (R294). -/
def semPrels (_f : XForm) : Sem := fun u _ =>
  u.once (.commit (onBlock u.c u.b fun b => { b with grant := none, regrant := none, excess := 0 }))
def execPrels (f : XForm) (s : State) : Host.Outcome State Fault Refusal := runX f (semPrels f) s

/-- `PGATE` (R296). -/
def semPgate (_f : XForm) : Sem := fun u _ =>
  u.once (.commit ((Prog.one (.core u.c fun k =>
    { k with pgatePend := match k.pgatePend with | some x => some x | none => some u.blk.ctx })).andThen (tryGate u.c)))
def execPgate (f : XForm) (s : State) : Host.Outcome State Fault Refusal := runX f (semPgate f) s

/-! ## Stops (R429) -/

/-- Slices that wait at a physical barrier. -/
def Block.waitingAt (b : Block) (bar : Nat) : BitVec 16 :=
  maskOf 16 (b.gangs.flatMap fun e =>
    if (e.2.wait :: e.2.more ++ e.2.frames.flatMap (·.waits)).any fun w =>
        match w with | .bar i _ | .barHold i _ | .barw i _ => i == bar | _ => false then b.members e.1 else [])

/-- The barrier dump of a stopped block: for each barrier of its range EXP, ARR, PEND, PH and the waiting slices, in 16
bytes (log 28). -/
def barrierDump (v : SavedBlock) : List Byte :=
  v.bars.zipIdx.flatMap fun e =>
    leBytes e.1.exp 1 ++ leBytes e.1.arr 1 ++ leBytes (if e.1.ph then 1 else 0) 2 ++ leBytes e.1.pend 4
      ++ leBytes (v.blk.waitingAt ((v.blk.borg.toNat + e.2) % 64)).toNat 2 ++ List.replicate 6 0

/-- Offset in the save area of barrier dump `j` of a context, in the spill region (R392, log 28). -/
def dumpOff (j : Nat) : Nat := 0x1000000 + 1024 * j

/-- The PC of a block's lowest live slice. -/
def Block.lowestPc (b : Block) : W64 :=
  ((b.slices.find? Slice.isLive).map (·.pc)).getD 0

/-- The saved block that a condition picks is held by a stop: its dump has a place of its own, and the stop record points there
(R429). -/
def holdSaved (x : Nat) (pick : SavedBlock → Bool) : Prog :=
  .read fun s =>
    match s.ctx? x, (s.ctx? x).bind fun c => c.saved.find? pick with
    | some ctx, some v =>
      let j := ((List.range (ctx.saved.length + 1)).find? fun j =>
        ctx.saved.all fun w => !w.stopped || w.dump != j || w.num == v.num).getD 0
      let b := v.blk
      Prog.all [
        .one (.ctx x fun c => { c with saved := c.saved.map fun w => if w.num = v.num then { w with stopped := true, dump := j } else w }),
        saveWrite x (dumpOff j) (barrierDump v),
        logRecord x (recBytes b.lowestPc (ctx.saveVa + BitVec.ofNat 64 (dumpOff j)) 0 b.bx b.byy b.bz 0 cBreakpoint
          (flagBit true 6 + flagBit true 7) 0xFF x b.agent.toNat 0 s.sys.time)]
    | _, _ => .done

/-- Stops a resident block: its gangs halt, and it is saved and held as soon as it can be saved (R402, R429). -/
def stopBlock (c b : Nat) : Prog :=
  .read fun s =>
    match s.block? c b with
    | none => .done
    | some x =>
      if !s.saveable c b then onBlock c b fun y => { y with halt := true }
      else
        let last := (s.cluster (clusterOf c)).csuGrid == some (x.grid, s.grpOf x) && (s.groupOf x.grid (s.grpOf x)).length == 1
        Prog.all [
          saveBlock c b none true last, saveCore x.ctx c, freeScratch c x.grid true, writeCounters x.ctx,
          holdSaved x.ctx fun v => v.blk.grid == x.grid && v.blk.idx == x.idx]

/-- Blocks that a stop holds are saved where they now can be. -/
def stopHalted : Prog :=
  .read fun s => Prog.each s.cores fun e => Prog.each (e.2.blocks.filter fun b => b.2.halt) fun b => stopBlock e.1 b.1

/-- MAILBOX_DELIVERY: a copy that it frees may be what a stop waited for (R276, R429). -/
def execMailboxDelivery (s : State) : Host.Outcome State Fault Refusal :=
  runEvent (fun s => (mailboxDelivery s).andThen stopHalted) s

/-- CREDIT_RETURN: arguments peer port, channel (0 REQ, 1 RSP, 2 MAIL). The credit may be what a stop waited for (R417, R429). -/
def creditReturn (s : State) : Prog :=
  let p := s.arg 0
  let ch := s.arg 1
  Prog.when (p < 16 && ch < 3) ((Prog.one (.sys fun y => y.setCredit p ch (min 256 (y.credit p ch + 1)))).andThen stopHalted)
def execCreditReturn (s : State) : Host.Outcome State Fault Refusal := runEvent creditReturn s

/-- Offsets in a save record at which the host reaches its parts (R429, log 15): lane registers, 1 KiB a lane; a slice's s-registers
and its PC, 1 KiB a slice; a lane's predicates; scratchpad; accumulator tiles. -/
def recSlices : Nat := 0x10000
def recPreds : Nat := 0x14000
def recScratch : Nat := 0x100000
def recAcc : Nat := 0x200000

/-- A byte of a word, and the word with that byte replaced. -/
def byteOf {n : Nat} (w : BitVec n) (i : Nat) : Byte := bits 8 w (8 * i)
def setByteOf {n : Nat} (w : BitVec n) (i : Nat) (x : Byte) : BitVec n :=
  (w &&& ~~~((0xFF : BitVec n) <<< (8 * i))) ||| (x.setWidth n <<< (8 * i))

/-- Byte `o` of a save record. -/
def SavedBlock.byteAt (v : SavedBlock) (o : Nat) : Byte :=
  if o < recSlices then byteOf ((v.blk.lane (o / 1024)).reg (o % 1024 / 4)) (o % 4)
  else if o < recPreds then
    match v.blk.slice? ((o - recSlices) / 1024) with
    | some x => if o % 1024 / 8 = 63 then byteOf x.pc (o % 8) else byteOf (x.sreg (o % 1024 / 8)) (o % 8)
    | none => 0
  else if o < recPreds + 64 then (v.blk.lane (o - recPreds)).p.setWidth 8
  else if o < recScratch then 0
  else if o < recAcc then v.scratch.read (o - recScratch)
  else v.acc.read (o - recAcc)

/-- A save record with byte `o` written; one that stands for nothing ignores it. -/
def SavedBlock.setByteAt (v : SavedBlock) (o : Nat) (x : Byte) : SavedBlock :=
  let b := v.blk
  if o < recSlices then
    let i := o % 1024 / 4
    if i < b.n then { v with blk := b.modLane (o / 1024) fun l => l.setReg i (setByteOf (l.reg i) (o % 4) x) } else v
  else if o < recPreds then
    let i := o % 1024 / 8
    { v with blk := b.modSlice ((o - recSlices) / 1024) fun y =>
        if i = 63 then { y with pc := setByteOf y.pc (o % 8) x }
        else if i < 63 then y.setS i (setByteOf (y.sreg i) (o % 8) x) else y }
  else if o < recPreds + 64 then { v with blk := b.modLane (o - recPreds) fun l => { l with p := x.setWidth 7 } }
  else if o < recScratch then v
  else if o < recAcc then (if o - recScratch < b.scrLen then { v with scratch := v.scratch.write (o - recScratch) x } else v)
  else if o - recAcc < 32768 * b.zpb then { v with acc := v.acc.write (o - recAcc) x }
  else v

/-! ## TRAP, BRK and HRET (R297, R298, R390) -/

/-- `TRAP` (R297). -/
def semTrap (f : XForm) : Sem := fun u _ => u.once (.vector cTrap (f.imm.setWidth 64))
def execTrap (f : XForm) (s : State) : Host.Outcome State Fault Refusal := runX f (semTrap f) s

/-- `BRK` (R297); with BRKSTOP set it stops the block behind the instruction (R426, R429). -/
def semBrk (f : XForm) : Sem := fun u _ =>
  u.once <|
    if u.ctx.dbg.getLsbD 3 then .own ((u.advance u.next).andThen (stopBlock u.c u.b))
    else .vector cBreakpoint (f.imm.setWidth 64)
def execBrk (f : XForm) (s : State) : Host.Outcome State Fault Refusal := runX f (semBrk f) s

/-- The slice as `HRET` leaves it: the lanes of the frame that still live are active, on the stack as it stood at entry. -/
def Slice.restore (x : Slice) (i : Nat) (f : Frame) (a : W64) : Slice :=
  let depth := ((f.depths.find? fun e => e.1 == i).map (·.2)).getD 0
  let y := { x with active := bits 4 f.active (4 * i) &&& x.live, pc := a, stack := x.stack.drop (x.stack.length - depth) }
  let y := (y.setS 61 f.s61).setS 62 f.s62
  if y.active = 0 then y.resolve else y

/-- R390: the gang goes back to the level and mode of its frame, and to the waits of its bundle that have not ended (R259). -/
def Block.leaveHandler (b : Block) (g : Nat) (ms : List Nat) (f : Frame) (a : W64) : Block :=
  let b := ms.foldl (fun b i => b.modSlice i fun x => x.restore i f a) b
  b.modGang g fun x =>
    { x.issued with frames := x.frames.drop 1, vliw := f.vliw, loops := f.loops, dues := f.dues, granted := f.granted && a == f.rpc
                    wait := f.waits.headD .ready, more := f.waits.drop 1 }

/-- `HRET` (R298, R390). Bits [2:0] of the address are zero in cracked code too (R74). -/
def semHret (f : XForm) : Sem := fun u s =>
  u.need [(f.a, 64)] <| u.once <|
    match u.gang.frames with
    | [] => u.trap cIllegal
    | fr :: _ =>
      let a := BitVec.ofNat 64 (u.rd1 f.a 64)
      let lanes := u.members.flatMap fun i => (List.range 4).map (4 * i + ·)
      let held := (List.range 16).all fun i =>
        !fr.slices.getLsbD i || u.members.contains i || (match u.blk.slice? i with | some x => !x.isLive | none => true)
      let header :=
        match u.fetchCheck s a 8 with
        | .ok => wordMaj (BitVec.ofNat 64 (leNat (u.fetchBytes s false a 8))) == 0x3C
        | _ => true
      if a.toNat % 8 != 0 then
        .trap { cause := cMisaligned, recs := [{ cause := cMisaligned, addr := a, lanes := u.part }] }
      else if !held || (fr.vliw && !header) then u.trap cIllegal
      else if !fr.resumable then .own (killGrid u.blk.grid fr.cause.toNat)
      else
        .own (Prog.all [
          u.bind lanes,
          Prog.when (fr.vliw || u.gang.vliw) (u.settle lanes),
          .one (.core u.c fun k => (retireLoads u.b u.members k).setQuarter u.physQuarter
            (if fr.vliw then true else if u.gang.vliw then false else k.qmask.getLsbD u.physQuarter)),
          onBlock u.c u.b fun b => (b.leaveHandler u.g u.members fr a).part u.g,
          settlePend u.c u.b])
def execHret (f : XForm) (s : State) : Host.Outcome State Fault Refusal := runX f (semHret f) s

/-! ## Trace (R300, R427) -/

/-- Appends a record of `k` units to the context's trace ring, or counts it as dropped (R427). -/
def traceAppend (x k : Nat) (bs : List Byte) : Prog :=
  .read fun s =>
    match s.ctx? x with
    | none => .done
    | some c =>
      let g := viaCtx s c
      let word := fun (o : Nat) => (s.devBytes g c (c.traceVa + BitVec.ofNat 64 o) 8).map leNat
      let cap := (c.traceSize.toNat - 64) / 32
      match word 0, word 8, word 16 with
      | some head, some tail, some drops =>
        if tail - head + k ≤ cap then
          Prog.all [
            Prog.each (List.range k) fun i =>
              devWrite g c (c.traceVa + BitVec.ofNat 64 (64 + 32 * ((tail + i) % cap))) ((bs.drop (32 * i)).take 32),
            devWrite g c (c.traceVa + 8) (leBytes (tail + k) 8)]
        else devWrite g c (c.traceVa + 16) (leBytes (drops + 1) 8)
      | _, _, _ => .done

/-- `PROBE` (R300). DESIGN CHOICE: the rule lists the record's fields and gives no offsets or widths; they stand in its order
at 8, 8, 12, 2 and 2 bytes (log 46). -/
def semProbe (f : XForm) : Sem := fun u s =>
  u.once <|
    .commit (Prog.when (u.ctx.dbg.getLsbD 1) (traceAppend u.blk.ctx 1
      (leBytes s.sys.time 8 ++ leBytes u.pc.toNat 8 ++ leBytes u.blk.bx.toNat 4 ++ leBytes u.blk.byy.toNat 4
        ++ leBytes u.blk.bz.toNat 4 ++ leBytes u.blk.ctx 2 ++ leBytes f.imm.toNat 2)))
def execProbe (f : XForm) (s : State) : Host.Outcome State Fault Refusal := runX f (semProbe f) s

/-! ## DOCINV (R301) -/

def semDocinv (f : XForm) : Sem := fun u _ =>
  if u.user then u.privileged
  else
    u.need [(f.a, 64), (f.b, 64)] <| u.once <|
      if u.sf f.b = 0 then .commit .done
      else
        let own := Wait.docinv (u.sf f.a) (u.sf f.b)
        if (u.gang.wait :: u.gang.more).contains (own true) then .commit .done
        else .wait (own false) (Prog.when (u.gang.wait != own false) u.release)
def execDocinv (f : XForm) (s : State) : Host.Outcome State Fault Refusal := runX f (semDocinv f) s

/-- DOCINV_COMPLETION: arguments core, block, gang. Every core has discarded the range (R301). -/
def docinvCompletion (s : State) : Prog :=
  let c := s.arg 0
  let b := s.arg 1
  match s.block? c b with
  | none => .done
  | some x =>
    match x.gangs.get? (s.arg 2) with
    | none => .done
    | some y =>
      match y.wait with
      | .docinv a n false =>
        (Prog.each s.cores fun e => dropCode e.1 x.ctx a.toNat n.toNat).andThen
          (onGang c b (s.arg 2) fun y => { y with wait := .docinv a n true })
      | _ => .done
def execDocinvCompletion (s : State) : Host.Outcome State Fault Refusal := runEvent docinvCompletion s

/-! ## Special registers (R23 to R26, R299) -/

/-- `%pgate`. -/
def pgateVal (k : Core) : Nat := 2 * k.inbound.length + (if k.pgatePend.isSome then 1 else 0)

/-- `%lease`. -/
def leaseVal (q : Cluster) (c : Nat) : Nat :=
  match q.lease with
  | some l => if l.core = c then 2 ^ 31 + 2 ^ 30 * l.cls + 2 ^ 13 * l.cmds + l.cyc else 0
  | none => 0

/-- The value that selector `sel` reads for block lane `i` (R23). -/
def U.special (u : U) (s : State) (sel i : Nat) : Nat :=
  match sel with
  | 0x00 => i
  | 0x01 => i / 4
  | 0x02 => u.blk.phys.getD (i / 4) 0 / 4
  | 0x03 => u.c % 4
  | 0x04 => u.c / 4 % 12
  | 0x05 => dieOf u.c
  | 0x06 => towerOf u.c
  | 0x08 => u.blk.bx.toNat
  | 0x09 => u.blk.byy.toNat
  | 0x0A => u.blk.bz.toNat
  | 0x0C => u.grid.pkt.gx.toNat
  | 0x0D => u.grid.pkt.gy.toNat
  | 0x0E => u.grid.pkt.gz.toNat
  | 0x10 => u.blk.width
  | 0x11 => (maskOf 16 u.members).toNat
  | 0x12 => u.blk.phasecnt.toNat
  | 0x13 => u.blk.bbase.toNat
  | 0x18 => u.ctx.scrip
  | 0x19 => u.blk.agent.toNat
  | 0x1A => u.blk.ctx
  | 0x20 => s.sys.time
  | 0x28 => pgateVal (s.core u.c)
  | 0x29 => leaseVal (s.cluster (clusterOf u.c)) u.c
  | 0x30 => (u.blk.lane i).fp.toNat
  | _ => 0

/-- `SREAD` (R299). -/
def semSread (f : XForm) : Sem := fun u s =>
  let sel := f.fld 8 0
  let w := (selWidth sel).getD 32
  u.need [(f.d, w)] (.commit (u.put f.d w (u.part.map fun i => (i, u.special s sel i % 2 ^ w))))
def execSread (f : XForm) (s : State) : Host.Outcome State Fault Refusal := runX f (semSread f) s

/-- `SWRITE` (R299): `%bbase`, `%agent` and `%fpflags`; every other register ignores it (R4). -/
def semSwrite (f : XForm) : Sem := fun u _ =>
  let sel := f.fld 8 0
  if !u.regOk f.a 32 then u.illegal
  else if sel = 0x19 ∧ u.user then u.privileged
  else
    u.need [(f.a, 32)] <|
      if u.part.isEmpty then .commit .done
      else
        .commit <|
          match sel with
          | 0x13 => onBlock u.c u.b fun b => { b with bbase := BitVec.ofNat 6 (u.rd1 f.a 32) }
          | 0x19 => onBlock u.c u.b fun b => { b with agent := BitVec.ofNat 8 (u.rd1 f.a 32) }
          | 0x30 => onBlock u.c u.b fun b =>
              u.part.foldl (fun b i => b.modLane i fun l => { l with fp := BitVec.ofNat 5 (u.rd i f.a 32) }) b
          | _ => .done
def execSwrite (f : XForm) (s : State) : Host.Outcome State Fault Refusal := runX f (semSwrite f) s

end Sys2Proof.Machine
end

