-- ==== Sys2Proof/Machine/Bundle.lean ====
section
/-! DEFINITION. Bundles of a VLIW thread (R58 to R61, R86 to R91, R97, R125, R448): the slots' meanings and destinations,
the checks before any slot commits, and the commit of the whole bundle. -/

namespace Sys2Proof.Machine

/-! ## What a slot holds -/

/-- The guard and the meaning of a slot's instruction, and the registers its destination covers, by field and width
(R17). -/
structure SlotInfo where
  g : Guard
  sem : Sem
  dst : List (BitVec 8 × Nat)

/-- Native instructions as slots hold them. -/
def slotInfo (i : Instr) : Option SlotInfo :=
  match i with
  | .iadd f => some ⟨f.g, semIadd f, [(f.d, f.w)]⟩
  | .isub f => some ⟨f.g, semIsub f, [(f.d, f.w)]⟩
  | .iaddc f => some ⟨f.g, semIaddc f, [(f.d, f.w)]⟩
  | .imul f => some ⟨f.g, semImul f, [(f.d, f.w)]⟩
  | .imulh f => some ⟨f.g, semImulh f, [(f.d, f.w)]⟩
  | .imad f => some ⟨f.g, semImad f, [(f.d, f.w)]⟩
  | .idiv f => some ⟨f.g, semIdiv f, [(f.d, f.w)]⟩
  | .irem f => some ⟨f.g, semIrem f, [(f.d, f.w)]⟩
  | .ineg f => some ⟨f.g, semIneg f, [(f.d, f.w)]⟩
  | .iabs f => some ⟨f.g, semIabs f, [(f.d, f.w)]⟩
  | .imin f => some ⟨f.g, semImin f, [(f.d, f.w)]⟩
  | .imax f => some ⟨f.g, semImax f, [(f.d, f.w)]⟩
  | .icmp f => some ⟨f.g, semIcmp f, []⟩
  | .iaddImm32 f => some ⟨f.g, semIaddImm32 f, [(f.d, 32)]⟩
  | .imulImm32 f => some ⟨f.g, semImulImm32 f, [(f.d, 32)]⟩
  | .andImm32 f => some ⟨f.g, semAndImm32 f, [(f.d, 32)]⟩
  | .orImm32 f => some ⟨f.g, semOrImm32 f, [(f.d, 32)]⟩
  | .xorImm32 f => some ⟨f.g, semXorImm32 f, [(f.d, 32)]⟩
  | .shlImm32 f => some ⟨f.g, semShlImm32 f, [(f.d, 32)]⟩
  | .shrImm32 f => some ⟨f.g, semShrImm32 f, [(f.d, 32)]⟩
  | .sarImm32 f => some ⟨f.g, semSarImm32 f, [(f.d, 32)]⟩
  | .rotImm32 f => some ⟨f.g, semRotImm32 f, [(f.d, 32)]⟩
  | .movi32 f => some ⟨f.g, semMovi32 f, [(f.d, 32)]⟩
  | .iaddImm64 f => some ⟨f.g, semIaddImm64 f, [(f.d, 64)]⟩
  | .imulImm64 f => some ⟨f.g, semImulImm64 f, [(f.d, 64)]⟩
  | .andImm64 f => some ⟨f.g, semAndImm64 f, [(f.d, 64)]⟩
  | .orImm64 f => some ⟨f.g, semOrImm64 f, [(f.d, 64)]⟩
  | .xorImm64 f => some ⟨f.g, semXorImm64 f, [(f.d, 64)]⟩
  | .shlImm64 f => some ⟨f.g, semShlImm64 f, [(f.d, 64)]⟩
  | .shrImm64 f => some ⟨f.g, semShrImm64 f, [(f.d, 64)]⟩
  | .sarImm64 f => some ⟨f.g, semSarImm64 f, [(f.d, 64)]⟩
  | .rotImm64 f => some ⟨f.g, semRotImm64 f, [(f.d, 64)]⟩
  | .movi64 f => some ⟨f.g, semMovi64 f, [(f.d, 64)]⟩
  | .andR f => some ⟨f.g, semAndR f, [(f.d, f.w)]⟩
  | .orR f => some ⟨f.g, semOrR f, [(f.d, f.w)]⟩
  | .xorR f => some ⟨f.g, semXorR f, [(f.d, f.w)]⟩
  | .andn f => some ⟨f.g, semAndn f, [(f.d, f.w)]⟩
  | .notR f => some ⟨f.g, semNotR f, [(f.d, f.w)]⟩
  | .shl f => some ⟨f.g, semShl f, [(f.d, f.w)]⟩
  | .shr f => some ⟨f.g, semShr f, [(f.d, f.w)]⟩
  | .sar f => some ⟨f.g, semSar f, [(f.d, f.w)]⟩
  | .rot f => some ⟨f.g, semRot f, [(f.d, f.w)]⟩
  | .bfx f => some ⟨f.g, semBfx f, [(f.d, f.w)]⟩
  | .bfi f => some ⟨f.g, semBfi f, [(f.d, f.w)]⟩
  | .popc f => some ⟨f.g, semPopc f, [(f.d, 32)]⟩
  | .clz f => some ⟨f.g, semClz f, [(f.d, 32)]⟩
  | .ctz f => some ⟨f.g, semCtz f, [(f.d, 32)]⟩
  | .brev f => some ⟨f.g, semBrev f, [(f.d, f.w)]⟩
  | .nop f => some ⟨f.g, semNop f, []⟩
  | .mov f => some ⟨f.g, semMov f, [(f.d, f.w)]⟩
  | .movl f => some ⟨f.g, semMovl f, [(f.d, f.w)]⟩
  | .sel f => some ⟨f.g, semSel f, [(f.d, f.w)]⟩
  | .pset f => some ⟨f.g, semPset f, []⟩
  | .pmov f => some ⟨f.g, semPmov f, [(f.d, if f.xm == 0 then 32 else 0)]⟩
  | .lea f => some ⟨f.g, semLea f, [(f.d, 64)]⟩
  | .fadd f => some ⟨f.g, semFadd f, [(f.d, 32)]⟩
  | .fsub f => some ⟨f.g, semFsub f, [(f.d, 32)]⟩
  | .fmul f => some ⟨f.g, semFmul f, [(f.d, 32)]⟩
  | .ffma f => some ⟨f.g, semFfma f, [(f.d, 32)]⟩
  | .fmin f => some ⟨f.g, semFmin f, [(f.d, 32)]⟩
  | .fmax f => some ⟨f.g, semFmax f, [(f.d, 32)]⟩
  | .fcmp f => some ⟨f.g, semFcmp f, []⟩
  | .fclass f => some ⟨f.g, semFclass f, [(f.d, 32)]⟩
  | .fdiv f => some ⟨f.g, semFdiv f, [(f.d, 32)]⟩
  | .fsqrt f => some ⟨f.g, semFsqrt f, [(f.d, 32)]⟩
  | .faddImm f => some ⟨f.g, semFaddImm f, [(f.d, 32)]⟩
  | .fmulImm f => some ⟨f.g, semFmulImm f, [(f.d, 32)]⟩
  | .fminImm f => some ⟨f.g, semFminImm f, [(f.d, 32)]⟩
  | .fmaxImm f => some ⟨f.g, semFmaxImm f, [(f.d, 32)]⟩
  | .frcp f => some ⟨f.g, semFrcp f, [(f.d, 32)]⟩
  | .frsq f => some ⟨f.g, semFrsq f, [(f.d, 32)]⟩
  | .fexp2 f => some ⟨f.g, semFexp2 f, [(f.d, 32)]⟩
  | .flog2 f => some ⟨f.g, semFlog2 f, [(f.d, 32)]⟩
  | .fsin f => some ⟨f.g, semFsin f, [(f.d, 32)]⟩
  | .fcos f => some ⟨f.g, semFcos f, [(f.d, 32)]⟩
  | .ftanh f => some ⟨f.g, semFtanh f, [(f.d, 32)]⟩
  | .hadd2 f => some ⟨f.g, semHadd2 f, [(f.d, 32)]⟩
  | .hmul2 f => some ⟨f.g, semHmul2 f, [(f.d, 32)]⟩
  | .hfma2 f => some ⟨f.g, semHfma2 f, [(f.d, 32)]⟩
  | .dot4 f => some ⟨f.g, semDot4 f, [(f.d, 32)]⟩
  | .cvt f => some ⟨f.g, semCvt f, [(f.d, 32)]⟩
  | .cvti f => some ⟨f.g, semCvti f, [(f.d, regW f.ty)]⟩
  | .cvtf f => some ⟨f.g, semCvtf f, [(f.d, 32)]⟩
  | .rnd f => some ⟨f.g, semRnd f, [(f.d, 32)]⟩
  | .pack f => some ⟨f.g, semPack f, [(f.d, 32)]⟩
  | .unpack f => some ⟨f.g, semUnpack f, [(f.d, 32)]⟩
  | .scaleq f => some ⟨f.g, semScaleq f, [(f.d, 32)]⟩
  | .bscale f => some ⟨f.g, semBscale f, [(f.d, 32)]⟩
  | .shfli f => some ⟨f.g, semShfli f, [(f.d, shflW f)]⟩
  | .shflx f => some ⟨f.g, semShflx f, [(f.d, shflW f)]⟩
  | .shfld f => some ⟨f.g, semShfld f, [(f.d, shflW f)]⟩
  | .shfla f => some ⟨f.g, semShfla f, [(f.d, shflW f)]⟩
  | .bcast f => some ⟨f.g, semBcast f, [(f.d, shflW f)]⟩
  | .vote f => some ⟨f.g, semVote f, [(f.d, if f.xm == 3 then 64 else 0)]⟩
  | .redl f => some ⟨f.g, semRedl f, [(f.d, f.w)]⟩
  | .scanl f => some ⟨f.g, semScanl f, [(f.d, f.w)]⟩
  | .xmov f => some ⟨f.g, semXmov f, [(f.d, if f.fld 1 5 == 1 then 64 else 32)]⟩
  | .ld f => some ⟨f.g, semLd f, [(f.d, dataW f.w)]⟩
  | .st f => some ⟨f.g, semSt f, []⟩
  | .lds f => some ⟨f.g, semLds f, [(f.d, dataW f.w)]⟩
  | .sts f => some ⟨f.g, semSts f, []⟩
  | .ldk f => some ⟨f.g, semLdk f, [(f.d, dataW f.w)]⟩
  | .stk f => some ⟨f.g, semStk f, []⟩
  | .ldc f => some ⟨f.g, semLdc f, [(f.d, dataW f.w)]⟩
  | .pref f => some ⟨f.g, semPref f, []⟩
  | .gath f => some ⟨f.g, semGath f, []⟩
  | .scat f => some ⟨f.g, semScat f, []⟩
  | .atom f => some ⟨f.g, semAtom f, [(f.d, match atomTy (f.fld 3 9) with | some t => t.bits | none => 0)]⟩
  | .atoms f => some ⟨f.g, semAtoms f, [(f.d, match atomTy (f.fld 3 9) with | some t => t.bits | none => 0)]⟩
  | .red f => some ⟨f.g, semRed f, []⟩
  | .fence f => some ⟨f.g, semFence f, []⟩
  | .pfence f => some ⟨f.g, semPfence f, []⟩
  | .vjoin f => some ⟨f.g, semVjoin f, []⟩
  | .cctl f => some ⟨f.g, semCctl f, []⟩
  | .talloc f => some ⟨f.g, semTalloc f, [(f.d, 32)]⟩
  | .tseal f => some ⟨f.g, semTseal f, []⟩
  | .tld f => some ⟨f.g, semTld f, [(f.d, match f.tileW with | some w => dataW w | none => 0)]⟩
  | .tst f => some ⟨f.g, semTst f, []⟩
  | .tdrop f => some ⟨f.g, semTdrop f, []⟩
  | .tquery f => some ⟨f.g, semTquery f, [(f.d, 64)]⟩
  | .qpost f => some ⟨f.g, semQpost f, []⟩
  | .qtake f => some ⟨f.g, semQtake f, [(f.d, 32)]⟩
  | .qadv f => some ⟨f.g, semQadv f, []⟩
  | .qcnt f => some ⟨f.g, semQcnt f, [(f.d, 32)]⟩
  | .mlease f => some ⟨f.g, semMlease f, []⟩
  | .mrel f => some ⟨f.g, semMrel f, []⟩
  | .mloadw f blk => some ⟨f.g, semMloadw f blk, []⟩
  | .mswap f => some ⟨f.g, semMswap f, []⟩
  | .mstream f blk => some ⟨f.g, semMstream f blk, []⟩
  | .mzero f => some ⟨f.g, semMzero f, []⟩
  | .mread f => some ⟨f.g, semMread f, [(f.d, 32 * 2 ^ f.fld 2 9)]⟩
  | .mwrite f => some ⟨f.g, semMwrite f, []⟩
  | .mmeta f => some ⟨f.g, semMmeta f, []⟩
  | .mshape f => some ⟨f.g, semMshape f, []⟩
  | .cpy f blk => some ⟨f.g, semCpy f blk, []⟩
  | .cpyAlloc f blk => some ⟨f.g, semCpyAlloc f blk, [(f.d, 64)]⟩
  | .cpyw f => some ⟨f.g, semCpyw f, []⟩
  | .cpyq f => some ⟨f.g, semCpyq f, [(f.d, 32)]⟩
  | .splw f => some ⟨f.g, semSplw f, []⟩
  | .splr f => some ⟨f.g, semSplr f, [(f.d, 32)]⟩
  | .splf f => some ⟨f.g, semSplf f, [(f.d, 32)]⟩
  | .mbsend f => some ⟨f.g, semMbsend f, []⟩
  | .launch f => some ⟨f.g, semLaunch f, [(f.d, 64)]⟩
  | .bar f => some ⟨f.g, semBar f, []⟩
  | .barxArv f => some ⟨f.g, semBarxArv f, []⟩
  | .barxExp f => some ⟨f.g, semBarxExp f, []⟩
  | .barw f => some ⟨f.g, semBarw f, []⟩
  | .bbrot f => some ⟨f.g, semBbrot f, []⟩
  | .waitc f => some ⟨f.g, semWaitc f, []⟩
  | .qpoint f => some ⟨f.g, semQpoint f, []⟩
  | .bra f => some ⟨f.g, semBra f, []⟩
  | .call f => some ⟨f.g, semCall f, [(f.a, 64)]⟩
  | .rconv f => some ⟨f.g, semRconv f, []⟩
  | .modeVliw f => some ⟨f.g, semModeVliw f, []⟩
  | .modeSimt f => some ⟨f.g, semModeSimt f, []⟩
  | .loop f => some ⟨f.g, semLoop f, []⟩
  | .brx f => some ⟨f.g, semBrx f, []⟩
  | .ret f => some ⟨f.g, semRet f, []⟩
  | .exit f => some ⟨f.g, semExit f, []⟩
  | .regang f => some ⟨f.g, semRegang f, []⟩
  | .lend f => some ⟨f.g, semLend f, []⟩
  | .yield f => some ⟨f.g, semYield f, []⟩
  | .sleep f => some ⟨f.g, semSleep f, []⟩
  | .pgrant f => some ⟨f.g, semPgrant f, []⟩
  | .prels f => some ⟨f.g, semPrels f, []⟩
  | .pgate f => some ⟨f.g, semPgate f, []⟩
  | .trap f => some ⟨f.g, semTrap f, []⟩
  | .hret f => some ⟨f.g, semHret f, []⟩
  | .brk f => some ⟨f.g, semBrk f, []⟩
  | .probe f => some ⟨f.g, semProbe f, []⟩
  | .docinv f => some ⟨f.g, semDocinv f, []⟩
  | .sread f => some ⟨f.g, semSread f, [(f.d, (selWidth (f.fld 8 0)).getD 32)]⟩
  | .swrite f => some ⟨f.g, semSwrite f, []⟩
  | .gsync => some ⟨Guard.always, semGsync, []⟩
  | .phase => some ⟨Guard.always, semPhase, []⟩
  | .join => some ⟨Guard.always, semJoin, []⟩
  | _ => none

/-- A slot word and the surrendered words behind it. -/
structure RawSlot where
  k : Nat
  w : W64
  data : List W64

/-- A decoded slot. -/
structure Slot where
  k : Nat
  w : W64
  i : Instr
  info : SlotInfo

/-- Header fields (R86). -/
def surOf (hdr : W64) : BitVec 16 := bits 16 hdr 26
def lopOf (hdr : W64) : Nat := (bits 2 hdr 24).toNat
def mdaOf (hdr : W64) : Nat := (bits 4 hdr 16).toNat

/-- The word of each occupied slot, in ascending order (R87). -/
def occupied (occ : BitVec 16) (words : List W64) : List (Nat × W64) :=
  ((List.range 16).filter fun k => occ.getLsbD k).zip words

/-- The surrendered slots right after slot `k` (R88). -/
def runAfter (sur : BitVec 16) (k : Nat) : Nat :=
  ((List.range (15 - k)).takeWhile fun j => sur.getLsbD (k + 1 + j)).length

/-- The slots that are not surrendered, with their words and data. -/
def rawSlots (hdr : W64) (words : List W64) : List RawSlot :=
  let l := occupied (occOf hdr) words
  (l.filter fun e => !(surOf hdr).getLsbD e.1).map fun e =>
    { k := e.1, w := e.2, data := (l.filter fun d => decide (e.1 < d.1) && decide (d.1 ≤ e.1 + runAfter (surOf hdr) e.1)).map (·.2) }

/-- The checks of R91 on the header alone. -/
def hdrRefused (hdr : W64) : Bool :=
  let occ := occOf hdr
  let sur := surOf hdr
  occ == 0 || lopOf hdr == 3 || bits 4 hdr 20 != 0 || bits 16 hdr 0 != 0 || sur.getLsbD 0 || sur &&& ~~~occ != 0

/-- The checks of R91 that leave the slot mask empty. -/
def headerBad (hdr : W64) (words : List W64) : Bool :=
  let sur := surOf hdr
  hdrRefused hdr || (List.range 16).any fun k =>
        !sur.getLsbD k &&
          runAfter sur k != (match (rawSlots hdr words).find? fun r => r.k == k with | some r => wordsAfter r.w | none => 0)

/-- Major and function value of an X- or B-format word. -/
def wordFn (w : W64) : Nat := (bits 6 w 48).toNat

/-- Slots of a set of which a bundle holds at most one. -/
def clash (rs : List RawSlot) (p : RawSlot → Bool) : List Nat :=
  let l := (rs.filter p).map (·.k)
  if l.length > 1 then l else []

/-- A `LOOP` or `LEND` word. -/
def loopWord (w : W64) : Bool := (wordMaj w == 0x2E || wordMaj w == 0x2F) && wordFn w == 5

/-- The slots that R90, R91, R228, R240 and R287 name from the majors and functions alone. -/
def groupBad (hdr : W64) (rs : List RawSlot) : List Nat :=
  let is := fun (maj fn : Nat) (r : RawSlot) => wordMaj r.w == maj && wordFn r.w == fn
  let pick := fun (p : RawSlot → Bool) => (rs.filter p).map (·.k)
  pick (fun r => wordMaj r.w == 0x3C)
    ++ clash rs (fun r => wordMaj r.w == 0x2E || wordMaj r.w == 0x2F)
    ++ clash rs (fun r => wordMaj r.w == 0x24)
    ++ clash rs (fun r => wordMaj r.w == 0x29)
    ++ clash rs (fun r => is 0x20 0 r || is 0x21 1 r)
    ++ pick (fun r => is 0x2E 2 r || is 0x2F 3 r)
    ++ (if lopOf hdr = 0 then [] else pick fun r => loopWord r.w)
    ++ (if mdaOf hdr = 0 then pick (is 0x24 4) else [])

/-- A raw slot's instruction (R96). -/
def RawSlot.decode (r : RawSlot) : Except DecodeErr Slot :=
  match decodeNative (r.w :: r.data) with
  | .ok (i, _) =>
    match slotInfo i with
    | some info => .ok { k := r.k, w := r.w, i, info }
    | none => .error .unassigned
  | .error e => .error e

/-- Registers that a destination covers (R17): for an s-register its field, else lane of the thread and register; `SPLR`
writes its register in all sixteen lanes (R287). `s63` counts as the other s-registers do: R17 judges the fields alone. -/
def Slot.covers (x : Slot) : List (Nat × Nat) :=
  x.info.dst.flatMap fun e =>
    if e.2 = 0 then []
    else if isS e.1 then [(16, e.1.toNat)]
    else
      let lanes := match x.i with
        | .splr _ => List.range 16
        | _ => [4 * (x.k / 4) + (x.k + e.1.toNat / 64) % 4]
      lanes.flatMap fun l => (List.range (regCount e.2)).map fun j => (l, e.1.toNat % 64 + j)

/-- Slots whose destinations share a register (R17). -/
def destBad (xs : List Slot) : List Nat :=
  (xs.filter fun x => xs.any fun y => y.k != x.k && x.covers.any fun r => y.covers.contains r).map (·.k)

/-- The slots that decode, and those that do not with their cause. -/
def splitSlots (rs : List RawSlot) : List Slot × List (Nat × Nat) :=
  (rs.filterMap fun r => match r.decode with | .ok x => some x | .error _ => none,
   rs.filterMap fun r =>
     match r.decode with
     | .ok _ => none
     | .error .reservedMajor => some (r.k, cReservedMajor)
     | .error _ => some (r.k, cIllegal))

/-! ## The checks (R448) -/

/-- The unit of a slot. -/
def Slot.unit (x : Slot) (u : U) : U := u.atSlot x.k x.info.g

/-- R96 steps 4, 6 and 7 of a slot, which hold whatever its guard: those checks of its meaning that need no lane. The
checks of `LOOP` and `LEND` that follow belong to step 3 of R448; those of barriers and supersteps are made at issue (R255,
R257, R260). -/
def Slot.encodeCause (x : Slot) (u : U) (s : State) : Option Nat :=
  let v := x.unit u
  match x.i with
  | .loop f => if !u.feat 0 featVliw || !v.regOk f.a 32 then some cIllegal else none
  | .lend _ => if !u.feat 0 featVliw then some cIllegal else none
  | .bar _ | .barxArv _ | .barxExp _ | .barw _ | .gsync => none
  | _ =>
    match x.info.sem { v with part := [], core := { v.core with loads := [] } } s with
    | .trap t => if t.cause == cIllegal || t.cause == cPrivileged then some t.cause else none
    | _ => none

/-- A slot's bit in a slot mask. -/
def slotMask (ks : List Nat) : BitVec 16 := maskOf 16 ks

/-- Block lane of a slot. -/
def U.slotLane (u : U) (k : Nat) : Nat := 4 * u.members.headD 0 + k

/-- An encoding trap of the bundle: one record (R389). -/
def U.encodeTrap (u : U) (cause : Nat) (ks : List Nat) : TrapReq :=
  { cause, recs := [{ cause, lanes := ks.map u.slotLane, slots := slotMask ks }] }

/-- The page that a PAGE or QUOTA record is about; other causes have one record each (R389). -/
def Rec.key (r : Rec) (s : State) (u : U) : Nat × Nat :=
  if r.cause == cPage || r.cause == cQuota then (r.cause, pageKey s u.grid u.ctx r.addr) else (r.cause, 0)

/-- Joins a slot's record to those of lower slots. -/
def mergeRec (s : State) (u : U) (l : List Rec) (r : Rec) : List Rec :=
  if l.any fun q => q.key s u == r.key s u then
    l.map fun q =>
      if q.key s u == r.key s u then
        { q with lanes := dedup (q.lanes ++ r.lanes), slots := q.slots ||| r.slots, write := q.write || r.write }
      else q
  else l ++ [r]

/-- What the slots' issues raise (R59, R448 step 2): a slot that meets a page which a lower slot of the bundle has set
FILLING joins that slot's record. -/
def bundleTraps (u : U) (s : State) (xs : List Slot) : List Rec × List Prog :=
  let go := fun (acc : State × List Rec × List Prog) (x : Slot) =>
    match x.info.sem (x.unit u) s with
    | .trap t0 =>
      let v := x.unit u
      let put := fun (t : TrapReq) => t.recs.map fun r => { r with slots := slotMask [x.k], write := t.write }
      match x.info.sem v acc.1 with
      | .trap t => (t.pre.run acc.1, (put t).foldl (mergeRec s u) acc.2.1, acc.2.2 ++ [t.pre])
      | _ => (acc.1, (put t0).foldl (mergeRec s u) acc.2.1, acc.2.2)
    | _ => acc
  (xs.foldl go (s, [], [])).2

/-- Slots checked at step 3 of R448 and not at step 2. -/
def Slot.isLoop (x : Slot) : Bool := loopWord x.w

/-- The least of a list of causes (R386). -/
def leastCause (l : List Nat) : Nat := l.foldl min 0xFF

/-- The orders of R176 and R218, in which checks of one step stand together. -/
def checkOrders : List (List (List Nat)) :=
  [[[cTileHandle], [cTileOverread], [cMisaligned], [cScratchBounds]],
   [[cMisaligned], [cSegment, cScratchBounds], [cPermission], [cQuota], [cPage]]]

/-- One of the orders ranks cause `a` before cause `b`. -/
def causeBefore (a b : Nat) : Bool :=
  checkOrders.any fun o =>
    match o.findIdx? (·.contains a), o.findIdx? (·.contains b) with
    | some i, some j => decide (i < j)
    | _, _ => false

/-- Records without those of step 5 of R176, which is made only when no lane raised a cause in steps 1 to 4. -/
def dropRo (l : List Rec) : List Rec :=
  if l.any fun r => !r.ro && [cMisaligned, cSegment, cScratchBounds, cPermission, cQuota, cPage].contains r.cause
  then l.filter fun r => !r.ro else l

/-- The cause that R386 selects among those of several lanes: one that no other precedes in the orders, the lowest code of
such. -/
def selectCause (l : List Nat) : Nat := leastCause (l.filter fun a => !(l.any fun b => causeBefore b a))

/-- Steps 1 to 3 of R448: the trap of a bundle. -/
def bundleTrap (u : U) (s : State) (hdr : W64) (words : List W64) (rs : List RawSlot) (xs : List Slot)
    (bad : List (Nat × Nat)) : Option TrapReq :=
  if headerBad hdr words || !u.feat 0 featVliw then some (u.encodeTrap cIllegal [])
  else
    let r91 := dedup (groupBad hdr rs ++ destBad xs)
    if r91 ≠ [] then some (u.encodeTrap cIllegal r91)
    else
      let enc := bad ++ xs.filterMap fun x => (x.encodeCause u s).map fun c => (x.k, c)
      let ks := (rs.map (·.k)).filter fun k => enc.any fun e => e.1 == k
      match ks with
      | k :: _ => some (u.encodeTrap (((enc.find? fun e => e.1 == k).map (·.2)).getD cIllegal) ks)
      | [] =>
        let b := bundleTraps u s (xs.filter fun x => !x.isLoop)
        let recs := dropRo b.1
        if recs ≠ [] then some { cause := selectCause (recs.map (·.cause)), recs, pre := Prog.all b.2 }
        else
          let loops := (xs.filter fun x => x.isLoop && (match x.info.sem (x.unit u) s with | .trap _ => true | _ => false)).map (·.k)
          if loops ≠ [] || (lopOf hdr != 0 && u.gang.loops.isEmpty) then some (u.encodeTrap cIllegal loops)
          else none

/-- Step 4 of R448: the first slot that must wait; every other `WAITC` slot fixes its deadline (R262). -/
def bundleWait (u : U) (s : State) (xs : List Slot) : Option (Wait × Prog) :=
  let ws := xs.filterMap fun x => match x.info.sem (x.unit u) s with | .wait w p => some (x.k, w, p) | _ => none
  match ws with
  | [] => none
  | (k, w, p) :: _ =>
    some (w, p.andThen (Prog.each (xs.filter fun x => x.k != k) fun x =>
      match x.i with | .waitc f => (x.unit u).waitcDue f s | _ => .done))

/-- The thread waits with its whole bundle; the `DOCINV` slots that have ended are remembered. -/
def Gang.waitWhole (x : Gang) (w : Wait) : Gang :=
  { x with wait := w, more := match x.wait with | .docinv _ _ true => x.wait :: x.more | _ => x.more }

/-! ## The commit -/

/-- Slots that act after every access of the others (R203). -/
def Slot.isLate (x : Slot) : Bool := wordMaj x.w == 0x1B

/-- Slots before which every access of the bundle stands (R60, R258, R277, R188, R334): atomics, fences, tiles, flumes,
engine, message and synchronisation instructions, stores with release ordering, and `MODE.simt`. -/
def Slot.isRelease (x : Slot) : Bool :=
  let m := wordMaj x.w
  (match x.i with | .modeSimt _ => true | _ => false) || (m == 0x18 && (bits 3 x.w 3).toNat ≥ 3)
    || [0x1A, 0x1B, 0x20, 0x21, 0x24, 0x28, 0x29, 0x2A, 0x2C].contains m

/-- Slots whose outcome depends on what lower slots of the bundle have done: they share a barrier, a queue, a mailbox, a
partition, a flume's cursor or the reads that a tile has left (R214, R217, R221, R226, R227, R256, R274). -/
def Slot.isShared (x : Slot) : Bool :=
  match x.i with
  | .bar _ | .barxArv _ | .barxExp _ | .barw _ | .mbsend _ | .launch _ | .cpy _ _ | .cpyAlloc _ _ | .tld _ | .tseal _
  | .tdrop _ | .talloc _ | .mloadw _ _ | .mstream _ _ | .qpost _ | .qtake _ | .qadv _ => true
  | _ => false

/-- Why a commit cannot be whole. -/
inductive Stop where
  | trap (t : TrapReq)
  | wait (w : Wait) (p : Prog)

/-- Causes by which a slot finds too little left by the lower slots. -/
def spentCause (c : Nat) : Bool := c == cTileOverread || c == cFlumeOverflow || c == cQueueFull

/-- A slot's issue at its commit, after the lower slots (R221). -/
def Slot.issueAt (x : Slot) (u : U) (s t : State) : Except Stop Issue :=
  let first := x.info.sem (x.unit u) s
  if x.isShared then
    match x.info.sem (x.unit u) t with
    | .trap r =>
      if spentCause r.cause then
        .error (.trap { r with recs := r.recs.map fun q => { q with slots := slotMask [x.k], write := r.write } })
      else .ok first
    | .wait w p => .error (.wait w p)
    | i => .ok i
  else .ok first

/-- A wait that a committed bundle has begun: the PC stands behind it (R259). -/
def Wait.passed (w : Wait) : Wait :=
  match w with
  | .qpoint _ => .qpoint false
  | .barHold b _ => .barHold b false
  | .bar b _ => .bar b false
  | .barw b _ => .barw b false
  | .gsync g _ => .gsync g false
  | .sleep t _ => .sleep t false
  | w => w

/-- The thread waits, beside the waits that other slots have begun. -/
def Gang.waitToo (x : Gang) (w : Wait) : Gang :=
  if x.wait = .ready then { x with wait := w } else { x with more := x.more ++ [w] }

/-- What a slot's issue does when its bundle commits. -/
def Slot.effect (x : Slot) (u : U) (i : Issue) : Prog :=
  match i with
  | .trap _ | .wait _ _ | .vector _ _ => .done
  | .commit p | .goto _ p => p
  | .own p => match x.i with | .brk _ => .done | _ => p
  | .stay w p => p.andThen (onGang u.c u.b u.g fun g => g.waitToo w.passed)

/-- The slots commit in order, or the bundle does not commit. -/
def commitSlots (u : U) (s : State) : List Slot → State → Except Stop State
  | [], t => .ok t
  | x :: xs, t =>
    match x.issueAt u s t with
    | .error e => .error e
    | .ok i => commitSlots u s xs ((x.effect u i).run t)

/-- Ends the thread in its bundle, or leaves a handler: these act behind the other slots. -/
def Slot.isLast (x : Slot) : Bool := match x.i with | .exit _ | .hret _ => true | _ => false

/-- The order of commits: ascending, fences after the rest, and exits last (R60, R203). -/
def commitOrder (xs : List Slot) : List Slot :=
  (xs.filter fun x => !x.isLate && !x.isLast) ++ (xs.filter Slot.isLate) ++ xs.filter Slot.isLast

/-- R89: the loop stack after LOP, and the next bundle it names. -/
def lopStep (lop : Nat) (loops : List LoopLevel) (next : W64) : List LoopLevel × W64 :=
  match lop, loops with
  | 1, l :: r => if l.count - 1 = 0 then (r, next) else ({ l with count := l.count - 1 } :: r, l.start)
  | 2, _ :: r => (r, next)
  | _, l => (l, next)

/-- Where the thread goes on: a branch decides (R89). -/
def nextBundle (u : U) (s : State) (xs : List Slot) (next : W64) : W64 :=
  (xs.findSome? fun x => match x.info.sem (x.unit u) s with | .goto a _ => some a | _ => none).getD next

/-- A slot that takes a Rill field with its guard passing (R125). -/
def Slot.takesRill (x : Slot) (u : U) : Bool :=
  !(x.unit u).part.isEmpty &&
    match x.i with
    | .cvt f | .pack f | .scaleq f => f.rm == .sr
    | _ => false

/-- `TRAP` and `BRK` slots whose guard passes, with their cause and `n` (R297). -/
def vectorSlots (u : U) (s : State) (xs : List Slot) : List (Nat × Nat × W64) :=
  xs.filterMap fun x => match x.info.sem (x.unit u) s with | .vector c n => some (x.k, c, n) | _ => none

/-- A `BRK` slot that stops the block (R429). -/
def stopsBlock (u : U) (s : State) (xs : List Slot) : Bool :=
  xs.any fun x => match x.i, x.info.sem (x.unit u) s with | .brk _, .own _ => true | _, _ => false

/-- The thread's barriers are tried, now that it waits (R256, R260). -/
def tryWaits (u : U) (xs : List Slot) : Prog :=
  Prog.all [
    Prog.each xs fun x => match x.i with | .bar f | .barw f => tryRelease u.c u.b (u.blk.barOf f.d.toNat) | _ => .done,
    Prog.when (xs.any fun x => match x.i with | .gsync => true | _ => false) (tryGsync u.blk.grid)]

/-- What vectors and then stops after the commit: the record names the lowest such slot's cause and `n` (R297). -/
def bundleAfter (u : U) (s : State) (xs : List Slot) (next : W64) : Prog :=
  let vs := vectorSlots u s xs
  let ks := vs.map fun (v : Nat × Nat × W64) => v.1
  .read fun t =>
    if ((t.block? u.c u.b).map fun b => (b.members u.g).isEmpty).getD true then .done
    else
      (match vs with
      | [] => Prog.done
      | (_, cause, n) :: _ =>
        takeTrap u.c u.b u.g
          { cause, recs := [{ cause, addr := n, lanes := ks.map u.slotLane, slots := slotMask ks }] }
          u.pc next).andThen (Prog.when (stopsBlock u s xs) (stopBlock u.c u.b))

/-- What a load slot's acquire or `.sc` ordering waits for. -/
def Slot.acquires (x : Slot) (u : U) : Prog :=
  let v := x.unit u
  match x.i with
  | .ld f => Prog.when (!v.part.isEmpty) (v.acquire f.ord f.scp)
  | _ => .done

/-- The bytes that a load slot reads return from their home slices. -/
def Slot.returns (x : Slot) (u : U) (s : State) : Prog :=
  let v := x.unit u
  match x.i with
  | .ld f => v.mergeLoads s .global (v.accs f 64)
  | .ldc f => v.mergeConst s (v.accs f 64)
  | _ => .done

/-- The loads of a bundle read what stands behind its acquires (R60): these act first, and then the bytes return. -/
def bundleReads (u : U) (xs : List Slot) : Prog :=
  (Prog.each xs fun x => x.acquires u).andThen (Prog.each xs fun x => .read fun t => x.returns u t)

/-- Before the slots: the thread has issued and stands at the next bundle, and LOP has acted (R87, R89). -/
def bundleBase (u : U) (s : State) (lop : Nat) (xs : List Slot) : Prog :=
  let l := lopStep lop u.gang.loops u.next
  onBlock u.c u.b fun b =>
    ({ b with issued := b.issued + 1 }.setPc u.members (nextBundle u s xs l.2)).modGang u.g
      fun x => { x.issued with loops := l.1 }

/-- Behind the slots: one Rill word, the metadata counter, buffered stores, then what the waits and vectors ask for
(R60, R90, R125). -/
def bundleEnd (u : U) (s : State) (hdr : W64) (xs : List Slot) : Prog :=
  let l := lopStep (lopOf hdr) u.gang.loops u.next
  Prog.all [
    Prog.when (xs.any fun x => x.takesRill u)
      (.one (.core u.c fun k => { k with rill := k.rill.drop 1, slot := { k.slot with bundle := some u.physQuarter } })),
    onBlock u.c u.b fun b => b.advanceMc u.members (mdaOf hdr),
    Prog.when (xs.any Slot.isRelease) (joinThread u.c u.b (64 + u.members.headD 0 / 4)),
    tryWaits u xs,
    bundleAfter u s xs (nextBundle u s xs l.2)]

/-- The bundle's issue: trap, wait, or commit of the whole (R59, R448). A thread that parks in a `WAITC` slot may donate its place
(R382). -/
def issueBundle (u : U) (hdr : W64) (words : List W64) (s : State) : State :=
  let rs := rawSlots hdr words
  let d := splitSlots rs
  let xs := d.1
  let trap := fun (t : TrapReq) => (takeTrap u.c u.b u.g t u.pc u.pc).run s
  let wait := fun (w : Wait) (p : Prog) =>
    (Prog.all [p, onGang u.c u.b u.g fun x => x.waitWhole w, donate u.c u.b u.g]).run s
  match bundleTrap u s hdr words rs xs d.2 with
  | some t => trap t
  | none =>
    match bundleWait u s xs with
    | some w => wait w.1 w.2
    | none =>
      let s1 := (bundleReads u xs).run s
      match commitSlots { u with pre := s1 } s1 (commitOrder xs) ((bundleBase u s (lopOf hdr) xs).run s1) with
      | .error (.trap t) => trap t
      | .error (.wait w p) => wait w p
      | .ok t => (bundleEnd u s hdr xs).run t

/-- `BUNDLE`; in SIMT code a header traps ILLEGAL (R96). -/
def execBundle (hdr : W64) (words : List W64) (s : State) : Host.Outcome State Fault Refusal :=
  match unitOf s (8 + 8 * words.length) with
  | none => .fault .noIssuer
  | some u =>
    if u.gang.vliw then .next (issueBundle u hdr words s)
    else .next ((u.carry u.illegal).run s)

end Sys2Proof.Machine
end

