-- ==== Sys2Proof/Machine/Exdin.lean ====
section
/-! DEFINITION. Exdin code run cracked (10 R303 to R320): operands and homes, and the meaning of each operation as the
native one acting on homes, taken as a unit (R314, R319). -/

namespace Sys2Proof.Machine

/-! ## Homes (R307) -/

/-- The declaration and the residency-map entry of a virtual register. -/
def ExInfo.decl (x : ExInfo) (n : Nat) : W32 := x.decls.getD n 0
def ExInfo.home (x : ExInfo) (n : Nat) : W32 := x.map.getD n 0

/-- A unit that runs cracked code, with its kernel and the instruction's operands. -/
structure XU where
  u : U
  info : ExInfo
  f : ExForm

/-- Place in the scratchpad of a spilled register of lane `i`. -/
def XU.slot (x : XU) (n i : Nat) : Loc :=
  ⟨2, x.u.c, scrOrigin x.u.core x.u.blk + homeIdx (x.info.home n) + declW (x.info.decl n) / 8 * i⟩

/-- The value of virtual register `n` for lane `i`, of its declared width; a predicate reads 0 or 1. -/
def XU.reg (x : XU) (s : State) (n i : Nat) : Nat :=
  let w := declW (x.info.decl n)
  let h := x.info.home n
  match homeOf h with
  | 0 => (x.u.blk.lane i).regs (homeIdx h) (regCount w)
  | 1 => (x.u.s (homeIdx h)).toNat % 2 ^ w
  | 2 => if (x.u.blk.lane i).pred (homeIdx h) then 1 else 0
  | 4 => leNat (s.readBytes (x.slot n i) (w / 8))
  | _ => 0

/-- R310: the exact value of a shape expression. -/
def XU.shape (x : XU) (sym : BitVec 2) (mul : BitVec 8) (shr : BitVec 4) (add : BitVec 16) : Int :=
  let s := match sym.toNat with | 0 => x.u.grid.m | 1 => x.u.grid.n | _ => x.u.grid.k
  (s.toNat * mul.toNat / 2 ^ shr.toNat : Nat) + add.toInt

/-- The value of an operand for lane `i` as `w` bits (R310, R312); `fp` says that the operation reads it as a
floating-point value. -/
def XU.val (x : XU) (s : State) (o : ExOp) (i w : Nat) (fp : Bool := false) : Nat :=
  match o with
  | .reg n => x.reg s n.toNat i % 2 ^ w
  | .imm v => if fp then (v.toNat * 4) % 2 ^ w else wrapTo w v.toInt
  | .shape m a b c => wrapTo w (x.shape m a b c)
  | .target _ => 0

/-- Operand `k` of the instruction. -/
def XU.op (x : XU) (k : Nat) : ExOp := x.f.ops.getD k (.imm 0)

/-- Operand `k` for lane `i`. -/
def XU.v (x : XU) (s : State) (k i w : Nat) : Nat := x.val s (x.op k) i w

/-- Operand `k` of an operation that acts once: that of the lowest participating lane (log 22). -/
def XU.v1 (x : XU) (s : State) (k w : Nat) : Nat := x.v s k (x.u.part.headD 0) w

/-- A predicate operand. -/
def XU.p (x : XU) (s : State) (k i : Nat) : Bool := x.v s k i 1 == 1

/-- Operand `k` for lane `i` where the operation states a range for it: the exact value, and 2^32, outside every range, for any
value that 32 bits do not hold (R310). -/
def XU.ranged (x : XU) (s : State) (k i : Nat) : Nat :=
  let v : Int := match x.op k with
    | .reg n => x.reg s n.toNat i | .imm v => v.toInt | .shape m a b c => x.shape m a b c | .target _ => 0
  if 0 ≤ v ∧ v < 2 ^ 32 then v.toNat else 2 ^ 32

/-- Such an operand of an operation that acts once. -/
def XU.count (x : XU) (s : State) (k : Nat) : Nat := x.ranged s k (x.u.part.headD 0)

/-- An address operand: a 32-bit register is extended by its declared sign, and other operands are exact (R314, log 20). -/
def XU.addr (x : XU) (s : State) (k i : Nat) : Int :=
  match x.op k with
  | .reg n =>
    let v := x.reg s n.toNat i
    let w := declW (x.info.decl n.toNat)
    if w = 32 then intVal (match declTy (x.info.decl n.toNat) with | some t => t.signed | none => false) 32 v else v
  | .imm v => v.toInt
  | .shape m a b c => x.shape m a b c
  | .target _ => 0

/-- The register that operand 0 names. -/
def XU.dst (x : XU) (k : Nat) : Nat := match x.op k with | .reg n => n.toNat | _ => 0

/-- The native field of a register whose home is a lane register or an s-register. -/
def XU.field (x : XU) (n : Nat) : Option (BitVec 8) :=
  let h := x.info.home n
  match homeOf h with
  | 0 => some (BitVec.ofNat 8 (homeIdx h))
  | 1 => some (BitVec.ofNat 8 (0xC0 + homeIdx h))
  | _ => none

/-- Writes a register's home in lanes; an s-register takes the lowest lane's value (R305, R314). -/
def XU.put (x : XU) (n : Nat) (vals : List (Nat × Nat)) : Prog :=
  let w := declW (x.info.decl n)
  let h := x.info.home n
  match x.field n with
  | some f => x.u.put f w (vals.map fun e => (e.1, e.2 % 2 ^ w))
  | none =>
    match homeOf h with
    | 2 => x.u.putPred (homeIdx h) (vals.map fun e => (e.1, e.2 % 2 == 1))
    | 4 => Prog.each vals fun e => .one (.write (x.slot n e.1) (leBytes e.2 (w / 8)))
    | _ => .done

/-- One value for the gang. -/
def XU.putAll (x : XU) (n v : Nat) : Prog := x.put n (x.u.part.map fun i => (i, v))

/-- Raises flags in lanes (R26). -/
def XU.raise (x : XU) (fl : List (Nat × BitVec 5)) : Prog :=
  onBlock x.u.c x.u.b fun b => fl.foldl (fun b e => b.modLane e.1 fun l => l.raise e.2) b

/-- What a load or an atomic returns: it is bound to a register's home, or written to a spilled one. -/
def XU.bind (x : XU) (n : Nat) (w : Width) (accs : List LAcc) (src : LoadSrc) (vals : List (Nat × Nat)) : Prog :=
  match x.field n with
  | some f => x.u.bindLoads w f accs src vals
  | none => x.put n (vals.map fun e => (e.1, extendTo32 w e.2))

/-- Native fields of the registers that the instruction names. -/
def XU.fields (x : XU) : List (BitVec 8 × Nat) :=
  ((match x.f.guard with | some (o, _) => [o] | none => []) ++ x.f.ops).filterMap fun o =>
    match o with
    | .reg n => (x.field n.toNat).map fun f => (f, declW (x.info.decl n.toNat))
    | _ => none

/-! ## Issue (R313, R319) -/

abbrev ExSem := XU → State → Issue

/-- What the cracker checks as it decodes: registers against their declarations, and feature bits (R304, R313, R328). -/
def exDecodes (i : Instr) (u : U) (info : ExInfo) : Bool :=
  match exSpec i with
  | none => true
  | some (f, _, roles) =>
    let narrow := f.ty == .e2m1 || (match i with
      | .exCvt f => Ty.ofCode (bits 5 f.xm 0) == some .e2m1
      | .exWload f | .exMm f => arrayFmt (f.x 5 0) == some .e2m1
      | _ => false)
    let sparse := match i with | .exWload f => f.x 1 5 == 1 | _ => false
    let mail := match i with | .exCopy f => f.x 1 8 == 1 | _ => false
    exRegsOk info.decls f roles && (!narrow || u.feat 0 featE2m1) && (f.rm != .sr || u.feat 0 featSrnd)
      && (!sparse || u.feat 0 featSparse) && (!mail || u.feat 0 featMbox)

/-- The form with which an instruction is run; the four operations without fields have none. -/
def exFormOf (i : Instr) : ExForm :=
  (Instr.exForm i).getD { ty := .i8, rm := .ne, sat := false, guard := none, xm := 0, ops := [] }

/-- Runs an Exdin instruction as the gang that `cur` names issues it in cracked code. -/
def runEx (i : Instr) (sem : ExSem) (s : State) : Host.Outcome State Fault Refusal :=
  let f := exFormOf i
  match unitOf s (4 * (1 + f.nop)) with
  | none => .fault .noIssuer
  | some u =>
    match u.grid.exdin with
    | none => .fault .noIssuer
    | some info =>
      if !u.gang.frames.isEmpty then .fault .noIssuer
      else
        let x : XU := { u, info, f }
        let part := match f.guard with
          | some (o, gn) => u.active.filter fun l => (x.val s o l 1 == 1) != gn
          | none => u.active
        .next ((u.carry (
          if !exDecodes i u info then u.illegal
          else u.need x.fields (sem { x with u := { u with part } } s))).run s)

/-! ## Lane operations -/

/-- The results of a lane operation on operands 1 to 3; `fp` says which operands are floating-point values. -/
def XU.results (x : XU) (s : State) (o : AluOp) (fp : Nat → Bool) : List (Nat × Res) :=
  x.u.part.map fun i =>
    let v := fun (k w : Nat) => if w = 0 then 0 else x.val s (x.op k) i w (fp k)
    (i, o.fn { a := v 1 o.wa, b := v 2 o.wb, c := v 3 o.wc, d := 0, p := (x.u.blk.lane i).pred, rnd := x.u.rnd i })

/-- A lane operation on homes. A comparison's predicate goes to the home of operand 0. -/
def exLane (o : AluOp) (fp : Nat → Bool) : ExSem := fun x s =>
  if o.rill && !x.u.part.isEmpty && decide (x.u.core.rill.length < x.u.rillNeed) then .wait .rill .done
  else
    let rs := x.results s o fp
    let value := fun (r : Res) => match r.preds with | (_, b) :: _ => if b then 1 else 0 | [] => r.val
    .commit (Prog.all [x.put (x.dst 0) (rs.map fun e => (e.1, value e.2)), x.raise (rs.map fun e => (e.1, e.2.flags)),
      Prog.when (o.rill && !x.u.part.isEmpty) x.u.popRill])

def noFp (_ : Nat) : Bool := false
def allFp (_ : Nat) : Bool := true

def execExNop (f : ExForm) (s : State) : Host.Outcome State Fault Refusal :=
  runEx (.exNop f) (fun _ _ => .commit .done) s

def execExMov (f : ExForm) (s : State) : Host.Outcome State Fault Refusal :=
  runEx (.exMov f) (fun x s => .commit (x.put (x.dst 0) (x.u.part.map fun i => (i, x.v s 1 i 64)))) s

def execExAdd (f : ExForm) (s : State) : Host.Outcome State Fault Refusal :=
  runEx (.exAdd f) (exLane (intAdd f.ty f.sat) noFp) s

def execExSub (f : ExForm) (s : State) : Host.Outcome State Fault Refusal :=
  runEx (.exSub f) (exLane (intSub f.ty f.sat) noFp) s

def execExMul (f : ExForm) (s : State) : Host.Outcome State Fault Refusal :=
  runEx (.exMul f) (exLane (intMul f.ty f.sat) noFp) s

def execExMad (f : ExForm) (s : State) : Host.Outcome State Fault Refusal :=
  runEx (.exMad f) (exLane (intMad f.ty f.sat) noFp) s

def execExDiv (f : ExForm) (s : State) : Host.Outcome State Fault Refusal :=
  runEx (.exDiv f) (exLane (opDiv f.ty f.sat) noFp) s

def execExRem (f : ExForm) (s : State) : Host.Outcome State Fault Refusal :=
  runEx (.exRem f) (exLane (opRem f.ty) noFp) s

def execExMin (f : ExForm) (s : State) : Host.Outcome State Fault Refusal :=
  runEx (.exMin f) (exLane (intMin f.ty) noFp) s

def execExMax (f : ExForm) (s : State) : Host.Outcome State Fault Refusal :=
  runEx (.exMax f) (exLane (intMax f.ty) noFp) s

def execExAnd (f : ExForm) (s : State) : Host.Outcome State Fault Refusal :=
  runEx (.exAnd f) (exLane (opBits f.ty.bits fun a b => a &&& b) noFp) s

def execExOr (f : ExForm) (s : State) : Host.Outcome State Fault Refusal :=
  runEx (.exOr f) (exLane (opBits f.ty.bits fun a b => a ||| b) noFp) s

def execExXor (f : ExForm) (s : State) : Host.Outcome State Fault Refusal :=
  runEx (.exXor f) (exLane (opBits f.ty.bits fun a b => a ^^^ b) noFp) s

def execExShl (f : ExForm) (s : State) : Host.Outcome State Fault Refusal :=
  runEx (.exShl f) (exLane (opShift f.ty.bits shlN) noFp) s

/-- `shr` is arithmetic when XM[0] is set. -/
def execExShr (f : ExForm) (s : State) : Host.Outcome State Fault Refusal :=
  runEx (.exShr f) (exLane (opShift f.ty.bits (if f.x 1 0 == 1 then sarN else shrN)) noFp) s

def execExBitc (f : ExForm) (s : State) : Host.Outcome State Fault Refusal :=
  runEx (.exBitc f) (exLane (match f.x 2 0 with
    | 0 => opCount f.ty.bits popN | 1 => opCount f.ty.bits clzN | 2 => opCount f.ty.bits ctzN | _ => opRev f.ty.bits) noFp) s

def execExBfx (f : ExForm) (s : State) : Host.Outcome State Fault Refusal :=
  runEx (.exBfx f) (exLane (opBfx f.ty) noFp) s

def execExBfi (f : ExForm) (s : State) : Host.Outcome State Fault Refusal :=
  runEx (.exBfi f) (exLane (opBfi f.ty.bits) noFp) s

def execExCmp (f : ExForm) (s : State) : Host.Outcome State Fault Refusal :=
  runEx (.exCmp f) (exLane (opCmp f.ty (f.x 3 0) 0) noFp) s

/-- `sel d, p, a, b`. -/
def execExSel (f : ExForm) (s : State) : Host.Outcome State Fault Refusal :=
  runEx (.exSel f) (fun x s => .commit (x.put (x.dst 0) (x.u.part.map fun i =>
    (i, x.v s (if x.p s 1 i then 2 else 3) i f.ty.bits)))) s

def execExFadd (f : ExForm) (s : State) : Host.Outcome State Fault Refusal :=
  runEx (.exFadd f) (exLane (opFadd f.rm f.sat) allFp) s

def execExFsub (f : ExForm) (s : State) : Host.Outcome State Fault Refusal :=
  runEx (.exFsub f) (exLane (opFsub f.rm f.sat) allFp) s

def execExFmul (f : ExForm) (s : State) : Host.Outcome State Fault Refusal :=
  runEx (.exFmul f) (exLane (opFmul f.rm f.sat) allFp) s

def execExFfma (f : ExForm) (s : State) : Host.Outcome State Fault Refusal :=
  runEx (.exFfma f) (exLane (opFfma f.rm f.sat) allFp) s

def execExFmin (f : ExForm) (s : State) : Host.Outcome State Fault Refusal :=
  runEx (.exFmin f) (exLane (opFmm false) allFp) s

def execExFmax (f : ExForm) (s : State) : Host.Outcome State Fault Refusal :=
  runEx (.exFmax f) (exLane (opFmm true) allFp) s

def execExFdiv (f : ExForm) (s : State) : Host.Outcome State Fault Refusal :=
  runEx (.exFdiv f) (exLane (opFdiv f.rm f.sat) allFp) s

def execExFsqrt (f : ExForm) (s : State) : Host.Outcome State Fault Refusal :=
  runEx (.exFsqrt f) (exLane (opFsqrt f.rm f.sat) allFp) s

def execExFcmp (f : ExForm) (s : State) : Host.Outcome State Fault Refusal :=
  runEx (.exFcmp f) (exLane (opFcmp (f.x 3 0) 0) allFp) s

def execExFunc (f : ExForm) (s : State) : Host.Outcome State Fault Refusal :=
  runEx (.exFunc f) (exLane (opFn (f.x 3 0)) allFp) s

/-- The conversion that TY and the source type of XM[4:0] select (R120 to R122). -/
def exCvtOp (f : ExForm) : AluOp :=
  let src := (Ty.ofCode (bits 5 f.xm 0)).getD .f32
  if f.ty.isInt then opCvti f.ty src f.rm f.sat
  else if src.isInt then opCvtf f.ty src f.rm f.sat
  else opCvt f.ty src f.rm f.sat

def execExCvt (f : ExForm) (s : State) : Host.Outcome State Fault Refusal :=
  runEx (.exCvt f) (exLane (exCvtOp f) fun _ => Ty.ofCode (bits 5 f.xm 0) == some .f32) s

/-- `quant`: the value is floating-point, the scale a code (R167). -/
def execExQuant (f : ExForm) (s : State) : Host.Outcome State Fault Refusal :=
  runEx (.exQuant f) (exLane (opScaleq f.ty f.rm f.sat) (· == 1)) s

def execExBscale (f : ExForm) (s : State) : Host.Outcome State Fault Refusal :=
  runEx (.exBscale f) (exLane (opBscale f.ty) allFp) s

/-! ## Exchanges, votes and reductions (R168 to R171, R315) -/

/-- R132: group width of a code; a group wider than the block traps in the lanes whose guard passes (R14). -/
def exGroup (f : ExForm) (k : Nat → Issue) : XU → Issue := fun x =>
  let gw := 4 * 2 ^ f.x 3 0
  if !x.u.part.isEmpty && decide (gw > x.u.blk.width) then x.u.trap cIllegal else k gw

/-- A shuffle of operand 1 by operand 2; an offset outside the group traps where the native field would (R169, R310). -/
def exShuffle (f : ExForm) (kind : Nat) : ExSem := fun x s => exGroup f (fun gw =>
  let by_ := fun i => if kind = 3 then x.v s 2 i 32 else x.ranged s 2 i
  let bad := if kind = 3 then [] else x.u.part.filter fun i => decide (by_ i ≥ gw)
  if bad ≠ [] then illegalIn bad
  else
    let src := fun i =>
      match kind with
      | 0 => srcXor (by_ i) i | 1 => srcDown (by_ i) i | 2 => srcUp (by_ i) i | 3 => srcIdx gw i (by_ i)
      | _ => srcBcast gw (by_ i) i
    .commit (x.put (x.dst 0) (x.u.part.map fun i =>
      (i, x.v s 1 (exchange x.u.active gw i (src i)) f.ty.bits)))) x

def execExShfl (f : ExForm) (s : State) : Host.Outcome State Fault Refusal :=
  runEx (.exShfl f) (exShuffle f (f.x 2 5)) s

def execExBcast (f : ExForm) (s : State) : Host.Outcome State Fault Refusal :=
  runEx (.exBcast f) (exShuffle f 4) s

def execExVote (f : ExForm) (s : State) : Host.Outcome State Fault Refusal :=
  runEx (.exVote f) (fun x s =>
    .commit (x.putAll (x.dst 0) (voteVal (f.x 2 0) (x.u.part.map fun i => (i, x.p s 1 i))))) s

/-- Steps 1, 2, 4, … below a group's width. -/
def powersBelow (gw : Nat) : List Nat := ((List.range 6).map (2 ^ ·)).filter fun d => decide (d < gw)

/-- R315: one step over all lanes: each lane adds the value of its partner, if it has one. -/
def fsumStep (m : Rnd) (sat : Bool) (partner : Nat → Option Nat) (t : List (Nat × BitVec 5)) : List (Nat × BitVec 5) :=
  t.zipIdx.map fun e =>
    match partner e.2 with
    | none => e.1
    | some j =>
      let r := round32 m sat (fAdd m (fdec .f32 e.1.1) (fdec .f32 ((t.getD j (0, 0)).1)))
      (r.1, e.1.2 ||| r.2)

/-- The bits of -0.0. -/
def negZero : Nat := 2 ^ 31

/-- R315: a floating-point sum or scan of the participants' values over groups of `gw` lanes, with flags. -/
def fsum (m : Rnd) (sat scan ex : Bool) (gw width : Nat) (vs : List (Nat × Nat)) : List (Nat × Res) :=
  let t0 := (List.range width).map fun i => (((vs.find? fun e => e.1 == i).map (·.2)).getD negZero, (0 : BitVec 5))
  let t := (powersBelow gw).foldl (fun t d =>
    fsumStep m sat (fun i => if scan then (if i % gw ≥ d then some (i - d) else none) else some (i ^^^ d)) t) t0
  vs.map fun e =>
    let own := t.getD e.1 (0, 0)
    let v := if scan && ex then (if e.1 % gw = 0 then negZero else (t.getD (e.1 - 1) (0, 0)).1) else own.1
    (e.1, { val := v, flags := own.2 })

/-- `xred` and `xscan`. -/
def exReduce (f : ExForm) (scan : Bool) : ExSem := fun x s => exGroup f (fun gw =>
  let w := f.ty.bits
  let vs := x.u.part.map fun i => (i, x.val s (x.op 1) i w (f.ty == .f32))
  let ex := f.x 1 3 == 1
  let rs := if f.ty == .f32 && f.x 3 8 == 0 then fsum f.rm f.sat scan ex gw x.u.blk.width vs
    else reduceRes (f.x 3 8) gw f.ty scan ex vs
  .commit ((x.put (x.dst 0) (rs.map fun e => (e.1, e.2.val))).andThen (x.raise (rs.map fun e => (e.1, e.2.flags))))) x

def execExXred (f : ExForm) (s : State) : Host.Outcome State Fault Refusal :=
  runEx (.exXred f) (exReduce f false) s

def execExXscan (f : ExForm) (s : State) : Host.Outcome State Fault Refusal :=
  runEx (.exXscan f) (exReduce f true) s

/-! ## Memory (R179 to R199) -/

/-- The width of a memory access by type. -/
def exWidth (t : Ty) : Width :=
  match t.bits with
  | 8 => if t == .i8 then .i8 else .n8
  | 16 => if t == .i16 then .i16 else .n16
  | 64 => .b64
  | _ => .b32

/-- Accesses at the sum of operands `k` and `k + 1`. -/
def XU.accs (x : XU) (s : State) (glob : Bool) (k : Nat) : List LAcc :=
  x.u.part.map fun i =>
    let a : Int := if glob then x.v s k i 64 else x.v s k i 32
    { lane := i, ea := a + x.addr s (k + 1) i, size := x.f.ty.bits / 8 }

/-- ORD, SCP and VIEW of an access's XM. -/
def exOrdOf (f : ExForm) (l : Nat) : Ord := (Ord.ofCode (bits 3 f.xm l)).getD .plain
def exScpOf (f : ExForm) (l : Nat) : Scope := Scope.ofCode (bits 2 f.xm l)
def exView (f : ExForm) (glob : Bool) : Bool := !glob && f.x 1 5 == 1

def exLoad (f : ExForm) (glob : Bool) : ExSem := fun x s =>
  let accs := x.accs s glob 1
  x.u.load s (if glob then .global else .scratch) (exOrdOf f 0) (exScpOf f 3) (exView f glob) accs
    (x.bind (x.dst 0) (exWidth f.ty) accs)

def exStore (f : ExForm) (glob : Bool) : ExSem := fun x s =>
  x.u.store s (if glob then .global else .scratch) (exOrdOf f 0) (exScpOf f 3) (exView f glob) (x.accs s glob 0)
    fun i => x.v s 2 i f.ty.bits

def execExLd (f : ExForm) (s : State) : Host.Outcome State Fault Refusal := runEx (.exLd f) (exLoad f true) s
def execExSt (f : ExForm) (s : State) : Host.Outcome State Fault Refusal := runEx (.exSt f) (exStore f true) s
def execExLds (f : ExForm) (s : State) : Host.Outcome State Fault Refusal := runEx (.exLds f) (exLoad f false) s
def execExSts (f : ExForm) (s : State) : Host.Outcome State Fault Refusal := runEx (.exSts f) (exStore f false) s

/-- `atom d, [a], b, c`: XM[10:7] OP, [6:4] ORD, [3:2] SCP. -/
def execExAtom (f : ExForm) (s : State) : Host.Outcome State Fault Refusal :=
  runEx (.exAtom f) (fun x s =>
    let w := f.ty.bits
    let fp := f.ty == .f32
    let accs := x.u.part.map fun i => ({ lane := i, ea := x.v s 1 i 64, size := w / 8 } : LAcc)
    x.u.atomic s .global false (exOrdOf f 4) (exScpOf f 2) f.ty (f.x 4 7)
      (fun a old =>
        match x.field (x.dst 0) with
        | some g => x.u.atomOld w g accs a old
        | none => x.put (x.dst 0) [(a.lane, old)]) accs
      (fun i => x.val s (x.op 2) i w fp) (fun i => if f.x 4 7 == 7 then x.val s (x.op 3) i w fp else 0)) s

def execExFence (f : ExForm) (s : State) : Host.Outcome State Fault Refusal :=
  runEx (.exFence f) (fun x s => fenceSem (exOrdOf f 0) (exScpOf f 3) x.u s) s

/-! ## Tiles and flumes (R214 to R227) -/

/-- `talloc d, size, count`: XM[2:0] PART, [3] SCOPE (log 20). -/
def execExTalloc (f : ExForm) (s : State) : Host.Outcome State Fault Refusal :=
  runEx (.exTalloc f) (fun x s =>
    tallocOp x.u s (f.x 3 0) (x.count s 1) (x.count s 2) (f.x 1 3 == 1) none fun h => x.putAll (x.dst 0) h) s

def execExTseal (f : ExForm) (s : State) : Host.Outcome State Fault Refusal :=
  runEx (.exTseal f) (fun x s => tsealOp x.u s (x.v1 s 0 32)) s

/-- Tile offsets in operand `k`. -/
def XU.offs (x : XU) (s : State) (k : Nat) : List LAcc :=
  x.u.part.map fun i => { lane := i, ea := x.v s k i 32, size := x.f.ty.bits / 8 }

/-- `tld d, h, off`: XM[0] consumes (log 20). -/
def execExTld (f : ExForm) (s : State) : Host.Outcome State Fault Refusal :=
  runEx (.exTld f) (fun x s =>
    let accs := x.offs s 2
    tldOp x.u s (exWidth f.ty) (f.x 1 0 == 1) (x.v1 s 1 32) accs (x.bind (x.dst 0) (exWidth f.ty) accs {})) s

def execExTst (f : ExForm) (s : State) : Host.Outcome State Fault Refusal :=
  runEx (.exTst f) (fun x s =>
    tstOp x.u s (exWidth f.ty) (x.v1 s 0 32) (x.offs s 1) fun i => x.v s 2 i f.ty.bits) s

def execExTdrop (f : ExForm) (s : State) : Host.Outcome State Fault Refusal :=
  runEx (.exTdrop f) (fun x s => tdropOp x.u s (x.v1 s 0 32) (x.count s 1) true) s

/-- `qpost h`: XM[4:0] is the flume (log 20). -/
def execExQpost (f : ExForm) (s : State) : Host.Outcome State Fault Refusal :=
  runEx (.exQpost f) (fun x s => qpostOp x.u s (f.x 5 0) (x.v1 s 0 32)) s

/-- `qtake d, n`: XM[4:0] the flume, [6:5] the cursor, [7] advances it (log 20). -/
def execExQtake (f : ExForm) (s : State) : Host.Outcome State Fault Refusal :=
  runEx (.exQtake f) (fun x s =>
    let n := x.count s 1
    if !x.u.part.isEmpty && (n == 0 || decide (n > 256)) then x.u.trap cIllegal
    else qtakeOp x.u s (f.x 5 0) (f.x 2 5) n (f.x 1 7 == 1) fun h => x.putAll (x.dst 0) h) s

/-! ## Engines (R232 to R238, R272 to R277) -/

/-- `copy a, b, n0, n1, ss1, ds1`: XM[5:0] CTL, [8:6] ACT on barrier, flume and mailbox 0 (log 20). -/
def execExCopy (f : ExForm) (s : State) : Host.Outcome State Fault Refusal :=
  runEx (.exCopy f) (fun x s =>
    let p := fun (i : Nat) =>
      match i with
      | 0 => f.x 6 0 | 1 => x.count s 2 | 2 => x.count s 3 | 3 | 4 => 1
      | 5 => x.count s 4 | 8 => x.count s 5 | 12 => f.x 3 6 | _ => 0
    x.u.once <| copyOp x.u s p (x.v1 s 0 64) (x.v1 s 1 64) false false 0 false 0 .done fun _ => .done) s

/-- The lease that an Exdin operation holds for itself, and the request for it, in class 0 (log 20). -/
def XU.ownLease (x : XU) : Lease := { core := x.u.c, blk := x.u.b, cls := 0, cmds := 1, cyc := 4096, fresh := some x.u.g }
def XU.leaseReq (x : XU) : LeaseReq :=
  { core := x.u.c, blk := x.u.b, gang := x.u.g, cls := 0, cmds := 1, cyc := 4096, again := true }

/-- The request joins those of the cluster, and is granted at once when arbitration picks it. -/
def XU.takeLease (x : XU) (q : Cluster) : Cluster :=
  let q := q.askLease x.leaseReq
  match (if q.lease.isNone then q.arbitrate else none) with | some (_, q') => q' | none => q

/-- `wload` and `mm` take the lease of one command for themselves. Their checks come first, as though the lease were held
(R319), and a page that they wait for too; an operation whose checks pass asks for the lease and then waits, if it must,
with the lease in hand, which goes when the operation traps. -/
def XU.leased (x : XU) (s : State) (k : State → Issue) : Issue :=
  let u := x.u
  let c := clusterOf u.c
  let mine := (u.lease s).any fun l => l.fresh == some u.g
  if u.part.isEmpty then .commit .done
  else
    match k ((Prog.one (.clus c fun q => { q with lease := some x.ownLease })).run s) with
    | .trap t => .trap { t with pre := t.pre.andThen (Prog.when mine (.one (.clus c fun q => q.release u.c u.b))) }
    | .wait (.filling va) p => .wait (.filling va) p
    | i =>
      if mine then i
      else if (x.takeLease (s.cluster c)).lease == some x.ownLease then
        match i with
        | .wait w p => .wait w ((Prog.one (.clus c x.takeLease)).andThen p)
        | i => i.after (.one (.clus c x.takeLease))
      else .wait .mlease (.one (.clus c x.takeLease))

/-- `wload a, cs, so, io`: XM[4:0] WFMT, [5] SPARSE, [7:6] SPACE, [8] CONSUME; scales and index bits of a column stand
without gaps (log 20). -/
def execExWload (f : ExForm) (s : State) : Host.Outcome State Fault Refusal :=
  runEx (.exWload f) (fun x s =>
    let sparse := f.x 1 5 == 1
    let t := (arrayFmt (f.x 5 0)).getD .i8
    let p := fun (i : Nat) =>
      match i with
      | 0 => f.x 5 0 | 1 => f.x 1 5 + 2 * f.x 2 6 + 8 * f.x 1 8 | 2 => x.v1 s 1 32
      | 5 => x.v1 s 2 32 | 6 => x.v1 s 3 32 | 8 => 2 * scaleCount t sparse | 9 => indexCount t sparse | _ => 0
    x.leased s fun s => mloadwOp x.u s p (x.v1 s 0 64) .done) s

/-- `mm z, a, rows, stride, so, mask`: XM[4:0] AFMT, [5] ACC, [6] SWAP, [8:7] SPACE, [9] CONSUME (log 20). -/
def execExMm (f : ExForm) (s : State) : Host.Outcome State Fault Refusal :=
  runEx (.exMm f) (fun x s =>
    let z := homeIdx (x.info.home (x.dst 0))
    let m := BitVec.ofNat 64 (x.v1 s 5 64)
    x.leased s fun s =>
      let q := s.cluster (clusterOf x.u.c)
      let pl := if f.x 1 6 == 1 then q.shadow else q.active
      let p := fun (i : Nat) =>
        match i with
        | 0 => f.x 5 0 | 1 => 2 * f.x 2 7 + 8 * f.x 1 9 | 2 => x.count s 2 | 5 => x.v1 s 3 32 | 6 => x.v1 s 4 32
        | 7 => 2 * scaleCount pl.fmt pl.sparse | _ => 0
      mstreamOp x.u s p (x.v1 s 1 64) z (f.x 1 5 == 1) (f.x 1 6 == 1) .done
        (fun k => if bits 26 m 38 != 0 then x.u.trap cIllegal else k m .done) .done) s

/-- `acc`: XM 0 clears rows (`z, row, count`), 1 reads (`z, d, row, column`), 2 writes (`z, row, column, value`), with the
elements a lane that TY holds (log 20). -/
def execExAcc (f : ExForm) (s : State) : Host.Outcome State Fault Refusal :=
  runEx (.exAcc f) (fun x s =>
    let u := x.u
    let z := homeIdx (x.info.home (x.dst 0))
    let e := f.ty.bits / 32
    match f.x 2 0 with
    | 0 =>
      let row := x.count s 1
      let n := x.count s 2
      if !u.part.isEmpty && (n == 0 || decide (row + n > 32)) then u.trap cIllegal else mzeroOp u s z row n
    | 1 =>
      let row := x.count s 2
      let col := x.count s 3
      if !u.part.isEmpty && (decide (row ≥ 32) || decide (col ≥ 256)) then u.trap cIllegal
      else u.accum s z <| .commit (.read fun t => x.put (x.dst 1) (mreadVals u t z row col e))
    | _ =>
      let row := x.count s 1
      let col := x.count s 2
      if !u.part.isEmpty && (decide (row ≥ 32) || decide (col ≥ 256)) then u.trap cIllegal
      else u.accum s z <| .commit (mwriteProg u z row col e fun i => x.v s 3 i f.ty.bits)) s

/-! ## Structured control (R316, log 21) -/

/-- Address of a target operand (R312). -/
def XU.target (x : XU) (k : Nat) : W64 :=
  match x.op k with | .target o => x.u.pc + o.signExtend 64 * 4 | _ => x.u.pc

/-- `if` in a slice: the lanes that run from `else` wait on the stack, and every lane reconverges at `endif`. -/
def Slice.openIf (x : Slice) (els : BitVec 4) (slices : BitVec 16) (elseAt endAt next : W64) : Slice :=
  if x.active = 0 then x
  else
    let r : ExRegion := { loop := false, depth := x.stack.length, slices, start := 0, remain := els.setWidth 32 }
    { x with stack := .join endAt x.active 0 :: x.stack, ex := r :: x.ex }.bra els elseAt next

/-- A slice has reached the end of its innermost region: its lanes park, and the region is over once no lane of it is left to
run; the answer says so. The fuel bounds the paths that start at this very head word. -/
def Slice.close (x : Slice) (r : ExRegion) (here : W64) : (fuel : Nat) → Slice × Bool
  | 0 => (x, false)
  | n + 1 =>
    let y := if x.stack.length > r.depth then x.joinLanes else x
    if y.stack.length ≤ r.depth then ({ y with ex := x.ex.drop 1, pc := here }, true)
    else if y.pc = here then y.close r here n
    else (y, false)

/-- `else` in a slice: lanes that came from `if` park, those that run from `else` go on. -/
def Slice.atElse (x : Slice) (r : ExRegion) (next : W64) : Slice :=
  if x.active = 0 then x
  else if x.active &&& ~~~(r.remain.setWidth 4) = 0 then { x with pc := next }
  else
    let y := x.joinLanes
    -- The lanes that waited may start at the `else` word itself.
    if y.stack.length > r.depth && y.pc = next - 4 then { y with pc := next } else y

/-- Lanes removed from an entry, which others of the slice wait on. -/
def DivEntry.drop (m : BitVec 4) : DivEntry → DivEntry
  | .join a e p => .join a (e &&& ~~~m) (p &&& ~~~m)
  | .path a k => .path a (k &&& ~~~m)

/-- `brk` in a slice: its lanes leave every region inside the loop and park at the loop's end. -/
def Slice.leave (x : Slice) (r : ExRegion) (m : BitVec 4) (next : W64) : Slice :=
  let above := x.stack.take (x.stack.length - r.depth - 1)
  let rest := x.stack.drop (x.stack.length - r.depth - 1)
  let y := { x with active := x.active &&& ~~~m, stack := above.map (DivEntry.drop m) ++ parkOn m rest }
  if m = 0 then { x with pc := next }
  else if y.active = 0 then y.resolve
  else { y with pc := next }

/-- The reconvergence address of a region of a slice: that of its join entry. -/
def Slice.regionEnd (x : Slice) (r : ExRegion) : Option W64 :=
  match x.stack.reverse[r.depth]? with
  | some (.join a _ _) => some a
  | _ => none

/-- A slice whose named region no longer counts slice `i` among those that entered it. -/
def Slice.uncount (z : Slice) (i : Nat) (loop : Bool) (stop : W64) : Slice :=
  { z with ex := z.ex.map fun r =>
      if r.loop == loop && z.regionEnd r == some stop then { r with slices := r.slices &&& ~~~((1 : BitVec 16) <<< i) } else r }

/-- A gang that waits for slices no longer waits for slice `i`. -/
def Gang.uncount (g : Gang) (i : Nat) : Gang :=
  match g.wait with
  | .regang m => { g with wait := .regang (m &&& ~~~((1 : BitVec 16) <<< i)) }
  | _ => g

/-- Slice `i` has left a region without reaching its end: the other slices that entered do not wait for it there. -/
def Block.uncount (b : Block) (i : Nat) (loop : Bool) (stop : W64) : Block :=
  { b with
    slices := b.slices.map fun z => z.uncount i loop stop
    gangs := b.gangs.map fun g =>
      (g.1, if ((b.members g.1).head?.bind b.slice?).map (·.pc) == some stop then g.2.uncount i else g.2) }

/-- The regions of a slice, as it stood before, that it has left: the kind and the reconvergence address of each. -/
def Slice.leftRegions (old new : Slice) : List (Bool × W64) :=
  (old.ex.filter fun r => new.ex.all fun n => n.depth != r.depth).filterMap fun r => (old.regionEnd r).map fun a => (r.loop, a)

/-- Regions that the slices `ms` have left, as they stood before (`old`), without reaching their end: no lane of such a slice will
reconverge there, and the other slices that entered do not wait for it. -/
def Block.forsake (b old : Block) (ms : List Nat) : Block :=
  ms.foldl (fun b i =>
    match old.slice? i, b.slice? i with
    | some x, some y => (x.leftRegions y).foldl (fun b e => b.uncount i e.1 e.2) b
    | _, _ => b) b

/-- The slices of the unit change by `f`, which also says which of them have ended their region and now wait for the others
that entered it (R316); the gang parts. -/
def XU.region (x : XU) (f : Nat → Slice → Slice × Option (BitVec 16)) : Issue :=
  let u := x.u
  let res := u.slicesOf.map fun e => (e.1, f e.1 e.2)
  .own (Prog.all [Prog.when (res.any (·.2.2.isSome)) u.returnLoads, onBlock u.c u.b fun b =>
    let b := res.foldl (fun b e => b.modSlice e.1 fun _ => e.2.1) b
    let b := b.forsake u.blk ((res.filter (·.2.2.isNone)).map (·.1))
    let b := ((b.follow u.members).modGang u.g Gang.issued).part u.g
    let b := res.foldl (fun b e =>
      match e.2.2, b.slice? e.1 with
      | some mask, some y => b.modGang y.gang fun g => { g with wait := .regang mask }
      | _, _ => b) b
    b.tryRegang true, afterExit u.c u.b])

/-- Slices that a push of `n` entries would overflow (R45). -/
def XU.full (x : XU) (n : Nat) : List Nat := x.u.stackFull fun _ _ => n

def execExIf (f : ExForm) (s : State) : Host.Outcome State Fault Refusal :=
  runEx (.exIf f) (fun x s =>
    let els := fun i (y : Slice) => sliceMask i ((maskLanes i y.active).filter fun l => !x.p s 0 l)
    let full := x.u.stackFull fun i y => if y.braPushes (els i y) then 2 else 1
    if full ≠ [] then x.u.illegalAt full
    else x.region fun i y =>
      (y.openIf (els i y) (maskOf 16 x.u.members) (x.target 1) (x.target 2) x.u.next, none)) s

/-- Slices whose innermost region is not of the kind that the instruction closes. -/
def XU.stray (x : XU) (loop : Bool) : List Nat :=
  x.u.slicesOf.flatMap fun e =>
    if e.2.active != 0 && (match e.2.ex with | r :: _ => r.loop != loop | [] => true) then maskLanes e.1 e.2.active else []

def execExElse (s : State) : Host.Outcome State Fault Refusal :=
  runEx .exElse (fun x _ =>
    let bad := x.stray false
    if bad ≠ [] then illegalIn bad
    else x.region fun _ y =>
      match y.ex with
      | r :: _ => (y.atElse r x.u.next, none)
      | [] => (y, none)) s

/-- The end of a region in a slice, with the slices it then waits for. -/
def Slice.closed (y : Slice) (r : ExRegion) (here : W64) : Slice × Option (BitVec 16) :=
  let z := y.close r here 5
  (z.1, if z.2 then some r.slices else none)

def execExEndif (s : State) : Host.Outcome State Fault Refusal :=
  runEx .exEndif (fun x _ =>
    let bad := x.stray false
    if bad ≠ [] then illegalIn bad
    else x.region fun _ y =>
      match y.active == 0, y.ex with
      | false, r :: _ => y.closed r x.u.pc
      | _, _ => (y, none)) s

/-- `loop c, end`: with no iteration the lanes go straight to the end. -/
def execExLoop (f : ExForm) (s : State) : Host.Outcome State Fault Refusal :=
  runEx (.exLoop f) (fun x s =>
    let c := x.v1 s 0 32
    let full := x.full 1
    if full ≠ [] then x.u.illegalAt full
    else x.region fun _ y =>
      if y.active = 0 then (y, none)
      else
        let r : ExRegion :=
          { loop := true, depth := y.stack.length, slices := maskOf 16 x.u.members, start := x.u.next, remain := BitVec.ofNat 32 c }
        ({ y with stack := .join (x.target 1) y.active 0 :: y.stack, ex := r :: y.ex,
                  pc := if c = 0 then x.target 1 else x.u.next }, none)) s

def execExEndloop (s : State) : Host.Outcome State Fault Refusal :=
  runEx .exEndloop (fun x _ =>
    let bad := x.stray true
    if bad ≠ [] then illegalIn bad
    else x.region fun _ y =>
      match y.active == 0, y.ex with
      | false, r :: t =>
        if y.stack.length > r.depth && decide (r.remain.toNat > 1) then
          ({ y with pc := r.start, ex := { r with remain := r.remain - 1 } :: t }, none)
        else y.closed r x.u.pc
      | _, _ => (y, none)) s

def execExBrk (f : ExForm) (s : State) : Host.Outcome State Fault Refusal :=
  runEx (.exBrk f) (fun x s =>
    let bad := x.u.slicesOf.flatMap fun e =>
      if e.2.active != 0 && !(e.2.ex.any (·.loop)) then maskLanes e.1 e.2.active else []
    if bad ≠ [] then illegalIn bad
    else x.region fun i y =>
      match y.ex.find? (·.loop) with
      | some r => (y.leave r (sliceMask i (x.u.part.filter fun l => x.p s 0 l)) x.u.next, none)
      | none => (y, none)) s

/-- `bar`: `BAR` on the block's barrier 0. -/
def execExBar (s : State) : Host.Outcome State Fault Refusal :=
  runEx .exBar (fun x s => arriveOp x.u s (x.u.blk.barOf 0) true) s

/-- `sreg d`: a selector of R23, or the bound shape (R309). -/
def execExSreg (f : ExForm) (s : State) : Host.Outcome State Fault Refusal :=
  runEx (.exSreg f) (fun x s =>
    let sel := f.x 8 0
    .commit (x.put (x.dst 0) (x.u.part.map fun i =>
      (i, match sel with
        | 0x80 => x.u.grid.m.toNat | 0x81 => x.u.grid.n.toNat | 0x82 => x.u.grid.k.toNat
        | _ => x.u.special s sel i)))) s

def execExExit (f : ExForm) (s : State) : Host.Outcome State Fault Refusal :=
  runEx (.exExit f) (fun x _ =>
    match exitOp x.u with
    | .own p => .own (p.andThen (onBlock x.u.c x.u.b fun b => (b.forsake x.u.blk x.u.members).tryRegang true))
    | i => i) s

end Sys2Proof.Machine
end

