-- ==== Sys2Proof/Machine/Hart.lean ====
section
/-! DEFINITION. The loader and storer harts: RV64IMAC in machine mode (R280, log 12) and the six extension instructions
(R98, R281 to R283). -/

namespace Sys2Proof.Machine

/-! ## The hart that issues -/

/-- A hart at issue; `u` stands for it where an engine operation takes a unit. -/
structure HU where
  c : Nat
  st : Bool
  h : Hart
  next : W64
  u : U

/-- The stand-in block of a hart: no lanes, no scratchpad, agent 0 (R375). -/
def Hart.block (h : Hart) : Block :=
  { grid := h.grid, ctx := h.ctx, idx := 0, bx := 0, byy := 0, bz := 0, width := 4, n := 0, phys := [], lanes := [],
    slices := [], gangs := [], nextGang := 0 }

/-- The running hart that `cur` names; `len` is the instruction's length in bytes. -/
def hartOf (s : State) (len : Nat) : Option HU :=
  match s.cur with
  | .hart c st =>
    let h := if st then (s.core c).storer else (s.core c).loader
    if !h.run then none
    else
      match s.grid? h.grid, s.ctx? h.ctx with
      | some grid, some ctx =>
        let next := h.pc + BitVec.ofNat 64 len
        some { c, st, h, next,
               u := { c, b := if st then 1 else 0, g := 0, core := s.core c, blk := h.block,
                      gang := { wait := if h.wait = .hcpy then .cpyRoom else .ready }, grid, ctx, pc := h.pc, next,
                      slot := none, members := [], active := [0], part := [0], pre := s, hart := some st } }
      | _, _ => none
  | _ => none

def onHart (c : Nat) (st : Bool) (f : Hart → Hart) : Prog :=
  .one (.core c fun k => if st then { k with storer := f k.storer } else { k with loader := f k.loader })

def HU.on (a : HU) (f : Hart → Hart) : Prog := onHart a.c a.st f

/-- Register `i`; `x0` reads zero. -/
def Hart.reg (h : Hart) (i : Nat) : W64 := if i = 0 then 0 else cellGet h.x i

/-- A write to `x0` is discarded. -/
def Hart.setReg (h : Hart) (i : Nat) (v : W64) : Hart := if i = 0 then h else { h with x := cellSet h.x i v }

/-- The instruction has completed, and the hart goes on at an address. -/
def Hart.retire (h : Hart) (a : W64) : Hart :=
  { h with pc := a, wait := .ready, minstret := h.minstret + 1, mcycle := h.mcycle + 1 }

/-- Completion with a result in `rd`. -/
def HU.done (a : HU) (rd : Nat) (v : W64) : Prog := a.on fun h => (h.setReg rd v).retire a.next

/-- Completion at another address. -/
def HU.jump (a : HU) (rd : Nat) (v : W64) (t : W64) : Prog := a.on fun h => (h.setReg rd v).retire t

/-- An exception of the hart, at its `mtvec`: `mepc`, `mcause` and `mtval` are written, and MIE moves to MPIE (log 12). -/
def Hart.except (h : Hart) (cause : Nat) (val : W64) : Hart :=
  let mie := h.mstatus.getLsbD 3
  { h with
    mepc := h.pc, mcause := BitVec.ofNat 64 cause, mtval := val, wait := .ready
    mstatus := (h.mstatus &&& ~~~(0x88 : W64)) ||| (if mie then 0x80 else 0)
    pc := h.mtvec &&& ~~~(3 : W64) }

def HU.fault (a : HU) (cause : Nat) (val : W64) : Prog := a.on fun h => h.except cause val

/-- Runs a hart's instruction of `len` bytes. -/
def runHart (len : Nat) (f : HU → State → Prog) (s : State) : Host.Outcome State Fault Refusal :=
  match hartOf s len with
  | none => .fault .noIssuer
  | some a => .next ((f a s).run s)

/-! ## Access to memory (R280) -/

/-- The memory-model thread of a hart: it is no thread of a block (R333). -/
def HU.thr (_a : HU) : Nat := 128

/-- What a hart's access to global memory finds. -/
inductive HAcc where
  | ok (l : Loc)
  /-- The page is FILLING: the hart issues again. -/
  | busy
  | bad (cause : Nat) (p : Prog)

/-- R176 on an access of a hart, at user level and as agent 0; one that reaches a peer waits for credit (R417). -/
def HU.access (a : HU) (s : State) (use : Use3) (scope : Seg → Bool) (va : W64) (n : Nat) : HAcc :=
  match checkGlobal s a.h.ctx a.u.grid a.u.ctx 0 false use scope [{ lane := 0, va, size := n }] with
  | .ok =>
    match s.locate a.u.grid a.u.ctx va with
    | some (_, l) => if s.portsOpen (peerFlits [(l, 1)]) then .ok l else .busy
    | none => .busy
  | .filling _ => .busy
  | .trap t => .bad t.cause t.pre

/-- The translation that an access used is kept, and its request leaves for a peer (R395, R417). -/
def HU.keep (a : HU) (va : W64) : Prog :=
  (keepTrans a.h.ctx a.u.grid [va]).andThen (.read fun s =>
    spendReq (peerFlits (match s.locate a.u.grid a.u.ctx va with | some (_, l) => [(l, 1)] | none => [])))

/-- A plain load: misaligned is `mcause` 4 and a translation fault 5. -/
def HU.load (a : HU) (s : State) (va : W64) (n : Nat) (k : Nat → Prog) : Prog :=
  if va.toNat % n != 0 then a.fault 4 va
  else
    match a.access s .rd (fun _ => true) va n with
    | .busy => .done
    | .bad _ p => p.andThen (a.fault 5 va)
    | .ok l => .read fun t =>
        let hit := a.u.hits t .global { lane := 0, ea := va.toNat, size := n }
        Prog.all [a.keep va, a.u.touch false [(va, l)], if hit then landMet (dieOf a.c) l n else mergeRead (dieOf a.c) l n,
          .read fun t => k (leNat (seeBytes t a.c a.u.b a.thr hit l n))]

/-- A hart's write is performed in its own step, behind what its die has sent (log 5). -/
def HU.write (a : HU) (va : W64) (l : Loc) (bs : List Byte) : Prog :=
  Prog.all [a.keep va, homeTouch a.h.ctx 0 va l true, mergeRead (dieOf a.c) l bs.length, settleDie (dieOf a.c),
    tickClock (dieOf a.c) l va, .one (.write l bs)]

/-- What a hart's FENCE and AMO order is performed and applied (R342). -/
def HU.fullFence (a : HU) : Prog := (catchUp (dieOf a.c)).andThen (settleDie (dieOf a.c))

/-- A plain store: misaligned is `mcause` 6 and a translation fault 7. -/
def HU.store (a : HU) (s : State) (va : W64) (n : Nat) (v : W64) : Prog :=
  if va.toNat % n != 0 then a.fault 6 va
  else
    match a.access s .wr (fun _ => true) va n with
    | .busy => .done
    | .bad _ p => p.andThen (a.fault 7 va)
    | .ok l => (a.write va l (leBytes v.toNat n)).andThen (a.on fun h => h.retire a.next)

/-! ## RV64IMAC (log 12) -/

/-- A 32-bit result, sign-extended. -/
def sext32 (v : W32) : W64 := v.signExtend 64

/-- Register-register operations of OP by funct7 and funct3. -/
def rvOp (f7 f3 : Nat) (a b : W64) : Option W64 :=
  let sh := b.toNat % 64
  match f7, f3 with
  | 0x00, 0 => some (a + b)
  | 0x20, 0 => some (a - b)
  | 0x00, 1 => some (a <<< sh)
  | 0x00, 2 => some (if a.slt b then 1 else 0)
  | 0x00, 3 => some (if a.ult b then 1 else 0)
  | 0x00, 4 => some (a ^^^ b)
  | 0x00, 5 => some (a >>> sh)
  | 0x20, 5 => some (a.sshiftRight sh)
  | 0x00, 6 => some (a ||| b)
  | 0x00, 7 => some (a &&& b)
  | 0x01, 0 => some (a * b)
  | 0x01, 1 => some (BitVec.ofInt 64 (Int.fdiv (a.toInt * b.toInt) (2 ^ 64)))
  | 0x01, 2 => some (BitVec.ofInt 64 (Int.fdiv (a.toInt * b.toNat) (2 ^ 64)))
  | 0x01, 3 => some (BitVec.ofNat 64 (a.toNat * b.toNat / 2 ^ 64))
  | 0x01, 4 => some (if b = 0 then -1 else BitVec.ofInt 64 (Int.tdiv a.toInt b.toInt))
  | 0x01, 5 => some (if b = 0 then -1 else a / b)
  | 0x01, 6 => some (if b = 0 then a else BitVec.ofInt 64 (Int.tmod a.toInt b.toInt))
  | 0x01, 7 => some (if b = 0 then a else a % b)
  | _, _ => none

/-- Operations of OP-32. -/
def rvOp32 (f7 f3 : Nat) (a b : W32) : Option W32 :=
  let sh := b.toNat % 32
  match f7, f3 with
  | 0x00, 0 => some (a + b)
  | 0x20, 0 => some (a - b)
  | 0x00, 1 => some (a <<< sh)
  | 0x00, 5 => some (a >>> sh)
  | 0x20, 5 => some (a.sshiftRight sh)
  | 0x01, 0 => some (a * b)
  | 0x01, 4 => some (if b = 0 then -1 else BitVec.ofInt 32 (Int.tdiv a.toInt b.toInt))
  | 0x01, 5 => some (if b = 0 then -1 else a / b)
  | 0x01, 6 => some (if b = 0 then a else BitVec.ofInt 32 (Int.tmod a.toInt b.toInt))
  | 0x01, 7 => some (if b = 0 then a else a % b)
  | _, _ => none

/-- Immediate operations of OP-IMM; a shift's count has six bits. -/
def rvOpImm (w : W32) (a : W64) : Option W64 :=
  let imm := (bits 12 w 20).signExtend 64
  let f3 := (bits 3 w 12).toNat
  match f3 with
  | 1 => if bits 6 w 26 == 0 then rvOp 0 1 a imm else none
  | 5 =>
    if bits 6 w 26 == 0 then rvOp 0 5 a imm
    else if bits 6 w 26 == 0x10 then rvOp 0x20 5 a imm
    else none
  | _ => rvOp 0 f3 a imm

/-- Immediate operations of OP-IMM-32; a shift's count has five bits. -/
def rvOpImm32 (w : W32) (a : W32) : Option W32 :=
  let imm := (bits 12 w 20).signExtend 32
  match (bits 3 w 12).toNat with
  | 0 => some (a + imm)
  | 1 => if bits 7 w 25 == 0 then rvOp32 0 1 a imm else none
  | 5 => if bits 7 w 25 == 0 then rvOp32 0 5 a imm else if bits 7 w 25 == 0x20 then rvOp32 0x20 5 a imm else none
  | _ => none

/-- Branch conditions. -/
def rvCond (f3 : Nat) (a b : W64) : Option Bool :=
  match f3 with
  | 0 => some (a == b) | 1 => some (a != b) | 4 => some (a.slt b) | 5 => some (!a.slt b)
  | 6 => some (a.ult b) | 7 => some (!a.ult b)
  | _ => none

/-- Immediates of the S, B, U and J layouts. -/
def immS (w : W32) : W64 := (bits 7 w 25 ++ bits 5 w 7 : BitVec 12).signExtend 64
def immB (w : W32) : W64 := (bits 1 w 31 ++ bits 1 w 7 ++ bits 6 w 25 ++ bits 4 w 8 ++ 0#1 : BitVec 13).signExtend 64
def immU (w : W32) : W64 := (bits 20 w 12 ++ 0#12 : BitVec 32).signExtend 64
def immJ (w : W32) : W64 := (bits 1 w 31 ++ bits 8 w 12 ++ bits 1 w 20 ++ bits 10 w 21 ++ 0#1 : BitVec 21).signExtend 64

/-- A loaded value by funct3. -/
def rvLoadVal (f3 x : Nat) : W64 :=
  match f3 with
  | 0 => (BitVec.ofNat 8 x).signExtend 64
  | 1 => (BitVec.ofNat 16 x).signExtend 64
  | 2 => (BitVec.ofNat 32 x).signExtend 64
  | _ => BitVec.ofNat 64 x

/-- The new value of an AMO of `n` bytes by funct5. -/
def rvAmo (f5 n old b : Nat) : Option Nat :=
  let w := 8 * n
  match f5 with
  | 0x00 => some ((old + b) % 2 ^ w)
  | 0x01 => some (b % 2 ^ w)
  | 0x04 => some (old ^^^ (b % 2 ^ w))
  | 0x08 => some (old ||| (b % 2 ^ w))
  | 0x0C => some (old &&& b)
  | 0x10 => some (if intVal true w b < intVal true w old then b % 2 ^ w else old)
  | 0x14 => some (if intVal true w b > intVal true w old then b % 2 ^ w else old)
  | 0x18 => some (min old (b % 2 ^ w))
  | 0x1C => some (max old (b % 2 ^ w))
  | _ => none

/-- The value read of `n` bytes, sign-extended. -/
def rvSext (n x : Nat) : W64 := if n = 4 then (BitVec.ofNat 32 x).signExtend 64 else BitVec.ofNat 64 x

/-- AMO, LR and SC (R280): an AMO executes at the home slice at device scope. SC succeeds at the reserved location while
it holds the value that LR read (log 12). -/
def HU.amo (a : HU) (s : State) (w : W32) (rd : Nat) (x y : W64) : Prog :=
  let n := if bits 3 w 12 == 2 then 4 else 8
  let f5 := (bits 5 w 27).toNat
  if !(bits 3 w 12 == 2 || bits 3 w 12 == 3) || (f5 == 2 && bits 5 w 20 != 0)
      || (f5 != 2 && f5 != 3 && (rvAmo f5 n 0 0).isNone) then a.fault 2 (w.setWidth 64)
  else if x.toNat % n != 0 then a.fault (if f5 = 2 then 4 else 6) x
  else
    match a.access s (if f5 = 2 then .rd else if f5 = 3 then .wr else .rw) (atomSeg .dev) x n with
    | .busy => .done
    | .bad _ p => p.andThen (a.fault (if f5 = 2 then 5 else 7) x)
    | .ok l =>
      if f5 = 2 then
        Prog.all [a.keep x, a.fullFence, homeTouch a.h.ctx 0 x l false, .read fun t =>
          let v := rvSext n (leNat (t.readBytes l n))
          a.on fun h => { ((h.setReg rd v).retire a.next) with resv := some (l, v) }]
      else if f5 = 3 then
        (mergeRead (dieOf a.c) l n).andThen <| .read fun t =>
          let ok := a.h.resv == some (l, rvSext n (leNat (t.readBytes l n)))
          Prog.all [Prog.when ok (a.write x l (leBytes y.toNat n)),
            a.on fun h => { ((h.setReg rd (if ok then 0 else 1)).retire a.next) with resv := none }]
      else
        let es := if l.sp = 0 then [atomRec l.a [a.h.grid, 2 ^ 32 + 2 * a.c + (if a.st then 1 else 0), 0]] else []
        if !s.replayAllows a.h.ctx es then .done
        else
          Prog.all [a.keep x, a.fullFence, homeTouch a.h.ctx 0 x l true,
            rmw [(l, n)] n (fun old => (rvAmo f5 n old y.toNat).getD old) fun old =>
              Prog.all [tickClock (dieOf a.c) l x, Prog.each es (orderAtomic a.h.ctx), a.done rd (rvSext n old)]]

/-- Control and status registers; no other exists (log 12). -/
def Hart.csr (h : Hart) (id : W64) (n : Nat) : Option W64 :=
  match n with
  | 0x300 => some h.mstatus
  | 0x301 => some 0x8000000000001105
  | 0x304 => some h.mie
  | 0x305 => some h.mtvec
  | 0x340 => some h.mscratch
  | 0x341 => some h.mepc
  | 0x342 => some h.mcause
  | 0x343 => some h.mtval
  | 0x344 => some 0
  | 0xB00 => some h.mcycle
  | 0xB02 => some h.minstret
  | 0xF11 | 0xF12 | 0xF13 => some 0
  | 0xF14 => some id
  | _ => if (0xB03 ≤ n ∧ n ≤ 0xB1F) ∨ (0x323 ≤ n ∧ n ≤ 0x33F) then some 0 else none

/-- Writes a register: the fields that machine mode alone gives `mstatus`, an even `mepc`, direct or vectored `mtvec`. -/
def Hart.setCsr (h : Hart) (n : Nat) (v : W64) : Hart :=
  match n with
  | 0x300 => { h with mstatus := 0x1800 ||| (v &&& 0x88) }
  | 0x304 => { h with mie := v &&& 0x888 }
  | 0x305 => { h with mtvec := v &&& ~~~(2 : W64) }
  | 0x340 => { h with mscratch := v }
  | 0x341 => { h with mepc := v &&& ~~~(1 : W64) }
  | 0x342 => { h with mcause := v }
  | 0x343 => { h with mtval := v }
  | 0xB00 => { h with mcycle := v }
  | 0xB02 => { h with minstret := v }
  | _ => h

/-- The number a hart reads as its own: core of the die, and which hart (log 12). -/
def HU.id (a : HU) : W64 := BitVec.ofNat 64 (2 * (a.c % 48) + (if a.st then 1 else 0))

/-- `CSRRW` and its forms. -/
def HU.csrOp (a : HU) (w : W32) (rd : Nat) : Prog :=
  let f3 := (bits 3 w 12).toNat
  let n := (bits 12 w 20).toNat
  let r := (bits 5 w 15).toNat
  let v := if f3 ≥ 4 then BitVec.ofNat 64 r else a.h.reg r
  let writes := f3 % 4 == 1 || r != 0
  match a.h.csr a.id n with
  | none => a.fault 2 (w.setWidth 64)
  | some old =>
    if writes && decide (n ≥ 0xC00) then a.fault 2 (w.setWidth 64)
    else
      let new := match f3 % 4 with | 1 => v | 2 => old ||| v | _ => old &&& ~~~v
      a.on fun h =>
        let h := (h.setReg rd old).retire a.next
        if writes then h.setCsr n new else h

/-- SYSTEM words. -/
def HU.system (a : HU) (w : W32) (rd : Nat) : Prog :=
  match w.toNat with
  | 0x00000073 => a.fault 11 0
  | 0x00100073 => a.fault 3 a.h.pc
  | 0x10500073 => a.on fun h => h.retire a.next
  | 0x30200073 => a.on fun h =>
      let mpie := h.mstatus.getLsbD 7
      { (h.retire h.mepc) with mstatus := 0x1880 ||| (if mpie then 8 else 0) }
  | _ => if bits 3 w 12 == 0 || bits 3 w 12 == 4 then a.fault 2 (w.setWidth 64) else a.csrOp w rd

/-- A 32-bit instruction word; `raw` is the word as fetched, which an illegal one reports. -/
def HU.run32 (a : HU) (s : State) (raw w : W32) : Prog :=
  let rd := (bits 5 w 7).toNat
  let f3 := (bits 3 w 12).toNat
  let f7 := (bits 7 w 25).toNat
  let x := a.h.reg (bits 5 w 15).toNat
  let y := a.h.reg (bits 5 w 20).toNat
  let ill := a.fault 2 (raw.setWidth 64)
  let put := fun (r : Option W64) => match r with | some v => a.done rd v | none => ill
  match (bits 7 w 0).toNat with
  | 0x37 => a.done rd (immU w)
  | 0x17 => a.done rd (a.h.pc + immU w)
  | 0x6F => a.jump rd a.next (a.h.pc + immJ w)
  | 0x67 => if f3 = 0 then a.jump rd a.next ((x + (bits 12 w 20).signExtend 64) &&& ~~~(1 : W64)) else ill
  | 0x63 =>
    match rvCond f3 x y with
    | some t => a.jump 0 0 (if t then a.h.pc + immB w else a.next)
    | none => ill
  | 0x03 =>
    if f3 = 7 then ill
    else a.load s (x + (bits 12 w 20).signExtend 64) (2 ^ (f3 % 4)) fun v => a.done rd (rvLoadVal f3 v)
  | 0x23 => if f3 ≥ 4 then ill else a.store s (x + immS w) (2 ^ f3) y
  | 0x13 => put (rvOpImm w x)
  | 0x1B => put ((rvOpImm32 w (x.setWidth 32)).map sext32)
  | 0x33 => put (rvOp f7 f3 x y)
  | 0x3B => put ((rvOp32 f7 f3 (x.setWidth 32) (y.setWidth 32)).map sext32)
  | 0x2F => a.amo s w rd x y
  | 0x0F =>
    if f3 = 0 then a.fullFence.andThen (a.on fun h => h.retire a.next)
    else if f3 = 1 then a.on fun h => h.retire a.next
    else ill
  | 0x73 => a.system w rd
  | _ => ill

/-! ### Compressed instructions -/

/-- Words of the I, S, B, R, U and J layouts from their fields. -/
def mkI (imm : BitVec 12) (rs1 : BitVec 5) (f3 : BitVec 3) (rd : BitVec 5) (op : BitVec 7) : W32 := imm ++ rs1 ++ f3 ++ rd ++ op
def mkS (imm : BitVec 12) (rs2 rs1 : BitVec 5) (f3 : BitVec 3) : W32 :=
  bits 7 imm 5 ++ rs2 ++ rs1 ++ f3 ++ bits 5 imm 0 ++ 0x23#7
def mkR (f7 : BitVec 7) (rs2 rs1 : BitVec 5) (f3 : BitVec 3) (rd : BitVec 5) (op : BitVec 7) : W32 :=
  f7 ++ rs2 ++ rs1 ++ f3 ++ rd ++ op
def mkB (imm : BitVec 13) (rs1 : BitVec 5) (f3 : BitVec 3) : W32 :=
  bits 1 imm 12 ++ bits 6 imm 5 ++ 0#5 ++ rs1 ++ f3 ++ bits 4 imm 1 ++ bits 1 imm 11 ++ 0x63#7
def mkJ (imm : BitVec 21) (rd : BitVec 5) : W32 :=
  bits 1 imm 20 ++ bits 10 imm 1 ++ bits 1 imm 11 ++ bits 8 imm 12 ++ rd ++ 0x6F#7

/-- A register of the eight that a three-bit field names. -/
def cReg (h : BitVec 16) (l : Nat) : BitVec 5 := 1#2 ++ bits 3 h l

/-- The six-bit immediate of the CI layout. -/
def cImm (h : BitVec 16) : BitVec 12 := (bits 1 h 12 ++ bits 5 h 2 : BitVec 6).signExtend 12

/-- Offsets of the CJ and CB layouts. -/
def cJump (h : BitVec 16) : BitVec 21 :=
  (bits 1 h 12 ++ bits 1 h 8 ++ bits 2 h 9 ++ bits 1 h 6 ++ bits 1 h 7 ++ bits 1 h 2 ++ bits 1 h 11 ++ bits 3 h 3 ++ 0#1
    : BitVec 12).signExtend 21
def cBranch (h : BitVec 16) : BitVec 13 :=
  (bits 1 h 12 ++ bits 2 h 5 ++ bits 1 h 2 ++ bits 2 h 10 ++ bits 2 h 3 ++ 0#1 : BitVec 9).signExtend 13

/-- The 32-bit word that a compressed instruction of quadrant 0 stands for. -/
def expand0 (h : BitVec 16) : Option W32 :=
  let w4 := (0#5 ++ bits 1 h 5 ++ bits 3 h 10 ++ bits 1 h 6 ++ 0#2 : BitVec 12)
  let w8 := (0#4 ++ bits 2 h 5 ++ bits 3 h 10 ++ 0#3 : BitVec 12)
  match (bits 3 h 13).toNat with
  | 0 =>
    let imm := (0#2 ++ bits 4 h 7 ++ bits 2 h 11 ++ bits 1 h 5 ++ bits 1 h 6 ++ 0#2 : BitVec 12)
    if imm == 0 then none else some (mkI imm 2 0 (cReg h 2) 0x13)
  | 2 => some (mkI w4 (cReg h 7) 2 (cReg h 2) 0x03)
  | 3 => some (mkI w8 (cReg h 7) 3 (cReg h 2) 0x03)
  | 6 => some (mkS w4 (cReg h 2) (cReg h 7) 2)
  | 7 => some (mkS w8 (cReg h 2) (cReg h 7) 3)
  | _ => none

/-- Quadrant 1. -/
def expand1 (h : BitVec 16) : Option W32 :=
  let rd := bits 5 h 7
  let imm := cImm h
  let r := cReg h 7
  match (bits 3 h 13).toNat with
  | 0 => some (mkI imm rd 0 rd 0x13)
  | 1 => if rd == 0 then none else some (mkI imm rd 0 rd 0x1B)
  | 2 => some (mkI imm 0 0 rd 0x13)
  | 3 =>
    if imm == 0 then none
    else if rd == 2 then
      let n := (bits 1 h 12 ++ bits 2 h 3 ++ bits 1 h 5 ++ bits 1 h 2 ++ bits 1 h 6 ++ 0#4 : BitVec 10).signExtend 12
      some (mkI n 2 0 2 0x13)
    else some (imm.signExtend 20 ++ rd ++ 0x37#7)
  | 4 =>
    match (bits 2 h 10).toNat with
    | 0 => some (mkI (0#6 ++ bits 1 h 12 ++ bits 5 h 2) r 5 r 0x13)
    | 1 => some (mkI (0x10#6 ++ bits 1 h 12 ++ bits 5 h 2) r 5 r 0x13)
    | 2 => some (mkI imm r 7 r 0x13)
    | _ =>
      let q := cReg h 2
      match (bits 1 h 12).toNat, (bits 2 h 5).toNat with
      | 0, 0 => some (mkR 0x20 q r 0 r 0x33)
      | 0, 1 => some (mkR 0 q r 4 r 0x33)
      | 0, 2 => some (mkR 0 q r 6 r 0x33)
      | 0, _ => some (mkR 0 q r 7 r 0x33)
      | _, 0 => some (mkR 0x20 q r 0 r 0x3B)
      | _, 1 => some (mkR 0 q r 0 r 0x3B)
      | _, _ => none
  | 5 => some (mkJ (cJump h) 0)
  | 6 => some (mkB (cBranch h) r 0)
  | _ => some (mkB (cBranch h) r 1)

/-- Quadrant 2. -/
def expand2 (h : BitVec 16) : Option W32 :=
  let rd := bits 5 h 7
  let rs2 := bits 5 h 2
  match (bits 3 h 13).toNat with
  | 0 => some (mkI (0#6 ++ bits 1 h 12 ++ bits 5 h 2) rd 1 rd 0x13)
  | 2 => if rd == 0 then none else some (mkI (0#4 ++ bits 2 h 2 ++ bits 1 h 12 ++ bits 3 h 4 ++ 0#2) 2 2 rd 0x03)
  | 3 => if rd == 0 then none else some (mkI (0#3 ++ bits 3 h 2 ++ bits 1 h 12 ++ bits 2 h 5 ++ 0#3) 2 3 rd 0x03)
  | 4 =>
    if bits 1 h 12 == 0 then
      if rs2 == 0 then (if rd == 0 then none else some (mkI 0 rd 0 0 0x67))
      else some (mkR 0 rs2 0 0 rd 0x33)
    else if rs2 == 0 then (if rd == 0 then some 0x00100073#32 else some (mkI 0 rd 0 1 0x67))
    else some (mkR 0 rs2 rd 0 rd 0x33)
  | 6 => some (mkS (0#4 ++ bits 2 h 7 ++ bits 4 h 9 ++ 0#2) rs2 2 2)
  | 7 => some (mkS (0#3 ++ bits 3 h 7 ++ bits 3 h 10 ++ 0#3) rs2 2 3)
  | _ => none

/-- The 32-bit word that a compressed instruction stands for. -/
def expandC (h : BitVec 16) : Option W32 :=
  match (bits 2 h 0).toNat with
  | 0 => expand0 h
  | 1 => expand1 h
  | _ => expand2 h

/-- Length in bytes of the instruction at the start of a word. -/
def hartLen (w : W32) : Nat := if bits 2 w 0 == 3 then 4 else 2

/-- `HART_BASE_INSTRUCTION` (R280). -/
def execHartBaseInstruction (w : BitVec 32) (s : State) : Host.Outcome State Fault Refusal :=
  runHart (hartLen w) (fun a s =>
    if hartLen w = 4 then a.run32 s w w
    else
      match expandC (bits 16 w 0) with
      | some v => a.run32 s ((bits 16 w 0).setWidth 32) v
      | none => a.fault 2 ((bits 16 w 0).setWidth 64)) s

/-! ## The extension instructions (R281 to R283) -/

/-- R281: failure with a trap cause; there is no other effect. -/
def HU.fail (a : HU) (rd cause : Nat) : Prog := a.done rd (BitVec.ofNat 64 (2 ^ 63 + cause))

/-- The hart waits, and issues the instruction again. -/
def HU.wait (a : HU) (w : HartWait) (p : Prog) : Prog := p.andThen (a.on fun h => { h with wait := w })

/-- R281: `rs2` must be `x0`. -/
def HU.noRs2 (a : HU) (f3 : BitVec 3) (f : HForm) (k : Prog) : Prog :=
  if f.rs2 == 0 then k else a.fault 2 ((putH f3 f).setWidth 64)

/-- The 16-bit fields of a copy control block: word `i / 4` of the parameter block at byte 24. -/
def ccbField (ccb : List Byte) (i : Nat) : Nat := leNat ((ccb.drop (24 + 2 * i)).take 2)

/-- R282: what a control block must satisfy beyond R273. -/
def ccbBad (ccb : List Byte) : Bool :=
  let ctl := leNat ((ccb.drop 16).take 8)
  decide (ctl ≥ 2 ^ 18) || (List.range 16).any (fun i => decide (ccbField ccb i ≥ 2 ^ 15))
    || leNat ((ccb.drop 56).take 8) != 0

/-- R282: the copy that a control block describes. ALLOC with CON, and PART, SCOPE or a read count without ALLOC, which the rule does
not speak of, are accepted: the model's choice (log 85). -/
def HU.copy (a : HU) (s : State) (rd : Nat) (ccb : List Byte) : Prog :=
  let ctl := leNat ((ccb.drop 16).take 8)
  let alloc := ctl % 2 == 1
  if ccbBad ccb then a.fail rd cIllegal
  else
    match copyOp a.u s (ccbField ccb) (leNat (ccb.take 8)) (if alloc then 0 else leNat ((ccb.drop 8).take 8)) alloc
        (ctl / 2 % 2 == 1) (ctl / 4 % 8) (ctl / 32 % 2 == 1) (ctl / 64 % 4096) .done
        (fun h => a.on fun k => k.setReg rd (BitVec.ofNat 64 h)) with
    | .trap t => a.fail rd t.cause
    | .wait _ p => a.wait .hcpy p
    | .commit p =>
      if alloc then p.andThen (a.on fun h => h.retire a.next) else p.andThen (a.done rd 0)
    | _ => .done

/-- `HCPY` (R282). -/
def execHcpy (f : HForm) (s : State) : Host.Outcome State Fault Refusal :=
  runHart 4 (fun a s => a.noRs2 0 f <|
    let rd := f.rd.toNat
    let va := a.h.reg f.rs1.toNat
    if va.toNat % 64 != 0 then a.fail rd cIllegal
    else
      match a.access s .rd (fun _ => true) va 64 with
      | .busy => .done
      | .bad cause _ => a.fail rd cause
      | .ok l => (a.keep va).andThen (a.copy s rd (s.readBytes l 64))) s

/-- `HWAIT` (R281). -/
def execHwait (f : HForm) (s : State) : Host.Outcome State Fault Refusal :=
  runHart 4 (fun a s => a.noRs2 1 f <|
    let n := (s.queueOf a.c a.u.b).ops.length
    if n ≤ min (a.h.reg f.rs1.toNat).toNat 16 then a.done f.rd.toNat (BitVec.ofNat 64 n) else a.wait .hwait .done) s

/-- `HALLOC` (R281). -/
def execHalloc (f : HForm) (s : State) : Host.Outcome State Fault Refusal :=
  runHart 4 (fun a s =>
    let rd := f.rd.toNat
    let size := (a.h.reg f.rs1.toNat).toNat
    let y := (a.h.reg f.rs2.toNat).toNat
    let p := y / 2 ^ 12 % 8
    let ker := y / 2 ^ 15 % 2 == 1
    let k := clusterOf a.c
    match (a.u.parts s)[p]? with
    | none => a.fail rd cIllegal
    | some q =>
      if y ≥ 2 ^ 16 || allocBad q size (y % 2 ^ 12) then a.fail rd cIllegal
      else if q.mayGrant true a.c a.u.b 0 size then
        (onPart k p fun q => q.unqueue true a.c a.u.b 0).andThen
          (allocTile k p a.h.ctx size (y % 2 ^ 12) ker a.u.owner 0 fun h => a.done rd (BitVec.ofNat 64 h))
      else
        a.wait .halloc (onPart k p fun q => q.enqueue
          { hart := true, core := a.c, key := a.u.b, gang := 0, copy := true, size, count := y % 2 ^ 12, ker, dst := 0,
            slot := none })) s

/-- `HPOST` (R281): the tile is sealed first if it is WRITING and the hart's own. -/
def execHpost (f : HForm) (s : State) : Host.Outcome State Fault Refusal :=
  runHart 4 (fun a s =>
    let rd := f.rd.toNat
    let h := (a.h.reg f.rs1.toNat).toNat % 2 ^ 32
    let q := (a.h.reg f.rs2.toNat).toNat % 32
    let k := clusterOf a.c
    let parts := a.u.parts s
    let own := match tileCheck parts a.u.owner h .seal with | .inr _ => true | .inl _ => false
    match a.u.grid.flume? q with
    | none => a.fail rd cIllegal
    | some (part, ncur) =>
      let post :=
        let fl := takeFlume ((s.core a.c).flume q) a.h.grid part ncur
        if hPart h != part then a.fail rd cTileHandle
        else if fl.full then a.fail rd cFlumeOverflow
        else Prog.all [settleDie (dieOf a.c), a.u.dropTile, Prog.when own (sealTile k h), a.u.onFlume q fun fl => fl.post h, a.done rd 0]
      if own then post
      else match tileCheck parts a.u.owner h .post with | .inl cause => a.fail rd cause | .inr _ => post) s

/-- `HSIG` (R281). -/
def execHsig (f : HForm) (s : State) : Host.Outcome State Fault Refusal :=
  runHart 4 (fun a s =>
    let rd := f.rd.toNat
    let m := (a.h.reg f.rs1.toNat).toNat % 2 ^ 12
    match mailTo s m 2 a.h.ctx (leBytes (a.h.reg f.rs2.toNat).toNat 8) with
    | .bad _ => a.fail rd cPermission
    | .full => a.wait (.hsig m) .done
    | .ok p => Prog.all [settleDie (dieOf a.c), p, a.done rd 0]) s

/-- `HSLEEP` (R283). -/
def execHsleep (f : HForm) (s : State) : Host.Outcome State Fault Refusal :=
  runHart 4 (fun a s => a.noRs2 5 f <|
    let rd := f.rd.toNat
    let n := (a.h.reg f.rs1.toNat).toNat
    if n = 0 then a.done rd 1
    else
      match a.h.wait with
      | .hsleep due =>
        let late := decide (due ≤ s.sys.time)
        if late || a.h.wake != 0 then
          a.on fun h => { ((h.setReg rd ((a.h.wake.setWidth 64) ||| (if late then 1 else 0))).retire a.next) with wake := 0 }
        else .done
      | _ => a.on fun h => { h with wait := .hsleep (s.sys.time + n), wake := 0 }) s

end Sys2Proof.Machine
end

