-- ==== Sys2Proof/Machine/Sched.lean ====
section
/-! DEFINITION. Time and the device's own events: grants of tiles, leases and power (07 R212 to R215, R228, R229; 09 R294, R295;
12 R377 to R381), heat and page moves (12 R364 to R370; 13 R406), invalidation (13 R399 to R401), the Rill generator
(04 R123) and instruction samples (14 R428). -/

namespace Sys2Proof.Machine

/-! ## Time (R7) -/

/-- Lane cycles pass in a cluster: a lease's cycles run down (R228) and the stall counters of partitions with a waiting
request run up (R215). -/
def Cluster.pass (ns : Nat) (q : Cluster) : Cluster :=
  let t := q.frac + ns * q.ghz * q.ratio
  let n := t / 20
  { q with
    frac := t % 20, lease := q.lease.map fun l => { l with cyc := l.cyc - n }
    parts := q.parts.map fun p => if p.reqs.isEmpty then p else { p with stall := min (2 ^ 22) (p.stall + n) } }

/-- Nanoseconds pass, and every core's next issue falls in a new issue slot (log 7). -/
def passTime (ns : Nat) : Prog :=
  .read fun s =>
    Prog.all [.one (.sys fun y => { y with time := y.time + ns }),
      Prog.each s.clusters fun e => .one (.clus e.1 (Cluster.pass ns)),
      Prog.each (s.cores.filter fun e => e.2.slot != {}) fun e => .one (.core e.1 fun k => { k with slot := {} })]

/-! ## Sleep (R267) -/

/-- SLEEP_DEADLINE: arguments core, block, gang. -/
def sleepDeadline (s : State) : Prog :=
  match s.block? (s.arg 0) (s.arg 1) with
  | none => .done
  | some blk =>
    match blk.gangs.get? (s.arg 2) with
    | none => .done
    | some x =>
      match x.wait with
      | .sleep due adv =>
        Prog.when (decide (due ≤ s.sys.time))
          (onBlock (s.arg 0) (s.arg 1) fun b => b.endWait (s.arg 2) adv (waitLen (s.isExdin blk.grid) x))
      | _ => .done
def execSleepDeadline (s : State) : Host.Outcome State Fault Refusal := runEvent sleepDeadline s

/-! ## Tiles (R212, R214, R215) -/

/-- Whoever made a request still waits for it. -/
def State.stillWaits (s : State) (r : AllocReq) : Bool :=
  if r.hart then
    let h := if r.key = 1 then (s.core r.core).storer else (s.core r.core).loader
    h.run && (h.wait == .halloc || h.wait == .hcpy)
  else
    match (s.block? r.core r.key).bind fun b => b.gangs.get? r.gang with
    | some x => x.wait == .talloc || x.wait == .cpyAlloc
    | none => false

/-- The gang of a request may issue again. -/
def readyGang (c b g : Nat) : Prog := onGang c b g fun x => { x with wait := .ready }

/-- The tile of a waiting `TALLOC` is placed, its handle written, and its gang goes on (R214). -/
def grantTalloc (k p : Nat) (r : AllocReq) (blk : Block) : Prog :=
  let owner : Owner := { hart := false, core := r.core, key := r.key, grid := blk.grid, bx := blk.bx, byy := blk.byy, bz := blk.bz }
  (onPart k p fun q => q.unqueue false r.core r.key r.gang).andThen
    (allocTile k p blk.ctx r.size r.count r.ker owner blk.agent fun h =>
      onBlock r.core r.key fun b =>
        ((b.members r.gang).foldl (fun b i => b.modSlice i fun x => x.setS (r.dst.toNat - 0xC0) (BitVec.ofNat 64 h)) b).endWait
          r.gang true 8)

/-- TILE_GRANT: arguments cluster, partition. The oldest request is granted when a run is free; one whose issuer no longer
waits leaves the order. -/
def tileGrant (s : State) : Prog :=
  let k := s.arg 0
  let p := s.arg 1
  match (s.cluster k).parts[p]? with
  | none => .done
  | some q =>
    match q.reqs with
    | [] => .done
    | r :: _ =>
      if !s.stillWaits r then onPart k p fun q => { q with reqs := q.reqs.drop 1 }
      else if (q.freeRun r.size).isNone then .done
      else if r.hart then
        .one (.core r.core fun c =>
          if r.key = 1 then { c with storer := { c.storer with wait := .ready } } else { c with loader := { c.loader with wait := .ready } })
      else if r.copy then readyGang r.core r.key r.gang
      else
        match s.block? r.core r.key with
        | some blk => grantTalloc k p r blk
        | none => .done
def execTileGrant (s : State) : Host.Outcome State Fault Refusal := runEvent tileGrant s

/-- The lanes and slots that a waiting request's trap names: a slot's lane, or the lanes whose guard passes. -/
def State.reqRec (s : State) (r : AllocReq) (cause : Nat) : Rec :=
  let t := { s with cur := .gang r.core r.key r.gang }
  match unitOf t 0 with
  | none => { cause, lanes := [] }
  | some u =>
    match r.slot with
    | some j => { cause, lanes := [4 * u.members.headD 0 + j], slots := (1 : BitVec 16) <<< j }
    | none => { cause, lanes := if u.inExdin then [] else (u.guarded (wordGuard (BitVec.ofNat 64 (u.head t)))).part }

/-- POOL_STALL: arguments cluster, partition. Every waiting gang takes the cause at its instruction and every waiting hart
receives it, when the counter has reached 2^22 (R215, R281). -/
def poolStall (s : State) : Prog :=
  let k := s.arg 0
  let p := s.arg 1
  match (s.cluster k).parts[p]? with
  | none => .done
  | some q =>
    if q.stall < 2 ^ 22 then .done
    else
      Prog.all [
        onPart k p fun q => { q with stall := 0, reqs := [] },
        Prog.each (q.reqs.filter s.stillWaits) fun r =>
          if r.hart then
            .one (.core r.core fun c =>
              let f := fun (h : Hart) =>
                let w := leNat ((h.store.drop h.pc.toNat).take 4)
                let rd := w / 2 ^ 7 % 32
                { h with x := if rd = 0 then h.x else cellSet h.x rd (BitVec.ofNat 64 (2 ^ 63 + cPoolStall)), pc := h.pc + 4,
                         wait := .ready, minstret := h.minstret + 1, mcycle := h.mcycle + 1 }
              if r.key = 1 then { c with storer := f c.storer } else { c with loader := f c.loader })
          else
            match (s.block? r.core r.key) with
            | none => .done
            | some b =>
              let pc := (((b.members r.gang).head?.bind b.slice?).map (·.pc)).getD 0
              takeTrap r.core r.key r.gang { cause := cPoolStall, recs := [s.reqRec r cPoolStall] } pc pc]
def execPoolStall (s : State) : Host.Outcome State Fault Refusal := runEvent poolStall s

/-- TILE_DRAIN: arguments cluster, partition, granule. A DRAINING tile whose issued reads have completed leaves (R212). -/
def tileDrain (s : State) : Prog :=
  let k := s.arg 0
  let p := s.arg 1
  let g := s.arg 2
  match (s.cluster k).parts[p]?.bind fun q => q.tiles.get? g with
  | none => .done
  | some t =>
    if t.st == .draining && t.reads == 0 then
      Prog.all [
        onPart k p fun q => { q with tiles := q.tiles.del g },
        (match ((s.cluster k).partGrid.bind s.grid?) with
          | some y => onAgent y.ctx t.agent.toNat fun a => { a with grans := a.grans - t.size }
          | none => .done),
        wakeCistern k]
    else .done
def execTileDrain (s : State) : Host.Outcome State Fault Refusal := runEvent tileDrain s

/-! ## The matrix lease (R228 to R230) -/

/-- The gang of a lease request still waits for it. -/
def State.leaseWaits (s : State) (r : LeaseReq) : Bool :=
  match (s.block? r.core r.blk).bind fun b => b.gangs.get? r.gang with
  | some x => x.wait == .mlease || x.wait == .mcmd
  | none => false

/-- A gang whose lease request has been granted goes on: an `MLEASE` of SIMT code behind its instruction; a bundle, a cracked
instruction and a command that waited issue again, the first two with the grant marked (R229, R230). -/
def Block.leased (b : Block) (g : Nat) (again exdin : Bool) : Block :=
  match b.gangs.get? g with
  | some x =>
    if again || x.vliw || (exdin && x.frames.isEmpty) then b.modGang g fun x => { x with wait := .ready, granted := !again }
    else b.endWait g true 8
  | none => b

/-- LEASE_GRANT: argument cluster (R229). An `MLEASE` whose request is granted goes on with that lease; a lease granted again in
the saved class stands for the waiting command (R230). -/
def leaseGrant (s : State) : Prog :=
  let k := s.arg 0
  let q := (s.cluster k).keepReqs s.leaseWaits
  let keep := Prog.one (.clus k fun q => q.keepReqs s.leaseWaits)
  match if q.lease.isNone then q.arbitrate else none with
  | none => keep
  | some (r, _) => Prog.all [keep,
      .one (.clus k fun q => match q.arbitrate with | some (_, q') => q' | none => q),
      onBlock r.core r.blk fun b =>
        ({ b with leaseSaved := if r.again then none else b.leaseSaved }).leased r.gang r.again (s.isExdin b.grid)]
def execLeaseGrant (s : State) : Host.Outcome State Fault Refusal := runEvent leaseGrant s

/-- LEASE_EXPIRY: argument cluster (R228). A lease granted again stands until the command that waited for it has issued (R230). -/
def leaseExpiry (s : State) : Prog :=
  match (s.cluster (s.arg 0)).lease with
  | some l => Prog.when (l.fresh.isNone && (l.cyc == 0 || l.cmds == 0)) (.one (.clus (s.arg 0) fun q => { q with lease := none }))
  | none => .done
def execLeaseExpiry (s : State) : Host.Outcome State Fault Refusal := runEvent leaseExpiry s

/-! ## Power (R294, R295, R379 to R381) -/

/-- POWER_GRANT: argument cluster. The oldest request is granted when the budget allows it (R380); one whose issuer no
longer waits leaves the order. -/
def powerGrant (s : State) : Prog :=
  let k := s.arg 0
  match (s.cluster k).preqs with
  | [] => .done
  | (c, b, g, n) :: _ =>
    let drop := Prog.one (.clus k fun q => { q with preqs := q.preqs.drop 1 })
    match s.block? c b with
    | none => drop
    | some x =>
      let waits := match x.gangs.get? g with | some y => y.wait == .pgrant | none => false
      if x.regrant != some n && !waits then drop
      else if !s.mayGrantPower k c b n then .done
      else
        drop.andThen (onBlock c b fun b =>
          if b.regrant = some n then b.takeGrant n
          else (b.takeGrant n).modGang g fun y => { y with wait := .ready })
def execPowerGrant (s : State) : Host.Outcome State Fault Refusal := runEvent powerGrant s

/-- The lowest class whose ceiling covers a draw, 8 for none (R380). -/
def classOf (mw : Nat) : Nat := ((List.range 8).find? fun n => decide (mw ≤ 1750 * (n + 1))).getD 8

/-- POWER_WINDOW: arguments core, block, and its draw in the window in milliwatts. A block with a grant is judged for
POWER-OVERDRAW (R295), one without for its 1.75 W (R381); the window counts toward the toggle class (R368). -/
def powerWindow (s : State) : Prog :=
  let c := s.arg 0
  let b := s.arg 1
  let mw := s.arg 2
  match s.block? c b with
  | none => .done
  | some x =>
    let lim := match x.grant with | some n => 1750 * (n + 1) | none => 1750
    let excess := if x.grant.isSome && x.excess ≥ 4 then x.excess else if mw > lim then x.excess + 1 else 0
    (onBlock c b fun b =>
      { b with
        excess := excess
        throttled := if b.grant.isSome then false
          else if mw < 1750 then (s.cluster (clusterOf c)).noGrants else b.throttled || decide (excess ≥ 4) }).andThen
      (.one (.grid x.grid fun g => { g with windows := g.windows ++ [classOf mw] }))
def execPowerWindow (s : State) : Host.Outcome State Fault Refusal := runEvent powerWindow s

/-- What a cluster's controller has granted and reserved, in milliwatts (R380, R381). -/
def State.drawn (s : State) (k : Nat) : Nat :=
  (((coresOf k).flatMap fun c => (s.core c).blocks.map (·.2)).map fun b =>
    match b.grant with | some n => 1750 * (n + 1) | none => 1750).sum

/-- POWER_BUDGET: argument the measured draw of everything but the clusters, in milliwatts (R379). A cluster whose budget
falls below what it has granted and reserved makes no grants and gates the blocks without one (R381). -/
def powerBudget (s : State) : Prog :=
  let bud := (4500000 - s.arg 0 - 100000) / 192
  Prog.each (List.range 192) fun k =>
    let tight := decide (bud < s.drawn k)
    (Prog.one (.clus k fun q => { q with budget := bud, noGrants := tight })).andThen
      (Prog.when tight (Prog.each ((coresOf k).filter fun c => !(s.core c).blocks.isEmpty) fun c => .one (.core c fun e =>
        { e with blocks := e.blocks.map fun b => (b.1, if b.2.grant.isNone then { b.2 with throttled := true } else b.2) })))
def execPowerBudget (s : State) : Host.Outcome State Fault Refusal := runEvent powerBudget s

/-! ## Clocks and heat relief (R364, R369, R377, R378) -/

/-- VAULT_SENSOR_READING: the 128 readings in units of 2^-10 degrees and the vaults' free pages (R364, R370). -/
def vaultSensorReading (s : State) : Prog :=
  let n := s.args.num
  Prog.each (List.range 128) fun v => .one (.sys fun y =>
    let w := { (y.vaults.get? v).getD {} with e := (n.getD v 0 : Nat), reading := n.getD v 0, free := n.getD (128 + v) 0 }
    { y with vaults := y.vaults.set v w })
def execVaultSensorReading (s : State) : Host.Outcome State Fault Refusal := runEvent vaultSensorReading s

/-- One throttle step down (R369). -/
def Cluster.slower (q : Cluster) : Cluster :=
  if q.ratio > 1 then { q with ratio := q.ratio / 2 } else if q.ghz > 8 then { q with ghz := q.ghz - 2 } else q

/-- One step back, in reverse order, up to the configured point (R369). -/
def Cluster.faster (q : Cluster) : Cluster :=
  if q.ghz < q.cfgGhz then { q with ghz := q.ghz + 2 } else if q.ratio < q.cfgRatio then { q with ratio := q.ratio * 2 } else q

/-- Vaults of the running image's beneath sets that name a cluster. -/
def State.vaultsOver (s : State) (k : Nat) : List Nat := (List.range 128).filter fun v => Config.beneath s.sys.image v k

/-- THROTTLE_STEP: arguments cluster, and its measured draw in milliwatts (R369, R381). -/
def throttleStep (s : State) : Prog :=
  let k := s.arg 0
  let q := s.cluster k
  let temp := fun v => (s.vault v).reading
  let hot := (s.vaultsOver k).filter fun v => decide (temp v ≥ 100 * 1024)
  let worst := hot.any fun v => decide (temp v > 105 * 1024)
  let power := q.noGrants && decide (s.arg 1 > q.budget)
  let why := dedup (q.throttle ++ hot ++ (if power then [128] else []))
  if worst then .one (.clus k fun q => { q with ghz := 8, ratio := 1, throttle := why })
  else if !hot.isEmpty || power then .one (.clus k fun q => { q.slower with throttle := why })
  else if q.throttle.all fun v => if v = 128 then true else decide (temp v < 98 * 1024) then
    .one (.clus k fun q =>
      let q' := q.faster
      { q' with throttle := if q'.ghz = q'.cfgGhz && q'.ratio = q'.cfgRatio then [] else q.throttle })
  else .done
def execThrottleStep (s : State) : Host.Outcome State Fault Refusal := runEvent throttleStep s

/-- The operating points of R377. -/
def pointOk (ghz ratio : Nat) : Bool :=
  ([8, 10].contains ghz && [1, 2, 4].contains ratio) || ([12, 14, 16].contains ghz && [1, 2].contains ratio)

/-- CLOCK_CHANGE: arguments cluster, front-end clock, lane ratio (R377, R378). A throttled cluster stays at or below its
present point. -/
def clockChange (s : State) : Prog :=
  let ghz := s.arg 1
  let ratio := s.arg 2
  Prog.when (pointOk ghz ratio && decide (s.arg 0 < 192)) (.one (.clus (s.arg 0) fun q =>
    if q.throttle.isEmpty then { q with ghz, ratio, cfgGhz := ghz, cfgRatio := ratio }
    else { q with ghz := min q.ghz ghz, ratio := min q.ratio ratio, cfgGhz := ghz, cfgRatio := ratio }))
def execClockChange (s : State) : Host.Outcome State Fault Refusal := runEvent clockChange s

/-! ## Page moves (R370, R406) -/

/-- A location after `n` bytes at `o` have moved to `d`. -/
def Loc.moved (o d n : Nat) (l : Loc) : Loc :=
  if l.sp = 0 ∧ o ≤ l.a ∧ l.a < o + n then { l with a := d + (l.a - o) } else l

def Region.moved (o d n : Nat) (r : Region) : Region := { r with pages := r.pages.map fun e => (e.1, e.2.moved o d n) }

def CopyQueue.moved (o d n : Nat) (q : CopyQueue) : CopyQueue :=
  { q with ops := q.ops.map fun x => { x with src := x.src.moved o d n, dst := x.dst.moved o d n } }

def Wait.moved (o d n : Nat) : Wait → Wait
  | .waitc sp a w cmp sg than => let l := Loc.moved o d n ⟨sp, 0, a⟩; .waitc l.sp l.a w cmp sg than
  | w => w

/-- A block's monitors and copies follow a page. -/
def Block.moved (o d n : Nat) (b : Block) : Block :=
  { b with
    cq := b.cq.moved o d n
    gangs := b.gangs.map fun e => (e.1, { e.2 with wait := e.2.wait.moved o d n, more := e.2.more.map (Wait.moved o d n) }) }

def Hart.moved (o d n : Nat) (h : Hart) : Hart :=
  { h with cq := h.cq.moved o d n, resv := h.resv.map fun r => (r.1.moved o d n, r.2) }

def BufStore.moved (o d n : Nat) (x : BufStore) : BufStore := { x with runs := x.runs.map fun r => (r.1.moved o d n, r.2) }

def PendLoad.moved (o d n : Nat) (x : PendLoad) : PendLoad := { x with src := x.src.map fun r => (r.1.moved o d n, r.2) }

/-- A context's saved blocks and harts, and the entries of its tables, follow a page. -/
def Context.moved (o d n : Nat) (x : Context) : Context :=
  { x with
    saved := x.saved.map fun v => { v with blk := v.blk.moved o d n }
    coreRecs := x.coreRecs.map fun e =>
      (e.1, { e.2 with loader := e.2.loader.map (Hart.moved o d n), storer := e.2.storer.map (Hart.moved o d n) })
    tlb := x.tlb.map fun t => { t with ph := (Loc.moved o d n ⟨0, 0, t.ph⟩).a } }

/-- The home slices give up the lines of a page that has left them. -/
def Vault.moved (o n : Nat) (v : Vault) : Vault :=
  { v with lines := v.lines.filter fun e => e.ext || !(decide (o ≤ 128 * e.line) && decide (128 * e.line < o + n)) }

/-- Everything in flight follows a page to its new frame: the move adds no event and removes none (R370). -/
def movePage (o d n : Nat) : Prog :=
  .read fun s => Prog.all [
    Prog.each s.cores fun e => .one (.core e.1 fun k =>
      { k with
        blocks := k.blocks.map fun b => (b.1, b.2.moved o d n)
        sbuf := k.sbuf.map (BufStore.moved o d n), loads := k.loads.map (PendLoad.moved o d n)
        gathers := k.gathers.map fun g => { g with elems := g.elems.map fun x => { x with glob := x.glob.moved o d n } }
        loader := k.loader.moved o d n, storer := k.storer.moved o d n }),
    Prog.each s.clusters fun e => .one (.clus e.1 fun q =>
      { q with wloads := q.wloads.map (fun w => { w with src := w.src.moved o d n }),
               streams := q.streams.map (fun w => { w with src := w.src.moved o d n }) }),
    Prog.each s.ctxs fun e => .one (.ctx e.1 (Context.moved o d n)),
    .one (.sys fun y =>
      { y with
        stamped := y.stamped.map fun w => { w with loc := w.loc.moved o d n }
        vaults := y.vaults.map fun e => (e.1, e.2.moved o n) })]

/-- The entry of page `pg` of valid segment `sg` of a context's table: the segment, its address, the entry's place and the
entry. -/
def State.pageOf (s : State) (x : Context) (sg pg : Nat) : Option (Seg × W64 × Nat × W64) :=
  match (ctxSegs s x)[sg]? with
  | none => none
  | some g =>
    let va := g.base + BitVec.ofNat 64 (pg * g.page)
    if pg * g.page ≥ g.limit.toNat then none
    else
      match walk s [] (ctxSegs s x) x.savePt walkFuel va with
      | .pte g ph p => some (g, va, ph, p)
      | _ => none

/-- Bits of a page-table entry set and cleared. -/
def pteBits (p : W64) (set clear : W64) : W64 := (p &&& ~~~clear) ||| set

/-- HOST and HOLD of a page-table entry (R395). -/
def pteHOST : W64 := 8
def pteHOLD : W64 := 16

/-- The vault that takes a hot page: in the ×1 or ×2 band, with the most free pages, the lowest of equals (R370). -/
def State.coolVault (s : State) : Option Nat :=
  ((List.range 128).filter fun v => decide ((s.vault v).reading < 90 * 1024) && decide ((s.vault v).free > 0)).foldl
    (fun m v => match m with | some w => if (s.vault v).free > (s.vault w).free then some v else some w | none => some v) none

/-- One page that the scheduler moves: its context, segment and page, and a free frame of the chosen vault. A page of a pinned
segment stays (R332). -/
def hotMove (v x sg pg frame : Nat) : Prog :=
  .read fun s =>
    match s.ctx? x with
    | none => .done
    | some ctx =>
      match s.pageOf ctx sg pg with
      | none => .done
      | some (g, va, _, p) =>
        let old := (pteLoc g p va).a
        let count := (((s.vault v).counts.find? fun e => e.1 == old / 65536).map (·.2)).getD 0
        if g.isExt || g.attrBit 5 || g.attrBit 45 || g.isSave || pteSt p != 1 || pteHost p || vaultOf old != v
            || decide (count ≤ Config.hotness s.sys.image) || frame % 65536 != 0 || some (vaultOf frame) != s.coolVault
            || (g.attrBit 46 && (p &&& pteHOLD) != 0) || (s.sys.moves.any fun m => m.oldFrame == old) then .done
        else .one (.sys fun y =>
          { y with
            moves := y.moves ++ [{ ctx := x, seg := sg, page := pg, oldFrame := old, newFrame := frame, copied := false, inv := none,
                                   toHost := false, migr := false }]
            vaults := y.vaults.modify (vaultOf frame) fun w => { w with free := w.free - 1 } })

/-- HOT_PAGE_MIGRATION: a vault, and up to 64 pages as context, segment, page and frame (R370). -/
def hotPageMigration (s : State) : Prog :=
  let v := s.arg 0
  let r := (s.vault v).reading
  if r < 100 * 1024 || r > 105 * 1024 then .done
  else
    let n := s.args.num.drop 1
    Prog.each (List.range (min 64 (n.length / 4))) fun i =>
      hotMove v (n.getD (4 * i) 0) (n.getD (4 * i + 1) 0) (n.getD (4 * i + 2) 0) (n.getD (4 * i + 3) 0)
def execHotPageMigration (s : State) : Host.Outcome State Fault Refusal := runEvent hotPageMigration s

/-- Free bytes at a location, one draw a byte (log 11). -/
def freeBytes (l : Loc) (n : Nat) : Prog :=
  (Prog.read fun s => .one (.write l ((List.range n).map fun i => Config.freeByte (s.free + i)))).andThen
    (Prog.each (List.range n) fun _ => .one .draw)

/-- PAGE_MOVE_COMPLETION: argument the move's place in the order. The bytes have been copied: the entry changes, a MIGR
page is pinned for 200 µs, and the invalidation starts (R370, R406). -/
def pageMoveCompletion (s : State) : Prog :=
  match s.sys.moves[s.arg 0]? with
  | none => .done
  | some m =>
    if m.copied then .done
    else
      let drop := Prog.one (.sys fun y => { y with moves := y.moves.eraseIdx (s.arg 0) })
      match (s.ctx? m.ctx).bind fun x => (s.pageOf x m.seg m.page).map fun e => (x, e) with
      | none => drop
      | some (x, g, va, ph, p) =>
        let n := g.page
        if pteSt p != 1 || (pteLoc g p va).a != m.oldFrame then drop
        else
          let begin_ := (Prog.one (.sys fun y =>
              { y with moves := modAt y.moves (s.arg 0) fun m => { m with copied := true, inv := some (x.invSeq + 1) } })).andThen
            (invalidate m.ctx va (BitVec.ofNat 64 n) false)
          let pin := Prog.one (.sys fun y => { y with pins := y.pins ++ [(m.ctx, m.seg, m.page, y.time + 200000)] })
          if !m.migr then
            Prog.all [.one (.write ⟨0, 0, m.newFrame⟩ (s.mem.bytes m.oldFrame n)), movePage m.oldFrame m.newFrame n,
              putWord ph (pteBits p (BitVec.ofNat 64 m.newFrame) (BitVec.ofNat 64 (2 ^ 39 - 2 ^ 16))), begin_]
          else if m.toHost then Prog.all [putWord ph (pteBits p (pteHOST ||| pteHOLD) 0), pin, begin_]
          else Prog.all [freeBytes ⟨0, 0, m.oldFrame⟩ n, putWord ph (pteBits p pteHOLD pteHOST), pin, begin_]
def execPageMoveCompletion (s : State) : Host.Outcome State Fault Refusal := runEvent pageMoveCompletion s

/-- MIGRATION_QUANTUM: arguments context, segment, page, whether the host and whether the device ask for the page; requests that were
deferred and are due again ask with them. Of both sides the holder proceeds and the other is deferred by a quantum; while HOLD is set
or the page moves, a request is deferred until that ends (R406). -/
def migrationQuantum (s : State) : Prog :=
  let back := s.sys.deferred.filter fun d =>
    d.ctx == s.arg 0 && d.seg == s.arg 1 && d.page == s.arg 2 && decide (d.due ≤ s.sys.time)
  let host := s.arg 3 == 1 || back.any fun d => d.toHost
  let dev := s.arg 4 == 1 || back.any fun d => !d.toHost
  let defer := fun (l : List Bool) (due : Nat) => Prog.one (.sys fun y =>
    { y with deferred := (y.deferred.filter fun d => !back.contains d)
        ++ l.map fun h => { ctx := s.arg 0, seg := s.arg 1, page := s.arg 2, toHost := h, due } })
  match (s.ctx? (s.arg 0)).bind fun x => s.pageOf x (s.arg 1) (s.arg 2) with
  | none => defer [] 0
  | some (g, va, _, p) =>
    let at_ := (pteLoc g p va).a
    if !g.attrBit 46 || g.isExt || pteSt p != 1 then defer [] 0
    else if (p &&& pteHOLD) != 0 || s.sys.moves.any (fun m => m.oldFrame == at_) then
      defer ([true, false].filter fun h => if h then host else dev) s.sys.time
    else if host && dev then defer [!pteHost p] (s.sys.time + us 50)
    else if !(host || dev) || host == pteHost p then defer [] 0
    else (defer [] 0).andThen (.one (.sys fun y => { y with moves := y.moves ++
      [{ ctx := s.arg 0, seg := s.arg 1, page := s.arg 2, oldFrame := at_, newFrame := at_, copied := false, inv := none,
         toHost := host, migr := true }] }))
def execMigrationQuantum (s : State) : Host.Outcome State Fault Refusal := runEvent migrationQuantum s

/-- HOLD_EXPIRY: arguments context, segment, page; 200 µs after its move (R406). -/
def holdExpiry (s : State) : Prog :=
  let mine := fun (e : Nat × Nat × Nat × Nat) =>
    e.1 == s.arg 0 && e.2.1 == s.arg 1 && e.2.2.1 == s.arg 2 && decide (e.2.2.2 ≤ s.sys.time)
  if s.sys.pins.any mine then
    (Prog.one (.sys fun y => { y with pins := y.pins.filter fun e => !mine e })).andThen
      (match (s.ctx? (s.arg 0)).bind fun x => s.pageOf x (s.arg 1) (s.arg 2) with
        | some (_, _, ph, p) => putWord ph (pteBits p 0 pteHOLD)
        | none => .done)
  else .done
def execHoldExpiry (s : State) : Host.Outcome State Fault Refusal := runEvent holdExpiry s

/-! ## Invalidation (R400, R401) -/

/-- A gang is quiescent for a request (R400). -/
def State.quiescent (s : State) (r : InvReq) (c b : Nat) (blk : Block) (g : Nat) (x : Gang) : Bool :=
  let ms := blk.members g
  ms.isEmpty || r.quiet.contains (c, b, g)
    || (((match x.wait with | .waitc .. | .sleep .. => true | _ => false) || (s.core c).gated) && s.quiet c b ms)

/-- Every gang and thread of the context on a core is quiescent for a request, no store of one that has ended is still buffered, and
its harts have nothing outstanding: their loads and stores are performed as they issue, so their copies alone can be. -/
def State.coreQuiet (s : State) (x c : Nat) (r : InvReq) : Bool :=
  let k := s.core c
  let still := fun (h : Hart) => !(h.run && h.ctx == x) || h.cq.ops.isEmpty
  (k.blocks.all fun e => e.2.ctx != x || e.2.gangs.all fun g => s.quiescent r c e.1 e.2 g.1 g.2)
    && (k.sbuf.all fun e => match k.blocks.get? e.blk with
        | some b => b.ctx != x || b.gangs.any fun g => thrIn (b.members g.1) e.thr
        | none => true)
    && still k.loader && still k.storer

/-- A core acknowledges every request that its gangs are quiescent for (R400). -/
def coreAcks (x c : Nat) : Prog :=
  .read fun s =>
    (Prog.one (.ctx x fun t =>
      { t with invs := t.invs.map fun r => if s.coreQuiet x c r then { r with owed := r.owed.filter fun d => d != c } else r })).andThen
      (completeInvs x)

/-- CORE_ACKNOWLEDGE: arguments context, core. -/
def execCoreAcknowledge (s : State) : Host.Outcome State Fault Refusal :=
  runEvent (fun s => coreAcks (s.arg 0) (s.arg 1)) s

/-- INVALIDATION_WATCHDOG: arguments context, core. 100 µs after a request the core's blocks of the context are saved, which
counts as quiescent (R401). -/
def invalidationWatchdog (s : State) : Prog :=
  let x := s.arg 0
  let c := s.arg 1
  match s.ctx? x with
  | none => .done
  | some ctx =>
    if ctx.invs.any fun r => r.owed.contains c && decide (r.since + us 100 ≤ s.sys.time) then
      let here := ((s.core c).blocks.filter fun e => e.2.ctx == x).map fun e => (e.2.grid, s.grpOf e.2)
      let groups := here.foldl (fun acc p => if acc.contains p then acc else acc ++ [p]) []
      (Prog.each (groups.filter fun p => s.groupSaveable p.1 p.2) fun p => saveGroup p.1 p.2 none).andThen (coreAcks x c)
    else .done
def execInvalidationWatchdog (s : State) : Host.Outcome State Fault Refusal := runEvent invalidationWatchdog s

/-! ## Counters, random words and samples -/

/-- AGENT_COUNTER_WRITEBACK: argument context (R376). -/
def execAgentCounterWriteback (s : State) : Host.Outcome State Fault Refusal :=
  runEvent (fun s => writeCounters (s.arg 0)) s

/-- RILL_APPEND: argument core, and up to 16 words of the generator (R123). -/
def rillAppend (s : State) : Prog :=
  let c := s.arg 0
  let ws := ((s.args.num.drop 1).take 16).map fun n => BitVec.ofNat 64 n
  Prog.when (decide (c < 768)) (.one (.core c fun k => { k with rill := k.rill ++ ws.take (64 - k.rill.length) }))
def execRillAppend (s : State) : Host.Outcome State Fault Refusal := runEvent rillAppend s

/-- SAMPLE and SINT of a debug control word (R426). -/
def Context.samples (x : Context) : Bool := x.dbg.getLsbD 2
def Context.sint (x : Context) : Nat := (bits 8 x.dbg 8).toNat

/-- INSTRUCTION_SAMPLE: arguments core, four counts of lane cycles, the level reached, and the context. The tagged instruction has
written back when no load of it is outstanding (R428). -/
def instructionSample (s : State) : Prog :=
  let k := s.core (s.arg 0)
  match k.samples.find? fun y => y.ctx == s.arg 6 with
  | none => .done
  | some y =>
    Prog.when (k.loads.all fun p => p.blk != y.blk || p.pc != y.pc) <|
      (Prog.one (.core (s.arg 0) fun k => { k with samples := k.samples.filter fun z => z.ctx != y.ctx })).andThen
        (match s.ctx? y.ctx with
          | some x =>
            Prog.when x.samples (traceAppend y.ctx 2
              (leBytes y.pc.toNat 8 ++ leBytes y.bx.toNat 4 ++ leBytes y.byy.toNat 4 ++ leBytes y.bz.toNat 4
                ++ leBytes y.phasecnt.toNat 4 ++ leBytes (s.arg 1) 2 ++ leBytes (s.arg 2) 2 ++ leBytes (s.arg 3) 2
                ++ leBytes (s.arg 4) 2 ++ leBytes (s.arg 5) 1 ++ leBytes (flagBit y.vliw 0 + flagBit y.exdin 1) 1
                ++ leBytes y.ctx 2 ++ leBytes 0 4 ++ leBytes y.time 8 ++ leBytes 0 16))
          | none => .done)
def execInstructionSample (s : State) : Host.Outcome State Fault Refusal := runEvent instructionSample s

end Sys2Proof.Machine
end

