-- ==== Sys2Proof/Machine/Issue.lean ====
section
/-! DEFINITION. What a turn of the agenda does before an instruction runs: the issue of a gang or thread (R69, R247,
R386), the issue of a hart (R280), and the installation of a word as the next instruction (log 18). -/

namespace Sys2Proof.Machine

/-! ## Imprecise causes (R386) -/

/-- The instruction of such a wait has taken effect, its arrival or its bundle, and the gang is not at a boundary before the
wait ends. -/
def Wait.arrived : Wait → Bool
  | .barHold .. | .bar .. | .regang _ | .phase | .gsync .. | .barw _ false | .qpoint false | .sleep _ false => true
  | _ => false

/-- The wait ends by an event alone. -/
def Wait.held : Wait → Bool
  | .barw .. | .sleep .. => true
  | w => w.arrived

/-- The pending cause with the lowest code. -/
def lowestPend (l : List Pend) : Option Pend :=
  l.foldl (fun acc p => match acc with | some q => if p.cause.toNat < q.cause.toNat then some p else acc | none => some p) none

/-- One pending cause of a gang is reported: the lowest code first (R386). -/
def deliverPend (c b g : Nat) : Prog :=
  .read fun s =>
    match s.block? c b with
    | none => .done
    | some blk =>
      match blk.gangs.get? g with
      | none => .done
      | some x =>
        match lowestPend x.pend with
        | none => .done
        | some p =>
          if x.wait.arrived then .done
          else
            let ms := blk.members g
            let pc := ((ms.head?.bind blk.slice?).map (·.pc)).getD 0
            let act := blk.activeLanes ms
            let lanes := act.filter fun i => p.lanes.getLsbD i
            (onGang c b g fun x => { x with pend := x.pend.erase p }).andThen
              (takeTrap c b g { cause := p.cause.toNat, imprecise := true, write := p.write, form := some p.org.flags, time := some p.time,
                                recs := [{ cause := p.cause.toNat, addr := p.addr, lanes := if lanes.isEmpty then act else lanes,
                                           slots := p.org.slots }] }
                p.pc pc)

/-- IMPRECISE_TRAP_DELIVERY: arguments core, block, gang. -/
def execImpreciseTrapDelivery (s : State) : Host.Outcome State Fault Refusal :=
  runEvent (fun s => deliverPend (s.arg 0) (s.arg 1) (s.arg 2)) s

/-! ## The issue of a gang or thread -/

/-- A gang that waits at `QPOINT` goes on once what it issued has completed (R265). -/
def U.tryQpoint (u : U) (s : State) : Prog :=
  match u.gang.wait with
  | .qpoint adv => Prog.when (s.quiet u.c u.b u.members)
      ((acknowledge u.blk.ctx u.c u.b u.g).andThen
        (onBlock u.c u.b fun b => b.endWait u.g adv (waitLen u.grid.exdin.isSome u.gang)))
  | _ => .done

/-- The head word alone decodes to no native instruction, whatever follows it (R96); zero is legal in every word that
follows a head word. -/
def headUndefined (w : W64) : Bool :=
  match decodeNative [w, 0, 0, 0, 0] with
  | .ok _ => false
  | .error _ => true

/-- Words of the unit's instruction that are fetched: nothing after a head word or header that is refused alone. -/
def U.fetchCount (u : U) (head : Nat) : Nat :=
  if u.inExdin then u.wordCount head
  else
    let w := BitVec.ofNat 64 head
    if u.gang.vliw then (if wordMaj w = 0x3C && !hdrRefused w then u.wordCount head else 1)
    else if headUndefined w then 1 else u.wordCount head

/-- The instruction that the unit decodes from its words, least significant byte first. -/
def U.decode (u : U) (bs : List Byte) : Instr :=
  let n := bs.length / u.headBytes
  if u.inExdin then
    let ws := splitHalves (leNat bs) n
    match decodeExdin ws with
    | .ok (i, _) => i
    | .error _ => .undefinedWord ((ws.headD 0).setWidth 64)
  else
    let ws := splitWords (leNat bs) n
    if u.gang.vliw && wordMaj (ws.headD 0) = 0x3C then .bundle (ws.headD 0) (ws.drop 1)
    else
      match decodeNative ws with
      | .ok (i, _) => i
      | .error _ => .undefinedWord (ws.headD 0)

/-- The instruction at the unit's PC, with the state in which its words have been fetched; FETCH_FAULT where they cannot
be (R247). -/
def U.fetch (u : U) (s : State) : State × Instr :=
  match u.fetchBad s u.headBytes 1 with
  | some _ => (s, .fetchFault)
  | none =>
    let n := u.fetchCount (u.head s)
    match u.fetchBad s u.headBytes n with
    | some _ => (s, .fetchFault)
    | none =>
      let bytes := u.headBytes * n
      ((u.fetchFill s bytes).run s, u.decode (u.fetchBytes s u.inExdin u.pc bytes))

/-- A context of which an agent does not wait is not stalled (R404). -/
def clearStall (x : Nat) (ctx : Context) (w : Bool) : Prog :=
  Prog.when (w && ctx.stalledSince.isSome) (.one (.ctx x fun c => { c with stalledSince := none }))

/-! ## Fairness among the gangs of a core (R70, R71) -/

/-- A gang or thread is ready (R69). -/
def Gang.ready (g : Gang) (k : Core) (b : Block) : Bool :=
  g.wait == .ready && !g.skip && !k.gated && b.regrant.isNone && !b.halt

/-- A gang or thread of a core with its block. -/
structure OnCore where
  b : Nat
  g : Nat
  blk : Block
  gang : Gang

def OnCore.phys (e : OnCore) : List Nat := (e.blk.members e.g).map fun i => e.blk.phys.getD i 0

/-- The ready gangs and threads of a core. -/
def Core.ready (k : Core) : List OnCore :=
  k.blocks.flatMap fun b => b.2.gangs.filterMap fun g =>
    let e : OnCore := { b := b.1, g := g.1, blk := b.2, gang := g.2 }
    if g.2.ready k b.2 && !e.phys.isEmpty then some e else none

/-- It has issued in the core's slot. -/
def OnCore.issued (e : OnCore) (k : Core) : Bool := e.phys.all k.slot.slices.getLsbD

/-- Slots in which it has been passed over, the core's slot among them. -/
def OnCore.missed (e : OnCore) (k : Core) : Nat := if e.issued k then 0 else e.gang.passed + 1

/-- One of higher priority is ready on a quarter of its own; a throttled block's share does not depend on that (R71). -/
def OnCore.outranked (e : OnCore) (l : List OnCore) (prio : Block → Nat) : Bool :=
  !e.blk.throttled && l.any fun f =>
    decide (prio f.blk > prio e.blk) && f.phys.any fun i => e.phys.any fun j => i / 4 == j / 4

/-- The core's slot ends: the ready gangs that it passed over are counted. -/
def Core.endSlot (k : Core) (prio : Block → Nat) : Core :=
  let l := k.ready
  let count := fun (b g : Nat) =>
    match l.find? fun e => e.b == b && e.g == g with
    | some e => if e.outranked l prio then 0 else e.missed k
    | none => 0
  { k with blocks := k.blocks.map fun b =>
      (b.1, { b.2 with gangs := b.2.gangs.map fun g => (g.1, { g.2 with passed := count b.1 g.1 }) }) }

/-- The gang or thread that must issue before the core's slot may end: a ready thread that has not issued in it; or in the slot
behind it, where any `n` gangs have been passed over in all but `n` of their 64 slots: the one passed over longest (R70). -/
def Core.due (k : Core) (prio : Block → Nat) : Option OnCore :=
  let l := k.ready
  match l.find? fun e => e.gang.vliw && !e.issued k with
  | some e => some e
  | none =>
    let w := l.filter fun e => !e.outranked l prio
    let late := (List.range 17).any fun n => n ≥ 1 && decide ((w.filter fun e => decide (e.missed k + n ≥ 64)).length ≥ n)
    if late then
      w.foldl (fun m e => match m with | some d => if e.missed k > d.missed k then some e else m | none => some e) none
    else none

/-- The agent that issues when the agenda names one: where its issue would end the core's slot, one that is due comes first
(R70). -/
def State.turnOf (s : State) (a : Agent) : Agent :=
  match unitOf { s with cur := a } 0 with
  | some u =>
    if u.core.newSlot u.physSlices u.slotAt then
      match u.core.due s.runPrio with
      | some e => .gang u.c e.b e.g
      | none => a
    else a
  | none => a

/-- Every agent, in a fixed order: the gangs and threads of each core, then its harts. -/
def State.agents (s : State) : List Agent :=
  s.cores.flatMap fun e =>
    (e.2.blocks.flatMap fun b => b.2.gangs.map fun g => Agent.gang e.1 b.1 g.1)
      ++ (if e.2.loader.run then [Agent.hart e.1 false] else []) ++ (if e.2.storer.run then [Agent.hart e.1 true] else [])

/-- The agent behind the one that issued last. -/
def State.nextAgent (s : State) : Agent :=
  match s.agents.dropWhile (· != s.cur) with
  | _ :: a :: _ => a
  | _ => s.agents.headD s.cur

/-! ## Instruction samples (R428) -/

/-- The core tags an instruction of a context that has issued, at random, when none of the context is tagged there. -/
def tagSample (u : U) : Prog :=
  .read fun s =>
    if !u.ctx.samples || (s.core u.c).samples.any (fun y => y.ctx == u.blk.ctx) then .done
    else
      (Prog.when (Config.freePick s.free % 2 ^ u.ctx.sint = 0) (.one (.core u.c fun k =>
        { k with samples := { ctx := u.blk.ctx, blk := u.b, pc := u.pc, bx := u.blk.bx, byy := u.blk.byy, bz := u.blk.bz,
                              phasecnt := u.blk.phasecnt, vliw := u.gang.vliw, exdin := u.inExdin, time := u.pre.sys.time } :: k.samples }))).andThen
        (.one .draw)

/-- An instruction that began in the state `s` and issued, leading to `t`, may be tagged; one that waits or traps is not. -/
def State.tagged (s t : State) : State :=
  match unitOf s 0 with
  | some u =>
    let now := ((t.block? u.c u.b).map fun b => b.issued).getD (u.blk.issued + 1)
    if u.ctx.samples && now != u.blk.issued then (tagSample u).run t else t
  | none => t

/-- What precedes the instruction that the unit issues. -/
def U.begin_ (u : U) : Prog :=
  Prog.all [clearStall u.blk.ctx u.ctx (u.gang.wait == .ready),
    .read fun s => Prog.when ((s.core u.c).newSlot u.physSlices u.slotAt) (.one (.core u.c fun k => k.endSlot s.runPrio)),
    u.openSlot]

/-- An issue turn of the gang or thread that `cur` names: the state, and the instruction that then runs in it. A gang
whose core is gated, whose block waits for its power grant again or is to stop, or that waits for an event lets the turn pass, and
so does every one while a fatal error is handled (R424, R429); one that
has yielded lets one turn pass (R69, R266, R296). POWER-OVERDRAW and imprecise causes are taken at the boundary (R295,
R386). -/
def gangTurn (s : State) : State × Option Instr :=
  match unitOf s 0 with
  | none => (s, none)
  | some u =>
    if u.core.gated || u.blk.regrant.isSome || u.blk.halt || s.sys.st == .fatal then (s, none)
    else if u.gang.skip then ((onGang u.c u.b u.g fun x => { x with skip := false }).run s, none)
    else if u.gang.wait = .qpoint false then ((u.tryQpoint s).run s, none)
    else if u.gang.wait.arrived then (s, none)
    else if u.blk.grant.isSome && u.blk.excess ≥ 4 then
      (((onBlock u.c u.b fun b => { b with excess := 0 }).andThen
        (takeTrap u.c u.b u.g { cause := cPowerOverdraw, recs := [{ cause := cPowerOverdraw, lanes := u.active }] } u.pc u.pc)).run s,
        none)
    else if !u.gang.pend.isEmpty then ((deliverPend u.c u.b u.g).run s, none)
    else if u.gang.wait.held then (s, none)
    else
      match u.gang.wait with
      | .qpoint _ => ((u.tryQpoint s).run s, none)
      | _ =>
        let r := u.fetch s
        match r.2 with
        | .fetchFault => (r.1, some .fetchFault)
        | i => (u.begin_.run r.1, some i)

/-! ## The issue of a hart -/

/-- An issue turn of the hart that `cur` names: its instruction, from its own store (R280). A PC outside the store
raises the instruction access fault (log 12). -/
def hartTurn (s : State) : State × Option Instr :=
  match (if s.sys.st == .fatal then none else hartOf s 0) with
  | none => (s, none)
  | some a =>
    let at_ := fun (i : Nat) => a.h.store.getD (a.h.pc.toNat + i) 0
    let low : BitVec 16 := at_ 1 ++ at_ 0
    let n := if bits 2 low 0 == 3 then 4 else 2
    if a.h.pc.toNat + n > 65536 then ((a.fault 1 a.h.pc).run s, none)
    else
      ((clearStall a.h.ctx a.u.ctx (a.h.wait == .ready)).run s, some (if n = 2 then .hartBaseInstruction (low.setWidth 32)
                else decodeHart (at_ 3 ++ at_ 2 ++ at_ 1 ++ at_ 0)))

/-! ## Turns of the agenda (log 1) -/

/-- An instruction of the table that is an event, not a word of an agent's program. -/
def Instr.isEvent (i : Instr) : Bool :=
  match i with
  | .undefinedWord _ | .fetchFault => false
  | i => (encodeNative i).isEmpty && (encodeHart i).isEmpty && (encodeExdin i).isEmpty

/-- The outcome of an instruction that began in the state `s`; one of a program that issued may be tagged (R428). -/
def tagAfter (s : State) (i : Instr) (o : Host.Outcome State Fault Refusal) : Host.Outcome State Fault Refusal :=
  match o with
  | .next t => .next (if Instr.isEvent i then t else s.tagged t)
  | o => o

def issueTurn (a : Agent) (s : State) : State × Option Instr :=
  let s := { s with cur := a }
  match a with
  | .none => (s, none)
  | .gang .. => gangTurn s
  | .hart .. => hartTurn s

/-- The state after the agenda's next turn has begun, and the instruction or event that then runs. With an empty agenda
the agents issue in turn (log 2). -/
def nextTurn (s : State) : State × Option Instr :=
  match s.agenda with
  | [] => issueTurn (s.turnOf s.nextAgent) s
  | t :: rest =>
    let s := { s with agenda := rest }
    match t with
    | .issue a => issueTurn (s.turnOf a) s
    | .tick ns => ((passTime ns).run s, none)
    | .event i a => if Instr.isEvent i then ({ s with args := a }, some i) else (s, none)

/-! ## Placing a word as the next instruction (log 18) -/

/-- Whether a table row's bits are a hart's word, and whether they are an Exdin head word. -/
def isHartRow (nbits w : Nat) : Bool := decide (nbits ≤ 32) && hartExt (BitVec.ofNat 32 w)
def isExdinRow (nbits w : Nat) : Bool := decide (nbits ≤ 32) && !hartExt (BitVec.ofNat 32 w)
def isBundleRow (nbits w : Nat) : Bool := decide (nbits > 32) && wordMaj (BitVec.ofNat 64 w) == 0x3C

/-- The bytes of a row's instruction as they are stored, with zero words up to the longest instruction of its kind. -/
def tableBytes (nbits w : Nat) : List Byte :=
  leBytes w (if isHartRow nbits w then 4 else if isExdinRow nbits w then 32 else if isBundleRow nbits w then 136 else 40)

/-- Bytes stored where the agent that `cur` names fetches its next instruction, when they can be, with its turn next. -/
def placeHere (s : State) (bs : List Byte) : State :=
  let s := { s with agenda := .issue s.cur :: s.agenda }
  match s.cur with
  | .none => s
  | .hart c st =>
    (onHart c st fun h => { h with store := h.store.take h.pc.toNat ++ List.replicate (h.pc.toNat - h.store.length) 0 ++ bs
                                              ++ h.store.drop (h.pc.toNat + bs.length) }).run s
  | .gang .. =>
    match unitOf s 0 with
    | none => s
    | some u =>
      (Prog.all [
        Prog.each (List.range bs.length) fun i =>
          match s.locate u.grid u.ctx (u.pc + BitVec.ofNat 64 i) with
          | some (_, l) => .one (.write l [bs.getD i 0])
          | none => .done,
        dropCode u.c u.blk.ctx u.pc.toNat bs.length]).run s

/-- One more than the greatest key. -/
def Tab.fresh {β : Type} (t : Tab β) : Nat := t.foldl (fun m e => max m (e.1 + 1)) 0

/-- Segments of the context that `installFresh` installs: a save area of four pages and a code page, whose page table stands
in the save area's last page. -/
def freshSegs : List Seg :=
  [{ base := 0x100000, limit := 0x40000, ptab := 0, attr := 0x80000000000D },
   { base := 0x200000, limit := 0x10000, ptab := 0x130000, attr := 0x1D }]

/-- The page tables of that context: the save area's, at physical address 0, and the code page's. -/
def freshTables (m : Mem) : Mem :=
  (((((m.writeAll 0 (leBytes 0x10001 8)).writeAll 8 (leBytes 0x20001 8)).writeAll 16 (leBytes 0x30001 8)).writeAll 24
    (leBytes 0x40001 8))).writeAll 0x40000 (leBytes 0x50001 8)

/-- A block of sixteen lanes with 192 registers each, as one gang or one thread, at the code page. -/
def freshBlock (x g : Nat) (vliw : Bool) : Block :=
  { grid := g, ctx := x, idx := 0, bx := 0, byy := 0, bz := 0, width := 16, n := 192, phys := [0, 1, 2, 3],
    lanes := List.replicate 16 {},
    slices := List.replicate 4 { gang := 0, pc := 0x200000, live := 15, active := 15 },
    gangs := [(0, { vliw })], nextGang := 1 }

/-- A context with one grid, and on core 0 one block of it, or the loader hart, about to run the bytes. -/
def installFresh (s : State) (nbits w : Nat) (bs : List Byte) : State :=
  let x := max 1 s.ctxs.fresh
  let g := s.grids.fresh
  let hart := isHartRow nbits w
  let k := s.core 0
  let k := if hart then { k with loader := { run := true, grid := g, ctx := x, store := bs }, gated := false }
    else { k with blocks := k.blocks.set 0 (freshBlock x g (isBundleRow nbits w)), gated := false, ic := [], dc := [], slot := {},
                  qmask := if isBundleRow nbits w then 1 else 0 }
  let agent : Agent := if hart then .hart 0 false else .gang 0 0 0
  { s with
    mem := if hart then freshTables s.mem else (freshTables s.mem).writeAll 0x50000 bs
    cores := s.cores.set 0 k
    ctxs := s.ctxs.set x { saveVa := 0x100000, saveSize := 0x2000000, savePt := 0, feat := Config.offered }
    grids := s.grids.set g
      { ctx := x, segs := freshSegs, started := true, placed := [0], hasHart := hart
        exdin := if isExdinRow nbits w then some { nreg := 0, decls := [], map := [] } else none }
    sys := if s.sys.st = .fatal then { s.sys with st := .locked } else s.sys
    agenda := .issue agent :: s.agenda
    cur := agent }

/-- The word becomes the next instruction: where the agent that issued last fetches, when it then runs there, and otherwise
in a fresh context. -/
def placeWord (s : State) (nbits w : Nat) : State :=
  let bs := tableBytes nbits w
  let t := placeHere s bs
  if s.cur != .none && (nextTurn t).2 == decodeTableWord nbits w then t else installFresh s nbits w bs

end Sys2Proof.Machine
end

