-- ==== Sys2Proof/Machine/Rhavos.lean ====
section
/-! DEFINITION. Host registers and the commands of Rhavos (14 R411 to R416, R421, R426, R429, R450; 10 R326), module reset and
boot (14 R420). -/

namespace Sys2Proof.Machine

/-! ## Host-facing registers (R4, R411, R413, R416) -/

/-- STATE of R416. -/
def ModSt.code : ModSt → Nat
  | .boot => 0 | .recovery => 1 | .ready => 2 | .locked => 3 | .fatal => 4

/-- The 64-bit register at an offset of BAR0 that is a multiple of 8, as the host reads it: write-only registers, reserved
fields and reserved offsets read zero (R4, R5, R350, R411, R413, R416, R422). -/
def Sys.register (y : Sys) (off : Nat) : W64 :=
  let bit := fun (b : Bool) (n : Nat) => if b then 2 ^ n else 0
  if off < 0x2000 then
    let q := y.queue (off / 32)
    match off % 32 / 8 with
    | 0 => q.base
    | 1 => BitVec.ofNat 64 (bit q.en 63 + 2 ^ 48 * (q.ctx % 2 ^ 12) + 2 ^ 44 * (q.szl % 16))
    | 2 => 0
    | _ => q.head.setWidth 64
  else if off = 0x2000 then BitVec.ofNat 64 (2 ^ 32 * y.rh.len.toNat + 2 ^ 16 * y.rh.seq.toNat + y.rh.opc.toNat)
  else if off = 0x2008 then
    BitVec.ofNat 64 (bit y.rh.done 63 + bit y.rh.busy 62 + 2 ^ 16 * y.rh.seqDone.toNat + y.rh.result.toNat)
  else if 0x2100 ≤ off ∧ off < 0x3000 then BitVec.ofNat 64 (leNat (y.rh.args.bytes (off - 0x2100) 8))
  else if off = 0x3000 then BitVec.ofNat 64 y.st.code
  else if off = 0x3008 then BitVec.ofNat 64 y.boots
  else if off = 0x3010 then y.invCtx.setWidth 64
  else if off = 0x3018 then y.invStart
  else if off = 0x3020 then y.invLen
  else if 0x3040 ≤ off ∧ off < 0x3078 then BitVec.ofNat 64 (y.errors.getD ((off - 0x3040) / 8) 0)
  else 0

/-- A byte of BAR0 as the host reads it. -/
def Sys.bar0 (y : Sys) (a : Nat) : Byte := bits 8 (y.register (a / 8 * 8)) (8 * (a % 8))

/-- REGISTER_WRITE: arguments offset in BAR0, value. A write of GO starts the command, and is ignored while one runs (R413). A
register with an event of its own, a read-only one and a reserved offset ignore it. A write is taken as one of 64 bits
at the offset of a register, and at another offset it is ignored: the spec gives no access size (log 73). -/
def registerWrite (s : State) : Prog :=
  let off := s.arg 0
  let v : W64 := BitVec.ofNat 64 (s.arg 1)
  if off < 0x2000 then
    let q := s.sys.queue (off / 32)
    Prog.when (off % 32 == 0 && !q.en && q.head == q.tail)
      (onHostQueue (off / 32) fun e => { e with base := v &&& ~~~(0xFFF : W64) })
  else if off = 0x2000 then
    .one (.sys fun y => { y with rh := { y.rh with len := bits 32 v 32, seq := bits 16 v 16, opc := bits 16 v 0 } })
  else if 0x2100 ≤ off ∧ off < 0x3000 ∧ off % 8 = 0 then
    .one (.sys fun y => { y with rh := { y.rh with args := y.rh.args.writeAll (off - 0x2100) (leBytes v.toNat 8) } })
  else if off = 0x2010 then
    Prog.when (!s.sys.rh.busy) (.one (.sys fun y => { y with rh := { y.rh with busy := true, done := false } }))
  else if off = 0x3010 then .one (.sys fun y => { y with invCtx := bits 12 v 0 })
  else if off = 0x3018 then .one (.sys fun y => { y with invStart := v })
  else if off = 0x3020 then .one (.sys fun y => { y with invLen := v })
  else .done
def execRegisterWrite (s : State) : Host.Outcome State Fault Refusal := runEvent registerWrite s

/-- INVGO (R416), which a replay withholds (R431). -/
def execInvgo (s : State) : Host.Outcome State Fault Refusal :=
  runEvent (fun s => Prog.when s.sys.replay.isNone (invalidate s.sys.invCtx.toNat s.sys.invStart s.sys.invLen true)) s

/-! ## Commands (R413, R414, R450) -/

/-- What a command answers: RESULT (0 OK, 1 unknown, 2 bad argument, 3 refused, 4 BUSY), its results and its effect. -/
structure CmdRes where
  code : Nat
  out : List Byte := []
  prog : Prog := .done
  /-- The command still runs in the state that its effect so far leaves: it is BUSY, and goes on at its next event. -/
  runs : State → Bool := fun _ => false

/-- A command from the host, or from a device party of a context; it takes its argument words and its argument bytes. -/
abbrev Cmd := State → Option Nat → (Nat → W64) → List Byte → CmdRes

/-- No argument word holds a bit beyond its field of `ws` bits. -/
def wordsFit (ws : List Nat) (a : Nat → W64) : Bool := ws.zipIdx.all fun e => decide ((a e.2).toNat < 2 ^ e.1)

/-- A host command with operation code `opc`, which a write of GO has started: Rhavos performs it; outside READY and LOCKED only
IMGWRITE and RESET are performed (R413, R420). -/
def hostCmd (opc : Nat) (ws : List Nat) (f : Cmd) (s : State) : Prog :=
  let r := s.sys.rh
  if s.sys.st == .boot || s.sys.st == .fatal || r.opc.toNat != opc || !r.busy then .done
  else
    let n := r.len.toNat
    let a := fun i => BitVec.ofNat 64 (leNat (r.args.bytes (8 * i) 8))
    let x : CmdRes :=
      if s.sys.st == .recovery && opc != 0x0D && opc != 0x0E then { code := 3 }
      else if n > 3840 || n < 8 * ws.length || !wordsFit ws a then { code := 2 }
      else f s none a (r.args.bytes 0 n)
    if x.runs (x.prog.run s) then x.prog
    else
      (Prog.one (.sys fun y =>
        { y with rh := { y.rh with
            done := true, busy := false, seqDone := y.rh.seq, result := BitVec.ofNat 16 x.code
            args := y.rh.args.writeAll 0 x.out } })).andThen x.prog

/-- The oldest message of mailbox 0 that Rhavos has not consumed: its 64 bytes, LEN, KIND and sender (R289, R414). -/
def State.service (s : State) : Option (List Byte × Nat × Nat × Nat) :=
  match s.sys.mbx.get? 0 with
  | none => none
  | some e =>
    let head := leNat (s.mem.bytes e.ring.toNat 8)
    if BitVec.ofNat 32 head == e.tail then none
    else
      let a := (slotAddr e (head % 2 ^ 32)).toNat
      let h := leNat (s.mem.bytes (a + 64) 8)
      some (s.mem.bytes a 64, h % 2 ^ 8, h / 2 ^ 8 % 4, h / 2 ^ 16 % 2 ^ 12)

/-- Rhavos advances HEAD of mailbox 0. -/
def consumeService : Prog :=
  .read fun s =>
    match s.sys.mbx.get? 0 with
    | none => .done
    | some e => .one (.write ⟨0, 0, e.ring.toNat⟩ (leBytes (leNat (s.mem.bytes e.ring.toNat 8) + 1) 8))

/-- The reply address may be written in the sender's context. -/
def State.replyOk (s : State) (x : Nat) (va : W64) : Bool :=
  match s.ctx? x with
  | some c => va.toNat % 64 == 0 && (devLoc s (viaCtx s c) c .wr va).isSome
  | none => false

/-- The 64-byte reply (R414). -/
def writeReply (x : Nat) (va : W64) (code : Nat) (out : List Byte) : Prog :=
  .read fun s =>
    match s.ctx? x with
    | some c => devWrite (viaCtx s c) c va (leBytes code 8 ++ out.take 56 ++ List.replicate (56 - out.length) 0)
    | none => .done

/-- Rhavos consumes the oldest message of mailbox 0 without acting on it and records it. -/
def passService : Prog :=
  consumeService.andThen (.one (.sys fun y => { y with log := y.log ++ [.message 0] }))

/-- The oldest message of mailbox 0, as the device command that a condition on its operation code picks. -/
def devCmd (pick : Nat → Bool) (ws : List Nat) (f : Cmd) (s : State) : Prog :=
  match s.service with
  | none => .done
  | some (bs, len, kind, x) =>
    if kind != 0 || len != 64 || !pick (leNat (bs.take 2)) then .done
    else
      let va := getW bs 8
      if !s.replyOk x va then passService
      else
        let a := fun i => getW bs (16 + 8 * i)
        let r : CmdRes := if wordsFit ws a then f s (some x) a (bs.drop 16) else { code := 2 }
        Prog.all [r.prog, writeReply x va r.code r.out, consumeService]

/-- A command that the host and device parties may give: argument 0 says that mailbox 0's oldest message gives it. -/
def eitherCmd (opc : Nat) (ws : List Nat) (f : Cmd) (s : State) : Prog :=
  if s.arg 0 = 1 then devCmd (fun n => n == opc) ws f s else hostCmd opc ws f s

/-- Device parties may use MBXREG, MBXUNREG, CODESYNC and DBGCTL alone. -/
def deviceOpcs : List Nat := [0x05, 0x06, 0x07, 0x09]

/-- SERVICE_MAILBOX_MESSAGE: a message that is not a command is consumed; a command that device parties may not use
answers 3 (R414). -/
def serviceMessage (s : State) : Prog :=
  match s.service with
  | none => .done
  | some (_, len, kind, _) =>
    if kind != 0 || len != 64 then passService
    else devCmd (fun n => !deviceOpcs.contains n) [] (fun _ _ _ _ => { code := 3 }) s
def execServiceMailboxMessage (s : State) : Host.Outcome State Fault Refusal := runEvent serviceMessage s

/-- UNKNOWN_COMMAND: the operation code names none (R413). -/
def unknownCommand (s : State) : Prog :=
  let n := s.sys.rh.opc.toNat
  if 1 ≤ n ∧ n ≤ 0x10 then .done else hostCmd n [] (fun _ _ _ _ => { code := 1 }) s
def execUnknownCommand (s : State) : Host.Outcome State Fault Refusal := runEvent unknownCommand s

/-! ## Feature words (R326, R415) -/

def execFeatget (s : State) : Host.Outcome State Fault Refusal :=
  runEvent (hostCmd 0x01 [] fun _ _ _ _ => { code := 0, out := Config.offered.flatMap fun w => leBytes w.toNat 8 }) s

/-- Four words are a subset of others. -/
def subWords (a b : List W64) : Bool := (List.range 4).all fun i => a.getD i 0 &&& ~~~(b.getD i 0) == 0

def cmdFeatset : Cmd := fun s _ a _ =>
  let ws := (List.range 4).map a
  if s.sys.lockedFeat.isSome || !subWords ws Config.offered then { code := 3 }
  else { code := 0, prog := .one (.sys fun y => { y with lockedFeat := some ws, st := .locked, hist := y.hist ++ [.locked] }) }
def execFeatset (s : State) : Host.Outcome State Fault Refusal := runEvent (hostCmd 0x02 [64, 64, 64, 64] cmdFeatset) s

/-! ## Contexts (R33, R328, R387, R449) -/

def cmdCtxnew : Cmd := fun s _ a _ =>
  let x := (a 0).toNat
  let fs := (List.range 4).map fun i => a (6 + i)
  match s.sys.lockedFeat with
  | none => { code := 3 }
  | some l =>
    if x = 0 || (s.ctx? x).isSome || !subWords fs l then { code := 2 }
    else if s.ctxs.length ≥ 64 then { code := 3 }
    else
      let new : Context := { prio := (a 1).toNat, saveVa := a 2, saveSize := a 3, savePt := a 4, sup := a 5, feat := fs }
      { code := 0, prog := (Prog.one (.newCtx x new)).andThen (.one (.sys fun y =>
        { y with checkpoints := y.checkpoints.filter fun k => k.ctx != x })) }
def execCtxnew (s : State) : Host.Outcome State Fault Refusal :=
  runEvent (hostCmd 0x03 [12, 3, 64, 64, 39, 64, 64, 64, 64, 64] cmdCtxnew) s

/-- Blocks of a context that are over end, and its grids that are over complete. -/
def settleContext (x : Nat) : Prog :=
  Prog.all [
    .read fun s => Prog.each s.cores fun e => Prog.each (e.2.blocks.filter fun b => b.2.ctx == x) fun b =>
      .read fun t => Prog.when (t.blockOver e.1 b.1) (endBlock e.1 b.1),
    .read fun s => Prog.each (s.grids.filter fun g => g.2.ctx == x) fun g => completeGrid g.1]

/-- Something of a context is still resident or in flight: a block, a grid, a delivery, a copy of a hart. -/
def State.leftOf (s : State) (x : Nat) : Bool :=
  (s.grids.any fun g => g.2.ctx == x) || (s.sys.deliveries.any fun d => d.ctx == x)
    || s.cores.any fun e => (e.2.blocks.any fun b => b.2.ctx == x)
      || [e.2.loader, e.2.storer].any fun h => h.cq.ops.any fun o => o.ctx == x

/-- What is left of a context on the module goes with it; bytes that it held belong to no context that may come (R35), which
4096 stands for. -/
def freeContext (x : Nat) : Prog :=
  .read fun s => Prog.all [
    Prog.each s.cores fun e => .one (.core e.1 fun k =>
      { k with
        ic := dropCtx k.ic x, dc := dropCracksOf k.dc x, kc := dropCtx k.kc x, poolCtx := k.poolCtx.map fun e => (e.1, if e.2 = x then 4096 else e.2)
        samples := k.samples.filter fun y => y.ctx != x
        pgatePend := if k.pgatePend = some x then none else k.pgatePend }),
    Prog.each s.clusters fun e => .one (.clus e.1 fun q =>
      { q with
        tl := dropCtx q.tl x, l1 := q.l1.filter fun e => e.ctx != x, csuCtx := if q.csuCtx = x then 4096 else q.csuCtx
        active := if q.active.ctx = x then {} else q.active, shadow := if q.shadow.ctx = x then {} else q.shadow }),
    .one (.sys fun y =>
      { y with
        vaults := y.vaults.map fun v => (v.1, { v.2 with lines := v.2.lines.map fun e => if e.ctx = x then { e with ctx := 4096 } else e })
        moves := y.moves.filter fun m => m.ctx != x, deferred := y.deferred.filter fun d => d.ctx != x, pins := y.pins.filter fun p => p.1 != x
        replay := y.replay.bind fun r => if r.1 = x then none else some r }),
    .one (.delCtx x)]

/-- A Spillway entry of the context stands in some FIFO. -/
def State.spillsOf (s : State) (x : Nat) : Bool := s.cores.any fun e => !(e.2.entriesOf x).isEmpty

/-- CTXEND ends every grid and packet of the context, and frees it once their operations and messages have completed, which take
their time as otherwise; it is BUSY until then (R290, R357, R387). -/
def cmdCtxend : Cmd := fun s _ a _ =>
  let x := (a 0).toNat
  match s.ctx? x with
  | none => { code := 2 }
  | some c =>
    if !c.closing && s.spillsOf x then { code := 4 }
    else
      { code := 0
        prog := Prog.all [
          if c.closing then killContext x cContextEnd else endContextGrids x cContextEnd,
          .one (.ctx x fun c => { c with closing := true }), settleContext x,
          .read fun t => if t.leftOf x then .done else freeContext x]
        runs := fun t => (t.ctx? x).isSome }
def execCtxend (s : State) : Host.Outcome State Fault Refusal := runEvent (hostCmd 0x04 [12] cmdCtxend) s

/-! ## Mailboxes (R288, R415) -/

/-- The owner: the sender's context, or the host's argument. -/
def cmdMbxreg : Cmd := fun s from_ a _ =>
  let m := (a 0).toNat
  let owner := match from_ with | some x => x | none => (a 5).toNat
  let old := (s.sys.mbx.get? m).getD {}
  if (a 2).toNat > 10 || (a 1).toNat % 128 != 0 || (a 4).toNat % 128 != 0 || (s.ctx? owner).isNone then { code := 2 }
  else if m = 0 || (old.valid && old.owner != owner) then { code := 3 }
  else
    let new : Mailbox :=
      { handler := a 4, ring := a 1, depth := (a 2).toNat, opn := a 3 != 0, owner, valid := true,
        tail := if old.valid then old.tail else 0, slots := if old.valid then old.slots else [],
        running := if old.valid then old.running else none }
    { code := 0, prog := .one (.sys fun y => { y with mbx := y.mbx.set m new }) }
def execMbxreg (s : State) : Host.Outcome State Fault Refusal :=
  runEvent (fun s => eitherCmd 0x05 (if s.arg 0 = 1 then [12, 64, 4, 1, 64, 64] else [12, 64, 4, 1, 64, 12]) cmdMbxreg s) s

/-- Something is pending on a mailbox: a waiting sender, a delivery, a handler launch. -/
def State.mailPending (s : State) (m : Nat) : Bool :=
  let e := (s.sys.mbx.get? m).getD {}
  !e.slots.isEmpty || e.running.isSome || s.sys.deliveries.any (fun d => d.mbx == m)
    || s.cores.any fun k =>
        (k.2.blocks.any fun b => b.2.gangs.any fun g => g.2.wait == .mbsend m)
          || k.2.loader.wait == .hsig m || k.2.storer.wait == .hsig m
    || s.ctxs.any fun x =>
        (x.2.saved.any fun v => v.blk.gangs.any fun g => g.2.wait == .mbsend m)
          || x.2.coreRecs.any fun r => [r.2.loader, r.2.storer].any fun h => h.any fun h => h.wait == .hsig m

def cmdMbxunreg : Cmd := fun s from_ a _ =>
  let m := (a 0).toNat
  let e := (s.sys.mbx.get? m).getD {}
  if m = 0 || (match from_ with | some x => e.valid && e.owner != x | none => false) then { code := 3 }
  else if s.mailPending m then { code := 4 }
  else { code := 0, prog := .one (.sys fun y => { y with mbx := y.mbx.modify m fun e => { e with valid := false } }) }
def execMbxunreg (s : State) : Host.Outcome State Fault Refusal := runEvent (eitherCmd 0x06 [12] cmdMbxunreg) s

/-! ## CODESYNC and DBGCTL (R405, R426) -/

/-- The context that a command acts on: the sender's, or the one its first argument names. -/
def cmdCtx (from_ : Option Nat) (a : Nat → W64) : Nat := match from_ with | some x => x | none => (a 0).toNat

def cmdCodesync : Cmd := fun s from_ a _ =>
  let x := cmdCtx from_ a
  if (s.ctx? x).isNone then { code := 2 }
  else { code := 0, prog := (Prog.each (List.range 16) settleDie).andThen (dropFetched x) }
def execCodesync (s : State) : Host.Outcome State Fault Refusal := runEvent (eitherCmd 0x07 [12] cmdCodesync) s

/-- Bits 63:16 and 7:4 of the control word are reserved and ignored (R5). MEMDBG needs FW3[1], TRACE and SAMPLE FW3[2] (R327,
R426). -/
def cmdDbgctl : Cmd := fun s from_ a _ =>
  let x := cmdCtx from_ a
  let w := a 1 &&& 0xFF0F
  match s.ctx? x with
  | none => { code := 2 }
  | some c =>
    let f := c.feat.getD 3 0
    if (w.getLsbD 0 && !f.getLsbD 1) || ((w.getLsbD 1 || w.getLsbD 2) && !f.getLsbD 2) then
      { code := 2 }
    else { code := 0, prog := .one (.ctx x fun c => { c with dbg := w, traceVa := a 2, traceSize := a 3 }) }
def execDbgctl (s : State) : Host.Outcome State Fault Refusal := runEvent (eitherCmd 0x09 [12, 64, 64, 64] cmdDbgctl) s

/-! ## Block stops (R429) -/

/-- A resident block of a context by its coordinates, with its core and key. -/
def State.blockAt (s : State) (x : Nat) (bx byy bz : W32) : Option (Nat × Nat × Block) :=
  s.cores.findSome? fun e =>
    (e.2.blocks.find? fun b => b.2.ctx == x && b.2.bx == bx && b.2.byy == byy && b.2.bz == bz).map fun b => (e.1, b.1, b.2)

/-- Coordinates in words 1 to 3. -/
def coordOf (a : Nat → W64) (i : Nat) : W32 := (a i).setWidth 32

/-- A saved block that the coordinates name. -/
def SavedBlock.atCoord (v : SavedBlock) (a : Nat → W64) : Bool :=
  v.blk.bx == coordOf a 1 && v.blk.byy == coordOf a 2 && v.blk.bz == coordOf a 3

/-- A block that is saved already is held where it is. -/
def cmdStop : Cmd := fun s _ a _ =>
  let x := (a 0).toNat
  match s.ctx? x with
  | none => { code := 2 }
  | some ctx =>
    match s.blockAt x (coordOf a 1) (coordOf a 2) (coordOf a 3) with
    | some (c, b, _) => { code := 0, prog := stopBlock c b }
    | none => if ctx.saved.any fun v => v.atCoord a then { code := 0, prog := holdSaved x fun v => v.atCoord a } else { code := 2 }
def execStop (s : State) : Host.Outcome State Fault Refusal := runEvent (hostCmd 0x0A [12, 32, 32, 32] cmdStop) s

/-- The block that a stop holds in its record, or still on its core. -/
def cmdResume : Cmd := fun s _ a _ =>
  let x := (a 0).toNat
  match (s.ctx? x).bind fun c => c.saved.find? fun v => v.stopped && v.atCoord a with
  | some v =>
    let free := fun w : SavedBlock => if w.num = v.num then { w with stopped := false }.makeEligible s.sys.time else w
    let p := (Prog.one (.ctx x fun c => { c with saved := c.saved.map free })).andThen
      (Prog.read fun t => (t.resumeGroup x v.blk.grid (t.grpOf v.blk)).getD .done)
    { code := 0, prog := p }
  | none =>
    match s.blockAt x (coordOf a 1) (coordOf a 2) (coordOf a 3) with
    | some (c, b, y) => if y.halt then { code := 0, prog := onBlock c b fun y => { y with halt := false } } else { code := 2 }
    | none => { code := 2 }
def execResume (s : State) : Host.Outcome State Fault Refusal := runEvent (hostCmd 0x0B [12, 32, 32, 32] cmdResume) s

/-! ## Module reset and boot (R420) -/

/-- The service mailbox (R414). -/
def serviceBox : Mailbox := { ring := Config.serviceRing, depth := 8, opn := true, owner := 0, valid := true }

/-- Module reset and boot: everything but device and external memory, the image and BOOTS is lost; the image is verified, and without the
boot-recovery strap the module is then READY, with mailbox 0 registered. -/
def bootModule (strap : Bool) : Prog :=
  .read fun s =>
    let ok := !strap && Config.imageVerifies s.sys.image
    Prog.all [
      Prog.each s.cores fun e => .one (.core e.1 fun _ => {}),
      Prog.each s.clusters fun e => .one (.clus e.1 fun _ => {}),
      Prog.each s.ctxs fun e => .one (.delCtx e.1),
      Prog.each s.grids fun e => .one (.delGrid e.1),
      .one (.held fun _ => []), .one (.cur .none),
      Prog.when ok (.one (.zero ⟨0, 0, Config.serviceRing.toNat⟩ 8)),
      .one (.sys fun y =>
        { st := if ok then .ready else .recovery, hist := [.boot, if ok then .ready else .recovery], boots := y.boots + 1, image := y.image
          mbx := if ok then [(0, serviceBox)] else [] })]

/-- MODULE_RESET: argument whether the boot-recovery strap is set. -/
def execModuleReset (s : State) : Host.Outcome State Fault Refusal := runEvent (fun s => bootModule (s.arg 0 == 1)) s

/-- RESET: argument as MODULE_RESET's. -/
def execReset (s : State) : Host.Outcome State Fault Refusal :=
  runEvent (hostCmd 0x0E [] fun s _ _ _ => { code := 0, prog := bootModule (s.arg 0 == 1) }) s

/-- Bytes of a list from `o` replaced. -/
def patch (l : List Byte) (o : Nat) (bs : List Byte) : List Byte :=
  l.take o ++ List.replicate (o - l.length) 0 ++ bs ++ l.drop (o + bs.length)

def execImgwrite (s : State) : Host.Outcome State Fault Refusal :=
  runEvent (hostCmd 0x0D [64] fun s _ a bs =>
    if s.sys.st != .recovery then { code := 3 }
    else { code := 0, prog := .one (.sys fun y => { y with image := patch y.image (a 0).toNat (bs.drop 8) }) }) s

def execDumpbase (s : State) : Host.Outcome State Fault Refusal :=
  runEvent (hostCmd 0x0F [64, 64] fun _ _ a _ =>
    if (a 0).toNat % 2 ^ 21 != 0 then { code := 2 }
    else { code := 0, prog := .one (.sys fun y => { y with dumpBase := some (a 0, a 1) }) }) s

/-- Byte `i` of a tower's coupling table (R364). -/
def couplingByte (im : List Byte) (tower i : Nat) : Byte := if i < 1536 then Config.coupling im tower (i / 16) (i % 16) else 0

def execCoupling (s : State) : Host.Outcome State Fault Refusal :=
  runEvent (hostCmd 0x10 [3, 64] fun s _ a _ =>
    if (a 1).toNat % 64 != 0 then { code := 2 }
    else { code := 0, out := (List.range 1024).map fun i => couplingByte s.sys.image (a 0).toNat ((a 1).toNat + i) }) s

/-! ## Attestation (R421) -/

/-- `n` bytes of a list, with zero bytes after its end. -/
def fitTo (n : Nat) (l : List Byte) : List Byte := l.take n ++ List.replicate (n - l.length) 0

/-- The first 176 bytes of the report. -/
def reportBody (y : Sys) (nonce : List Byte) : List Byte :=
  leBytes 0x54414853 4 ++ leBytes 1 4 ++ fitTo 64 (Config.sha512 y.image) ++ fitTo 32 nonce
    ++ ((List.range 4).flatMap fun i => leBytes (((y.lockedFeat.getD []).getD i 0).toNat) 8)
    ++ leBytes y.boots 8 ++ fitTo 32 Config.identityKey

def execAttest (s : State) : Host.Outcome State Fault Refusal :=
  runEvent (hostCmd 0x08 [64, 64, 64, 64] fun s _ _ bs =>
    let b := reportBody s.sys (bs.take 32)
    { code := 0, out := b ++ fitTo 64 (Config.sign b) }) s

end Sys2Proof.Machine
end

