-- ==== Sys2Proof/Machine/Dump.lean ====
section
/-! DEFINITION. The dump of a fatal error (14 R425). The spec names what each of its parts holds and lays out MAGIC alone; the offsets
within a part are the model's (DESIGN CHOICE, log 88), and bytes of a part that hold none of it are free. -/

namespace Sys2Proof.Machine

/-- Bytes of the dump. -/
def dumpSize : Nat := 0x1131000

/-- Bytes at offsets. -/
abbrev Pieces := List (Nat × List Byte)

/-- Pieces at an offset. -/
def Pieces.at_ (o : Nat) (l : Pieces) : Pieces := l.map fun e => (o + e.1, e.2)

/-- The header: MAGIC, `%time` at detection, the detecting unit (die, cluster, core, vault), the syndrome, the last 32 values of STATE,
and the counters of R422. -/
def headerPieces (y : Sys) (f : FatalInfo) : Pieces :=
  [(0, leBytes 0x504D5544 4), (8, leBytes f.time 8), (16, (List.range 4).flatMap fun i => leBytes (f.unit.getD i 0) 2),
   (24, leBytes f.syndrome 8), (32, (y.hist.drop (y.hist.length - 32)).flatMap fun x => leBytes x.code 1),
   (64, (List.range 7).flatMap fun i => leBytes (y.errors.getD i 0) 8)]

/-- The issue state of a physical slice: PC, live and active lanes, whether a block holds it and whether its gang waits, context and
gang. -/
def Core.slicePiece (k : Core) (i : Nat) : List Byte :=
  match k.blocks.find? fun b => b.2.phys.contains i with
  | none => List.replicate 16 0
  | some b =>
    match (b.2.phys.idxOf? i).bind b.2.slice? with
    | none => List.replicate 16 0
    | some x =>
      let waits := (b.2.gangs.get? x.gang).any fun g => g.wait != .ready
      leBytes x.pc.toNat 8 ++ leBytes x.live.toNat 1 ++ leBytes x.active.toNat 1 ++ [1, if waits then 1 else 0]
        ++ leBytes b.2.ctx 2 ++ leBytes x.gang 2

/-- A barrier: EXP, ARR, PH and PEND. -/
def Barrier.piece (q : Barrier) : List Byte :=
  leBytes q.exp 1 ++ leBytes q.arr 1 ++ leBytes (if q.ph then 1 else 0) 2 ++ leBytes q.pend 4

/-- A flume: whether a grid holds it, its partition, its cursors' number, its posts and its cursors. -/
def Flume.piece (f : Flume) : List Byte :=
  leBytes (if f.grid.isSome then 1 else 0) 2 ++ leBytes f.part 2 ++ leBytes f.ncur 2 ++ leBytes f.posts.toNat 2
    ++ (List.range 4).flatMap fun i => leBytes (f.cur.getD i 0).toNat 2

/-- A copy queue's entries: identifier, bytes, whether they have moved, source and destination. -/
def CopyQueue.piece (q : CopyQueue) : List Byte :=
  (q.ops.take 16).flatMap fun o =>
    leBytes o.id 4 ++ leBytes o.total 4 ++ leBytes (if o.moved then 1 else 0) 8 ++ leBytes o.src.base 8 ++ leBytes o.dst.base 8

/-- A core record: quarter mask, lease, Spillway counts, issue state, barriers, flumes, and the copy queues of both harts and of each
block by its key. -/
def State.corePieces (s : State) (c : Nat) : Pieces :=
  let k := s.core c
  [(0, leBytes k.qmask.toNat 8), (8, leBytes (leaseVal (s.cluster (clusterOf c)) c) 8),
   (16, leBytes k.inbound.length 4 ++ leBytes k.arriving.length 4 ++ leBytes k.outFree 4 ++ leBytes k.popsInFlight 4),
   (0x100, (List.range 16).flatMap k.slicePiece), (0x200, (List.range 64).flatMap fun i => (k.bar i).piece)]
    ++ ((List.range 32).map fun i => (0x800 + 32 * i, (k.flume i).piece))
    ++ (List.range 18).map fun q => (0x1000 + 512 * q, (s.queueOf c q).piece)

/-- A distributor record: the packets that have units of the die left, each with the first unit and their number. -/
def State.distributorPiece (s : State) (d : Nat) : List Byte :=
  let l := s.gridOrder.filterMap fun e =>
    let us := e.2.unplacedUnits d
    us.head?.map fun u => leBytes e.2.va.toNat 8 ++ leBytes u 4 ++ leBytes us.length 4
  leBytes l.length 8 ++ (l.take 255).flatten

/-- The 32 bytes of a mailbox entry; bits above 191 are zero (R288). -/
def mailboxBytes (e : Mailbox) : List Byte :=
  leBytes ((if e.valid then 1 else 0) + 2 ^ 12 * e.owner + (if e.opn then 2 ^ 24 else 0) + 2 ^ 25 * e.depth) 4
    ++ leBytes e.tail.toNat 4 ++ leBytes e.ring.toNat 8 ++ leBytes e.handler.toNat 8 ++ leBytes 0 8

/-- The 32 bytes of a log entry: its kind and its numbers. -/
def LogEntry.bytes (e : LogEntry) : List Byte :=
  let f := fun (k a b c : Nat) => leBytes k 8 ++ leBytes a 8 ++ leBytes b 8 ++ leBytes c 8
  match e with
  | .refused va code => f 1 va.toNat code 0
  | .badDoorbell q => f 2 q 0 0
  | .mailDropped m => f 3 m 0 0
  | .message m => f 4 m 0 0
  | .succMiss va => f 5 va.toNat 0 0
  | .context x cause => f 6 x cause 0
  | .corrected sram dram places => f 7 sram dram (places.headD 0)
  | .portDown p => f 8 p 0 0
  | .invalid code word reason => f 9 code.toNat word reason

/-- Everything that the dump holds, at its offsets. -/
def State.dumpPieces (s : State) (f : FatalInfo) : Pieces :=
  headerPieces s.sys f
    ++ ((List.range 768).flatMap fun c => Pieces.at_ (0x1000 + 0x5000 * c) (s.corePieces c))
    ++ ((List.range 16).map fun d => (0x1001000 + 4096 * d, s.distributorPiece d))
    ++ ((List.range 4096).map fun m => (0x1011000 + 32 * m, mailboxBytes ((s.sys.mbx.get? m).getD {})))
    ++ (s.sys.log.drop (s.sys.log.length - 32768)).zipIdx.map fun e => (0x1031000 + 32 * e.2, e.1.bytes)

/-- The dump is written to DUMPBASE, as far as it has room; without a DUMPBASE it is skipped (R424). -/
def dump (s : State) (f : FatalInfo) : Prog :=
  match s.sys.dumpBase with
  | none => .done
  | some (base, size) =>
    (freeBytes ⟨1, 0, base.toNat⟩ (min dumpSize size.toNat)).andThen
      (Prog.each (s.dumpPieces f) fun e => Prog.when (e.1 + e.2.length ≤ size.toNat) (.one (.write ⟨1, 0, base.toNat + e.1⟩ e.2)))

end Sys2Proof.Machine
end

