-- ==== Sys2Proof/Machine/Module.lean ====
section
/-! DEFINITION. The module's ports, errors, checkpoints and replay (14 R412, R417 to R419, R422 to R424, R429 to R431; 13 R407). -/

namespace Sys2Proof.Machine

/-! ## Errors (R422, R423) -/

/-- A corrected error's log entry, at the places where it lies. -/
def corrected (sram dram : Nat) (places : List Nat) : Prog :=
  Prog.all [countError 0 sram, countError 2 dram,
    Prog.when (sram + dram > 0) (.one (.sys fun y => { y with log := y.log ++ [.corrected sram dram places] }))]

/-- An uncorrectable error that an instruction fetch of a gang met is raised at its next boundary (R385, R423). -/
def fetchError (c b g : Nat) (va : W64) : Prog :=
  .read fun s =>
    match s.block? c b with
    | none => .done
    | some x =>
      raiseLater c b { cause := BitVec.ofNat 8 cEcc, pc := va, addr := va, lanes := maskOf 64 (x.activeLanes (x.members g)),
                       slices := maskOf 16 (x.members g), time := s.sys.time }

/-- PATROL_SCRUB: arguments corrected errors found in SRAM and in DRAM; whether an uncorrectable error is found in DRAM (1) or SRAM (2);
one more than the context whose save record or control state holds it, or 0; one more than the core on which an instruction fetch
met it, or 0, with the block, the gang and the address; and where the corrected ones lie, which Rhavos logs. -/
def patrolScrub (s : State) : Prog :=
  Prog.all [corrected (s.arg 0) (s.arg 1) (s.args.num.drop 8),
    Prog.when (s.arg 2 != 0) (Prog.all [countEcc (s.arg 2),
      Prog.when (s.arg 3 > 0 && (s.ctx? (s.arg 3 - 1)).isSome) (endContextGrids (s.arg 3 - 1) cEcc),
      Prog.when (s.arg 4 > 0) (fetchError (s.arg 4 - 1) (s.arg 5) (s.arg 6) (BitVec.ofNat 64 (s.arg 7)))])]
def execPatrolScrub (s : State) : Host.Outcome State Fault Refusal := runEvent patrolScrub s

/-! ## Links (R417) -/

/-- FLIT_RETRY: arguments port (0 to 15 peer, 16 and 17 host), whether the flit is another than the last that was retried. -/
def flitRetry (s : State) : Prog :=
  let p := s.arg 0
  if p ≥ 16 then countError 4 1
  else
    let q := (s.sys.ports.get? p).getD {}
    let n := if s.arg 1 = 1 then 1 else q.retries + 1
    let down := decide (n ≥ 64)
    if !q.up then .done
    else Prog.all [countError 5 1, .one (.sys fun y => { y with ports := y.ports.set p { q with retries := n, up := !down } }),
      Prog.when down ((countError 6 1).andThen (.one (.sys fun y => { y with log := y.log ++ [.portDown p] })))]
def execFlitRetry (s : State) : Host.Outcome State Fault Refusal := runEvent flitRetry s

/-! ## Frames of a context -/

/-- Ranges of device memory that hold a context: the entries and pages of its save area, and the PRESENT device pages of its
table and of its grids' locked tables. -/
def State.framesOf (s : State) (x : Context) (gs : List Grid) : List (Nat × Nat) :=
  let n := (x.saveSize.toNat + x.savePage - 1) / x.savePage
  let segs := (ctxSegs s x :: gs.map (·.segs)).flatMap fun t => t.map fun g => (t, g)
  (x.savePt.toNat, 8 * n) :: ((List.range n).map fun j => ((saveLoc s x (j * x.savePage)).a, x.savePage))
    ++ segs.flatMap fun e => (List.range ((e.2.limit.toNat + e.2.page - 1) / e.2.page)).filterMap fun j =>
      match walk s [] e.1 x.savePt walkFuel (e.2.base + BitVec.ofNat 64 (j * e.2.page)) with
      | .pte g _ p => if pteSt p = 1 ∧ !pteHost p ∧ !g.isExt then some ((pteLoc g p e.2.base).a, g.page) else none
      | _ => none

/-- Grids of a context. -/
def State.gridsOf (s : State) (x : Nat) : List (Nat × Grid) := s.grids.filter fun e => e.2.ctx == x

/-- Contexts that are checkpointed and hold an address of device memory. -/
def State.loggers (s : State) (a : Nat) : List Nat :=
  (s.ctxs.filter fun e => e.2.ckT != 0
    && (s.framesOf e.2 ((s.gridsOf e.1).map (·.2))).any fun f => decide (f.1 ≤ a) && decide (a < f.1 + f.2)).map (·.1)

/-- Who writes from outside: the host or a peer, on port `n` (peer ports from 2), under a plain or a weak write. -/
structure Outside where
  peer : Bool
  n : Nat
  weak : Bool

/-- Numbers of an order log's entry. -/
def Outside.nums (o : Outside) : List Nat := [if o.peer then 1 else 0, o.n, if o.weak then 1 else 0]
def Outside.ofNums (l : List Nat) : Outside := { peer := l.getD 0 0 == 1, n := l.getD 1 0, weak := l.getD 2 0 == 1 }

/-- A write from outside joins the order logs of the contexts whose memory it writes. -/
def logOutside (o : Outside) (a : Nat) (bs : List Byte) : Prog :=
  .read fun s => Prog.each (s.loggers a) fun x => logOrder x { kind := 2, addr := a, who := o.nums, bytes := bs }

/-- The die that holds the port. -/
def Outside.die (o : Outside) : Nat := (Config.portDie o.n).toNat

/-- No die goes on reading what a write to some bytes has replaced. -/
def showAll (a n : Nat) : Prog := Prog.each (List.range 16) fun d => mergeRead d ⟨0, 0, a⟩ n

/-! ## Writes and reads from outside (R348, R412, R418, R419) -/

/-- Bytes of device memory (R331). -/
def memBytes : Nat := 2 ^ 39

/-- A write that covers the header of a slot of a registered mailbox is a delivery there (R419). -/
def arriveMail (a n : Nat) : Prog :=
  .read fun s =>
    Prog.each (s.sys.mbx.filter fun e => e.2.valid) fun e =>
      let m := e.1
      let hits := (List.range (2 ^ e.2.depth)).filterMap fun i =>
        match s.ringLoc m e.2 (slotAddr e.2 i) with
        | some l => if l.sp = 0 ∧ a ≤ l.a + 64 ∧ l.a + 72 ≤ a + n then some l.a else none
        | none => none
      Prog.each hits fun l => Prog.all [
        .one (.sys fun y => { y with mbx := y.mbx.modify m fun e =>
          { e with tail := e.tail + 1, slots := if e.handler = 0 then e.slots else e.slots ++ [e.tail.toNat] } }),
        mailWakes e.2.owner,
        .read fun t =>
          let h := leNat (t.mem.bytes (l + 64) 8)
          match t.ringLoc m e.2 e.2.ring with
          | some q => invMessage m e.2 q (h / 2 ^ 8 % 4) (t.mem.bytes l (h % 2 ^ 8))
          | none => .done]

/-- A write from outside to device memory. A plain one is stamped by the die that holds its port, behind what that die has written or
applied, and applied everywhere at once; a weak one carries no stamp (R344, R348, log 9). The tile paths give up what they hold
(R340). -/
def writeOutside (o : Outside) (a : Nat) (bs : List Byte) : Prog :=
  Prog.when (a + bs.length ≤ memBytes) <|
    Prog.all [
      if o.weak then mergeRead o.die ⟨0, 0, a⟩ bs.length else (showAll a bs.length).andThen (bumpClock o.die ⟨0, 0, a⟩ 0),
      .one (.write ⟨0, 0, a⟩ bs), dropPaths none false,
      logOutside o a bs, Prog.when o.peer (arriveMail a bs.length)]

/-- PEER_WRITE_ARRIVAL: arguments peer port, device physical address, whether it is `.w`; the bytes. Live traffic is withheld
during a replay (R431). -/
def peerWriteArrival (s : State) : Prog :=
  let q := (s.sys.ports.get? (s.arg 0)).getD {}
  Prog.when (decide (s.arg 0 < 16) && q.up && s.sys.replay.isNone)
    (writeOutside { peer := true, n := s.arg 0 + 2, weak := s.arg 2 = 1 } (s.arg 1) s.args.bytes)
def execPeerWriteArrival (s : State) : Host.Outcome State Fault Refusal := runEvent peerWriteArrival s

/-- Types of an atomic from a peer. -/
def peerTy : Nat → Ty
  | 0 => .n32 | 1 => .i32 | 2 => .n64 | 3 => .i64 | _ => .f32

/-- Bytes are returned to a reader outside. -/
def answerOutside (bs : List Byte) : Prog := .one (.sys fun y => { y with readData := bs })

/-- A read from outside of device memory on port `n`: a plain causal read of the die that holds the port (R348). -/
def readOutside (n a len : Nat) : Prog :=
  (mergeRead (Config.portDie n).toNat ⟨0, 0, a⟩ len).andThen (.read fun s => answerOutside (s.mem.bytes a len))

/-- PEER_READ_ARRIVAL: arguments peer port, address, bytes, whether it is a `.sys` atomic, its operation (R193), its type, its
operands. The answer takes a flit on RSP for each 240 bytes; without the credit it waits (R417). -/
def peerReadArrival (s : State) : Prog :=
  let p := s.arg 0
  let a := s.arg 1
  let q := (s.sys.ports.get? p).getD {}
  let t := peerTy (s.arg 5)
  let w := t.bits / 8
  let flits := min 256 ((if s.arg 3 = 0 then s.arg 2 else w) / 240 + 1)
  if p ≥ 16 || !q.up || s.sys.replay.isSome || decide (s.sys.credit p 1 < flits) then .done
  else
    (Prog.one (.sys fun y => y.setCredit p 1 (y.credit p 1 - flits))).andThen <|
      if s.arg 3 = 0 then Prog.when (a + s.arg 2 ≤ memBytes) (readOutside (p + 2) a (s.arg 2))
      else
        let o : Outside := { peer := true, n := p + 2, weak := false }
        Prog.when (a % w = 0 && a + w ≤ memBytes) <|
          Prog.all [showAll a w, bumpClock o.die ⟨0, 0, a⟩ 0,
            rmw [(⟨0, 0, a⟩, w)] w (fun old => atomNew (s.arg 4) t old (s.arg 6) (s.arg 7)) fun old =>
              Prog.all [answerOutside (leBytes old w), dropPaths none false, .read fun s => logOutside o a (s.mem.bytes a w)]]
def execPeerReadArrival (s : State) : Host.Outcome State Fault Refusal := runEvent peerReadArrival s

/-- The record of the block that a stop holds, by its context and coordinates from argument `i` on. -/
def State.stoppedAt (s : State) (i : Nat) : Option SavedBlock :=
  let at_ := fun (j : Nat) => BitVec.ofNat 32 (s.arg (i + j))
  (s.ctx? (s.arg i)).bind fun c => c.saved.find? fun v => v.stopped && v.blk.bx == at_ 1 && v.blk.byy == at_ 2 && v.blk.bz == at_ 3

/-- HOST_ACCESS: arguments host port, what it reaches (0 device memory, 1 the host's own memory behind that port, 2 BAR0, 3 the save
record of a stopped block), address, whether a write, whether relaxed, the bytes of a read, and the context and coordinates of a
stopped block; the bytes of a write. A write to BAR0 has an event of its own. -/
def hostAccess (s : State) : Prog :=
  let p := s.arg 0
  let a := s.arg 2
  let n := s.arg 5
  if p ≥ 2 then .done
  else if s.arg 3 = 0 then
    match s.arg 1 with
    | 0 => Prog.when (a + n ≤ memBytes) (readOutside p a n)
    | 1 => answerOutside (s.ext.bytes (2 ^ 64 * p + a) n)
    | 3 => match s.stoppedAt 6 with | some v => answerOutside ((List.range n).map fun i => v.byteAt (a + i)) | none => .done
    | _ => Prog.when (a + n ≤ 65536) (answerOutside ((List.range n).map fun i => s.sys.bar0 (a + i)))
  else
    match s.arg 1 with
    | 0 => Prog.when s.sys.replay.isNone (writeOutside { peer := false, n := p, weak := s.arg 4 = 1 } a s.args.bytes)
    | 1 => .one (.write ⟨1, 0, 2 ^ 64 * p + a⟩ s.args.bytes)
    | 3 =>
      match s.stoppedAt 6 with
      | none => .done
      | some v => .one (.ctx (s.arg 6) fun c => { c with saved := c.saved.map fun w =>
          if w.num = v.num then s.args.bytes.zipIdx.foldl (fun w e => w.setByteAt (a + e.2) e.1) w else w })
    | _ => .done
def execHostAccess (s : State) : Host.Outcome State Fault Refusal := runEvent hostAccess s

/-! ## Checkpoints and replay (R430, R431) -/

/-- CKPT; it needs FW3 bit 3. -/
def cmdCkpt : Cmd := fun s _ a _ =>
  let x := (a 0).toNat
  match s.ctx? x with
  | none => { code := 2 }
  | some c =>
    if (a 1).toNat > 100 || !(c.feat.getD 3 0).getLsbD 3 then { code := 2 }
    else
      { code := 0, prog := .one (.ctx x fun c =>
          { c with ckT := (a 1).toNat, ckBase := a 2, ckSize := a 3, ckDue := s.sys.time + ms (a 1).toNat }) }
def execCkpt (s : State) : Host.Outcome State Fault Refusal := runEvent (hostCmd 0x0C [12, 64, 64, 64] cmdCkpt) s

/-- The copies of a context's harts and resident blocks complete. -/
def flushCopies (x : Nat) : Prog :=
  .read fun s => Prog.each s.cores fun e =>
    (Prog.each [(0, e.2.loader), (1, e.2.storer)] fun (h : Nat × Hart) => Prog.when (h.2.run && h.2.ctx == x) <|
      Prog.each h.2.cq.ops fun _ => completeCopy e.1 h.1 none).andThen
    (Prog.each (e.2.blocks.filter fun b => b.2.ctx == x) fun b => Prog.each b.2.cq.ops fun _ => completeCopy e.1 (b.1 + 2) none)

/-- An engine operation of a saved context is still in flight: a copy, or its message. -/
def State.copiesLeft (s : State) (x : Nat) : Bool :=
  (s.sys.deliveries.any fun d => d.ctx == x)
    || (s.ctx? x).any fun c => (c.saved.any fun v => !v.blk.cq.ops.isEmpty)
      || c.coreRecs.any fun r => [r.2.loader, r.2.storer].any fun h => h.any fun h => !h.cq.ops.isEmpty

/-- The saved groups of a context that may resume now do. -/
def resumeAll (x : Nat) : Prog :=
  .read fun s =>
    match s.ctx? x with
    | none => .done
    | some c => Prog.each c.saved fun v => .read fun t => (t.resumeGroup x v.blk.grid (t.grpOf v.blk)).getD .done

/-- The checkpoint region of a context takes what a checkpoint puts there, in a layout that the spec leaves open. -/
def fillRegion (x : Nat) : Prog :=
  .read fun s =>
    match s.ctx? x with
    | none => .done
    | some c =>
      Prog.each (List.range (c.ckSize.toNat / 65536 + 1)) fun i =>
        let va := c.ckBase + BitVec.ofNat 64 (65536 * i)
        match devLoc s (viaCtx s c) c .wr va with
        | some l => freeBytes l (min 65536 (c.ckSize.toNat - 65536 * i))
        | none => .done

/-- 64 KiB pages of a saved context that have been written since its last checkpoint: those of which a byte has changed, or all of
them (log 89). -/
def State.pagesWritten (s : State) (x : Nat) (c : Context) : Nat :=
  let old := s.sys.checkpoints.find? fun k => k.ctx == x
  let pages := (s.framesOf c ((s.gridsOf x).map (·.2))).flatMap fun f => (List.range ((f.2 + 65535) / 65536)).map fun i => f.1 + 65536 * i
  ((dedup pages).filter fun a => match old with | some k => k.mem.slice a 65536 != s.mem.slice a 65536 | none => true).length

/-- The region of a context holds a checkpoint of the saved context (log 89). -/
def State.regionHolds (s : State) (x : Nat) (c : Context) : Bool :=
  decide ((c.saved.map fun v => (s.pktOf v.blk).saveBytes).sum + 65536 * s.pagesWritten x c ≤ c.ckSize.toNat)

/-- The checkpoint that a context's state makes. The Rill's words that its core records hold go back to the running context alone
(R123). -/
def State.snapshot (s : State) (x : Nat) : Prog :=
  match s.ctx? x with
  | none => .done
  | some c =>
    let context := { c with coreRecs := c.coreRecs.map fun r => (r.1, { r.2 with rill := [] }) }
    let new : Checkpoint :=
      { ctx := x, context, grids := s.gridsOf x, mbx := s.sys.mbx.filter fun (e : Nat × Mailbox) => e.2.valid && e.1 != 0 && e.2.owner == x
        mem := s.mem, log := [] }
    if s.regionHolds x c then
      (Prog.one (.sys fun y => { y with checkpoints := y.checkpoints.filter (fun k => k.ctx != x) ++ [new] })).andThen (fillRegion x)
    else .done

/-- CHECKPOINT: argument context; every *T* ms. The context is saved with its engine operations complete, copied and resumed; a
checkpoint that its region cannot hold is abandoned (R430). -/
def checkpoint (s : State) : Prog :=
  let x := s.arg 0
  match s.ctx? x with
  | none => .done
  | some c =>
    let quiet := Prog.all [.one (.ctx x fun c => { c with ckDue := s.sys.time + ms c.ckT }), flushCopies x, saveContext x]
    let t := quiet.run s
    if c.ckT = 0 || decide (s.sys.time < c.ckDue) || s.sys.replay.isSome || !((s.groupsOf x).all fun p => s.groupSaveable p.1 p.2)
        || t.copiesLeft x then .done
    else Prog.all [quiet, .read fun u => u.snapshot x, resumeAll x]
def execCheckpoint (s : State) : Host.Outcome State Fault Refusal := runEvent checkpoint s

/-- A range of device memory takes the bytes that a checkpoint holds of it. -/
def restoreRange (m : Mem) (f : Nat × Nat) : Prog :=
  (Prog.one (.zero ⟨0, 0, f.1⟩ f.2)).andThen (Prog.each (m.slice f.1 f.2) fun e => .one (.write ⟨0, 0, f.1 + e.1⟩ [e.2]))

/-- A context as its checkpoint holds it: its memory, grids and mailboxes. -/
def restoreContext (k : Checkpoint) : Prog :=
  .read fun s =>
    let gs := k.grids.map fun g => g.2
    let frames := State.framesOf { s with mem := k.mem } k.context gs
    Prog.all [
      Prog.each frames (restoreRange k.mem), .one (.newCtx k.ctx k.context),
      Prog.each k.grids fun g => .one (.newGrid g.1 g.2),
      .one (.sys fun y => { y with mbx := k.mbx.foldl (fun t e => t.set e.1 e.2) y.mbx })]

/-- An entry of a replay's logs is made: a delivery, or a write from outside. -/
def replayEntry (s : State) (e : OrderRec) : Prog :=
  if e.kind = 1 then
    match mailTo { s with sys := { s.sys with replay := none } } e.addr (e.who.getD 0 0) (e.who.getD 1 0) e.bytes with
    | .ok p => p
    | _ => .done
  else writeOutside (Outside.ofNums e.who) e.addr e.bytes

/-- REPLAY: argument context. It creates the context from its checkpoint and begins the replay, or makes the delivery or write
that stands first in the logs; with nothing left there, the replay is over. -/
def replay (s : State) : Prog :=
  let x := s.arg 0
  match s.sys.replay with
  | none =>
    match s.sys.checkpoints.find? fun k => k.ctx == x with
    | none => .done
    | some k =>
      if s.sys.st != .locked || (s.ctx? x).isSome || decide (s.ctxs.length ≥ 64) then .done
      else Prog.all [restoreContext k, .one (.sys fun y => { y with replay := some (x, k.log) }), resumeAll x]
  | some (y, log) =>
    if y ≠ x then .done
    else
      match log with
      | [] => .one (.sys fun y => { y with replay := none })
      | e :: r =>
        if e.kind = 0 then .done
        else (replayEntry s e).andThen (.one (.sys fun y => { y with replay := some (x, r) }))
def execReplay (s : State) : Host.Outcome State Fault Refusal := runEvent replay s

/-! ## Fatal errors (R424, R425) -/

/-- A grid that a fatal error has ended, as its context has it when it is created again. -/
def Grid.failed (g : Grid) : Grid :=
  if g.done then g else { g with cause := BitVec.ofNat 8 cEcc, armed := false, done := true }

/-- The module reset and boot after a fatal error, the feature words as they were, and the contexts: each restored from its checkpoint
and resumed, or created again with its grids ended, which then complete (R424). -/
def recover (strap : Bool) : Prog :=
  .read fun s =>
    let kept := fun (x : Nat) => s.sys.checkpoints.find? fun k => k.ctx == x
    let y := s.sys
    let ends := s.grids.filter fun e => (kept e.2.ctx).isNone
    Prog.all [
      bootModule strap,
      .one (.sys fun z =>
        let ok := z.st == .ready && y.lockedFeat.isSome
        { z with
          lockedFeat := if z.st = .ready then y.lockedFeat else none
          st := if ok then .locked else z.st, hist := if ok then z.hist ++ [.locked] else z.hist
          deliveries := if ok then y.deliveries.filter fun d =>
            (match d.src with | .grid g => ends.any fun e => e.1 == g | _ => false) else []
          checkpoints := y.checkpoints, nextGrid := y.nextGrid, nextOrder := y.nextOrder, nextId := y.nextId }),
      .read fun t => Prog.when (t.sys.st == .locked) <| Prog.all [
        Prog.each s.ctxs fun e =>
          match kept e.1 with
          | some k => (restoreContext k).andThen (resumeAll e.1)
          | none =>
            .one (.newCtx e.1
              { prio := e.2.prio, saveVa := e.2.saveVa, saveSize := e.2.saveSize, savePt := e.2.savePt, savePage := e.2.savePage
                sup := e.2.sup, feat := e.2.feat }),
        Prog.each ends fun e => .one (.newGrid e.1 e.2.failed),
        Prog.each ends fun e => completeGrid e.1]]

/-- FATAL_ERROR: arguments whether the boot-recovery strap is set, the syndrome, whether an uncorrectable error in DRAM (1) or SRAM (2)
is counted, and the detecting unit as die, cluster, core and vault. It takes the steps of R424 one after another: the error, with
which issue stops; the dump; the reset with what follows it. -/
def fatalError (s : State) : Prog :=
  match s.sys.failure with
  | none =>
    (countEcc (s.arg 2)).andThen (.one (.sys fun y =>
      { y with
        st := .fatal, hist := y.hist ++ [.fatal]
        failure := some { time := y.time, unit := (s.args.num.drop 3).take 4, syndrome := s.arg 1 } }))
  | some f =>
    if f.dumped then recover (s.arg 0 == 1)
    else (dump s f).andThen (.one (.sys fun y => { y with failure := some { f with dumped := true } }))
def execFatalError (s : State) : Host.Outcome State Fault Refusal := runEvent fatalError s

/-! ## Unloading code (R407) -/

/-- An address on a divergence stack. -/
def DivEntry.addr : DivEntry → W64
  | .join a _ _ | .path a _ => a

/-- A block holds a PC or an RPC that a condition picks: of a slice, on a divergence stack, where a loop begins, in a frame or a phase
record. -/
def Block.holdsPc (b : Block) (f : W64 → Bool) : Bool :=
  (b.slices.any fun x => x.isLive && (f x.pc || x.stack.any fun e => f e.addr))
    || (b.gangs.any fun g => (g.2.frames.any fun r => f r.rpc || r.loops.any fun l => f l.start) || g.2.loops.any fun l => f l.start)
    || (match b.phaseRec with | some r => f r.pc | none => false)

/-- A context holds a PC, an RPC or an armed packet in a range. -/
def State.holdsCode (s : State) (x : Nat) (c : Context) (f : W64 → Bool) : Bool :=
  (s.cores.any fun e => e.2.blocks.any fun b => b.2.ctx == x && b.2.holdsPc f)
    || (c.saved.any fun v => v.blk.holdsPc f)
    || (s.gridsOf x).any fun g => g.2.armed && f g.2.pkt.code

/-- A marked context's saved blocks will raise CODE-GONE; its resident ones are pre-empted and resumed at once. -/
def markGone (x : Nat) : Prog :=
  .read fun s => Prog.all [
    .one (.ctx x fun c => { c with saved := c.saved.map fun v => { v with codeGone := true } }),
    Prog.each (s.groupsOf x) fun p => .read fun t =>
      if t.groupSaveable p.1 p.2 then
        Prog.all [
          saveGroup p.1 p.2 none,
          .one (.ctx x fun c => { c with saved := c.saved.map fun v =>
            if v.blk.grid = p.1 ∧ t.grpOf v.blk = p.2 then { v with codeGone := true } else v }),
          .read fun u => (u.resumeGroup x p.1 p.2).getD .done]
      else Prog.each (t.groupOf p.1 p.2) fun r => takeGone r.1 r.2.1]

/-- FORCED_UNLOAD: arguments whether it is forced, base and length of the code object, and the contexts that it is loaded in. The
loader is answered 0 (OK) or, where an unload that is not forced is refused, 4 (BUSY). -/
def forcedUnload (s : State) : Prog :=
  let lo := s.arg 1
  let inObj := fun (a : W64) => decide (lo ≤ a.toNat) && decide (a.toNat < lo + s.arg 2)
  let l := (s.args.num.drop 3).filterMap fun x => (s.ctx? x).map fun c => (x, c)
  let held := l.filter fun e => s.holdsCode e.1 e.2 inObj
  if s.arg 0 = 0 ∧ held ≠ [] then answerOutside [4]
  else
    Prog.all [
      Prog.each l fun e => Prog.each s.cores fun c => .one (.core c.1 fun k =>
        { k with ic := k.ic.filter fun w => !(w.ctx == e.1 && inObj w.addr), dc := k.dc.filter fun w => !(w.ctx == e.1 && inObj w.addr) }),
      Prog.each held fun e => markGone e.1,
      answerOutside [0]]
def execForcedUnload (s : State) : Host.Outcome State Fault Refusal := runEvent forcedUnload s

end Sys2Proof.Machine
end

