-- ==== Sys2Proof/Machine/Dispatch.lean ====
section
/-! DEFINITION. The meaning of every instruction of the table: one arm per constructor of `Instr`. -/

namespace Sys2Proof.Machine

def exec (i : Instr) (s : State) : Host.Outcome State Fault Refusal :=
  match i with
  | .iadd f => Sys2Proof.Machine.execIadd f s
  | .isub f => Sys2Proof.Machine.execIsub f s
  | .iaddc f => Sys2Proof.Machine.execIaddc f s
  | .imul f => Sys2Proof.Machine.execImul f s
  | .imulh f => Sys2Proof.Machine.execImulh f s
  | .imad f => Sys2Proof.Machine.execImad f s
  | .idiv f => Sys2Proof.Machine.execIdiv f s
  | .irem f => Sys2Proof.Machine.execIrem f s
  | .ineg f => Sys2Proof.Machine.execIneg f s
  | .iabs f => Sys2Proof.Machine.execIabs f s
  | .imin f => Sys2Proof.Machine.execImin f s
  | .imax f => Sys2Proof.Machine.execImax f s
  | .icmp f => Sys2Proof.Machine.execIcmp f s
  | .iaddImm32 f => Sys2Proof.Machine.execIaddImm32 f s
  | .imulImm32 f => Sys2Proof.Machine.execImulImm32 f s
  | .andImm32 f => Sys2Proof.Machine.execAndImm32 f s
  | .orImm32 f => Sys2Proof.Machine.execOrImm32 f s
  | .xorImm32 f => Sys2Proof.Machine.execXorImm32 f s
  | .shlImm32 f => Sys2Proof.Machine.execShlImm32 f s
  | .shrImm32 f => Sys2Proof.Machine.execShrImm32 f s
  | .sarImm32 f => Sys2Proof.Machine.execSarImm32 f s
  | .rotImm32 f => Sys2Proof.Machine.execRotImm32 f s
  | .movi32 f => Sys2Proof.Machine.execMovi32 f s
  | .iaddImm64 f => Sys2Proof.Machine.execIaddImm64 f s
  | .imulImm64 f => Sys2Proof.Machine.execImulImm64 f s
  | .andImm64 f => Sys2Proof.Machine.execAndImm64 f s
  | .orImm64 f => Sys2Proof.Machine.execOrImm64 f s
  | .xorImm64 f => Sys2Proof.Machine.execXorImm64 f s
  | .shlImm64 f => Sys2Proof.Machine.execShlImm64 f s
  | .shrImm64 f => Sys2Proof.Machine.execShrImm64 f s
  | .sarImm64 f => Sys2Proof.Machine.execSarImm64 f s
  | .rotImm64 f => Sys2Proof.Machine.execRotImm64 f s
  | .movi64 f => Sys2Proof.Machine.execMovi64 f s
  | .andR f => Sys2Proof.Machine.execAndR f s
  | .orR f => Sys2Proof.Machine.execOrR f s
  | .xorR f => Sys2Proof.Machine.execXorR f s
  | .andn f => Sys2Proof.Machine.execAndn f s
  | .notR f => Sys2Proof.Machine.execNotR f s
  | .shl f => Sys2Proof.Machine.execShl f s
  | .shr f => Sys2Proof.Machine.execShr f s
  | .sar f => Sys2Proof.Machine.execSar f s
  | .rot f => Sys2Proof.Machine.execRot f s
  | .bfx f => Sys2Proof.Machine.execBfx f s
  | .bfi f => Sys2Proof.Machine.execBfi f s
  | .popc f => Sys2Proof.Machine.execPopc f s
  | .clz f => Sys2Proof.Machine.execClz f s
  | .ctz f => Sys2Proof.Machine.execCtz f s
  | .brev f => Sys2Proof.Machine.execBrev f s
  | .nop f => Sys2Proof.Machine.execNop f s
  | .mov f => Sys2Proof.Machine.execMov f s
  | .movl f => Sys2Proof.Machine.execMovl f s
  | .sel f => Sys2Proof.Machine.execSel f s
  | .pset f => Sys2Proof.Machine.execPset f s
  | .pmov f => Sys2Proof.Machine.execPmov f s
  | .lea f => Sys2Proof.Machine.execLea f s
  | .fadd f => Sys2Proof.Machine.execFadd f s
  | .fsub f => Sys2Proof.Machine.execFsub f s
  | .fmul f => Sys2Proof.Machine.execFmul f s
  | .ffma f => Sys2Proof.Machine.execFfma f s
  | .fmin f => Sys2Proof.Machine.execFmin f s
  | .fmax f => Sys2Proof.Machine.execFmax f s
  | .fcmp f => Sys2Proof.Machine.execFcmp f s
  | .fclass f => Sys2Proof.Machine.execFclass f s
  | .fdiv f => Sys2Proof.Machine.execFdiv f s
  | .fsqrt f => Sys2Proof.Machine.execFsqrt f s
  | .faddImm f => Sys2Proof.Machine.execFaddImm f s
  | .fmulImm f => Sys2Proof.Machine.execFmulImm f s
  | .fminImm f => Sys2Proof.Machine.execFminImm f s
  | .fmaxImm f => Sys2Proof.Machine.execFmaxImm f s
  | .frcp f => Sys2Proof.Machine.execFrcp f s
  | .frsq f => Sys2Proof.Machine.execFrsq f s
  | .fexp2 f => Sys2Proof.Machine.execFexp2 f s
  | .flog2 f => Sys2Proof.Machine.execFlog2 f s
  | .fsin f => Sys2Proof.Machine.execFsin f s
  | .fcos f => Sys2Proof.Machine.execFcos f s
  | .ftanh f => Sys2Proof.Machine.execFtanh f s
  | .hadd2 f => Sys2Proof.Machine.execHadd2 f s
  | .hmul2 f => Sys2Proof.Machine.execHmul2 f s
  | .hfma2 f => Sys2Proof.Machine.execHfma2 f s
  | .dot4 f => Sys2Proof.Machine.execDot4 f s
  | .cvt f => Sys2Proof.Machine.execCvt f s
  | .cvti f => Sys2Proof.Machine.execCvti f s
  | .cvtf f => Sys2Proof.Machine.execCvtf f s
  | .rnd f => Sys2Proof.Machine.execRnd f s
  | .pack f => Sys2Proof.Machine.execPack f s
  | .unpack f => Sys2Proof.Machine.execUnpack f s
  | .scaleq f => Sys2Proof.Machine.execScaleq f s
  | .bscale f => Sys2Proof.Machine.execBscale f s
  | .shfli f => Sys2Proof.Machine.execShfli f s
  | .shflx f => Sys2Proof.Machine.execShflx f s
  | .shfld f => Sys2Proof.Machine.execShfld f s
  | .shfla f => Sys2Proof.Machine.execShfla f s
  | .bcast f => Sys2Proof.Machine.execBcast f s
  | .vote f => Sys2Proof.Machine.execVote f s
  | .redl f => Sys2Proof.Machine.execRedl f s
  | .scanl f => Sys2Proof.Machine.execScanl f s
  | .xmov f => Sys2Proof.Machine.execXmov f s
  | .ld f => Sys2Proof.Machine.execLd f s
  | .st f => Sys2Proof.Machine.execSt f s
  | .lds f => Sys2Proof.Machine.execLds f s
  | .sts f => Sys2Proof.Machine.execSts f s
  | .ldk f => Sys2Proof.Machine.execLdk f s
  | .stk f => Sys2Proof.Machine.execStk f s
  | .ldc f => Sys2Proof.Machine.execLdc f s
  | .pref f => Sys2Proof.Machine.execPref f s
  | .gath f => Sys2Proof.Machine.execGath f s
  | .scat f => Sys2Proof.Machine.execScat f s
  | .atom f => Sys2Proof.Machine.execAtom f s
  | .atoms f => Sys2Proof.Machine.execAtoms f s
  | .red f => Sys2Proof.Machine.execRed f s
  | .fence f => Sys2Proof.Machine.execFence f s
  | .pfence f => Sys2Proof.Machine.execPfence f s
  | .vjoin f => Sys2Proof.Machine.execVjoin f s
  | .cctl f => Sys2Proof.Machine.execCctl f s
  | .talloc f => Sys2Proof.Machine.execTalloc f s
  | .tseal f => Sys2Proof.Machine.execTseal f s
  | .tld f => Sys2Proof.Machine.execTld f s
  | .tst f => Sys2Proof.Machine.execTst f s
  | .tdrop f => Sys2Proof.Machine.execTdrop f s
  | .tquery f => Sys2Proof.Machine.execTquery f s
  | .qpost f => Sys2Proof.Machine.execQpost f s
  | .qtake f => Sys2Proof.Machine.execQtake f s
  | .qadv f => Sys2Proof.Machine.execQadv f s
  | .qcnt f => Sys2Proof.Machine.execQcnt f s
  | .mlease f => Sys2Proof.Machine.execMlease f s
  | .mrel f => Sys2Proof.Machine.execMrel f s
  | .mloadw f blk => Sys2Proof.Machine.execMloadw f blk s
  | .mswap f => Sys2Proof.Machine.execMswap f s
  | .mstream f blk => Sys2Proof.Machine.execMstream f blk s
  | .mzero f => Sys2Proof.Machine.execMzero f s
  | .mread f => Sys2Proof.Machine.execMread f s
  | .mwrite f => Sys2Proof.Machine.execMwrite f s
  | .mmeta f => Sys2Proof.Machine.execMmeta f s
  | .mshape f => Sys2Proof.Machine.execMshape f s
  | .cpy f blk => Sys2Proof.Machine.execCpy f blk s
  | .cpyAlloc f blk => Sys2Proof.Machine.execCpyAlloc f blk s
  | .cpyw f => Sys2Proof.Machine.execCpyw f s
  | .cpyq f => Sys2Proof.Machine.execCpyq f s
  | .splw f => Sys2Proof.Machine.execSplw f s
  | .splr f => Sys2Proof.Machine.execSplr f s
  | .splf f => Sys2Proof.Machine.execSplf f s
  | .mbsend f => Sys2Proof.Machine.execMbsend f s
  | .launch f => Sys2Proof.Machine.execLaunch f s
  | .bar f => Sys2Proof.Machine.execBar f s
  | .barxArv f => Sys2Proof.Machine.execBarxArv f s
  | .barxExp f => Sys2Proof.Machine.execBarxExp f s
  | .barw f => Sys2Proof.Machine.execBarw f s
  | .bbrot f => Sys2Proof.Machine.execBbrot f s
  | .waitc f => Sys2Proof.Machine.execWaitc f s
  | .qpoint f => Sys2Proof.Machine.execQpoint f s
  | .bra f => Sys2Proof.Machine.execBra f s
  | .call f => Sys2Proof.Machine.execCall f s
  | .rconv f => Sys2Proof.Machine.execRconv f s
  | .modeVliw f => Sys2Proof.Machine.execModeVliw f s
  | .modeSimt f => Sys2Proof.Machine.execModeSimt f s
  | .loop f => Sys2Proof.Machine.execLoop f s
  | .brx f => Sys2Proof.Machine.execBrx f s
  | .ret f => Sys2Proof.Machine.execRet f s
  | .exit f => Sys2Proof.Machine.execExit f s
  | .regang f => Sys2Proof.Machine.execRegang f s
  | .lend f => Sys2Proof.Machine.execLend f s
  | .yield f => Sys2Proof.Machine.execYield f s
  | .sleep f => Sys2Proof.Machine.execSleep f s
  | .pgrant f => Sys2Proof.Machine.execPgrant f s
  | .prels f => Sys2Proof.Machine.execPrels f s
  | .pgate f => Sys2Proof.Machine.execPgate f s
  | .trap f => Sys2Proof.Machine.execTrap f s
  | .hret f => Sys2Proof.Machine.execHret f s
  | .brk f => Sys2Proof.Machine.execBrk f s
  | .probe f => Sys2Proof.Machine.execProbe f s
  | .docinv f => Sys2Proof.Machine.execDocinv f s
  | .sread f => Sys2Proof.Machine.execSread f s
  | .swrite f => Sys2Proof.Machine.execSwrite f s
  | .bundle hdr words => Sys2Proof.Machine.execBundle hdr words s
  | .hcpy f => Sys2Proof.Machine.execHcpy f s
  | .hwait f => Sys2Proof.Machine.execHwait f s
  | .halloc f => Sys2Proof.Machine.execHalloc f s
  | .hpost f => Sys2Proof.Machine.execHpost f s
  | .hsig f => Sys2Proof.Machine.execHsig f s
  | .hsleep f => Sys2Proof.Machine.execHsleep f s
  | .exNop f => Sys2Proof.Machine.execExNop f s
  | .exMov f => Sys2Proof.Machine.execExMov f s
  | .exAdd f => Sys2Proof.Machine.execExAdd f s
  | .exSub f => Sys2Proof.Machine.execExSub f s
  | .exMul f => Sys2Proof.Machine.execExMul f s
  | .exMad f => Sys2Proof.Machine.execExMad f s
  | .exDiv f => Sys2Proof.Machine.execExDiv f s
  | .exRem f => Sys2Proof.Machine.execExRem f s
  | .exMin f => Sys2Proof.Machine.execExMin f s
  | .exMax f => Sys2Proof.Machine.execExMax f s
  | .exAnd f => Sys2Proof.Machine.execExAnd f s
  | .exOr f => Sys2Proof.Machine.execExOr f s
  | .exXor f => Sys2Proof.Machine.execExXor f s
  | .exShl f => Sys2Proof.Machine.execExShl f s
  | .exShr f => Sys2Proof.Machine.execExShr f s
  | .exBitc f => Sys2Proof.Machine.execExBitc f s
  | .exBfx f => Sys2Proof.Machine.execExBfx f s
  | .exBfi f => Sys2Proof.Machine.execExBfi f s
  | .exCmp f => Sys2Proof.Machine.execExCmp f s
  | .exSel f => Sys2Proof.Machine.execExSel f s
  | .exFadd f => Sys2Proof.Machine.execExFadd f s
  | .exFsub f => Sys2Proof.Machine.execExFsub f s
  | .exFmul f => Sys2Proof.Machine.execExFmul f s
  | .exFfma f => Sys2Proof.Machine.execExFfma f s
  | .exFmin f => Sys2Proof.Machine.execExFmin f s
  | .exFmax f => Sys2Proof.Machine.execExFmax f s
  | .exFdiv f => Sys2Proof.Machine.execExFdiv f s
  | .exFsqrt f => Sys2Proof.Machine.execExFsqrt f s
  | .exFcmp f => Sys2Proof.Machine.execExFcmp f s
  | .exFunc f => Sys2Proof.Machine.execExFunc f s
  | .exCvt f => Sys2Proof.Machine.execExCvt f s
  | .exQuant f => Sys2Proof.Machine.execExQuant f s
  | .exBscale f => Sys2Proof.Machine.execExBscale f s
  | .exShfl f => Sys2Proof.Machine.execExShfl f s
  | .exBcast f => Sys2Proof.Machine.execExBcast f s
  | .exVote f => Sys2Proof.Machine.execExVote f s
  | .exXred f => Sys2Proof.Machine.execExXred f s
  | .exXscan f => Sys2Proof.Machine.execExXscan f s
  | .exLd f => Sys2Proof.Machine.execExLd f s
  | .exSt f => Sys2Proof.Machine.execExSt f s
  | .exLds f => Sys2Proof.Machine.execExLds f s
  | .exSts f => Sys2Proof.Machine.execExSts f s
  | .exAtom f => Sys2Proof.Machine.execExAtom f s
  | .exFence f => Sys2Proof.Machine.execExFence f s
  | .exTalloc f => Sys2Proof.Machine.execExTalloc f s
  | .exTseal f => Sys2Proof.Machine.execExTseal f s
  | .exTld f => Sys2Proof.Machine.execExTld f s
  | .exTst f => Sys2Proof.Machine.execExTst f s
  | .exTdrop f => Sys2Proof.Machine.execExTdrop f s
  | .exQpost f => Sys2Proof.Machine.execExQpost f s
  | .exQtake f => Sys2Proof.Machine.execExQtake f s
  | .exCopy f => Sys2Proof.Machine.execExCopy f s
  | .exWload f => Sys2Proof.Machine.execExWload f s
  | .exMm f => Sys2Proof.Machine.execExMm f s
  | .exAcc f => Sys2Proof.Machine.execExAcc f s
  | .exIf f => Sys2Proof.Machine.execExIf f s
  | .exLoop f => Sys2Proof.Machine.execExLoop f s
  | .exBrk f => Sys2Proof.Machine.execExBrk f s
  | .exSreg f => Sys2Proof.Machine.execExSreg f s
  | .exExit f => Sys2Proof.Machine.execExExit f s
  | .undefinedWord w => Sys2Proof.Machine.execUndefinedWord w s
  | .hartBaseInstruction w => Sys2Proof.Machine.execHartBaseInstruction w s
  | .gsync => Sys2Proof.Machine.execGsync s
  | .phase => Sys2Proof.Machine.execPhase s
  | .join => Sys2Proof.Machine.execJoin s
  | .exElse => Sys2Proof.Machine.execExElse s
  | .exEndif => Sys2Proof.Machine.execExEndif s
  | .exEndloop => Sys2Proof.Machine.execExEndloop s
  | .exBar => Sys2Proof.Machine.execExBar s
  | .qtail => Sys2Proof.Machine.execQtail s
  | .qctl => Sys2Proof.Machine.execQctl s
  | .registerWrite => Sys2Proof.Machine.execRegisterWrite s
  | .invgo => Sys2Proof.Machine.execInvgo s
  | .launchPacketRead => Sys2Proof.Machine.execLaunchPacketRead s
  | .stealRequest => Sys2Proof.Machine.execStealRequest s
  | .unitPlacement => Sys2Proof.Machine.execUnitPlacement s
  | .blockEnd => Sys2Proof.Machine.execBlockEnd s
  | .gridCompletion => Sys2Proof.Machine.execGridCompletion s
  | .mailboxHandlerLaunch => Sys2Proof.Machine.execMailboxHandlerLaunch s
  | .mailboxDelivery => Sys2Proof.Machine.execMailboxDelivery s
  | .serviceMailboxMessage => Sys2Proof.Machine.execServiceMailboxMessage s
  | .copyCompletion => Sys2Proof.Machine.execCopyCompletion s
  | .gatherElement => Sys2Proof.Machine.execGatherElement s
  | .weightLoadCompletion => Sys2Proof.Machine.execWeightLoadCompletion s
  | .streamCompletion => Sys2Proof.Machine.execStreamCompletion s
  | .loadReturn => Sys2Proof.Machine.execLoadReturn s
  | .storeDrain => Sys2Proof.Machine.execStoreDrain s
  | .stampedWriteApply => Sys2Proof.Machine.execStampedWriteApply s
  | .monitorReexamine => Sys2Proof.Machine.execMonitorReexamine s
  | .monitorPoll => Sys2Proof.Machine.execMonitorPoll s
  | .waitcTimeout => Sys2Proof.Machine.execWaitcTimeout s
  | .sleepDeadline => Sys2Proof.Machine.execSleepDeadline s
  | .tileGrant => Sys2Proof.Machine.execTileGrant s
  | .poolStall => Sys2Proof.Machine.execPoolStall s
  | .tileDrain => Sys2Proof.Machine.execTileDrain s
  | .leaseGrant => Sys2Proof.Machine.execLeaseGrant s
  | .leaseExpiry => Sys2Proof.Machine.execLeaseExpiry s
  | .powerGrant => Sys2Proof.Machine.execPowerGrant s
  | .powerWindow => Sys2Proof.Machine.execPowerWindow s
  | .powerBudget => Sys2Proof.Machine.execPowerBudget s
  | .vaultSensorReading => Sys2Proof.Machine.execVaultSensorReading s
  | .throttleStep => Sys2Proof.Machine.execThrottleStep s
  | .hotPageMigration => Sys2Proof.Machine.execHotPageMigration s
  | .agentCounterWriteback => Sys2Proof.Machine.execAgentCounterWriteback s
  | .clockChange => Sys2Proof.Machine.execClockChange s
  | .preemptForPriority => Sys2Proof.Machine.execPreemptForPriority s
  | .starvationResume => Sys2Proof.Machine.execStarvationResume s
  | .blockResume => Sys2Proof.Machine.execBlockResume s
  | .taskBudgetExpiry => Sys2Proof.Machine.execTaskBudgetExpiry s
  | .taskPreload => Sys2Proof.Machine.execTaskPreload s
  | .phaseTaskStart => Sys2Proof.Machine.execPhaseTaskStart s
  | .rillAppend => Sys2Proof.Machine.execRillAppend s
  | .spillwayPushArrival => Sys2Proof.Machine.execSpillwayPushArrival s
  | .impreciseTrapDelivery => Sys2Proof.Machine.execImpreciseTrapDelivery s
  | .deadlockWatchdog => Sys2Proof.Machine.execDeadlockWatchdog s
  | .coreAcknowledge => Sys2Proof.Machine.execCoreAcknowledge s
  | .invalidationWatchdog => Sys2Proof.Machine.execInvalidationWatchdog s
  | .migrationQuantum => Sys2Proof.Machine.execMigrationQuantum s
  | .holdExpiry => Sys2Proof.Machine.execHoldExpiry s
  | .checkpoint => Sys2Proof.Machine.execCheckpoint s
  | .instructionSample => Sys2Proof.Machine.execInstructionSample s
  | .fatalError => Sys2Proof.Machine.execFatalError s
  | .moduleReset => Sys2Proof.Machine.execModuleReset s
  | .patrolScrub => Sys2Proof.Machine.execPatrolScrub s
  | .flitRetry => Sys2Proof.Machine.execFlitRetry s
  | .creditReturn => Sys2Proof.Machine.execCreditReturn s
  | .peerWriteArrival => Sys2Proof.Machine.execPeerWriteArrival s
  | .hostAccess => Sys2Proof.Machine.execHostAccess s
  | .featget => Sys2Proof.Machine.execFeatget s
  | .featset => Sys2Proof.Machine.execFeatset s
  | .ctxnew => Sys2Proof.Machine.execCtxnew s
  | .ctxend => Sys2Proof.Machine.execCtxend s
  | .mbxreg => Sys2Proof.Machine.execMbxreg s
  | .mbxunreg => Sys2Proof.Machine.execMbxunreg s
  | .codesync => Sys2Proof.Machine.execCodesync s
  | .attest => Sys2Proof.Machine.execAttest s
  | .dbgctl => Sys2Proof.Machine.execDbgctl s
  | .stop => Sys2Proof.Machine.execStop s
  | .resume => Sys2Proof.Machine.execResume s
  | .ckpt => Sys2Proof.Machine.execCkpt s
  | .imgwrite => Sys2Proof.Machine.execImgwrite s
  | .reset => Sys2Proof.Machine.execReset s
  | .dumpbase => Sys2Proof.Machine.execDumpbase s
  | .coupling => Sys2Proof.Machine.execCoupling s
  | .fetchFault => Sys2Proof.Machine.execFetchFault s
  | .spillwayPopArrival => Sys2Proof.Machine.execSpillwayPopArrival s
  | .docinvCompletion => Sys2Proof.Machine.execDocinvCompletion s
  | .pageMoveCompletion => Sys2Proof.Machine.execPageMoveCompletion s
  | .peerReadArrival => Sys2Proof.Machine.execPeerReadArrival s
  | .forcedUnload => Sys2Proof.Machine.execForcedUnload s
  | .replay => Sys2Proof.Machine.execReplay s
  | .unknownCommand => Sys2Proof.Machine.execUnknownCommand s

end Sys2Proof.Machine
end

