-- ==== Sys2Proof/Machine/Step.lean ====
section
/-! DEFINITION. One step of the machine: the next turn of the agenda. -/

namespace Sys2Proof.Machine

/-- One step (log 1): the agenda's next turn begins, and the instruction or event that it names runs; an instruction that has
issued may be tagged (R428). -/
def step (s : State) : Host.Outcome State Fault Refusal :=
  match nextTurn s with
  | (t, some i) => tagAfter t i (exec i t)
  | (t, none) => .next t

/-- The state with an instruction placed so that the next step runs it (log 18). -/
def State.withFetchWord (s : State) (nbits w : Nat) : State := placeWord s nbits w

end Sys2Proof.Machine
end

