-- ==== Sys2Proof/Certificates/Slice0/Rows.lean ====
section
/-! DEFINITION. For the completion statements: when each lane and exchange instruction completes, and the state that follows. -/

namespace Sys2Proof.Claims

open Sys2Proof.Machine

/-- When an instruction completes with its own effect, and the state that then follows. -/
structure Row where
  ok : State → Bool
  next : State → State

/-- An instruction of `len` bytes that a gang issues in SIMT code: `cond` and `eff` are given the unit with the lanes whose guard
passes. -/
def simt (len : Nat) (g : Guard) (cond : U → State → Bool) (eff : U → State → Prog) : Row :=
  { ok := fun s => match unitOf s len with | some u => !u.gang.vliw && cond (u.guarded g) s | none => false
    next := fun s => match unitOf s len with | some u => (eff (u.guarded g) s).run s | none => s }

/-- The effect, after which the gang stands at the next instruction. -/
def thenNext (p : U → State → Prog) : U → State → Prog := fun u s => (p u s).andThen (u.advance u.next)

/-- The register fields lie in range, and none waits for a load (R8, R9, R183). -/
def ready (u : U) (fs : List (BitVec 8 × Nat)) : Bool := (fs.all fun e => u.regOk e.1 e.2) && !u.pending fs

/-- Some active lane's guard passes. -/
def takes (u : U) : Bool := !u.part.isEmpty

/-! ## Lane operations (R129 to R167) -/

/-- A lane operation of an instruction: its length, guard and fields, the immediate that stands for B, and what else it needs. -/
structure LaneOp where
  len : Nat
  g : Guard
  o : AluOp
  d : BitVec 8
  a : BitVec 8 := 0
  b : BitVec 8 := 0
  c : BitVec 8 := 0
  imm : Option W64 := none
  cond : U → Bool := fun _ => true

/-- When a lane operation completes, and what it does. -/
def LaneOp.row (l : LaneOp) : Row :=
  simt l.len l.g
    (fun u _ => ready u [(l.d, l.o.wd), (l.a, l.o.wa), (l.b, if l.imm.isSome then 0 else l.o.wb), (l.c, l.o.wc)] && l.cond u
      && (!l.o.rill || (u.feat 0 featSrnd && (u.part.isEmpty || decide (u.rillNeed ≤ u.core.rill.length)))))
    (thenNext fun u _ => (onBlock u.c u.b (u.commitRes l.o.wd l.d (u.results l.o l.d l.a l.b l.c l.imm))).andThen
      (Prog.when (l.o.rill && takes u) u.popRill))

def rLane (f : RForm) (o : AluOp) : LaneOp :=
  { len := if f.lx.isSome then 16 else 8, g := f.g, o, d := f.d, a := f.a, b := f.b, c := f.c, imm := f.lx }
def iLane (f : IForm) (o : AluOp) : LaneOp := { len := 8, g := f.g, o, d := f.d, a := f.a, imm := some f.val }
def moviLane (f : IForm) (w : Nat) : LaneOp :=
  { len := 8, g := f.g, o := { wd := w, fn := fun x => { val := x.b % 2 ^ w } }, d := f.d, imm := some f.val }
def fimmLane (f : IForm) (o : AluOp) : LaneOp :=
  { len := 8, g := f.g, o, d := f.d, a := f.a, imm := some (f.imm.setWidth 64) }

/-- An operation that E2M1 values need their feature bit for (R328). -/
def e2Lane (f : RForm) (b : Bool) (o : AluOp) : LaneOp := { rLane f o with cond := fun u => !b || u.feat 0 featE2m1 }

/-- Integer, logic, bit-field, move, select, predicate and address instructions (R136 to R150). -/
def intLane : Instr → Option LaneOp
  | .iadd f => some (rLane f (intAdd f.ty f.sat))
  | .isub f => some (rLane f (intSub f.ty f.sat))
  | .iaddc f => some (rLane f (opAddc f.w f.c f.xm))
  | .imul f => some (rLane f (intMul f.ty f.sat))
  | .imulh f => some (rLane f (opMulh f.ty))
  | .imad f => some (rLane f (intMad f.ty f.sat))
  | .idiv f => some (rLane f (opDiv f.ty f.sat))
  | .irem f => some (rLane f (opRem f.ty))
  | .ineg f => some (rLane f (intNeg f.ty f.sat))
  | .iabs f => some (rLane f (intAbs f.ty f.sat))
  | .imin f => some (rLane f (intMin f.ty))
  | .imax f => some (rLane f (intMax f.ty))
  | .icmp f => some (rLane f (opCmp f.ty f.xm.toNat f.d.toNat))
  | .iaddImm32 f => some (iLane f (intAdd .n32 false))
  | .imulImm32 f => some (iLane f (intMul .n32 false))
  | .andImm32 f => some (iLane f (opBits 32 fun a b => a &&& b))
  | .orImm32 f => some (iLane f (opBits 32 fun a b => a ||| b))
  | .xorImm32 f => some (iLane f (opBits 32 fun a b => a ^^^ b))
  | .shlImm32 f => some (iLane f (opShift 32 shlN))
  | .shrImm32 f => some (iLane f (opShift 32 shrN))
  | .sarImm32 f => some (iLane f (opShift 32 sarN))
  | .rotImm32 f => some (iLane f (opShift 32 rotN))
  | .movi32 f => some (moviLane f 32)
  | .iaddImm64 f => some (iLane f (intAdd .n64 false))
  | .imulImm64 f => some (iLane f (intMul .n64 false))
  | .andImm64 f => some (iLane f (opBits 64 fun a b => a &&& b))
  | .orImm64 f => some (iLane f (opBits 64 fun a b => a ||| b))
  | .xorImm64 f => some (iLane f (opBits 64 fun a b => a ^^^ b))
  | .shlImm64 f => some (iLane f (opShift 64 shlN))
  | .shrImm64 f => some (iLane f (opShift 64 shrN))
  | .sarImm64 f => some (iLane f (opShift 64 sarN))
  | .rotImm64 f => some (iLane f (opShift 64 rotN))
  | .movi64 f => some (moviLane f 64)
  | .andR f => some (rLane f (opBits f.w fun a b => a &&& b))
  | .orR f => some (rLane f (opBits f.w fun a b => a ||| b))
  | .xorR f => some (rLane f (opBits f.w fun a b => a ^^^ b))
  | .andn f => some (rLane f (opBits f.w fun a b => andNot f.w a b))
  | .notR f => some (rLane f { opBits f.w (fun a _ => a ^^^ (2 ^ f.w - 1)) with wb := 0 })
  | .shl f => some (rLane f (opShift f.w shlN))
  | .shr f => some (rLane f (opShift f.w shrN))
  | .sar f => some (rLane f (opShift f.w sarN))
  | .rot f => some (rLane f (opShift f.w rotN))
  | .bfx f => some (rLane f (opBfx f.ty))
  | .bfi f => some (rLane f (opBfi f.w))
  | .popc f => some (rLane f (opCount f.w popN))
  | .clz f => some (rLane f (opCount f.w clzN))
  | .ctz f => some (rLane f (opCount f.w ctzN))
  | .brev f => some (rLane f (opRev f.w))
  | .nop f => some (rLane f { fn := fun _ => {} })
  | .mov f => some (rLane f (opMov f.w))
  | .movl f => some (rLane f { wd := f.w, fn := fun x => { val := x.b % 2 ^ f.w } })
  | .sel f => some (rLane f (opSel f.w f.c))
  | .pset f => some (rLane f (opPset f))
  | .pmov f => some (rLane f (if f.xm == 0 then opPget else opPput))
  | .lea f => some (rLane f (opLea f.ty f.xm.toNat f.lx.isSome))
  | _ => none

/-- Floating-point, packed, conversion and narrow-format instructions (R151 to R167). -/
def fpLane : Instr → Option LaneOp
  | .fadd f => some (rLane f (opFadd f.rm f.sat))
  | .fsub f => some (rLane f (opFsub f.rm f.sat))
  | .fmul f => some (rLane f (opFmul f.rm f.sat))
  | .ffma f => some (rLane f (opFfma f.rm f.sat))
  | .fmin f => some (rLane f (opFmm false))
  | .fmax f => some (rLane f (opFmm true))
  | .fcmp f => some (rLane f (opFcmp f.xm.toNat f.d.toNat))
  | .fclass f => some (rLane f (opFclass f.ty))
  | .fdiv f => some (rLane f (opFdiv f.rm f.sat))
  | .fsqrt f => some (rLane f (opFsqrt f.rm f.sat))
  | .faddImm f => some (fimmLane f (opFadd .ne false))
  | .fmulImm f => some (fimmLane f (opFmul .ne false))
  | .fminImm f => some (fimmLane f (opFmm false))
  | .fmaxImm f => some (fimmLane f (opFmm true))
  | .frcp f => some (rLane f (opFn 0))
  | .frsq f => some (rLane f (opFn 1))
  | .fexp2 f => some (rLane f (opFn 2))
  | .flog2 f => some (rLane f (opFn 3))
  | .fsin f => some (rLane f (opFn 4))
  | .fcos f => some (rLane f (opFn 5))
  | .ftanh f => some (rLane f (opFn 6))
  | .hadd2 f => some (rLane f (opPair f.ty f.rm f.sat 0 fun a b _ => fAdd f.rm a b))
  | .hmul2 f => some (rLane f (opPair f.ty f.rm f.sat 0 fun a b _ => fMul a b))
  | .hfma2 f => some (rLane f (opPair f.ty f.rm f.sat 32 fun a b c => fFma f.rm a b c))
  | .dot4 f => some (rLane f (opDot4 f.ty f.rm f.sat))
  | .cvt f => some (e2Lane f (f.ty == .e2m1 || srcTy f == .e2m1) (opCvt f.ty (srcTy f) f.rm f.sat))
  | .cvti f => some (rLane f (opCvti f.ty (srcTy f) f.rm f.sat))
  | .cvtf f => some (rLane f (opCvtf f.ty (srcTy f) f.rm f.sat))
  | .rnd f => some (rLane f (opRnd f.ty f.rm))
  | .pack f => some (e2Lane f (f.ty == .e2m1) (opPack f.ty f.rm f.sat f.xm.toNat))
  | .unpack f => some (e2Lane f (srcTy f == .e2m1) (opUnpack (srcTy f) f.xm.toNat))
  | .scaleq f => some (e2Lane f (f.ty == .e2m1) (opScaleq f.ty f.rm f.sat))
  | .bscale f => some (e2Lane f (f.ty == .e2m1) (opBscale f.ty))
  | _ => none

/-! ## Exchanges, votes and reductions (R168 to R171) -/

/-- A shuffle in groups that the block is wide enough for. -/
def shuffleRow (f : XForm) (wb : Nat) (b : BitVec 8) (src : Nat → Nat → Int) : Row :=
  simt 8 f.g (fun u _ => (u.part.isEmpty || decide (shflG f ≤ u.blk.width)) && ready u [(f.d, shflW f), (f.a, shflW f), (b, wb)])
    (thenNext fun u _ => u.put f.d (shflW f) (u.part.map fun i =>
      (i, u.rd (exchange u.active (shflG f) i (src i (u.rd i b wb))) f.a (shflW f))))

/-- A reduction or scan in groups that the block is wide enough for. -/
def reduceRow (f : RForm) (scan ex : Bool) : Row :=
  let gw := 4 * 2 ^ (f.c.toNat % 8)
  simt (if f.lx.isSome then 16 else 8) f.g (fun u _ => (u.part.isEmpty || decide (gw ≤ u.blk.width)) && ready u [(f.d, f.ty.bits), (f.a, f.ty.bits)])
    (thenNext fun u _ => onBlock u.c u.b (u.commitRes f.ty.bits f.d
      (reduceRes (f.xm.toNat % 8) gw f.ty scan ex (u.part.map fun i => (i, u.rd i f.a f.ty.bits)))))

/-- A vote: a mask of the lanes into a register, or its answer into a predicate. -/
def voteRow (f : RForm) : Row :=
  let v := fun (u : U) => voteVal f.xm.toNat (u.part.map fun i => (i, (u.blk.lane i).pred f.a.toNat))
  simt (if f.lx.isSome then 16 else 8) f.g (fun u _ => ready u [(f.d, if f.xm.toNat = 3 then 64 else 0)])
    (thenNext fun u _ => if f.xm.toNat = 3 then u.putAll f.d 64 (v u) else u.putPred f.d.toNat (u.part.map fun i => (i, v u == 1)))

def exchangeRow : Instr → Option Row
  | .shfli f => some (shuffleRow f 32 f.b (srcIdx (shflG f)))
  | .shflx f => some (shuffleRow f 0 0 fun i _ => srcXor (f.fld 6 0) i)
  | .shfld f => some (shuffleRow f 0 0 fun i _ => srcDown (f.fld 6 0) i)
  | .shfla f => some (shuffleRow f 0 0 fun i _ => srcUp (f.fld 6 0) i)
  | .bcast f => some (shuffleRow f 0 0 fun i _ => srcBcast (shflG f) (f.fld 6 0) i)
  | .vote f => some (voteRow f)
  | .redl f => some (reduceRow f false false)
  | .scanl f => some (reduceRow f true (f.xm.getLsbD 3))
  | _ => none

end Sys2Proof.Claims
end

