-- ==== Sys2Proof/Certificates/Slice0/RowsMem.lean ====
section
/-! DEFINITION. For the completion statements: memory, tile, flume, matrix, copy, Spillway, mailbox and launch instructions. -/

namespace Sys2Proof.Claims

open Sys2Proof.Machine

/-- No check of a global access stops it (R176). -/
def passes : GCheck → Bool
  | .ok => true
  | _ => false

/-- No check of an access stops it, and a peer's port takes it (R176, R417). -/
def reach (u : U) (s : State) (sp : Space) (use : Use3) (seg : Seg → Bool) (l : List LAcc) : Bool :=
  match sp with
  | .global =>
    passes (checkGlobal s u.blk.ctx u.grid u.ctx u.blk.agent.toNat (!u.user) use seg
      (l.map fun a => { lane := a.lane, va := a.va, size := a.size })) && s.portsOpen (u.flits s l)
  | _ => (checkOffsets (u.limit s sp) use.writes l).isNone

/-- No check of an engine's ranges stops it (R274, R447). -/
def spans (u : U) (s : State) (sp lim : Nat) (write : Bool) (l : List Span) : Bool :=
  match lowestRes (l.map fun x => if sp = 0 then u.checkGlobalSpan s write x else u.checkOffsetSpan lim write x) with
  | .ok => true
  | _ => false

/-- An access goes ahead: the translations that it used are kept, and its requests to peers leave (R395, R417). -/
def kept (u : U) (s : State) (sp : Space) (l : List LAcc) (p : Prog) : Prog :=
  match sp with
  | .global => (u.sent s l).andThen p
  | _ => p

/-- An engine's use of some ranges goes ahead (R395). -/
def keptSpans (u : U) (sp : Nat) (l : List Span) (p : Prog) : Prog :=
  if sp = 0 then (keepTrans u.blk.ctx u.grid (l.flatMap fun x =>
    (spanPages (x.a % 2 ^ 64).toNat x.n).map (BitVec.ofNat 64))).andThen p
  else p

/-- The tile that a use of a handle finds (R218). -/
def tileFor (u : U) (s : State) (h : Nat) (use : TUse) : Option Tile :=
  match tileCheck (u.parts s) u.owner h use with
  | .inr t => some t
  | .inl _ => none

def always : U → State → Bool := fun _ _ => true

/-! ## Memory (R173 to R205) -/

/-- A load whose lanes may read. -/
def loadRow (sp : Space) (base : Nat) (f : MForm) : Row :=
  simt 8 f.g
    (fun u s => ready u [(f.d, dataW f.w), (f.a, base), (f.x, 32)] && reach u s sp .rd (fun _ => true) (u.accs f base))
    (thenNext fun u s => kept u s sp (u.accs f base)
      (u.loadProg sp f.ord f.scp f.view (u.accs f base) (u.bindLoads f.w f.d (u.accs f base))))

/-- A store whose lanes may write. -/
def storeRow (sp : Space) (base : Nat) (f : MForm) : Row :=
  simt 8 f.g
    (fun u s => ready u [(f.d, dataW f.w), (f.a, base), (f.x, 32)] && reach u s sp .wr (fun _ => true) (u.accs f base))
    (thenNext fun u s => kept u s sp (u.accs f base)
      (u.storeProg s sp f.ord f.scp f.view (u.accs f base) fun i => u.rd i f.d (dataW f.w)))

/-- A constant-path load (R184). -/
def ldcRow (f : MForm) : Row :=
  simt 8 f.g
    (fun u s => ready u [(f.d, dataW f.w), (f.a, 64), (f.x, 32)] && reach u s .global .rd (fun _ => true) (u.accs f 64))
    (thenNext fun u s =>
      let l := u.accs f 64
      kept u s .global l <| (u.mergeConst s l).andThen (.read fun t => (u.bindLoads f.w f.d l {} (u.constVals t l)).andThen (u.constFill t l)))

/-- A prefetch never traps on its address (R190). -/
def prefRow (f : MForm) : Row :=
  simt 8 f.g (fun u _ => ready u [(f.a, 64), (f.x, 32)])
    (thenNext fun u s => u.prefetch (f.d.toNat % 4) (u.prefetched s (u.accs f 64)))

/-- A gather or scatter with a lane to act in, room in its barrier's count and both sides reachable (R188). -/
def gatherRow (scat : Bool) (f : MForm) : Row :=
  let bar := fun (u : U) => u.blk.barOf (bits 6 (u.sf f.d) 20).toNat
  let scr := fun (u : U) => u.part.map fun i =>
    ({ lane := i, ea := (bits 20 (u.sf f.d) 0).toNat + (i * f.w.size : Nat), size := f.w.size } : LAcc)
  simt 8 f.g
    (fun u s => ready u [(f.d, 64), (f.a, 64), (f.x, 32)] && bits 38 (u.sf f.d) 26 == 0 && u.blk.ownsBar (bar u) && takes u
      && reach u s .global (if scat then .wr else .rd) (fun _ => true) (u.accs f 64)
      && reach u s .scratch (if scat then .rd else .wr) (fun _ => true) (scr u)
      && decide ((u.core.bar (bar u)).pend + f.w.size * u.part.length ≤ pendMax))
    (thenNext fun u s => kept u s .global (u.accs f 64) <| Prog.all [
      u.release, addPend u.c (bar u) (f.w.size * u.part.length),
      if scat then viewHazard u f.view (scr u) else markViews u f.view (scr u),
      Prog.each (u.places s (u.accs f 64)) fun p => homeTouch u.blk.ctx u.blk.agent.toNat (lineOf p.1) p.2 scat,
      .one (.core u.c fun k =>
        { k with
          gathers := k.gathers ++ [{
            id := k.nextId, blk := u.b, scat, size := f.w.size, bar := bar u, pc := u.pc, slices := maskOf 16 u.members
            org := u.origin
            elems := ((u.accs f 64).zip (scr u)).map fun e =>
              { lane := e.1.lane, va := e.1.va,
                glob := ((u.runs s .global false e.1).head?.map (·.1)).getD ⟨0, 0, 0⟩,
                scr := u.runs s .scratch f.view e.2 } }]
          nextId := k.nextId + 1 })])

/-- An atomic on `t` with order `ord` whose lanes may reach their locations (R191 to R197). -/
def atomRowOn (sp : Space) (view red : Bool) (f : XForm) (t : Ty) (ord : Ord) : Row :=
  let w := t.bits
  let cas := f.fld 4 12 == 7
  let base := if sp == .global then 64 else 32
  let accs := fun (u : U) => u.part.map fun i => ({ lane := i, ea := u.rd i f.a base, size := w / 8 } : LAcc)
  simt 8 f.g
    (fun u s => ready u [(f.d, if red then 0 else w), (f.a, base), (f.b, w), (f.c, if cas then w else 0)]
      && reach u s sp .rw (atomSeg (Scope.ofCode (bits 2 f.imm 4))) (accs u)
      && (sp != .global || s.replayAllows u.blk.ctx (u.atomRecs s (accs u))))
    (thenNext fun u s => kept u s sp (accs u) (u.atomicProg sp view ord (Scope.ofCode (bits 2 f.imm 4)) t (f.fld 4 12)
      (fun a old => if red then .done else u.atomOld w f.d (accs u) a old) (accs u)
      (fun i => u.rd i f.b w) fun i => if cas then u.rd i f.c w else 0))

def never : Row := { ok := fun _ => false, next := id }

def atomRow (sp : Space) (view red : Bool) (f : XForm) : Row :=
  match atomTy (f.fld 3 9), Ord.ofCode (bits 3 f.imm 6) with
  | some t, some ord => atomRowOn sp view red f t ord
  | _, _ => never

/-- A fence (R199). -/
def fenceRow (f : XForm) : Row :=
  simt 8 f.g always (thenNext fun u _ => fenceProg ((Ord.ofCode (bits 3 f.imm 13)).getD .sc) (Scope.ofCode (bits 2 f.imm 11)) u)

/-- A proxy fence (R201). -/
def pfenceRow (f : XForm) : Row := simt 8 f.g always (thenNext fun u _ => pfenceProg (f.fld 2 14) u)

/-- A view join (R202). -/
def vjoinRow (f : XForm) : Row := simt 8 f.g always (thenNext fun u _ => vjoinProg u)

/-- Cache control on each distinct line (R204, R205). -/
def cctlRow (f : XForm) : Row :=
  let lines := fun (u : U) => dedup (u.part.map fun i => u.rd i f.a 64 / 128)
  let flits := fun (u : U) (s : State) => u.lineFlits s (f.fld 3 13) (lines u)
  simt 8 f.g (fun u s => ready u [(f.a, 64)] && s.portsOpen (flits u s))
    (thenNext fun u s => Prog.all [spendReq (flits u s), u.drain,
      Prog.each (lines u) fun n => cctlLine u (f.fld 3 13) (BitVec.ofNat 64 (128 * n))])

def memoryRow : Instr → Option Row
  | .ld f => some (loadRow .global 64 f)
  | .st f => some (storeRow .global 64 f)
  | .lds f => some (loadRow .scratch 32 f)
  | .sts f => some (storeRow .scratch 32 f)
  | .ldk f => some (loadRow .clus 32 f)
  | .stk f => some (storeRow .clus 32 f)
  | .ldc f => some (ldcRow f)
  | .pref f => some (prefRow f)
  | .gath f => some (gatherRow false f)
  | .scat f => some (gatherRow true f)
  | .atom f => some (atomRow .global false false f)
  | .atoms f => some (atomRow (if f.fld 1 3 == 1 then .clus else .scratch) (f.fld 1 2 == 1) false f)
  | .red f => some (atomRow .global false true f)
  | .fence f => some (fenceRow f)
  | .pfence f => some (pfenceRow f)
  | .vjoin f => some (vjoinRow f)
  | .cctl f => some (cctlRow f)
  | _ => none

/-! ## Tiles and flumes (R206 to R227) -/

/-- An allocation that may be granted now (R214). -/
def tallocRow (f : XForm) : Row :=
  let count := fun (u : U) => if f.fld 12 0 = 0 then u.rd1 f.c 32 else f.fld 12 0
  simt 8 f.g
    (fun u s => ready u [(f.d, 32), (f.b, 32), (f.c, 32)] && takes u &&
      match (u.parts s)[f.fld 3 13]? with
      | none => false
      | some q => !allocBad q (u.rd1 f.b 32) (count u) && q.mayGrant false u.c u.b u.g (u.rd1 f.b 32))
    (thenNext fun u s =>
      (onPart (clusterOf u.c) (f.fld 3 13) fun q => q.unqueue false u.c u.b u.g).andThen
        (allocTile (clusterOf u.c) (f.fld 3 13) u.blk.ctx (u.rd1 f.b 32) (count u) (f.fld 1 12 == 1) u.owner u.blk.agent
          fun h => u.putAll f.d 32 h))

/-- A seal (R216). -/
def tsealRow (f : XForm) : Row :=
  simt 8 f.g (fun u s => ready u [(f.a, 32)] && takes u && (tileFor u s (u.rd1 f.a 32) .seal).isSome)
    (thenNext fun u _ => Prog.all [u.release, u.dropTile, sealTile (clusterOf u.c) (u.rd1 f.a 32)])

/-- The offsets lie in the tile. -/
def inTile (u : U) (s : State) (h : Nat) (use : TUse) (write : Bool) (l : List LAcc) : Bool :=
  match tileFor u s h use with
  | some t => (checkOffsets (4096 * t.size) write l).isNone
  | none => false

/-- A tile load of width `w` (R221). -/
def tldRow (f : XForm) (w : Width) : Row :=
  let con := f.fld 1 15 == 1
  simt 8 f.g
    (fun u s => ready u [(f.d, dataW w), (f.a, 32), (f.b, 32)] && takes u
      && inTile u s (u.rd1 f.a 32) (if con then .consume else .read) false (u.tileAccs f.b w.size))
    (thenNext fun u s =>
      let k := clusterOf u.c
      let h := u.rd1 f.a 32
      let l := u.tileAccs f.b w.size
      (Prog.read fun t => u.bindLoads w f.d l {}
        (l.map fun a => (a.lane, leNat (t.readBytes (tileLoc (u.parts s) k h a.ea.toNat) w.size)))).andThen
        (Prog.when con (consumeTile k h 1)))

/-- A tile store of width `w` (R221). -/
def tstRow (f : XForm) (w : Width) : Row :=
  simt 8 f.g
    (fun u s => ready u [(f.d, dataW w), (f.a, 32), (f.b, 32)] && takes u
      && inTile u s (u.rd1 f.a 32) .write true (u.tileAccs f.b w.size))
    (thenNext fun u s => Prog.each (u.tileAccs f.b w.size) fun a =>
      .one (.write (tileLoc (u.parts s) (clusterOf u.c) (u.rd1 f.a 32) a.ea.toNat) (leBytes (u.rd a.lane f.d (dataW w)) w.size)))

/-- Reads given up (R222). -/
def tdropRow (f : XForm) : Row :=
  let reg := f.fld 12 0 == 0
  let n := fun (u : U) => if reg then u.rd1 f.b 32 else f.fld 12 0
  simt 8 f.g
    (fun u s => ready u [(f.a, 32), (f.b, 32)] && takes u && !(reg && (n u == 0 || decide (n u > 4095)))
      && (tileFor u s (u.rd1 f.a 32) (.drop (n u))).isSome)
    (thenNext fun u _ => consumeTile (clusterOf u.c) (u.rd1 f.a 32) (n u))

/-- A query never traps on its handle (R223). -/
def tqueryRow (f : XForm) : Row :=
  simt 8 f.g (fun u _ => ready u [(f.d, 64), (f.a, 32)] && takes u)
    (thenNext fun u _ => .read fun t => u.putAll f.d 64 (tqueryVal (u.parts t) (u.rd1 f.a 32)))

/-- The flume that the unit's grid declares, as it stands for the grid (R224). -/
def flumeOf (u : U) (s : State) (q : Nat) : Option Flume :=
  (u.grid.flume? q).map fun d => takeFlume ((s.core u.c).flume q) u.blk.grid d.1 d.2

/-- A post of a sealed tile of the flume's partition where there is room (R226, R227). -/
def qpostRow (f : XForm) : Row :=
  simt 8 f.g
    (fun u s => ready u [(f.a, 32)] && takes u && (tileFor u s (u.rd1 f.a 32) .post).isSome &&
      match flumeOf u s f.d.toNat with
      | some q => hPart (u.rd1 f.a 32) == q.part && !q.full
      | none => false)
    (thenNext fun u _ => Prog.all [u.release, u.dropTile, u.onFlume f.d.toNat fun q => q.post (u.rd1 f.a 32)])

/-- A take of a handle that stands there (R226). -/
def qtakeRow (f : XForm) : Row :=
  let c := f.fld 2 14
  simt 8 f.g
    (fun u s => ready u [(f.d, 32)] && takes u &&
      match flumeOf u s f.a.toNat with
      | some q => decide (c < q.ncur) && decide (f.fld 9 0 ≤ q.beyond c)
      | none => false)
    (thenNext fun u s =>
      match flumeOf u s f.a.toNat with
      | some q =>
        (u.putAll f.d 32 (cellGet q.ring ((q.cur.getD c 0).toNat % 256)).toNat).andThen
          (u.onFlume f.a.toNat fun q => if f.fld 1 13 == 1 then q.advance c 1 else q)
      | none => .done)

/-- A cursor moves past handles that stand there (R226). -/
def qadvRow (f : XForm) : Row :=
  let c := f.fld 2 14
  let reg := f.fld 9 0 == 0
  let n := fun (u : U) => if reg then u.rd1 f.b 32 else f.fld 9 0
  simt 8 f.g
    (fun u s => ready u [(f.b, 32)] && takes u && !(reg && decide (n u ≥ 512)) &&
      match flumeOf u s f.d.toNat with
      | some q => decide (c < q.ncur) && decide (n u ≤ q.beyond c)
      | none => false)
    (thenNext fun u _ => u.onFlume f.d.toNat fun q => q.advance c (n u))

/-- POSTS and the handles beyond a cursor (R226). -/
def qcntRow (f : XForm) : Row :=
  let c := f.fld 2 14
  simt 8 f.g
    (fun u s => ready u [(f.d, 32)] && takes u &&
      match flumeOf u s f.a.toNat with
      | some q => decide (c < q.ncur)
      | none => false)
    (thenNext fun u s =>
      match flumeOf u s f.a.toNat with
      | some q => u.putAll f.d 32 (2 ^ 16 * q.posts.toNat + q.beyond c)
      | none => .done)

def tileRow : Instr → Option Row
  | .talloc f => some (tallocRow f)
  | .tseal f => some (tsealRow f)
  | .tld f => f.tileW.map (tldRow f)
  | .tst f => f.tileW.map (tstRow f)
  | .tdrop f => some (tdropRow f)
  | .tquery f => some (tqueryRow f)
  | .qpost f => some (qpostRow f)
  | .qtake f => some (qtakeRow f)
  | .qadv f => some (qadvRow f)
  | .qcnt f => some (qcntRow f)
  | _ => none

/-! ## The matrix array (R228 to R240, R447) -/

/-- A lease that has been granted, or that arbitration gives the gang at once (R229). -/
def mleaseRow (f : XForm) : Row :=
  let req := fun (u : U) =>
    ({ core := u.c, blk := u.b, gang := u.g, cls := f.fld 1 15, cmds := f.fld 5 0, cyc := 4096 } : LeaseReq)
  let asked := fun (u : U) => u.gang.wait == .mlease || u.gang.more.contains .mlease
  let ask := fun (u : U) (q : Cluster) => (if asked u then q else q.release u.c u.b).askLease (req u)
  simt 8 f.g
    (fun u s => takes u && (u.gang.granted ||
      let q := ask u (s.cluster (clusterOf u.c))
      q.lease.isNone && (match q.arbitrate with
        | some (w, _) => w.core == u.c && w.blk == u.b && w.gang == u.g
        | none => false)))
    (thenNext fun u _ => Prog.when (!u.gang.granted) ((dropLease u).andThen (.one (.clus (clusterOf u.c) fun q =>
      match (ask u q).arbitrate with
      | some (_, q') => q'
      | none => q))))

def mrelRow (f : XForm) : Row :=
  simt 8 f.g (fun u _ => takes u)
    (thenNext fun u _ => (Prog.one (.clus (clusterOf u.c) fun q => q.release u.c u.b)).andThen (dropLease u))

/-- The block holds a lease with commands and cycles left, or one granted again for this gang's command (R228, R230). -/
def leased (u : U) (s : State) : Bool :=
  match u.lease s with
  | some l => l.fresh == some u.g || (l.fresh.isNone && !(l.cmds == 0 || l.cyc == 0))
  | none => false

/-- The level may use the live or shadow registers that the form names (R92). -/
def mayShape (u : U) (f : XForm) (blk : Option ParamBlock) : Bool := !((blk.isNone || f.fld 1 14 == 1) && u.noBringup)

/-- The resolved field `i` of an engine instruction. -/
def shapeField (u : U) (en : Nat) (f : XForm) (blk : Option ParamBlock) : Nat → Nat :=
  setField (u.shapeSets en blk (f.fld 1 14 == 1)).1

/-- The source of an engine operation may be read (R233, R447). -/
def engReach (u : U) (s : State) (c : EngCtl) (base : Nat) (l : List Span) : Bool :=
  match c.space with
  | 0 => spans u s 0 0 false l
  | 1 => spans u s 1 u.blk.scrLen false l
  | 2 => spans u s 2 (u.limit s .clus) false l
  | _ =>
    match tileFor u s base (if c.consume then .consume else .read) with
    | some t => spans u s 3 (4096 * t.size) false l
    | none => false

/-- A weight load that is queued (R232). -/
def mloadwRow (f : XForm) (blk : Option ParamBlock) : Row :=
  let p := fun (u : U) => shapeField u 0 f blk
  let c := fun (u : U) => engCtl (p u 1)
  let t := fun (u : U) => (arrayFmt (p u 0)).getD .i8
  let base := fun (u : U) => engBase (c u).space (u.rd1 f.a 64)
  let l := fun (u : U) => mloadwSpans (p u) (t u) (c u) (spanBase (c u).space (base u))
  simt (blkLen blk) f.g
    (fun u s => u.blkFeats blk && ready u ((f.a, 64) :: blkRegs blk) && mayShape u f blk && takes u && !mloadwBad u (p u) && leased u s
      && engReach u s (c u) (base u) (l u))
    (thenNext fun u s => keptSpans u (c u).space (l u) <| Prog.all [setShapes u.c 0 (u.shapeSets 0 blk (f.fld 1 14 == 1)), u.release,
      countCommand u, u.engTake (c u) (base u), u.engFill s (c u).space true false (l u),
      u.engViews (c u).space (base u) (c u).view false (l u),
      .one (.clus (clusterOf u.c) fun q =>
        { q with wloads := q.wloads ++ [{
            core := u.c, blk := u.b, ctx := u.blk.ctx, grid := u.blk.grid
            src := u.region s (c u).space (base u) (c u).view (l u), fmt := t u,
            sparse := (c u).sparse, cstride := p u 2, doff := p u 4, soff := p u 5, ioff := p u 6, sstride := p u 8,
            istride := p u 9, consume := (c u).consume, slices := maskOf 16 u.members, pc := u.pc, org := u.origin }] })])

/-- The planes change places when no weight load is in flight (R231). -/
def mswapRow (f : XForm) : Row :=
  simt 8 f.g (fun u s => takes u && leased u s && (s.cluster (clusterOf u.c)).wloads == [])
    (thenNext fun u _ => (countCommand u).andThen (swapPlanes (clusterOf u.c)))

/-- The plane a stream runs against. -/
def planeFor (u : U) (s : State) (f : XForm) : Plane :=
  if f.fld 1 13 == 1 then (s.cluster (clusterOf u.c)).shadow else (s.cluster (clusterOf u.c)).active

/-- A stream of a gang without metadata that is queued (R234 to R236). -/
def mstreamRow (f : XForm) (blk : Option ParamBlock) : Row :=
  let p := fun (u : U) => shapeField u 1 f blk
  let c := fun (u : U) => engCtl (p u 1)
  let t := fun (u : U) => (arrayFmt (p u 0)).getD .i8
  let base := fun (u : U) => engBase (c u).space (u.rd1 f.a 64)
  let l := fun (u : U) (s : State) => mstreamSpans (p u) (planeFor u s f) 0 (spanBase (c u).space (base u))
  let swap := f.fld 1 13 == 1
  simt (blkLen blk) f.g
    (fun u s => u.blkFeats blk && decide (f.d.toNat < u.blk.zpb) && ready u ((f.a, 64) :: blkRegs blk) && mayShape u f blk && takes u
      && !mstreamBad u (p u) && leased u s && !(swap && (s.cluster (clusterOf u.c)).wloads != [])
      && (planeFor u s f).valid && (planeFor u s f).ctx == u.blk.ctx && fmtClass (t u) == fmtClass (planeFor u s f).fmt
      && u.mc == none && engReach u s (c u) (base u) (l u s) && !u.streaming s f.d.toNat)
    (thenNext fun u s => keptSpans u (c u).space (l u s) <| Prog.all [setShapes u.c 1 (u.shapeSets 1 blk (f.fld 1 14 == 1)),
      u.release, countCommand u, u.engTake (c u) (base u), u.engFill s (c u).space true false (l u s),
      u.engViews (c u).space (base u) (c u).view false (l u s), Prog.when swap (swapPlanes (clusterOf u.c)),
      .one (.clus (clusterOf u.c) fun q =>
        { q with streams := q.streams ++ [{
            core := u.c, blk := u.b, tile := f.d.toNat, src := u.region s (c u).space (base u) (c u).view (l u s), afmt := t u,
            rows := p u 2, row0 := p u 3, aoff := p u 4, astride := p u 5, soff := p u 6, sstride := p u 7,
            acc := f.fld 1 12 == 1, mword := 0, consume := (c u).consume, plane := planeFor u s f
            slices := maskOf 16 u.members, pc := u.pc, org := u.origin }] }),
      onBlock u.c u.b fun b => b.advanceMc u.members 1])

/-- An accumulator instruction may run on tile `z` (R18, R236). -/
def accumFree (u : U) (s : State) (z : Nat) : Bool := decide (z < u.blk.zpb) && !(takes u && u.streaming s z)

def mzeroRow (f : XForm) : Row :=
  simt 8 f.g (fun u s => accumFree u s f.d.toNat && takes u)
    (thenNext fun u _ => .one (.zero (rowLoc u.c u.core u.blk f.d.toNat (f.fld 5 11)) (1024 * f.fld 6 5)))

def mreadRow (f : XForm) : Row :=
  let e := 2 ^ f.fld 2 9
  simt 8 f.g (fun u s => ready u [(f.d, 32 * e), (f.b, 32)] && accumFree u s f.a.toNat)
    (thenNext fun u _ => .read fun t => u.put f.d (32 * e) (mreadVals u t f.a.toNat (u.accRow f) (f.fld 8 1) e))

def mwriteRow (f : XForm) : Row :=
  let e := 2 ^ f.fld 2 9
  simt 8 f.g (fun u s => ready u [(f.d, 32 * e), (f.b, 32)] && accumFree u s f.a.toNat)
    (thenNext fun u _ => mwriteProg u f.a.toNat (u.accRow f) (f.fld 8 1) e fun i => u.rd i f.d (32 * e))

/-- The metadata counter is set to an aligned address, or to NONE (R237). -/
def mmetaRow (f : XForm) : Row :=
  let a := fun (u : U) => BitVec.ofNat 64 (u.rd1 f.a 64)
  simt 8 f.g (fun u _ => ready u [(f.a, 64)] && takes u && (f.a.toNat == 0xFF || (a u).toNat % 8 == 0))
    (thenNext fun u _ => onBlock u.c u.b fun b =>
      u.members.foldl (fun b i => b.modSlice i fun x => { x with mc := if f.a.toNat = 0xFF then none else some (a u) }) b)

/-- A field of a shadow register (R239). -/
def mshapeRow (f : XForm) : Row :=
  simt 8 f.g (fun u _ => !u.noBringup && ready u [(f.a, 32)] && takes u)
    (thenNext fun u _ => .one (.core u.c fun k =>
      let i := shapeIdx (f.fld 2 14) true f.d.toNat
      let sh := 16 * f.fld 2 12
      { k with shapes := cellSet k.shapes i ((cellGet k.shapes i &&& ~~~(0xFFFF#64 <<< sh))
          ||| (BitVec.ofNat 64 (u.rd1 f.a 32 % 2 ^ 16) <<< sh)) }))

def matrixRow : Instr → Option Row
  | .mlease f => some (mleaseRow f)
  | .mrel f => some (mrelRow f)
  | .mloadw f b => some (mloadwRow f b)
  | .mswap f => some (mswapRow f)
  | .mstream f b => some (mstreamRow f b)
  | .mzero f => some (mzeroRow f)
  | .mread f => some (mreadRow f)
  | .mwrite f => some (mwriteRow f)
  | .mmeta f => some (mmetaRow f)
  | .mshape f => some (mshapeRow f)
  | _ => none

/-! ## Copies, the Spillway, messages and launches (R271 to R292) -/

/-- One side of a copy may be reached (R274). -/
def sideReach (u : U) (s : State) (sp base n : Nat) (offs : List Nat) (use : TUse) (write : Bool) : Bool :=
  let l := copySpans sp base n offs
  match sp with
  | 0 => spans u s 0 0 write l
  | 1 => spans u s 1 u.blk.scrLen write l
  | 2 => spans u s 2 (u.limit s .clus) write l
  | _ =>
    match tileFor u s (base % 2 ^ 32) use with
    | some t => spans u s 3 (4096 * t.size) write l
    | none => false

/-- The runs of a copy's source and of its destination. -/
def srcRuns (p : Nat → Nat) : List Nat := runOffsets (p 2) (p 3) (p 4) (p 5) (p 6) (p 7)
def dstRuns (p : Nat → Nat) : List Nat := runOffsets (p 2) (p 3) (p 4) (p 8) (p 9) (p 10)

/-- The conditions of R274 that both forms share: the copy-right, the fields, the source, the flume's partition, room in
the queue and in the barrier's count. -/
def copyReady (u : U) (s : State) (p : Nat → Nat) (alloc con : Bool) (count part sbase : Nat) : Bool :=
  u.copyRight && !copyBad u p alloc con count
    && sideReach u s (srcSpace p) sbase (p 1) (srcRuns p) (if con then .consume else .read) false
    && !(actPost p && some part != (u.grid.flume? (p 14)).map (·.1))
    && decide ((s.queueOf u.c u.qkey).ops.length < queueMax)
    && !(actBar p && decide (((s.core u.c).bar (u.copyBar p)).pend + copyTotal p > pendMax))

/-- A copy goes ahead with the translations of its sides, of the source alone under ALLOC (R395). -/
def keptSides (u : U) (p : Nat → Nat) (sbase : Nat) (dbase : Option Nat) (k : Prog) : Prog :=
  keptSpans u (srcSpace p) (copySpans (srcSpace p) sbase (p 1) (srcRuns p)) <|
    match dbase with
    | some d => keptSpans u (dstSpace p) (copySpans (dstSpace p) d (p 1) (dstRuns p)) k
    | none => k

/-- A copy that is queued (R274). -/
def cpyRow (f : XForm) (blk : Option ParamBlock) : Row :=
  let p := fun (u : U) => shapeField u 2 f blk
  let con := f.fld 1 12 == 1
  simt (blkLen blk) f.g
    (fun u s => !u.mailBad blk && ready u ((f.a, 64) :: (f.b, 64) :: blkRegs blk) && mayShape u f blk && takes u
      && copyReady u s (p u) false con 0 (hPart ((u.sf f.b).toNat % 2 ^ 32)) (u.sf f.a).toNat
      && sideReach u s (dstSpace (p u)) (u.sf f.b).toNat (p u 1) (dstRuns (p u)) .write true)
    (thenNext fun u s => keptSides u (p u) (u.sf f.a).toNat (some (u.sf f.b).toNat) <|
      (setShapes u.c 2 (u.shapeSets 2 blk (f.fld 1 14 == 1))).andThen
        (queueCopy u s (p u) con (u.sf f.a).toNat (u.sf f.b).toNat (dstRuns (p u))))

/-- A copy into a tile that is allocated at once (R274). -/
def cpyAllocRow (f : XForm) (blk : Option ParamBlock) : Row :=
  let p := fun (u : U) => shapeField u 2 f blk
  let part := f.fld 3 9
  let count := fun (u : U) => (u.sf f.c).toNat % 2 ^ 32
  let size := fun (u : U) => (copyExtent (p u) + 4095) / 4096
  simt (blkLen blk) f.g
    (fun u s => !u.mailBad blk && decide (part < (u.parts s).length) && ready u ((f.d, 64) :: (f.a, 64) :: (f.c, 64) :: blkRegs blk)
      && mayShape u f blk && takes u
      && copyReady u s (p u) true false (count u) part (u.sf f.a).toNat &&
      match (u.parts s)[part]? with
      | some r => !allocBad r (size u) (count u) && r.mayGrant u.hart.isSome u.c u.b u.g (size u)
      | none => false)
    (thenNext fun u s => keptSides u (p u) (u.sf f.a).toNat none <|
      Prog.all [setShapes u.c 2 (u.shapeSets 2 blk (f.fld 1 14 == 1)),
      onPart (clusterOf u.c) part fun r => r.unqueue u.hart.isSome u.c u.b u.g,
      allocTile (clusterOf u.c) part u.blk.ctx (size u) (count u) (f.fld 1 8 == 1) u.owner u.blk.agent fun h =>
        (u.putAll f.d 64 h).andThen (queueCopy u s (p u) false (u.sf f.a).toNat h (dstRuns (p u)))])

/-- A wait for a copy queue that has emptied far enough (R278). -/
def cpywRow (f : XForm) : Row :=
  simt 8 f.g (fun u s => takes u && u.copyRight && decide ((s.queueOf u.c u.qkey).ops.length ≤ f.fld 5 0))
    (thenNext fun _ _ => .done)

def cpyqRow (f : XForm) : Row :=
  simt 8 f.g (fun u s => ready u [(f.d, 32)] && takes u && u.copyRight)
    (thenNext fun u s => u.putAll f.d 32 (cpyqVal (s.queueOf u.c u.qkey)))

/-- The Spillway pair is free, or the context's own (R286). -/
def spillFree (u : U) (s : State) : Bool :=
  match s.spillHolder u.c with
  | some x => x == u.blk.ctx
  | none => true

/-- A push with a free slot (R284). -/
def splwRow (f : XForm) : Row :=
  simt 8 f.g
    (fun u s => u.feat 0 featSpill && u.spillField f.a && ready u.whole [(f.a, 32)] && takes u.whole && spillFree u s
      && decide ((s.core u.c).outFree ≠ 0))
    (thenNext fun u _ => Prog.all [u.release,
      .one (.core u.c fun k => { k with outFree := k.outFree - 1 }),
      .one (.core (partner u.c) fun k => { k with arriving := k.arriving ++
        [{ words := u.whole.part.foldl (fun m i => cellSet m i (BitVec.ofNat 32 (u.whole.rd i f.a 32))) [], ctx := u.blk.ctx }] })])

/-- A pop of an entry that stands there (R284). -/
def splrRow (f : XForm) : Row :=
  simt 8 f.g
    (fun u s => u.feat 0 featSpill && u.spillField f.d && ready u.whole [(f.d, 32)] && takes u.whole && spillFree u s
      && !(s.core u.c).inbound.isEmpty)
    (thenNext fun u s => Prog.all [settleDie (dieOf u.c),
      .one (.core u.c fun k => { k with inbound := k.inbound.drop 1, popsInFlight := k.popsInFlight + 1 }),
      u.whole.put f.d 32 (u.whole.part.map fun i =>
        (i, (cellGet (((s.core u.c).inbound.head?.map (·.words)).getD []) i).toNat)),
      tryGate u.c])

def splfRow (f : XForm) : Row :=
  simt 8 f.g (fun u s => u.feat 0 featSpill && ready u [(f.d, 32)] && takes u && spillFree u s)
    (thenNext fun u s => u.putAll f.d 32 (splfVal (s.core u.c)))

/-- A message that its mailbox takes (R290). -/
def mbsendRow (f : XForm) : Row :=
  let n := f.fld 7 0
  let msg := fun (u : U) => u.message (f.b.toNat - 0xC0) n
  simt 8 f.g
    (fun u s => u.feat 0 featMbox && ready u ((f.a, 64) :: (List.range ((n + 7) / 8)).map fun i => (f.b + BitVec.ofNat 8 i, 64)) && takes u
      && decide (u.rd1 f.a 64 < 4096) &&
      match mailTo s (u.rd1 f.a 64) 0 u.blk.ctx (msg u) with
      | .ok _ => true
      | _ => false)
    (thenNext fun u _ => u.release.andThen (.read fun t =>
      match mailTo t (u.rd1 f.a 64) 0 u.blk.ctx (msg u) with | .ok p => p | _ => .done))

/-- A packet that the task table has room for (R292). -/
def launchRow (f : XForm) : Row :=
  simt 8 f.g
    (fun u s => u.feat 0 featDlaunch && ready u [(f.d, 64), (f.a, 64)] && takes u && (u.sf f.a).toNat % 128 == 0
      && spans u s 0 0 false [{ a := ((u.sf f.a).toNat : Int), n := 128 }] && !s.tableFull)
    (thenNext fun u _ => keptSpans u 0 [{ a := ((u.sf f.a).toNat : Int), n := 128 }] <| u.release.andThen <| .read fun t =>
      match t.devBytes u.grid u.ctx (u.sf f.a) 128 with
      | none => .done
      | some raw =>
        let r := submit t u.blk.ctx u.ctx u.grid (u.sf f.a) raw none none
        r.2.andThen (u.putAll f.d 64 r.1))

def engineRow : Instr → Option Row
  | .cpy f b => some (cpyRow f b)
  | .cpyAlloc f b => some (cpyAllocRow f b)
  | .cpyw f => some (cpywRow f)
  | .cpyq f => some (cpyqRow f)
  | .splw f => some (splwRow f)
  | .splr f => some (splrRow f)
  | .splf f => some (splfRow f)
  | .mbsend f => some (mbsendRow f)
  | .launch f => some (launchRow f)
  | _ => none

end Sys2Proof.Claims
end

