-- ==== Sys2Proof/Certificates/Slice0/RowsCtl.lean ====
section
/-! DEFINITION. For the completion statements: synchronisation, control flow, system instructions, bundles and the slots' own
instructions. -/

namespace Sys2Proof.Claims

open Sys2Proof.Machine

/-- One instruction counts as issued; the effect has itself set the PCs. -/
def countIssue (u : U) : Prog := onBlock u.c u.b fun b => { b with issued := b.issued + 1 }

/-- The effect sets the PCs itself. -/
def thenOwn (p : U → State → Prog) : U → State → Prog := fun u s => (p u s).andThen (countIssue u)

/-- The effect, after which the gang waits for an event. -/
def thenStay (w : U → Wait) (p : U → State → Prog) : U → State → Prog := fun u s =>
  (p u s).andThen (onGang u.c u.b u.g fun x => { x with wait := w u })

/-! ## Synchronisation (R44, R63, R255 to R265) -/

/-- An arrival within the barrier's count (R256): the phase completes, or the gang waits for it, or does not wait at all. -/
def arriveRow (f : XForm) (waits : Bool) : Row :=
  let bar := fun (u : U) => u.blk.barOf f.d.toNat
  let add := fun (u : U) => Prog.one (.core u.c fun k => k.setBar (bar u) { k.bar (bar u) with arr := (k.bar (bar u)).arr + u.members.length })
  simt 8 f.g
    (fun u s => u.blk.ownsBar (bar u) && decide (((s.core u.c).bar (bar u)).arr + u.members.length ≤ 31))
    (fun u s =>
      let q := (s.core u.c).bar (bar u)
      if !waits || (decide (q.arr + u.members.length + u.blk.deadCount ≥ q.exp) && q.pend == 0) then
        thenNext (fun u _ => Prog.all [u.release, u.dropTile, add u, tryRelease u.c u.b (bar u)]) u s
      else thenStay (fun u => .bar (bar u) true) (fun u _ => Prog.all [u.release, u.dropTile, add u]) u s)

/-- EXP is set to 1 to the number of slices (R257). -/
def barxExpRow (f : XForm) : Row :=
  let bar := fun (u : U) => u.blk.barOf f.d.toNat
  let n := f.fld 5 0
  simt 8 f.g (fun u _ => u.blk.ownsBar (bar u) && n != 0 && decide (n ≤ u.blk.width / 4))
    (thenNext fun u _ => (Prog.one (.core u.c fun k => k.setBar (bar u) { k.bar (bar u) with exp := n })).andThen
      (tryRelease u.c u.b (bar u)))

/-- Nothing is pending, or the gang waits until nothing is (R257). -/
def barwRow (f : XForm) : Row :=
  let bar := fun (u : U) => u.blk.barOf f.d.toNat
  simt 8 f.g (fun u _ => u.blk.ownsBar (bar u) && takes u)
    (fun u s => if ((s.core u.c).bar (bar u)).pend = 0 then thenNext (fun _ _ => .done) u s
      else thenStay (fun u => .barw (bar u) true) (fun _ _ => .done) u s)

def bbrotRow (f : XForm) : Row :=
  simt 8 f.g (fun u _ => takes u) (thenNext fun u _ => onBlock u.c u.b fun b => { b with bbase := rotBase b (f.fld 6 0) })

/-- A cooperative grid's gang arrives at its superstep, which is released when this was the last arrival (R260). -/
def gsyncRow : Row :=
  simt 8 Guard.always (fun u _ => u.grid.pkt.coop)
    (fun u s => (thenStay (fun u => .gsync u.grid.gsyncGen true)
      (fun u _ => u.release.andThen (.one (.grid u.blk.grid fun g => g.arrive u.blk.idx u.members))) u s).andThen
      (tryGsync u.blk.grid))

/-- A converged gang arrives at the end of its phase, which is released when this was the last arrival (R63, R264). -/
def phaseRow : Row :=
  simt 8 Guard.always
    (fun u _ => (u.members.filter fun i =>
      match u.blk.slice? i with | some x => !x.stack.isEmpty || x.active != x.live | none => false) == [])
    (fun u s => (thenStay (fun _ => .phase)
      (fun u _ => Prog.all [u.release, u.dropTile,
        onBlock u.c u.b fun b => { b with phaseArr := b.phaseArr ||| maskOf 16 u.members }]) u s).andThen
      (tryPhase u.c u.b))

/-- A gang that its mask names waits at `REGANG`; a complete set joins (R44, R251). -/
def regangRow (f : XForm) : Row :=
  simt 8 f.g
    (fun u _ => ((List.range 16).all fun i => !f.imm.getLsbD i || decide (i < u.blk.slices.length))
      && u.members.all fun i => f.imm.getLsbD i)
    (thenOwn fun u _ => u.returnLoads.andThen (onBlock u.c u.b fun b =>
      (b.modGang u.g fun x => { x with wait := .regang f.imm }).tryRegang u.grid.exdin.isSome))

/-- A quiescent point with no invalidation to acknowledge, with no load or engine operation outstanding, or before it (R265). -/
def qpointRow (f : XForm) : Row :=
  simt 8 f.g (fun u _ => takes u)
    (fun u s =>
      if !u.ctx.pendingInv u.c then thenNext (fun _ _ => .done) u s
      else if s.quietOps u.c u.b u.members then thenNext (fun u _ => u.release.andThen (acknowledge u.blk.ctx u.c u.b u.g)) u s
      else thenStay (fun _ => .qpoint true) (fun u _ => u.release) u s)

/-- The word that a `WAITC` compares, as its lowest participating lane sees it, meets the condition (R262). -/
def waitcHolds (u : U) (s : State) (f : XForm) : Bool :=
  let w := if f.fld 2 11 ≥ 2 then 64 else 32
  let signed := f.fld 1 11 == 1
  match s.locate u.grid u.ctx (u.sf f.a) with
  | some (_, l) => cmpInt (f.fld 3 13)
      (intVal signed w (leNat (seeBytes ((mergeRead (dieOf u.c) l (w / 8)).run s) u.c u.b (u.thr (u.part.headD 0)) false l (w / 8))))
      (intVal signed w ((u.sf f.b).toNat % 2 ^ w))
  | none => false

/-- The word that a `WAITC` compares returns from its home slice. -/
def waitcRead (u : U) (s : State) (f : XForm) : Prog :=
  match s.locate u.grid u.ctx (u.sf f.a) with
  | some (_, l) => mergeRead (dieOf u.c) l ((if f.fld 2 11 ≥ 2 then 64 else 32) / 8)
  | none => .done

/-- The word that each participating lane of a `WAITC` reads. -/
def waitcAccs (u : U) (f : XForm) : List LAcc :=
  u.part.map fun i => { lane := i, ea := (u.sf f.a).toNat, size := (if f.fld 2 11 ≥ 2 then 64 else 32) / 8 }

/-- A condition that holds: the predicate is set, and the gang goes on (R262). A gang that does not park donates nothing. -/
def waitcRow (f : XForm) : Row :=
  simt 8 f.g
    (fun u s => ready u [(f.a, 64), (f.b, 64), (f.c, 64)] && takes u
      && reach u s .global .rd (fun _ => true) (waitcAccs u f)
      && waitcHolds u s f)
    (fun u s => (thenNext (fun u s => kept u s .global (waitcAccs u f) (Prog.all [waitcRead u s f, u.release, catchUp (dieOf u.c),
        u.putPred (f.d.toNat % 8) (u.part.map fun i => (i, true))])) u s).andThen
      (donate u.c u.b u.g))

def syncRow : Instr → Option Row
  | .bar f => some (arriveRow f true)
  | .barxArv f => some (arriveRow f false)
  | .barxExp f => some (barxExpRow f)
  | .barw f => some (barwRow f)
  | .bbrot f => some (bbrotRow f)
  | .gsync => some gsyncRow
  | .phase => some phaseRow
  | .regang f => some (regangRow f)
  | .qpoint f => some (qpointRow f)
  | .waitc f => some (waitcRow f)
  | _ => none

/-! ## Control flow (R241 to R254, R266, R267) -/

/-- The slices stand where `f` has put them, and the gang parts by address (R43). -/
def partAfter (u : U) (f : Block → Block) : Prog :=
  Prog.all [onBlock u.c u.b fun b => ((f b).modGang u.g Gang.issued).part u.g, settlePend u.c u.b]

/-- A branch of the lanes whose guard passes (R244), in slices with room on their stacks. -/
def braWith (g : Guard) (cond : U → State → Bool) (target : U → W64) (first : U → Prog) : Row :=
  simt 8 g
    (fun u s => cond u s && u.stackFull (fun i x => if x.braPushes (sliceMask i u.part) then 1 else 0) == [])
    (thenOwn fun u _ => (first u).andThen (partAfter u fun b =>
      (u.members.foldl (fun b i => b.modSlice i fun x => x.bra (sliceMask i u.part) (target u) u.next) b).follow u.members))

/-- Indirect branches to aligned addresses (R246). -/
def brxRow (f : XForm) : Row :=
  let target := fun (u : U) i => BitVec.ofNat 64 (u.rd i f.a 64)
  let groups := fun (u : U) i (x : Slice) =>
    laneGroups ((maskLanes i x.active).map fun l => (l, if u.part.contains l then some (target u l) else none)) u.next
  simt 8 f.g
    (fun u _ => ready u [(f.a, 64)] && (u.part.filter fun i => bits 3 (target u i) 0 != 0) == []
      && u.stackFull (fun i x => (groups u i x).length - 1) == [])
    (thenOwn fun u _ => partAfter u fun b =>
      (u.members.foldl (fun b i => b.modSlice i fun x => x.brx (groups u i x)) b).follow u.members)

/-- Exiting lanes leave; what waited for them is tried again (R48, R249). -/
def exitRow (f : XForm) : Row :=
  simt 8 f.g always (thenOwn fun u _ => (partAfter u fun b =>
    (u.members.foldl (fun b i => b.modSlice i fun x => x.exitLanes (sliceMask i u.part) u.next) b).follow u.members).andThen
    (afterExit u.c u.b))

/-- A join entry in every slice (R250). -/
def rconvRow (f : BForm) : Row :=
  simt 8 f.g (fun u _ => u.stackFull (fun _ _ => 1) == [])
    (thenNext fun u _ => onBlock u.c u.b fun b =>
      u.members.foldl (fun b i => b.modSlice i fun x => { x with stack := .join (u.target f) x.active 0 :: x.stack }) b)

/-- The active lanes park on the topmost join entry (R47). -/
def joinRow : Row :=
  simt 8 Guard.always
    (fun u _ => (u.slicesOf.flatMap fun e =>
      if e.2.active != 0 && !hasJoin e.2.stack then maskLanes e.1 e.2.active else []) == [])
    (thenOwn fun u _ => partAfter u fun b =>
      (u.members.foldl (fun b i => b.modSlice i fun x => if x.active = 0 then x else x.joinLanes) b).follow u.members)

/-- A converged quarter becomes a thread (R54). -/
def modeVliwRow (f : BForm) : Row :=
  simt 8 f.g (fun u _ => u.feat 0 featVliw && u.mayCollapse)
    (fun u _ => Prog.andThen (Prog.all [u.release,
      .one (.core u.c fun k => (retireLoads u.b u.members k).setQuarter u.physQuarter true),
      onGang u.c u.b u.g fun x => { x with vliw := true, loops := [] }]) (u.advance (u.target f)))

def yieldRow (f : XForm) : Row :=
  simt 8 f.g (fun u _ => takes u)
    (thenNext fun u _ => (onGang u.c u.b u.g fun x => { x with skip := true }).andThen
      (.one (.core u.c fun k => { k with rot := (k.rot.filter fun e => e != (u.b, u.g)) ++ [(u.b, u.g)] })))

/-- A sleep with its deadline, or of no length (R267). -/
def sleepRow (f : XForm) : Row :=
  let n := fun (u : U) => (u.sf f.a).toNat + f.imm.toNat
  simt 8 f.g (fun u _ => ready u [(f.a, 64)] && takes u)
    (fun u s => if n u = 0 then thenNext (fun _ _ => .done) u s
      else
        let t := u.due.getD (s.sys.time + n u)
        thenStay (fun _ => .sleep t true) (fun u _ => u.setDue t) u s)

def controlRow : Instr → Option Row
  | .bra f => some (braWith f.g always (fun u => u.target f) fun _ => .done)
  | .call f => some (braWith f.g (fun u _ => ready u [(f.a, 64)]) (fun u => u.target f) fun u => u.putAll f.a 64 u.next.toNat)
  | .brx f => some (brxRow f)
  | .ret f => some (brxRow f)
  | .exit f => some (exitRow f)
  | .rconv f => some (rconvRow f)
  | .join => some joinRow
  | .modeVliw f => some (modeVliwRow f)
  | .yield f => some (yieldRow f)
  | .sleep f => some (sleepRow f)
  | _ => none

/-! ## System instructions (R294 to R301) -/

/-- A grant that the block holds, or that the cluster's budget allows in its turn (R294, R380). -/
def pgrantRow (f : XForm) : Row :=
  let n := f.fld 3 0
  simt 8 f.g
    (fun u s => takes u && ((match u.blk.grant with | some m => decide (n ≤ m) | none => false)
      || ((s.cluster (clusterOf u.c)).powerTurn u.c u.b u.g && s.mayGrantPower (clusterOf u.c) u.c u.b n)))
    (thenNext fun u _ => (Prog.one (.clus (clusterOf u.c) fun q => q.dropPower u.c u.b u.g)).andThen
      (onBlock u.c u.b fun b => b.takeGrant n))

def prelsRow (f : XForm) : Row :=
  simt 8 f.g (fun u _ => takes u)
    (thenNext fun u _ => onBlock u.c u.b fun b => { b with grant := none, regrant := none, excess := 0 })

def pgateRow (f : XForm) : Row :=
  simt 8 f.g (fun u _ => takes u)
    (thenNext fun u _ => (Prog.one (.core u.c fun k =>
      { k with pgatePend := match k.pgatePend with | some x => some x | none => some u.blk.ctx })).andThen (tryGate u.c))

/-- A trap that the program asks for, behind the instruction (R297). -/
def vectorRow (f : XForm) (cause : Nat) (cond : U → Bool) : Row :=
  simt 8 f.g (fun u _ => takes u && cond u)
    (fun u _ => (u.advance u.next).andThen
      (takeTrap u.c u.b u.g { cause, recs := [{ cause, addr := f.imm.setWidth 64, lanes := u.part }] } u.pc u.next))

/-- The frame that a handler's `HRET` may leave: its address aligned, its slices together, and for a thread a bundle's header at the
address, or a word that cannot be read (R298, R390). -/
def hretReady (u : U) (s : State) (f : XForm) : Option Frame :=
  match u.gang.frames with
  | [] => none
  | fr :: _ =>
    let a := BitVec.ofNat 64 (u.rd1 f.a 64)
    let held := (List.range 16).all fun i =>
      !fr.slices.getLsbD i || u.members.contains i || (match u.blk.slice? i with | some x => !x.isLive | none => true)
    let header := match u.fetchCheck s a 8 with
      | .ok => wordMaj (BitVec.ofNat 64 (leNat (u.fetchBytes s false a 8))) == 0x3C
      | _ => true
    if a.toNat % 8 == 0 && held && (!fr.vliw || header) then some fr else none

/-- A return to the frame's mode, or from a cause that is not resumable the end of the grid (R390). -/
def hretRow (f : XForm) : Row :=
  simt 8 f.g (fun u s => ready u [(f.a, 64)] && takes u && (hretReady u s f).isSome)
    (thenOwn fun u s =>
      match hretReady u s f with
      | some fr =>
        let lanes := u.members.flatMap fun i => (List.range 4).map (4 * i + ·)
        if !fr.resumable then killGrid u.blk.grid fr.cause.toNat
        else Prog.all [
          u.bind lanes, Prog.when fr.vliw (u.settle lanes),
          .one (.core u.c fun k => (retireLoads u.b u.members k).setQuarter u.physQuarter (fr.vliw || k.qmask.getLsbD u.physQuarter)),
          onBlock u.c u.b fun b => (b.leaveHandler u.g u.members fr (BitVec.ofNat 64 (u.rd1 f.a 64))).part u.g,
          settlePend u.c u.b]
      | none => .done)

/-- A trace record where tracing is on (R300). -/
def probeRow (f : XForm) : Row :=
  simt 8 f.g (fun u _ => takes u)
    (thenNext fun u s => Prog.when (u.ctx.dbg.getLsbD 1) (traceAppend u.blk.ctx 1
      (leBytes s.sys.time 8 ++ leBytes u.pc.toNat 8 ++ leBytes u.blk.bx.toNat 4 ++ leBytes u.blk.byy.toNat 4
        ++ leBytes u.blk.bz.toNat 4 ++ leBytes u.blk.ctx 2 ++ leBytes f.imm.toNat 2)))

/-- At supervisor level: an empty range at once, another once every core has discarded it (R301). -/
def docinvRow (f : XForm) : Row :=
  simt 8 f.g
    (fun u _ => !u.user && ready u [(f.a, 64), (f.b, 64)] && takes u
      && (u.sf f.b == 0 || (u.gang.wait :: u.gang.more).contains (.docinv (u.sf f.a) (u.sf f.b) true)))
    (thenNext fun _ _ => .done)

/-- A special register's value in each participating lane (R23, R299). -/
def sreadRow (f : XForm) : Row :=
  let w := (selWidth (f.fld 8 0)).getD 32
  simt 8 f.g (fun u _ => ready u [(f.d, w)])
    (thenNext fun u s => u.put f.d w (u.part.map fun i => (i, u.special s (f.fld 8 0) i % 2 ^ w)))

/-- A special register that software may write (R299). -/
def swriteRow (f : XForm) : Row :=
  let sel := f.fld 8 0
  simt 8 f.g (fun u _ => !(sel == 0x19 && u.user) && ready u [(f.a, 32)] && takes u)
    (thenNext fun u _ =>
      if sel = 0x13 then onBlock u.c u.b fun b => { b with bbase := BitVec.ofNat 6 (u.rd1 f.a 32) }
      else if sel = 0x19 then onBlock u.c u.b fun b => { b with agent := BitVec.ofNat 8 (u.rd1 f.a 32) }
      else if sel = 0x30 then onBlock u.c u.b fun b =>
        u.part.foldl (fun b i => b.modLane i fun l => { l with fp := BitVec.ofNat 5 (u.rd i f.a 32) }) b
      else .done)

/-- An issuer of any mode. -/
def issuer (len : Nat) (cond : U → State → Bool) (eff : U → State → Prog) : Row :=
  { ok := fun s => match unitOf s len with | some u => cond u s | none => false
    next := fun s => match unitOf s len with | some u => (eff u s).run s | none => s }

/-- A word that decodes to nothing traps: RESERVED-MAJOR in SIMT code by its major, else ILLEGAL (R96). -/
def undefinedRow (w : W64) : Row :=
  let cause := fun (u : U) =>
    if !(u.gang.vliw || u.inExdin) && ((decide (0x30 ≤ wordMaj w) && decide (wordMaj w ≤ 0x37)) || wordMaj w == 0x3E) then 0x02 else 0x01
  issuer 8 always fun u _ => takeTrap u.c u.b u.g
    { cause := cause u, recs := [{ cause := cause u, lanes := if u.gang.vliw then [] else u.active }] } u.pc u.pc

/-- A fetch that a check stops traps with that cause (R247). -/
def fetchFaultRow : Row :=
  issuer 0 (fun u s => match u.fetchStop s with | some (.trap _) => true | _ => false) fun u s =>
    match u.fetchStop s with
    | some (.trap t) => takeTrap u.c u.b u.g { t with fetch := true } u.pc u.pc
    | _ => .done

def systemRow : Instr → Option Row
  | .pgrant f => some (pgrantRow f)
  | .prels f => some (prelsRow f)
  | .pgate f => some (pgateRow f)
  | .trap f => some (vectorRow f 0x00 fun _ => true)
  | .brk f => some (vectorRow f 0x13 fun u => !u.ctx.dbg.getLsbD 3)
  | .hret f => some (hretRow f)
  | .probe f => some (probeRow f)
  | .docinv f => some (docinvRow f)
  | .sread f => some (sreadRow f)
  | .swrite f => some (swriteRow f)
  | _ => none

/-! ## Bundles (R58 to R61, R86 to R91, R448) -/

/-- A thread's bundle that no check stops and no slot makes wait: its slots commit in order, then what stands behind
them. -/
def bundleRow (hdr : W64) (words : List W64) : Row :=
  let xs := (splitSlots (rawSlots hdr words)).1
  let commit := fun (u : U) s =>
    let r := (bundleReads u xs).run s
    commitSlots { u with pre := r } r (commitOrder xs) ((bundleBase u s (lopOf hdr) xs).run r)
  { ok := fun s => match unitOf s (8 + 8 * words.length) with
      | some u => u.gang.vliw && (bundleTrap u s hdr words (rawSlots hdr words) xs (splitSlots (rawSlots hdr words)).2).isNone
          && (bundleWait u s xs).isNone && (match commit u s with | .ok _ => true | .error _ => false)
      | none => false
    next := fun s => match unitOf s (8 + 8 * words.length) with
      | some u => (match commit u s with | .ok t => (bundleEnd u s hdr xs).run t | .error _ => s)
      | none => s }

/-- The header of a bundle that holds one word, in slot 0 (R86). -/
def soloHeader : W64 := 0xF000040000000000

/-- A thread's bundle of one word: the thread goes on at an address, and the slot has its effect; `rel` says that the slot
has what the thread wrote performed (R334). -/
def solo (rel : Bool) (g : Guard) (cond : U → Bool) (goes : U → W64) (eff : U → Prog) : Row :=
  { ok := fun s => match unitOf s 16 with
      | some u => u.gang.vliw && u.feat 0 featVliw && cond (u.atSlot 0 g)
      | none => false
    next := fun s => match unitOf s 16 with
      | some u => (Prog.all [
          onBlock u.c u.b fun b => ({ b with issued := b.issued + 1 }.setPc u.members (goes (u.atSlot 0 g))).modGang u.g
            fun x => { x.issued with loops := u.gang.loops },
          eff (u.atSlot 0 g),
          onBlock u.c u.b fun b => b.advanceMc u.members 0,
          Prog.when rel (joinThread u.c u.b (64 + u.members.headD 0 / 4))]).run s
      | none => s }

/-- Width of an `XMOV` (R172). -/
def xmovW (f : XForm) : Nat := if f.fld 1 5 == 1 then 64 else 32

/-- The lane that an `XMOV` reads: one of the thread's sixteen (R172). -/
def xmovSrc (u : U) (f : XForm) (i : Nat) : Nat :=
  4 * u.members.headD 0 + (if f.fld 1 4 == 1 then u.rd i f.b 32 % 16 else f.fld 4 0)

/-- The instructions that slots alone may hold, each with its major and function. -/
def slotRow : Instr → Option (Nat × Nat × Row)
  | .xmov f => some (0x16, 0, solo false f.g
      (fun u => decide (f.a.toNat + regCount (xmovW f) ≤ u.blk.n)
        && ready u [(f.d, xmovW f), (f.b, if f.fld 1 4 == 1 then 32 else 0)]
        && !(u.core.loads.any fun p => p.blk == u.b && !p.sreg && u.active.any fun i => xmovSrc u f i == p.lane
          && decide (f.a.toNat < p.reg + regsOf p.w) && decide (p.reg < f.a.toNat + regCount (xmovW f))))
      (fun u => u.next)
      fun u => u.put f.d (xmovW f) (u.part.map fun i => (i, (u.blk.lane (xmovSrc u f i)).regs f.a.toNat (regCount (xmovW f)))))
  | .modeSimt f => some (0x2E, 4, solo true f.g (fun u => u.gang.loops.isEmpty && takes u) (fun u => u.target f)
      fun u => Prog.all [
        bindLate u.c fun p => p.blk == u.b,
        joinThread u.c u.b (64 + u.members.headD 0 / 4),
        .one (.core u.c fun k => (retireLoads u.b u.members k).setQuarter u.physQuarter false),
        onBlock u.c u.b fun b =>
          (u.members.foldl (fun b i => b.modSlice i fun x => { x with active := x.live, stack := [] }) b).modGang u.g
            fun x => { x with vliw := false }])
  | .loop f => some (0x2E, 5, solo false f.g
      (fun u => ready u [(f.a, 32)] && decide (0 < f.off.toInt) && decide (u.rd1 f.a 32 ≠ 0)
        && decide (u.gang.loops.length < 8))
      (fun u => u.next)
      fun u => onGang u.c u.b u.g fun x =>
        { x with loops := { start := u.next, stop := u.target f, count := BitVec.ofNat 32 (u.rd1 f.a 32) } :: x.loops })
  | .lend f => some (0x2F, 5, solo false f.g (fun u => takes u && !u.gang.loops.isEmpty)
      (fun u => (u.gang.loops.head?.map (·.stop)).getD u.next)
      fun u => onGang u.c u.b u.g fun x => { x with loops := u.gang.loops.drop 1 })
  | _ => none

end Sys2Proof.Claims
end

