-- ==== Sys2Proof/Certificates/Slice0/RowsEx.lean ====
section
/-! DEFINITION. For the completion statements: Exdin operations in cracked code. -/

namespace Sys2Proof.Claims

open Sys2Proof.Machine

/-- A gang of an Exdin grid that issues the instruction outside any handler, with its participating lanes (R303, R313). -/
def crackedUnit (s : State) (i : Instr) : Option XU :=
  let f := exFormOf i
  match unitOf s (4 * (1 + f.nop)) with
  | none => none
  | some u =>
    match u.grid.exdin with
    | none => none
    | some info =>
      if !u.gang.frames.isEmpty then none
      else
        let x : XU := { u, info, f }
        let part := match f.guard with
          | some (o, gn) => u.active.filter fun l => (x.val s o l 1 == 1) != gn
          | none => u.active
        some { x with u := { u with part } }

/-- An Exdin instruction whose registers suit it (R313) and wait for no load (R183). -/
def cracked (i : Instr) (cond : XU → State → Bool) (eff : XU → State → Prog) : Row :=
  { ok := fun s => match crackedUnit s i with
      | some x => exDecodes i x.u x.info && ready x.u x.fields && cond x s
      | none => false
    next := fun s => match crackedUnit s i with | some x => (eff x s).run s | none => s }

/-- The effect, after which the gang stands at the next head word. -/
def exNext (p : XU → State → Prog) : XU → State → Prog := fun x s => (p x s).andThen (x.u.advance x.u.next)

/-- The effect sets the PCs itself. -/
def exOwn (p : XU → State → Prog) : XU → State → Prog := fun x s => (p x s).andThen (countIssue x.u)

def anyLane : XU → State → Bool := fun _ _ => true

/-- A lane operation on homes (R314); stochastic rounding needs the queue's sixteen words (R124). -/
def exLaneRow (i : Instr) (o : AluOp) (fp : Nat → Bool) : Row :=
  cracked i (fun x _ => !o.rill || x.u.part.isEmpty || decide (x.u.rillNeed ≤ x.u.core.rill.length))
    (exNext fun x s =>
      let rs := x.results s o fp
      let value := fun (r : Res) => match r.preds with | (_, b) :: _ => if b then 1 else 0 | [] => r.val
      Prog.all [x.put (x.dst 0) (rs.map fun e => (e.1, value e.2)), x.raise (rs.map fun e => (e.1, e.2.flags)),
        Prog.when (o.rill && takes x.u) x.u.popRill])

/-- The offset of a shuffle in a lane (R310). -/
def exOffset (x : XU) (s : State) (kind i : Nat) : Nat := if kind = 3 then x.v s 2 i 32 else x.ranged s 2 i

/-- A shuffle of an offset that its group has (R169, R310). -/
def exShuffleRow (i : Instr) (f : ExForm) (kind : Nat) : Row :=
  let gw := 4 * 2 ^ f.x 3 0
  cracked i
    (fun x s => (x.u.part.isEmpty || decide (gw ≤ x.u.blk.width))
      && (kind == 3 || (x.u.part.filter fun i => decide (exOffset x s kind i ≥ gw)) == []))
    (exNext fun x s =>
      let src := fun i =>
        match kind with
        | 0 => srcXor (exOffset x s kind i) i | 1 => srcDown (exOffset x s kind i) i | 2 => srcUp (exOffset x s kind i) i
        | 3 => srcIdx gw i (exOffset x s kind i) | _ => srcBcast gw (exOffset x s kind i) i
      x.put (x.dst 0) (x.u.part.map fun i => (i, x.v s 1 (exchange x.u.active gw i (src i)) f.ty.bits)))

/-- A reduction or scan in groups that the block is wide enough for (R171, R315). -/
def exReduceRow (i : Instr) (f : ExForm) (scan : Bool) : Row :=
  let gw := 4 * 2 ^ f.x 3 0
  cracked i (fun x _ => x.u.part.isEmpty || decide (gw ≤ x.u.blk.width))
    (exNext fun x s =>
      let vs := x.u.part.map fun i => (i, x.val s (x.op 1) i f.ty.bits (f.ty == .f32))
      let rs := if f.ty == .f32 && f.x 3 8 == 0 then fsum f.rm f.sat scan (f.x 1 3 == 1) gw x.u.blk.width vs
        else reduceRes (f.x 3 8) gw f.ty scan (f.x 1 3 == 1) vs
      (x.put (x.dst 0) (rs.map fun e => (e.1, e.2.val))).andThen (x.raise (rs.map fun e => (e.1, e.2.flags))))

/-- Integer, logic and floating-point operations. -/
def exLaneTable : Instr → Option Row
  | .exAdd f => some (exLaneRow (.exAdd f) (intAdd f.ty f.sat) noFp)
  | .exSub f => some (exLaneRow (.exSub f) (intSub f.ty f.sat) noFp)
  | .exMul f => some (exLaneRow (.exMul f) (intMul f.ty f.sat) noFp)
  | .exMad f => some (exLaneRow (.exMad f) (intMad f.ty f.sat) noFp)
  | .exDiv f => some (exLaneRow (.exDiv f) (opDiv f.ty f.sat) noFp)
  | .exRem f => some (exLaneRow (.exRem f) (opRem f.ty) noFp)
  | .exMin f => some (exLaneRow (.exMin f) (intMin f.ty) noFp)
  | .exMax f => some (exLaneRow (.exMax f) (intMax f.ty) noFp)
  | .exAnd f => some (exLaneRow (.exAnd f) (opBits f.ty.bits fun a b => a &&& b) noFp)
  | .exOr f => some (exLaneRow (.exOr f) (opBits f.ty.bits fun a b => a ||| b) noFp)
  | .exXor f => some (exLaneRow (.exXor f) (opBits f.ty.bits fun a b => a ^^^ b) noFp)
  | .exShl f => some (exLaneRow (.exShl f) (opShift f.ty.bits shlN) noFp)
  | .exShr f => some (exLaneRow (.exShr f) (opShift f.ty.bits (if f.x 1 0 == 1 then sarN else shrN)) noFp)
  | .exBitc f => some (exLaneRow (.exBitc f) (match f.x 2 0 with
      | 0 => opCount f.ty.bits popN | 1 => opCount f.ty.bits clzN | 2 => opCount f.ty.bits ctzN | _ => opRev f.ty.bits) noFp)
  | .exBfx f => some (exLaneRow (.exBfx f) (opBfx f.ty) noFp)
  | .exBfi f => some (exLaneRow (.exBfi f) (opBfi f.ty.bits) noFp)
  | .exCmp f => some (exLaneRow (.exCmp f) (opCmp f.ty (f.x 3 0) 0) noFp)
  | .exFadd f => some (exLaneRow (.exFadd f) (opFadd f.rm f.sat) allFp)
  | .exFsub f => some (exLaneRow (.exFsub f) (opFsub f.rm f.sat) allFp)
  | .exFmul f => some (exLaneRow (.exFmul f) (opFmul f.rm f.sat) allFp)
  | .exFfma f => some (exLaneRow (.exFfma f) (opFfma f.rm f.sat) allFp)
  | .exFmin f => some (exLaneRow (.exFmin f) (opFmm false) allFp)
  | .exFmax f => some (exLaneRow (.exFmax f) (opFmm true) allFp)
  | .exFdiv f => some (exLaneRow (.exFdiv f) (opFdiv f.rm f.sat) allFp)
  | .exFsqrt f => some (exLaneRow (.exFsqrt f) (opFsqrt f.rm f.sat) allFp)
  | .exFcmp f => some (exLaneRow (.exFcmp f) (opFcmp (f.x 3 0) 0) allFp)
  | .exFunc f => some (exLaneRow (.exFunc f) (opFn (f.x 3 0)) allFp)
  | .exCvt f => some (exLaneRow (.exCvt f) (exCvtOp f) fun _ => Ty.ofCode (bits 5 f.xm 0) == some .f32)
  | .exQuant f => some (exLaneRow (.exQuant f) (opScaleq f.ty f.rm f.sat) (· == 1))
  | .exBscale f => some (exLaneRow (.exBscale f) (opBscale f.ty) allFp)
  | _ => none

/-- Moves, selections, exchanges, special registers, loads, stores, atomics and fences. -/
def exMoveTable : Instr → Option Row
  | .exNop f => some (cracked (.exNop f) anyLane (exNext fun _ _ => .done))
  | .exMov f => some (cracked (.exMov f) anyLane
      (exNext fun x s => x.put (x.dst 0) (x.u.part.map fun i => (i, x.v s 1 i 64))))
  | .exSel f => some (cracked (.exSel f) anyLane
      (exNext fun x s => x.put (x.dst 0) (x.u.part.map fun i => (i, x.v s (if x.p s 1 i then 2 else 3) i f.ty.bits))))
  | .exShfl f => some (exShuffleRow (.exShfl f) f (f.x 2 5))
  | .exBcast f => some (exShuffleRow (.exBcast f) f 4)
  | .exVote f => some (cracked (.exVote f) anyLane
      (exNext fun x s => x.putAll (x.dst 0) (voteVal (f.x 2 0) (x.u.part.map fun i => (i, x.p s 1 i)))))
  | .exXred f => some (exReduceRow (.exXred f) f false)
  | .exXscan f => some (exReduceRow (.exXscan f) f true)
  | .exSreg f => some (cracked (.exSreg f) anyLane
      (exNext fun x s => x.put (x.dst 0) (x.u.part.map fun i =>
        (i, match f.x 8 0 with
          | 0x80 => x.u.grid.m.toNat | 0x81 => x.u.grid.n.toNat | 0x82 => x.u.grid.k.toNat
          | _ => x.u.special s (f.x 8 0) i))))
  | _ => none

/-- A load at the sum of two operands (R181, R314). -/
def exLoadRow (i : Instr) (f : ExForm) (glob : Bool) : Row :=
  let sp : Space := if glob then .global else .scratch
  cracked i (fun x s => reach x.u s sp .rd (fun _ => true) (x.accs s glob 1))
    (exNext fun x s =>
      let l := x.accs s glob 1
      kept x.u s sp l (x.u.loadProg sp (exOrdOf f 0) (exScpOf f 3) (exView f glob) l (x.bind (x.dst 0) (exWidth f.ty) l)))

/-- A store at the sum of two operands (R181, R314). -/
def exStoreRow (i : Instr) (f : ExForm) (glob : Bool) : Row :=
  let sp : Space := if glob then .global else .scratch
  cracked i (fun x s => reach x.u s sp .wr (fun _ => true) (x.accs s glob 0))
    (exNext fun x s =>
      let l := x.accs s glob 0
      kept x.u s sp l (x.u.storeProg s sp (exOrdOf f 0) (exScpOf f 3) (exView f glob) l fun i => x.v s 2 i f.ty.bits))

/-- An atomic on global memory (R191 to R197). -/
def exAtomRow (f : ExForm) : Row :=
  let w := f.ty.bits
  let fp := f.ty == .f32
  let accs := fun (x : XU) s => x.u.part.map fun i => ({ lane := i, ea := x.v s 1 i 64, size := w / 8 } : LAcc)
  cracked (.exAtom f)
    (fun x s => reach x.u s .global .rw (atomSeg (exScpOf f 2)) (accs x s)
      && s.replayAllows x.u.blk.ctx (x.u.atomRecs s (accs x s)))
    (exNext fun x s =>
      let l := accs x s
      kept x.u s .global l (x.u.atomicProg .global false (exOrdOf f 4) (exScpOf f 2) f.ty (f.x 4 7)
        (fun a old =>
          match x.field (x.dst 0) with
          | some g => x.u.atomOld w g l a old
          | none => x.put (x.dst 0) [(a.lane, old)]) l
        (fun i => x.val s (x.op 2) i w fp) fun i => if f.x 4 7 == 7 then x.val s (x.op 3) i w fp else 0))

def exMemTable : Instr → Option Row
  | .exLd f => some (exLoadRow (.exLd f) f true)
  | .exSt f => some (exStoreRow (.exSt f) f true)
  | .exLds f => some (exLoadRow (.exLds f) f false)
  | .exSts f => some (exStoreRow (.exSts f) f false)
  | .exAtom f => some (exAtomRow f)
  | .exFence f => some (cracked (.exFence f) anyLane (exNext fun x _ => fenceProg (exOrdOf f 0) (exScpOf f 3) x.u))
  | _ => none

/-! ## Tiles, flumes and engines -/

def exTallocRow (f : ExForm) : Row :=
  cracked (.exTalloc f)
    (fun x s => takes x.u && match (x.u.parts s)[f.x 3 0]? with
      | none => false
      | some q => !allocBad q (x.count s 1) (x.count s 2) && q.mayGrant false x.u.c x.u.b x.u.g (x.count s 1))
    (exNext fun x s =>
      (onPart (clusterOf x.u.c) (f.x 3 0) fun q => q.unqueue false x.u.c x.u.b x.u.g).andThen
        (allocTile (clusterOf x.u.c) (f.x 3 0) x.u.blk.ctx (x.count s 1) (x.count s 2) (f.x 1 3 == 1) x.u.owner x.u.blk.agent
          fun h => x.putAll (x.dst 0) h))

def exTldRow (f : ExForm) : Row :=
  let con := f.x 1 0 == 1
  let w := exWidth f.ty
  cracked (.exTld f)
    (fun x s => takes x.u && inTile x.u s (x.v1 s 1 32) (if con then .consume else .read) false (x.offs s 2))
    (exNext fun x s =>
      let k := clusterOf x.u.c
      let h := x.v1 s 1 32
      let l := x.offs s 2
      (Prog.read fun t => x.bind (x.dst 0) w l {}
        (l.map fun a => (a.lane, leNat (t.readBytes (tileLoc (x.u.parts s) k h a.ea.toNat) w.size)))).andThen
        (Prog.when con (consumeTile k h 1)))

def exTstRow (f : ExForm) : Row :=
  cracked (.exTst f) (fun x s => takes x.u && inTile x.u s (x.v1 s 0 32) .write true (x.offs s 1))
    (exNext fun x s => Prog.each (x.offs s 1) fun a =>
      .one (.write (tileLoc (x.u.parts s) (clusterOf x.u.c) (x.v1 s 0 32) a.ea.toNat)
        (leBytes (x.v s 2 a.lane f.ty.bits) (exWidth f.ty).size)))

def exQpostRow (f : ExForm) : Row :=
  cracked (.exQpost f)
    (fun x s => takes x.u && (tileFor x.u s (x.v1 s 0 32) .post).isSome && match flumeOf x.u s (f.x 5 0) with
      | some q => hPart (x.v1 s 0 32) == q.part && !q.full
      | none => false)
    (exNext fun x s => Prog.all [x.u.release, x.u.dropTile, x.u.onFlume (f.x 5 0) fun q => q.post (x.v1 s 0 32)])

def exQtakeRow (f : ExForm) : Row :=
  let c := f.x 2 5
  cracked (.exQtake f)
    (fun x s => takes x.u && !(x.count s 1 == 0 || decide (x.count s 1 > 256)) && match flumeOf x.u s (f.x 5 0) with
      | some q => decide (c < q.ncur) && decide (x.count s 1 ≤ q.beyond c)
      | none => false)
    (exNext fun x s =>
      match flumeOf x.u s (f.x 5 0) with
      | some q =>
        (x.putAll (x.dst 0) (cellGet q.ring ((q.cur.getD c 0).toNat % 256)).toNat).andThen
          (x.u.onFlume (f.x 5 0) fun q => if f.x 1 7 == 1 then q.advance c 1 else q)
      | none => .done)

/-- The fields of a `copy` (log 20). -/
def exCopyField (x : XU) (s : State) (f : ExForm) : Nat → Nat := fun i =>
  match i with
  | 0 => f.x 6 0 | 1 => x.count s 2 | 2 => x.count s 3 | 3 | 4 => 1
  | 5 => x.count s 4 | 8 => x.count s 5 | 12 => f.x 3 6 | _ => 0

def exCopyRow (f : ExForm) : Row :=
  cracked (.exCopy f)
    (fun x s =>
      let p := exCopyField x s f
      takes x.u && copyReady x.u s p false false 0 (hPart (x.v1 s 1 64 % 2 ^ 32)) (x.v1 s 0 64)
        && sideReach x.u s (dstSpace p) (x.v1 s 1 64) (p 1) (dstRuns p) .write true)
    (exNext fun x s =>
      let p := exCopyField x s f
      keptSides x.u p (x.v1 s 0 64) (some (x.v1 s 1 64)) (queueCopy x.u s p false (x.v1 s 0 64) (x.v1 s 1 64) (dstRuns p)))

/-- The gang has been granted the lease of one command that its operation asked for (log 20). -/
def freshLease (u : U) (s : State) : Bool := (u.lease s).any fun l => l.fresh == some u.g

/-- The state in which the gang's operation holds its lease. -/
def heldLease (x : XU) (s : State) : State :=
  (Prog.one (.clus (clusterOf x.u.c) fun q => { q with lease := some x.ownLease })).run s

/-- The operation has its lease, or is granted it at once (R319, log 20). -/
def ownsLease (x : XU) (s : State) : Bool :=
  freshLease x.u s || (x.takeLease (s.cluster (clusterOf x.u.c))).lease == some x.ownLease

/-- The operation's effect, with its lease taken. -/
def withLease (x : XU) (s : State) (p : Prog) : Prog :=
  if freshLease x.u s then p else (Prog.one (.clus (clusterOf x.u.c) x.takeLease)).andThen p

/-- The fields of a `wload` (log 20). -/
def exWloadField (x : XU) (s : State) (f : ExForm) : Nat → Nat :=
  let sparse := f.x 1 5 == 1
  let t := (arrayFmt (f.x 5 0)).getD .i8
  fun i => match i with
    | 0 => f.x 5 0 | 1 => f.x 1 5 + 2 * f.x 2 6 + 8 * f.x 1 8 | 2 => x.v1 s 1 32
    | 5 => x.v1 s 2 32 | 6 => x.v1 s 3 32 | 8 => 2 * scaleCount t sparse | 9 => indexCount t sparse | _ => 0

/-- A weight load of a gang that has or gets its lease. -/
def exWloadRow (f : ExForm) : Row :=
  let p := fun (x : XU) s => exWloadField x s f
  let c := fun (x : XU) s => engCtl (p x s 1)
  let t := (arrayFmt (f.x 5 0)).getD .i8
  let base := fun (x : XU) s => engBase (c x s).space (x.v1 s 0 64)
  let l := fun (x : XU) s => mloadwSpans (p x s) t (c x s) (spanBase (c x s).space (base x s))
  cracked (.exWload f)
    (fun x s => takes x.u && ownsLease x s && !mloadwBad x.u (p x s)
      && engReach x.u (heldLease x s) (c x s) (base x s) (l x s))
    (exNext fun x s =>
      let h := heldLease x s
      withLease x s <| keptSpans x.u (c x s).space (l x s) <| Prog.all [x.u.release, countCommand x.u,
        x.u.engTake (c x s) (base x s), x.u.engFill h (c x s).space true false (l x s),
        x.u.engViews (c x s).space (base x s) (c x s).view false (l x s),
        .one (.clus (clusterOf x.u.c) fun q =>
          { q with wloads := q.wloads ++ [{
              core := x.u.c, blk := x.u.b, ctx := x.u.blk.ctx, grid := x.u.blk.grid
              src := x.u.region h (c x s).space (base x s) (c x s).view (l x s), fmt := t, sparse := (c x s).sparse
              cstride := p x s 2, doff := p x s 4, soff := p x s 5, ioff := p x s 6, sstride := p x s 8
              istride := p x s 9, consume := (c x s).consume, slices := maskOf 16 x.u.members, pc := x.u.pc, org := x.u.origin }] })])

/-- The plane of an `mm`, and its fields (log 20). -/
def exPlane (x : XU) (s : State) (f : ExForm) : Plane :=
  if f.x 1 6 == 1 then (s.cluster (clusterOf x.u.c)).shadow else (s.cluster (clusterOf x.u.c)).active

def exMmField (x : XU) (s : State) (f : ExForm) : Nat → Nat := fun i =>
  match i with
  | 0 => f.x 5 0 | 1 => 2 * f.x 2 7 + 8 * f.x 1 9 | 2 => x.count s 2 | 5 => x.v1 s 3 32 | 6 => x.v1 s 4 32
  | 7 => 2 * scaleCount (exPlane x s f).fmt (exPlane x s f).sparse | _ => 0

/-- A stream of a gang that has or gets its lease. -/
def exMmRow (f : ExForm) : Row :=
  let z := fun (x : XU) => homeIdx (x.info.home (x.dst 0))
  let m := fun (x : XU) s => BitVec.ofNat 64 (x.v1 s 5 64)
  let p := fun (x : XU) s => exMmField x s f
  let c := fun (x : XU) s => engCtl (p x s 1)
  let t := (arrayFmt (f.x 5 0)).getD .i8
  let base := fun (x : XU) s => engBase (c x s).space (x.v1 s 1 64)
  let l := fun (x : XU) (s : State) => mstreamSpans (p x s) (exPlane x s f) (m x s) (spanBase (c x s).space (base x s))
  let swap := f.x 1 6 == 1
  cracked (.exMm f)
    (fun x s => takes x.u && ownsLease x s && !mstreamBad x.u (p x s)
      && !(swap && (s.cluster (clusterOf x.u.c)).wloads != []) && (exPlane x s f).valid && (exPlane x s f).ctx == x.u.blk.ctx
      && fmtClass t == fmtClass (exPlane x s f).fmt && bits 26 (m x s) 38 == 0
      && engReach x.u (heldLease x s) (c x s) (base x s) (l x s) && !x.u.streaming s (z x))
    (exNext fun x s =>
      let h := heldLease x s
      withLease x s <| keptSpans x.u (c x s).space (l x s) <| Prog.all [x.u.release, countCommand x.u,
        x.u.engTake (c x s) (base x s), x.u.engFill h (c x s).space true false (l x s),
        x.u.engViews (c x s).space (base x s) (c x s).view false (l x s), Prog.when swap (swapPlanes (clusterOf x.u.c)),
        .one (.clus (clusterOf x.u.c) fun q =>
          { q with streams := q.streams ++ [{
              core := x.u.c, blk := x.u.b, tile := z x, src := x.u.region h (c x s).space (base x s) (c x s).view (l x s)
              afmt := t, rows := p x s 2, row0 := p x s 3, aoff := p x s 4, astride := p x s 5, soff := p x s 6
              sstride := p x s 7, acc := f.x 1 5 == 1, mword := m x s, consume := (c x s).consume, plane := exPlane x s f
              slices := maskOf 16 x.u.members, pc := x.u.pc, org := x.u.origin }] })])

/-- `acc` in each of its three forms, in range (log 20). -/
def exAccRow (f : ExForm) : Row :=
  let z := fun (x : XU) => homeIdx (x.info.home (x.dst 0))
  let e := f.ty.bits / 32
  match f.x 2 0 with
  | 0 => cracked (.exAcc f)
      (fun x s => accumFree x.u s (z x) && takes x.u && !(x.count s 2 == 0 || decide (x.count s 1 + x.count s 2 > 32)))
      (exNext fun x s => .one (.zero (rowLoc x.u.c x.u.core x.u.blk (z x) (x.count s 1)) (1024 * x.count s 2)))
  | 1 => cracked (.exAcc f)
      (fun x s => accumFree x.u s (z x) && (x.u.part.isEmpty || (decide (x.count s 2 < 32) && decide (x.count s 3 < 256))))
      (exNext fun x s => .read fun t => x.put (x.dst 1) (mreadVals x.u t (z x) (x.count s 2) (x.count s 3) e))
  | _ => cracked (.exAcc f)
      (fun x s => accumFree x.u s (z x) && (x.u.part.isEmpty || (decide (x.count s 1 < 32) && decide (x.count s 2 < 256))))
      (exNext fun x s => mwriteProg x.u (z x) (x.count s 1) (x.count s 2) e fun i => x.v s 3 i f.ty.bits)

def exEngineTable : Instr → Option Row
  | .exTalloc f => some (exTallocRow f)
  | .exTseal f => some (cracked (.exTseal f)
      (fun x s => takes x.u && (tileFor x.u s (x.v1 s 0 32) .seal).isSome)
      (exNext fun x s => Prog.all [x.u.release, x.u.dropTile, sealTile (clusterOf x.u.c) (x.v1 s 0 32)]))
  | .exTld f => some (exTldRow f)
  | .exTst f => some (exTstRow f)
  | .exTdrop f => some (cracked (.exTdrop f)
      (fun x s => takes x.u && !(x.count s 1 == 0 || decide (x.count s 1 > 4095))
        && (tileFor x.u s (x.v1 s 0 32) (.drop (x.count s 1))).isSome)
      (exNext fun x s => consumeTile (clusterOf x.u.c) (x.v1 s 0 32) (x.count s 1)))
  | .exQpost f => some (exQpostRow f)
  | .exQtake f => some (exQtakeRow f)
  | .exCopy f => some (exCopyRow f)
  | .exWload f => some (exWloadRow f)
  | .exMm f => some (exMmRow f)
  | .exAcc f => some (exAccRow f)
  | _ => none

/-! ## Structured control (R316) -/

/-- The slices change; those that have ended a region wait for the others that entered it; the gang parts (R316). -/
def regionProg (x : XU) (f : Nat → Slice → Slice × Option (BitVec 16)) : Prog :=
  let u := x.u
  let res := u.slicesOf.map fun e => (e.1, f e.1 e.2)
  Prog.all [Prog.when (res.any (·.2.2.isSome)) u.returnLoads, onBlock u.c u.b fun b =>
    let b := res.foldl (fun b e => b.modSlice e.1 fun _ => e.2.1) b
    let b := b.forsake u.blk ((res.filter (·.2.2.isNone)).map (·.1))
    let b := ((b.follow u.members).modGang u.g Gang.issued).part u.g
    let b := res.foldl (fun b e =>
      match e.2.2, b.slice? e.1 with
      | some mask, some y => b.modGang y.gang fun g => { g with wait := .regang mask }
      | _, _ => b) b
    b.tryRegang true, afterExit u.c u.b]

/-- Lanes of a slice that run from `else`. -/
def elseLanes (x : XU) (s : State) (i : Nat) (y : Slice) : BitVec 4 :=
  sliceMask i ((maskLanes i y.active).filter fun l => !x.p s 0 l)

/-- The slices that an `if` pushes too many entries on. -/
def ifFull (x : XU) (s : State) : List Nat := x.u.stackFull fun i y => if y.braPushes (elseLanes x s i y) then 2 else 1

/-- The active slices outside any loop. -/
def outsideLoop (x : XU) : List Nat :=
  x.u.slicesOf.flatMap fun e =>
    if e.2.active != 0 && !(e.2.ex.any (·.loop)) then maskLanes e.1 e.2.active else []

def exControlTable : Instr → Option Row
  | .exIf f => some (cracked (.exIf f) (fun x s => ifFull x s == [])
      (exOwn fun x s => regionProg x fun i y =>
        (y.openIf (elseLanes x s i y) (maskOf 16 x.u.members) (x.target 1) (x.target 2) x.u.next, none)))
  | .exElse => some (cracked .exElse (fun x _ => x.stray false == [])
      (exOwn fun x _ => regionProg x fun _ y =>
        match y.ex with | r :: _ => (y.atElse r x.u.next, none) | [] => (y, none)))
  | .exEndif => some (cracked .exEndif (fun x _ => x.stray false == [])
      (exOwn fun x _ => regionProg x fun _ y =>
        match y.active == 0, y.ex with | false, r :: _ => y.closed r x.u.pc | _, _ => (y, none)))
  | .exLoop f => some (cracked (.exLoop f) (fun x _ => x.full 1 == [])
      (exOwn fun x s =>
        let c := x.v1 s 0 32
        regionProg x fun _ y =>
          if y.active = 0 then (y, none)
          else
            let r : ExRegion :=
              { loop := true, depth := y.stack.length, slices := maskOf 16 x.u.members, start := x.u.next, remain := BitVec.ofNat 32 c }
            ({ y with stack := .join (x.target 1) y.active 0 :: y.stack, ex := r :: y.ex,
                      pc := if c = 0 then x.target 1 else x.u.next }, none)))
  | .exEndloop => some (cracked .exEndloop (fun x _ => x.stray true == [])
      (exOwn fun x _ => regionProg x fun _ y =>
        match y.active == 0, y.ex with
        | false, r :: t =>
          if y.stack.length > r.depth && decide (r.remain.toNat > 1) then
            ({ y with pc := r.start, ex := { r with remain := r.remain - 1 } :: t }, none)
          else y.closed r x.u.pc
        | _, _ => (y, none)))
  | .exBrk f => some (cracked (.exBrk f) (fun x _ => outsideLoop x == [])
      (exOwn fun x s => regionProg x fun i y =>
        match y.ex.find? (·.loop) with
        | some r => (y.leave r (sliceMask i (x.u.part.filter fun l => x.p s 0 l)) x.u.next, none)
        | none => (y, none)))
  | .exBar =>
      let bar := fun (x : XU) => x.u.blk.barOf 0
      let add := fun (x : XU) => Prog.one (.core x.u.c fun k =>
        k.setBar (bar x) { k.bar (bar x) with arr := (k.bar (bar x)).arr + x.u.members.length })
      some (cracked .exBar
        (fun x s => x.u.blk.ownsBar (bar x) && decide (((s.core x.u.c).bar (bar x)).arr + x.u.members.length ≤ 31))
        (fun x s =>
          let q := (s.core x.u.c).bar (bar x)
          if decide (q.arr + x.u.members.length + x.u.blk.deadCount ≥ q.exp) && q.pend == 0 then
            exNext (fun x _ => Prog.all [x.u.release, x.u.dropTile, add x, tryRelease x.u.c x.u.b (bar x)]) x s
          else (Prog.all [x.u.release, x.u.dropTile, add x]).andThen
            (onGang x.u.c x.u.b x.u.g fun y => { y with wait := .bar (bar x) true })))
  | .exExit f => some (cracked (.exExit f) anyLane
      (exOwn fun x _ => (partAfter x.u fun b =>
        (x.u.members.foldl (fun b i => b.modSlice i fun y => y.exitLanes (sliceMask i x.u.part) x.u.next) b).follow
          x.u.members).andThen
        (Prog.all [afterExit x.u.c x.u.b, onBlock x.u.c x.u.b fun b => (b.forsake x.u.blk x.u.members).tryRegang true])))
  | _ => none

end Sys2Proof.Claims
end

