-- ==== Sys2Proof/Certificates/Slice0/RowsHart.lean ====
section
/-! DEFINITION. For the completion statements: the instructions of the loader and storer harts. -/

namespace Sys2Proof.Claims

open Sys2Proof.Machine

/-- An instruction of `len` bytes that a running hart issues. -/
def hartRow (len : Nat) (cond : HU → State → Bool) (eff : HU → State → Prog) : Row :=
  { ok := fun s => match hartOf s len with | some a => cond a s | none => false
    next := fun s => match hartOf s len with | some a => (eff a s).run s | none => s }

/-- Where an access of a hart that completes goes. -/
def hartAt (a : HU) (s : State) (use : Use3) (scope : Seg → Bool) (va : W64) (n : Nat) : Option Loc :=
  if va.toNat % n != 0 then none
  else match a.access s use scope va n with | .ok l => some l | _ => none

/-- An LR, an SC or an AMO of `n` bytes at an aligned address that the hart may reach (log 12). -/
def hartAmo (a : HU) (s : State) (w : W32) (n : Nat) (x y : W64) : Option Prog :=
  let rd := (bits 5 w 7).toNat
  match (bits 5 w 27).toNat with
  | 2 =>
    if bits 5 w 20 != 0 then none
    else (hartAt a s .rd (atomSeg .dev) x n).map fun l =>
      Prog.all [a.keep x, a.fullFence, homeTouch a.h.ctx 0 x l false, .read fun t =>
        a.on fun h => { ((h.setReg rd (rvSext n (leNat (t.readBytes l n)))).retire a.next) with
          resv := some (l, rvSext n (leNat (t.readBytes l n))) }]
  | 3 => (hartAt a s .wr (atomSeg .dev) x n).map fun l =>
      (mergeRead (dieOf a.c) l n).andThen <| .read fun t =>
        let ok := a.h.resv == some (l, rvSext n (leNat (t.readBytes l n)))
        Prog.all [Prog.when ok (a.write x l (leBytes y.toNat n)),
          a.on fun h => { ((h.setReg rd (if ok then 0 else 1)).retire a.next) with resv := none }]
  | op =>
    if (rvAmo op n 0 0).isNone then none
    else (hartAt a s .rw (atomSeg .dev) x n).bind fun l =>
      let es := if l.sp = 0 then [atomRec l.a [a.h.grid, 2 ^ 32 + 2 * a.c + (if a.st then 1 else 0), 0]] else []
      if !s.replayAllows a.h.ctx es then none
      else some (Prog.all [a.keep x, a.fullFence, homeTouch a.h.ctx 0 x l true,
        rmw [(l, n)] n (fun old => (rvAmo op n old y.toNat).getD old) fun old =>
          Prog.all [tickClock (dieOf a.c) l x, Prog.each es (orderAtomic a.h.ctx), a.done rd (rvSext n old)]])

/-- An access to a control and status register that exists; one that is only read may be read-only. -/
def hartCsr (a : HU) (w : W32) : Option Prog :=
  let f3 := (bits 3 w 12).toNat
  let n := (bits 12 w 20).toNat
  let r := (bits 5 w 15).toNat
  let v := if f3 ≥ 4 then BitVec.ofNat 64 r else a.h.reg r
  let writes := f3 % 4 == 1 || r != 0
  match a.h.csr a.id n with
  | none => none
  | some old =>
    if f3 % 4 = 0 ∨ (writes && decide (n ≥ 0xC00)) then none
    else
      let new := match f3 % 4 with | 1 => v | 2 => old ||| v | _ => old &&& ~~~v
      some (a.on fun h =>
        let h := (h.setReg (bits 5 w 7).toNat old).retire a.next
        if writes then h.setCsr n new else h)

/-- What a 32-bit base instruction does where it completes; `ECALL` and `EBREAK` have their exception as their effect. -/
def hartDoes (a : HU) (s : State) (w : W32) : Option Prog :=
  let rd := (bits 5 w 7).toNat
  let f3 := (bits 3 w 12).toNat
  let x := a.h.reg (bits 5 w 15).toNat
  let y := a.h.reg (bits 5 w 20).toNat
  match (bits 7 w 0).toNat with
  | 0x37 => some (a.done rd (immU w))
  | 0x17 => some (a.done rd (a.h.pc + immU w))
  | 0x6F => some (a.jump rd a.next (a.h.pc + immJ w))
  | 0x67 => if f3 = 0 then some (a.jump rd a.next ((x + (bits 12 w 20).signExtend 64) &&& ~~~(1 : W64))) else none
  | 0x63 => (rvCond f3 x y).map fun t => a.jump 0 0 (if t then a.h.pc + immB w else a.next)
  | 0x03 =>
    let va := x + (bits 12 w 20).signExtend 64
    let n := 2 ^ (f3 % 4)
    if f3 = 7 then none
    else (hartAt a s .rd (fun _ => true) va n).map fun l =>
      .read fun t =>
        let hit := a.u.hits t .global { lane := 0, ea := va.toNat, size := n }
        Prog.all [a.keep va, a.u.touch false [(va, l)], if hit then landMet (dieOf a.c) l n else mergeRead (dieOf a.c) l n,
          .read fun t => a.done rd (rvLoadVal f3 (leNat (seeBytes t a.c a.u.b a.thr hit l n)))]
  | 0x23 =>
    let va := x + immS w
    if f3 ≥ 4 then none
    else (hartAt a s .wr (fun _ => true) va (2 ^ f3)).map fun l =>
      (a.write va l (leBytes y.toNat (2 ^ f3))).andThen (a.on fun h => h.retire a.next)
  | 0x13 => (rvOpImm w x).map (a.done rd)
  | 0x1B => (rvOpImm32 w (x.setWidth 32)).map fun v => a.done rd (sext32 v)
  | 0x33 => (rvOp (bits 7 w 25).toNat f3 x y).map (a.done rd)
  | 0x3B => (rvOp32 (bits 7 w 25).toNat f3 (x.setWidth 32) (y.setWidth 32)).map fun v => a.done rd (sext32 v)
  | 0x2F => if f3 = 2 then hartAmo a s w 4 x y else if f3 = 3 then hartAmo a s w 8 x y else none
  | 0x0F =>
    if f3 = 0 then some (a.fullFence.andThen (a.on fun h => h.retire a.next))
    else if f3 = 1 then some (a.on fun h => h.retire a.next)
    else none
  | 0x73 =>
    match w.toNat with
    | 0x00000073 => some (a.fault 11 0)
    | 0x00100073 => some (a.fault 3 a.h.pc)
    | 0x10500073 => some (a.on fun h => h.retire a.next)
    | 0x30200073 => some (a.on fun h =>
        { (h.retire h.mepc) with mstatus := 0x1880 ||| (if h.mstatus.getLsbD 7 then 8 else 0) })
    | _ => hartCsr a w
  | _ => none

/-- A base instruction, 32-bit or compressed (R280). -/
def hartBase (w : W32) (a : HU) (s : State) : Option Prog :=
  if bits 2 w 0 = 3 then hartDoes a s w
  else (expandC (bits 16 w 0)).bind (hartDoes a s)

/-- The copy that a control block at an aligned address describes, where it may be queued (R282). -/
def hartCopy (f : HForm) (a : HU) (s : State) : Option Prog :=
  let va := a.h.reg f.rs1.toNat
  (hartAt a s .rd (fun _ => true) va 64).bind fun l =>
    let ccb := s.readBytes l 64
    let p := ccbField ccb
    let src := leNat (ccb.take 8)
    let dst := leNat ((ccb.drop 8).take 8)
    let ctl := leNat ((ccb.drop 16).take 8)
    let con := ctl / 2 % 2 == 1
    let part := ctl / 4 % 8
    let count := ctl / 64 % 4096
    let size := (copyExtent p + 4095) / 4096
    if f.rs2 ≠ 0 ∨ ccbBad ccb then none
    else if ctl % 2 = 1 then
      if copyReady a.u s p true con count part src && (match (a.u.parts s)[part]? with
          | some r => !allocBad r size count && r.mayGrant true a.c a.u.b 0 size
          | none => false) then
        some ((a.keep va).andThen ((keptSides a.u p src none <|
          Prog.all [onPart (clusterOf a.c) part fun r => r.unqueue true a.c a.u.b 0,
            allocTile (clusterOf a.c) part a.h.ctx size count (ctl / 32 % 2 == 1) a.u.owner 0 fun h =>
              (a.on fun k => k.setReg f.rd.toNat (BitVec.ofNat 64 h)).andThen (queueCopy a.u s p con src h (dstRuns p))]).andThen
          (a.on fun h => h.retire a.next)))
      else none
    else if copyReady a.u s p false con count (hPart (dst % 2 ^ 32)) src
        && sideReach a.u s (dstSpace p) dst (p 1) (dstRuns p) .write true then
      some ((a.keep va).andThen ((keptSides a.u p src (some dst) (queueCopy a.u s p con src dst (dstRuns p))).andThen
        (a.done f.rd.toNat 0)))
    else none

/-- A tile allocated at once (R281). -/
def hartAlloc (f : HForm) (a : HU) (s : State) : Option Prog :=
  let size := (a.h.reg f.rs1.toNat).toNat
  let y := (a.h.reg f.rs2.toNat).toNat
  let part := y / 2 ^ 12 % 8
  match (a.u.parts s)[part]? with
  | none => none
  | some q =>
    if y < 2 ^ 16 ∧ !allocBad q size (y % 2 ^ 12) ∧ q.mayGrant true a.c a.u.b 0 size then
      some ((onPart (clusterOf a.c) part fun q => q.unqueue true a.c a.u.b 0).andThen
        (allocTile (clusterOf a.c) part a.h.ctx size (y % 2 ^ 12) (y / 2 ^ 15 % 2 == 1) a.u.owner 0 fun h =>
          a.done f.rd.toNat (BitVec.ofNat 64 h)))
    else none

/-- A tile posted to a flume that has room: sealed first where it is WRITING and the hart's own (R281). -/
def hartPost (f : HForm) (a : HU) (s : State) : Option Prog :=
  let h := (a.h.reg f.rs1.toNat).toNat % 2 ^ 32
  let q := (a.h.reg f.rs2.toNat).toNat % 32
  let mine := fun use => match tileCheck (a.u.parts s) a.u.owner h use with | .inr _ => true | .inl _ => false
  match a.u.grid.flume? q with
  | none => none
  | some (part, ncur) =>
    if hPart h = part ∧ !(takeFlume ((s.core a.c).flume q) a.h.grid part ncur).full ∧ (mine .seal || mine .post) then
      some (Prog.all [settleDie (dieOf a.c), a.u.dropTile, Prog.when (mine .seal) (sealTile (clusterOf a.c) h),
        a.u.onFlume q fun fl => fl.post h, a.done f.rd.toNat 0])
    else none

/-- A wait for a copy queue that holds no more operations than asked for (R281). -/
def hartAwait (f : HForm) (a : HU) (s : State) : Option Prog :=
  let n := (s.queueOf a.c a.u.b).ops.length
  if f.rs2 = 0 ∧ n ≤ 16 ∧ n ≤ (a.h.reg f.rs1.toNat).toNat then some (a.done f.rd.toNat (BitVec.ofNat 64 n)) else none

/-- A message that its mailbox takes (R281, R290). -/
def hartSend (f : HForm) (a : HU) (s : State) : Option Prog :=
  let m := (a.h.reg f.rs1.toNat).toNat % 2 ^ 12
  match mailTo s m 2 a.h.ctx (leBytes (a.h.reg f.rs2.toNat).toNat 8) with
  | .ok p => some (Prog.all [settleDie (dieOf a.c), p, a.done f.rd.toNat 0])
  | _ => none

/-- A sleep: it ends at once for no time, and at its wake or its end otherwise; the first issue of it begins it (R283). -/
def hartSleep (f : HForm) (a : HU) (s : State) : Option Prog :=
  let n := (a.h.reg f.rs1.toNat).toNat
  if f.rs2 ≠ 0 then none
  else if n = 0 then some (a.done f.rd.toNat 1)
  else
    match a.h.wait with
    | .hsleep due =>
      let late := decide (due ≤ s.sys.time)
      if late || a.h.wake != 0 then
        some (a.on fun h => { ((h.setReg f.rd.toNat ((a.h.wake.setWidth 64) ||| (if late then 1 else 0))).retire a.next) with
          wake := 0 })
      else none
    | _ => some (a.on fun h => { h with wait := .hsleep (s.sys.time + n), wake := 0 })

/-- An instruction whose effect `does` gives where it completes. -/
def hartIf (len : Nat) (does : HU → State → Option Prog) : Row :=
  hartRow len (fun a s => (does a s).isSome) fun a s => (does a s).getD .done

def hartTable : Instr → Option Row
  | .hartBaseInstruction w => some (hartIf (hartLen w) (hartBase w))
  | .hcpy f => some (hartIf 4 (hartCopy f))
  | .hwait f => some (hartIf 4 (hartAwait f))
  | .halloc f => some (hartIf 4 (hartAlloc f))
  | .hpost f => some (hartIf 4 (hartPost f))
  | .hsig f => some (hartIf 4 (hartSend f))
  | .hsleep f => some (hartIf 4 (hartSleep f))
  | _ => none

end Sys2Proof.Claims
end

