-- ==== Sys2Proof/Certificates/Slice0/RowsEvent.lean ====
section
/-! DEFINITION. For the completion statements: the events of cores, clusters, contexts and grids. -/

namespace Sys2Proof.Claims

open Sys2Proof.Machine

/-- An event that has the effect `does` gives. -/
def eventRow (does : State → Option Prog) : Row :=
  { ok := fun s => (does s).isSome, next := fun s => ((does s).getD .done).run s }

/-- Under a condition. -/
def onlyIf (b : Bool) (p : Prog) : Option Prog := if b then some p else none

/-! ## Engines, loads, stores and the Spillway -/

/-- An element of a gather or scatter that no lower lane of a `SCAT` holds up (R188, R189). -/
def gatherDoes (s : State) : Option Prog :=
  let c := s.arg 0
  let id := s.arg 1
  let lane := s.arg 2
  match (s.core c).gathers.find? fun g => g.id == id with
  | none => none
  | some g =>
    match g.elems.find? fun e => e.lane == lane with
    | none => none
    | some e =>
      onlyIf (s.arg 3 == 0 && !(g.scat && g.elems.any fun f => decide (f.lane < e.lane) && overlap f.glob g.size e.glob g.size)
          && s.portsOpen (peerFlits [(e.glob, 1)]))
        (Prog.all [spendReq (peerFlits [(e.glob, 1)]), engineSync c,
          (if g.scat then (writeNow (dieOf c) e.glob e.va (readRuns s e.scr)).andThen <| .read fun t =>
              match t.block? c g.blk with | some b => dropTiles b.ctx e.va.toNat g.size | none => .done
            else .read fun t => writeRuns e.scr (t.readBytes e.glob g.size)),
          .one (.core c fun k => { k with gathers := (k.gathers.map fun x =>
            if x.id = id then { x with elems := x.elems.filter fun f => f.lane != lane } else x).filter fun x => !x.elems.isEmpty }),
          subPend c g.blk g.bar g.size, engineStep c g.blk])

/-- A load that returns without an uncorrectable error (R183). -/
def loadDoes (s : State) : Option Prog :=
  match (s.core (s.arg 0)).loads.find? fun p => p.id == s.arg 1 with
  | none => none
  | some p => onlyIf (s.arg 2 == 0)
      ((bindLate (s.arg 0) fun q => q.id == p.id).andThen <| .read fun t =>
        match (t.core (s.arg 0)).loads.find? fun q => q.id == p.id with
        | none => .done
        | some q => (dropLoad (s.arg 0) q.id).andThen (onBlock (s.arg 0) q.blk q.deliver))

/-- A buffered store that no older one of its thread must precede (R337). -/
def drainDoes (s : State) : Option Prog :=
  match (s.core (s.arg 0)).sbuf.find? fun e => e.id == s.arg 1 with
  | none => none
  | some e => onlyIf (!(s.core (s.arg 0)).sbuf.any fun f => f.before e)
      ((performStore (s.arg 0) e).andThen
        (.one (.core (s.arg 0) fun k => { k with sbuf := k.sbuf.filter fun f => f.id != e.id })))

/-- The oldest copy of a queue, or of a saved block's, completes without an uncorrectable error when its peers' ports take it (R275,
R417). -/
def copyDoes (s : State) : Option Prog :=
  if s.arg 0 ≥ 768 then onlyIf (s.arg 2 == 0) (completeSaved (s.arg 0 - 768) (s.arg 1) none)
  else
    match (s.queueOf (s.arg 0) (s.arg 1)).ops with
    | [] => none
    | o :: _ => onlyIf (s.arg 2 == 0 && !o.moved && s.portsOpen o.flits) (completeCopy (s.arg 0) (s.arg 1) none)

/-- The flits that an engine operation of the array takes on its peers' ports (R417). -/
def regionFlits (r : Region) : List (Nat × Nat) := peerFlits (r.flits 0)

def engineEvents : Instr → Option Row
  | .copyCompletion => some (eventRow copyDoes)
  | .gatherElement => some (eventRow gatherDoes)
  | .weightLoadCompletion => some (eventRow fun s =>
      match (s.cluster (s.arg 0)).wloads with
      | [] => none
      | _ :: _ => onlyIf (s.arg 1 == 0) ((engineSync (4 * s.arg 0)).andThen <| .read fun t =>
          match (t.cluster (s.arg 0)).wloads with
          | [] => .done
          | w :: r => Prog.when (t.portsOpen (regionFlits w.src)) (Prog.all [spendReq (regionFlits w.src), keepPlanes (s.arg 0) w.ctx,
              .one (.clus (s.arg 0) fun q => { q with wloads := r, shadow := w.plane t }),
              engDone (s.arg 0) w.src, engineStep w.core w.blk])))
  | .streamCompletion => some (eventRow fun s =>
      match (s.cluster (s.arg 0)).streams with
      | [] => none
      | _ :: _ => onlyIf (s.arg 1 == 0) ((engineSync (4 * s.arg 0)).andThen <| .read fun t =>
          match (t.cluster (s.arg 0)).streams with
          | [] => .done
          | o :: r => Prog.when (t.portsOpen (regionFlits o.src)) (Prog.all [spendReq (regionFlits o.src), o.rowsProg o.plane.ctx,
              .one (.clus (s.arg 0) fun q => { q with streams := r }), engDone (s.arg 0) o.src, engineStep o.core o.blk])))
  | .loadReturn => some (eventRow loadDoes)
  | .storeDrain => some (eventRow drainDoes)
  | .stampedWriteApply => some (eventRow fun s =>
      match s.sys.stamped.find? fun w => w.id == s.arg 0 with
      | some w => onlyIf (decide (s.arg 1 < 16) && stampReady s.sys w (s.arg 1)) (applyStamped w (s.arg 1))
      | none => none)
  | .spillwayPushArrival => some (eventRow fun s =>
      match (s.core (s.arg 0)).arriving with
      | [] => none
      | e :: r => some ((Prog.one (.core (s.arg 0) fun k => { k with arriving := r, inbound := k.inbound ++ [e] })).andThen
          (.one (.core (s.arg 0) fun k => { k with gated := false }))))
  | .spillwayPopArrival => some (eventRow fun s => onlyIf ((s.core (s.arg 0)).popsInFlight != 0)
      ((Prog.one (.core (s.arg 0) fun k => { k with popsInFlight := k.popsInFlight - 1 })).andThen
        (.one (.core (partner (s.arg 0)) fun k => { k with outFree := min 32 (k.outFree + 1) }))))
  | _ => none

/-! ## Mailboxes, launch queues and grids -/

/-- The oldest delivery to a mailbox that can take it (R290). -/
def deliveryDoes (s : State) : Option Prog :=
  match s.sys.deliveries.find? fun d => d.mbx == s.arg 0 with
  | none => none
  | some d =>
    match mailTo s (s.arg 0) d.kind d.ctx d.payload with
    | .ok p => some (Prog.all [
        .one (.sys fun y => { y with deliveries := dropFirst (fun d => d.mbx == s.arg 0) y.deliveries }), p, delivered d none, stopHalted])
    | _ => none

/-- The handler of a slot that waits, with its packet readable and room in the task table (R291). -/
def handlerDoes (s : State) : Option Prog :=
  let m := s.arg 0
  match s.sys.mbx.get? m with
  | none => none
  | some e =>
    match e.slots, s.ctx? e.owner with
    | i :: r, some x =>
      let g := viaCtx s x
      match s.devBytes g x e.handler 128 with
      | none => none
      | some raw => onlyIf (!(e.handler == 0 || e.running.isSome || s.tableFull))
          ((Prog.one (.sys fun y => { y with mbx := y.mbx.modify m fun e => { e with slots := r, running := some s.sys.nextGrid } })).andThen
            (submit s e.owner x g e.handler raw (some (m, i)) none).2)
    | _, _ => none

/-- A doorbell of an index in range, outside a replay (R351, R404). -/
def qtailDoes (s : State) : Option Prog :=
  let q := s.arg 0
  let v := BitVec.ofNat 32 (s.arg 1)
  let old := s.sys.queue q
  onlyIf (decide (q < 256) && s.sys.replay.isNone && decide ((v - old.head).toNat ≤ 2 ^ old.szl))
    ((onHostQueue q fun e => { e with tail := v }).andThen
      (Prog.when ((v - old.head).toNat > (old.tail - old.head).toNat) (unpark old.ctx)))

/-- A control write that the queue may take: of EN alone, or while the queue is disabled and empty (R351). -/
def qctlDoes (s : State) : Option Prog :=
  let q := s.arg 0
  let v := BitVec.ofNat 64 (s.arg 1)
  let old := s.sys.queue q
  let ctx := (bits 12 v 48).toNat
  let szl := (bits 4 v 44).toNat
  onlyIf (decide (q < 256) && ((ctx == old.ctx && szl == old.szl) || (!old.en && old.head == old.tail)))
    (onHostQueue q fun e => { e with en := v.getLsbD 63, ctx, szl })

/-- A packet at the head of an enabled queue, with room in the task table, outside a replay (R351, R356). -/
def packetDoes (s : State) : Option Prog :=
  let q := s.arg 0
  let e := s.sys.queue q
  let va := e.base + BitVec.ofNat 64 (128 * (e.head.toNat % 2 ^ e.szl))
  match s.ctx? e.ctx with
  | none => none
  | some x =>
    match s.devBytes (viaCtx s x) x va 128 with
    | none => none
    | some raw => onlyIf (e.en && e.head != e.tail && !s.tableFull && s.sys.replay.isNone)
        (Prog.all [(submit s e.ctx x (viaCtx s x) va raw none (some q)).2, dropFetched e.ctx,
          onHostQueue q fun e => { e with head := e.head + 1 }])

/-- A grid all of whose blocks have ended: its stores are performed and visible on every path, its tiles reclaimed, its successors
counted down, and then its notification is sent, or, without one or once it is made, the grid finishes (R357, R358, R219, R339). -/
def gridDoneDoes (s : State) : Option Prog :=
  let gid := s.arg 0
  match s.grid? gid with
  | none => none
  | some g => onlyIf (s.gridOver gid g && g.notified != 1 && (g.notified == 2 || s.replayAllows g.ctx (s.depRecs gid g)))
      (if g.notified = 2 then finishGrid gid
      else Prog.all [
        Prog.each (List.range 16) settleDie, dropPaths none true,
        Prog.each s.clusters fun e => reclaim e.1 gid fun _ => true, reclaimSpilled gid,
        Prog.each (List.range g.pkt.succn.toNat) (successor gid),
        .read fun t =>
          let g := (t.grid? gid).getD g
          if g.pkt.mbxv then
            (Prog.one (.grid gid fun g => { g with notified := 1 })).andThen (.one (.sys fun y =>
              { y with deliveries := y.deliveries ++ [{
                  mbx := g.pkt.mbx, kind := 3, payload := leBytes g.va.toNat 8 ++ leBytes g.signal.toNat 8, ctx := g.ctx,
                  src := .grid gid }] }))
          else finishGrid gid])

def mailEvents : Instr → Option Row
  | .mailboxDelivery => some (eventRow deliveryDoes)
  | .mailboxHandlerLaunch => some (eventRow handlerDoes)
  | .qtail => some (eventRow qtailDoes)
  | .qctl => some (eventRow qctlDoes)
  | .launchPacketRead => some (eventRow packetDoes)
  | .gridCompletion => some (eventRow gridDoneDoes)
  | _ => none

/-! ## Placement, saves and tasks -/

/-- The unit that a die places next (R359, R360, R366), or the task queue of a core that it joins (R373). -/
def placementDoes (s : State) : Option Prog :=
  let d := s.arg 0
  if s.sys.st = .locked ∧ d < 16 then
    match s.gridOrder.findSome? fun e => s.placeNext d e.1 e.2 (s.codeObj 2) with
    | some p => some p
    | none =>
      if s.arg 1 = 0 then none
      else s.gridOrder.findSome? fun e => s.queueNext d e.1 e.2 (s.codeObj 2) (s.arg 1 - 1)
  else none

/-- A die that can place nothing takes the last unit of the next die that holds two (R361). -/
def stealDoes (s : State) : Option Prog :=
  let d := s.arg 0
  if s.sys.st = .locked ∧ d < 16 ∧ (s.gridOrder.all fun e => (s.placeNext d e.1 e.2 (s.codeObj 1)).isNone) = true then
    (((List.range 15).map fun i => (d + 1 + i) % 16).findSome? fun v =>
      s.gridOrder.findSome? fun e =>
        let us := e.2.unplacedUnits v
        if us.length ≥ 2 then us.getLast?.map fun u => (e.1, u) else none).map fun r =>
      .one (.grid r.1 fun g => { g with owner := (r.2, d) :: g.owner.filter fun e => e.1 != r.2 })
  else none

/-- A saved block that may resume, with a cluster that can take its group (R363, R403). -/
def resumeDoes (s : State) : Option Prog :=
  let x := s.arg 0
  match s.ctx? x with
  | none => none
  | some ctx =>
    match ctx.saved[s.arg 1]? with
    | none => none
    | some v => if v.eligible && !v.stopped && !ctx.parked then s.resumeGroup x v.blk.grid (s.grpOf v.blk) else none

/-- The first unit of the die that can be placed in the stead of blocks that run at a lower priority (R371). -/
def preemptDoes (s : State) : Option Prog :=
  let d := s.arg 0
  let o := s.codeObj 1
  let prio : Nat → Nat := fun x => match s.ctx? x with | some c => c.prio | none => 0
  if s.sys.st = .locked ∧ d < 16 then
    s.gridOrder.findSome? fun e =>
      if (e.2.nextGroup d).isNone || (s.placeNext d e.1 e.2 o).isSome then none
      else
        makeRoom (fun t => match t.grid? e.1 with | some g => t.placeNext d e.1 g o | none => none)
          (fun t => t.victim (fun c b => towerOf c == d / 2 && decide (t.runPrio b < prio e.2.ctx)) (some e.1)) 1024 s
  else none

/-- The first that can resume of the blocks that have been due for two milliseconds at least, the one due longest first (R372). -/
def starvationDoes (s : State) : Option Prog :=
  let x := s.arg 0
  match s.ctx? x with
  | none => none
  | some ctx =>
    if ctx.parked then none
    else (inOrder (·.since) (ctx.saved.filter fun v => v.eligible && !v.stopped && decide (v.since + 2000000 ≤ s.sys.time))).findSome?
      (s.resumeDue x)

/-- The first task of a core that can start, when none of its tasks is over (R63, R65, R373). -/
def taskDoes (s : State) : Option Prog :=
  let c := s.arg 0
  if (s.core c).tasks.all fun t => match t with
      | .resume x gid grp => (s.ctx? x).any fun k => k.saved.any fun v => v.blk.grid == gid && s.grpOf v.blk == grp
      | _ => true then
    (s.taskOrder c).findSome? fun t => s.taskStart c t
  else none

/-- The next task's storage is reserved (R373). -/
def preloadDoes (s : State) : Option Prog :=
  let c := s.arg 0
  let k := s.core c
  match s.taskOrder c with
  | t :: _ => onlyIf (!k.preload && decide (s.regUse c + (s.taskNeed c t).1 ≤ 16384 * spwRfg k.spw)
        && (firstFit (k.blocks.map fun b => (b.2.scrBase, b.2.scrLen)) (16384 * spwSpg k.spw) (s.taskNeed c t).2).isSome)
      (.one (.core c fun k => { k with preload := true }))
  | [] => none

/-- A block that has run longer than its budget is saved with its group for a preloaded task (R373). -/
def budgetDoes (s : State) : Option Prog :=
  let c := s.arg 0
  let prio : Block → Nat := fun b => match s.grid? b.grid with | some g => g.prio | none => 0
  match s.taskOrder c, (s.taskOrder c).head?.bind (s.taskGrid c) with
  | t :: _, some g =>
    let waits := fun (e : Nat × Block) => match t with
      | .phase b _ => (s.groupOf e.2.grid (s.grpOf e.2)).any fun r => r.1 == c && r.2.1 == b
      | _ => false
    match (s.core c).blocks.find? fun e =>
        (s.pktOf e.2).budg != 0 && !e.2.gangs.isEmpty && decide (e.2.runSince + 10000 * (s.pktOf e.2).budg < s.sys.time)
          && decide (e.2.holdUntil ≤ s.sys.time)
          && decide (g.prio ≥ prio e.2) && s.groupSaveable e.2.grid (s.grpOf e.2) && !waits e with
    | some e => onlyIf (s.core c).preload (Prog.all [saveGroup e.2.grid (s.grpOf e.2) none,
        .one (.core c fun k => { k with tasks := k.tasks ++ [.resume e.2.ctx e.2.grid (s.grpOf e.2)] }), startTask c])
    | none => none
  | _, _ => none

/-- A monitor of a parked gang or of a saved block, examined (R262, R263). -/
def monitorDoes (s : State) : Option Prog :=
  some (if s.arg 0 < 768 then
      onGang (s.arg 0) (s.arg 1) (s.arg 2) fun x =>
        match x.wait with | .waitc .. | .filling _ => { x with wait := .ready } | _ => x
    else savedFires (s.arg 0 - 768) (s.arg 1) fun t c g _ w => t.firesFor c g w)

/-- A deadline of a parked gang, or of a gang of a saved block, that has passed (R262). -/
def timeoutDoes (s : State) : Option Prog :=
  some (if s.arg 0 < 768 then
      onGang (s.arg 0) (s.arg 1) (s.arg 2) fun x => if x.timedOut s.sys.time x.wait then { x with wait := .ready } else x
    else savedFires (s.arg 0 - 768) (s.arg 1) fun t _ _ x w => x.timedOut t.sys.time w)

/-- A context whose every gang and hart has waited for 100 ms with no work pending is parked, or takes WATCHDOG; one that begins
to wait so has the time noted, and one that does not wait so has it struck out (R404). -/
def watchdogDoes (s : State) : Option Prog :=
  let x := s.arg 0
  match s.ctx? x with
  | none => none
  | some ctx =>
    if ctx.parked then none
    else if !(s.allWait x ctx) || s.pendingWork x ctx then some (.one (.ctx x fun c => { c with stalledSince := none }))
    else
      match ctx.stalledSince with
      | none => some (.one (.ctx x fun c => { c with stalledSince := some s.sys.time }))
      | some t =>
        if s.sys.time < t + 100000000 then none
        else some (if s.waitsOutside x ctx then
            (saveContext x).andThen (.one (.ctx x fun c =>
              { c with parked := true, stalledSince := none, saved := c.saved.map fun v => { v with eligible := false } }))
          else
            Prog.all [
              .one (.ctx x fun c =>
                { c with stalledSince := none, saved := c.saved.map fun v => { v.makeEligible s.sys.time with watchdog := true } }),
              Prog.each s.cores fun e => Prog.each (e.2.blocks.filter fun b => b.2.ctx == x) fun b =>
                raiseAt e.1 b.1 cWatchdog fun y => y.wait != .ready])

def placeEvents : Instr → Option Row
  | .unitPlacement => some (eventRow placementDoes)
  | .stealRequest => some (eventRow stealDoes)
  | .blockEnd => some (eventRow fun s => onlyIf (s.blockOver (s.arg 0) (s.arg 1)) (endBlock (s.arg 0) (s.arg 1)))
  | .blockResume => some (eventRow resumeDoes)
  | .preemptForPriority => some (eventRow preemptDoes)
  | .starvationResume => some (eventRow starvationDoes)
  | .phaseTaskStart => some (eventRow taskDoes)
  | .taskPreload => some (eventRow preloadDoes)
  | .taskBudgetExpiry => some (eventRow budgetDoes)
  | .monitorReexamine => some (eventRow monitorDoes)
  | .monitorPoll => some (eventRow monitorDoes)
  | .waitcTimeout => some (eventRow timeoutDoes)
  | .deadlockWatchdog => some (eventRow watchdogDoes)
  | _ => none

end Sys2Proof.Claims
end

