-- ==== Sys2Proof/Certificates/Slice0/RowsDevice.lean ====
section
/-! DEFINITION. For the completion statements: the device's own events and the commands of Rhavos. -/

namespace Sys2Proof.Claims

open Sys2Proof.Machine

/-! ## Grants of tiles, leases and power -/

/-- A gang whose sleep is over (R267). -/
def sleepDoes (s : State) : Option Prog :=
  match s.block? (s.arg 0) (s.arg 1) with
  | none => none
  | some blk =>
    match blk.gangs.get? (s.arg 2) with
    | none => none
    | some x =>
      match x.wait with
      | .sleep t adv => onlyIf (decide (t ≤ s.sys.time))
          (onBlock (s.arg 0) (s.arg 1) fun b => b.endWait (s.arg 2) adv (waitLen (s.isExdin blk.grid) x))
      | _ => none

/-- The oldest request of a partition, when a run is free for it (R214): a gang's `TALLOC` gets its tile, a copy's gang and a
hart issue again. -/
def grantDoes (s : State) : Option Prog :=
  let k := s.arg 0
  let p := s.arg 1
  match (s.cluster k).parts[p]? with
  | none => none
  | some q =>
    match q.reqs with
    | [] => none
    | r :: _ =>
      if !s.stillWaits r || (q.freeRun r.size).isNone then none
      else if r.hart then
        some (.one (.core r.core fun c =>
          if r.key = 1 then { c with storer := { c.storer with wait := .ready } } else { c with loader := { c.loader with wait := .ready } }))
      else if r.copy then some (onGang r.core r.key r.gang fun x => { x with wait := .ready })
      else (s.block? r.core r.key).map (grantTalloc k p r)

/-- Every waiting issuer of a partition whose counter has reached 2^22 takes POOL-STALL (R215, R281). -/
def stallDoes (s : State) : Option Prog :=
  let k := s.arg 0
  let p := s.arg 1
  match (s.cluster k).parts[p]? with
  | none => none
  | some q => onlyIf (decide (2 ^ 22 ≤ q.stall)) (Prog.all [
      onPart k p fun q => { q with stall := 0, reqs := [] },
      Prog.each (q.reqs.filter s.stillWaits) fun r =>
        if r.hart then
          .one (.core r.core fun c =>
            let f := fun (h : Hart) =>
              let rd := leNat ((h.store.drop h.pc.toNat).take 4) / 2 ^ 7 % 32
              { h with x := if rd = 0 then h.x else cellSet h.x rd (BitVec.ofNat 64 (2 ^ 63 + cPoolStall)), pc := h.pc + 4,
                       wait := .ready, minstret := h.minstret + 1, mcycle := h.mcycle + 1 }
            if r.key = 1 then { c with storer := f c.storer } else { c with loader := f c.loader })
        else
          match s.block? r.core r.key with
          | none => .done
          | some b =>
            let pc := (((b.members r.gang).head?.bind b.slice?).map (·.pc)).getD 0
            takeTrap r.core r.key r.gang { cause := cPoolStall, recs := [s.reqRec r cPoolStall] } pc pc])

/-- A DRAINING tile whose reads have all been made leaves its partition (R212). -/
def tileDrainDoes (s : State) : Option Prog :=
  let k := s.arg 0
  match (s.cluster k).parts[s.arg 1]?.bind fun q => q.tiles.get? (s.arg 2) with
  | none => none
  | some t => onlyIf (t.st == .draining && t.reads == 0) (Prog.all [
      onPart k (s.arg 1) fun q => { q with tiles := q.tiles.del (s.arg 2) },
      (match (s.cluster k).partGrid.bind s.grid? with
        | some y => onAgent y.ctx t.agent.toNat fun a => { a with grans := a.grans - t.size }
        | none => .done),
      wakeCistern k])

/-- The lease of a cluster that holds none goes to the request that arbitration picks (R229, R230). -/
def leaseDoes (s : State) : Option Prog :=
  let k := s.arg 0
  let q := s.cluster k
  match q.lease, (q.keepReqs s.leaseWaits).arbitrate with
  | none, some (r, _) =>
    some (Prog.all [
      .one (.clus k fun q => q.keepReqs s.leaseWaits),
      .one (.clus k fun q => match q.arbitrate with | some (_, q') => q' | none => q),
      onBlock r.core r.blk fun b =>
        ({ b with leaseSaved := if r.again then none else b.leaseSaved }).leased r.gang r.again (s.isExdin b.grid)])
  | _, _ => none

/-- A lease with no command or no cycle left, on which no command waits to issue (R228, R230). -/
def expiryDoes (s : State) : Option Prog :=
  match (s.cluster (s.arg 0)).lease with
  | some l => onlyIf (l.fresh.isNone && (l.cyc == 0 || l.cmds == 0)) (.one (.clus (s.arg 0) fun q => { q with lease := none }))
  | none => none

/-- The oldest request for power that the budget allows (R380). -/
def powerDoes (s : State) : Option Prog :=
  let k := s.arg 0
  match (s.cluster k).preqs with
  | [] => none
  | (c, b, g, n) :: _ =>
    match s.block? c b with
    | none => none
    | some x =>
      let waits := match x.gangs.get? g with | some y => y.wait == .pgrant | none => false
      onlyIf ((x.regrant == some n || waits) && s.mayGrantPower k c b n)
        ((Prog.one (.clus k fun q => { q with preqs := q.preqs.drop 1 })).andThen (onBlock c b fun b =>
          if b.regrant = some n then b.takeGrant n else (b.takeGrant n).modGang g fun y => { y with wait := .ready }))

/-- A window of a resident block is judged (R295, R381) and counts toward its grid's toggle class (R368). -/
def windowDoes (s : State) : Option Prog :=
  let mw := s.arg 2
  match s.block? (s.arg 0) (s.arg 1) with
  | none => none
  | some x =>
    let lim := match x.grant with | some n => 1750 * (n + 1) | none => 1750
    let excess := if x.grant.isSome && x.excess ≥ 4 then x.excess else if mw > lim then x.excess + 1 else 0
    some ((onBlock (s.arg 0) (s.arg 1) fun b =>
      { b with
        excess := excess
        throttled := if b.grant.isSome then false
          else if mw < 1750 then (s.cluster (clusterOf (s.arg 0))).noGrants else b.throttled || decide (excess ≥ 4) }).andThen
      (.one (.grid x.grid fun g => { g with windows := g.windows ++ [classOf mw] })))

/-- The module's budget is divided anew (R379, R381). -/
def budgetOf (s : State) : Prog :=
  let bud := (4500000 - s.arg 0 - 100000) / 192
  Prog.each (List.range 192) fun k =>
    let tight := decide (bud < s.drawn k)
    (Prog.one (.clus k fun q => { q with budget := bud, noGrants := tight })).andThen
      (Prog.when tight (Prog.each ((coresOf k).filter fun c => !(s.core c).blocks.isEmpty) fun c => .one (.core c fun e =>
        { e with blocks := e.blocks.map fun b => (b.1, if b.2.grant.isNone then { b.2 with throttled := true } else b.2) })))

/-- The code caches have discarded the range of a `DOCINV` (R301). -/
def docinvDoes (s : State) : Option Prog :=
  match s.block? (s.arg 0) (s.arg 1) with
  | none => none
  | some x =>
    match ((x.gangs.get? (s.arg 2)).map fun y => y.wait : Option Wait) with
    | some (Wait.docinv a n false) => some
        ((Prog.each s.cores fun e => dropCode e.1 x.ctx a.toNat n.toNat).andThen
          (onGang (s.arg 0) (s.arg 1) (s.arg 2) fun y => { y with wait := .docinv a n true }))
    | _ => none

def grantEvents : Instr → Option Row
  | .sleepDeadline => some (eventRow sleepDoes)
  | .tileGrant => some (eventRow grantDoes)
  | .poolStall => some (eventRow stallDoes)
  | .tileDrain => some (eventRow tileDrainDoes)
  | .leaseGrant => some (eventRow leaseDoes)
  | .leaseExpiry => some (eventRow expiryDoes)
  | .powerGrant => some (eventRow powerDoes)
  | .powerWindow => some (eventRow windowDoes)
  | .powerBudget => some (eventRow fun s => some (budgetOf s))
  | .docinvCompletion => some (eventRow docinvDoes)
  | _ => none

/-! ## Clocks, heat and page moves -/

/-- A throttle step at a cluster's present readings and draw (R369, R381). -/
def throttleDoes (s : State) : Option Prog :=
  let k := s.arg 0
  let q := s.cluster k
  let temp := fun v => (s.vault v).reading
  let hot := (s.vaultsOver k).filter fun v => decide (temp v ≥ 100 * 1024)
  let power := q.noGrants && decide (s.arg 1 > q.budget)
  let why := dedup (q.throttle ++ hot ++ (if power then [128] else []))
  if hot.any fun v => decide (temp v > 105 * 1024) then some (.one (.clus k fun q => { q with ghz := 8, ratio := 1, throttle := why }))
  else if !hot.isEmpty || power then some (.one (.clus k fun q => { q.slower with throttle := why }))
  else if q.throttle.all fun v => if v = 128 then true else decide (temp v < 98 * 1024) then
    some (.one (.clus k fun q =>
      let q' := q.faster
      { q' with throttle := if q'.ghz = q'.cfgGhz && q'.ratio = q'.cfgRatio then [] else q.throttle }))
  else none

/-- A cluster's clocks are set to a point of R377; a throttled cluster stays at or below its present one. -/
def clockDoes (s : State) : Option Prog :=
  let ghz := s.arg 1
  let ratio := s.arg 2
  onlyIf (pointOk ghz ratio && decide (s.arg 0 < 192)) (.one (.clus (s.arg 0) fun q =>
    if q.throttle.isEmpty then { q with ghz, ratio, cfgGhz := ghz, cfgRatio := ratio }
    else { q with ghz := min q.ghz ghz, ratio := min q.ratio ratio, cfgGhz := ghz, cfgRatio := ratio }))

/-- The 128 readings and the free pages of each vault (R364, R370). -/
def sensorDoes (s : State) : Prog :=
  let n := s.args.num
  Prog.each (List.range 128) fun v => .one (.sys fun y =>
    let w := { (y.vaults.get? v).getD {} with e := (n.getD v 0 : Nat), reading := n.getD v 0, free := n.getD (128 + v) 0 }
    { y with vaults := y.vaults.set v w })

/-- Up to 64 pages leave a vault in the ×4 band (R370). -/
def hotDoes (s : State) : Option Prog :=
  let v := s.arg 0
  let n := s.args.num.drop 1
  onlyIf (decide (100 * 1024 ≤ (s.vault v).reading) && decide ((s.vault v).reading ≤ 105 * 1024))
    (Prog.each (List.range (min 64 (n.length / 4))) fun i =>
      hotMove v (n.getD (4 * i) 0) (n.getD (4 * i + 1) 0) (n.getD (4 * i + 2) 0) (n.getD (4 * i + 3) 0))

/-- A move whose page still stands where it was: the bytes are at their new place, the entry says so, and the invalidation begins
(R370, R406). -/
def moveDoes (s : State) : Option Prog :=
  match s.sys.moves[s.arg 0]? with
  | none => none
  | some m =>
    match (s.ctx? m.ctx).bind fun x => (s.pageOf x m.seg m.page).map fun e => (x, e) with
    | none => none
    | some (x, g, va, ph, p) =>
      let n := g.page
      let go := (Prog.one (.sys fun y =>
          { y with moves := modAt y.moves (s.arg 0) fun m => { m with copied := true, inv := some (x.invSeq + 1) } })).andThen
        (invalidate m.ctx va (BitVec.ofNat 64 n) false)
      let pin := Prog.one (.sys fun y => { y with pins := y.pins ++ [(m.ctx, m.seg, m.page, y.time + 200000)] })
      onlyIf (!m.copied && pteSt p == 1 && (pteLoc g p va).a == m.oldFrame)
        (if !m.migr then
          Prog.all [.one (.write ⟨0, 0, m.newFrame⟩ (s.mem.bytes m.oldFrame n)), movePage m.oldFrame m.newFrame n,
            putWord ph (pteBits p (BitVec.ofNat 64 m.newFrame) (BitVec.ofNat 64 (2 ^ 39 - 2 ^ 16))), go]
        else if m.toHost then Prog.all [putWord ph (pteBits p (pteHOST ||| pteHOLD) 0), pin, go]
        else Prog.all [freeBytes ⟨0, 0, m.oldFrame⟩ n, putWord ph (pteBits p pteHOLD pteHOST), pin, go])

/-- The deferred requests for a page that are due (R406). -/
def backRequests (s : State) : List Deferred :=
  s.sys.deferred.filter fun d => d.ctx == s.arg 0 && d.seg == s.arg 1 && d.page == s.arg 2 && decide (d.due ≤ s.sys.time)

/-- Requests for a page are deferred to a time, the due ones among them (R406). -/
def deferTo (s : State) (sides : List Bool) (due : Nat) : Prog :=
  .one (.sys fun y =>
    { y with deferred := (y.deferred.filter fun d => !(backRequests s).contains d)
        ++ sides.map fun h => { ctx := s.arg 0, seg := s.arg 1, page := s.arg 2, toHost := h, due } })

/-- A page of a MIGR segment that some side asks for: a request is deferred while the page is held or in motion; of both sides the
holder's stands and the other's is deferred by a quantum; a side alone that lacks the page gets it (R406). -/
def quantumDoes (s : State) : Option Prog :=
  let host := s.arg 3 == 1 || (backRequests s).any fun d => d.toHost
  let dev := s.arg 4 == 1 || (backRequests s).any fun d => !d.toHost
  match s.ctx? (s.arg 0) with
  | none => none
  | some x =>
    match s.pageOf x (s.arg 1) (s.arg 2) with
    | none => none
    | some (g, va, _, p) =>
      let f := (pteLoc g p va).a
      onlyIf (g.attrBit 46 && !g.isExt && pteSt p == 1 && (host || dev))
        (if (p &&& pteHOLD) != 0 || s.sys.moves.any fun m => m.oldFrame == f then
          deferTo s ([true, false].filter fun h => if h then host else dev) s.sys.time
        else if host && dev then deferTo s [!pteHost p] (s.sys.time + 50000)
        else if host == pteHost p then deferTo s [] 0
        else (deferTo s [] 0).andThen (.one (.sys fun y => { y with moves := y.moves ++
          [{ ctx := s.arg 0, seg := s.arg 1, page := s.arg 2, oldFrame := f, newFrame := f, copied := false, inv := none,
             toHost := host, migr := true }] })))

/-- A page held for 200 µs is released (R406). -/
def holdDoes (s : State) : Option Prog :=
  let mine := fun (e : Nat × Nat × Nat × Nat) =>
    e.1 == s.arg 0 && e.2.1 == s.arg 1 && e.2.2.1 == s.arg 2 && decide (e.2.2.2 ≤ s.sys.time)
  match (s.ctx? (s.arg 0)).bind fun x => s.pageOf x (s.arg 1) (s.arg 2) with
  | none => none
  | some (_, _, ph, p) => onlyIf (s.sys.pins.any mine)
      ((Prog.one (.sys fun y => { y with pins := y.pins.filter fun e => !mine e })).andThen (putWord ph (pteBits p 0 pteHOLD)))

/-- A core acknowledges the requests that it is quiet for (R400). -/
def ackProg (s : State) : Prog :=
  let x := s.arg 0
  let c := s.arg 1
  (Prog.one (.ctx x fun t =>
    { t with invs := t.invs.map fun r => if s.coreQuiet x c r then { r with owed := r.owed.filter fun d => d != c } else r })).andThen
    (completeInvs x)

/-- 100 µs after a request that the core has not acknowledged, its saveable groups of the context are saved (R401). -/
def invDogDoes (s : State) : Option Prog :=
  let x := s.arg 0
  let c := s.arg 1
  match s.ctx? x with
  | none => none
  | some ctx =>
    let groups := (((s.core c).blocks.filter fun e => e.2.ctx == x).map fun e => (e.2.grid, s.grpOf e.2)).foldl
      (fun acc p => if acc.contains p then acc else acc ++ [p]) []
    onlyIf (ctx.invs.any fun r => r.owed.contains c && decide (r.since + 100000 ≤ s.sys.time))
      ((Prog.each (groups.filter fun p => s.groupSaveable p.1 p.2) fun p => saveGroup p.1 p.2 none).andThen (coreAcks x c))

/-- Words join the queue of a core up to 64 (R123). -/
def rillDoes (s : State) : Option Prog :=
  let ws := ((s.args.num.drop 1).take 16).map fun n => BitVec.ofNat 64 n
  onlyIf (decide (s.arg 0 < 768)) (.one (.core (s.arg 0) fun k => { k with rill := k.rill ++ ws.take (64 - k.rill.length) }))

/-- The record of a context's tagged instruction that has written back goes to the trace ring of the context, which samples (R428). -/
def sampleDoes (s : State) : Option Prog :=
  match (s.core (s.arg 0)).samples.find? fun y => y.ctx == s.arg 6 with
  | none => none
  | some y =>
    match s.ctx? y.ctx with
    | none => none
    | some x => onlyIf (x.samples && (s.core (s.arg 0)).loads.all fun p => p.blk != y.blk || p.pc != y.pc)
        ((Prog.one (.core (s.arg 0) fun k => { k with samples := k.samples.filter fun z => z.ctx != y.ctx })).andThen (traceAppend y.ctx 2
          (leBytes y.pc.toNat 8 ++ leBytes y.bx.toNat 4 ++ leBytes y.byy.toNat 4 ++ leBytes y.bz.toNat 4
            ++ leBytes y.phasecnt.toNat 4 ++ leBytes (s.arg 1) 2 ++ leBytes (s.arg 2) 2 ++ leBytes (s.arg 3) 2
            ++ leBytes (s.arg 4) 2 ++ leBytes (s.arg 5) 1 ++ leBytes (flagBit y.vliw 0 + flagBit y.exdin 1) 1
            ++ leBytes y.ctx 2 ++ leBytes 0 4 ++ leBytes y.time 8 ++ leBytes 0 16)))

/-- The lowest pending cause of a gang at a boundary is reported (R386). -/
def pendDoes (s : State) : Option Prog :=
  let c := s.arg 0
  let b := s.arg 1
  let g := s.arg 2
  match s.block? c b with
  | none => none
  | some blk =>
    match blk.gangs.get? g with
    | none => none
    | some x =>
      match lowestPend x.pend with
      | none => none
      | some p =>
        let ms := blk.members g
        let pc := ((ms.head?.bind blk.slice?).map (·.pc)).getD 0
        let act := blk.activeLanes ms
        let lanes := act.filter fun i => p.lanes.getLsbD i
        onlyIf (!x.wait.arrived)
          ((onGang c b g fun x => { x with pend := x.pend.erase p }).andThen
            (takeTrap c b g { cause := p.cause.toNat, imprecise := true, write := p.write, form := some p.org.flags, time := some p.time,
                              recs := [{ cause := p.cause.toNat, addr := p.addr, lanes := if lanes.isEmpty then act else lanes,
                                         slots := p.org.slots }] }
              p.pc pc))

def heatEvents : Instr → Option Row
  | .vaultSensorReading => some (eventRow fun s => some (sensorDoes s))
  | .throttleStep => some (eventRow throttleDoes)
  | .clockChange => some (eventRow clockDoes)
  | .hotPageMigration => some (eventRow hotDoes)
  | .pageMoveCompletion => some (eventRow moveDoes)
  | .migrationQuantum => some (eventRow quantumDoes)
  | .holdExpiry => some (eventRow holdDoes)
  | .coreAcknowledge => some (eventRow fun s => some (ackProg s))
  | .invalidationWatchdog => some (eventRow invDogDoes)
  | .agentCounterWriteback => some (eventRow fun s => some (writeCounters (s.arg 0)))
  | .rillAppend => some (eventRow rillDoes)
  | .instructionSample => some (eventRow sampleDoes)
  | .impreciseTrapDelivery => some (eventRow pendDoes)
  | _ => none

/-! ## Ports, errors, checkpoints -/

/-- A retry at a peer port that is up: 64 of one flit in a row take the port down (R417). -/
def retryDoes (s : State) : Option Prog :=
  let p := s.arg 0
  let q := (s.sys.ports.get? p).getD {}
  let n := if s.arg 1 = 1 then 1 else q.retries + 1
  if p ≥ 16 then some (countError 4 1)
  else onlyIf q.up (Prog.all [countError 5 1, .one (.sys fun y => { y with ports := y.ports.set p { q with retries := n, up := decide (n < 64) } }),
    Prog.when (decide (64 ≤ n)) ((countError 6 1).andThen (.one (.sys fun y => { y with log := y.log ++ [.portDown p] })))])

/-- A credit comes back, up to 256 (R417); a stop that waited for it is made (R429). -/
def creditDoes (s : State) : Option Prog :=
  onlyIf (decide (s.arg 0 < 16) && decide (s.arg 1 < 3))
    ((Prog.one (.sys fun y => y.setCredit (s.arg 0) (s.arg 1) (min 256 (y.credit (s.arg 0) (s.arg 1) + 1)))).andThen stopHalted)

/-- What a write from outside of device memory does at its place in the order (R344, R348, R340). -/
def outsideWrite (o : Outside) (a : Nat) (bs : List Byte) : Prog :=
  Prog.all [
    if o.weak then mergeRead o.die ⟨0, 0, a⟩ bs.length else (showAll a bs.length).andThen (bumpClock o.die ⟨0, 0, a⟩ 0),
    .one (.write ⟨0, 0, a⟩ bs), dropPaths none false, logOutside o a bs]

/-- A write of a peer at a port that is up (R412, R418, R419). -/
def peerWriteDoes (s : State) : Option Prog :=
  let q := (s.sys.ports.get? (s.arg 0)).getD {}
  let a := s.arg 1
  let bs := s.args.bytes
  onlyIf (decide (s.arg 0 < 16) && q.up && s.sys.replay.isNone && decide (a + bs.length ≤ 2 ^ 39))
    ((outsideWrite { peer := true, n := s.arg 0 + 2, weak := s.arg 2 == 1 } a bs).andThen (arriveMail a bs.length))

/-- The bytes that a plain causal read on a port returns (R348). -/
def outsideRead (n a len : Nat) : Prog :=
  (mergeRead (Config.portDie n).toNat ⟨0, 0, a⟩ len).andThen
    (.read fun s => .one (.sys fun y => { y with readData := s.mem.bytes a len }))

/-- A read of a peer that has the credit for its answer: it returns the bytes, which an atomic also changes (R417, R418). -/
def peerReadDoes (s : State) : Option Prog :=
  let p := s.arg 0
  let a := s.arg 1
  let q := (s.sys.ports.get? p).getD {}
  let t := peerTy (s.arg 5)
  let w := t.bits / 8
  let flits := min 256 ((if s.arg 3 = 0 then s.arg 2 else w) / 240 + 1)
  onlyIf (decide (p < 16) && q.up && s.sys.replay.isNone && decide (flits ≤ s.sys.credit p 1))
    ((Prog.one (.sys fun y => y.setCredit p 1 (y.credit p 1 - flits))).andThen <|
      if s.arg 3 = 0 then Prog.when (a + s.arg 2 ≤ 2 ^ 39) (outsideRead (p + 2) a (s.arg 2))
      else Prog.when (a % w = 0 && a + w ≤ 2 ^ 39) <| Prog.all [
        showAll a w, bumpClock (Config.portDie (p + 2)).toNat ⟨0, 0, a⟩ 0,
        rmw [(⟨0, 0, a⟩, w)] w (fun old => atomNew (s.arg 4) t old (s.arg 6) (s.arg 7)) fun old =>
          Prog.all [.one (.sys fun y => { y with readData := leBytes old w }), dropPaths none false,
            .read fun s => logOutside { peer := true, n := p + 2, weak := false } a (s.mem.bytes a w)]])

/-- An access of a host: a read returns bytes of device memory, of the host's own, of BAR0 or of a stopped block's record; a write
goes to device memory, to the host's own or to such a record (R4, R348, R429). -/
def hostDoes (s : State) : Option Prog :=
  let p := s.arg 0
  let a := s.arg 2
  let ret := fun (bs : List Byte) => Prog.one (.sys fun y => { y with readData := bs })
  if p ≥ 2 then none
  else if s.arg 3 = 0 then
    match s.arg 1 with
    | 0 => onlyIf (decide (a + s.arg 5 ≤ 2 ^ 39)) (outsideRead p a (s.arg 5))
    | 1 => some (ret (s.ext.bytes (2 ^ 64 * p + a) (s.arg 5)))
    | 3 => (s.stoppedAt 6).map fun v => ret ((List.range (s.arg 5)).map fun i => v.byteAt (a + i))
    | _ => onlyIf (decide (a + s.arg 5 ≤ 65536)) (ret ((List.range (s.arg 5)).map fun i => s.sys.bar0 (a + i)))
  else
    match s.arg 1 with
    | 0 => onlyIf (s.sys.replay.isNone && decide (a + s.args.bytes.length ≤ 2 ^ 39))
        (outsideWrite { peer := false, n := p, weak := s.arg 4 == 1 } a s.args.bytes)
    | 1 => some (.one (.write ⟨1, 0, 2 ^ 64 * p + a⟩ s.args.bytes))
    | 3 => (s.stoppedAt 6).map fun v =>
        let put := fun (w : SavedBlock) =>
          if w.num = v.num then s.args.bytes.zipIdx.foldl (fun w e => w.setByteAt (a + e.2) e.1) w else w
        .one (.ctx (s.arg 6) fun c => { c with saved := c.saved.map put })
    | _ => none

/-- Corrected errors are counted; an uncorrectable one is counted where it lies, ends the grids of the context whose save record or
control state holds it, and is raised where an instruction fetch met it (R422, R423). -/
def scrubProg (s : State) : Prog :=
  Prog.all [
    Prog.all [countError 0 (s.arg 0), countError 2 (s.arg 1),
      Prog.when (s.arg 0 + s.arg 1 > 0)
        (.one (.sys fun y => { y with log := y.log ++ [.corrected (s.arg 0) (s.arg 1) (s.args.num.drop 8)] }))],
    Prog.when (s.arg 2 != 0) (Prog.all [countEcc (s.arg 2),
      Prog.when (s.arg 3 > 0 && (s.ctx? (s.arg 3 - 1)).isSome) (endContextGrids (s.arg 3 - 1) cEcc),
      Prog.when (s.arg 4 > 0) (fetchError (s.arg 4 - 1) (s.arg 5) (s.arg 6) (BitVec.ofNat 64 (s.arg 7)))])]

/-- A context whose checkpoint is due, every group of it saveable and nothing of it under way (R430). -/
def checkpointDoes (s : State) : Option Prog :=
  let x := s.arg 0
  match s.ctx? x with
  | none => none
  | some c =>
    let quiet := Prog.all [.one (.ctx x fun d => { d with ckDue := s.sys.time + 1000000 * c.ckT }), flushCopies x, saveContext x]
    onlyIf (c.ckT != 0 && decide (c.ckDue ≤ s.sys.time) && s.sys.replay.isNone
        && ((s.groupsOf x).all fun p => s.groupSaveable p.1 p.2) && !(quiet.run s).copiesLeft x)
      (Prog.all [quiet, .read fun u => u.snapshot x, resumeAll x])

/-- A replay begins from a checkpoint, makes what stands first in its log, or ends with it (R431). -/
def replayDoes (s : State) : Option Prog :=
  let x := s.arg 0
  match s.sys.replay with
  | none =>
    (s.sys.checkpoints.find? fun k => k.ctx == x).bind fun k =>
      onlyIf (s.sys.st == .locked && (s.ctx? x).isNone && decide (s.ctxs.length < 64))
        (Prog.all [restoreContext k, .one (.sys fun y => { y with replay := some (x, k.log) }), resumeAll x])
  | some (y, []) => onlyIf (y == x) (.one (.sys fun y => { y with replay := none }))
  | some (y, e :: r) => onlyIf (y == x && e.kind != 0)
      ((replayEntry s e).andThen (.one (.sys fun y => { y with replay := some (x, r) })))

/-- A fatal error's next step: it is noted and issue stops; the dump is written; the module resets and boots, and the contexts come
back (R424, R425). -/
def fatalProg (s : State) : Prog :=
  match s.sys.failure with
  | none => (countEcc (s.arg 2)).andThen (.one (.sys fun y =>
      { y with
        st := .fatal, hist := y.hist ++ [.fatal]
        failure := some { time := y.time, unit := (s.args.num.drop 3).take 4, syndrome := s.arg 1 } }))
  | some f =>
    if f.dumped then recover (s.arg 0 == 1)
    else (dump s f).andThen (.one (.sys fun y => { y with failure := some { f with dumped := true } }))

/-- An unload that is not forced is answered BUSY while a context still holds the code; else the code leaves the caches, its holders
take CODE-GONE, and the loader is answered OK (R407). -/
def unloadProg (s : State) : Prog :=
  let inObj := fun (a : W64) => decide (s.arg 1 ≤ a.toNat) && decide (a.toNat < s.arg 1 + s.arg 2)
  let l := (s.args.num.drop 3).filterMap fun x => (s.ctx? x).map fun c => (x, c)
  let held := l.filter fun e => s.holdsCode e.1 e.2 inObj
  let answer := fun (n : Nat) => Prog.one (.sys fun y => { y with readData := [BitVec.ofNat 8 n] })
  if s.arg 0 = 0 ∧ held ≠ [] then answer 4
  else Prog.all [
    Prog.each l fun e => Prog.each s.cores fun c => .one (.core c.1 fun k =>
      { k with ic := k.ic.filter fun w => !(w.ctx == e.1 && inObj w.addr), dc := k.dc.filter fun w => !(w.ctx == e.1 && inObj w.addr) }),
    Prog.each held fun e => markGone e.1,
    answer 0]

def moduleEvents : Instr → Option Row
  | .patrolScrub => some (eventRow fun s => some (scrubProg s))
  | .flitRetry => some (eventRow retryDoes)
  | .creditReturn => some (eventRow creditDoes)
  | .peerWriteArrival => some (eventRow peerWriteDoes)
  | .peerReadArrival => some (eventRow peerReadDoes)
  | .hostAccess => some (eventRow hostDoes)
  | .checkpoint => some (eventRow checkpointDoes)
  | .replay => some (eventRow replayDoes)
  | .fatalError => some (eventRow fun s => some (fatalProg s))
  | .forcedUnload => some (eventRow fun s => some (unloadProg s))
  | .moduleReset => some (eventRow fun s => some (bootModule (s.arg 0 == 1)))
  | _ => none

/-! ## Registers and commands of Rhavos -/

/-- A write to a writable register: BASE of a disabled empty queue, the command word, an argument word, GO while no command runs, or an
invalidation's context, start or length (R351, R411, R413, R416). -/
def registerDoes (s : State) : Option Prog :=
  let off := s.arg 0
  let v : W64 := BitVec.ofNat 64 (s.arg 1)
  let q := s.sys.queue (off / 32)
  if off < 0x2000 then
    onlyIf (off % 32 == 0 && !q.en && q.head == q.tail) (onHostQueue (off / 32) fun e => { e with base := v &&& ~~~(0xFFF : W64) })
  else if off = 0x2000 then
    some (.one (.sys fun y => { y with rh := { y.rh with len := bits 32 v 32, seq := bits 16 v 16, opc := bits 16 v 0 } }))
  else if 0x2100 ≤ off ∧ off < 0x3000 ∧ off % 8 = 0 then
    some (.one (.sys fun y => { y with rh := { y.rh with args := y.rh.args.writeAll (off - 0x2100) (leBytes v.toNat 8) } }))
  else if off = 0x2010 then onlyIf (!s.sys.rh.busy) (.one (.sys fun y => { y with rh := { y.rh with busy := true, done := false } }))
  else if off = 0x3010 then some (.one (.sys fun y => { y with invCtx := bits 12 v 0 }))
  else if off = 0x3018 then some (.one (.sys fun y => { y with invStart := v }))
  else if off = 0x3020 then some (.one (.sys fun y => { y with invLen := v }))
  else none

/-- What a command that is performed answers: its result bytes, and its effect. -/
abbrev Performs := State → Option Nat → (Nat → W64) → List Byte → Option (List Byte × Prog)

/-- A host command that GO has started, whose operation code stands in the registers, whose arguments fit their fields, and that Rhavos
performs in its present state: RESULT is 0, DONE is set, and the results stand in the argument area, unless it still `runs` in the
state that it leaves (R413, R420). -/
def commandDoes (opc : Nat) (ws : List Nat) (f : Performs) (s : State)
    (runs : (Nat → W64) → State → Bool := fun _ _ => false) : Option Prog :=
  let r := s.sys.rh
  let n := r.len.toNat
  let a := fun i => BitVec.ofNat 64 (leNat (r.args.bytes (8 * i) 8))
  match f s none a (r.args.bytes 0 n) with
  | none => none
  | some (out, p) => onlyIf (r.busy && r.opc.toNat == opc
        && (s.sys.st == .ready || s.sys.st == .locked || (s.sys.st == .recovery && (opc == 0x0D || opc == 0x0E)))
        && decide (n ≤ 3840) && decide (8 * ws.length ≤ n) && wordsFit ws a)
      (if runs a (p.run s) then p
      else (Prog.one (.sys fun y =>
        { y with rh := { y.rh with
            done := true, busy := false, seqDone := y.rh.seq, result := 0, args := y.rh.args.writeAll 0 out } })).andThen p)

/-- A command in the oldest message of mailbox 0, with a reply address that can be written: the effect, the 64-byte reply and the
message's end (R414). -/
def messageDoes (opc : Nat) (ws : List Nat) (f : Performs) (s : State) : Option Prog :=
  match s.service with
  | none => none
  | some (bs, len, kind, x) =>
    let a := fun i => getW bs (16 + 8 * i)
    match f s (some x) a (bs.drop 16) with
    | none => none
    | some (out, p) => onlyIf (kind == 0 && len == 64 && leNat (bs.take 2) == opc && s.replyOk x (getW bs 8) && wordsFit ws a)
        (Prog.all [p, writeReply x (getW bs 8) 0 out, consumeService])

def eitherDoes (opc : Nat) (ws : List Nat) (f : Performs) (s : State) : Option Prog :=
  if s.arg 0 = 1 then messageDoes opc ws f s else commandDoes opc ws f s

/-- An effect without results, under a condition. -/
def performs (b : Bool) (p : Prog) : Option (List Byte × Prog) := if b then some ([], p) else none

def doesFeatset : Performs := fun s _ a _ =>
  let ws := (List.range 4).map a
  performs (s.sys.lockedFeat.isNone && (List.range 4).all fun i => ws.getD i 0 &&& ~~~(Config.offered.getD i 0) == 0)
    (.one (.sys fun y => { y with lockedFeat := some ws, st := .locked, hist := y.hist ++ [.locked] }))

def doesCtxnew : Performs := fun s _ a _ =>
  let x := (a 0).toNat
  let fs := (List.range 4).map fun i => a (6 + i)
  match s.sys.lockedFeat with
  | none => none
  | some l => performs (x != 0 && (s.ctx? x).isNone && ((List.range 4).all fun i => fs.getD i 0 &&& ~~~(l.getD i 0) == 0)
        && decide (s.ctxs.length < 64))
      ((Prog.one (.newCtx x { prio := (a 1).toNat, saveVa := a 2, saveSize := a 3, savePt := a 4, sup := a 5, feat := fs })).andThen
        (.one (.sys fun y => { y with checkpoints := y.checkpoints.filter fun k => k.ctx != x })))

/-- Every grid and packet of the context ends; it is freed once its operations and messages have completed (R290, R387). -/
def doesCtxend : Performs := fun s _ a _ =>
  let x := (a 0).toNat
  match s.ctx? x with
  | none => none
  | some c => performs (c.closing || !s.spillsOf x) (Prog.all [
      if c.closing then killContext x cContextEnd else endContextGrids x cContextEnd,
      .one (.ctx x fun c => { c with closing := true }), settleContext x,
      .read fun t => if t.leftOf x then .done else freeContext x])

def doesMbxreg : Performs := fun s from_ a _ =>
  let m := (a 0).toNat
  let owner := match from_ with | some x => x | none => (a 5).toNat
  let old := (s.sys.mbx.get? m).getD {}
  let new : Mailbox :=
    { handler := a 4, ring := a 1, depth := (a 2).toNat, opn := a 3 != 0, owner, valid := true,
      tail := if old.valid then old.tail else 0, slots := if old.valid then old.slots else [],
      running := if old.valid then old.running else none }
  performs (m != 0 && (!old.valid || old.owner == owner) && decide ((a 2).toNat ≤ 10) && (a 1).toNat % 128 == 0
      && (a 4).toNat % 128 == 0 && (s.ctx? owner).isSome)
    (.one (.sys fun y => { y with mbx := y.mbx.set m new }))

def doesMbxunreg : Performs := fun s from_ a _ =>
  let m := (a 0).toNat
  let e := (s.sys.mbx.get? m).getD {}
  performs (m != 0 && (match from_ with | some x => !e.valid || e.owner == x | none => true) && !s.mailPending m)
    (.one (.sys fun y => { y with mbx := y.mbx.modify m fun e => { e with valid := false } }))

def doesCodesync : Performs := fun s from_ a _ =>
  performs (s.ctx? (cmdCtx from_ a)).isSome ((Prog.each (List.range 16) settleDie).andThen (dropFetched (cmdCtx from_ a)))

def doesDbgctl : Performs := fun s from_ a _ =>
  let w := a 1 &&& 0xFF0F
  match s.ctx? (cmdCtx from_ a) with
  | none => none
  | some c =>
    let f := c.feat.getD 3 0
    performs ((!w.getLsbD 0 || f.getLsbD 1) && (!(w.getLsbD 1 || w.getLsbD 2) || f.getLsbD 2))
      (.one (.ctx (cmdCtx from_ a) fun c => { c with dbg := w, traceVa := a 2, traceSize := a 3 }))

/-- A resident block is stopped, at once or when it can be saved, and a saved one is held where it is (R429). -/
def doesStop : Performs := fun s _ a _ =>
  let x := (a 0).toNat
  match s.ctx? x, s.blockAt x (coordOf a 1) (coordOf a 2) (coordOf a 3) with
  | none, _ => none
  | some _, some (c, b, _) => performs true (stopBlock c b)
  | some ctx, none => performs (ctx.saved.any fun v => v.atCoord a) (holdSaved x fun v => v.atCoord a)

def doesResume : Performs := fun s _ a _ =>
  let x := (a 0).toNat
  match (s.ctx? x).bind fun c => c.saved.find? fun v => v.stopped && v.atCoord a with
  | some v => some ([], (Prog.one (.ctx x fun c =>
      { c with saved := c.saved.map fun w => if w.num = v.num then { w with stopped := false }.makeEligible s.sys.time else w })).andThen
      (Prog.read fun t => (t.resumeGroup x v.blk.grid (t.grpOf v.blk)).getD .done))
  | none =>
    match s.blockAt x (coordOf a 1) (coordOf a 2) (coordOf a 3) with
    | some (c, b, y) => performs y.halt (onBlock c b fun y => { y with halt := false })
    | none => none

def doesCkpt : Performs := fun s _ a _ =>
  match s.ctx? (a 0).toNat with
  | none => none
  | some c => performs (decide ((a 1).toNat ≤ 100) && (c.feat.getD 3 0).getLsbD 3)
      (.one (.ctx (a 0).toNat fun c => { c with ckT := (a 1).toNat, ckBase := a 2, ckSize := a 3, ckDue := s.sys.time + 1000000 * (a 1).toNat }))

def commandEvents : Instr → Option Row
  | .registerWrite => some (eventRow registerDoes)
  | .invgo => some (eventRow fun s => onlyIf s.sys.replay.isNone (invalidate s.sys.invCtx.toNat s.sys.invStart s.sys.invLen true))
  | .serviceMailboxMessage => some (eventRow fun s =>
      match s.service with
      | some (_, len, kind, _) => onlyIf (kind != 0 || len != 64)
          (consumeService.andThen (.one (.sys fun y => { y with log := y.log ++ [.message 0] })))
      | none => none)
  | .featget => some (eventRow (commandDoes 0x01 [] fun _ _ _ _ => some (Config.offered.flatMap fun w => leBytes w.toNat 8, .done)))
  | .featset => some (eventRow (commandDoes 0x02 [64, 64, 64, 64] doesFeatset))
  | .ctxnew => some (eventRow (commandDoes 0x03 [12, 3, 64, 64, 39, 64, 64, 64, 64, 64] doesCtxnew))
  | .ctxend => some (eventRow fun s => commandDoes 0x04 [12] doesCtxend s fun a t => (t.ctx? (a 0).toNat).isSome)
  | .mbxreg => some (eventRow fun s =>
      eitherDoes 0x05 (if s.arg 0 = 1 then [12, 64, 4, 1, 64, 64] else [12, 64, 4, 1, 64, 12]) doesMbxreg s)
  | .mbxunreg => some (eventRow (eitherDoes 0x06 [12] doesMbxunreg))
  | .codesync => some (eventRow (eitherDoes 0x07 [12] doesCodesync))
  | .attest => some (eventRow (commandDoes 0x08 [64, 64, 64, 64] fun s _ _ bs =>
      let b := reportBody s.sys (bs.take 32)
      some (b ++ fitTo 64 (Config.sign b), .done)))
  | .dbgctl => some (eventRow (eitherDoes 0x09 [12, 64, 64, 64] doesDbgctl))
  | .stop => some (eventRow (commandDoes 0x0A [12, 32, 32, 32] doesStop))
  | .resume => some (eventRow (commandDoes 0x0B [12, 32, 32, 32] doesResume))
  | .ckpt => some (eventRow (commandDoes 0x0C [12, 64, 64, 64] doesCkpt))
  | .imgwrite => some (eventRow (commandDoes 0x0D [64] fun s _ a bs => performs (s.sys.st == .recovery)
      (.one (.sys fun y => { y with image := patch y.image (a 0).toNat (bs.drop 8) }))))
  | .reset => some (eventRow (commandDoes 0x0E [] fun s _ _ _ => some ([], bootModule (s.arg 0 == 1))))
  | .dumpbase => some (eventRow (commandDoes 0x0F [64, 64] fun _ _ a _ => performs ((a 0).toNat % 2 ^ 21 == 0)
      (.one (.sys fun y => { y with dumpBase := some (a 0, a 1) }))))
  | .coupling => some (eventRow (commandDoes 0x10 [3, 64] fun s _ a _ =>
      if (a 1).toNat % 64 = 0 then some ((List.range 1024).map fun i => couplingByte s.sys.image (a 0).toNat ((a 1).toNat + i), .done) else none))
  | .unknownCommand => some (eventRow fun s =>
      let n := s.sys.rh.opc.toNat
      onlyIf (s.sys.rh.busy && (n == 0 || decide (0x10 < n)) && (s.sys.st == .ready || s.sys.st == .locked) && decide (s.sys.rh.len.toNat ≤ 3840))
        (.one (.sys fun y => { y with rh := { y.rh with
          done := true, busy := false, seqDone := y.rh.seq, result := 1, args := y.rh.args.writeAll 0 [] } })))
  | _ => none

end Sys2Proof.Claims
end

