-- ==== Sys2Proof/Certificates/Slice0/Results.lean ====
section
/-! DEFINITION. For the statements of results and frames: what a destination receives, and what stays as it was. -/

namespace Sys2Proof.Claims

open Sys2Proof.Machine

/-! ## Values, independently of the model's lane operations -/

/-- A value of type `t`, read with its signedness (R137). -/
def tyVal (t : Ty) (x : Nat) : Int := if t.signed then (BitVec.ofNat t.bits x).toInt else ((BitVec.ofNat t.bits x).toNat : Int)

/-- The low bits of an exact integer, at the width of `t`. -/
def lowBits (t : Ty) (x : Int) : Nat := (BitVec.ofInt t.bits x).toNat

/-- R137: the exact result clamped under SAT, and its low bits. -/
def satResult (t : Ty) (sat : Bool) (x : Int) : Nat :=
  let lo : Int := if t.signed then -2 ^ (t.bits - 1) else 0
  let hi : Int := if t.signed then 2 ^ (t.bits - 1) - 1 else 2 ^ t.bits - 1
  lowBits t (if sat then (if x < lo then lo else if hi < x then hi else x) else x)

/-- Set bits, and zeros before the highest or below the lowest of them, in a word. -/
def setBits {w : Nat} (x : BitVec w) : Nat := ((List.range w).filter fun i => x.getLsbD i).length
def zerosAbove {w : Nat} (x : BitVec w) : Nat := ((List.range w).reverse.takeWhile fun i => !x.getLsbD i).length
def zerosBelow {w : Nat} (x : BitVec w) : Nat := ((List.range w).takeWhile fun i => !x.getLsbD i).length

/-- A NaN of FP32, and a signalling one (R109). -/
def f32Nan (x : Nat) : Bool := x / 2 ^ 23 % 256 == 255 && x % 2 ^ 23 != 0
def f32Signals (x : Nat) : Bool := f32Nan x && !x.testBit 22

/-- The place of an FP32 number in their order: the magnitude's bits under the sign, so that both zeros stand at 0. -/
def f32Key (x : Nat) : Int := if x.testBit 31 then -((x % 2 ^ 31 : Nat) : Int) else ((x % 2 ^ 31 : Nat) : Int)

/-! ## Operands of an R-format instruction -/

/-- Bytes of an R-format instruction (R84). -/
def rLen (f : RForm) : Nat := if f.lx.isSome then 16 else 8

/-- B of lane `j`: the long immediate, or the field (R78, R84). -/
def rB (u : U) (f : RForm) (j w : Nat) : Nat := match f.lx with | some x => x.toNat | none => u.rd j f.b w

/-- The gang that issues an R-format instruction of SIMT code, whose fields of the given widths are in range and wait for no
load: its unit, with the lanes whose guard passes. -/
def rReady (f : RForm) (wd wa wb wc : Nat) (s : State) (u : U) : Prop :=
  ∃ v, unitOf s (rLen f) = some v ∧ v.gang.vliw = false ∧ u = v.guarded f.g
    ∧ ready u [(f.d, wd), (f.a, wa), (f.b, if f.lx.isSome then 0 else wb), (f.c, wc)] = true

/-! ## Destinations -/

/-- The destination `d` of `w` bits holds lane `j`'s value `v j` (R13, R130): in every participating lane that the block has, or in
every slice of the gang that of the lowest participating lane; `s63` still reads zero (R11). -/
def Lands (u : U) (t : State) (d : BitVec 8) (w : Nat) (v : Nat → Nat) : Prop :=
  ∃ b, t.block? u.c u.b = some b ∧
    if isS d then
      ∀ j r, u.part = j :: r → ∀ i ∈ u.members, ∀ x, b.slice? i = some x →
        x.sreg (d.toNat - 0xC0) = if d.toNat = 0xFF then 0 else BitVec.ofNat 64 (v j)
    else ∀ j ∈ u.part, j < u.blk.lanes.length → (b.lane j).regs d.toNat (regCount w) = v j

/-- Predicate `p` holds `v j` in every participating lane that the block has; `p7` reads true (R14). -/
def PredLands (u : U) (t : State) (p : Nat) (v : Nat → Bool) : Prop :=
  ∃ b, t.block? u.c u.b = some b ∧ ∀ j ∈ u.part, j < u.blk.lanes.length →
    (b.lane j).pred p = if p = 7 then true else v j

/-- Every lane's flags are as they were. -/
def FlagsKept (u : U) (t : State) : Prop :=
  ∃ b, t.block? u.c u.b = some b ∧ ∀ j, (b.lane j).fp = (u.blk.lane j).fp

/-- An R-format instruction that is ready completes, its destination receives for each lane a value that `P` allows, and it
raises no flag. -/
def RWritesSuch (i : Instr) (f : RForm) (wd wa wb wc : Nat) (P : U → Nat → Nat → Prop) : Prop :=
  ∀ s u, rReady f wd wa wb wc s u → ∃ t v, exec i s = .next t ∧ Lands u t f.d wd v ∧ FlagsKept u t ∧ ∀ j, P u j (v j)

/-- The same, with the value itself. -/
def RWrites (i : Instr) (f : RForm) (wd wa wb wc : Nat) (v : U → Nat → Nat) : Prop :=
  RWritesSuch i f wd wa wb wc fun u j x => x = v u j

/-- An R-format instruction that is ready completes, predicate `p` receives `v`, and it raises no flag. -/
def RTests (i : Instr) (f : RForm) (wa wb p : Nat) (v : U → Nat → Bool) : Prop :=
  ∀ s u, rReady f 0 wa wb 0 s u → ∃ t, exec i s = .next t ∧ PredLands u t p (v u) ∧ FlagsKept u t

/-- The bits of a value of `w` bits. -/
def bitsAre (w : Nat) (p : Nat → Bool) (x : Nat) : Prop := x < 2 ^ w ∧ ∀ i, i < w → x.testBit i = p i

/-! ## Frames -/

/-- Everything outside the cores is as it was. -/
def SameOutside (s t : State) : Prop :=
  t.mem = s.mem ∧ t.ext = s.ext ∧ t.held = s.held ∧ t.clusters = s.clusters ∧ t.ctxs = s.ctxs ∧ t.grids = s.grids
    ∧ t.sys = s.sys ∧ t.agenda = s.agenda ∧ t.cur = s.cur ∧ t.args = s.args ∧ t.free = s.free

/-- Every other core, and every other block of this one, is as it was. -/
def SameAround (c b : Nat) (s t : State) : Prop :=
  (∀ k, k ≠ c → t.cores.get? k = s.cores.get? k) ∧ ∀ k, k ≠ b → t.block? c k = s.block? c k

/-- The core's own state is as it was, but for its blocks and the words that stochastic rounding has taken, in the core's issue
slot (R123, R124). -/
def SameCore (c : Nat) (s t : State) : Prop :=
  t.core c = { s.core c with blocks := (t.core c).blocks, rill := (t.core c).rill, slot := (t.core c).slot }

/-- The block is as it was, but for its lanes, its slices, its gangs and the count of its issues. -/
def SameBlock (x y : Block) : Prop :=
  y = { x with lanes := y.lanes, slices := y.slices, gangs := y.gangs, issued := y.issued }

/-- A lane is as it was but for `n` registers from `d` and the predicates of `ps`; a flag that was set stays so. -/
def LaneKeeps (x y : Lane) (d n : Nat) (ps : List Nat) : Prop :=
  (∀ k, (k < d ∨ d + n ≤ k) → y.reg k = x.reg k) ∧ (∀ p, p ∉ ps → y.pred p = x.pred p) ∧ x.fp &&& ~~~y.fp = 0

/-- A slice is as it was but for its PC and one s-register, if any. -/
def SliceKeeps (x y : Slice) (sr : Option Nat) : Prop :=
  y = { x with pc := y.pc, s := y.s } ∧ ∀ k, some k ≠ sr → y.sreg k = x.sreg k

/-- After an instruction of the gang with destination `d` of `w` bits and the predicates `ps`: only its own lanes, slices and
PC have changed, and they as its destination says. -/
def LaneFrame (u : U) (s t : State) (d : BitVec 8) (w : Nat) (ps : List Nat) : Prop :=
  SameOutside s t ∧ SameAround u.c u.b s t ∧ SameCore u.c s t ∧
  ∃ b, t.block? u.c u.b = some b ∧ SameBlock u.blk b
    ∧ b.gangs = u.blk.gangs.modify u.g Gang.issued
    ∧ (∀ j, j ∉ u.part → b.lane j = u.blk.lane j)
    ∧ (∀ j, j ∈ u.part → LaneKeeps (u.blk.lane j) (b.lane j) d.toNat (if isS d || w == 0 then 0 else regCount w) ps)
    ∧ (∀ i x, u.blk.slice? i = some x → ∃ y, b.slice? i = some y ∧
        if i ∈ u.members then y.pc = u.next ∧ SliceKeeps x y (if isS d && w != 0 then some (d.toNat - 0xC0) else none) else y = x)

/-- Predicates that a lane instruction writes (R140, R141, R148, R149, R153). -/
def predsOf : Instr → List Nat
  | .iaddc f => [f.xm.toNat % 8]
  | .icmp f => [f.d.toNat]
  | .pset f => [f.d.toNat]
  | .pmov f => if f.xm == 0 then [] else [0, 1, 2, 3, 4, 5, 6]
  | .fcmp f => [f.d.toNat]
  | _ => []

/-! ## Decoding at an issue -/

/-- The unit's words, `n` of them, decode to `i` in its mode: Exdin words, a bundle's header with its words, or a native word
(R84 to R92, R311). -/
def Decoded (u : U) (bytes : List Byte) (n : Nat) (i : Instr) : Prop :=
  if u.inExdin then ∃ r, decodeExdin (splitHalves (leNat bytes) n) = .ok (i, r)
  else if u.gang.vliw then ∃ hdr ws, splitWords (leNat bytes) n = hdr :: ws ∧ wordMaj hdr = 0x3C ∧ i = .bundle hdr ws
  else ∃ r, decodeNative (splitWords (leNat bytes) n) = .ok (i, r)

/-! ## Bytes -/

/-- The locations of bytes in runs, in order. -/
def placesOf (rs : List (Loc × Nat)) : List Loc :=
  rs.flatMap fun r => (List.range r.2).map fun i => { r.1 with a := r.1.a + i }

/-- The bytes of a buffered store with their locations. -/
def bufferedCells (e : BufStore) : List (Loc × Byte) := e.runs.flatMap fun r => (placesOf [(r.1, r.2.length)]).zip r.2

/-- An agent's counters are at hand: the device holds them, or the pages of their record are as they should be (R376, R449). -/
def countable (s : State) (x a : Nat) : Prop :=
  ∀ ctx, s.ctx? x = some ctx → (ctx.agents.get? a).isSome = true ∨ s.saveBroken ctx (0x9000 + 64 * a) 64 = false

/-- `n` bytes in which fields stand, each given by its offset, its bytes and its value, low byte first; a byte of no field is zero. -/
def layBytes (n : Nat) (fields : List (Nat × Nat × Nat)) : List Byte :=
  (List.range n).map fun i =>
    match fields.find? fun f => decide (f.1 ≤ i) && decide (i < f.1 + f.2.1) with
    | some f => BitVec.ofNat 8 (f.2.2 / 256 ^ (i - f.1))
    | none => 0

/-- Every byte of storage reads as before. -/
def SameBytes (s t : State) : Prop := ∀ l : Loc, t.readLoc l = s.readLoc l

/-- Every lane of every resident block, and every s-register of its slices, is as it was. -/
def RegsKept (s t : State) : Prop :=
  ∀ c b x, s.block? c b = some x → ∃ y, t.block? c b = some y ∧ y.lanes = x.lanes ∧
    ∀ j : Nat, (y.slice? j).map (·.s) = (x.slice? j).map (·.s)

/-- Instructions of SIMT code without a destination register, each with when it completes and the state that then follows. -/
def plainRow : Instr → Option Row
  | .st f => some (storeRow .global 64 f)
  | .sts f => some (storeRow .scratch 32 f)
  | .stk f => some (storeRow .clus 32 f)
  | .pref f => some (prefRow f)
  | .gath f => some (gatherRow false f)
  | .scat f => some (gatherRow true f)
  | .fence f => some (fenceRow f)
  | .pfence f => some (pfenceRow f)
  | .vjoin f => some (vjoinRow f)
  | .tseal f => some (tsealRow f)
  | .tst f => f.tileW.map (tstRow f)
  | .tdrop f => some (tdropRow f)
  | .qpost f => some (qpostRow f)
  | .qadv f => some (qadvRow f)
  | .mlease f => some (mleaseRow f)
  | .mrel f => some (mrelRow f)
  | .mloadw f b => some (mloadwRow f b)
  | .mswap f => some (mswapRow f)
  | .mstream f b => some (mstreamRow f b)
  | .mzero f => some (mzeroRow f)
  | .mwrite f => some (mwriteRow f)
  | .mmeta f => some (mmetaRow f)
  | .mshape f => some (mshapeRow f)
  | .cpy f b => some (cpyRow f b)
  | .cpyw f => some (cpywRow f)
  | .splw f => some (splwRow f)
  | .bar f => some (arriveRow f true)
  | .barxArv f => some (arriveRow f false)
  | .barxExp f => some (barxExpRow f)
  | .barw f => some (barwRow f)
  | .bbrot f => some (bbrotRow f)
  | .gsync => some gsyncRow
  | .qpoint f => some (qpointRow f)
  | .bra f => some (braWith f.g always (fun u => u.target f) fun _ => .done)
  | .brx f => some (brxRow f)
  | .ret f => some (brxRow f)
  | .rconv f => some (rconvRow f)
  | .join => some joinRow
  | .yield f => some (yieldRow f)
  | .sleep f => some (sleepRow f)
  | .pgrant f => some (pgrantRow f)
  | .prels f => some (prelsRow f)
  | .pgate f => some (pgateRow f)
  | .probe f => some (probeRow f)
  | .docinv f => some (docinvRow f)
  | _ => none

/-- Instructions that change no byte of storage of their own, each with when it completes and the state that then follows. -/
def quietRow : Instr → Option Row
  | .ld f => if f.ord = .plain ∨ f.ord = .weak then some (loadRow .global 64 f) else none
  | .st f => if f.ord = .plain ∨ f.ord = .weak then some (storeRow .global 64 f) else none
  | .lds f => if f.ord = .plain ∨ f.ord = .weak then some (loadRow .scratch 32 f) else none
  | .sts f => if f.ord = .plain ∨ f.ord = .weak then some (storeRow .scratch 32 f) else none
  | .ldk f => if f.ord = .plain ∨ f.ord = .weak then some (loadRow .clus 32 f) else none
  | .stk f => if f.ord = .plain ∨ f.ord = .weak then some (storeRow .clus 32 f) else none
  | .ldc f => some (ldcRow f)
  | .pref f => some (prefRow f)
  | .tquery f => some (tqueryRow f)
  | .qcnt f => some (qcntRow f)
  | .cpyq f => some (cpyqRow f)
  | .mmeta f => some (mmetaRow f)
  | .mshape f => some (mshapeRow f)
  | .rconv f => some (rconvRow f)
  | .yield f => some (yieldRow f)
  | .prels f => some (prelsRow f)
  | .sread f => some (sreadRow f)
  | .swrite f => some (swriteRow f)
  | i => exchangeRow i

/-- A location's byte is among `n` bytes from another: in the same storage, or seen through lines of external memory that no home
slice holds (R204). -/
def within (l base : Loc) (n : Nat) : Prop :=
  (min l.sp 5 = min base.sp 5 ∨ (base.sp = 1 ∧ 5 ≤ l.sp)) ∧ (2 ≤ l.sp ∧ l.sp ≤ 4 → l.i = base.i) ∧ base.a ≤ l.a ∧ l.a < base.a + n

end Sys2Proof.Claims
end

