-- ==== Sys2Proof/Safety.lean ====
section
/-! DEFINITION. What counts as a safe run. -/

namespace Sys2Proof.Safety

open Sys2Proof.Machine

/-- Every byte store of the module is in canonical form. -/
def MemOk (s : State) : Prop :=
  s.mem.wf = true ∧ s.ext.wf = true ∧ (∀ e ∈ s.cores, e.2.pool.wf = true)
    ∧ (∀ e ∈ s.clusters, e.2.csu.wf = true ∧ e.2.cist.wf = true)

/-- The step answers a next state: it meets neither a fault nor a refusal. -/
def GoesOn (s : State) : Prop := ∃ t, step s = .next t

/-- The state `n` steps later is reached without a fault or a refusal. -/
inductive Runs : Nat → State → State → Prop where
  | here (s : State) : Runs 0 s s
  | step {n : Nat} {s t r : State} (h : Machine.step s = .next t) (h' : Runs n t r) : Runs (n + 1) s r

end Sys2Proof.Safety
end

