-- ==== Sys2Proof/Certificates/Slice0/Obligations.lean ====
section
/-! DEFINITION. The statements for the provers: what instructions and events do, where they complete, what they leave as it was,
and what every step keeps. -/

section

open Sys2Proof Sys2Proof.Machine Sys2Proof.Claims

/-! ## Encodings -/

/-- Words written out from the spec's encodings, and what they decode to (R76, R86, R92, R98, R311). -/
def Obligations.DecodesSpecWords : Prop :=
  decodeNative [0x0100010101400200] =
      .ok (.iadd { g := ⟨2, false⟩, d := 4, a := 4, b := 5, c := 0, lx := none, ty := .i32, rm := .ne, sat := false, xm := 0 }, [])
  ∧ decodeNative [0x6380823102401014] =
      .ok (.ld { g := ⟨7, false⟩, w := .b32, d := 8, a := 0xC4, x := 9, off := 0x40, ord := .acq, scp := .dev, view := false }, [])
  ∧ decodeNative [0x1380818000002B00, 0x123456789ABCDEF0] =
      .ok (.movl { g := ⟨7, false⟩, d := 6, a := 0, b := 0, c := 0, lx := some 0x123456789ABCDEF0, ty := .b64, rm := .ne,
                   sat := false, xm := 0 }, [])
  ∧ decodeNative [0x2380008080C01200] =
      .ok (.fadd { g := ⟨7, false⟩, d := 2, a := 2, b := 3, c := 0, lx := none, ty := .f32, rm := .ne, sat := false, xm := 0 }, [])
  ∧ decodeNative [0x07800C0FFFFFFFFC] =
      .ok (.iaddImm32 { g := ⟨7, false⟩, d := 3, a := 3, imm := 0xFFFFFFFF, ik := 0 }, [])
  ∧ decodeNative [0x5381020100008001] =
      .ok (.shflx { g := ⟨7, false⟩, d := 2, a := 1, b := 0, c := 0, imm := 0x8001 }, [])
  ∧ decodeNative [0x938402C800009000, 0x0008800900020013, 0x0010001800C00000, 0, 0] =
      .ok (.mstream { g := ⟨7, false⟩, d := 2, a := 0xC8, b := 0, c := 0, imm := 0x9000 }
        (some ⟨0x0008800900020013, 0x0010001800C00000, 0, 0⟩), [])
  ∧ decodeNative [0xB8800000FFFFFFF8] = .ok (.bra { g := ⟨1, false⟩, a := 0, b := 0, off := 0xFFFFFFF8 }, [])
  ∧ decodeBundle [0xF000040000000000, 0xBB85C50000000007] = .ok (.bundle 0xF000040000000000 [0xBB85C50000000007], [])
  ∧ decodeNative [0xBB85C50000000007] = .ok (.loop { g := ⟨7, false⟩, a := 0xC5, b := 0, off := 7 }, [])
  ∧ decodeHart 0x0000000B = .hcpy { rd := 0, rs1 := 0, rs2 := 0 }
  ∧ decodeHart 0x00C5A50B = .halloc { rd := 10, rs1 := 11, rs2 := 12 }
  ∧ decodeHart 0x00C5850B = .hcpy { rd := 10, rs1 := 11, rs2 := 12 }
  ∧ decodeHart 0x00C5F50B = .hartBaseInstruction 0x00C5F50B
  ∧ decodeExdin [0x04260000, 0x00000001, 0x00000002, 0x40000005] =
      .ok (.exAdd { ty := .i32, rm := .ne, sat := false, guard := none, xm := 0, ops := [.reg 1, .reg 2, .imm 5] }, [])

/-- Decoding what a well-formed native instruction encodes to gives it back, whatever follows (R75 to R92). -/
def Obligations.NativeRoundTrip : Prop := ∀ (i : Instr) (rest : List W64),
  i.wf = true → encodeNative i ≠ [] → (∀ hdr ws, i ≠ .bundle hdr ws) → decodeNative (encodeNative i ++ rest) = .ok (i, rest)

/-- Each native word has one meaning: what the decoder reads is well formed and encodes to the words read (R76 to R82, R96). -/
def Obligations.NativeWordsHaveOneMeaning : Prop := ∀ (ws : List W64) (i : Instr) (rest : List W64),
  decodeNative ws = .ok (i, rest) → i.wf = true ∧ ws = encodeNative i ++ rest

/-- Decoding what a well-formed Exdin instruction encodes to gives it back, whatever follows (R311 to R313). -/
def Obligations.ExdinRoundTrip : Prop := ∀ (i : Instr) (rest : List W32),
  i.wf = true → encodeExdin i ≠ [] → decodeExdin (encodeExdin i ++ rest) = .ok (i, rest)

/-- Words of harts and of bundles, both ways (R86, R87, R98). -/
def Obligations.HartAndBundleRoundTrip : Prop :=
  (∀ (i : Instr) (w : W32), i.wf = true → encodeHart i = [w] → decodeHart w = i)
  ∧ (∀ w : W32, encodeHart (decodeHart w) = [w] ∧ (decodeHart w).wf = true)
  ∧ (∀ (hdr : W64) (ws rest : List W64), (Instr.bundle hdr ws).wf = true →
      decodeBundle (encodeNative (.bundle hdr ws) ++ rest) = .ok (.bundle hdr ws, rest))
  ∧ (∀ (ws : List W64) (i : Instr) (rest : List W64), decodeBundle ws = .ok (i, rest) →
      i.wf = true ∧ ws = encodeNative i ++ rest)

/-- R96 steps 1 to 3: a major that is reserved, one that is illegal outside a bundle's header, and a word of no instruction are
refused by name; the all-ones word is among them. -/
def Obligations.ReservedMajors : Prop :=
  (∀ (w : W64) (rest : List W64), (0x30 ≤ wordMaj w ∧ wordMaj w ≤ 0x37) ∨ wordMaj w = 0x3E →
      decodeNative (w :: rest) = .error .reservedMajor)
  ∧ (∀ (w : W64) (rest : List W64), wordMaj w = 0x3C ∨ wordMaj w = 0x3D ∨ wordMaj w = 0x3F →
      decodeNative (w :: rest) = .error .illegalMajor)
  ∧ (∀ (w : W64) (rest : List W64),
      wordMaj w ∈ [0x05, 0x06, 0x07, 0x0C, 0x0D, 0x0E, 0x0F, 0x12, 0x13, 0x17, 0x1C, 0x1D, 0x1E, 0x1F, 0x22, 0x23, 0x25, 0x26, 0x27,
        0x2B, 0x2D, 0x3B] → decodeNative (w :: rest) = .error .unassigned)
  ∧ (∀ rest, decodeNative (0xFFFFFFFFFFFFFFFF :: rest) = .error .illegalMajor)

/-! ## A step runs the instruction that it decodes -/

/-- The issue turn of a gang or thread that nothing holds and that no other is due before (R69, R70, R247): the words at its PC are
fetched, and the step is their instruction's meaning in the state that the fetch and the opening of an issue slot leave, after which
the core may tag it (R428). -/
def Obligations.StepRunsTheFetchedInstruction : Prop :=
  ∀ (s : State) (rest : List Turn) (c b g : Nat) (u : U) (i : Instr),
  let r := { s with agenda := rest, cur := .gang c b g }
  let n := u.fetchCount (u.head r)
  let bytes := u.headBytes * n
  s.agenda = .issue (.gang c b g) :: rest → State.turnOf { s with agenda := rest } (.gang c b g) = .gang c b g → unitOf r 0 = some u →
  s.sys.st ≠ .fatal → u.blk.halt = false → u.core.gated = false → u.blk.regrant = none → u.gang.skip = false → u.gang.wait.held = false → (∀ a, u.gang.wait ≠ .qpoint a) →
  u.gang.pend = [] → (u.blk.grant.isSome = true → u.blk.excess < 4) →
  u.fetchBad r u.headBytes 1 = none → u.fetchBad r u.headBytes n = none →
  Decoded u (u.fetchBytes r u.inExdin u.pc bytes) n i → i ≠ .fetchFault →
  let begun := u.begin_.run ((u.fetchFill r bytes).run r)
  step s = tagAfter begun i (exec i begun)

/-- The issue turn of a running hart (R280, R98): its next two or four bytes are its instruction, which runs in the state whose
context is no longer stalled (R404). -/
def Obligations.StepRunsTheHartsInstruction : Prop := ∀ (s : State) (rest : List Turn) (c : Nat) (st : Bool) (a : HU),
  let r := { s with agenda := rest, cur := .hart c st }
  let byte := fun i => a.h.store.getD (a.h.pc.toNat + i) 0
  let begun := (clearStall a.h.ctx a.u.ctx (a.h.wait == .ready)).run r
  s.agenda = .issue (.hart c st) :: rest → s.sys.st ≠ .fatal → hartOf r 0 = some a →
  ((bits 2 (byte 0) 0 = 3 → a.h.pc.toNat + 4 ≤ 65536 → step s = exec (decodeHart (byte 3 ++ byte 2 ++ byte 1 ++ byte 0)) begun)
    ∧ (bits 2 (byte 0) 0 ≠ 3 → a.h.pc.toNat + 2 ≤ 65536 →
        step s = exec (.hartBaseInstruction (BitVec.setWidth 32 (byte 1 ++ byte 0 : BitVec 16))) begun))

/-- A turn that is an event runs it on its arguments; one that names a program's instruction is passed over (log 1). -/
def Obligations.StepRunsTheEvent : Prop := ∀ (s : State) (rest : List Turn) (i : Instr) (a : Args),
  s.agenda = .event i a :: rest →
  (Instr.isEvent i = true → step s = exec i { s with agenda := rest, args := a })
    ∧ (Instr.isEvent i = false → step s = .next { s with agenda := rest })

/-! ## Reset and the invariant of every step -/

/-- R350, R413, R416, R422: after reset the module stands in BOOT; its invalidation registers, command registers, error counters and
launch queues read zero, as does every register that the host reads outside the argument area; and no grid, context or block is
there. -/
def Obligations.ResetRegisters : Prop :=
  let s := State.reset
  s.sys.st = .boot ∧ s.sys.invCtx = 0 ∧ s.sys.invStart = 0 ∧ s.sys.invLen = 0
    ∧ (∀ i, i < 256 → let q := s.sys.queue i
        q.base = 0 ∧ q.en = false ∧ q.ctx = 0 ∧ q.szl = 0 ∧ q.tail = 0 ∧ q.head = 0)
    ∧ s.sys.rh.len = 0 ∧ s.sys.rh.seq = 0 ∧ s.sys.rh.opc = 0 ∧ s.sys.rh.done = false ∧ s.sys.rh.busy = false
    ∧ s.sys.rh.seqDone = 0 ∧ s.sys.rh.result = 0 ∧ (∀ i, i < 7 → s.sys.errors[i]? = some 0)
    ∧ (∀ off, off < 0x2100 ∨ 0x3000 ≤ off → s.sys.register off = 0)
    ∧ s.sys.boots = 0 ∧ s.ctxs = [] ∧ s.grids = [] ∧ ∀ c b, s.block? c b = none

/-- At reset every byte store is in canonical form. -/
def Obligations.ResetIsCanonical : Prop := Sys2Proof.Safety.MemOk State.reset

/-- Every step keeps every byte store in canonical form: addresses rising, and no byte listed that reads as an unlisted one. -/
def Obligations.StepKeepsStoresCanonical : Prop := ∀ s t : State, Sys2Proof.Safety.MemOk s → step s = .next t → Sys2Proof.Safety.MemOk t

/-! ## Where instructions complete, and the state that follows -/

/-- R136 to R150: an integer, logic, bit-field, move, select, predicate or address instruction of a gang in SIMT code completes
when its registers are in range and none waits for a load. -/
def Obligations.IntegerLanesComplete : Prop := ∀ (i : Instr) (l : LaneOp) (s : State),
  intLane i = some l → l.row.ok s = true → exec i s = .next (l.row.next s)

/-- R151 to R167: the floating-point, packed, conversion and narrow-format instructions. -/
def Obligations.FloatLanesComplete : Prop := ∀ (i : Instr) (l : LaneOp) (s : State),
  fpLane i = some l → l.row.ok s = true → exec i s = .next (l.row.next s)

/-- R168 to R171: shuffles, broadcasts, votes, reductions and scans. -/
def Obligations.ExchangesComplete : Prop := ∀ (i : Instr) (r : Row) (s : State),
  exchangeRow i = some r → r.ok s = true → exec i s = .next (r.next s)

/-- R173 to R205: loads, stores, gathers, atomics, fences, prefetch and cache control. -/
def Obligations.MemoryCompletes : Prop := ∀ (i : Instr) (r : Row) (s : State),
  memoryRow i = some r → r.ok s = true → exec i s = .next (r.next s)

/-- R206 to R227: tiles and flumes. -/
def Obligations.TilesComplete : Prop := ∀ (i : Instr) (r : Row) (s : State),
  tileRow i = some r → r.ok s = true → exec i s = .next (r.next s)

/-- R228 to R240: the matrix array. -/
def Obligations.MatrixCompletes : Prop := ∀ (i : Instr) (r : Row) (s : State),
  matrixRow i = some r → r.ok s = true → exec i s = .next (r.next s)

/-- R269 to R293: the transfer unit, the Spillway, mailboxes and launches. -/
def Obligations.EnginesComplete : Prop := ∀ (i : Instr) (r : Row) (s : State),
  engineRow i = some r → r.ok s = true → exec i s = .next (r.next s)

/-- R255 to R265: barriers, supersteps, phases, monitors, regrouping and quiescent points. -/
def Obligations.SynchronisationCompletes : Prop := ∀ (i : Instr) (r : Row) (s : State),
  syncRow i = some r → r.ok s = true → exec i s = .next (r.next s)

/-- R241 to R254, R266, R267: control flow. -/
def Obligations.ControlFlowCompletes : Prop := ∀ (i : Instr) (r : Row) (s : State),
  controlRow i = some r → r.ok s = true → exec i s = .next (r.next s)

/-- R294 to R301: system instructions. A trap or breakpoint that the program asks for has its entry as its effect. -/
def Obligations.SystemCompletes : Prop := ∀ (i : Instr) (r : Row) (s : State),
  systemRow i = some r → r.ok s = true → exec i s = .next (r.next s)

/-- R86 to R91, R448: a bundle of a thread that no check stops commits its slots in their order; `XMOV`, `MODE.simt`, `LOOP` and
`LEND`, each alone in a bundle's first slot, have their effect. -/
def Obligations.BundlesComplete : Prop :=
  (∀ (hdr : W64) (ws : List W64) (s : State), (bundleRow hdr ws).ok s = true →
    exec (.bundle hdr ws) s = .next ((bundleRow hdr ws).next s))
  ∧ (∀ (i : Instr) (w : W64) (m fn : Nat) (r : Row) (s : State), slotRow i = some (m, fn, r) → wordMaj w = m →
    (bits 6 w 48).toNat = fn → decodeNative [w] = .ok (i, []) → r.ok s = true →
    exec (.bundle soloHeader [w]) s = .next (r.next s))

/-- R96, R247: a word of no instruction traps RESERVED-MAJOR or ILLEGAL, and a fetch that a check stops traps with the check's
cause; that trap is the effect. -/
def Obligations.UndecodedWordsTrap : Prop :=
  (∀ (w : W64) (s : State), (undefinedRow w).ok s = true → exec (.undefinedWord w) s = .next ((undefinedRow w).next s))
  ∧ (∀ s : State, fetchFaultRow.ok s = true → exec .fetchFault s = .next (fetchFaultRow.next s))

/-- R303 to R320: Exdin's lane operations, moves, exchanges and special registers, in cracked code. -/
def Obligations.ExdinLanesComplete : Prop := ∀ (i : Instr) (r : Row) (s : State),
  exLaneTable i = some r ∨ exMoveTable i = some r → r.ok s = true → exec i s = .next (r.next s)

/-- R303 to R320: Exdin's loads, stores, atomics, fences, tiles, flumes, copies and matrix operations. The XM fields, the order of the
operands and the lease of one command of `talloc`, `tld`, `qpost`, `qtake`, `copy`, `wload`, `mm`, `acc` and `atom` are the model's
choice (log 20). -/
def Obligations.ExdinMemoryCompletes : Prop := ∀ (i : Instr) (r : Row) (s : State),
  exMemTable i = some r ∨ exEngineTable i = some r → r.ok s = true → exec i s = .next (r.next s)

/-- R303 to R320: Exdin's regions, synchronisation and exits. -/
def Obligations.ExdinControlCompletes : Prop := ∀ (i : Instr) (r : Row) (s : State),
  exControlTable i = some r → r.ok s = true → exec i s = .next (r.next s)

/-- R98, R280 to R283: the instructions of the loader and storer harts. The base set's meaning is the model's reading of RV64IMAC
(log 12). -/
def Obligations.HartsComplete : Prop := ∀ (i : Instr) (r : Row) (s : State),
  hartTable i = some r → r.ok s = true → exec i s = .next (r.next s)

/-- Events of memory, copies, the Spillway, tiles and waits. -/
def Obligations.EngineEventsComplete : Prop := ∀ (i : Instr) (r : Row) (s : State),
  engineEvents i = some r → r.ok s = true → exec i s = .next (r.next s)

/-- Events of mailboxes, launches, placement, pre-emption and grids. -/
def Obligations.PlacementEventsComplete : Prop := ∀ (i : Instr) (r : Row) (s : State),
  mailEvents i = some r ∨ placeEvents i = some r → r.ok s = true → exec i s = .next (r.next s)

/-- Events of grants, power, temperature, vaults and pages. -/
def Obligations.PowerEventsComplete : Prop := ∀ (i : Instr) (r : Row) (s : State),
  grantEvents i = some r ∨ heatEvents i = some r → r.ok s = true → exec i s = .next (r.next s)

/-- Events of the module and its links, and the host's commands. -/
def Obligations.ModuleEventsComplete : Prop := ∀ (i : Instr) (r : Row) (s : State),
  moduleEvents i = some r ∨ commandEvents i = some r → r.ok s = true → exec i s = .next (r.next s)

/-! ## Results of integer instructions -/

/-- R137, for the eight instructions that it governs: the exact integer result of R136's formula, clamped under SAT, and its low
bits. -/
def Obligations.IntegerArithmetic : Prop := ∀ f : RForm,
  let t := f.ty
  let w := t.bits
  let a := fun (u : U) (j : Nat) => tyVal t (u.rd j f.a w)
  let b := fun (u : U) (j : Nat) => tyVal t (rB u f j w)
  let c := fun (u : U) (j : Nat) => tyVal t (u.rd j f.c w)
  ((Instr.iadd f).wf = true → RWrites (.iadd f) f w w w 0 fun u j => satResult t f.sat (a u j + b u j))
  ∧ ((Instr.isub f).wf = true → RWrites (.isub f) f w w w 0 fun u j => satResult t f.sat (a u j - b u j))
  ∧ ((Instr.imul f).wf = true → RWrites (.imul f) f w w w 0 fun u j => satResult t f.sat (a u j * b u j))
  ∧ ((Instr.imad f).wf = true → RWrites (.imad f) f w w w w fun u j => satResult t f.sat (a u j * b u j + c u j))
  ∧ ((Instr.ineg f).wf = true → RWrites (.ineg f) f w w 0 0 fun u j => satResult t f.sat (-(a u j)))
  ∧ ((Instr.iabs f).wf = true → RWrites (.iabs f) f w w 0 0 fun u j => satResult t f.sat |a u j|)
  ∧ ((Instr.imin f).wf = true → RWrites (.imin f) f w w w 0 fun u j => satResult t f.sat (min (a u j) (b u j)))
  ∧ ((Instr.imax f).wf = true → RWrites (.imax f) f w w w 0 fun u j => satResult t f.sat (max (a u j) (b u j)))

/-- R138: the high half of the product, rounded down. -/
def Obligations.MultiplyHigh : Prop := ∀ f : RForm, (Instr.imulh f).wf = true →
  let t := f.ty
  let w := t.bits
  RWrites (.imulh f) f w w w 0 fun u j =>
    lowBits t (Int.floor (((tyVal t (u.rd j f.a w) * tyVal t (rB u f j w) : Int) : Rat) / 2 ^ w))

/-- R139: quotient and remainder, truncated toward zero, and its two decided cases. -/
def Obligations.Division : Prop := ∀ f : RForm,
  let t := f.ty
  let w := t.bits
  let a := fun (u : U) (j : Nat) => tyVal t (u.rd j f.a w)
  let b := fun (u : U) (j : Nat) => tyVal t (rB u f j w)
  let divides := fun (u : U) (j : Nat) (q m : Int) =>
    a u j = q * b u j + m ∧ |m| < |b u j| ∧ (0 ≤ a u j → 0 ≤ m) ∧ (a u j ≤ 0 → m ≤ 0)
  let lowest := fun (u : U) (j : Nat) => t.signed = true ∧ a u j = -2 ^ (w - 1) ∧ b u j = -1
  ((Instr.idiv f).wf = true → RWritesSuch (.idiv f) f w w w 0 fun u j x =>
    (b u j = 0 → x = 2 ^ w - 1)
    ∧ (lowest u j → x = if f.sat then 2 ^ (w - 1) - 1 else 2 ^ (w - 1))
    ∧ (b u j ≠ 0 → ¬ lowest u j → ∀ q m, divides u j q m → x = lowBits t q))
  ∧ ((Instr.irem f).wf = true → RWritesSuch (.irem f) f w w w 0 fun u j x =>
    (b u j = 0 → x = lowBits t (a u j))
    ∧ (lowest u j → x = 0)
    ∧ (b u j ≠ 0 → ∀ q m, divides u j q m → x = lowBits t m))

/-- R144: shifts and rotates by B[7:0]. -/
def Obligations.Shifts : Prop := ∀ f : RForm,
  let w := f.ty.bits
  let a := fun (u : U) (j : Nat) => BitVec.ofNat w (u.rd j f.a w)
  let c := fun (u : U) (j : Nat) => rB u f j 32 % 256
  ((Instr.shl f).wf = true → RWrites (.shl f) f w w 32 0 fun u j => if w ≤ c u j then 0 else (a u j <<< c u j).toNat)
  ∧ ((Instr.shr f).wf = true → RWrites (.shr f) f w w 32 0 fun u j => if w ≤ c u j then 0 else (a u j >>> c u j).toNat)
  ∧ ((Instr.sar f).wf = true → RWritesSuch (.sar f) f w w 32 0 fun u j =>
      bitsAre w fun i => if c u j + i < w then (a u j).getLsbD (c u j + i) else (a u j).getLsbD (w - 1))
  ∧ ((Instr.rot f).wf = true → RWritesSuch (.rot f) f w w 32 0 fun u j x =>
      x = ((a u j).rotateLeft (c u j % w)).toNat
      ∧ ∀ n, n < w → c u j = w - n → x = ((a u j).rotateRight n).toNat)

/-- R145: a field of A is extracted and extended, or inserted into C. -/
def Obligations.BitFields : Prop := ∀ f : RForm,
  let w := f.ty.bits
  let pos := fun (u : U) (j : Nat) => min (rB u f j 32 % 256) w
  let len := fun (u : U) (j : Nat) => min (rB u f j 32 / 256 % 256) (w - pos u j)
  let a := fun (u : U) (j : Nat) => u.rd j f.a w
  ((Instr.bfx f).wf = true → RWritesSuch (.bfx f) f w w 32 0 fun u j =>
    bitsAre w fun i =>
      if len u j = 0 then false
      else if i < len u j then (a u j).testBit (pos u j + i)
      else f.ty.signed && (a u j).testBit (pos u j + len u j - 1))
  ∧ ((Instr.bfi f).wf = true → RWritesSuch (.bfi f) f w w 32 w fun u j =>
    bitsAre w fun i =>
      if pos u j ≤ i ∧ i < pos u j + len u j then (a u j).testBit (i - pos u j) else (u.rd j f.c w).testBit i)

/-- The logic operations and bit counts of R143's table. -/
def Obligations.LogicAndCounts : Prop := ∀ f : RForm,
  let w := f.ty.bits
  let a := fun (u : U) (j i : Nat) => (u.rd j f.a w).testBit i
  let b := fun (u : U) (j i : Nat) => (rB u f j w).testBit i
  let x := fun (u : U) (j : Nat) => BitVec.ofNat w (u.rd j f.a w)
  ((Instr.andR f).wf = true → RWritesSuch (.andR f) f w w w 0 fun u j => bitsAre w fun i => a u j i && b u j i)
  ∧ ((Instr.orR f).wf = true → RWritesSuch (.orR f) f w w w 0 fun u j => bitsAre w fun i => a u j i || b u j i)
  ∧ ((Instr.xorR f).wf = true → RWritesSuch (.xorR f) f w w w 0 fun u j => bitsAre w fun i => a u j i ^^ b u j i)
  ∧ ((Instr.andn f).wf = true → RWritesSuch (.andn f) f w w w 0 fun u j => bitsAre w fun i => a u j i && !b u j i)
  ∧ ((Instr.notR f).wf = true → RWritesSuch (.notR f) f w w 0 0 fun u j => bitsAre w fun i => !a u j i)
  ∧ ((Instr.brev f).wf = true → RWritesSuch (.brev f) f w w 0 0 fun u j => bitsAre w fun i => a u j (w - 1 - i))
  ∧ ((Instr.popc f).wf = true → RWrites (.popc f) f 32 w 0 0 fun u j => setBits (x u j))
  ∧ ((Instr.clz f).wf = true → RWrites (.clz f) f 32 w 0 0 fun u j => zerosAbove (x u j))
  ∧ ((Instr.ctz f).wf = true → RWrites (.ctz f) f 32 w 0 0 fun u j => zerosBelow (x u j))

/-- R147 and R150, and the move of R146. -/
def Obligations.MovesAndAddresses : Prop := ∀ f : RForm,
  let w := f.ty.bits
  let low := fun (x : Nat) => (BitVec.ofNat w x).toNat
  ((Instr.mov f).wf = true → RWrites (.mov f) f w w 0 0 fun u j => low (u.rd j f.a w))
  ∧ ((Instr.sel f).wf = true → RWrites (.sel f) f w w w 0 fun u j =>
      low (if (u.blk.lane j).pred (f.c.toNat % 8) = !f.c.getLsbD 3 then u.rd j f.a w else rB u f j w))
  ∧ ((Instr.lea f).wf = true → f.xm.getLsbD 3 = false ∧ RWrites (.lea f) f 64 64 32 0 fun u j =>
      let b := rB u f j 32
      let e : BitVec 64 := if f.lx.isSome then BitVec.ofNat 64 b
        else if f.ty = .i32 then (BitVec.ofNat 32 b).signExtend 64 else (BitVec.ofNat 32 b).setWidth 64
      (BitVec.ofNat 64 (u.rd j f.a 64) + e * BitVec.ofNat 64 (2 ^ f.xm.toNat)).toNat)

/-- R140, R141, R148 and R149: what comparisons, carries and truth tables put into predicates. -/
def Obligations.PredicateResults : Prop := ∀ f : RForm,
  let t := f.ty
  let w := t.bits
  let p := fun (u : U) (j n : Nat) => (u.blk.lane j).pred n
  let sum := fun (u : U) (j : Nat) =>
    (BitVec.ofNat w (u.rd j f.a w)).toNat + (BitVec.ofNat w (rB u f j w)).toNat
      + if f.c.getLsbD 3 then 0 else if p u j (f.c.toNat % 8) then 1 else 0
  let cmp := fun (a b : Int) => match f.xm.toNat with
    | 0 => decide (a = b) | 1 => decide (a ≠ b) | 2 => decide (a < b) | 3 => decide (a ≤ b) | 4 => decide (b < a)
    | _ => decide (b ≤ a)
  ((Instr.iaddc f).wf = true → RWrites (.iaddc f) f w w w 0 (fun u j => sum u j % 2 ^ w)
    ∧ ∀ s u, rReady f w w w 0 s u → ∃ t, exec (.iaddc f) s = .next t
        ∧ PredLands u t (f.xm.toNat % 8) fun j => decide (2 ^ w ≤ sum u j))
  ∧ ((Instr.icmp f).wf = true → f.xm.toNat < 6 ∧ RTests (.icmp f) f w w f.d.toNat fun u j =>
      cmp (tyVal t (u.rd j f.a w)) (tyVal t (rB u f j w)))
  ∧ ((Instr.pset f).wf = true → RTests (.pset f) f 0 0 f.d.toNat fun u j =>
      f.xm.getLsbD (2 * (p u j f.a.toNat).toNat + (p u j f.b.toNat).toNat))
  ∧ ((Instr.pmov f).wf = true → f.xm = 0 → RWritesSuch (.pmov f) f 32 0 0 0 fun u j =>
      bitsAre 32 fun i => if i < 7 then p u j i else i == 7)
  ∧ ((Instr.pmov f).wf = true → f.xm = 1 → ∀ n, n < 7 → RTests (.pmov f) f 32 0 n fun u j => (u.rd j f.a 32).testBit n)

/-- R153: `FCMP` orders numbers by their magnitudes' encodings under their signs, with -0 equal to +0, answers every code for a
NaN as the rule lists, and raises NV for a signalling NaN alone. -/
def Obligations.FloatCompare : Prop := ∀ f : RForm, (Instr.fcmp f).wf = true → f.d.toNat < 8 ∧ f.xm.toNat < 8 ∧
  ∀ s u, rReady f 0 32 32 0 s u → ∃ t, exec (.fcmp f) s = .next t
    ∧ (PredLands u t f.d.toNat fun j =>
        let a := u.rd j f.a 32
        let b := rB u f j 32
        let un := f32Nan a || f32Nan b
        match f.xm.toNat with
        | 0 => !un && f32Key a == f32Key b
        | 1 => un || f32Key a != f32Key b
        | 2 => !un && decide (f32Key a < f32Key b)
        | 3 => !un && decide (f32Key a ≤ f32Key b)
        | 4 => !un && decide (f32Key b < f32Key a)
        | 5 => !un && decide (f32Key b ≤ f32Key a)
        | 6 => un
        | _ => !un)
    ∧ ∃ b, t.block? u.c u.b = some b ∧ ∀ j ∈ u.part, j < u.blk.lanes.length →
        (b.lane j).fp = (u.blk.lane j).fp ||| if f32Signals (u.rd j f.a 32) || f32Signals (rB u f j 32) then 1 else 0

/-! ## Memory -/

/-- R181, R183, R185: a plain or weak store completes at issue; its lanes' bytes enter the core's store buffer with the locations
that the access computes, in ascending lanes, the two halves of a 16-byte access apart, and every lane is as it was. No byte of
storage changes, unless a weak load still to be bound meets a stamped write (R337, R344). -/
def Obligations.StoreEntersBuffer : Prop := ∀ (i : Instr) (sp : Space) (f : MForm) (s : State) (v : U),
  ((i = .st f ∧ sp = .global) ∨ (i = .sts f ∧ sp = .scratch) ∨ (i = .stk f ∧ sp = .clus)) →
  (f.ord = .plain ∨ f.ord = .weak) →
  let base := if sp = .global then 64 else 32
  (storeRow sp base f).ok s = true → unitOf s 8 = some v →
  let u := v.guarded f.g
  ∃ t new b, exec i s = .next t
    ∧ ((s.sys.stamped = [] ∨ ∀ p ∈ (s.core u.c).loads, p.late = false) → SameBytes s t)
    ∧ (t.core u.c).sbuf = (s.core u.c).sbuf ++ new
    ∧ (∀ e ∈ new, e.blk = u.b ∧ e.weak = (f.ord == .weak) ∧ e.rel = false)
    ∧ new.flatMap bufferedCells = ((u.accs f base).flatMap fun a => a.parts.flatMap fun p =>
        (placesOf (u.runs s sp f.view p.2)).zip (leBytes (u.rd a.lane f.d (dataW f.w) / 2 ^ (8 * p.1)) p.2.size))
    ∧ t.block? u.c u.b = some b ∧ b.lanes = u.blk.lanes
    ∧ (∀ j x, u.blk.slice? j = some x → b.slice? j = some (if j ∈ u.members then { x with pc := u.next } else x))

/-- R183, R344, R375: with no stamped write in flight and the issuing agent's counters at hand, a drained store changes the
bytes it was bound to and no other; one for another die's home slice leaves under a stamp and changes no byte yet. A byte in
several of a store's runs takes the last's value. Which home slices lie on another die rests on the numbering of the dies, the
model's choice (log 9). -/
def Obligations.StoreDrainFrame : Prop := ∀ (s : State) (e : BufStore),
  (s.core (s.arg 0)).sbuf.find? (fun x => x.id == s.arg 1) = some e →
  (s.core (s.arg 0)).sbuf.any (fun x => x.before e) = false →
  s.sys.stamped = [] → (∀ x, s.block? (s.arg 0) e.blk = some x → countable s x.ctx e.agent) →
  let leaves := e.weak = false ∧ e.fence = false ∧ e.runs ≠ [] ∧ ∀ r ∈ e.runs, crosses (dieOf (s.arg 0)) r.1 e.va = true
  ∃ t, exec .storeDrain s = .next t
    ∧ (t.core (s.arg 0)).sbuf = (s.core (s.arg 0)).sbuf.filter (fun x => x.id != e.id)
    ∧ (leaves → SameBytes s t ∧ t.sys.stamped.map (fun w => (w.loc, w.bytes, w.old)) = e.runs.map fun r => (r.1, r.2, none))
    ∧ (¬ leaves → t.sys.stamped = [] ∧ (∀ l, (∀ r ∈ e.runs, ¬ within l r.1 r.2.length) → t.readLoc l = s.readLoc l)
        ∧ ∀ pre r post, e.runs = pre ++ r :: post → ∀ k, k < r.2.length →
          (∀ q ∈ post, ¬ within { r.1 with a := r.1.a + k } q.1 q.2.length) →
          t.readLoc { r.1 with a := r.1.a + k } = r.2.getD k 0)
    ∧ ∀ c b, (t.block? c b) = s.block? c b

/-- R181, R183, R337: a plain or weak load reads its lanes' bytes as their own threads see them and binds each destination
to the extended value, a weak global one until it is bound again; no lane and no predicate changes yet, and no byte of
storage with no stamped write in flight. A stamped write that its die has applied stands in memory before the read (R344). That a
plain load is bound as it issues, and when a weak one is, is the model's choice (log 5). Other weak loads still to be bound are
left out here, since shared bytes bind them, and so is an agent whose record of counters stands in a broken page, since the access
then ends its context's grids (R375, R449). -/
def Obligations.LoadBinds : Prop := ∀ (i : Instr) (sp : Space) (f : MForm) (s : State) (v : U),
  ((i = .ld f ∧ sp = .global) ∨ (i = .lds f ∧ sp = .scratch) ∨ (i = .ldk f ∧ sp = .clus)) →
  (f.ord = .plain ∨ f.ord = .weak) →
  let base := if sp = .global then 64 else 32
  (loadRow sp base f).ok s = true → unitOf s 8 = some v →
  let u := v.guarded f.g
  let m := (u.mergeLoads s sp (u.accs f base)).run s
  let value := fun (j : Nat) => extendTo32 f.w (leNat ((u.runs s sp f.view { lane := j, ea := u.ea f base j, size := f.w.size }).flatMap
    fun r => seeBytes m u.c u.b (u.thr j) (u.hits s sp { lane := j, ea := u.ea f base j, size := f.w.size }) r.1 r.2))
  (∀ p ∈ (s.core u.c).loads, p.late = false) → countable s u.blk.ctx u.blk.agent.toNat →
  ∃ t new b, exec i s = .next t ∧ (s.sys.stamped = [] → SameBytes s t)
    ∧ (t.core u.c).loads = (s.core u.c).loads ++ new
    ∧ new.map (fun p => (p.lane, p.sreg, p.reg, p.val)) =
        ((if isS f.d then u.part.take 1 else u.part).map fun j =>
          (j, isS f.d, (if isS f.d then f.d.toNat - 0xC0 else f.d.toNat), BitVec.ofNat 128 (value j)))
    ∧ (∀ p ∈ new, p.blk = u.b ∧ p.w = f.w ∧ p.late = (sp == .global && f.ord == .weak))
    ∧ t.block? u.c u.b = some b ∧ b.lanes = u.blk.lanes
    ∧ (∀ j x, u.blk.slice? j = some x → b.slice? j = some (if j ∈ u.members then { x with pc := u.next } else x))

/-- R180, R183, R11, R12: when the data of a load that is bound returns, its lane register or the s-register in the slices of the
gang that issued it takes the bound value, and the load is no longer outstanding; nothing else of the block, the core or any other
core changes, its gangs, PCs and flags among what stays. -/
def Obligations.LoadReturnWrites : Prop := ∀ (s : State) (p : PendLoad) (x : Block),
  let c := s.arg 0
  (s.core c).loads.find? (fun q => q.id == s.arg 1) = some p → s.arg 2 = 0 →
  (∀ q ∈ (s.core c).loads, q.id = p.id → q.late = false) →
  s.block? c p.blk = some x → p.lane < x.lanes.length →
  ∃ t b, exec .loadReturn s = .next t ∧ SameBytes s t
    ∧ (t.core c).loads = (s.core c).loads.filter (fun q => q.id != p.id)
    ∧ t.block? c p.blk = some b ∧ SameOutside s t ∧ SameAround c p.blk s t
    ∧ t.core c = { s.core c with blocks := (t.core c).blocks, loads := (t.core c).loads }
    ∧ b = { x with lanes := b.lanes, slices := b.slices }
    ∧ (if p.sreg then
        b.lanes = x.lanes ∧ ∀ j y, x.slice? j = some y → ∃ z, b.slice? j = some z ∧
          if p.slices.getLsbD j = true then
            z = { y with s := z.s } ∧ (∀ k, k ≠ p.reg → z.sreg k = y.sreg k)
              ∧ z.sreg p.reg = if p.reg ≥ 63 then 0 else p.val.setWidth 64
          else z = y
      else
        b.slices = x.slices ∧ (∀ j, j ≠ p.lane → b.lane j = x.lane j)
          ∧ b.lane p.lane = { x.lane p.lane with v := (b.lane p.lane).v }
          ∧ (∀ k, (k < p.reg ∨ p.reg + regsOf p.w ≤ k) → (b.lane p.lane).reg k = (x.lane p.lane).reg k)
          ∧ (b.lane p.lane).regs p.reg (regsOf p.w) = p.val.toNat % 2 ^ (32 * regsOf p.w))

/-- R193, R194: an atomic on scratchpad or cluster scratch changes the bytes of its lanes' locations and no other, when the
gang has no store in the buffer, no load is still to be bound and no stamped write is in flight; with one lane, the location
then holds the operation's value and the destination is bound to the value it held. -/
def Obligations.AtomicFrame : Prop := ∀ (f : XForm) (s : State) (v : U) (ty : Ty) (ord : Ord),
  let sp : Space := if f.fld 1 3 == 1 then .clus else .scratch
  let view := f.fld 1 2 == 1
  atomTy (f.fld 3 9) = some ty → Ord.ofCode (bits 3 f.imm 6) = some ord →
  (atomRowOn sp view false f ty ord).ok s = true → unitOf s 8 = some v →
  let u := v.guarded f.g
  let size := ty.bits / 8
  let runs := fun (j : Nat) => u.runs s sp view { lane := j, ea := u.rd j f.a 32, size := size }
  (s.core u.c).sbuf = [] → (∀ p ∈ (s.core u.c).loads, p.late = false) → s.sys.stamped = [] →
  ∃ t, exec (.atoms f) s = .next t
    ∧ (∀ l, (∀ j ∈ u.part, ∀ r ∈ runs j, ¬ within l r.1 r.2) → t.readLoc l = s.readLoc l)
    ∧ (∀ j, u.part = [j] →
        let old := leNat (readRuns s (runs j))
        readRuns t (runs j) = leBytes (atomNew (f.fld 4 12) ty old (u.rd j f.b ty.bits)
          (if f.fld 4 12 = 7 then u.rd j f.c ty.bits else 0)) size
        ∧ ∃ p, (t.core u.c).loads = (s.core u.c).loads ++ [p] ∧ p.lane = j ∧ p.sreg = isS f.d
            ∧ p.reg = (if isS f.d then f.d.toNat - 0xC0 else f.d.toNat) ∧ p.val = BitVec.ofNat 128 old)

/-- R175, R176: a global or offset access that some participating lane makes at an address that is no multiple of its size
traps MISALIGNED, precisely, with the lanes that made it in the record, and no lane performs its access. -/
def Obligations.MisalignedTraps : Prop := ∀ (i : Instr) (base : Nat) (f : MForm) (s : State) (v : U),
  (((i = .ld f ∨ i = .st f) ∧ base = 64) ∨ ((i = .lds f ∨ i = .sts f ∨ i = .ldk f ∨ i = .stk f) ∧ base = 32)) →
  unitOf s 8 = some v → v.gang.vliw = false →
  let u := v.guarded f.g
  let write := i = .st f ∨ i = .sts f ∨ i = .stk f
  ready u [(f.d, dataW f.w), (f.a, base), (f.x, 32)] = true →
  let bad := u.part.filter fun j => decide (u.ea f base j % (f.w.size : Int) ≠ 0)
  bad ≠ [] →
  exec i s = .next ((takeTrap u.c u.b u.g
    { cause := cMisaligned, write := decide write,
      recs := [{ cause := cMisaligned, addr := BitVec.ofInt 64 (u.ea f base (bad.headD 0)), lanes := bad }] } u.pc u.pc).run s)

/-- Instructions that change no byte of storage when they complete: exchanges, plain and weak loads and stores, queries, join
entries, and reads and writes of special registers. A stamped write in flight may land before one of them (R344). -/
def Obligations.MemoryQuiet : Prop := ∀ (i : Instr) (s : State) (r : Row), quietRow i = some r → r.ok s = true →
  exec i s = .next (r.next s) ∧ (s.sys.stamped = [] → SameBytes s (r.next s))

/-! ## Frames -/

/-- R13, R26, R130: a lane instruction that completes changes its destination in its own participating lanes or slices, the
predicates that it names, its gang's PC, and flags that it raises; nothing else changes. An instruction of the integer families
raises no flag. -/
def Obligations.LaneInstructionsFrame : Prop := ∀ (i : Instr) (l : LaneOp) (s : State) (v : U),
  (intLane i = some l ∨ fpLane i = some l) → l.row.ok s = true → unitOf s l.len = some v →
  let u := v.guarded l.g
  ∃ t, exec i s = .next t ∧ LaneFrame u s t l.d l.o.wd (predsOf i) ∧ (intLane i = some l → FlagsKept u t)

/-- R11, R14: a lane instruction whose destination is `s63` completes and changes no register of any lane and no s-register of any
slice; one whose predicates are all `p7` changes no predicate. -/
def Obligations.HardWiredRegistersDiscard : Prop := ∀ (i : Instr) (l : LaneOp) (s : State) (v : U),
  (intLane i = some l ∨ fpLane i = some l) → l.row.ok s = true → unitOf s l.len = some v →
  ∃ t b, exec i s = .next t ∧ t.block? v.c v.b = some b
    ∧ (l.d = 0xFF → (∀ j k, (b.lane j).reg k = (v.blk.lane j).reg k)
        ∧ ∀ j x, v.blk.slice? j = some x → ∃ y, b.slice? j = some y ∧ ∀ k, y.sreg k = x.sreg k)
    ∧ ((∀ p ∈ predsOf i, p = 7) → ∀ j k, (b.lane j).pred k = (v.blk.lane j).pred k)

/-- R303, R305, R314: an Exdin lane operation, move or exchange that completes changes the home of its destination in its
participating lanes, whether a lane register, an s-register, a predicate or a spilled place, and its gang's PC; flags that were set
stay so. -/
def Obligations.ExdinLaneFrame : Prop := ∀ (i : Instr) (s : State) (r : Row) (x : XU),
  (exLaneTable i = some r ∨ exMoveTable i = some r) → r.ok s = true → crackedUnit s i = some x →
  let dst := match i with | .exNop _ => none | _ => some (x.dst 0)
  let field := dst.bind x.field
  let width := fun (n : Nat) => declW (x.info.decl n)
  let count := fun (w : Nat) => match field with | some f => if isS f || w == 0 then 0 else regCount w | none => 0
  ∃ t b, exec i s = .next t ∧ t.block? x.u.c x.u.b = some b
    ∧ (∀ c k, (c ≠ x.u.c ∨ k ≠ x.u.b) → t.block? c k = s.block? c k)
    ∧ (∀ l, (∀ n, dst = some n → field = none → homeOf (x.info.home n) = 4 → ∀ j ∈ x.u.part,
          ¬ within l (x.slot n j) (width n / 8)) → t.readLoc l = s.readLoc l)
    ∧ (∀ j, j ∉ x.u.part → b.lane j = x.u.blk.lane j)
    ∧ (∀ j, j ∈ x.u.part → LaneKeeps (x.u.blk.lane j) (b.lane j)
        (match field with | some f => f.toNat | none => 0) (match dst with | some n => count (width n) | none => 0)
        (match dst with
          | some n => if field = none ∧ homeOf (x.info.home n) = 2 then [homeIdx (x.info.home n)] else []
          | none => []))
    ∧ (∀ k z, x.u.blk.slice? k = some z → ∃ y, b.slice? k = some y ∧
        if k ∈ x.u.members then
          y.pc = x.u.next ∧ SliceKeeps z y (match field with | some f => if isS f then some (f.toNat - 0xC0) else none | none => none)
        else y = z)

/-- R280 (log 12): an integer computation of a hart writes `rd` alone, unless that is `x0`, which reads zero; the hart goes
on at the next word, and no byte and no block changes. `ADDI`, `ADD` and `LUI` have their values. -/
def Obligations.HartIntegerFrame : Prop := ∀ (w : W32) (s : State) (a : HU),
  (bits 7 w 0).toNat ∈ [0x13, 0x1B, 0x17, 0x33, 0x37, 0x3B] → (hartIf (hartLen w) (hartBase w)).ok s = true →
  hartOf s 4 = some a →
  let rd := (bits 5 w 7).toNat
  let hart := fun (t : State) => if a.st then (t.core a.c).storer else (t.core a.c).loader
  ∃ t, exec (.hartBaseInstruction w) s = .next t ∧ SameBytes s t ∧ (∀ c b, t.block? c b = s.block? c b)
    ∧ hart t = { a.h with x := (hart t).x, pc := a.h.pc + 4, wait := .ready, mcycle := a.h.mcycle + 1, minstret := a.h.minstret + 1 }
    ∧ (∀ k, k ≠ rd → (hart t).reg k = a.h.reg k) ∧ (hart t).reg 0 = 0
    ∧ (rd ≠ 0 → (bits 7 w 0).toNat = 0x13 → bits 3 w 12 = 0 →
        (hart t).reg rd = a.h.reg (bits 5 w 15).toNat + (bits 12 w 20).signExtend 64)
    ∧ (rd ≠ 0 → (bits 7 w 0).toNat = 0x33 → bits 3 w 12 = 0 → bits 7 w 25 = 0 →
        (hart t).reg rd = a.h.reg (bits 5 w 15).toNat + a.h.reg (bits 5 w 20).toNat)
    ∧ (rd ≠ 0 → (bits 7 w 0).toNat = 0x37 → (hart t).reg rd = BitVec.signExtend 64 (bits 20 w 12 ++ 0#12 : BitVec 32))

/-- Instructions without a destination register change no register, predicate or flag of any lane and no s-register of any slice
when they complete. -/
def Obligations.RegistersKept : Prop := ∀ (i : Instr) (s : State) (r : Row), plainRow i = some r → r.ok s = true →
  exec i s = .next (r.next s) ∧ RegsKept s (r.next s)

/-! ## Exceptions -/

/-- R388: what vectoring saves, and where it goes; a thread's bit of the quarter mask is clear in its handler. `r` is the state in
which the gang's earlier instructions have written their results; the cause has a handler at its level, and the core's fault area
can be written (R449). What is written into the fault area is `FaultAreaBytes`. -/
def Obligations.TrapEntry : Prop := ∀ (s : State) (c b g : Nat) (t : TrapReq) (pc resume : W64) (x : Block) (y : Gang)
    (grid : Grid) (ctx : Context),
  let r := (t.pre.andThen (beforeVector c b g)).run s
  r.block? c b = some x → x.gangs.get? g = some y → r.grid? x.grid = some grid → r.ctx? x.ctx = some ctx →
  let sup := supCause t.cause || grid.uh == 0 || !y.frames.isEmpty
  (∀ f ∈ y.frames.head?, f.sup = false) → (sup = true → ctx.sup ≠ 0) →
  r.saveBroken ctx (faultArea c) 0x4000 = false → x.members g ≠ [] →
  let ms := x.members g
  let lanes := fun (q : Rec) => if q.lanes = [] then x.activeLanes ms else q.lanes
  ∃ x' y' f, ((takeTrap c b g t pc resume).run s).block? c b = some x' ∧ x'.gangs.get? g = some y' ∧ y'.frames = f :: y.frames
    ∧ f.sup = sup ∧ f.rpc = resume ∧ f.active = maskOf 64 (x.activeLanes ms) ∧ f.slices = maskOf 16 ms ∧ f.vliw = y.vliw
    ∧ f.loops = y.loops ∧ f.cause = BitVec.ofNat 8 t.cause ∧ f.resumable = !finalCause t.cause
    ∧ (∀ i z, ms.head? = some i → x.slice? i = some z → f.s61 = z.sreg 61 ∧ f.s62 = z.sreg 62)
    ∧ y'.vliw = false ∧ y'.loops = [] ∧ y'.wait = .ready ∧ x'.lanes = x.lanes
    ∧ (∀ j, (((takeTrap c b g t pc resume).run s).core c).qmask.getLsbD j =
        ((r.core c).qmask.getLsbD j && !(y.vliw && j == (ms.map fun i => x.phys.getD i 0).foldl min 15 / 4)))
    ∧ ∀ i z, x.slice? i = some z → ∃ w, x'.slice? i = some w ∧
        if i ∈ ms then
          w.pc = (if sup then ctx.sup else grid.uh) ∧ w.live = z.live ∧ w.gang = z.gang
          ∧ (∀ j, j < 4 → (w.active.getLsbD j = true ↔
              ∃ q ∈ t.recs, (y.vliw = true ∨ q.cause = t.cause) ∧ 4 * i + j ∈ lanes q))
          ∧ w.stack = (if y.vliw then [] else z.stack)
          ∧ (∀ k, k ≠ 61 → k ≠ 62 → w.sreg k = z.sreg k)
          ∧ w.sreg 61 = ctx.saveVa + BitVec.ofNat 64 (frameOff c sup ((ms.map fun i => x.phys.getD i 0).foldl min 15))
          ∧ (∀ q, t.recs = [q] → w.sreg 62 = ctx.saveVa + BitVec.ofNat 64 (recOff c sup (x.physLane ((lanes q).headD 0))))
        else w = z

/-- R389, R391: the bytes that vectoring writes, and no other: each record at the entry of its level and its lowest physical lane, in
ascending order of their lowest lanes and chained by NEXT, with every field at the offset of the table and zero between them; and
the frame of the gang's lowest physical slice. `r` and the premises are those of `TrapEntry`; the loop stack has at most its eight
levels. -/
def Obligations.FaultAreaBytes : Prop := ∀ (s : State) (c b g : Nat) (t : TrapReq) (pc resume : W64) (x : Block) (y : Gang)
    (grid : Grid) (ctx : Context),
  let r := (t.pre.andThen (beforeVector c b g)).run s
  r.block? c b = some x → x.gangs.get? g = some y → r.grid? x.grid = some grid → r.ctx? x.ctx = some ctx →
  let sup := supCause t.cause || grid.uh == 0 || !y.frames.isEmpty
  (∀ f ∈ y.frames.head?, f.sup = false) → (sup = true → ctx.sup ≠ 0) →
  r.saveBroken ctx (faultArea c) 0x4000 = false → x.members g ≠ [] → y.loops.length ≤ 8 →
  let ms := x.members g
  let recs := sortRecs (t.recs.map fun q => if q.lanes.isEmpty then { q with lanes := x.activeLanes ms } else q)
  let entry := fun (q : Rec) => x.physLane (q.lanes.headD 0)
  let bit := fun (v : Bool) (n : Nat) => if v then 2 ^ n else 0
  let flags := fun (q : Rec) (last : Bool) =>
    t.form.getD (bit y.vliw 0 + bit (grid.exdin.isSome && y.frames.isEmpty) 1) + bit (t.write || q.write) 2 + bit t.fetch 3
      + bit t.imprecise 4 + bit (finalCause q.cause) 5 + bit sup 6 + bit last 7
  let record := fun (q : Rec) (next : Option Rec) => layBytes 64 [
    (0, 8, pc.toNat), (8, 8, q.addr.toNat), (16, 8, (maskOf 64 q.lanes).toNat), (24, 4, x.bx.toNat), (28, 4, x.byy.toNat),
    (32, 4, x.bz.toNat), (36, 2, q.slots.toNat), (38, 1, q.cause), (39, 1, flags q next.isNone),
    (40, 1, match next with | some n => entry n | none => 0xFF), (42, 2, x.ctx), (44, 1, x.agent.toNat), (48, 8, q.frame.toNat),
    (56, 8, t.time.getD r.sys.time)]
  let slice := (ms.map fun i => x.phys.getD i 0).foldl min 15
  let low := (ms.head?.bind x.slice?).getD { gang := g, pc := 0, live := 0, active := 0 }
  let frame := layBytes 256 ([
    (0, 8, resume.toNat), (8, 8, (maskOf 64 (x.activeLanes ms)).toNat), (16, 2, (maskOf 16 ms).toNat), (18, 1, if y.vliw then 1 else 0),
    (24, 8, (low.sreg 61).toNat), (32, 8, (low.sreg 62).toNat)]
    ++ y.loops.reverse.zipIdx.flatMap fun e =>
      [(64 + 24 * e.2, 8, e.1.start.toNat), (72 + 24 * e.2, 8, e.1.stop.toNat), (80 + 24 * e.2, 8, e.1.count.toNat)])
  let level := fun (user super_ : Nat) => faultArea c + if sup then super_ else user
  let puts := (Prog.each recs.zipIdx fun e =>
      saveBytes x.ctx (level 0x1000 0 + 64 * entry e.1) (record e.1 recs[e.2 + 1]?)).andThen
    (saveBytes x.ctx (level 0x2000 0x2100 + 512 * slice) frame)
  SameBytes (puts.run r) ((takeTrap c b g t pc resume).run s)

/-- R387, for a cause that finds no handler: one raised in a supervisor handler, or at supervisor level with no handler there.
Where some grid of the context has not ended, every grid of it ends with that cause, every lane of their resident blocks has
exited, and the log says so. A core's fault area whose page cannot be written is an error in control state, and ends them with
ECC-UNCORRECTABLE (R385, R449): the model's choice of cause (log 65). What stands in the log is the model's (logs 67 and 74). -/
def Obligations.NoHandlerEndsContext : Prop := ∀ (s : State) (c b g : Nat) (t : TrapReq) (pc resume : W64) (x : Block) (y : Gang)
    (grid : Grid) (ctx : Context),
  let r := (t.pre.andThen (beforeVector c b g)).run s
  r.block? c b = some x → x.gangs.get? g = some y → r.grid? x.grid = some grid → r.ctx? x.ctx = some ctx → x.members g ≠ [] →
  let sup := supCause t.cause || grid.uh == 0 || !y.frames.isEmpty
  let unhandled := (y.frames.head?.any fun f => f.sup) || (sup && ctx.sup == 0)
  (∃ n h, r.grid? n = some h ∧ h.ctx = x.ctx ∧ h.done = false) →
  (unhandled || r.saveBroken ctx (faultArea c) 0x4000) = true →
  let cause := if unhandled then t.cause else 0x18
  let u := (takeTrap c b g t pc resume).run s
  u.sys.log = r.sys.log ++ [.context x.ctx cause]
    ∧ (∀ n h, r.grid? n = some h → h.ctx = x.ctx → ∃ k, u.grid? n = some k ∧ k.cause = BitVec.ofNat 8 cause ∧ k.done = true ∧ k.armed = false)
    ∧ (∀ n h, r.grid? n = some h → h.ctx = x.ctx → ∀ k i z, u.block? k i = some z → z.grid = n → ∀ w ∈ z.slices, w.live = 0)

/-- R22, R23, R96, R298, R299, R301: at user level, `SWRITE` of `%agent`, `DOCINV` and, without the feature bit of bring-up,
`MSHAPE` trap PRIVILEGED (cause 3), the first and the last with their register in range and, for the last, ready; `HRET`
outside a handler traps ILLEGAL (cause 1). That the record of `HRET`'s ILLEGAL names the participating lanes is the model's choice
(log 70). The engine instructions are `EngineFormsPrivileged`. -/
def Obligations.PrivilegeTraps : Prop := ∀ (f : XForm) (s : State) (v : U), unitOf s 8 = some v → v.gang.vliw = false →
  let trap := fun (cause : Nat) => (takeTrap v.c v.b v.g { cause, recs := [{ cause, lanes := v.active }] } v.pc v.pc).run s
  (v.user = true → f.fld 8 0 = 0x19 → v.regOk f.a 32 = true → exec (.swrite f) s = .next (trap 3))
    ∧ (v.user = true → exec (.docinv f) s = .next (trap 3))
    ∧ (v.user = true → v.feat 3 0 = false → ready (v.guarded f.g) [(f.a, 32)] = true → exec (.mshape f) s = .next (trap 3))
    ∧ (v.gang.frames = [] → ready (v.guarded f.g) [(f.a, 64)] = true → takes (v.guarded f.g) = true →
      exec (.hret f) s = .next ((takeTrap v.c v.b v.g { cause := 1, recs := [{ cause := 1, lanes := (v.guarded f.g).part }] } v.pc v.pc).run s))

/-- R22, R92: at user level, without the feature bit of bring-up, an engine instruction without a parameter block (PB = 0), or one that
is to write the shadow registers (SW = 1), traps PRIVILEGED (cause 3) in its active lanes, whatever its guard, when its word is legal
and its registers are ready. -/
def Obligations.EngineFormsPrivileged : Prop := ∀ (f : XForm) (blk : Option ParamBlock) (s : State) (v : U),
  unitOf s (blkLen blk) = some v → v.gang.vliw = false → v.user = true → v.feat 3 0 = false → (blk = none ∨ f.fld 1 14 = 1) →
  let u := v.guarded f.g
  let trap := (takeTrap v.c v.b v.g { cause := 3, recs := [{ cause := 3, lanes := v.active }] } v.pc v.pc).run s
  (u.blkFeats blk = true → ready u ((f.a, 64) :: blkRegs blk) = true → exec (.mloadw f blk) s = .next trap)
    ∧ (u.blkFeats blk = true → f.d.toNat < v.blk.zpb → ready u ((f.a, 64) :: blkRegs blk) = true →
      exec (.mstream f blk) s = .next trap)
    ∧ (u.mailBad blk = false → ready u ((f.a, 64) :: (f.b, 64) :: blkRegs blk) = true → exec (.cpy f blk) s = .next trap)
    ∧ (u.mailBad blk = false → f.fld 3 9 < (u.parts s).length →
      ready u ((f.d, 64) :: (f.a, 64) :: (f.c, 64) :: blkRegs blk) = true → exec (.cpyAlloc f blk) s = .next trap)

/-- R298, R390: what `HRET` restores when the cause is resumable: the frame goes, the mode and the loop stack are the frame's, and
every slice with a lane of the frame still live stands at the address with those lanes active and `s61` and `s62` as the frame holds
them; the quarter-mask bit is that of the mode. No load of the block is outstanding and no imprecise cause waits in it, and where a
thread goes on, no store of the core is buffered. That lanes which exited in the handler stay out of the active mask is the model's
choice (log 34). From a cause that is not resumable every lane of the grid's blocks ends, and the grid ends with that cause. -/
def Obligations.HretRestores : Prop := ∀ (f : XForm) (s : State) (v : U) (fr : Frame),
  (hretRow f).ok s = true → unitOf s 8 = some v →
  let u := v.guarded f.g
  hretReady u s f = some fr →
  (fr.resumable = true → u.g < u.blk.nextGang → (∀ p ∈ u.core.loads, p.blk ≠ u.b) →
    u.blk.pend = [] → (∀ e ∈ u.blk.gangs, e.2.pend = []) → (fr.vliw = true → u.core.sbuf = []) →
    ∃ t x y, exec (.hret f) s = .next t ∧ t.block? u.c u.b = some x ∧ x.gangs.get? u.g = some y
      ∧ y.frames = u.gang.frames.drop 1 ∧ y.vliw = fr.vliw ∧ y.loops = fr.loops ∧ x.lanes = u.blk.lanes
      ∧ (t.core u.c).qmask.getLsbD u.physQuarter = (fr.vliw || u.core.qmask.getLsbD u.physQuarter)
      ∧ ∀ i z, u.blk.slice? i = some z → ∃ w, x.slice? i = some w ∧
          if i ∈ u.members then
            w.sreg 61 = fr.s61 ∧ w.sreg 62 = fr.s62 ∧ (∀ k, k ≠ 61 → k ≠ 62 → w.sreg k = z.sreg k)
            ∧ (bits 4 fr.active (4 * i) &&& z.live ≠ 0 →
                w.live = z.live ∧ w.active = bits 4 fr.active (4 * i) &&& z.live ∧ w.pc = BitVec.ofNat 64 (u.rd1 f.a 64))
          else w = z)
  ∧ (fr.resumable = false → ∃ t k, exec (.hret f) s = .next t ∧ t.grid? u.blk.grid = some k ∧ k.done = true ∧ k.armed = false
      ∧ k.cause = fr.cause ∧ ∀ c i z, t.block? c i = some z → z.grid = u.blk.grid → ∀ w ∈ z.slices, w.live = 0)

/-! ## Device memory -/

/-- R331: the vault of a unit of 4 KiB, the offset in it and its tower, and that the mapping is a bijection under which the units of
equal `h` lie in different vaults. -/
def Obligations.VaultMap : Prop := ∀ a : Nat, a < 2 ^ 39 →
  let u := fun (x : Nat) => x / 2 ^ 12 % 2 ^ 27
  let h := fun (x : Nat) => u x / 2 ^ 7
  vaultOf a = (u a % 128) ^^^ (h a % 128) ∧ vaultOff a = 4096 * h a + a % 4096 ∧ homeDie a / 2 = vaultOf a / 16
    ∧ (∀ b, b < 2 ^ 39 → vaultOf a = vaultOf b → vaultOff a = vaultOff b → a = b)
    ∧ (∀ b, b < 2 ^ 39 → h a = h b → u a ≠ u b → vaultOf a ≠ vaultOf b)
    ∧ (∀ v o, v < 128 → o < 2 ^ 32 → ∃ b, b < 2 ^ 39 ∧ vaultOf b = v ∧ vaultOff b = o)

end
end

