-- ==== Sys2Proof/Laws/Mem.lean ====
section
/-! SUPPORT. Byte stores and register tables: what a read finds after a write, and that every operation keeps the canonical
form. -/

namespace Sys2Proof.Machine

/-- A bound below the listed addresses may be lowered. -/
theorem cellsFrom_mono {w : Nat} {t : List (Nat × BitVec w)} {lo hi : Nat} (h : cellsFrom hi t = true) (hl : lo ≤ hi) :
    cellsFrom lo t = true := by
  cases t with
  | nil => rfl
  | cons e r =>
    obtain ⟨k, x⟩ := e
    simp only [cellsFrom, Bool.and_eq_true, decide_eq_true_eq] at h ⊢
    exact ⟨⟨by omega, h.1.2⟩, h.2⟩

/-- Writing zero anywhere keeps a canonical list. -/
theorem cellsFrom_cellSet_zero {w : Nat} {t : List (Nat × BitVec w)} {lo a : Nat} (h : cellsFrom lo t = true) :
    cellsFrom lo (cellSet t a 0) = true := by
  induction t generalizing lo with
  | nil => rfl
  | cons e r ih =>
    obtain ⟨k, x⟩ := e
    simp only [cellsFrom, Bool.and_eq_true, decide_eq_true_eq] at h
    obtain ⟨⟨h1, h2⟩, h3⟩ := h
    simp only [cellSet, ↓reduceIte]
    split
    · simp only [cellsFrom, Bool.and_eq_true, decide_eq_true_eq]; exact ⟨⟨h1, h2⟩, ih h3⟩
    · split
      · exact cellsFrom_mono (ih h3) (by omega)
      · simp only [cellsFrom, Bool.and_eq_true, decide_eq_true_eq]; exact ⟨⟨h1, h2⟩, ih h3⟩

theorem cellsFrom_cellSet {w : Nat} {t : List (Nat × BitVec w)} {lo a : Nat} {b : BitVec w} (h : cellsFrom lo t = true)
    (ha : lo ≤ a) : cellsFrom lo (cellSet t a b) = true := by
  by_cases hb : b = 0
  · subst hb; exact cellsFrom_cellSet_zero h
  · induction t generalizing lo with
    | nil => rw [cellSet, if_neg hb]; simpa [cellsFrom, ha] using hb
    | cons e r ih =>
      obtain ⟨k, x⟩ := e
      simp only [cellsFrom, Bool.and_eq_true, decide_eq_true_eq] at h
      obtain ⟨⟨h1, h2⟩, h3⟩ := h
      simp only [cellSet, hb, ↓reduceIte]
      split
      · simp only [cellsFrom, Bool.and_eq_true, decide_eq_true_eq]
        exact ⟨⟨h1, h2⟩, ih h3 (by omega)⟩
      · split
        · subst k; simp only [cellsFrom, Bool.and_eq_true, decide_eq_true_eq]; exact ⟨⟨h1, hb⟩, h3⟩
        · simp only [cellsFrom, Bool.and_eq_true, decide_eq_true_eq]
          exact ⟨⟨ha, hb⟩, ⟨by omega, h2⟩, h3⟩

/-- A read after a write, in any list. -/
theorem cellGet_cellSet {w : Nat} (t : List (Nat × BitVec w)) (a c : Nat) (b : BitVec w) :
    cellGet (cellSet t a b) c = if c = a then b else cellGet t c := by
  induction t with
  | nil => simp only [cellSet]; split <;> grind [cellGet]
  | cons e r ih =>
    obtain ⟨k, x⟩ := e
    simp only [cellSet]
    split
    · simp only [cellGet, ih]; grind
    · split
      · subst k
        split
        · rw [ih]; simp only [cellGet]; grind
        · simp only [cellGet]; grind
      · split
        · simp only [cellGet, ih]; grind
        · simp only [cellGet]; grind

theorem Mem.wf_nil : Mem.wf [] = true := rfl

theorem Mem.wf_write {m : Mem} (a : Nat) (b : Byte) (h : m.wf = true) : (m.write a b).wf = true :=
  cellsFrom_cellSet h (Nat.zero_le a)

theorem Mem.wf_writeAll {m : Mem} (a : Nat) (bs : List Byte) (h : m.wf = true) : (m.writeAll a bs).wf = true := by
  induction bs generalizing m a with
  | nil => exact h
  | cons b bs ih => exact ih _ (Mem.wf_write a b h)

theorem Mem.read_write (m : Mem) (a c : Nat) (b : Byte) :
    (m.write a b).read c = if c = a then b else m.read c := cellGet_cellSet m a c b

/-- A read after a write of several bytes. -/
theorem Mem.read_writeAll (m : Mem) (a c : Nat) (bs : List Byte) :
    (m.writeAll a bs).read c = if a ≤ c ∧ c < a + bs.length then bs.getD (c - a) 0 else m.read c := by
  induction bs generalizing m a with
  | nil => simp [Mem.writeAll] <;> omega
  | cons b bs ih =>
    simp only [Mem.writeAll, ih _ (a + 1), Mem.read_write, List.length_cons]
    by_cases h1 : c = a
    · subst c; rw [if_neg (by omega), if_pos rfl, if_pos (by omega), Nat.sub_self]; rfl
    · by_cases h2 : a + 1 ≤ c ∧ c < a + 1 + bs.length
      · rw [if_pos h2, if_pos (by omega), show c - a = (c - (a + 1)) + 1 by omega, List.getD_cons_succ]
      · rw [if_neg h2, if_neg h1, if_neg (by omega)]

theorem cellsFrom_filter {w : Nat} {t : List (Nat × BitVec w)} {lo : Nat} (f : Nat × BitVec w → Bool)
    (h : cellsFrom lo t = true) : cellsFrom lo (t.filter f) = true := by
  induction t generalizing lo with
  | nil => rfl
  | cons e r ih =>
    obtain ⟨k, x⟩ := e
    simp only [cellsFrom, Bool.and_eq_true, decide_eq_true_eq] at h
    obtain ⟨⟨h1, h2⟩, h3⟩ := h
    rw [List.filter_cons]
    split
    · simp only [cellsFrom, Bool.and_eq_true, decide_eq_true_eq]; exact ⟨⟨h1, h2⟩, ih h3⟩
    · exact cellsFrom_mono (ih h3) (by omega)

theorem Mem.wf_zero {m : Mem} (a n : Nat) (h : m.wf = true) : (m.zero a n).wf = true := cellsFrom_filter _ h

theorem cellGet_filter {w : Nat} (t : List (Nat × BitVec w)) (p : Nat → Bool) (c : Nat) :
    cellGet (t.filter fun e => p e.1) c = if p c then cellGet t c else 0 := by
  induction t with
  | nil => simp [cellGet]
  | cons e r ih =>
    obtain ⟨k, x⟩ := e
    rw [List.filter_cons]
    by_cases hk : k = c
    · subst k; cases hp : p c <;> simp_all [cellGet]
    · cases hp : p k <;> simp_all [cellGet]

theorem Mem.read_zero (m : Mem) (a n c : Nat) : (m.zero a n).read c = if a ≤ c ∧ c < a + n then 0 else m.read c := by
  unfold Mem.zero Mem.read
  rw [cellGet_filter m (fun k => decide (k < a) || decide (a + n ≤ k)) c]
  by_cases h : a ≤ c ∧ c < a + n
  · rw [if_pos h, if_neg]; simp; omega
  · rw [if_neg h, if_pos]; simp; omega

theorem Mem.bytes_length (m : Mem) (a n : Nat) : (m.bytes a n).length = n := by
  induction n generalizing a with
  | zero => rfl
  | succ n ih => simp [Mem.bytes, ih]

/-- Bytes read back are those just written. -/
theorem Mem.bytes_writeAll (m : Mem) (a : Nat) (bs : List Byte) :
    (m.writeAll a bs).bytes a bs.length = bs := by
  suffices H : ∀ (k : Nat) (l : List Byte), (∀ i, i < l.length → (m.writeAll a bs).read (k + i) = l.getD i 0) →
      (m.writeAll a bs).bytes k l.length = l by
    refine H a bs fun i hi => ?_
    rw [Mem.read_writeAll, if_pos (by omega)]; simp
  intro k l hl
  induction l generalizing k with
  | nil => rfl
  | cons b l ih =>
    simp only [List.length_cons, Mem.bytes]
    have h0 := hl 0 (by simp)
    simp at h0
    rw [h0, ih (k + 1) fun i hi => ?_]
    have := hl (i + 1) (by simp; omega)
    rw [show k + 1 + i = k + (i + 1) by omega, this, List.getD_cons_succ]

theorem leBytes_length (x n : Nat) : (leBytes x n).length = n := by
  induction n generalizing x with
  | zero => rfl
  | succ n ih => simp [leBytes, ih]

/-- Bytes of a number, read back as a number (R1). -/
theorem leNat_leBytes (x n : Nat) : leNat (leBytes x n) = x % 256 ^ n := by
  induction n generalizing x with
  | zero => simp [leBytes, leNat, Nat.mod_one]
  | succ n ih =>
    simp only [leBytes, leNat, ih, BitVec.toNat_ofNat]
    rw [Nat.pow_succ 256 n, Nat.mul_comm (256 ^ n) 256, Nat.mod_mul]

/-- `leNat` is below the number of values of its bytes. -/
theorem leNat_lt (l : List Byte) : leNat l < 256 ^ l.length := by
  induction l with
  | nil => simp [leNat]
  | cons b r ih =>
    simp only [leNat, List.length_cons, Nat.pow_succ]
    have := b.isLt
    omega

end Sys2Proof.Machine
end

