-- ==== Sys2Proof/Laws/State.lean ====
section
/-! SUPPORT. What each effect of a meaning does to each field of the state: one lemma per field per update. -/

namespace Sys2Proof.Machine

variable (s : State)

@[simp] theorem Eff.apply_core_mem (c : Nat) (f : Core → Core) : (Eff.apply (Eff.core c f) s).mem = s.mem := rfl
@[simp] theorem Eff.apply_core_ext (c : Nat) (f : Core → Core) : (Eff.apply (Eff.core c f) s).ext = s.ext := rfl
@[simp] theorem Eff.apply_core_held (c : Nat) (f : Core → Core) : (Eff.apply (Eff.core c f) s).held = s.held := rfl
@[simp] theorem Eff.apply_core_cores (c : Nat) (f : Core → Core) : (Eff.apply (Eff.core c f) s).cores = s.cores.set c ((s.core c).update f) := rfl
@[simp] theorem Eff.apply_core_clusters (c : Nat) (f : Core → Core) : (Eff.apply (Eff.core c f) s).clusters = s.clusters := rfl
@[simp] theorem Eff.apply_core_ctxs (c : Nat) (f : Core → Core) : (Eff.apply (Eff.core c f) s).ctxs = s.ctxs := rfl
@[simp] theorem Eff.apply_core_grids (c : Nat) (f : Core → Core) : (Eff.apply (Eff.core c f) s).grids = s.grids := rfl
@[simp] theorem Eff.apply_core_sys (c : Nat) (f : Core → Core) : (Eff.apply (Eff.core c f) s).sys = s.sys := rfl
@[simp] theorem Eff.apply_core_agenda (c : Nat) (f : Core → Core) : (Eff.apply (Eff.core c f) s).agenda = s.agenda := rfl
@[simp] theorem Eff.apply_core_cur (c : Nat) (f : Core → Core) : (Eff.apply (Eff.core c f) s).cur = s.cur := rfl
@[simp] theorem Eff.apply_core_args (c : Nat) (f : Core → Core) : (Eff.apply (Eff.core c f) s).args = s.args := rfl
@[simp] theorem Eff.apply_core_free (c : Nat) (f : Core → Core) : (Eff.apply (Eff.core c f) s).free = s.free := rfl

@[simp] theorem Eff.apply_clus_mem (k : Nat) (f : Cluster → Cluster) : (Eff.apply (Eff.clus k f) s).mem = s.mem := rfl
@[simp] theorem Eff.apply_clus_ext (k : Nat) (f : Cluster → Cluster) : (Eff.apply (Eff.clus k f) s).ext = s.ext := rfl
@[simp] theorem Eff.apply_clus_held (k : Nat) (f : Cluster → Cluster) : (Eff.apply (Eff.clus k f) s).held = s.held := rfl
@[simp] theorem Eff.apply_clus_cores (k : Nat) (f : Cluster → Cluster) : (Eff.apply (Eff.clus k f) s).cores = s.cores := rfl
@[simp] theorem Eff.apply_clus_clusters (k : Nat) (f : Cluster → Cluster) : (Eff.apply (Eff.clus k f) s).clusters = s.clusters.set k ((s.cluster k).update f) := rfl
@[simp] theorem Eff.apply_clus_ctxs (k : Nat) (f : Cluster → Cluster) : (Eff.apply (Eff.clus k f) s).ctxs = s.ctxs := rfl
@[simp] theorem Eff.apply_clus_grids (k : Nat) (f : Cluster → Cluster) : (Eff.apply (Eff.clus k f) s).grids = s.grids := rfl
@[simp] theorem Eff.apply_clus_sys (k : Nat) (f : Cluster → Cluster) : (Eff.apply (Eff.clus k f) s).sys = s.sys := rfl
@[simp] theorem Eff.apply_clus_agenda (k : Nat) (f : Cluster → Cluster) : (Eff.apply (Eff.clus k f) s).agenda = s.agenda := rfl
@[simp] theorem Eff.apply_clus_cur (k : Nat) (f : Cluster → Cluster) : (Eff.apply (Eff.clus k f) s).cur = s.cur := rfl
@[simp] theorem Eff.apply_clus_args (k : Nat) (f : Cluster → Cluster) : (Eff.apply (Eff.clus k f) s).args = s.args := rfl
@[simp] theorem Eff.apply_clus_free (k : Nat) (f : Cluster → Cluster) : (Eff.apply (Eff.clus k f) s).free = s.free := rfl

@[simp] theorem Eff.apply_ctx_mem (x : Nat) (f : Context → Context) : (Eff.apply (Eff.ctx x f) s).mem = s.mem := rfl
@[simp] theorem Eff.apply_ctx_ext (x : Nat) (f : Context → Context) : (Eff.apply (Eff.ctx x f) s).ext = s.ext := rfl
@[simp] theorem Eff.apply_ctx_held (x : Nat) (f : Context → Context) : (Eff.apply (Eff.ctx x f) s).held = s.held := rfl
@[simp] theorem Eff.apply_ctx_cores (x : Nat) (f : Context → Context) : (Eff.apply (Eff.ctx x f) s).cores = s.cores := rfl
@[simp] theorem Eff.apply_ctx_clusters (x : Nat) (f : Context → Context) : (Eff.apply (Eff.ctx x f) s).clusters = s.clusters := rfl
@[simp] theorem Eff.apply_ctx_ctxs (x : Nat) (f : Context → Context) : (Eff.apply (Eff.ctx x f) s).ctxs = s.ctxs.modify x f := rfl
@[simp] theorem Eff.apply_ctx_grids (x : Nat) (f : Context → Context) : (Eff.apply (Eff.ctx x f) s).grids = s.grids := rfl
@[simp] theorem Eff.apply_ctx_sys (x : Nat) (f : Context → Context) : (Eff.apply (Eff.ctx x f) s).sys = s.sys := rfl
@[simp] theorem Eff.apply_ctx_agenda (x : Nat) (f : Context → Context) : (Eff.apply (Eff.ctx x f) s).agenda = s.agenda := rfl
@[simp] theorem Eff.apply_ctx_cur (x : Nat) (f : Context → Context) : (Eff.apply (Eff.ctx x f) s).cur = s.cur := rfl
@[simp] theorem Eff.apply_ctx_args (x : Nat) (f : Context → Context) : (Eff.apply (Eff.ctx x f) s).args = s.args := rfl
@[simp] theorem Eff.apply_ctx_free (x : Nat) (f : Context → Context) : (Eff.apply (Eff.ctx x f) s).free = s.free := rfl

@[simp] theorem Eff.apply_newCtx_mem (x : Nat) (v : Context) : (Eff.apply (Eff.newCtx x v) s).mem = s.mem := rfl
@[simp] theorem Eff.apply_newCtx_ext (x : Nat) (v : Context) : (Eff.apply (Eff.newCtx x v) s).ext = s.ext := rfl
@[simp] theorem Eff.apply_newCtx_held (x : Nat) (v : Context) : (Eff.apply (Eff.newCtx x v) s).held = s.held := rfl
@[simp] theorem Eff.apply_newCtx_cores (x : Nat) (v : Context) : (Eff.apply (Eff.newCtx x v) s).cores = s.cores := rfl
@[simp] theorem Eff.apply_newCtx_clusters (x : Nat) (v : Context) : (Eff.apply (Eff.newCtx x v) s).clusters = s.clusters := rfl
@[simp] theorem Eff.apply_newCtx_ctxs (x : Nat) (v : Context) : (Eff.apply (Eff.newCtx x v) s).ctxs = s.ctxs.set x v := rfl
@[simp] theorem Eff.apply_newCtx_grids (x : Nat) (v : Context) : (Eff.apply (Eff.newCtx x v) s).grids = s.grids := rfl
@[simp] theorem Eff.apply_newCtx_sys (x : Nat) (v : Context) : (Eff.apply (Eff.newCtx x v) s).sys = s.sys := rfl
@[simp] theorem Eff.apply_newCtx_agenda (x : Nat) (v : Context) : (Eff.apply (Eff.newCtx x v) s).agenda = s.agenda := rfl
@[simp] theorem Eff.apply_newCtx_cur (x : Nat) (v : Context) : (Eff.apply (Eff.newCtx x v) s).cur = s.cur := rfl
@[simp] theorem Eff.apply_newCtx_args (x : Nat) (v : Context) : (Eff.apply (Eff.newCtx x v) s).args = s.args := rfl
@[simp] theorem Eff.apply_newCtx_free (x : Nat) (v : Context) : (Eff.apply (Eff.newCtx x v) s).free = s.free := rfl

@[simp] theorem Eff.apply_delCtx_mem (x : Nat) : (Eff.apply (Eff.delCtx x) s).mem = s.mem := rfl
@[simp] theorem Eff.apply_delCtx_ext (x : Nat) : (Eff.apply (Eff.delCtx x) s).ext = s.ext := rfl
@[simp] theorem Eff.apply_delCtx_held (x : Nat) : (Eff.apply (Eff.delCtx x) s).held = s.held := rfl
@[simp] theorem Eff.apply_delCtx_cores (x : Nat) : (Eff.apply (Eff.delCtx x) s).cores = s.cores := rfl
@[simp] theorem Eff.apply_delCtx_clusters (x : Nat) : (Eff.apply (Eff.delCtx x) s).clusters = s.clusters := rfl
@[simp] theorem Eff.apply_delCtx_ctxs (x : Nat) : (Eff.apply (Eff.delCtx x) s).ctxs = s.ctxs.del x := rfl
@[simp] theorem Eff.apply_delCtx_grids (x : Nat) : (Eff.apply (Eff.delCtx x) s).grids = s.grids := rfl
@[simp] theorem Eff.apply_delCtx_sys (x : Nat) : (Eff.apply (Eff.delCtx x) s).sys = s.sys := rfl
@[simp] theorem Eff.apply_delCtx_agenda (x : Nat) : (Eff.apply (Eff.delCtx x) s).agenda = s.agenda := rfl
@[simp] theorem Eff.apply_delCtx_cur (x : Nat) : (Eff.apply (Eff.delCtx x) s).cur = s.cur := rfl
@[simp] theorem Eff.apply_delCtx_args (x : Nat) : (Eff.apply (Eff.delCtx x) s).args = s.args := rfl
@[simp] theorem Eff.apply_delCtx_free (x : Nat) : (Eff.apply (Eff.delCtx x) s).free = s.free := rfl

@[simp] theorem Eff.apply_grid_mem (g : Nat) (f : Grid → Grid) : (Eff.apply (Eff.grid g f) s).mem = s.mem := rfl
@[simp] theorem Eff.apply_grid_ext (g : Nat) (f : Grid → Grid) : (Eff.apply (Eff.grid g f) s).ext = s.ext := rfl
@[simp] theorem Eff.apply_grid_held (g : Nat) (f : Grid → Grid) : (Eff.apply (Eff.grid g f) s).held = s.held := rfl
@[simp] theorem Eff.apply_grid_cores (g : Nat) (f : Grid → Grid) : (Eff.apply (Eff.grid g f) s).cores = s.cores := rfl
@[simp] theorem Eff.apply_grid_clusters (g : Nat) (f : Grid → Grid) : (Eff.apply (Eff.grid g f) s).clusters = s.clusters := rfl
@[simp] theorem Eff.apply_grid_ctxs (g : Nat) (f : Grid → Grid) : (Eff.apply (Eff.grid g f) s).ctxs = s.ctxs := rfl
@[simp] theorem Eff.apply_grid_grids (g : Nat) (f : Grid → Grid) : (Eff.apply (Eff.grid g f) s).grids = s.grids.modify g f := rfl
@[simp] theorem Eff.apply_grid_sys (g : Nat) (f : Grid → Grid) : (Eff.apply (Eff.grid g f) s).sys = s.sys := rfl
@[simp] theorem Eff.apply_grid_agenda (g : Nat) (f : Grid → Grid) : (Eff.apply (Eff.grid g f) s).agenda = s.agenda := rfl
@[simp] theorem Eff.apply_grid_cur (g : Nat) (f : Grid → Grid) : (Eff.apply (Eff.grid g f) s).cur = s.cur := rfl
@[simp] theorem Eff.apply_grid_args (g : Nat) (f : Grid → Grid) : (Eff.apply (Eff.grid g f) s).args = s.args := rfl
@[simp] theorem Eff.apply_grid_free (g : Nat) (f : Grid → Grid) : (Eff.apply (Eff.grid g f) s).free = s.free := rfl

@[simp] theorem Eff.apply_newGrid_mem (g : Nat) (v : Grid) : (Eff.apply (Eff.newGrid g v) s).mem = s.mem := rfl
@[simp] theorem Eff.apply_newGrid_ext (g : Nat) (v : Grid) : (Eff.apply (Eff.newGrid g v) s).ext = s.ext := rfl
@[simp] theorem Eff.apply_newGrid_held (g : Nat) (v : Grid) : (Eff.apply (Eff.newGrid g v) s).held = s.held := rfl
@[simp] theorem Eff.apply_newGrid_cores (g : Nat) (v : Grid) : (Eff.apply (Eff.newGrid g v) s).cores = s.cores := rfl
@[simp] theorem Eff.apply_newGrid_clusters (g : Nat) (v : Grid) : (Eff.apply (Eff.newGrid g v) s).clusters = s.clusters := rfl
@[simp] theorem Eff.apply_newGrid_ctxs (g : Nat) (v : Grid) : (Eff.apply (Eff.newGrid g v) s).ctxs = s.ctxs := rfl
@[simp] theorem Eff.apply_newGrid_grids (g : Nat) (v : Grid) : (Eff.apply (Eff.newGrid g v) s).grids = s.grids.set g v := rfl
@[simp] theorem Eff.apply_newGrid_sys (g : Nat) (v : Grid) : (Eff.apply (Eff.newGrid g v) s).sys = s.sys := rfl
@[simp] theorem Eff.apply_newGrid_agenda (g : Nat) (v : Grid) : (Eff.apply (Eff.newGrid g v) s).agenda = s.agenda := rfl
@[simp] theorem Eff.apply_newGrid_cur (g : Nat) (v : Grid) : (Eff.apply (Eff.newGrid g v) s).cur = s.cur := rfl
@[simp] theorem Eff.apply_newGrid_args (g : Nat) (v : Grid) : (Eff.apply (Eff.newGrid g v) s).args = s.args := rfl
@[simp] theorem Eff.apply_newGrid_free (g : Nat) (v : Grid) : (Eff.apply (Eff.newGrid g v) s).free = s.free := rfl

@[simp] theorem Eff.apply_delGrid_mem (g : Nat) : (Eff.apply (Eff.delGrid g) s).mem = s.mem := rfl
@[simp] theorem Eff.apply_delGrid_ext (g : Nat) : (Eff.apply (Eff.delGrid g) s).ext = s.ext := rfl
@[simp] theorem Eff.apply_delGrid_held (g : Nat) : (Eff.apply (Eff.delGrid g) s).held = s.held := rfl
@[simp] theorem Eff.apply_delGrid_cores (g : Nat) : (Eff.apply (Eff.delGrid g) s).cores = s.cores := rfl
@[simp] theorem Eff.apply_delGrid_clusters (g : Nat) : (Eff.apply (Eff.delGrid g) s).clusters = s.clusters := rfl
@[simp] theorem Eff.apply_delGrid_ctxs (g : Nat) : (Eff.apply (Eff.delGrid g) s).ctxs = s.ctxs := rfl
@[simp] theorem Eff.apply_delGrid_grids (g : Nat) : (Eff.apply (Eff.delGrid g) s).grids = s.grids.del g := rfl
@[simp] theorem Eff.apply_delGrid_sys (g : Nat) : (Eff.apply (Eff.delGrid g) s).sys = s.sys := rfl
@[simp] theorem Eff.apply_delGrid_agenda (g : Nat) : (Eff.apply (Eff.delGrid g) s).agenda = s.agenda := rfl
@[simp] theorem Eff.apply_delGrid_cur (g : Nat) : (Eff.apply (Eff.delGrid g) s).cur = s.cur := rfl
@[simp] theorem Eff.apply_delGrid_args (g : Nat) : (Eff.apply (Eff.delGrid g) s).args = s.args := rfl
@[simp] theorem Eff.apply_delGrid_free (g : Nat) : (Eff.apply (Eff.delGrid g) s).free = s.free := rfl

@[simp] theorem Eff.apply_sys_mem (f : Sys → Sys) : (Eff.apply (Eff.sys f) s).mem = s.mem := rfl
@[simp] theorem Eff.apply_sys_ext (f : Sys → Sys) : (Eff.apply (Eff.sys f) s).ext = s.ext := rfl
@[simp] theorem Eff.apply_sys_held (f : Sys → Sys) : (Eff.apply (Eff.sys f) s).held = s.held := rfl
@[simp] theorem Eff.apply_sys_cores (f : Sys → Sys) : (Eff.apply (Eff.sys f) s).cores = s.cores := rfl
@[simp] theorem Eff.apply_sys_clusters (f : Sys → Sys) : (Eff.apply (Eff.sys f) s).clusters = s.clusters := rfl
@[simp] theorem Eff.apply_sys_ctxs (f : Sys → Sys) : (Eff.apply (Eff.sys f) s).ctxs = s.ctxs := rfl
@[simp] theorem Eff.apply_sys_grids (f : Sys → Sys) : (Eff.apply (Eff.sys f) s).grids = s.grids := rfl
@[simp] theorem Eff.apply_sys_sys (f : Sys → Sys) : (Eff.apply (Eff.sys f) s).sys = f s.sys := rfl
@[simp] theorem Eff.apply_sys_agenda (f : Sys → Sys) : (Eff.apply (Eff.sys f) s).agenda = s.agenda := rfl
@[simp] theorem Eff.apply_sys_cur (f : Sys → Sys) : (Eff.apply (Eff.sys f) s).cur = s.cur := rfl
@[simp] theorem Eff.apply_sys_args (f : Sys → Sys) : (Eff.apply (Eff.sys f) s).args = s.args := rfl
@[simp] theorem Eff.apply_sys_free (f : Sys → Sys) : (Eff.apply (Eff.sys f) s).free = s.free := rfl

@[simp] theorem Eff.apply_held_mem (f : List (Nat × Byte × Bool) → List (Nat × Byte × Bool)) : (Eff.apply (Eff.held f) s).mem = s.mem := rfl
@[simp] theorem Eff.apply_held_ext (f : List (Nat × Byte × Bool) → List (Nat × Byte × Bool)) : (Eff.apply (Eff.held f) s).ext = s.ext := rfl
@[simp] theorem Eff.apply_held_held (f : List (Nat × Byte × Bool) → List (Nat × Byte × Bool)) : (Eff.apply (Eff.held f) s).held = f s.held := rfl
@[simp] theorem Eff.apply_held_cores (f : List (Nat × Byte × Bool) → List (Nat × Byte × Bool)) : (Eff.apply (Eff.held f) s).cores = s.cores := rfl
@[simp] theorem Eff.apply_held_clusters (f : List (Nat × Byte × Bool) → List (Nat × Byte × Bool)) : (Eff.apply (Eff.held f) s).clusters = s.clusters := rfl
@[simp] theorem Eff.apply_held_ctxs (f : List (Nat × Byte × Bool) → List (Nat × Byte × Bool)) : (Eff.apply (Eff.held f) s).ctxs = s.ctxs := rfl
@[simp] theorem Eff.apply_held_grids (f : List (Nat × Byte × Bool) → List (Nat × Byte × Bool)) : (Eff.apply (Eff.held f) s).grids = s.grids := rfl
@[simp] theorem Eff.apply_held_sys (f : List (Nat × Byte × Bool) → List (Nat × Byte × Bool)) : (Eff.apply (Eff.held f) s).sys = s.sys := rfl
@[simp] theorem Eff.apply_held_agenda (f : List (Nat × Byte × Bool) → List (Nat × Byte × Bool)) : (Eff.apply (Eff.held f) s).agenda = s.agenda := rfl
@[simp] theorem Eff.apply_held_cur (f : List (Nat × Byte × Bool) → List (Nat × Byte × Bool)) : (Eff.apply (Eff.held f) s).cur = s.cur := rfl
@[simp] theorem Eff.apply_held_args (f : List (Nat × Byte × Bool) → List (Nat × Byte × Bool)) : (Eff.apply (Eff.held f) s).args = s.args := rfl
@[simp] theorem Eff.apply_held_free (f : List (Nat × Byte × Bool) → List (Nat × Byte × Bool)) : (Eff.apply (Eff.held f) s).free = s.free := rfl

@[simp] theorem Eff.apply_cur_mem (a : Agent) : (Eff.apply (Eff.cur a) s).mem = s.mem := rfl
@[simp] theorem Eff.apply_cur_ext (a : Agent) : (Eff.apply (Eff.cur a) s).ext = s.ext := rfl
@[simp] theorem Eff.apply_cur_held (a : Agent) : (Eff.apply (Eff.cur a) s).held = s.held := rfl
@[simp] theorem Eff.apply_cur_cores (a : Agent) : (Eff.apply (Eff.cur a) s).cores = s.cores := rfl
@[simp] theorem Eff.apply_cur_clusters (a : Agent) : (Eff.apply (Eff.cur a) s).clusters = s.clusters := rfl
@[simp] theorem Eff.apply_cur_ctxs (a : Agent) : (Eff.apply (Eff.cur a) s).ctxs = s.ctxs := rfl
@[simp] theorem Eff.apply_cur_grids (a : Agent) : (Eff.apply (Eff.cur a) s).grids = s.grids := rfl
@[simp] theorem Eff.apply_cur_sys (a : Agent) : (Eff.apply (Eff.cur a) s).sys = s.sys := rfl
@[simp] theorem Eff.apply_cur_agenda (a : Agent) : (Eff.apply (Eff.cur a) s).agenda = s.agenda := rfl
@[simp] theorem Eff.apply_cur_cur (a : Agent) : (Eff.apply (Eff.cur a) s).cur = a := rfl
@[simp] theorem Eff.apply_cur_args (a : Agent) : (Eff.apply (Eff.cur a) s).args = s.args := rfl
@[simp] theorem Eff.apply_cur_free (a : Agent) : (Eff.apply (Eff.cur a) s).free = s.free := rfl

@[simp] theorem Eff.apply_draw_mem : (Eff.apply Eff.draw s).mem = s.mem := rfl
@[simp] theorem Eff.apply_draw_ext : (Eff.apply Eff.draw s).ext = s.ext := rfl
@[simp] theorem Eff.apply_draw_held : (Eff.apply Eff.draw s).held = s.held := rfl
@[simp] theorem Eff.apply_draw_cores : (Eff.apply Eff.draw s).cores = s.cores := rfl
@[simp] theorem Eff.apply_draw_clusters : (Eff.apply Eff.draw s).clusters = s.clusters := rfl
@[simp] theorem Eff.apply_draw_ctxs : (Eff.apply Eff.draw s).ctxs = s.ctxs := rfl
@[simp] theorem Eff.apply_draw_grids : (Eff.apply Eff.draw s).grids = s.grids := rfl
@[simp] theorem Eff.apply_draw_sys : (Eff.apply Eff.draw s).sys = s.sys := rfl
@[simp] theorem Eff.apply_draw_agenda : (Eff.apply Eff.draw s).agenda = s.agenda := rfl
@[simp] theorem Eff.apply_draw_cur : (Eff.apply Eff.draw s).cur = s.cur := rfl
@[simp] theorem Eff.apply_draw_args : (Eff.apply Eff.draw s).args = s.args := rfl
@[simp] theorem Eff.apply_draw_free : (Eff.apply Eff.draw s).free = s.free + 1 := rfl

@[simp] theorem State.writeLoc_ctxs (l : Loc) (bs : List Byte) : (s.writeLoc l bs).ctxs = s.ctxs := by
  unfold State.writeLoc; split <;> rfl
@[simp] theorem Eff.apply_write_ctxs (l : Loc) (bs : List Byte) : (Eff.apply (.write l bs) s).ctxs = s.ctxs :=
  State.writeLoc_ctxs s l bs
@[simp] theorem State.writeLoc_grids (l : Loc) (bs : List Byte) : (s.writeLoc l bs).grids = s.grids := by
  unfold State.writeLoc; split <;> rfl
@[simp] theorem Eff.apply_write_grids (l : Loc) (bs : List Byte) : (Eff.apply (.write l bs) s).grids = s.grids :=
  State.writeLoc_grids s l bs
@[simp] theorem State.writeLoc_sys (l : Loc) (bs : List Byte) : (s.writeLoc l bs).sys = s.sys := by
  unfold State.writeLoc; split <;> rfl
@[simp] theorem Eff.apply_write_sys (l : Loc) (bs : List Byte) : (Eff.apply (.write l bs) s).sys = s.sys :=
  State.writeLoc_sys s l bs
@[simp] theorem State.writeLoc_agenda (l : Loc) (bs : List Byte) : (s.writeLoc l bs).agenda = s.agenda := by
  unfold State.writeLoc; split <;> rfl
@[simp] theorem Eff.apply_write_agenda (l : Loc) (bs : List Byte) : (Eff.apply (.write l bs) s).agenda = s.agenda :=
  State.writeLoc_agenda s l bs
@[simp] theorem State.writeLoc_cur (l : Loc) (bs : List Byte) : (s.writeLoc l bs).cur = s.cur := by
  unfold State.writeLoc; split <;> rfl
@[simp] theorem Eff.apply_write_cur (l : Loc) (bs : List Byte) : (Eff.apply (.write l bs) s).cur = s.cur :=
  State.writeLoc_cur s l bs
@[simp] theorem State.writeLoc_args (l : Loc) (bs : List Byte) : (s.writeLoc l bs).args = s.args := by
  unfold State.writeLoc; split <;> rfl
@[simp] theorem Eff.apply_write_args (l : Loc) (bs : List Byte) : (Eff.apply (.write l bs) s).args = s.args :=
  State.writeLoc_args s l bs
@[simp] theorem State.writeLoc_free (l : Loc) (bs : List Byte) : (s.writeLoc l bs).free = s.free := by
  unfold State.writeLoc; split <;> rfl
@[simp] theorem Eff.apply_write_free (l : Loc) (bs : List Byte) : (Eff.apply (.write l bs) s).free = s.free :=
  State.writeLoc_free s l bs

@[simp] theorem State.zeroLoc_ctxs (l : Loc) (n : Nat) : (s.zeroLoc l n).ctxs = s.ctxs := by
  unfold State.zeroLoc; split <;> rfl
@[simp] theorem Eff.apply_zero_ctxs (l : Loc) (n : Nat) : (Eff.apply (.zero l n) s).ctxs = s.ctxs :=
  State.zeroLoc_ctxs s l n
@[simp] theorem State.zeroLoc_grids (l : Loc) (n : Nat) : (s.zeroLoc l n).grids = s.grids := by
  unfold State.zeroLoc; split <;> rfl
@[simp] theorem Eff.apply_zero_grids (l : Loc) (n : Nat) : (Eff.apply (.zero l n) s).grids = s.grids :=
  State.zeroLoc_grids s l n
@[simp] theorem State.zeroLoc_sys (l : Loc) (n : Nat) : (s.zeroLoc l n).sys = s.sys := by
  unfold State.zeroLoc; split <;> rfl
@[simp] theorem Eff.apply_zero_sys (l : Loc) (n : Nat) : (Eff.apply (.zero l n) s).sys = s.sys :=
  State.zeroLoc_sys s l n
@[simp] theorem State.zeroLoc_agenda (l : Loc) (n : Nat) : (s.zeroLoc l n).agenda = s.agenda := by
  unfold State.zeroLoc; split <;> rfl
@[simp] theorem Eff.apply_zero_agenda (l : Loc) (n : Nat) : (Eff.apply (.zero l n) s).agenda = s.agenda :=
  State.zeroLoc_agenda s l n
@[simp] theorem State.zeroLoc_cur (l : Loc) (n : Nat) : (s.zeroLoc l n).cur = s.cur := by
  unfold State.zeroLoc; split <;> rfl
@[simp] theorem Eff.apply_zero_cur (l : Loc) (n : Nat) : (Eff.apply (.zero l n) s).cur = s.cur :=
  State.zeroLoc_cur s l n
@[simp] theorem State.zeroLoc_args (l : Loc) (n : Nat) : (s.zeroLoc l n).args = s.args := by
  unfold State.zeroLoc; split <;> rfl
@[simp] theorem Eff.apply_zero_args (l : Loc) (n : Nat) : (Eff.apply (.zero l n) s).args = s.args :=
  State.zeroLoc_args s l n
@[simp] theorem State.zeroLoc_free (l : Loc) (n : Nat) : (s.zeroLoc l n).free = s.free := by
  unfold State.zeroLoc; split <;> rfl
@[simp] theorem Eff.apply_zero_free (l : Loc) (n : Nat) : (Eff.apply (.zero l n) s).free = s.free :=
  State.zeroLoc_free s l n
@[simp] theorem State.zeroLoc_held (l : Loc) (n : Nat) : (s.zeroLoc l n).held = s.held := by
  unfold State.zeroLoc; split <;> rfl
@[simp] theorem Eff.apply_zero_held (l : Loc) (n : Nat) : (Eff.apply (.zero l n) s).held = s.held :=
  State.zeroLoc_held s l n

end Sys2Proof.Machine
end

