-- ==== Sys2Proof/Laws/Tables.lean ====
section
/-! SUPPORT. Tables by number: a read after each operation. -/

namespace Sys2Proof.Machine

variable {β : Type}

theorem Tab.get?_set (t : Tab β) (k j : Nat) (v : β) : (Tab.set t k v).get? j = if j = k then some v else t.get? j := by
  induction t with
  | nil => grind [Tab.set, Tab.get?]
  | cons e r ih =>
    obtain ⟨i, w⟩ := e
    simp only [Tab.set]
    split
    · simp only [Tab.get?, ih]
      grind
    · split
      · simp only [Tab.get?]; grind
      · simp only [Tab.get?]; grind

theorem Tab.get?_modify (t : Tab β) (k j : Nat) (f : β → β) :
    (Tab.modify t k f).get? j = if j = k then (t.get? j).map f else t.get? j := by
  induction t with
  | nil => simp [Tab.modify, Tab.get?]
  | cons e r ih =>
    obtain ⟨i, w⟩ := e
    simp only [Tab.modify]
    split
    · simp only [Tab.get?]; grind
    · simp only [Tab.get?, ih]; grind

theorem Tab.get?_del (t : Tab β) (k j : Nat) : (Tab.del t k).get? j = if j = k then none else t.get? j := by
  unfold Tab.del
  induction t with
  | nil => simp [Tab.get?]
  | cons e r ih =>
    obtain ⟨i, w⟩ := e
    rw [List.filter_cons]
    by_cases h : i = k
    · simp only [h, ne_eq, not_true_eq_false, decide_false, Bool.false_eq_true, ↓reduceIte, ih, Tab.get?]
      grind
    · simp only [ne_eq, h, not_false_eq_true, decide_true, ↓reduceIte, Tab.get?, ih]
      grind

/-- An entry of a table after `set` is the new one or an old one. -/
theorem Tab.mem_set {t : Tab β} {k : Nat} {v : β} {e : Nat × β} (h : e ∈ Tab.set t k v) : e = (k, v) ∨ e ∈ t := by
  induction t with
  | nil => simp_all [Tab.set]
  | cons d r ih =>
    obtain ⟨i, w⟩ := d
    simp only [Tab.set] at h
    split at h
    · rcases List.mem_cons.mp h with h | h
      · exact .inr (by simp [h])
      · rcases ih h with h | h
        · exact .inl h
        · exact .inr (by simp [h])
    · split at h
      · rcases List.mem_cons.mp h with h | h
        · exact .inl h
        · exact .inr (by simp [h])
      · rcases List.mem_cons.mp h with h | h
        · exact .inl h
        · exact .inr h

/-- What a table lists under a number is an entry of it. -/
theorem Tab.mem_of_get? {t : Tab β} {k : Nat} {v : β} (h : t.get? k = some v) : (k, v) ∈ t := by
  induction t with
  | nil => cases h
  | cons d r ih =>
    obtain ⟨i, w⟩ := d
    simp only [Tab.get?] at h
    split at h
    · cases h; subst i; simp
    · simp [ih h]

end Sys2Proof.Machine
end

