-- ==== Sys2Proof/Laws/Prog.lean ====
section
/-! SUPPORT. Running a program of effects: its equations, what it leaves in place, and that it keeps every byte store in
canonical form. -/

namespace Sys2Proof.Machine

open Sys2Proof.Safety

/-! ## Equations -/

@[simp] theorem Prog.run_done (s : State) : Prog.done.run s = s := rfl

@[simp] theorem Prog.run_eff (e : Eff) (p : Prog) (s : State) : (Prog.eff e p).run s = p.run (e.apply s) := rfl

@[simp] theorem Prog.run_read (k : State → Prog) (s : State) : (Prog.read k).run s = (k s).run s := rfl

@[simp] theorem Prog.run_one (e : Eff) (s : State) : (Prog.one e).run s = e.apply s := rfl

@[simp] theorem Prog.run_andThen (p q : Prog) (s : State) : (p.andThen q).run s = q.run (p.run s) := by
  induction p generalizing s with
  | done => rfl
  | eff e r ih => exact ih _
  | read k ih => exact ih s s

@[simp] theorem Prog.run_all_nil (s : State) : (Prog.all []).run s = s := rfl

@[simp] theorem Prog.run_all_cons (p : Prog) (l : List Prog) (s : State) :
    (Prog.all (p :: l)).run s = (Prog.all l).run (p.run s) := Prog.run_andThen _ _ _

@[simp] theorem Prog.run_each_nil {β : Type} (f : β → Prog) (s : State) : (Prog.each [] f).run s = s := rfl

@[simp] theorem Prog.run_each_cons {β : Type} (b : β) (l : List β) (f : β → Prog) (s : State) :
    (Prog.each (b :: l) f).run s = (Prog.each l f).run ((f b).run s) := Prog.run_andThen _ _ _

theorem Prog.run_when (b : Bool) (p : Prog) (s : State) : (Prog.when b p).run s = if b then p.run s else s := by
  cases b <;> rfl

@[simp] theorem Prog.run_when_true (p : Prog) (s : State) : (Prog.when true p).run s = p.run s := rfl

@[simp] theorem Prog.run_when_false (p : Prog) (s : State) : (Prog.when false p).run s = s := rfl

/-! ## What a program leaves in place -/

/-- No program touches the agenda or the event's arguments. -/
@[simp] theorem Eff.apply_agenda (e : Eff) (s : State) : (e.apply s).agenda = s.agenda := by cases e <;> simp

@[simp] theorem Eff.apply_args (e : Eff) (s : State) : (e.apply s).args = s.args := by cases e <;> simp

@[simp] theorem Prog.run_agenda (p : Prog) (s : State) : (p.run s).agenda = s.agenda := by
  induction p generalizing s with
  | done => rfl
  | eff e r ih => simp [ih]
  | read k ih => exact ih s s

@[simp] theorem Prog.run_args (p : Prog) (s : State) : (p.run s).args = s.args := by
  induction p generalizing s with
  | done => rfl
  | eff e r ih => simp [ih]
  | read k ih => exact ih s s

/-! ## Byte stores stay canonical -/

theorem State.core_pool_wf {s : State} (h : MemOk s) (c : Nat) : (s.core c).pool.wf = true := by
  unfold State.core
  cases hc : s.cores.get? c with
  | none => rfl
  | some k => exact h.2.2.1 _ (Tab.mem_of_get? hc)

theorem State.cluster_stores_wf {s : State} (h : MemOk s) (k : Nat) :
    (s.cluster k).csu.wf = true ∧ (s.cluster k).cist.wf = true := by
  unfold State.cluster
  cases hc : s.clusters.get? k with
  | none => exact ⟨rfl, rfl⟩
  | some q => exact h.2.2.2 _ (Tab.mem_of_get? hc)

theorem MemOk.set_core {s : State} (h : MemOk s) (c : Nat) (k : Core) (hk : k.pool.wf = true) :
    MemOk { s with cores := s.cores.set c k } := by
  refine ⟨h.1, h.2.1, fun e he => ?_, h.2.2.2⟩
  rcases Tab.mem_set he with rfl | he
  · exact hk
  · exact h.2.2.1 e he

theorem MemOk.set_cluster {s : State} (h : MemOk s) (i : Nat) (q : Cluster) (h1 : q.csu.wf = true) (h2 : q.cist.wf = true) :
    MemOk { s with clusters := s.clusters.set i q } := by
  refine ⟨h.1, h.2.1, h.2.2.1, fun e he => ?_⟩
  rcases Tab.mem_set he with rfl | he
  · exact ⟨h1, h2⟩
  · exact h.2.2.2 e he

theorem State.memOk_writeLoc {s : State} (l : Loc) (bs : List Byte) (h : MemOk s) : MemOk (s.writeLoc l bs) := by
  unfold State.writeLoc
  split
  · exact ⟨Mem.wf_writeAll _ _ h.1, h.2⟩
  · exact ⟨h.1, Mem.wf_writeAll _ _ h.2.1, h.2.2⟩
  · exact MemOk.set_core h _ _ (Mem.wf_writeAll _ _ (State.core_pool_wf h _))
  · exact MemOk.set_cluster h _ _ (Mem.wf_writeAll _ _ (State.cluster_stores_wf h _).1) (State.cluster_stores_wf h _).2
  · exact MemOk.set_cluster h _ _ (State.cluster_stores_wf h _).1 (Mem.wf_writeAll _ _ (State.cluster_stores_wf h _).2)
  · exact h

theorem State.memOk_zeroLoc {s : State} (l : Loc) (n : Nat) (h : MemOk s) : MemOk (s.zeroLoc l n) := by
  unfold State.zeroLoc
  split
  · exact ⟨Mem.wf_zero _ _ h.1, h.2⟩
  · exact ⟨h.1, Mem.wf_zero _ _ h.2.1, h.2.2⟩
  · exact MemOk.set_core h _ _ (Mem.wf_zero _ _ (State.core_pool_wf h _))
  · exact MemOk.set_cluster h _ _ (Mem.wf_zero _ _ (State.cluster_stores_wf h _).1) (State.cluster_stores_wf h _).2
  · exact MemOk.set_cluster h _ _ (State.cluster_stores_wf h _).1 (Mem.wf_zero _ _ (State.cluster_stores_wf h _).2)
  · exact h

/-- Every effect keeps every byte store in canonical form. -/
theorem Eff.memOk {s : State} (e : Eff) (h : MemOk s) : MemOk (e.apply s) := by
  cases e with
  | write l bs => exact State.memOk_writeLoc l bs h
  | zero l n => exact State.memOk_zeroLoc l n h
  | core c f => exact MemOk.set_core h c _ (State.core_pool_wf h c)
  | clus k f => exact MemOk.set_cluster h k _ (State.cluster_stores_wf h k).1 (State.cluster_stores_wf h k).2
  | _ => exact h

/-- Every program keeps every byte store in canonical form. -/
theorem Prog.memOk (p : Prog) {s : State} (h : MemOk s) : MemOk (p.run s) := by
  induction p generalizing s with
  | done => exact h
  | eff e r ih => exact ih (Eff.memOk e h)
  | read k ih => exact ih s h

end Sys2Proof.Machine
end

