-- ==== Sys2Proof/Laws/Claims.lean ====
section
/-! SUPPORT. For the completion statements: what each shared check of a meaning does when its condition holds, and what each
way of issuing then answers. -/

namespace Sys2Proof.Claims

open Sys2Proof.Machine


theorem need_ok (u : U) (fs) (k : Issue) (h : ready u fs = true) : u.need fs k = k := by
  simp only [ready, Bool.and_eq_true, Bool.not_eq_true'] at h
  simp [U.need, h.1, h.2]

theorem once_ok (u : U) (k : Issue) (h : takes u = true) : u.once k = k := by
  simp only [takes, Bool.not_eq_true'] at h
  simp [U.once, h]

theorem simt_ok {len g cond eff} {s : State} {sem : Sem}
    (h : (simt len g cond eff).ok s = true)
    (hs : ∀ u, unitOf s len = some u → u.gang.vliw = false → cond (u.guarded g) s = true → (u.guarded g).slot = none →
       (u.guarded g).hart = none → 
      (((u.guarded g).carry (sem (u.guarded g) s)).run s) = ((eff (u.guarded g) s).run s)) :
    runSimt len g sem s = .next ((simt len g cond eff).next s) := by
  unfold simt at h ⊢
  unfold runSimt
  cases hu : unitOf s len with
  | none => simp [hu] at h
  | some u =>
    simp only [hu, Bool.and_eq_true, Bool.not_eq_true'] at h
    simp only [hu, h.1, Bool.false_eq_true, ↓reduceIte]
    have : u.slot = none ∧ u.hart = none := by
      unfold unitOf at hu
      split at hu <;> try contradiction
      split at hu <;> try contradiction
      split at hu <;> try contradiction
      dsimp only at hu
      split at hu <;> try contradiction
      cases hu; exact ⟨rfl, rfl⟩
    rw [hs u hu h.1 h.2 this.1 this.2]

theorem cleared_ok (u : U) (s sp use seg l) (p : Prog) (h : reach u s sp use seg l = true) :
    u.cleared s sp use seg l (.commit p) = .commit (kept u s sp l p) := by
  unfold reach at h; unfold U.cleared
  cases sp <;> simp only at h ⊢
  · rw [Bool.and_eq_true] at h; rw [h.2]; replace h := h.1
    revert h; generalize checkGlobal _ _ _ _ _ _ _ _ _ = r; cases r <;> simp [passes, Issue.after, kept]
  all_goals
    cases hc : checkOffsets (u.limit s _) use.writes l <;> simp_all [kept]

theorem tile_ok (u : U) (s h use) (k : Tile → Issue) (t) (ht : tileFor u s h use = some t) : u.tile s h use k = k t := by
  unfold tileFor at ht; unfold U.tile
  split at ht <;> simp_all

theorem spans_ok (u : U) (s sp lim w l) (p : Prog) (h : spans u s sp lim w l = true) :
    u.checkSpans s sp lim w l (.commit p) = .commit (keptSpans u sp l p) := by
  unfold spans at h; unfold U.checkSpans keptSpans
  split at h
  · rename_i hr; rw [hr]; by_cases h0 : sp = 0 <;> simp [h0, Issue.after]
  · cases h

theorem inTile_ok {u s h use w l} (hh : inTile u s h use w l = true) : ∃ t, tileFor u s h use = some t ∧ checkOffsets (4096 * t.size) w l = none := by
  unfold inTile at hh
  split at hh
  · rename_i t ht; exact ⟨t, ht, by simpa using hh⟩
  · cases hh


theorem flume_ok {u : U} {s q f} {k : Flume → Issue} (h : flumeOf u s q = some f) : u.flume s q k = k f := by
  unfold flumeOf at h; unfold U.flume
  cases hq : u.grid.flume? q <;> simp_all


theorem leased_ok {u : U} {s k} (h : leased u s = true) : u.command s k = k := by
  unfold leased at h; unfold U.command
  split at h
  · rename_i l hl
    rw [hl]
    by_cases hf : l.fresh = some u.g <;> simp_all
  · cases h


theorem engReach_ok {u : U} {s c b l p} (h : engReach u s c b l = true) :
    u.engSource s c b l (.commit p) = .commit (keptSpans u c.space l p) := by
  unfold engReach at h; unfold U.engSource
  generalize c.space = sp at h ⊢
  match sp, h with
  | 0, h => exact spans_ok _ _ _ _ _ _ _ h
  | 1, h => exact spans_ok _ _ _ _ _ _ _ h
  | 2, h => exact spans_ok _ _ _ _ _ _ _ h
  | n + 3, h =>
    show u.tile s b (if c.consume then .consume else .read) _ = .commit p
    cases ht : tileFor u s b (if c.consume then .consume else .read) with
    | none => rw [ht] at h; cases h
    | some t =>
      simp only [ht] at h
      rw [tile_ok _ _ _ _ _ _ ht]; exact spans_ok u s 3 _ _ _ _ h


theorem accum_ok {u : U} {s z k} (h : accumFree u s z = true) : u.accum s z k = k := by
  simp only [accumFree, Bool.and_eq_true, decide_eq_true_eq, Bool.not_eq_true', takes] at h
  unfold U.accum; rw [if_neg (by omega)]
  simp only [h.2, Bool.false_eq_true, ↓reduceIte]


theorem side_ok {u : U} {s sp b n o us w p} (h : sideReach u s sp b n o us w = true) :
    u.copySide s sp b n o us w (.commit p) = .commit (keptSpans u sp (copySpans sp b n o) p) := by
  unfold sideReach at h; unfold U.copySide
  match sp, h with
  | 0, h => exact spans_ok _ _ _ _ _ _ _ h
  | 1, h => exact spans_ok _ _ _ _ _ _ _ h
  | 2, h => exact spans_ok _ _ _ _ _ _ _ h
  | m + 3, h =>
    show u.tile s (b % 2 ^ 32) us _ = .commit p
    replace h : (match tileFor u s (b % 2 ^ 32) us with
      | some t => spans u s 3 (4096 * t.size) w (copySpans (m + 3) b n o)
      | none => false) = true := h
    cases ht : tileFor u s (b % 2 ^ 32) us with
    | none => rw [ht] at h; cases h
    | some t =>
      simp only [ht] at h
      rw [tile_ok _ _ _ _ _ _ ht]; exact spans_ok u s 3 _ _ _ _ h


theorem arriveOp_eq (u : U) (s : State) (bar : Nat) (w : Bool) (h1 : u.blk.ownsBar bar = true) (h2 : ((s.core u.c).bar bar).arr + u.members.length ≤ 31) :
   arriveOp u s bar w =
    (if !w || (decide (((s.core u.c).bar bar).arr + u.members.length + u.blk.deadCount ≥ ((s.core u.c).bar bar).exp) && ((s.core u.c).bar bar).pend == 0) then
      .commit (Prog.all [u.release, u.dropTile, Prog.one (.core u.c fun k => k.setBar bar { k.bar bar with arr := (k.bar bar).arr + u.members.length }), tryRelease u.c u.b bar])
    else .stay (.bar bar true) (Prog.all [u.release, u.dropTile, Prog.one (.core u.c fun k => k.setBar bar { k.bar bar with arr := (k.bar bar).arr + u.members.length })])) := by
  unfold arriveOp
  rw [h1]
  have e := Nat.not_lt.mpr h2
  simp only [Bool.not_true, Bool.false_eq_true, ↓reduceIte, U.arrivals, GT.gt, e]; rfl



theorem cracked_ok {i : Instr} {cond : XU → State → Bool} {eff : XU → State → Prog} {s : State} {sem : ExSem}
    (h : (cracked i cond eff).ok s = true)
    (hs : ∀ x, crackedUnit s i = some x → cond x s = true → x.u.slot = none → x.u.hart = none → x.f = exFormOf i →
      (∀ w p, sem x s ≠ .vector w p) ∧ ((x.u.carry (sem x s)).run s) = ((eff x s).run s)) :
    runEx i sem s = .next ((cracked i cond eff).next s) := by
  have hslot : ∀ u, unitOf s (4 * (1 + (exFormOf i).nop)) = some u → u.slot = none ∧ u.hart = none := by
    intro u hu
    unfold unitOf at hu
    split at hu <;> try contradiction
    split at hu <;> try contradiction
    split at hu <;> try contradiction
    dsimp only at hu
    split at hu <;> try contradiction
    cases hu; exact ⟨rfl, rfl⟩
  unfold cracked at h ⊢
  unfold runEx
  cases hx : crackedUnit s i with
  | none => simp [hx] at h
  | some x =>
    simp only [hx, Bool.and_eq_true] at h
    obtain ⟨⟨h1, h2⟩, h3⟩ := h
    have hx' := hx
    unfold crackedUnit at hx
    cases hu : unitOf s (4 * (1 + (exFormOf i).nop)) with
    | none => simp [hu] at hx
    | some u =>
      simp only [hu] at hx ⊢
      cases hi : u.grid.exdin with
      | none => simp [hi] at hx
      | some info =>
        simp only [hi] at hx ⊢
        split at hx
        · cases hx
        · rename_i hf
          simp only [hf]
          have hh := hs x hx' h3
          have hn := need_ok x.u x.fields
          have e2 : (match crackedUnit s i with | some x => (eff x s).run s | none => s) = (eff x s).run s := by rw [hx']
          cases hx
          have ⟨hv, hx1⟩ := hh (hslot u hu).1 (hslot u hu).2 rfl
          simp only [Bool.false_eq_true, ↓reduceIte] at hx1 ⊢
          have h1' : exDecodes i u info = true := h1
          simp only [h1', Bool.not_true, Bool.false_eq_true, ↓reduceIte]
          have hn' := hn (sem { u := { u with part := match (exFormOf i).guard with
              | some (o, gn) => u.active.filter fun l => (({ u, info, f := exFormOf i } : XU).val s o l 1 == 1) != gn
              | none => u.active }, info, f := exFormOf i } s) h2
          congr 1
          have e : ∀ k, u.need ({ u := u, info := info, f := exFormOf i } : XU).fields k =
            ({ u with part := match (exFormOf i).guard with
              | some (o, gn) => u.active.filter fun l => (({ u, info, f := exFormOf i } : XU).val s o l 1 == 1) != gn
              | none => u.active } : U).need ({ u := u, info := info, f := exFormOf i } : XU).fields k := by
            intro k; rfl
          rw [e]
          refine Eq.trans ?_ (hx1.trans e2.symm)
          generalize hgen : (({ u with part := match (exFormOf i).guard with
              | some (o, gn) => u.active.filter fun l => (({ u, info, f := exFormOf i } : XU).val s o l 1 == 1) != gn
              | none => u.active } : U).need ({ u := u, info := info, f := exFormOf i } : XU).fields _) = r
          have : r = sem { u := { u with part := match (exFormOf i).guard with
              | some (o, gn) => u.active.filter fun l => (({ u, info, f := exFormOf i } : XU).val s o l 1 == 1) != gn
              | none => u.active }, info, f := exFormOf i } s := by rw [← hgen]; exact hn'
          rw [this]
          generalize hsm : sem _ s = r2
          cases r2 with
          | vector w p => exact absurd hsm (hv _ _)
          | _ => rfl


/-- A unit in SIMT code or Exdin code has no slot and is no hart's. -/
theorem slot_of_unitOf {s : State} {len : Nat} {u : U} (hu : unitOf s len = some u) : u.slot = none ∧ u.hart = none := by
  unfold unitOf at hu
  split at hu <;> try contradiction
  split at hu <;> try contradiction
  split at hu <;> try contradiction
  dsimp only at hu
  split at hu <;> try contradiction
  cases hu; exact ⟨rfl, rfl⟩

theorem LaneOp.runs {l : LaneOp} {s : State} {sem : Sem} (h : l.row.ok s = true)
    (hs : ∀ u, l.cond u = true → sem u s = laneSem l.o l.d l.a l.b l.c l.imm u s) :
    runSimt l.len l.g sem s = .next (l.row.next s) := by
  unfold LaneOp.row at h ⊢
  refine simt_ok h ?_
  intro u hu hv hc hsl hht
  simp only [Bool.and_eq_true] at hc
  rw [hs _ hc.1.2]
  unfold laneSem
  rw [need_ok _ _ _ hc.1.1]
  cases hr : l.o.rill
  · simp [U.carry, thenNext, Prog.when, hr]
  · have hc2 := hc.2; simp only [hr, Bool.not_true, Bool.false_or, Bool.and_eq_true, Bool.or_eq_true, decide_eq_true_eq] at hc2
    simp only [Bool.true_and, hc2.1, Bool.not_true, Bool.false_eq_true, ↓reduceIte]
    have : ((!(u.guarded l.g).part.isEmpty && decide ((u.guarded l.g).core.rill.length < (u.guarded l.g).rillNeed)) = false) := by
      cases h4 : (u.guarded l.g).part.isEmpty <;> simp_all
    simp only [this, Bool.false_eq_true, ↓reduceIte, U.carry, thenNext, U.popRill, hsl, takes, Option.isSome_none]

/-- A hart's instruction whose effect `does` gives. -/
theorem hart_ok {len : Nat} {does : HU → State → Option Prog} {eff : HU → State → Prog} {s : State}
    (h : (hartIf len does).ok s = true) (hs : ∀ a p, hartOf s len = some a → does a s = some p → eff a s = p) :
    runHart len eff s = .next ((hartIf len does).next s) := by
  unfold hartIf hartRow at h ⊢
  unfold runHart
  cases hu : hartOf s len with
  | none => simp [hu] at h
  | some a =>
    simp only [hu] at h ⊢
    obtain ⟨p, hp⟩ := Option.isSome_iff_exists.mp h
    rw [hs a p hu hp, hp]; rfl

/-- An event whose effect `does` gives. -/
theorem event_ok {does : State → Option Prog} {prog : State → Prog} {s : State} (h : (eventRow does).ok s = true)
    (hs : ∀ p, does s = some p → (prog s).run s = p.run s) : runEvent prog s = .next ((eventRow does).next s) := by
  unfold eventRow at h ⊢; unfold runEvent
  obtain ⟨p, hp⟩ := Option.isSome_iff_exists.mp h
  simp only [hp, hs p hp]; rfl

theorem onlyIf_ok {b : Bool} {p q : Prog} (h : onlyIf b p = some q) : b = true ∧ p = q := by
  unfold onlyIf at h; split at h <;> simp_all

end Sys2Proof.Claims
end

