-- ==== Sys2Proof/Laws/Block.lean ====
section
/-! SUPPORT. What the shared operations on a block do: writes to lanes, slices and predicates, the results of a lane operation,
and programs on one block. -/

namespace Sys2Proof.Claims

open Sys2Proof.Machine

theorem modAt_len {β} (l : List β) (i f) : (modAt l i f).length = l.length := by
  induction l generalizing i with
  | nil => rfl
  | cons x r ih => cases i <;> simp [modAt, ih]
theorem modAt_get {β} (l : List β) (i j : Nat) (f : β → β) : (modAt l i f)[j]? = if j = i then (l[j]?).map f else l[j]? := by
  induction l generalizing i j with
  | nil => simp [modAt]
  | cons x r ih => cases i <;> cases j <;> simp [modAt, ih]
theorem lane_modLane (b : Block) (i j f) : (b.modLane i f).lane j = if j = i ∧ j < b.lanes.length then f (b.lane j) else b.lane j := by
  unfold Block.lane Block.modLane
  simp only [List.getD_eq_getElem?_getD, modAt_get]
  by_cases h : j = i
  · subst h
    simp only [↓reduceIte, true_and]
    by_cases hl : j < b.lanes.length
    · simp [hl]
    · simp [hl, Nat.not_lt.mp hl]
  · simp [h]

/-- Blocks alike but for their lanes. -/
def LanesOnly (x y : Block) : Prop := y = { x with lanes := y.lanes } ∧ y.lanes.length = x.lanes.length
theorem LanesOnly.refl (x) : LanesOnly x x := ⟨rfl, rfl⟩
theorem LanesOnly.trans {x y z} (h : LanesOnly x y) (k : LanesOnly y z) : LanesOnly x z := by
  obtain ⟨h1, h2⟩ := h; obtain ⟨k1, k2⟩ := k
  refine ⟨?_, k2.trans h2⟩
  rw [k1, h1]
theorem LanesOnly.modLane (x i f) : LanesOnly x (x.modLane i f) := ⟨rfl, modAt_len _ _ _⟩

theorem foldl_modLane {α} (l : List α) (at_ : α → Nat) (f : α → Lane → Lane) (b : Block) :
   LanesOnly b (l.foldl (fun b e => b.modLane (at_ e) (f e)) b) ∧
   (∀ j, j ∉ l.map at_ → (l.foldl (fun b e => b.modLane (at_ e) (f e)) b).lane j = b.lane j) := by
  induction l generalizing b with
  | nil => exact ⟨LanesOnly.refl _, fun _ _ => rfl⟩
  | cons e r ih =>
    obtain ⟨h1, h2⟩ := ih (b.modLane (at_ e) (f e))
    refine ⟨(LanesOnly.modLane b _ _).trans h1, fun j hj => ?_⟩
    simp only [List.map_cons, List.mem_cons, not_or] at hj
    rw [List.foldl_cons, h2 j hj.2, lane_modLane, if_neg (by simp [hj.1])]

theorem foldl_modLane_at {α} (l : List α) (at_ : α → Nat) (f : α → Lane → Lane) (b : Block) (hn : (l.map at_).Nodup)
   (e : α) (he : e ∈ l) (hl : at_ e < b.lanes.length) :
   (l.foldl (fun b e => b.modLane (at_ e) (f e)) b).lane (at_ e) = f e (b.lane (at_ e)) := by
  induction l generalizing b with
  | nil => cases he
  | cons d r ih =>
    simp only [List.map_cons, List.nodup_cons] at hn
    rw [List.foldl_cons]
    rcases List.mem_cons.mp he with rfl | he
    · rw [(foldl_modLane r at_ f _).2 _ hn.1, lane_modLane, if_pos ⟨rfl, hl⟩]
    · rw [ih _ hn.2 he (by simpa [Block.modLane, modAt_len] using hl), lane_modLane, if_neg]
      intro hc
      exact hn.1 (hc.1 ▸ List.mem_map_of_mem he)

/-- lanes preserve a relation -/
theorem foldl_modLane_rel {α} (l : List α) (at_ : α → Nat) (f : α → Lane → Lane) (R : Lane → Lane → Prop) (hr : ∀ x, R x x)
  (ht : ∀ x y z, R x y → R y z → R x z) (hf : ∀ e ∈ l, ∀ x, R x (f e x)) (b : Block) (j : Nat) :
  R (b.lane j) ((l.foldl (fun b e => b.modLane (at_ e) (f e)) b).lane j) := by
  induction l generalizing b with
  | nil => exact hr _
  | cons e r ih =>
    rw [List.foldl_cons]
    refine ht _ _ _ ?_ (ih (fun e he => hf e (by simp [he])) _)
    rw [lane_modLane]; split
    · exact hf e (by simp) _
    · exact hr _

theorem Tab_blocks_get (bl : Tab Block) (b : Nat) (f) : (bl.modify b f).get? b = (bl.get? b).map f := by
  rw [Tab.get?_modify, if_pos rfl]

theorem slice_modSlice (b : Block) (i j f) : (b.modSlice i f).slice? j = if j = i then (b.slice? j).map f else b.slice? j := by
  unfold Block.slice? Block.modSlice; exact modAt_get _ _ _ _
/-- Blocks alike but for their slices. -/
def SlicesOnly (x y : Block) : Prop := y = { x with slices := y.slices }
theorem SlicesOnly.trans {x y z} (h : SlicesOnly x y) (k : SlicesOnly y z) : SlicesOnly x z := by
  unfold SlicesOnly at *; rw [k, h]
theorem foldl_modSlice (l : List Nat) (f : Nat → Slice → Slice) (b : Block) (hn : l.Nodup) :
   SlicesOnly b (l.foldl (fun b i => b.modSlice i (f i)) b) ∧
   ∀ j, (l.foldl (fun b i => b.modSlice i (f i)) b).slice? j = if j ∈ l then (b.slice? j).map (f j) else b.slice? j := by
  induction l generalizing b with
  | nil => exact ⟨rfl, fun j => by simp⟩
  | cons e r ih =>
    simp only [List.nodup_cons] at hn
    obtain ⟨h1, h2⟩ := ih (b.modSlice e (f e)) hn.2
    refine ⟨SlicesOnly.trans (y := b.modSlice e (f e)) rfl h1, fun j => ?_⟩
    rw [List.foldl_cons, h2, slice_modSlice]
    by_cases hj : j = e
    · subst hj; simp [hn.1]
    · simp [hj]

theorem members_nodup (b : Block) (g) : (b.members g).Nodup := by
  unfold Block.members; exact List.Nodup.sublist (List.filter_sublist) List.nodup_range

theorem cellGet_set_ne {w} (t : List (Nat × BitVec w)) (a c : Nat) (b : BitVec w) (h : c ≠ a) : cellGet (cellSet t a b) c = cellGet t c := by
  rw [cellGet_cellSet, if_neg h]

theorem reg_setRegs (l : Lane) (i x n k : Nat) (h : k < i ∨ i + n ≤ k) : (l.setRegs i x n).reg k = l.reg k := by
  induction n generalizing l i x with
  | zero => rfl
  | succ n ih =>
    rw [Lane.setRegs, ih _ _ _ (by omega)]
    exact cellGet_set_ne _ _ _ _ (by omega)
theorem setRegs_p (l : Lane) (i x n : Nat) : (l.setRegs i x n).p = l.p ∧ (l.setRegs i x n).fp = l.fp := by
  induction n generalizing l i x with
  | zero => exact ⟨rfl, rfl⟩
  | succ n ih => rw [Lane.setRegs]; exact ih _ _ _

theorem setRegs_keeps (l : Lane) (d x n ps) : LaneKeeps l (l.setRegs d x n) d n ps := by
  refine ⟨fun k hk => reg_setRegs _ _ _ _ _ hk, fun p _ => ?_, ?_⟩
  · simp [Lane.pred, (setRegs_p l d x n).1]
  · simp [(setRegs_p l d x n).2]
theorem flags_trans {a b c : BitVec 5} (h : a &&& ~~~b = 0) (k : b &&& ~~~c = 0) : a &&& ~~~c = 0 := by
  refine BitVec.eq_of_getLsbD_eq fun i hi => ?_
  have h1 := congrArg (fun x => x.getLsbD i) h
  have k1 := congrArg (fun x => x.getLsbD i) k
  simp only [BitVec.getLsbD_and, BitVec.getLsbD_not, hi, decide_true, Bool.true_and, BitVec.ofNat_eq_ofNat,
    BitVec.getLsbD_zero] at h1 k1 ⊢
  revert h1 k1; cases a.getLsbD i <;> cases b.getLsbD i <;> cases c.getLsbD i <;> simp
theorem keeps_refl (x d n ps) : LaneKeeps x x d n ps := ⟨fun _ _ => rfl, fun _ _ => rfl, by simp⟩
theorem keeps_trans (x y z d n ps) (h : LaneKeeps x y d n ps) (k : LaneKeeps y z d n ps) : LaneKeeps x z d n ps := by
  refine ⟨fun i hi => (k.1 i hi).trans (h.1 i hi), fun p hp => (k.2.1 p hp).trans (h.2.1 p hp), ?_⟩
  exact flags_trans h.2.2 k.2.2
theorem pbits : ∀ (x : BitVec 7) (q p : Fin 7), p ≠ q → (x ||| ((1 : BitVec 7) <<< q.val)).getLsbD p = x.getLsbD p ∧ (x &&& ~~~((1 : BitVec 7) <<< q.val)).getLsbD p = x.getLsbD p := by
  intro x q p h
  have e : ((1 : BitVec 7) <<< q.val).getLsbD p = false := by revert q p; decide
  rw [BitVec.getLsbD_or, BitVec.getLsbD_and, BitVec.getLsbD_not, e]; simp
theorem setPred_pred (l : Lane) (q b p) (h : p ≠ q) : (l.setPred q b).pred p = l.pred p := by
  unfold Lane.setPred Lane.pred
  split
  · rfl
  · rename_i hq
    congr 1
    by_cases hp : p < 7
    · have := pbits l.p ⟨q, by omega⟩ ⟨p, hp⟩ (by simpa using h)
      cases b
      · exact this.2
      · exact this.1
    · rw [BitVec.getLsbD_of_ge _ _ (by omega), BitVec.getLsbD_of_ge _ _ (by omega)]
theorem setPred_reg (l : Lane) (q b k) : (l.setPred q b).reg k = l.reg k := by
  unfold Lane.setPred; split <;> rfl
theorem setPred_fp (l : Lane) (q b) : (l.setPred q b).fp = l.fp := by
  unfold Lane.setPred; split <;> rfl
theorem setPreds_keeps (l : Lane) (qs : List (Nat × Bool)) (d n ps) (h : ∀ q ∈ qs, q.1 ∈ ps) : LaneKeeps l (qs.foldl (fun l q => l.setPred q.1 q.2) l) d n ps := by
  induction qs generalizing l with
  | nil => exact keeps_refl _ _ _ _
  | cons q r ih =>
    refine keeps_trans _ (l.setPred q.1 q.2) _ _ _ _ ⟨fun k _ => setPred_reg _ _ _ _, fun p hp => setPred_pred _ _ _ _ ?_, by simp [setPred_fp]⟩
       (ih _ fun q hq => h q (by simp [hq]))
    intro he; exact hp (he ▸ h q (by simp))
theorem raise_keeps (l : Lane) (f d n ps) : LaneKeeps l (l.raise f) d n ps := by
  refine ⟨fun _ _ => rfl, fun _ _ => rfl, ?_⟩
  simp only [Lane.raise]
  refine BitVec.eq_of_getLsbD_eq fun i hi => ?_
  simp only [BitVec.getLsbD_and, BitVec.getLsbD_not, BitVec.getLsbD_or, hi, decide_true, Bool.true_and,
    BitVec.ofNat_eq_ofNat, BitVec.getLsbD_zero]
  cases l.fp.getLsbD i <;> simp

theorem putBlock_lanes (u : U) (d w vals b) (hs : u.slot = none) (hi : isS d = false) : 
   LanesOnly b (u.putBlock d w vals b) ∧ (∀ j, j ∉ vals.map (·.1) → (u.putBlock d w vals b).lane j = b.lane j) ∧
   ∀ j ps, LaneKeeps (b.lane j) ((u.putBlock d w vals b).lane j) d.toNat (if (isS d || w == 0) = true then 0 else regCount w) ps := by
  unfold U.putBlock
  by_cases hw : w = 0
  · simp only [hw, ↓reduceIte]; exact ⟨LanesOnly.refl _, fun _ _ => trivial, fun _ _ => keeps_refl _ _ _ _⟩
  · simp only [hw, hi, ↓reduceIte, Bool.false_eq_true, Bool.false_or, beq_iff_eq]
    have hp : ∀ j, u.place j d = (j, d.toNat) := fun j => by simp [U.place, hs]
    simp only [hp]
    have := foldl_modLane vals (·.1) (fun e l => l.setRegs d.toNat e.2 (regCount w)) b
    refine ⟨this.1, this.2, fun j ps => ?_⟩
    exact foldl_modLane_rel vals (·.1) (fun e l => l.setRegs d.toNat e.2 (regCount w)) (fun x y => LaneKeeps x y d.toNat (regCount w) ps)
      (fun x => keeps_refl _ _ _ _) (fun x y z => keeps_trans _ _ _ _ _ _) (fun e _ x => setRegs_keeps _ _ _ _ _) b j

theorem putS_slices (b : Block) (ms : List Nat) (hn : ms.Nodup) (i v) : SlicesOnly b (b.putS ms i v) ∧
   ∀ j, (b.putS ms i v).slice? j = if j ∈ ms then (b.slice? j).map (·.setS i v) else b.slice? j := 
  foldl_modSlice ms (fun _ x => x.setS i v) b hn
theorem setS_keeps (x : Slice) (i v) : SliceKeeps x (x.setS i v) (some i) := by
  unfold Slice.setS
  split
  · exact ⟨rfl, fun _ _ => rfl⟩
  · refine ⟨rfl, fun k hk => ?_⟩
    simp only [Slice.sreg]; split
    · rfl
    · exact cellGet_set_ne _ _ _ _ (by intro h; exact hk (by rw [h]))

theorem setPc_slices (b : Block) (ms : List Nat) (hn : ms.Nodup) (a) : SlicesOnly b (b.setPc ms a) ∧
   ∀ j, (b.setPc ms a).slice? j = if j ∈ ms then (b.slice? j).map (fun x => { x with pc := a }) else b.slice? j := 
  foldl_modSlice ms (fun _ x => { x with pc := a }) b hn

theorem lane_of_slices {x y : Block} (h : SlicesOnly x y) (j) : y.lane j = x.lane j := by
  unfold SlicesOnly at h; rw [h]; rfl

theorem commitRes_frame (u : U) (wd d) (rs : List (Nat × Res)) (b : Block) (ps) (hs : u.slot = none)
   (hn : u.members.Nodup)
   (hp : ∀ e ∈ rs, ∀ q ∈ e.2.preds, q.1 ∈ ps) :
   (u.commitRes wd d rs b) = { b with lanes := (u.commitRes wd d rs b).lanes, slices := (u.commitRes wd d rs b).slices } ∧
   (u.commitRes wd d rs b).lanes.length = b.lanes.length ∧
   (∀ j, j ∉ rs.map (·.1) → (u.commitRes wd d rs b).lane j = b.lane j) ∧
   (∀ j, LaneKeeps (b.lane j) ((u.commitRes wd d rs b).lane j) d.toNat (if (isS d || wd == 0) = true then 0 else regCount wd) ps) ∧
   (∀ i x, b.slice? i = some x → ∃ y, (u.commitRes wd d rs b).slice? i = some y ∧ 
      if i ∈ u.members then y.pc = x.pc ∧ SliceKeeps x y (if (isS d && wd != 0) = true then some (d.toNat - 0xC0) else none) else y = x) := by
  unfold U.commitRes
  generalize hb1 : u.putBlock d wd (rs.map fun e => (e.1, e.2.val)) b = b1
  have hfold := foldl_modLane rs (·.1) (fun e l => (e.2.preds.foldl (fun l q => l.setPred q.1 q.2) l).raise e.2.flags) b1
  have hrel := fun j => foldl_modLane_rel rs (·.1) (fun e l => (e.2.preds.foldl (fun l q => l.setPred q.1 q.2) l).raise e.2.flags) 
    (fun x y => LaneKeeps x y d.toNat (if (isS d || wd == 0) = true then 0 else regCount wd) ps)
    (fun x => keeps_refl _ _ _ _) (fun x y z => keeps_trans _ _ _ _ _ _) 
    (fun e he x => keeps_trans _ _ _ _ _ _ (setPreds_keeps _ _ _ _ _ (hp e he)) (raise_keeps _ _ _ _ _)) b1 j
  simp only at hfold ⊢
  generalize hb2 : rs.foldl (fun b e => b.modLane e.1 fun l => (e.2.preds.foldl (fun l q => l.setPred q.1 q.2) l).raise e.2.flags) b1 = b2 at hfold hrel ⊢
  obtain ⟨⟨h1, h1'⟩, h2⟩ := hfold
  cases hi : isS d
  · have hpb := putBlock_lanes u d wd (rs.map fun e => (e.1, e.2.val)) b hs hi
    rw [hb1] at hpb
    obtain ⟨⟨k1, k1'⟩, k2, k3⟩ := hpb
    rw [List.map_map] at k2
    refine ⟨?_, h1'.trans k1', fun j hj => (h2 j hj).trans (k2 j hj), fun j => ?_, fun i x hx => ⟨x, ?_, ?_⟩⟩
    · rw [h1, k1]
    · have := k3 j ps
      have := keeps_trans _ _ _ _ _ _ this (hrel j)
      rwa [hi] at this
    · rw [h1, k1]; exact hx
    · split
      · refine ⟨rfl, rfl, fun _ _ => rfl⟩
      · rfl
  · -- s register
    have hb1' : b1 = b ∨ ∃ v, wd ≠ 0 ∧ b1 = b.putS u.members (d.toNat - 0xC0) v := by
      rw [← hb1]; unfold U.putBlock
      by_cases hw : wd = 0
      · simp [hw]
      · simp only [hw, ↓reduceIte, hi]
        cases rs with
        | nil => left; rfl
        | cons e r => right; exact ⟨_, hw, rfl⟩
    rcases hb1' with rfl | ⟨v, hw, rfl⟩
    · refine ⟨?_, h1', h2, fun j => by have := hrel j; rwa [hi] at this, fun i x hx => ⟨x, ?_, ?_⟩⟩
      · rw [h1]
      · rw [h1]; exact hx
      · split
        · exact ⟨rfl, rfl, fun _ _ => rfl⟩
        · rfl
    · have ⟨s1, s2⟩ := putS_slices b u.members hn (d.toNat - 0xC0) v
      unfold SlicesOnly at s1
      have hl : ∀ j, (b.putS u.members (d.toNat - 0xC0) v).lane j = b.lane j := fun j => lane_of_slices s1 j
      have hll : (b.putS u.members (d.toNat - 0xC0) v).lanes = b.lanes := by rw [s1]
      refine ⟨?_, ?_, fun j hj => (h2 j hj).trans (hl j), fun j => ?_, fun i x hx => ?_⟩
      · rw [h1, s1]
      · rw [h1', hll]
      · have := hrel j; rwa [hi, hl] at this
      · have h3 : b2.slice? i = (b.putS u.members (d.toNat - 0xC0) v).slice? i := by rw [h1]; rfl
        rw [h3, s2, hx]
        split
        · refine ⟨_, rfl, ?_, ?_⟩
          · simp [Slice.setS]; split <;> rfl
          · have : (wd != 0) = true := by simpa using hw
            simp only [this, Bool.and_self, ↓reduceIte]
            exact setS_keeps _ _ _
        · exact ⟨x, rfl, rfl⟩

theorem unit_facts {s len v} (h : unitOf s len = some v) : s.block? v.c v.b = some v.blk ∧ v.core = s.core v.c ∧ v.members = v.blk.members v.g
   ∧ v.active = v.blk.activeLanes v.members ∧ v.slot = none ∧ v.part = v.active ∧ v.next = v.pc + BitVec.ofNat 64 len := by
  unfold unitOf at h
  split at h <;> try contradiction
  split at h <;> try contradiction
  split at h <;> try contradiction
  dsimp only at h
  split at h <;> try contradiction
  cases h
  exact ⟨by assumption, rfl, rfl, rfl, rfl, rfl, rfl⟩

theorem core_set (s : State) (c k) (x : Core) : ({ s with cores := s.cores.set c x } : State).core k = if k = c then x else s.core k := by
  unfold State.core
  simp only [Tab.get?_set]
  split <;> rfl

/-- a program on one block -/
theorem onBlock_run (c b : Nat) (f : Block → Block) (s : State) :
  (onBlock c b f).run s = { s with cores := s.cores.set c { s.core c with blocks := (s.core c).blocks.modify b f } } := rfl

theorem block_onBlock (c b f s k j) : ((onBlock c b f).run s).block? k j = if k = c ∧ j = b then (s.block? k j).map f else s.block? k j := by
  rw [onBlock_run]
  unfold State.block?
  rw [core_set]
  by_cases hk : k = c
  · subst hk; simp only [↓reduceIte, Tab.get?_modify, true_and]
  · simp [hk]

theorem regs_setRegs (l : Lane) (i x n : Nat) : (l.setRegs i x n).regs i n = x % 2 ^ (32 * n) := by
  induction n generalizing l i x with
  | zero => simp [Lane.setRegs, Lane.regs, Nat.mod_one]
  | succ n ih =>
    rw [Lane.setRegs, Lane.regs, ih, reg_setRegs _ _ _ _ _ (by omega)]
    have : (l.setReg i (BitVec.ofNat 32 x)).reg i = BitVec.ofNat 32 x := by
      unfold Lane.setReg Lane.reg
      rw [cellGet_cellSet, if_pos rfl]
    rw [this, BitVec.toNat_ofNat]
    rw [show 32 * (n+1) = 32 + 32 * n by omega, Nat.pow_add, Nat.mod_mul]

theorem setPred_regs (l : Lane) (q b k n) : (l.setPred q b).regs k n = l.regs k n := by
  induction n generalizing k with
  | zero => rfl
  | succ n ih => simp only [Lane.regs, setPred_reg, ih]
theorem setPreds_regs (l : Lane) (qs : List (Nat × Bool)) (k n) : (qs.foldl (fun l q => l.setPred q.1 q.2) l).regs k n = l.regs k n := by
  induction qs generalizing l with
  | nil => rfl
  | cons q r ih => rw [List.foldl_cons, ih, setPred_regs]
theorem raise_regs (l : Lane) (f k n) : (l.raise f).regs k n = l.regs k n := by
  induction n generalizing k with
  | zero => rfl
  | succ n ih => simp only [Lane.regs, ih]; rfl

theorem maskLanes_nodup (i m) : (maskLanes i m).Nodup := by
  unfold maskLanes
  refine List.Nodup.filterMap (f := _) ?_ List.nodup_range
  intro a b c ha hb
  simp only [Option.mem_def, Option.ite_none_right_eq_some, Option.some.injEq] at ha hb
  omega
theorem maskLanes_div (i m j) (h : j ∈ maskLanes i m) : j / 4 = i := by
  unfold maskLanes at h
  simp only [List.mem_filterMap, List.mem_range, Option.ite_none_right_eq_some, Option.some.injEq] at h
  obtain ⟨a, h1, _, rfl⟩ := h; omega
theorem activeLanes_nodup (b : Block) (ms : List Nat) (h : ms.Nodup) : (b.activeLanes ms).Nodup := by
  unfold Block.activeLanes
  rw [List.nodup_flatMap]
  refine ⟨fun i _ => ?_, ?_⟩
  · split
    · exact maskLanes_nodup _ _
    · exact List.nodup_nil
  · refine List.Pairwise.imp ?_ h
    intro a b hab x hx hy
    dsimp only at hx hy
    have h1 : x / 4 = a := by split at hx; exact maskLanes_div _ _ _ hx; cases hx
    have h2 : x / 4 = b := by split at hy; exact maskLanes_div _ _ _ hy; cases hy
    exact hab (h1 ▸ h2)

theorem sreg_setS (x : Slice) (i v) : (x.setS i v).sreg i = if 63 ≤ i then 0 else v := by
  unfold Slice.setS Slice.sreg
  split <;> simp [cellGet_cellSet]

theorem slice_of_lanes {x y : Block} (h : LanesOnly x y) (j) : y.slice? j = x.slice? j := by
  rw [h.1]; rfl

theorem commitRes_lane (u : U) (wd d) (rs : List (Nat × Res)) (b : Block) (hs : u.slot = none) (hi : isS d = false) (hw : wd ≠ 0)
   (hn : (rs.map (·.1)).Nodup) (e) (he : e ∈ rs) (hl : e.1 < b.lanes.length) :
   ((u.commitRes wd d rs b).lane e.1).regs d.toNat (regCount wd) = e.2.val % 2 ^ (32 * regCount wd) := by
  unfold U.commitRes
  have hb1 := foldl_modLane_at (rs.map fun e => (e.1, e.2.val)) (·.1) (fun e l => l.setRegs d.toNat e.2 (regCount wd)) b
    (by simpa [List.map_map, Function.comp_def] using hn) (e.1, e.2.val) (List.mem_map.mpr ⟨e, he, rfl⟩) hl
  have hb2 := foldl_modLane (rs.map fun e => (e.1, e.2.val)) (·.1) (fun e l => l.setRegs d.toNat e.2 (regCount wd)) b
  have hp : ∀ j, u.place j d = (j, d.toNat) := fun j => by simp [U.place, hs]
  have : u.putBlock d wd (rs.map fun e => (e.1, e.2.val)) b = (rs.map fun e => (e.1, e.2.val)).foldl (fun b e => b.modLane e.1 fun l => l.setRegs d.toNat e.2 (regCount wd)) b := by
    unfold U.putBlock; simp only [hw, hi, ↓reduceIte, Bool.false_eq_true, hp]
  rw [this]
  generalize (rs.map fun e => (e.1, e.2.val)).foldl (fun b e => b.modLane e.1 fun l => l.setRegs d.toNat e.2 (regCount wd)) b = b1 at hb1 hb2
  have := foldl_modLane_at rs (·.1) (fun e l => (e.2.preds.foldl (fun l q => l.setPred q.1 q.2) l).raise e.2.flags) b1 hn e he (by rw [hb2.1.2]; exact hl)
  simp only at this ⊢
  rw [this, raise_regs, setPreds_regs, hb1, regs_setRegs]

theorem commitRes_slice (u : U) (wd d) (rs : List (Nat × Res)) (b : Block) (hi : isS d = true) (hw : wd ≠ 0)
   (hn : u.members.Nodup) (e r) (he : rs = e :: r) (i x) (hm : i ∈ u.members) (hx : (u.commitRes wd d rs b).slice? i = some x) :
   x.sreg (d.toNat - 0xC0) = if d.toNat = 0xFF then 0 else BitVec.ofNat 64 e.2.val := by
  unfold U.commitRes at hx
  have hf := foldl_modLane rs (·.1) (fun e l => (e.2.preds.foldl (fun l q => l.setPred q.1 q.2) l).raise e.2.flags) (u.putBlock d wd (rs.map fun e => (e.1, e.2.val)) b)
  simp only at hf hx
  rw [slice_of_lanes hf.1] at hx
  subst he
  have : u.putBlock d wd ((e :: r).map fun e => (e.1, e.2.val)) b = b.putS u.members (d.toNat - 0xC0) (BitVec.ofNat 64 e.2.val) := by
    unfold U.putBlock; simp only [hw, hi, ↓reduceIte, List.map_cons]
  rw [this, (putS_slices b u.members hn _ _).2, if_pos hm] at hx
  obtain ⟨y, hy, rfl⟩ := Option.map_eq_some_iff.mp hx
  rw [sreg_setS]
  have h1 : 0xC0 ≤ d.toNat := by simpa [isS] using hi
  have h2 : d.toNat < 256 := d.isLt
  by_cases h : d.toNat = 255
  · simp [h]
  · rw [if_neg (by omega), if_neg h]

theorem unit_part_nodup {s len v} (h : unitOf s len = some v) (g : Guard) : (v.guarded g).part.Nodup := by
  obtain ⟨_, _, hm, ha, _⟩ := unit_facts h
  show (v.active.filter _).Nodup
  refine List.Nodup.filter _ ?_
  rw [ha, hm]; exact activeLanes_nodup _ _ (members_nodup _ _)


end Sys2Proof.Claims
end

