-- ==== Sys2Proof/Laws/Bytes.lean ====
section
/-! SUPPORT. What the shared memory operations do: bytes read and written, the store buffer, loads bound at issue, and one
indivisible read and write. -/

namespace Sys2Proof.Claims

open Sys2Proof.Machine

/-! ## Bytes read and written -/

theorem Tab_get_set_self {β} (t : Tab β) (k : Nat) (v : β) : (t.set k v).get? k = some v := by rw [Tab.get?_set, if_pos rfl]

theorem held_find (h : List (Nat × Byte × Bool)) (a : Nat) (bs : List Byte) (c : Nat) :
   ((heldAll h a bs).find? fun e => decide (e.1 = c)) = if a ≤ c ∧ c < a + bs.length then some (c, bs.getD (c - a) 0, true) else h.find? fun e => decide (e.1 = c) := by
  induction bs generalizing h a with
  | nil => simp [heldAll]
  | cons b bs ih =>
    rw [heldAll, ih]
    have hs : ∀ h : List (Nat × Byte × Bool), ((heldSet h a b true).find? fun e => decide (e.1 = c)) = if c = a then some (a, b, true) else h.find? fun e => decide (e.1 = c) := by
      intro h
      unfold heldSet
      rw [List.find?_cons]
      by_cases hc : c = a
      · simp [hc]
      · have : decide (a = c) = false := by simpa using fun h => hc h.symm
        simp only [this, hc, ↓reduceIte]
        rw [List.find?_filter]
        congr 1; funext e
        by_cases he : e.1 = c
        · simp [he, hc]
        · simp [he]
    rw [hs]
    by_cases h1 : c = a
    · subst c; rw [if_neg (by omega), if_pos rfl, if_pos (by simp)]; simp
    · by_cases h2 : a + 1 ≤ c ∧ c < a + 1 + bs.length
      · rw [if_pos h2, if_pos (by simp; omega), show c - a = (c - (a + 1)) + 1 by omega, List.getD_cons_succ]
      · rw [if_neg h2, if_neg h1, if_neg (by simp; omega)]

theorem ge5 {x : Nat} (h0 : x = 0 → False) (h1 : x = 1 → False) (h2 : x = 2 → False) (h3 : x = 3 → False) (h4 : x = 4 → False) : 5 ≤ x := by
  rcases x with _|_|_|_|_|x
  · exact absurd rfl h0
  · exact absurd rfl h1
  · exact absurd rfl h2
  · exact absurd rfl h3
  · exact absurd rfl h4
  · omega

theorem readLoc_writeLoc_ne (s : State) (d l : Loc) (bs : List Byte) (h : ¬ within l d bs.length) : (s.writeLoc d bs).readLoc l = s.readLoc l := by
  have hr : ∀ m : Mem, (d.a ≤ l.a → d.a + bs.length ≤ l.a) → (m.writeAll d.a bs).read l.a = m.read l.a := by
    intro m hh; rw [Mem.read_writeAll, if_neg (by omega)]
  unfold within at h
  unfold State.writeLoc
  split <;> rename_i hd
  · unfold State.readLoc
    split <;> try rfl
    exact hr _ fun ha => by by_contra hc; exact h ⟨by simp_all, by omega, ha, by omega⟩
  · unfold State.readLoc
    split <;> try rfl
    · exact hr _ fun ha => by by_contra hc; exact h ⟨by simp_all, by omega, ha, by omega⟩
    · rename_i h0 h1 h2 h3 h4
      have h5 := ge5 h0 h1 h2 h3 h4
      have := hr s.ext fun ha => by by_contra hc; exact h ⟨.inr ⟨hd, by omega⟩, by omega, ha, by omega⟩
      simp only [this]
  · unfold State.readLoc
    split <;> try rfl
    · rename_i hl
      show (({ s with cores := s.cores.set d.i _ } : State).core l.i).pool.read l.a = _
      rw [core_set]
      split
      · rename_i hi
        rw [hi]; exact hr _ fun ha => by by_contra hc; exact h ⟨by simp_all, fun _ => hi, ha, by omega⟩
      · rfl
  all_goals
    unfold State.readLoc
    split <;> try rfl
  · rename_i hl
    show ((({ s with clusters := s.clusters.set d.i _ } : State).cluster l.i).csu).read l.a = _
    unfold State.cluster; rw [Tab.get?_set]
    split
    · rename_i hi
      rw [hi]; exact hr _ fun ha => by by_contra hc; exact h ⟨by simp_all, fun _ => hi, ha, by omega⟩
    · rfl
  · rename_i hl
    show ((({ s with clusters := s.clusters.set d.i _ } : State).cluster l.i).cist).read l.a = _
    unfold State.cluster; rw [Tab.get?_set]
    split
    · rename_i hi; rw [hi]; rfl
    · rfl
  · rename_i hl
    show ((({ s with clusters := s.clusters.set d.i _ } : State).cluster l.i).csu).read l.a = _
    unfold State.cluster; rw [Tab.get?_set]
    split
    · rename_i hi; rw [hi]; rfl
    · rfl
  · rename_i hl
    show ((({ s with clusters := s.clusters.set d.i _ } : State).cluster l.i).cist).read l.a = _
    unfold State.cluster; rw [Tab.get?_set]
    split
    · rename_i hi
      rw [hi]; exact hr _ fun ha => by by_contra hc; exact h ⟨by simp_all, fun _ => hi, ha, by omega⟩
    · rfl
  · rename_i h0 h1 h2 h3 h4
    have h5 := ge5 h0 h1 h2 h3 h4
    have h6 : 5 ≤ d.sp := by first | exact ge5 ‹_› ‹_› ‹_› ‹_› ‹_› | (apply ge5 <;> assumption)
    simp only [held_find]
    rw [if_neg]
    intro hc; exact h ⟨.inl (by omega), by omega, hc.1, hc.2⟩

theorem readLoc_core (s : State) (c : Nat) (f : Core → Core) (l : Loc) : ((Eff.core c f).apply s).readLoc l = s.readLoc l := by
  unfold State.readLoc
  split <;> try rfl
  show (State.core (({ s with cores := s.cores.set c _ } : State)) l.i).pool.read l.a = _
  rw [core_set]
  split
  · rename_i h; rw [h]; rfl
  · rfl

theorem readLoc_clus (s : State) (c : Nat) (f : Cluster → Cluster) (l : Loc) : ((Eff.clus c f).apply s).readLoc l = s.readLoc l := by
  unfold State.readLoc
  split <;> try rfl
  all_goals
    first
    | show (State.cluster (({ s with clusters := s.clusters.set c _ } : State)) l.i).csu.read l.a = (s.cluster l.i).csu.read l.a
    | show (State.cluster (({ s with clusters := s.clusters.set c _ } : State)) l.i).cist.read l.a = (s.cluster l.i).cist.read l.a
    unfold State.cluster
    rw [Tab.get?_set]
    split
    · rename_i h; rw [h]; rfl
    · rfl
/-- A program that changes no byte. -/
def Quiet (p : Prog) : Prop := ∀ s, SameBytes s (p.run s)

theorem Quiet.done : Quiet .done := fun s l => rfl

theorem Quiet.core (c f) : Quiet (.one (.core c f)) := fun s l => readLoc_core s c f l

theorem Quiet.clus (c f) : Quiet (.one (.clus c f)) := fun s l => readLoc_clus s c f l

theorem Quiet.ctx (c f) : Quiet (.one (.ctx c f)) := fun s l => rfl

theorem Quiet.sys (f) : Quiet (.one (.sys f)) := fun s l => rfl

theorem Quiet.andThen {p q} (hp : Quiet p) (hq : Quiet q) : Quiet (p.andThen q) := fun s l => by
  rw [Prog.run_andThen]; exact (hq _ l).trans (hp s l)

theorem Quiet.read {k} (h : ∀ s, Quiet (k s)) : Quiet (.read k) := fun s l => h s s l

theorem Quiet.all {ps} (h : ∀ p ∈ ps, Quiet p) : Quiet (Prog.all ps) := by
  induction ps with
  | nil => exact Quiet.done
  | cons p r ih => exact Quiet.andThen (h p (by simp)) (ih fun q hq => h q (by simp [hq]))

theorem Quiet.each {β} {l : List β} {f : β → Prog} (h : ∀ x ∈ l, Quiet (f x)) : Quiet (Prog.each l f) :=
  Quiet.all fun p hp => by obtain ⟨x, hx, rfl⟩ := List.mem_map.mp hp; exact h x hx

theorem Quiet.when {b p} (h : Quiet p) : Quiet (Prog.when b p) := by unfold Prog.when; split; exact h; exact Quiet.done

theorem Quiet.onBlock (c b f) : Quiet (onBlock c b f) := Quiet.core _ _

theorem Quiet.onGang (c b g f) : Quiet (onGang c b g f) := Quiet.core _ _

theorem block_writeLoc (s : State) (d : Loc) (bs) (c b) : (s.writeLoc d bs).block? c b = s.block? c b := by
  unfold State.block? State.writeLoc
  split <;> try rfl
  rw [core_set]; split
  · rename_i h; rw [h]
  · rfl

theorem sbuf_writeLoc (s : State) (d : Loc) (bs) (c) : ((s.writeLoc d bs).core c).sbuf = (s.core c).sbuf := by
  unfold State.writeLoc
  split <;> try rfl
  rw [core_set]; split
  · rename_i h; rw [h]
  · rfl

theorem sys_writeLoc (s : State) (d : Loc) (bs) : (s.writeLoc d bs).sys = s.sys := by
  unfold State.writeLoc
  split <;> rfl

theorem readLoc_writeLoc_eq (s : State) (d : Loc) (bs : List Byte) (k : Nat) (hk : k < bs.length) : (s.writeLoc d bs).readLoc { d with a := d.a + k } = bs.getD k 0 := by
  have hr : ∀ m : Mem, (m.writeAll d.a bs).read (d.a + k) = bs.getD k 0 := by
    intro m; rw [Mem.read_writeAll, if_pos (by omega), show d.a + k - d.a = k by omega]
  unfold State.writeLoc State.readLoc
  dsimp only
  split <;> rename_i hd <;> (try simp only [hd])
  · exact hr _
  · exact hr _
  · show (State.core (({ s with cores := s.cores.set d.i _ } : State)) d.i).pool.read _ = _
    rw [core_set, if_pos rfl]; exact hr _
  · show (State.cluster (({ s with clusters := s.clusters.set d.i _ } : State)) d.i).csu.read _ = _
    unfold State.cluster; rw [Tab.get?_set, if_pos rfl]; exact hr _
  · show (State.cluster (({ s with clusters := s.clusters.set d.i _ } : State)) d.i).cist.read _ = _
    unfold State.cluster; rw [Tab.get?_set, if_pos rfl]; exact hr _
  · have : ((heldAll s.held d.a bs).find? fun e => decide (e.1 = d.a + k)) = some (d.a + k, bs.getD k 0, true) := by
      rw [held_find, if_pos (by omega), show d.a + k - d.a = k by omega]
    rw [this]

theorem run_write (l bs) (s : State) : (Prog.one (.write l bs)).run s = s.writeLoc l bs := rfl

theorem run_sys (f) (s : State) : (Prog.one (.sys f)).run s = { s with sys := f s.sys } := rfl

theorem run_read (k) (s : State) : (Prog.read k).run s = (k s).run s := rfl

theorem each_run_cons {β} (x : β) (l : List β) (f : β → Prog) (s) : (Prog.each (x :: l) f).run s = (Prog.each l f).run ((f x).run s) := by
  show ((f x).andThen (Prog.all (l.map f))).run s = _
  rw [Prog.run_andThen]; rfl

theorem landSome_none {s : State} (h : s.sys.stamped = []) (d f) : (landSome d f).run s = s := by
  unfold landSome; rw [run_read, h]; rfl

theorem landMet_none {s : State} (h : s.sys.stamped = []) (d l n) : (landMet d l n).run s = s := by
  unfold landMet; rw [run_read, h]; rfl

/-- With no stamped write, a read merges no clock. -/
theorem mergeRead_none {s : State} (h : s.sys.stamped = []) (d l n) : (mergeRead d l n).run s = s := by
  unfold mergeRead; rw [Prog.run_andThen, landMet_none h, run_read, h]; rfl

theorem landCovered_none {s : State} (h : s.sys.stamped = []) (d) : (landCovered d).run s = s := landSome_none h _ _

theorem catchUp_none {s : State} (h : s.sys.stamped = []) (d) : (catchUp d).run s = s := by
  unfold catchUp; rw [run_read, h]; rfl

theorem vcRaise_stamped (y : Sys) (d e v) : (vcRaise y d e v).stamped = y.stamped := by unfold vcRaise vcSet; split <;> rfl

theorem vcMerge_stamped (y : Sys) (d v) : (vcMerge y d v).stamped = y.stamped := by
  unfold vcMerge
  generalize List.range 16 = l
  induction l generalizing y with
  | nil => rfl
  | cons e r ih => rw [List.foldl_cons, ih, vcRaise_stamped]

/-- With no stamped write, a settled die has changed clocks alone. -/
theorem settleDie_none {s : State} (h : s.sys.stamped = []) (d) :
    ∃ y : Sys, y.stamped = [] ∧ (settleDie d).run s = { s with sys := y } := by
  unfold settleDie
  rw [Prog.run_andThen, landCovered_none h, run_sys]
  refine ⟨_, ?_, rfl⟩
  have : ∀ (l : List Nat) (z : Sys) (v : List W64), (l.foldl (fun z e => vcMerge z e v) z).stamped = z.stamped := by
    intro l; induction l with
    | nil => intro z v; rfl
    | cons e r ih => intro z v; rw [List.foldl_cons, ih, vcMerge_stamped]
  unfold Sys.prune; simp only [this, h, List.filter_nil]

/-- With no load still to be bound, none is bound. -/
theorem bindLate_none {s : State} {c : Nat} (h : ∀ p ∈ (s.core c).loads, p.late = false) (f) : (bindLate c f).run s = s := by
  unfold bindLate; rw [run_read]
  have : ((s.core c).loads.filter fun p => p.late && f p) = [] := by
    rw [List.filter_eq_nil_iff]; intro p hp; simp [h p hp]
  simp only [this, List.isEmpty_nil, Bool.not_true]; rfl

/-! ## Programs that change no byte -/

theorem Quiet.put (u : U) (f w v) : Quiet (u.put f w v) := Quiet.onBlock _ _ _

theorem Quiet.putAll (u : U) (f w v) : Quiet (u.putAll f w v) := Quiet.onBlock _ _ _

theorem Quiet.putPred (u : U) (f v) : Quiet (u.putPred f v) := Quiet.onBlock _ _ _

theorem Quiet.advance (u : U) (a) : Quiet (u.advance a) := Quiet.onBlock _ _ _

theorem Quiet.ite {b : Bool} {p q} (hp : Quiet p) (hq : Quiet q) : Quiet (if b = true then p else q) := by split <;> assumption

theorem Quiet.iteP {b : Prop} [Decidable b] {p q} (hp : Quiet p) (hq : Quiet q) : Quiet (if b then p else q) := by split <;> assumption

theorem Quiet.allNil : Quiet (Prog.all []) := Quiet.done

theorem Quiet.allCons {p ps} (hp : Quiet p) (hq : Quiet (Prog.all ps)) : Quiet (Prog.all (p :: ps)) := Quiet.andThen hp hq

theorem Quiet.thenNext {p : U → State → Prog} {u s} (h : Quiet (p u s)) : Quiet (thenNext p u s) := Quiet.andThen h (Quiet.advance _ _)

theorem Quiet.mixed (u : U) (s w l) : Quiet (mixedSize u s w l) := by
  unfold mixedSize; split
  · dsimp only; split
    · exact Quiet.done
    · exact Quiet.onGang _ _ _ _
  · exact Quiet.done

theorem Quiet.views (u : U) (v l) : Quiet (markViews u v l) := by
  unfold markViews; split
  · exact Quiet.onBlock _ _ _
  · exact Quiet.done

theorem Quiet.hazard (u : U) (v l) : Quiet (viewHazard u v l) := by
  unfold viewHazard; split
  · dsimp only; split
    · exact Quiet.done
    · exact Quiet.onGang _ _ _ _
  · exact Quiet.done

theorem Quiet.grid (c f) : Quiet (.one (.grid c f)) := fun s l => rfl

theorem Quiet.killGrid (g c) : Quiet (killGrid g c) := by
  unfold Machine.killGrid
  exact Quiet.read fun s => Quiet.allCons (Quiet.each fun _ _ => Quiet.core _ _)
    (Quiet.allCons (Quiet.each fun _ _ => Quiet.ctx _ _) (Quiet.allCons (Quiet.grid _ _) Quiet.allNil))

theorem Quiet.killContext (x c) : Quiet (killContext x c) := by
  unfold Machine.killContext
  exact Quiet.read fun s => Quiet.when (Quiet.andThen (Quiet.each fun _ _ => Quiet.iteP (Quiet.killGrid _ _) Quiet.done) (Quiet.sys _))

theorem Quiet.agent (x a : Nat) (f) : Quiet (onAgent x a f) := by
  unfold onAgent; refine Quiet.read fun s => ?_
  split
  · exact Quiet.done
  · exact Quiet.andThen (Quiet.when (Quiet.killContext _ _)) (Quiet.ctx _ _)

theorem Quiet.home (x a va l w) : Quiet (homeTouch x a va l w) := by
  unfold homeTouch
  refine Quiet.when (Quiet.andThen (Quiet.sys _) (Quiet.read fun s => ?_))
  dsimp only
  split
  · exact Quiet.andThen (Quiet.when (Quiet.agent _ _ _)) (Quiet.when (Quiet.sys _))
  · split
    · exact Quiet.andThen (Quiet.agent _ _ _) (Quiet.sys _)
    · split
      · exact Quiet.done
      · exact Quiet.andThen (Quiet.when (Quiet.agent _ _ _)) (Quiet.andThen (Quiet.agent _ _ _) (Quiet.sys _))

theorem Quiet.touch (u : U) (t l) : Quiet (u.touch t l) := by
  unfold U.touch
  refine Quiet.each fun n _ => Quiet.read fun s => ?_
  dsimp only; split
  · exact Quiet.when (Quiet.agent _ _ _)
  · exact Quiet.andThen (Quiet.home _ _ _ _ _) (Quiet.when (Quiet.andThen (Quiet.agent _ _ _) (Quiet.clus _ _)))

theorem Quiet.kept (x g l) : Quiet (keepTrans x g l) := by
  unfold keepTrans; refine Quiet.read fun s => ?_
  split
  · exact Quiet.done
  · dsimp only; exact Quiet.when (Quiet.ctx _ _)

theorem Quiet.charge (c e) : Quiet (chargeStore c e) := by
  unfold chargeStore; refine Quiet.read fun s => ?_
  split
  · exact Quiet.each fun _ _ => Quiet.home _ _ _ _ _
  · exact Quiet.done

theorem Quiet.send (c e r) : Quiet (sendStamped c e r) := Quiet.sys _

theorem Quiet.buffer (u : U) (s sp v w r wd a x) : Quiet (u.bufferStore s sp v w r wd a x) := Quiet.core _ _

theorem Quiet.bind (u : U) (w d l x v) : Quiet (u.bindLoads w d l x v) := Quiet.core _ _

theorem row_quiet {len g cond eff} {s : State} (h : ∀ u, Quiet (eff u s)) (hk : (simt len g cond eff).ok s = true) : SameBytes s ((simt len g cond eff).next s) := by
  unfold simt; dsimp only; cases unitOf s len
  · exact fun _ => rfl
  · exact h _ s

theorem row_quiet' {len g cond eff} {s : State} (h : ∀ u, cond u s = true → Quiet (eff u s)) (hk : (simt len g cond eff).ok s = true) : SameBytes s ((simt len g cond eff).next s) := by
  unfold simt at hk ⊢; dsimp only at hk ⊢; cases hu : unitOf s len
  · exact fun _ => rfl
  · rw [hu] at hk; simp only [Bool.and_eq_true] at hk; exact h _ hk.2 s

theorem Quiet.whenF {b p} (h : b = false) : Quiet (Prog.when b p) := by rw [h]; exact Quiet.done

/-! ## Programs that leave bytes, store buffer, loads, clocks, and the lanes and slices of blocks -/

/-- lanes and slices of a block -/
def faces (s : State) (c b : Nat) : Option (List Lane × List Slice) := (s.block? c b).map fun x => (x.lanes, x.slices)

structure Calm (c b : Nat) (p : Prog) : Prop where
  bytes : ∀ s, SameBytes s (p.run s)
  mem : ∀ s, (p.run s).mem = s.mem ∧ (p.run s).ext = s.ext ∧ (p.run s).held = s.held
  sbuf : ∀ s, ((p.run s).core c).sbuf = (s.core c).sbuf
  loads : ∀ s, ((p.run s).core c).loads = (s.core c).loads
  face : ∀ s, faces (p.run s) c b = faces s c b
  stamped : ∀ s, (p.run s).sys.stamped = s.sys.stamped ∧ (p.run s).sys.vc = s.sys.vc

theorem Calm.done {c b} : Calm c b .done := ⟨fun _ _ => rfl, fun _ => ⟨rfl, rfl, rfl⟩, fun _ => rfl, fun _ => rfl, fun _ => rfl, fun _ => ⟨rfl, rfl⟩⟩

theorem Calm.andThen {c b p q} (hp : Calm c b p) (hq : Calm c b q) : Calm c b (p.andThen q) := by
  constructor <;> intro s <;> rw [Prog.run_andThen]
  · exact fun l => (hq.bytes _ l).trans (hp.bytes _ l)
  · have h := hq.mem (p.run s); have k := hp.mem s; exact ⟨h.1.trans k.1, h.2.1.trans k.2.1, h.2.2.trans k.2.2⟩
  · rw [hq.sbuf, hp.sbuf]
  · rw [hq.loads, hp.loads]
  · rw [hq.face, hp.face]
  · exact ⟨(hq.stamped _).1.trans (hp.stamped s).1, (hq.stamped _).2.trans (hp.stamped s).2⟩

theorem Calm.read {c b k} (h : ∀ s, Calm c b (k s)) : Calm c b (.read k) :=
  ⟨fun s => (h s).bytes s, fun s => (h s).mem s, fun s => (h s).sbuf s, fun s => (h s).loads s, fun s => (h s).face s, fun s => (h s).stamped s⟩

theorem Calm.all {c b ps} (h : ∀ p ∈ ps, Calm c b p) : Calm c b (Prog.all ps) := by
  induction ps with
  | nil => exact Calm.done
  | cons p r ih => exact Calm.andThen (h p (by simp)) (ih fun q hq => h q (by simp [hq]))

theorem Calm.each {c b} {β} {l : List β} {f : β → Prog} (h : ∀ x ∈ l, Calm c b (f x)) : Calm c b (Prog.each l f) :=
  Calm.all fun p hp => by obtain ⟨x, hx, rfl⟩ := List.mem_map.mp hp; exact h x hx

theorem Calm.when {c b x p} (h : Calm c b p) : Calm c b (Prog.when x p) := by unfold Prog.when; split; exact h; exact Calm.done

theorem Calm.whenF {c b x p} (h : x = false) : Calm c b (Prog.when x p) := by rw [h]; exact Calm.done

theorem core_run (s : State) (c f k) : ((Prog.one (.core c f)).run s).core k = if k = c then (s.core c).update f else s.core k := core_set _ _ _ _

theorem Calm.onBlock {c b} (d e : Nat) (f : Block → Block) (h : ∀ x, (f x).lanes = x.lanes ∧ (f x).slices = x.slices) : Calm c b (onBlock d e f) := by
  refine ⟨Quiet.core _ _, fun _ => ⟨rfl, rfl, rfl⟩, fun s => ?_, fun s => ?_, fun s => ?_, fun _ => ⟨rfl, rfl⟩⟩
  · unfold Machine.onBlock; rw [core_run]; split
    · rename_i hc; rw [hc]; rfl
    · rfl
  · unfold Machine.onBlock; rw [core_run]; split
    · rename_i hc; rw [hc]; rfl
    · rfl
  · unfold Claims.faces; rw [block_onBlock]; split
    · rw [Option.map_map]; congr 1; funext x; simp [h x]
    · rfl

theorem Calm.onGang {c b} (d e g : Nat) (f) : Calm c b (onGang d e g f) := Calm.onBlock _ _ _ fun _ => ⟨rfl, rfl⟩

theorem Calm.ctx {c b} (x f) : Calm c b (.one (.ctx x f)) := ⟨fun _ _ => rfl, fun _ => ⟨rfl, rfl, rfl⟩, fun _ => rfl, fun _ => rfl, fun _ => rfl, fun _ => ⟨rfl, rfl⟩⟩

theorem Calm.clus {c b} (x f) : Calm c b (.one (.clus x f)) := ⟨Quiet.clus _ _, fun _ => ⟨rfl, rfl, rfl⟩, fun _ => rfl, fun _ => rfl, fun _ => rfl, fun _ => ⟨rfl, rfl⟩⟩

theorem Calm.mixed {c b} (u : U) (s w l) : Calm c b (mixedSize u s w l) := by
  unfold mixedSize; split
  · dsimp only; split
    · exact Calm.done
    · exact Calm.onGang _ _ _ _
  · exact Calm.done

theorem Calm.views {c b} (u : U) (v l) : Calm c b (markViews u v l) := by
  unfold markViews; split
  · refine Calm.onBlock _ _ _ fun x => ?_
    have h1 : ∀ (n : List Nat) (a : LAcc) (x : Block), (n.foldl (fun b i =>
          let w := viewByte v (a.ea.toNat + 4 * i) / 4
          { b with views := { addr := w, view := v, lane := a.lane, joined := 0 } :: b.views.filter fun m => m.addr != w }) x).lanes = x.lanes ∧ (n.foldl (fun b i =>
          let w := viewByte v (a.ea.toNat + 4 * i) / 4
          { b with views := { addr := w, view := v, lane := a.lane, joined := 0 } :: b.views.filter fun m => m.addr != w }) x).slices = x.slices := by
      intro n; induction n with
      | nil => intro a x; exact ⟨rfl, rfl⟩
      | cons i r ih => intro a x; rw [List.foldl_cons]; exact ih a _
    induction l generalizing x with
    | nil => exact ⟨rfl, rfl⟩
    | cons a r ih =>
      rw [List.foldl_cons]
      have := ih ((List.range ((a.size + 3) / 4)).foldl (fun b i =>
          let w := viewByte v (a.ea.toNat + 4 * i) / 4
          { b with views := { addr := w, view := v, lane := a.lane, joined := 0 } :: b.views.filter fun m => m.addr != w }) x)
      exact ⟨this.1.trans (h1 _ _ _).1, this.2.trans (h1 _ _ _).2⟩
  · exact Calm.done

theorem Calm.hazard {c b} (u : U) (v l) : Calm c b (viewHazard u v l) := by
  unfold viewHazard; split
  · dsimp only; split
    · exact Calm.done
    · exact Calm.onGang _ _ _ _
  · exact Calm.done

theorem Calm.sys {c b} (f : Sys → Sys) (h : ∀ y, (f y).stamped = y.stamped ∧ (f y).vc = y.vc) : Calm c b (.one (.sys f)) :=
  ⟨fun _ _ => rfl, fun _ => ⟨rfl, rfl, rfl⟩, fun _ => rfl, fun _ => rfl, fun _ => rfl, fun s => h s.sys⟩

theorem Calm.kept {c b} (x g l) : Calm c b (keepTrans x g l) := by
  unfold keepTrans; refine Calm.read fun s => ?_
  split
  · exact Calm.done
  · dsimp only; exact Calm.when (Calm.ctx _ _)

/-! ## What is charged to an agent whose counters are at hand -/

/-- A program that leaves bytes, store buffer, loads, clocks and blocks in each state of which `P` holds, and `P` with them. -/
structure CalmIf (P : State → Prop) (c : Nat) (p : Prog) : Prop where
  keeps : ∀ s, P s → P (p.run s)
  bytes : ∀ s, P s → SameBytes s (p.run s)
  mem : ∀ s, P s → (p.run s).mem = s.mem
  sbuf : ∀ s, P s → ((p.run s).core c).sbuf = (s.core c).sbuf
  loads : ∀ s, P s → ((p.run s).core c).loads = (s.core c).loads
  blocks : ∀ s, P s → ∀ k i, (p.run s).block? k i = s.block? k i
  stamped : ∀ s, P s → (p.run s).sys.stamped = s.sys.stamped ∧ (p.run s).sys.vc = s.sys.vc

theorem CalmIf.done {P c} : CalmIf P c .done :=
  ⟨fun _ h => h, fun _ _ _ => rfl, fun _ _ => rfl, fun _ _ => rfl, fun _ _ => rfl, fun _ _ _ _ => rfl, fun _ _ => ⟨rfl, rfl⟩⟩

theorem CalmIf.andThen {P c p q} (hp : CalmIf P c p) (hq : CalmIf P c q) : CalmIf P c (p.andThen q) := by
  constructor <;> intro s h <;> rw [Prog.run_andThen]
  · exact hq.keeps _ (hp.keeps s h)
  · exact fun l => (hq.bytes _ (hp.keeps s h) l).trans (hp.bytes s h l)
  · exact (hq.mem _ (hp.keeps s h)).trans (hp.mem s h)
  · exact (hq.sbuf _ (hp.keeps s h)).trans (hp.sbuf s h)
  · exact (hq.loads _ (hp.keeps s h)).trans (hp.loads s h)
  · exact fun k i => (hq.blocks _ (hp.keeps s h) k i).trans (hp.blocks s h k i)
  · exact ⟨(hq.stamped _ (hp.keeps s h)).1.trans (hp.stamped s h).1, (hq.stamped _ (hp.keeps s h)).2.trans (hp.stamped s h).2⟩

theorem CalmIf.read {P c k} (h : ∀ s, P s → CalmIf P c (k s)) : CalmIf P c (.read k) :=
  ⟨fun s hs => (h s hs).keeps s hs, fun s hs => (h s hs).bytes s hs, fun s hs => (h s hs).mem s hs, fun s hs => (h s hs).sbuf s hs,
    fun s hs => (h s hs).loads s hs, fun s hs => (h s hs).blocks s hs, fun s hs => (h s hs).stamped s hs⟩

theorem CalmIf.each {P c} {β} {l : List β} {f : β → Prog} (h : ∀ x, CalmIf P c (f x)) : CalmIf P c (Prog.each l f) := by
  unfold Prog.each
  induction l with
  | nil => exact CalmIf.done
  | cons a r ih => exact CalmIf.andThen (h a) ih

theorem CalmIf.when {P c x p} (h : CalmIf P c p) : CalmIf P c (Prog.when x p) := by
  unfold Prog.when; split
  · exact h
  · exact CalmIf.done

theorem countable_congr {s t : State} {x a : Nat} (h : t.ctxs = s.ctxs) (hm : t.mem = s.mem) (hc : countable s x a) : countable t x a := by
  unfold countable State.ctx? State.saveBroken State.pteAt State.word at *; rw [h, hm]; exact hc

theorem CalmIf.sys {x a c} (f : Sys → Sys) (h : ∀ y, (f y).stamped = y.stamped ∧ (f y).vc = y.vc) :
    CalmIf (countable · x a) c (.one (.sys f)) :=
  ⟨fun _ hs => countable_congr rfl rfl hs, fun _ _ _ => rfl, fun _ _ => rfl, fun _ _ => rfl, fun _ _ => rfl, fun _ _ _ _ => rfl,
    fun s _ => h s.sys⟩

theorem CalmIf.clus {x a c} (k f) : CalmIf (countable · x a) c (.one (.clus k f)) :=
  ⟨fun _ hs => countable_congr rfl rfl hs, fun s _ => Quiet.clus k f s, fun _ _ => rfl, fun _ _ => rfl, fun _ _ => rfl,
    fun _ _ _ _ => rfl, fun _ _ => ⟨rfl, rfl⟩⟩

theorem CalmIf.agent {x a c} (f) : CalmIf (countable · x a) c (onAgent x a f) := by
  have key : ∀ s, countable s x a → ∃ g : Tab Context, (onAgent x a f).run s = { s with ctxs := g } ∧
      countable { s with ctxs := g } x a := by
    intro s hs
    unfold onAgent; rw [run_read]
    cases hx : s.ctx? x with
    | none => exact ⟨s.ctxs, rfl, hs⟩
    | some ctx =>
      have hw : ((ctx.agents.get? a).isNone && s.saveBroken ctx (0x9000 + 64 * a) 64) = false := by
        rcases hs ctx hx with h | h
        · cases hg : ctx.agents.get? a <;> simp_all
        · rw [h, Bool.and_false]
      simp only [hw]
      refine ⟨_, rfl, ?_⟩
      intro c hc
      left
      have hc' : Tab.get? (s.ctxs.modify x fun c => { c with agents := c.agents.set a (f (s.agentCtr ctx a)) }) x = some c := hc
      rw [Tab.get?_modify, if_pos rfl, show s.ctxs.get? x = some ctx from hx] at hc'
      cases hc'
      rw [Tab_get_set_self]; rfl
  constructor <;> intro s hs <;> obtain ⟨g, e, h⟩ := key s hs <;> rw [e]
  · exact h
  · exact fun _ => rfl
  · rfl
  · rfl
  · exact fun _ _ => rfl
  · exact ⟨rfl, rfl⟩

theorem CalmIf.home {x a c} (va l w) : CalmIf (countable · x a) c (homeTouch x a va l w) := by
  unfold homeTouch
  have hp : ∀ v : Sys → Tab Vault, CalmIf (countable · x a) c (Prog.one (.sys fun y => { y with vaults := v y })) :=
    fun v => CalmIf.sys _ fun _ => ⟨rfl, rfl⟩
  refine CalmIf.when (CalmIf.andThen (hp _) (CalmIf.read fun s _ => ?_))
  dsimp only
  split
  · exact CalmIf.andThen (CalmIf.when (CalmIf.agent _)) (CalmIf.when (hp _))
  · split
    · exact CalmIf.andThen (CalmIf.agent _) (hp _)
    · split
      · exact CalmIf.done
      · exact CalmIf.andThen (CalmIf.when (CalmIf.agent _)) (CalmIf.andThen (CalmIf.agent _) (hp _))

theorem CalmIf.touch (u : U) (t l) {c} : CalmIf (countable · u.blk.ctx u.blk.agent.toNat) c (u.touch t l) := by
  unfold U.touch
  refine CalmIf.each fun n => CalmIf.read fun s _ => ?_
  dsimp only; split
  · exact CalmIf.when (CalmIf.agent _)
  · exact CalmIf.andThen (CalmIf.home _ _ _) (CalmIf.when (CalmIf.andThen (CalmIf.agent _) (CalmIf.clus _ _)))

/-- the advance -/
theorem advance_block (u : U) (a : W64) (s : State) (x : Block) (hn : u.members.Nodup) (h : s.block? u.c u.b = some x) :
   ∃ b, ((u.advance a).run s).block? u.c u.b = some b ∧ b.lanes = x.lanes ∧ 
     ∀ j y, x.slice? j = some y → b.slice? j = some (if j ∈ u.members then { y with pc := a } else y) := by
  unfold U.advance
  refine ⟨_, by rw [block_onBlock, if_pos ⟨rfl, rfl⟩, h]; rfl, ?_, ?_⟩
  · have hsp := (setPc_slices { x with issued := x.issued + 1 } u.members hn a).1
    unfold SlicesOnly at hsp
    show (Block.setPc { x with issued := x.issued + 1 } u.members a).lanes = _
    rw [hsp]
  · intro j y hy
    have hsp := (setPc_slices { x with issued := x.issued + 1 } u.members hn a).2 j
    show (Block.setPc { x with issued := x.issued + 1 } u.members a).slice? j = _
    rw [hsp, show ({ x with issued := x.issued + 1 } : Block).slice? j = some y from hy]
    split <;> rfl

theorem advance_core (u : U) (a : W64) (s : State) : (((u.advance a).run s).core u.c).sbuf = (s.core u.c).sbuf ∧ (((u.advance a).run s).core u.c).loads = (s.core u.c).loads := by
  unfold U.advance Machine.onBlock; rw [core_run, if_pos rfl]; exact ⟨rfl, rfl⟩

theorem face_some {s c b l sl} (h : faces s c b = some (l, sl)) : ∃ x, s.block? c b = some x ∧ x.lanes = l ∧ x.slices = sl := by
  unfold faces at h
  cases hx : s.block? c b with
  | none => rw [hx] at h; cases h
  | some x => rw [hx] at h; cases h; exact ⟨x, rfl, rfl, rfl⟩

/-- buffered entries of one access -/
theorem leBytes_take (x n k : Nat) (h : k ≤ n) : (leBytes x n).take k = leBytes x k := by
  induction n generalizing x k with
  | zero => simp at h; subst h; rfl
  | succ n ih => cases k with
    | zero => rfl
    | succ k => simp only [leBytes, List.take_succ_cons]; rw [ih _ _ (by omega)]

theorem leBytes_add (x n k : Nat) : leBytes x (n + k) = leBytes x n ++ leBytes (x / 2 ^ (8 * n)) k := by
  induction n generalizing x with
  | zero => simp [leBytes]
  | succ n ih =>
    rw [show n + 1 + k = (n + k) + 1 by omega, leBytes, leBytes, ih, List.cons_append, Nat.div_div_eq_div_mul]
    congr 4
    rw [show 8 * (n + 1) = 8 + 8 * n by omega, Nat.pow_add]

theorem placesOf_cons (r : Loc × Nat) (rs) : placesOf (r :: rs) = placesOf [r] ++ placesOf rs := by
  unfold placesOf; simp

theorem placesOf_len (r : Loc × Nat) : (placesOf [r]).length = r.2 := by unfold placesOf; simp

def total (rs : List (Loc × Nat)) : Nat := (rs.map (·.2)).sum

/-- The entry of a part of a lane's store. -/
def partEntry (u : U) (s0 : State) (sp : Space) (v w r wd : Bool) (a : LAcc) (x id : Nat) (p : Nat × LAcc) : BufStore :=
  { id, blk := u.b, thr := u.thr a.lane, runs := layRuns (u.runs s0 sp v p.2) (leBytes (x / 2 ^ (8 * p.1)) p.2.size),
    weak := w, rel := r, va := p.2.va, agent := u.blk.agent.toNat, wide := wd, grp := (u.pre.core u.c).nextId }

theorem layRuns_cells (rs : List (Loc × Nat)) (bs : List Byte) (h : total rs ≤ bs.length) :
    ((layRuns rs bs).flatMap fun r => (placesOf [(r.1, r.2.length)]).zip r.2) = (placesOf rs).zip bs := by
  induction rs generalizing bs with
  | nil => rfl
  | cons r rs ih =>
    have hr : total (r :: rs) = r.2 + total rs := by simp [total]
    rw [placesOf_cons]
    conv_rhs => rw [← List.take_append_drop r.2 bs]
    have hl : (bs.take r.2).length = r.2 := by rw [List.length_take]; omega
    rw [List.zip_append (by rw [placesOf_len, hl]), ← ih _ (by rw [List.length_drop]; omega)]
    show (placesOf [(r.1, (bs.take r.2).length)]).zip (bs.take r.2) ++ _ = _
    rw [hl]; rfl

theorem total_runs (u : U) (s sp v a) (h : u.runs s sp v a ≠ []) : total (u.runs s sp v a) = a.size := by
  unfold U.runs at h ⊢
  cases sp <;> simp only at h ⊢
  · split at h
    · simp [total]
    · exact absurd rfl h
  · unfold scratchRuns
    split
    · unfold total; rw [List.map_map]
      have : ∀ n m, ((List.range m).map fun i => min 4 (n - 4 * i)).sum = min n (4 * m) := by
        intro n m; induction m with
        | zero => simp
        | succ m ih => rw [List.range_succ, List.map_append, List.sum_append, ih]; simp; omega
      refine (this a.size ((a.size + 3) / 4)).trans (by omega)
    · simp [total]
  · simp [total]

theorem part_cells (u : U) (s0 sp v w r wd a x id) (p : Nat × LAcc) :
    bufferedCells (partEntry u s0 sp v w r wd a x id p) = (placesOf (u.runs s0 sp v p.2)).zip (leBytes (x / 2 ^ (8 * p.1)) p.2.size) := by
  unfold bufferedCells partEntry
  apply layRuns_cells
  rw [leBytes_length]
  by_cases h : u.runs s0 sp v p.2 = []
  · rw [h]; exact Nat.zero_le _
  · exact Nat.le_of_eq (total_runs u s0 sp v p.2 h)

theorem buffer_fold (u : U) (s0 sp v w r wd a x) (ps : List (Nat × LAcc)) (k : Core) : ∃ new, ∃ n,
    ps.foldl (fun k p => { k with sbuf := k.sbuf ++ [partEntry u s0 sp v w r wd a x k.nextId p], nextId := k.nextId + 1 }) k
      = { k with sbuf := k.sbuf ++ new, nextId := n } ∧
    (∀ e ∈ new, e.blk = u.b ∧ e.weak = w ∧ e.rel = r) ∧
    new.flatMap bufferedCells = ps.flatMap fun p => (placesOf (u.runs s0 sp v p.2)).zip (leBytes (x / 2 ^ (8 * p.1)) p.2.size) := by
  induction ps generalizing k with
  | nil => exact ⟨[], k.nextId, by simp, by simp, rfl⟩
  | cons p ps ih =>
    obtain ⟨new, n, h1, h2, h3⟩ := ih { k with sbuf := k.sbuf ++ [partEntry u s0 sp v w r wd a x k.nextId p], nextId := k.nextId + 1 }
    refine ⟨partEntry u s0 sp v w r wd a x k.nextId p :: new, n, ?_, ?_, ?_⟩
    · rw [List.foldl_cons, h1, List.append_assoc]; rfl
    · intro e he; rcases List.mem_cons.mp he with rfl | he
      · exact ⟨rfl, rfl, rfl⟩
      · exact h2 e he
    · rw [List.flatMap_cons, List.flatMap_cons, h3, part_cells]

/-- What a store of one lane adds to the buffer. -/
theorem bufStore_run (u : U) (s0 s : State) (sp v w r wd a x) : ∃ new,
   (((u.bufferStore s0 sp v w r wd a x).run s).core u.c).sbuf = (s.core u.c).sbuf ++ new ∧ (∀ e ∈ new, e.blk = u.b ∧ e.weak = w ∧ e.rel = r) ∧
   new.flatMap bufferedCells = (a.parts.flatMap fun p => (placesOf (u.runs s0 sp v p.2)).zip (leBytes (x / 2 ^ (8 * p.1)) p.2.size)) ∧
   (((u.bufferStore s0 sp v w r wd a x).run s).core u.c).loads = (s.core u.c).loads ∧
   faces ((u.bufferStore s0 sp v w r wd a x).run s) u.c u.b = faces s u.c u.b := by
  obtain ⟨new, n, h1, h2, h3⟩ := buffer_fold u s0 sp v w r wd a x a.parts (s.core u.c)
  have e : ((u.bufferStore s0 sp v w r wd a x).run s).core u.c =
      Core.update (fun _ => { s.core u.c with sbuf := (s.core u.c).sbuf ++ new, nextId := n }) (s.core u.c) := by
    unfold U.bufferStore; rw [core_run, if_pos rfl]
    exact congrArg (fun k : Core => { k with pool := (s.core u.c).pool }) h1
  refine ⟨new, by rw [e]; rfl, h2, h3, by rw [e]; rfl, ?_⟩
  unfold faces State.block?; rw [e]; rfl

theorem buffers_run (u : U) (s0 : State) (sp v w r wd) (x : Nat → Nat) (l : List LAcc) (s : State) : ∃ new,
   (((Prog.each l fun a => u.bufferStore s0 sp v w r wd a (x a.lane)).run s).core u.c).sbuf = (s.core u.c).sbuf ++ new ∧ (∀ e ∈ new, e.blk = u.b ∧ e.weak = w ∧ e.rel = r) ∧
   new.flatMap bufferedCells = (l.flatMap fun a => a.parts.flatMap fun p =>
     (placesOf (u.runs s0 sp v p.2)).zip (leBytes (x a.lane / 2 ^ (8 * p.1)) p.2.size)) ∧
   faces ((Prog.each l fun a => u.bufferStore s0 sp v w r wd a (x a.lane)).run s) u.c u.b = faces s u.c u.b := by
  induction l generalizing s with
  | nil => exact ⟨[], by simp [Prog.each, Prog.all, Prog.run], by simp, rfl, rfl⟩
  | cons a l ih =>
    rw [each_run_cons]
    obtain ⟨n1, h1, h2, h3, _, h5⟩ := bufStore_run u s0 s sp v w r wd a (x a.lane)
    obtain ⟨n2, k1, k2, k3, k5⟩ := ih ((u.bufferStore s0 sp v w r wd a (x a.lane)).run s)
    refine ⟨n1 ++ n2, by rw [k1, h1, List.append_assoc], fun e he => ?_, by rw [List.flatMap_append, h3, k3, List.flatMap_cons], k5.trans h5⟩
    rcases List.mem_append.mp he with he | he
    · exact h2 e he
    · exact k2 e he

theorem all_cons_run (p : Prog) (ps) (s) : (Prog.all (p :: ps)).run s = (Prog.all ps).run (p.run s) := by
  show (p.andThen (Prog.all ps)).run s = _; rw [Prog.run_andThen]

theorem members_of {s len v} (h : unitOf s len = some v) : v.members.Nodup := by rw [(unit_facts h).2.2.1]; exact members_nodup _ _

theorem face_block {s c b x} (h : s.block? c b = some x) : faces s c b = some (x.lanes, x.slices) := by unfold faces; rw [h]; rfl

theorem simt_next {len g cond eff} {s : State} {v : U} (hu : unitOf s len = some v) : (simt len g cond eff).next s = (eff (v.guarded g) s).run s := by
  unfold simt; simp only [hu]

/-- What a thread sees rests on bytes, its core's store buffer, stamped writes and clocks alone. -/
theorem see_congr {s t : State} {c b thr held} (hb : SameBytes s t) (h1 : (t.core c).sbuf = (s.core c).sbuf)
    (h2 : t.sys.stamped = s.sys.stamped) (h3 : t.sys.vc = s.sys.vc) (l n) : seeBytes t c b thr held l n = seeBytes s c b thr held l n := by
  induction n generalizing l with
  | zero => rfl
  | succ n ih =>
    unfold seeBytes; rw [ih]; congr 1
    unfold seeByte seeSent staleByte Stamped.seenBy vcAt; rw [h1, h2, h3, hb]

theorem runs_after (u : U) (s : State) (sp v w l a) : u.runs ((Prog.when (sp == .scratch) (viewHazard u w l)).run s) sp v a = u.runs s sp v a := by
  cases sp <;> rfl

theorem bind_run (u : U) (hsl : u.slot = none) (w d l x v) (s : State) :
   ∃ new, (((u.bindLoads w d l x v).run s).core u.c).loads = (s.core u.c).loads ++ new ∧
    new.map (fun p => (p.lane, p.sreg, p.reg, p.val)) = ((if isS d then v.take 1 else v).map fun e => (e.1, isS d, (if isS d then d.toNat - 0xC0 else d.toNat), BitVec.ofNat 128 (extendTo32 w e.2)))
    ∧ (∀ p ∈ new, p.blk = u.b ∧ p.w = w ∧ p.late = x.late) ∧ faces ((u.bindLoads w d l x v).run s) u.c u.b = faces s u.c u.b := by
  unfold U.bindLoads
  refine ⟨_, by rw [core_run, if_pos rfl]; rfl, ?_, ?_, ?_⟩
  · rw [List.map_map]
    have : ∀ (l : List (Nat × Nat)) n, ((l.zipIdx n).map Prod.fst) = l := by intro l n; simp
    conv_rhs => rw [← this (if isS d = true then v.take 1 else v) 0, List.map_map]
    apply List.map_congr_left
    intro e _
    simp only [Function.comp, U.place, hsl]
    split <;> rfl
  · intro p hp; obtain ⟨e, _, rfl⟩ := List.mem_map.mp hp; exact ⟨rfl, rfl, rfl⟩
  · unfold faces State.block?; rw [core_run, if_pos rfl]; rfl

theorem read_run (k : State → Prog) (s) : (Prog.read k).run s = (k s).run s := rfl

/-! ## Runs of bytes, and one indivisible read and write -/

theorem readBytes_eq (s : State) (l : Loc) (n : Nat) : s.readBytes l n = (List.range n).map fun i => s.readLoc { l with a := l.a + i } := by
  induction n generalizing l with
  | zero => rfl
  | succ n ih =>
    rw [State.readBytes, ih, List.range_succ_eq_map, List.map_cons, List.map_map]
    simp only [Nat.add_zero, Function.comp_def, Nat.succ_eq_add_one]
    congr 1
    apply List.map_congr_left; intro i _
    rw [Nat.add_assoc, Nat.add_comm 1 i]

theorem within_off (b : Loc) (n i : Nat) (h : i < n) : within { b with a := b.a + i } b n := ⟨.inl rfl, fun _ => rfl, by simp, by simp; omega⟩

theorem readRuns_congr {s t : State} {rs : List (Loc × Nat)} (h : ∀ r ∈ rs, ∀ l, within l r.1 r.2 → t.readLoc l = s.readLoc l) : readRuns t rs = readRuns s rs := by
  unfold readRuns
  refine List.flatMap_congr fun r hr => ?_
  rw [readBytes_eq, readBytes_eq]
  apply List.map_congr_left; intro i hi
  exact h r hr _ (within_off _ _ _ (List.mem_range.mp hi))

theorem writeRuns_frame (rs : List (Loc × Nat)) (bs) (s : State) (l) (h : ∀ r ∈ rs, ¬ within l r.1 r.2) : ((writeRuns rs bs).run s).readLoc l = s.readLoc l := by
  induction rs generalizing bs s with
  | nil => rfl
  | cons r rs ih =>
    show ((writeRuns rs (bs.drop r.2)).run (s.writeLoc r.1 (bs.take r.2))).readLoc l = _
    rw [ih _ _ (fun r hr => h r (by simp [hr])), readLoc_writeLoc_ne]
    intro hw; refine h r (by simp) ⟨hw.1, hw.2.1, hw.2.2.1, lt_of_lt_of_le hw.2.2.2 ?_⟩
    simp only [List.length_take]; omega

theorem writeRuns_core (rs : List (Loc × Nat)) (bs) (s : State) (c) : (((writeRuns rs bs).run s).core c).loads = (s.core c).loads ∧ (((writeRuns rs bs).run s).core c).sbuf = (s.core c).sbuf := by
  induction rs generalizing bs s with
  | nil => exact ⟨rfl, rfl⟩
  | cons r rs ih =>
    have h := ih (bs.drop r.2) (s.writeLoc r.1 (bs.take r.2))
    refine ⟨h.1.trans ?_, h.2.trans (sbuf_writeLoc _ _ _ _)⟩
    unfold State.writeLoc
    split <;> try rfl
    rw [core_set]; split
    · rename_i h; rw [h]
    · rfl

def Apart (rs : List (Loc × Nat)) : Prop := rs.Pairwise fun a b => ∀ l, within l a.1 a.2 → ¬ within l b.1 b.2

theorem writeRuns_read (rs : List (Loc × Nat)) (bs) (s : State) (ha : Apart rs) (hl : bs.length = total rs) : readRuns ((writeRuns rs bs).run s) rs = bs := by
  induction rs generalizing bs s with
  | nil => simp [total] at hl; subst hl; rfl
  | cons r rs ih =>
    obtain ⟨h1, h2⟩ := List.pairwise_cons.mp ha
    have hr : total (r :: rs) = r.2 + total rs := by simp [total]
    show readRuns ((writeRuns rs (bs.drop r.2)).run (s.writeLoc r.1 (bs.take r.2))) (r :: rs) = bs
    have := ih (bs.drop r.2) (s.writeLoc r.1 (bs.take r.2)) h2 (by rw [List.length_drop]; omega)
    unfold readRuns at this ⊢
    rw [List.flatMap_cons, this]
    conv_rhs => rw [← List.take_append_drop r.2 bs]
    congr 1
    have hlen : (bs.take r.2).length = r.2 := by rw [List.length_take]; omega
    rw [readBytes_eq]
    apply List.ext_getElem
    · simp [hlen]
    · intro i hi hj
      rw [List.getElem_map, List.getElem_range]
      have hi2 : i < r.2 := by simpa using hi
      rw [writeRuns_frame _ _ _ _ (fun b hb => h1 b hb _ (within_off _ _ _ hi2)), readLoc_writeLoc_eq _ _ _ _ (by omega)]
      rw [List.getD_eq_getElem _ _ hj]

structure Still (c : Nat) (s t : State) : Prop where
  bytes : SameBytes s t
  sbuf : (t.core c).sbuf = (s.core c).sbuf
  loads : (t.core c).loads = (s.core c).loads

theorem Still.refl {c s} : Still c s s := ⟨fun _ => rfl, rfl, rfl⟩

theorem Still.trans {c s t r} (h : Still c s t) (k : Still c t r) : Still c s r := ⟨fun l => (k.bytes l).trans (h.bytes l), k.sbuf.trans h.sbuf, k.loads.trans h.loads⟩

theorem Calm.still {c b p} (h : Calm c b p) (s) : Still c s (p.run s) := ⟨h.bytes s, h.sbuf s, h.loads s⟩

theorem Still.sys {c s} (y : Sys) : Still c s { s with sys := y } := ⟨fun _ => rfl, rfl, rfl⟩

/-- A gang with nothing in the store buffer, no load still to be bound and no stamped write in flight has nothing to wait for. -/
theorem drain_still (u : U) (s : State) (h : (s.core u.c).sbuf = []) (hl : ∀ p ∈ (s.core u.c).loads, p.late = false)
    (hw : s.sys.stamped = []) : ∃ t, (u.drain).run s = t ∧ Still u.c s t ∧ t.sys.stamped = [] := by
  have hd : ∀ (ls : List Nat) (s : State), (s.core u.c).sbuf = [] → (s.sys.stamped = []) →
      Still u.c s ((Prog.each ls (drainThread u.c u.b)).run s) ∧ ((Prog.each ls (drainThread u.c u.b)).run s).sys.stamped = [] := by
    intro ls; induction ls with
    | nil => intro s _ hw; exact ⟨Still.refl, hw⟩
    | cons a r ih =>
      intro s h hw
      rw [each_run_cons]
      have hs : Still u.c s ((drainThread u.c u.b a).run s) ∧ ((drainThread u.c u.b a).run s).sys = s.sys := by
        unfold drainThread drainTo; rw [read_run, Prog.run_andThen, h]
        refine ⟨⟨Quiet.core _ _ s, ?_, ?_⟩, rfl⟩
        · show (((Prog.one (.core u.c fun k => { k with sbuf := k.sbuf.drop 0 })).run s).core u.c).sbuf = _
          rw [core_run, if_pos rfl]; rfl
        · show (((Prog.one (.core u.c fun k => { k with sbuf := k.sbuf.drop 0 })).run s).core u.c).loads = _
          rw [core_run, if_pos rfl]; rfl
      have k := ih _ (hs.1.sbuf.trans h) (by rw [hs.2]; exact hw)
      exact ⟨hs.1.trans k.1, k.2⟩
  refine ⟨_, rfl, ?_⟩
  unfold U.drain U.settle
  rw [all_cons_run, all_cons_run]
  have h1 : Still u.c s ((Prog.when u.hart.isNone ((u.bind u.part).andThen (Prog.each (dedup (u.part.map u.thr)) (drainThread u.c u.b)))).run s) ∧
      ((Prog.when u.hart.isNone ((u.bind u.part).andThen (Prog.each (dedup (u.part.map u.thr)) (drainThread u.c u.b)))).run s).sys.stamped = [] := by
    unfold Prog.when; split
    · rw [Prog.run_andThen, show (u.bind u.part).run s = s from bindLate_none hl _]
      exact hd _ _ h hw
    · exact ⟨Still.refl, hw⟩
  obtain ⟨y, e1, e2⟩ := settleDie_none h1.2 (dieOf u.c)
  show Still u.c s ((settleDie (dieOf u.c)).run _) ∧ ((settleDie (dieOf u.c)).run _).sys.stamped = []
  rw [e2]
  exact ⟨h1.1.trans (Still.sys y), e1⟩

theorem runs_sp (u : U) (s sp v a) (h : sp = Space.clus ∨ sp = Space.scratch) : ∀ r ∈ u.runs s sp v a, r.1.sp = 3 ∨ r.1.sp = 2 := by
  intro r hr
  rcases h with rfl | rfl
  · simp only [U.runs, List.mem_singleton] at hr; subst hr; exact .inl rfl
  · change r ∈ scratchRuns u.c u.core u.blk v a.ea.toNat a.size at hr
    unfold scratchRuns at hr; split at hr
    · obtain ⟨_, _, rfl⟩ := List.mem_map.mp hr; exact .inr rfl
    · simp only [List.mem_singleton] at hr; subst hr; exact .inr rfl

theorem rmw_run (rs : List (Loc × Nat)) (hs : ∀ r ∈ rs, r.1.sp = 3 ∨ r.1.sp = 2) (n new k s) : (rmw rs n new k).run s =
   (k (leNat (readRuns s rs))).run ((writeRuns rs (leBytes (new (leNat (readRuns s rs))) n)).run s) := by
  unfold rmw; rw [Prog.run_andThen]
  have e1 : ((Prog.each rs fun r => toPort r.1 r.2).run s) = s := by
    induction rs with
    | nil => rfl
    | cons r rs ih =>
      rw [each_run_cons]
      have : (toPort r.1 r.2).run s = s := by
        unfold toPort; rw [if_neg]; rfl
        rcases hs r (by simp) with h | h <;> rw [h] <;> decide
      rw [this]; exact ih fun r hr => hs r (by simp [hr])
  have e2 : (rs.map fun r => (r.1.atPort, r.2)) = rs := by
    conv_rhs => rw [← List.map_id rs]
    apply List.map_congr_left; intro r hr
    have : r.1.atPort = r.1 := by
      unfold Loc.atPort; rw [if_neg]
      rcases hs r hr with h | h <;> omega
    rw [this]; rfl
  rw [e1, read_run, e2, Prog.run_andThen]

theorem xor_ne (x k : Nat) (he : x % 2 = 0) : (x + 1) ^^^ k ≠ x ^^^ k := by
  intro h
  have := Nat.xor_right_inj.mp (by rw [Nat.xor_comm k, Nat.xor_comm k]; exact h : k ^^^ (x + 1) = k ^^^ x)
  omega

theorem runs_apart (u : U) (s sp v a) (h : sp = Space.clus ∨ sp = Space.scratch) (hs : a.size ≤ 8) (h8 : 4 < a.size → a.ea.toNat % 8 = 0) : Apart (u.runs s sp v a) := by
  rcases h with rfl | rfl
  · exact List.pairwise_singleton _ _
  · change Apart (scratchRuns u.c u.core u.blk v a.ea.toNat a.size)
    unfold scratchRuns; split
    · by_cases hb : 4 < a.size
      · have : (a.size + 3) / 4 = 2 := by omega
        rw [this]
        refine List.pairwise_cons.mpr ⟨?_, List.pairwise_singleton _ _⟩
        intro r hr l h1 h2
        obtain ⟨w, hw, rfl⟩ := List.mem_map.mp hr
        obtain rfl := List.mem_singleton.mp hw
        have e := h8 hb
        obtain ⟨_, _, h1a, h1b⟩ := h1
        obtain ⟨_, _, h2a, h2b⟩ := h2
        simp only [viewByte, ↓reduceIte, Nat.mul_zero, Nat.add_zero, Nat.mul_one] at h1a h1b h2a h2b
        generalize a.ea.toNat = n at *
        have q1 : (n + 4) / 256 = n / 256 := by omega
        have q2 : (n + 4) / 4 % 64 = n / 4 % 64 + 1 := by omega
        have q3 : (n + 4) % 4 = 0 := by omega
        rw [q1, q2, q3] at h2a h2b
        have := xor_ne (n / 4 % 64) (n / 256 % 64) (by omega)
        generalize (n / 4 % 64 + 1) ^^^ (n / 256 % 64) = y at *
        generalize (n / 4 % 64) ^^^ (n / 256 % 64) = z at *
        omega
      · have : (a.size + 3) / 4 ≤ 1 := by omega
        have hl : (((List.range ((a.size + 3) / 4)).map fun i => ((⟨2, u.c, scrOrigin u.core u.blk + viewByte true (a.ea.toNat + 4 * i)⟩ : Loc), min 4 (a.size - 4 * i)))).length ≤ 1 := by simpa using this
        revert hl
        generalize ((List.range ((a.size + 3) / 4)).map fun i => ((⟨2, u.c, scrOrigin u.core u.blk + viewByte true (a.ea.toNat + 4 * i)⟩ : Loc), min 4 (a.size - 4 * i))) = q
        intro hl
        match q, hl with
        | [], _ => exact List.Pairwise.nil
        | [x], _ => exact List.pairwise_singleton _ _
    · exact List.pairwise_singleton _ _

theorem all_nil_run (s) : (Prog.all []).run s = s := rfl

theorem when_false_run (p : Prog) (s) : (Prog.when false p).run s = s := rfl

end Sys2Proof.Claims
end

