-- ==== Sys2Proof/Laws/Encoding.lean ====
section
/-! SUPPORT. Fields of a concatenation, and what each decoder reads from the words of its format. -/

namespace Sys2Proof

/-! ## Fields of a concatenation -/

theorem bits_append_hi {a b : Nat} (x : BitVec a) (y : BitVec b) (n l : Nat) (h : b ≤ l) :
    bits n (x ++ y) l = bits n x (l - b) := by
  apply BitVec.eq_of_getElem_eq
  intro i hi
  simp only [bits, BitVec.getElem_extractLsb', BitVec.getLsbD_append]
  rw [if_neg (by omega)]
  congr 1
  omega

theorem bits_append_lo {a b : Nat} (x : BitVec a) (y : BitVec b) (n l : Nat) (h : l + n ≤ b) :
    bits n (x ++ y) l = bits n y l := by
  apply BitVec.eq_of_getElem_eq
  intro i hi
  simp only [bits, BitVec.getElem_extractLsb', BitVec.getLsbD_append]
  rw [if_pos (by omega)]

theorem bits_whole {a : Nat} (x : BitVec a) : bits a x 0 = x := by
  apply BitVec.eq_of_getElem_eq
  intro i hi
  simp [bits]

@[simp] theorem bit_eq_one (b : Bool) : (bit b == 1) = b := by cases b <;> rfl

@[simp] theorem Ty.ofCode_code (t : Ty) : Ty.ofCode t.code = some t := by cases t <;> rfl

@[simp] theorem Rnd.ofCode_code (r : Rnd) : Rnd.ofCode r.code = some r := by cases r <;> rfl

@[simp] theorem Width.ofCode_code (w : Width) : Width.ofCode w.code = some w := by cases w <;> rfl

@[simp] theorem Ord.ofCode_code (o : Ord) : Ord.ofCode o.code = some o := by cases o <;> rfl

@[simp] theorem Scope.ofCode_code (s : Scope) : Scope.ofCode s.code = s := by cases s <;> rfl

/-! ## The formats of R76 -/

/-- The head word of `putR`, `putI`, `putM`, `putX` and `putB`. -/
def headR (maj : BitVec 6) (fn : BitVec 8) (f : RForm) : W64 :=
  maj ++ f.g.pg ++ bit f.g.pn ++ fn ++ f.d ++ f.a ++ f.b ++ f.c ++ bit f.lx.isSome ++ f.ty.code ++ f.rm.code
    ++ bit f.sat ++ f.xm

def headI (maj : BitVec 6) (fn : BitVec 4) (f : IForm) : W64 :=
  maj ++ f.g.pg ++ bit f.g.pn ++ fn ++ f.d ++ f.a ++ f.imm ++ f.ik

def headM (maj : BitVec 6) (fn : BitVec 4) (f : MForm) : W64 :=
  maj ++ f.g.pg ++ bit f.g.pn ++ fn ++ f.w.code ++ f.d ++ f.a ++ f.x ++ f.off ++ f.ord.code ++ f.scp.code ++ bit f.view

def headX (maj : BitVec 6) (fn : BitVec 6) (f : XForm) : W64 :=
  maj ++ f.g.pg ++ bit f.g.pn ++ fn ++ f.d ++ f.a ++ f.b ++ f.c ++ f.imm

def headB (maj : BitVec 6) (fn : BitVec 6) (f : BForm) : W64 :=
  maj ++ f.g.pg ++ bit f.g.pn ++ fn ++ f.a ++ f.b ++ f.off

theorem putR_eq (maj : BitVec 6) (fn : BitVec 8) (f : RForm) : putR maj fn f = headR maj fn f :: f.lx.toList := rfl
theorem putI_eq (maj : BitVec 6) (fn : BitVec 4) (f : IForm) : putI maj fn f = [headI maj fn f] := rfl
theorem putM_eq (maj : BitVec 6) (fn : BitVec 4) (f : MForm) : putM maj fn f = [headM maj fn f] := rfl
theorem putX_eq (maj : BitVec 6) (fn : BitVec 6) (f : XForm) : putX maj fn f = [headX maj fn f] := rfl
theorem putB_eq (maj : BitVec 6) (fn : BitVec 6) (f : BForm) : putB maj fn f = [headB maj fn f] := rfl

theorem getR_headR (maj : BitVec 6) (fn : BitVec 8) (f : RForm) : getR (headR maj fn f) f.lx = some f := by
  simp (disch := omega) only [headR, getR, wordGuard, bits_append_hi, bits_append_lo]
  simp only [Nat.sub_self, bits_whole, Ty.ofCode_code, Rnd.ofCode_code, bit_eq_one, Nat.reduceSub]

theorem getI_headI (maj : BitVec 6) (fn : BitVec 4) (f : IForm) : getI (headI maj fn f) = f := by
  simp (disch := omega) only [headI, getI, wordGuard, bits_append_hi, bits_append_lo]
  simp only [Nat.sub_self, bits_whole, bit_eq_one, Nat.reduceSub]

theorem getM_headM (maj : BitVec 6) (fn : BitVec 4) (f : MForm) : getM (headM maj fn f) = some f := by
  simp (disch := omega) only [headM, getM, wordGuard, bits_append_hi, bits_append_lo]
  simp only [Nat.sub_self, bits_whole, bit_eq_one, Nat.reduceSub, Width.ofCode_code, Ord.ofCode_code, Scope.ofCode_code]

theorem getX_headX (maj : BitVec 6) (fn : BitVec 6) (f : XForm) : getX (headX maj fn f) = f := by
  simp (disch := omega) only [headX, getX, wordGuard, bits_append_hi, bits_append_lo]
  simp only [Nat.sub_self, bits_whole, bit_eq_one, Nat.reduceSub]

theorem getB_headB (maj : BitVec 6) (fn : BitVec 6) (f : BForm) : getB (headB maj fn f) = f := by
  simp (disch := omega) only [headB, getB, wordGuard, bits_append_hi, bits_append_lo]
  simp only [Nat.sub_self, bits_whole, bit_eq_one, Nat.reduceSub]

/-! ## Major and function of a head word -/

theorem wordMaj_headR (maj : BitVec 6) (fn : BitVec 8) (f : RForm) : wordMaj (headR maj fn f) = maj.toNat := by
  simp (disch := omega) only [headR, wordMaj, bits_append_hi, bits_append_lo]
  simp only [Nat.sub_self, bits_whole, Nat.reduceSub]

theorem fn_headR (maj : BitVec 6) (fn : BitVec 8) (f : RForm) : bits 8 (headR maj fn f) 46 = fn := by
  simp (disch := omega) only [headR, bits_append_hi, bits_append_lo]
  simp only [Nat.sub_self, bits_whole, Nat.reduceSub]

theorem lx_headR (maj : BitVec 6) (fn : BitVec 8) (f : RForm) : (bits 1 (headR maj fn f) 13 == 1) = f.lx.isSome := by
  simp (disch := omega) only [headR, bits_append_hi, bits_append_lo]
  simp only [Nat.sub_self, bits_whole, Nat.reduceSub, bit_eq_one]

theorem wordMaj_headI (maj : BitVec 6) (fn : BitVec 4) (f : IForm) : wordMaj (headI maj fn f) = maj.toNat := by
  simp (disch := omega) only [headI, wordMaj, bits_append_hi, bits_append_lo]
  simp only [Nat.sub_self, bits_whole, Nat.reduceSub]

theorem fn_headI (maj : BitVec 6) (fn : BitVec 4) (f : IForm) : bits 4 (headI maj fn f) 50 = fn := by
  simp (disch := omega) only [headI, bits_append_hi, bits_append_lo]
  simp only [Nat.sub_self, bits_whole, Nat.reduceSub]

theorem wordMaj_headM (maj : BitVec 6) (fn : BitVec 4) (f : MForm) : wordMaj (headM maj fn f) = maj.toNat := by
  simp (disch := omega) only [headM, wordMaj, bits_append_hi, bits_append_lo]
  simp only [Nat.sub_self, bits_whole, Nat.reduceSub]

theorem fn_headM (maj : BitVec 6) (fn : BitVec 4) (f : MForm) : bits 4 (headM maj fn f) 50 = fn := by
  simp (disch := omega) only [headM, bits_append_hi, bits_append_lo]
  simp only [Nat.sub_self, bits_whole, Nat.reduceSub]

theorem wordMaj_headX (maj : BitVec 6) (fn : BitVec 6) (f : XForm) : wordMaj (headX maj fn f) = maj.toNat := by
  simp (disch := omega) only [headX, wordMaj, bits_append_hi, bits_append_lo]
  simp only [Nat.sub_self, bits_whole, Nat.reduceSub]

theorem fn_headX (maj : BitVec 6) (fn : BitVec 6) (f : XForm) : bits 6 (headX maj fn f) 48 = fn := by
  simp (disch := omega) only [headX, bits_append_hi, bits_append_lo]
  simp only [Nat.sub_self, bits_whole, Nat.reduceSub]

theorem imm_headX (maj : BitVec 6) (fn : BitVec 6) (f : XForm) : bits 16 (headX maj fn f) 0 = f.imm := by
  simp (disch := omega) only [headX, bits_append_hi, bits_append_lo]
  simp only [bits_whole]

theorem pb_headX (maj : BitVec 6) (fn : BitVec 6) (f : XForm) : bits 1 (headX maj fn f) 15 = bits 1 f.imm 15 := by
  simp (disch := omega) only [headX, bits_append_hi, bits_append_lo]

theorem wordMaj_headB (maj : BitVec 6) (fn : BitVec 6) (f : BForm) : wordMaj (headB maj fn f) = maj.toNat := by
  simp (disch := omega) only [headB, wordMaj, bits_append_hi, bits_append_lo]
  simp only [Nat.sub_self, bits_whole, Nat.reduceSub]

theorem fn_headB (maj : BitVec 6) (fn : BitVec 6) (f : BForm) : bits 6 (headB maj fn f) 48 = fn := by
  simp (disch := omega) only [headB, bits_append_hi, bits_append_lo]
  simp only [Nat.sub_self, bits_whole, Nat.reduceSub]

/-! ## Majors that no table of a format lists -/

theorem rOp_none {maj fn : Nat} (h : maj ∉ [0x00, 0x03, 0x04, 0x08, 0x0A, 0x0B, 0x10, 0x11, 0x15]) : rOp maj fn = none := by
  unfold rOp; split <;> first | rfl | exact absurd (by decide) h

theorem iOp_none {maj fn : Nat} (h : maj ∉ [0x01, 0x02, 0x09]) : iOp maj fn = none := by
  unfold iOp; split <;> first | rfl | exact absurd (by decide) h

theorem mOp_none {maj fn : Nat} (h : maj ∉ [0x18, 0x19]) : mOp maj fn = none := by
  unfold mOp; split <;> first | rfl | exact absurd (by decide) h

theorem xOp_none {maj fn : Nat} {imm : BitVec 16} (h : maj = 0x2E) : xOp maj fn imm = none := by
  subst h; rfl

theorem xbOp_none {maj fn : Nat} {imm : BitVec 16} (h : maj ∉ [0x24, 0x28]) : xbOp maj fn imm = none := by
  unfold xbOp; split <;> first | rfl | exact absurd (by decide) h

theorem bOp_none {maj fn : Nat} (h : maj ≠ 0x2E) : bOp maj fn = none := by
  unfold bOp; split <;> first | rfl | exact absurd (by decide) h

/-! ## Decoding the words of a format -/

theorem checked_ok {i : Instr} (h : i.wf = true) (rest : List W64) : checked i rest = .ok (i, rest) := by
  simp [checked, h]

theorem decodeNative_putR {maj : BitVec 6} {fn : BitVec 8} {k : RForm → Instr} (f : RForm) (rest : List W64)
    (hk : rOp maj.toNat fn.toNat = some k) (h : (k f).wf = true) :
    decodeNative (putR maj fn f ++ rest) = .ok (k f, rest) := by
  rw [putR_eq, List.cons_append]
  have hg := getR_headR maj fn f
  have hl := lx_headR maj fn f
  unfold decodeNative
  simp only [wordMaj_headR, fn_headR, hk, hl]
  cases hx : f.lx with
  | none => rw [hx] at hg; simp only [Option.isSome_none, Option.toList_none, List.nil_append, hg]; exact checked_ok h rest
  | some w =>
    rw [hx] at hg
    simp only [Option.isSome_some, Option.toList_some, List.cons_append, List.nil_append, hg]
    exact checked_ok h rest

theorem decodeNative_putI {maj : BitVec 6} {fn : BitVec 4} {k : IForm → Instr} (f : IForm) (rest : List W64)
    (hm : maj.toNat ∉ [0x00, 0x03, 0x04, 0x08, 0x0A, 0x0B, 0x10, 0x11, 0x15])
    (hk : iOp maj.toNat fn.toNat = some k) (h : (k f).wf = true) :
    decodeNative (putI maj fn f ++ rest) = .ok (k f, rest) := by
  rw [putI_eq]
  unfold decodeNative
  simp only [List.cons_append, List.nil_append, wordMaj_headI, rOp_none hm, fn_headI, hk, getI_headI]
  exact checked_ok h rest

theorem decodeNative_putM {maj : BitVec 6} {fn : BitVec 4} {k : MForm → Instr} (f : MForm) (rest : List W64)
    (hm : maj.toNat ∉ [0x00, 0x03, 0x04, 0x08, 0x0A, 0x0B, 0x10, 0x11, 0x15])
    (hi : maj.toNat ∉ [0x01, 0x02, 0x09])
    (hk : mOp maj.toNat fn.toNat = some k) (h : (k f).wf = true) :
    decodeNative (putM maj fn f ++ rest) = .ok (k f, rest) := by
  rw [putM_eq]
  unfold decodeNative
  simp only [List.cons_append, List.nil_append, wordMaj_headM, rOp_none hm, iOp_none hi, fn_headM, hk, getM_headM]
  exact checked_ok h rest

theorem decodeNative_putX {maj fn : BitVec 6} {k : XForm → Instr} (f : XForm) (rest : List W64)
    (hm : maj.toNat ∉ [0x00, 0x03, 0x04, 0x08, 0x0A, 0x0B, 0x10, 0x11, 0x15])
    (hi : maj.toNat ∉ [0x01, 0x02, 0x09]) (hn : maj.toNat ∉ [0x18, 0x19])
    (hk : xOp maj.toNat fn.toNat f.imm = some k) (h : (k f).wf = true) :
    decodeNative (putX maj fn f ++ rest) = .ok (k f, rest) := by
  rw [putX_eq]
  unfold decodeNative
  simp only [List.cons_append, List.nil_append, wordMaj_headX, rOp_none hm, iOp_none hi, mOp_none hn, fn_headX,
    imm_headX, hk, getX_headX]
  exact checked_ok h rest

theorem decodeNative_putB {fn : BitVec 6} {k : BForm → Instr} (f : BForm) (rest : List W64)
    (hk : bOp 0x2E fn.toNat = some k) (h : (k f).wf = true) :
    decodeNative (putB 0x2E fn f ++ rest) = .ok (k f, rest) := by
  rw [putB_eq]
  unfold decodeNative
  simp only [List.cons_append, List.nil_append, wordMaj_headB, fn_headB, getB_headB]
  rw [show BitVec.toNat (0x2E : BitVec 6) = 0x2E from rfl]
  simp only [rOp_none (maj := 0x2E) (by decide), iOp_none (maj := 0x2E) (by decide), mOp_none (maj := 0x2E) (by decide),
    xOp_none (maj := 0x2E) rfl, xbOp_none (maj := 0x2E) (by decide), hk]
  exact checked_ok h rest

/-- PB says whether a block follows (R92). -/
theorem XForm.pb_of_blkOk {f : XForm} {blk : Option ParamBlock} (h : f.blkOk blk = true) :
    (bits 1 f.imm 15 == 1) = blk.isSome := by
  have e : (bits 1 f.imm 15 == 1) = (f.fld 1 15 == 1) := by
    unfold XForm.fld
    generalize bits 1 f.imm 15 = b
    revert b; decide
  rw [e]
  cases blk <;> simp_all [XForm.blkOk]

theorem decodeNative_putXB {maj fn : BitVec 6} {k : XForm → Option ParamBlock → Instr} (f : XForm) (blk : Option ParamBlock)
    (rest : List W64) (hm : maj.toNat ∉ [0x00, 0x03, 0x04, 0x08, 0x0A, 0x0B, 0x10, 0x11, 0x15])
    (hi : maj.toNat ∉ [0x01, 0x02, 0x09]) (hn : maj.toNat ∉ [0x18, 0x19])
    (hx : xOp maj.toNat fn.toNat f.imm = none) (hk : xbOp maj.toNat fn.toNat f.imm = some k)
    (hb : f.blkOk blk = true) (h : (k f blk).wf = true) :
    decodeNative (putXB maj fn f blk ++ rest) = .ok (k f blk, rest) := by
  unfold putXB
  rw [putX_eq]
  unfold decodeNative
  simp only [List.cons_append, List.nil_append, wordMaj_headX, rOp_none hm, iOp_none hi, mOp_none hn, fn_headX,
    imm_headX, hx, hk, getX_headX, pb_headX, XForm.pb_of_blkOk hb]
  cases blk <;> exact checked_ok h rest

/-! ## Words of a hart and of Exdin code -/

theorem getExOp_putExOp (o : ExOp) : getExOp (putExOp o) = some o := by
  cases o <;>
    (simp (disch := omega) only [putExOp, getExOp, bits_append_hi, bits_append_lo]
     simp only [Nat.sub_self, bits_whole, Nat.reduceSub]
     first | rfl | simp)

theorem getExOps_map (l : List ExOp) : getExOps (l.map putExOp) = some l := by
  induction l with
  | nil => rfl
  | cons o r ih => simp only [List.map_cons, getExOps, getExOp_putExOp, ih]

/-- The head word of `putEx`. -/
def headEx (opc : BitVec 7) (f : ExForm) : W32 :=
  opc ++ f.ty.code ++ BitVec.ofNat 3 f.nop ++ f.rm.code ++ bit f.sat ++ bit f.guard.isSome
    ++ bit (match f.guard with | some (_, n) => n | none => false) ++ f.xm

theorem putEx_eq (opc : BitVec 7) (f : ExForm) :
    putEx opc f = headEx opc f :: ((match f.guard with | some (o, _) => [putExOp o] | none => []) ++ f.ops.map putExOp) := rfl

theorem opc_headEx (opc : BitVec 7) (f : ExForm) : bits 7 (headEx opc f) 25 = opc := by
  simp (disch := omega) only [headEx, bits_append_hi, bits_append_lo]
  simp only [Nat.sub_self, bits_whole, Nat.reduceSub]

theorem ty_headEx (opc : BitVec 7) (f : ExForm) : bits 5 (headEx opc f) 20 = f.ty.code := by
  simp (disch := omega) only [headEx, bits_append_hi, bits_append_lo]
  simp only [Nat.sub_self, bits_whole, Nat.reduceSub]

theorem nop_headEx (opc : BitVec 7) (f : ExForm) (h : f.nop ≤ 7) : exNopOf (headEx opc f) = f.nop := by
  unfold exNopOf
  simp (disch := omega) only [headEx, bits_append_hi, bits_append_lo]
  simp only [Nat.sub_self, bits_whole, Nat.reduceSub, BitVec.toNat_ofNat]
  omega

theorem rm_headEx (opc : BitVec 7) (f : ExForm) : bits 3 (headEx opc f) 14 = f.rm.code := by
  simp (disch := omega) only [headEx, bits_append_hi, bits_append_lo]
  simp only [Nat.sub_self, bits_whole, Nat.reduceSub]

theorem sat_headEx (opc : BitVec 7) (f : ExForm) : bits 1 (headEx opc f) 13 = bit f.sat := by
  simp (disch := omega) only [headEx, bits_append_hi, bits_append_lo]
  simp only [Nat.sub_self, bits_whole, Nat.reduceSub]

theorem g_headEx (opc : BitVec 7) (f : ExForm) : bits 1 (headEx opc f) 12 = bit f.guard.isSome := by
  simp (disch := omega) only [headEx, bits_append_hi, bits_append_lo]
  simp only [Nat.sub_self, bits_whole, Nat.reduceSub]

theorem gn_headEx (opc : BitVec 7) (f : ExForm) :
    bits 1 (headEx opc f) 11 = bit (match f.guard with | some (_, n) => n | none => false) := by
  simp (disch := omega) only [headEx, bits_append_hi, bits_append_lo]
  simp only [Nat.sub_self, bits_whole, Nat.reduceSub]

theorem xm_headEx (opc : BitVec 7) (f : ExForm) : bits 11 (headEx opc f) 0 = f.xm := by
  simp (disch := omega) only [headEx, bits_append_lo]
  simp only [bits_whole]

theorem decodeExdin_putEx {opc : BitVec 7} {k : ExForm → Instr} (f : ExForm) (rest : List W32)
    (hk : exOp opc.toNat = some k) (hn : f.nop ≤ 7) (h : (k f).wf = true) :
    decodeExdin (putEx opc f ++ rest) = .ok (k f, rest) := by
  obtain ⟨ty, rm, sat, guard, xm, ops⟩ := f
  rw [putEx_eq, List.cons_append]
  unfold decodeExdin
  simp only [opc_headEx, hk, nop_headEx _ _ hn, ty_headEx, rm_headEx, sat_headEx, g_headEx, gn_headEx, xm_headEx,
    Ty.ofCode_code, Rnd.ofCode_code, bit_eq_one]
  have hl : ∀ l : List ExOp, (l.map putExOp ++ rest).take l.length = l.map putExOp := fun l => by
    simp [List.take_append]
  have hd : ∀ l : List ExOp, (l.map putExOp ++ rest).drop l.length = rest := fun l => by simp [List.drop_append]
  cases guard with
  | none =>
    simp only [ExForm.nop, Option.isSome_none, Bool.false_eq_true, ↓reduceIte, Nat.add_zero, List.nil_append,
      List.length_append, List.length_map]
    rw [if_neg (by omega), hl, hd, getExOps_map]
    simp [exSplit, h]
  | some g =>
    obtain ⟨o, n⟩ := g
    simp only [ExForm.nop, Option.isSome_some, ↓reduceIte, List.singleton_append, List.length_append,
      List.length_cons, List.length_map]
    have e : putExOp o :: List.map putExOp ops = (o :: ops).map putExOp := rfl
    have e2 : ops.length + 1 = (o :: ops).length := rfl
    rw [if_neg (by simp <;> omega), e, e2, hl, hd, getExOps_map]
    simp [exSplit, h]

end Sys2Proof
end

