-- ==== Sys2Proof/Laws/Keep.lean ====
section
/-! SUPPORT. Programs that keep the lanes and s-registers of every block, or its blocks altogether, and what a trap's entry, a
return and the end of a grid do to a block. -/

namespace Sys2Proof.Claims

open Sys2Proof.Machine

set_option linter.all false

/-- A block whose lanes and s-registers are as they were. -/
def BK (x y : Block) : Prop := y.lanes = x.lanes ∧ ∀ j : Nat, (y.slice? j).map (·.s) = (x.slice? j).map (·.s)

theorem BK.refl {x} : BK x x := ⟨rfl, fun _ => rfl⟩

theorem BK.trans {x y z} (h : BK x y) (k : BK y z) : BK x z := ⟨k.1.trans h.1, fun j => (k.2 j).trans (h.2 j)⟩

theorem BK.of {x y : Block} (h : y.lanes = x.lanes) (k : y.slices = x.slices) : BK x y := ⟨h, fun j => by unfold Block.slice?; rw [k]⟩

theorem BK.modSlice {x : Block} (i f) (h : ∀ z, (f z).s = z.s) : BK x (x.modSlice i f) := by
  refine ⟨rfl, fun j => ?_⟩
  rw [slice_modSlice]; split
  · rw [Option.map_map]; congr 1; funext z; exact h z
  · rfl

theorem BK.modGang {x : Block} (g f) : BK x (x.modGang g f) := ⟨rfl, fun _ => rfl⟩

theorem BK.foldl {α} (l : List α) (f : Block → α → Block) (x : Block) (h : ∀ b a, BK b (f b a)) : BK x (l.foldl f x) := by
  induction l generalizing x with
  | nil => exact BK.refl
  | cons a r ih => exact (h x a).trans (ih _)

structure K (p : Prog) : Prop where
  keep : ∀ s, RegsKept s (p.run s)

theorem rk_iff {s t : State} : RegsKept s t ↔ ∀ c b x, s.block? c b = some x → ∃ y, t.block? c b = some y ∧ BK x y := Iff.rfl

theorem RK.refl {s} : RegsKept s s := fun c b x h => ⟨x, h, BK.refl⟩

theorem RK.trans {s t u} (h : RegsKept s t) (k : RegsKept t u) : RegsKept s u := fun c b x hx => by
  obtain ⟨y, hy, h1⟩ := h c b x hx
  obtain ⟨z, hz, h2⟩ := k c b y hy
  exact ⟨z, hz, BK.trans (x := x) (y := y) (z := z) h1 h2⟩

theorem RK.blocks {s t : State} (h : ∀ c b, t.block? c b = s.block? c b) : RegsKept s t := fun c b x hx => ⟨x, by rw [h, hx], BK.refl⟩

theorem K.done : K .done := ⟨fun _ => RK.refl⟩

theorem K.andThen {p q} (hp : K p) (hq : K q) : K (p.andThen q) := ⟨fun s => by rw [Prog.run_andThen]; exact RK.trans (hp.keep s) (hq.keep _)⟩

theorem K.read {k} (h : ∀ s, K (k s)) : K (.read k) := ⟨fun s => (h s).keep s⟩

theorem K.all {ps} (h : ∀ p ∈ ps, K p) : K (Prog.all ps) := by
  induction ps with
  | nil => exact K.done
  | cons p r ih => exact K.andThen (h p (by simp)) (ih fun q hq => h q (by simp [hq]))

theorem K.allNil : K (Prog.all []) := K.done

theorem K.allCons {p ps} (hp : K p) (hq : K (Prog.all ps)) : K (Prog.all (p :: ps)) := K.andThen hp hq

theorem K.each {β} {l : List β} {f : β → Prog} (h : ∀ x, K (f x)) : K (Prog.each l f) :=
  K.all fun p hp => by obtain ⟨x, _, rfl⟩ := List.mem_map.mp hp; exact h x

theorem K.when {b p} (h : K p) : K (Prog.when b p) := by unfold Prog.when; split; exact h; exact K.done

theorem K.core {c} {f : Core → Core} (h : ∀ k, (f k).blocks = k.blocks) : K (.one (.core c f)) := ⟨fun s => RK.blocks fun c' b => by
  unfold State.block?; rw [core_run]; split
  · rename_i e; rw [e]; show ((f (s.core c)).blocks).get? b = _; rw [h]
  · rfl⟩

theorem K.coreB {c} {f : Core → Core} (h : ∀ k b x, k.blocks.get? b = some x → ∃ y, (f k).blocks.get? b = some y ∧ BK x y) : K (.one (.core c f)) := ⟨fun s c' b x hx => by
  unfold State.block? at hx ⊢; rw [core_run]; split
  · rename_i e; rw [e] at hx; exact h _ _ _ hx
  · exact ⟨x, hx, BK.refl⟩⟩

theorem K.clus {c f} : K (.one (.clus c f)) := ⟨fun s => RK.blocks fun _ _ => rfl⟩

theorem K.ctx {c f} : K (.one (.ctx c f)) := ⟨fun s => RK.blocks fun _ _ => rfl⟩

theorem K.grid {c f} : K (.one (.grid c f)) := ⟨fun s => RK.blocks fun _ _ => rfl⟩

theorem K.sys {f} : K (.one (.sys f)) := ⟨fun s => RK.blocks fun _ _ => rfl⟩

theorem K.write {l bs} : K (.one (.write l bs)) := ⟨fun s => RK.blocks fun _ _ => block_writeLoc _ _ _ _ _⟩

theorem K.zero {l n} : K (.one (.zero l n)) := ⟨fun s => RK.blocks fun c b => by
  show State.block? (s.zeroLoc l n) c b = _
  unfold State.block? State.zeroLoc
  split <;> try rfl
  rw [core_set]; split
  · rename_i h; rw [h]
  · rfl⟩

theorem K.onBlock {c b} {f : Block → Block} (h : ∀ x, BK x (f x)) : K (onBlock c b f) := ⟨fun s c' b' x hx => by
  rw [block_onBlock]; split
  · rw [hx]; exact ⟨f x, rfl, h x⟩
  · exact ⟨x, hx, BK.refl⟩⟩

theorem K.onGang {c b g f} : K (onGang c b g f) := K.onBlock fun _ => ⟨rfl, fun _ => rfl⟩

theorem K.land {w} : K (landStamped w) := by
  unfold landStamped; exact K.read fun s => K.andThen K.write K.sys

theorem K.some {d f} : K (landSome d f) := by unfold landSome; exact K.read fun s => K.each fun _ => K.land

theorem K.covered {d} : K (landCovered d) := K.some

theorem K.met {d l n} : K (landMet d l n) := by unfold landMet; exact K.read fun s => K.when K.some

theorem K.settle {d} : K (settleDie d) := by unfold settleDie; exact K.andThen K.covered K.sys

theorem K.merge {d l n} : K (mergeRead d l n) := by
  unfold mergeRead; exact K.andThen K.met (K.read fun s => K.when K.sys)

theorem K.catchUp {d} : K (catchUp d) := by
  unfold Machine.catchUp; exact K.read fun s => K.when (K.andThen K.sys (K.andThen K.covered K.sys))

theorem BK.kill (x : Block) : BK x x.kill := by
  refine ⟨rfl, fun j => ?_⟩
  unfold Block.kill Block.slice?; dsimp only
  rw [List.getElem?_map, Option.map_map]; rfl

theorem K.killGrid {g c} : K (killGrid g c) := by
  unfold Machine.killGrid
  refine K.read fun s => K.allCons (K.each fun e => K.coreB fun k b x hx => ?_) (K.allCons (K.each fun _ => K.ctx) (K.allCons K.grid K.allNil))
  have hm : ∀ l : Tab Block, Tab.get? (l.map fun b => if b.2.grid == g then (b.1, b.2.kill) else b) b
      = (Tab.get? l b).map fun x => if x.grid == g then x.kill else x := by
    intro l; induction l with
    | nil => rfl
    | cons a l ih =>
      obtain ⟨i, y⟩ := a
      have e : (if ((i, y) : Nat × Block).2.grid == g then (i, y.kill) else (i, y)) = (i, if y.grid == g then y.kill else y) := by
        dsimp only; split <;> rfl
      rw [List.map_cons, e, Tab.get?, Tab.get?]
      split
      · rfl
      · exact ih
  refine ⟨if x.grid == g then x.kill else x, by dsimp only; rw [hm, hx]; rfl, ?_⟩
  split
  · exact BK.kill x
  · exact BK.refl

theorem K.killContext {x c} : K (killContext x c) := by
  unfold Machine.killContext
  refine K.read fun s => K.when (K.andThen (K.each fun e => ?_) K.sys)
  split
  · exact K.killGrid
  · exact K.done

theorem K.agent {x a f} : K (onAgent x a f) := by
  unfold onAgent; refine K.read fun s => ?_
  split
  · exact K.done
  · exact K.andThen (K.when K.killContext) K.ctx

theorem K.home {x a va l w} : K (homeTouch x a va l w) := by
  unfold homeTouch
  refine K.when (K.andThen K.sys (K.read fun s => ?_))
  dsimp only
  split
  · exact K.andThen (K.when K.agent) (K.when K.sys)
  · split
    · exact K.andThen K.agent K.sys
    · split
      · exact K.done
      · exact K.andThen (K.when K.agent) (K.andThen K.agent K.sys)

theorem K.charge {c e} : K (chargeStore c e) := by
  unfold chargeStore; refine K.read fun s => ?_
  split
  · exact K.each fun _ => K.home
  · exact K.done

theorem K.after {d e} : K (afterStamped d e) := by
  unfold afterStamped; exact K.each fun _ => K.merge

theorem K.perform {c e} : K (performStore c e) := by
  unfold performStore; split
  · exact K.allCons (K.when K.settle) (K.allCons K.charge (K.allCons (K.each fun _ => K.sys) K.allNil))
  · refine K.allCons ?_ (K.allCons K.charge (K.allCons (K.each fun _ => K.write) K.allNil))
    split
    · exact K.after
    · exact K.settle

theorem K.drainTo {c f} : K (drainTo c f) := by
  unfold Machine.drainTo; exact K.read fun s => K.andThen (K.each fun _ => K.perform) (K.core fun _ => rfl)

theorem K.drainT {c b t} : K (drainThread c b t) := K.drainTo

theorem K.bindLate {c f} : K (bindLate c f) := by
  unfold Machine.bindLate
  exact K.read fun s => K.when (K.andThen (K.each fun _ => K.each fun _ => K.merge) (K.read fun _ => K.core fun _ => rfl))

theorem K.settleU {u : U} {l} : K (u.settle l) := by
  unfold U.settle; exact K.allCons (K.when (K.andThen K.bindLate (K.each fun _ => K.drainT))) (K.allCons K.settle K.allNil)

theorem K.drain {u : U} : K u.drain := K.settleU

theorem K.release {u : U} : K u.release := K.settleU

theorem K.fullFence {u : U} : K u.fullFence := by
  unfold U.fullFence; exact K.allCons K.drain (K.allCons K.catchUp (K.allCons K.settle K.allNil))

theorem K.kept {x g l} : K (keepTrans x g l) := by
  unfold keepTrans; refine K.read fun s => ?_
  split
  · exact K.done
  · exact K.when K.ctx

theorem K.onPart {k p f} : K (onPart k p f) := K.clus

theorem K.onFlume {u : U} {q f} : K (u.onFlume q f) := by unfold U.onFlume; exact K.core fun _ => rfl

theorem BK.setPc (x : Block) (ms a) : BK x (x.setPc ms a) := BK.foldl _ _ _ fun _ _ => BK.modSlice _ _ fun _ => rfl

theorem K.advance {u : U} {a} : K (u.advance a) := by
  unfold U.advance; exact K.onBlock fun x => BK.trans (BK.trans (y := { x with issued := x.issued + 1 }) (BK.of rfl rfl) (BK.setPc _ _ _)) (BK.modGang _ _)

theorem K.buffer {u : U} {s sp v w r wd a x} : K (u.bufferStore s sp v w r wd a x) := by
  unfold U.bufferStore; refine K.core fun k => ?_
  obtain ⟨new, n, h, _⟩ := buffer_fold u s sp v w r wd a x a.parts k
  have hb := congrArg Core.blocks h
  unfold partEntry at hb
  exact hb

theorem K.mixed {u : U} {s w l} : K (mixedSize u s w l) := by
  unfold mixedSize; split
  · dsimp only; split
    · exact K.done
    · exact K.onGang
  · exact K.done

theorem K.views {u : U} {v l} : K (markViews u v l) := by
  unfold markViews; split
  · exact K.onBlock fun x => BK.foldl _ _ _ fun b a => BK.foldl _ _ _ fun b a => BK.of rfl rfl
  · exact K.done

theorem K.touch {u : U} {t l} : K (u.touch t l) := by
  unfold U.touch; refine K.each fun n => K.read fun s => ?_
  dsimp only; split
  · exact K.when K.agent
  · exact K.andThen K.home (K.when (K.andThen K.agent K.clus))

theorem K.addPend {c i n} : K (Machine.addPend c i n) := by unfold Machine.addPend; exact K.core fun _ => rfl

theorem BK.part (x : Block) (g) : BK x (x.part g) := by
  unfold Block.part; dsimp only; split
  · exact BK.refl
  · exact BK.refl
  · refine BK.foldl _ _ _ fun b a => ?_
    have h1 : ∀ l : List Nat, BK b (List.foldl (fun b_1 i => b_1.modSlice i fun y => { y with gang := b.nextGang }) b l) := fun l => BK.foldl _ _ b fun _ _ => BK.modSlice _ _ fun _ => rfl
    generalize (x.members g).filter _ = l
    exact ⟨(h1 l).1, (h1 l).2⟩

theorem K.saveBytes {x o bs} : K (saveBytes x o bs) := by
  unfold Machine.saveBytes; refine K.read fun s => ?_
  split
  · exact K.done
  · exact K.each fun _ => K.write

theorem K.saveWrite {x o bs} : K (saveWrite x o bs) := by
  unfold Machine.saveWrite; refine K.read fun s => ?_
  split
  · exact K.done
  · split
    · exact K.killContext
    · exact K.saveBytes

theorem K.log {x bs} : K (logRecord x bs) := by
  unfold logRecord; refine K.read fun s => ?_
  split
  · exact K.done
  · dsimp only; split
    · exact K.killContext
    · split
      · exact K.allCons K.saveWrite (K.allCons K.saveWrite K.allNil)
      · exact K.saveWrite

theorem K.settlePend {c b} : K (settlePend c b) := by
  unfold Machine.settlePend; refine K.read fun s => ?_
  split
  · exact K.done
  · dsimp only; split
    · exact K.done
    · exact K.andThen (K.onBlock fun x => BK.of rfl rfl) (K.each fun _ => K.log)

theorem K.thenNext {p : U → State → Prog} {u s} (h : K (p u s)) : K (thenNext p u s) := K.andThen h K.advance

theorem K.thenStay {w} {p : U → State → Prog} {u s} (h : K (p u s)) : K (thenStay w p u s) := K.andThen h K.onGang

theorem K.thenOwn {p : U → State → Prog} {u s} (h : K (p u s)) : K (thenOwn p u s) := K.andThen h (K.onBlock fun x => BK.of rfl rfl)

theorem K.partAfter {u : U} {f} (h : ∀ x, BK x (f x)) : K (partAfter u f) := by
  unfold Claims.partAfter; exact K.allCons (K.onBlock fun x => BK.trans (BK.trans (h x) (BK.modGang _ _)) (BK.part _ _)) (K.allCons K.settlePend K.allNil)

theorem bra_s (x : Slice) (a b c) : (x.bra a b c).s = x.s := by unfold Slice.bra; split_ifs <;> rfl

theorem brx_s (x : Slice) (a) : (x.brx a).s = x.s := by unfold Slice.brx; split <;> rfl

theorem resolve_go_s (x : Slice) (l e) : (Slice.resolve.go x l e).s = x.s := by
  induction l generalizing e with
  | nil => rfl
  | cons d r ih =>
    cases d <;> unfold Slice.resolve.go <;> split_ifs <;> first | rfl | exact ih _

theorem join_s (x : Slice) : x.joinLanes.s = x.s := by unfold Slice.joinLanes Slice.resolve; exact resolve_go_s _ _ _

theorem BK.follow (x : Block) (ms) : BK x (x.follow ms) := by
  unfold Block.follow; split
  · exact BK.refl
  · exact BK.foldl _ _ _ fun _ _ => BK.modSlice _ _ fun z => by split <;> rfl

theorem BK.wake (x : Block) (g a l) : BK x (x.wake g a l) := by
  unfold Block.wake; dsimp only; split
  · exact BK.trans (BK.modGang _ _) (BK.foldl _ _ _ fun _ _ => BK.modSlice _ _ fun _ => rfl)
  · exact BK.modGang _ _

theorem BK.endWait (x : Block) (g a l) : BK x (x.endWait g a l) := by
  unfold Block.endWait; split
  · exact BK.modGang _ _
  · exact BK.wake _ _ _ _

theorem BK.wakeAll (x : Block) (e f) : BK x (x.wakeAll e f) := by
  unfold Block.wakeAll; refine BK.foldl _ _ _ fun b a => ?_
  dsimp only
  have h0 : BK b (if (a.2.frames.all fun r => r.waits.isEmpty) = true then b
      else b.modGang a.1 (Gang.framed fun l => l.filter fun w => (f w).isNone)) := by
    split
    · exact BK.refl
    · exact BK.modGang _ _
  generalize (if (a.2.frames.all fun r => r.waits.isEmpty) = true then b
      else b.modGang a.1 (Gang.framed fun l => l.filter fun w => (f w).isNone)) = b1 at *
  have h : BK b1 (if a.2.more.isEmpty = true then b1 else b1.modGang a.1 fun x => { x with more := x.more.filter fun w => (f w).isNone }) := by
    split
    · exact BK.refl
    · exact BK.modGang _ _
  split
  · exact BK.trans h0 (BK.trans h (BK.endWait _ _ _ _))
  · exact BK.trans h0 h

def CK (k m : Core) : Prop := ∀ b x, k.blocks.get? b = some x → ∃ y, m.blocks.get? b = some y ∧ BK x y

theorem CK.refl {k} : CK k k := fun b x h => ⟨x, h, BK.refl⟩

theorem CK.trans {k m n} (h : CK k m) (j : CK m n) : CK k n := fun b x hx => by
  obtain ⟨y, hy, h1⟩ := h b x hx
  obtain ⟨z, hz, h2⟩ := j b y hy
  exact ⟨z, hz, BK.trans h1 h2⟩

theorem CK.of {k m : Core} (h : m.blocks = k.blocks) : CK k m := fun b x hx => ⟨x, by rw [h, hx], BK.refl⟩

theorem CK.modify (k : Core) (b : Nat) (f : Block → Block) (h : ∀ x, BK x (f x)) : CK k { k with blocks := k.blocks.modify b f } := fun c x hx => by
  show ∃ y, (k.blocks.modify b f).get? c = some y ∧ _
  rw [Tab.get?_modify]; split
  · rw [hx]; exact ⟨_, rfl, h x⟩
  · exact ⟨x, hx, BK.refl⟩

theorem CK.foldl {α} (l : List α) (f : Core → α → Core) (k : Core) (h : ∀ k a, CK k (f k a)) : CK k (l.foldl f k) := by
  induction l generalizing k with
  | nil => exact CK.refl
  | cons a r ih => exact (h k a).trans (ih _)

theorem CK.tryRelease (b bar e n) (k : Core) : CK k (k.tryRelease b bar e n) := by
  induction n generalizing k with
  | zero => exact CK.refl
  | succ n ih =>
    unfold Core.tryRelease
    split
    · exact CK.refl
    · rename_i blk hb
      dsimp only
      have h1 : CK k (if (k.bar bar).pend = 0 then { k with blocks := k.blocks.modify b fun x => x.wakeAll e (fun w => match w with | .barw i adv => if i = bar then some adv else none | _ => none) } else k) := by
        split
        · exact CK.modify _ _ _ fun _ => BK.wakeAll _ _ _
        · exact CK.refl
      split
      · refine CK.trans h1 (CK.trans (CK.trans (CK.of (m := Core.setBar _ _ _) rfl) (CK.modify _ _ _ fun _ => BK.wakeAll _ _ _)) (CK.foldl _ _ _ fun k a => ?_))
        split
        · exact CK.of rfl
        · split
          · split
            · refine CK.trans (CK.trans (CK.of (m := Core.setBar _ _ _) rfl) (CK.modify _ _ _ fun x => ?_)) (ih _)
              split_ifs
              · exact BK.modGang _ _
              · exact BK.endWait _ _ _ _
              · exact BK.modGang _ _
            · exact CK.refl
          · exact CK.refl
      · exact h1

theorem K.tryRelease {c b bar} : K (tryRelease c b bar) := by
  unfold Machine.tryRelease; refine K.read fun s => ?_
  split
  · exact K.coreB fun k b x hx => CK.tryRelease _ _ _ _ k b x hx
  · exact K.done

theorem K.tryGsync {g} : K (tryGsync g) := by
  unfold Machine.tryGsync; refine K.read fun s => ?_
  split
  · exact K.done
  · split
    · exact K.allCons (K.each fun _ => K.clus) (K.allCons (K.each fun _ => K.onBlock fun _ => BK.wakeAll _ _ _) (K.allCons K.ctx (K.allCons K.grid K.allNil)))
    · exact K.done

theorem K.tryGate {c} : K (tryGate c) := by
  unfold Machine.tryGate; refine K.read fun s => ?_
  dsimp only; split
  · split
    · exact K.core fun _ => rfl
    · exact K.done
  · exact K.done

theorem K.devWrite {g x v bs} : K (devWrite g x v bs) := by
  unfold Machine.devWrite; refine K.read fun s => ?_
  split
  · exact K.write
  · exact K.done

theorem K.trace {x k bs} : K (traceAppend x k bs) := by
  unfold traceAppend; refine K.read fun s => ?_
  split
  · exact K.done
  · dsimp only; split
    · split
      · exact K.allCons (K.each fun _ => K.devWrite) (K.allCons K.devWrite K.allNil)
      · exact K.devWrite
    · exact K.done

theorem K.onQueue {c q f} : K (onQueue c q f) := by
  unfold Machine.onQueue; split
  · exact K.core fun _ => rfl
  · exact K.core fun _ => rfl
  · exact K.onBlock fun _ => BK.of rfl rfl

theorem row_keep {len g cond eff} {s : State} (h : ∀ u, K (eff u s)) : RegsKept s ((simt len g cond eff).next s) := by
  unfold simt; dsimp only; split
  · exact (h _).keep s
  · exact RK.refl

theorem mods {α} {x : Block} (l : List α) (i : α → Nat) (f : α → Slice → Slice) (h : ∀ a z, (f a z).s = z.s) : BK x (l.foldl (fun b a => b.modSlice (i a) (f a)) x) :=
  BK.foldl _ _ _ fun _ _ => BK.modSlice _ _ (h _)

/-! ## Blocks as they were -/

/-- A program that changes no block. -/
def NB (p : Prog) : Prop := ∀ s c b, (p.run s).block? c b = s.block? c b

theorem NB.done : NB .done := fun _ _ _ => rfl

theorem NB.andThen {p q} (hp : NB p) (hq : NB q) : NB (p.andThen q) := fun s c b => by rw [Prog.run_andThen, hq, hp]

theorem NB.read {k} (h : ∀ s, NB (k s)) : NB (.read k) := fun s c b => h s s c b

theorem NB.all {ps} (h : ∀ p ∈ ps, NB p) : NB (Prog.all ps) := by
  induction ps with
  | nil => exact NB.done
  | cons p r ih => exact NB.andThen (h p (by simp)) (ih fun q hq => h q (by simp [hq]))

theorem NB.each {β} {l : List β} {f : β → Prog} (h : ∀ x, NB (f x)) : NB (Prog.each l f) :=
  NB.all fun p hp => by obtain ⟨x, _, rfl⟩ := List.mem_map.mp hp; exact h x

theorem NB.write {l bs} : NB (.one (.write l bs)) := fun s c b => block_writeLoc _ _ _ _ _

theorem NB.save {x o bs} : NB (saveBytes x o bs) := by
  unfold saveBytes; refine NB.read fun s => ?_
  split
  · exact NB.done
  · exact NB.each fun _ => NB.write

theorem dedup_mem (l : List Nat) (k : Nat) : k ∈ dedup l ↔ k ∈ l := by
  unfold dedup
  have : ∀ (l acc : List Nat), k ∈ l.foldl (fun acc k => if acc.contains k then acc else acc ++ [k]) acc ↔ k ∈ acc ∨ k ∈ l := by
    intro l; induction l with
    | nil => simp
    | cons a r ih =>
      intro acc; rw [List.foldl_cons, ih]
      by_cases h : acc.contains a = true
      · rw [if_pos h]; have := List.contains_iff_mem.mp h
        constructor
        · rintro (h | h) <;> simp [h]
        · rintro (h1 | h1)
          · exact .inl h1
          · rcases List.mem_cons.mp h1 with rfl | h1
            · exact .inl this
            · exact .inr h1
      · rw [if_neg h]; simp [or_assoc]
  simpa using this l []

theorem sortRecs_mem (l : List Rec) (q : Rec) : q ∈ sortRecs l ↔ q ∈ l := by
  unfold sortRecs
  have : ∀ (l acc : List Rec), q ∈ l.foldl (fun acc r =>
    (acc.filter fun q => decide (q.lanes.headD 0 ≤ r.lanes.headD 0)) ++ [r]
      ++ (acc.filter fun q => decide (q.lanes.headD 0 > r.lanes.headD 0))) acc ↔ q ∈ acc ∨ q ∈ l := by
    intro l; induction l with
    | nil => simp
    | cons a r ih =>
      intro acc; rw [List.foldl_cons, ih]
      simp only [List.mem_append, List.mem_filter, List.mem_singleton, List.mem_cons, decide_eq_true_eq]
      constructor
      · rintro (((h | h) | h) | h) <;> simp_all
      · rintro (h | h | h)
        · rcases Nat.lt_or_ge (a.lanes.headD 0) (q.lanes.headD 0) with hh | hh
          · exact .inl (.inr ⟨h, hh⟩)
          · exact .inl (.inl (.inl ⟨h, hh⟩))
        · exact .inl (.inl (.inr (.inl h)))
        · exact .inr h
  simpa using this l []

theorem maskOf_get (w : Nat) (l : List Nat) (j : Nat) (hj : j < w) : (maskOf w l).getLsbD j = true ↔ j ∈ l := by
  unfold maskOf
  have : ∀ (l : List Nat) (m : BitVec w), (l.foldl (fun m i => m ||| ((1 : BitVec w) <<< i)) m).getLsbD j = true ↔ m.getLsbD j = true ∨ j ∈ l := by
    intro l; induction l with
    | nil => simp
    | cons a r ih =>
      intro m; rw [List.foldl_cons, ih]
      simp only [BitVec.getLsbD_or, Bool.or_eq_true, List.mem_cons, BitVec.getLsbD_shiftLeft, hj, decide_true, Bool.true_and]
      have : ((!decide (j < a)) && (1 : BitVec w).getLsbD (j - a)) = true ↔ j = a := by
        have h1 : (1 : BitVec w).getLsbD (j - a) = decide (j - a = 0) := by
          cases w with
          | zero => omega
          | succ w => show (BitVec.ofNat (w+1) 1).getLsbD _ = _; rw [BitVec.getLsbD_ofNat]
                      have : j - a < w + 1 := by omega
                      simp only [this, decide_true, Bool.true_and]
                      cases hh : j - a with
                      | zero => rfl
                      | succ n => simp [Nat.testBit_succ]
        rw [h1]; simp; omega
      rw [this]; tauto
  simpa using this l 0

theorem lane_mask (ls : List Nat) (i j : Nat) (hj : j < 4) : (maskOf 4 ((ls.filter fun l => l / 4 == i).map (· % 4))).getLsbD j = true ↔ 4 * i + j ∈ ls := by
  rw [maskOf_get _ _ _ hj]
  simp only [List.mem_map, List.mem_filter, beq_iff_eq]
  constructor
  · rintro ⟨a, ⟨ha, h1⟩, h2⟩
    have : a = 4 * i + j := by omega
    rw [← this]; exact ha
  · intro h; exact ⟨4 * i + j, ⟨h, by omega⟩, by omega⟩

theorem sreg_setS_ne (x : Slice) (i k v) (h : k ≠ i) : (x.setS i v).sreg k = x.sreg k := (setS_keeps x i v).2 k (by simpa using h)

theorem setS_fields (x : Slice) (i v) : (x.setS i v).pc = x.pc ∧ (x.setS i v).live = x.live ∧ (x.setS i v).active = x.active ∧ (x.setS i v).gang = x.gang ∧ (x.setS i v).stack = x.stack := by
  unfold Slice.setS; split <;> exact ⟨rfl, rfl, rfl, rfl, rfl⟩

theorem core_blocks (s : State) (c : Nat) (f : Core → Core) (h : ∀ k, (f k).blocks = k.blocks) (c' b) : ((Prog.one (.core c f)).run s).block? c' b = s.block? c' b := by
  unfold State.block?; rw [core_run]; split
  · rename_i e; rw [e]; show ((f (s.core c)).blocks).get? b = _; rw [h]
  · rfl

theorem vector_facts (x : Block) (g : Nat) (y : Gang) (f : Frame) (vec : List Nat) (e r1 fr : W64) (hg : x.gangs.get? g = some y) :
   (x.vector g f vec e r1 fr).gangs.get? g = some { y with frames := f :: y.frames, vliw := false, loops := [], wait := .ready, more := [], dues := [], granted := false } ∧
   (x.vector g f vec e r1 fr).lanes = x.lanes ∧
   ∀ i, (x.vector g f vec e r1 fr).slice? i = if i ∈ x.members g then (x.slice? i).map fun z =>
     (({ z with pc := e, active := maskOf 4 ((vec.filter fun l => l / 4 == i).map (· % 4)), stack := if f.vliw then [] else z.stack }.setS 62 r1).setS 61 fr) else x.slice? i := by
  unfold Block.vector
  obtain ⟨h1, h2⟩ := foldl_modSlice (x.members g) (fun i z => ({ z with pc := e, active := maskOf 4 ((vec.filter fun l => l / 4 == i).map (· % 4)), stack := if f.vliw then [] else z.stack }.setS 62 r1).setS 61 fr)
    (x.modGang g fun x => { x with frames := f :: x.frames, vliw := false, loops := [], wait := .ready, more := [], dues := [], granted := false }) (members_nodup _ _)
  unfold SlicesOnly at h1
  have hl := congrArg Block.lanes h1
  have hgs := congrArg Block.gangs h1
  refine ⟨?_, hl, h2⟩
  refine (congrArg (fun t => Tab.get? t g) hgs).trans ?_
  show (x.gangs.modify g _).get? g = _
  rw [Tab.get?_modify, if_pos rfl, hg]; rfl

structure End (gid cause : Nat) (s t : State) : Prop where
  log : t.sys.log = s.sys.log
  grid : ∀ n, t.grid? n = if n = gid then (s.grid? n).map fun g => { g with cause := BitVec.ofNat 8 cause, armed := false, done := true } else s.grid? n
  block : ∀ c b, t.block? c b = (s.block? c b).map fun x => if x.grid == gid then x.kill else x

theorem core_sys (s : State) (c f) : ((Prog.one (.core c f)).run s).sys = s.sys ∧ ((Prog.one (.core c f)).run s).grids = s.grids := ⟨rfl, rfl⟩

theorem tab_map {β} (l : Tab β) (b : Nat) (F : β → β) : Tab.get? (l.map fun e => (e.1, F e.2)) b = (Tab.get? l b).map F := by
  induction l with
  | nil => rfl
  | cons a l ih =>
    obtain ⟨i, y⟩ := a
    rw [List.map_cons, Tab.get?, Tab.get?]
    split
    · rfl
    · exact ih

theorem kill_blocks (gid : Nat) (ks : List Nat) (s : State) :
   let t := (Prog.each ks fun e => .one (.core e fun k => { k with blocks := k.blocks.map fun b => if b.2.grid == gid then (b.1, b.2.kill) else b })).run s
   t.sys = s.sys ∧ t.grids = s.grids ∧ t.ctxs = s.ctxs ∧ ∀ c b, t.block? c b = if c ∈ ks then (s.block? c b).map (fun x => if x.grid == gid then x.kill else x) else s.block? c b := by
  induction ks generalizing s with
  | nil => exact ⟨rfl, rfl, rfl, fun _ _ => by simp [Prog.each, Prog.all, Prog.run]⟩
  | cons k ks ih =>
    intro t
    have ht : t = _ := rfl
    rw [show t = (Prog.each ks fun e => Prog.one (.core e fun k => { k with blocks := k.blocks.map fun b => if b.2.grid == gid then (b.1, b.2.kill) else b })).run ((Prog.one (.core k fun k => { k with blocks := k.blocks.map fun b => if b.2.grid == gid then (b.1, b.2.kill) else b })).run s) from each_run_cons _ _ _ _]
    obtain ⟨h1, h2, h3, h4⟩ := ih ((Prog.one (.core k fun k => { k with blocks := k.blocks.map fun b => if b.2.grid == gid then (b.1, b.2.kill) else b })).run s)
    refine ⟨h1, h2, h3, fun c b => ?_⟩
    rw [h4]
    have hm : ∀ (l : Tab Block) b, Tab.get? (l.map fun b => if b.2.grid == gid then (b.1, b.2.kill) else b) b = (Tab.get? l b).map (fun x => if x.grid == gid then x.kill else x) := by
      intro l b
      have e : (fun b : Nat × Block => if b.2.grid == gid then (b.1, b.2.kill) else b) = fun b => (b.1, (fun x : Block => if x.grid == gid then x.kill else x) b.2) := by
        funext b; dsimp only; split <;> rfl
      rw [e]; exact tab_map l b (fun x : Block => if x.grid == gid then x.kill else x)
    have h1 : ((Prog.one (.core k fun k => { k with blocks := k.blocks.map fun b => if b.2.grid == gid then (b.1, b.2.kill) else b })).run s).block? c b = if c = k then (s.block? c b).map (fun x => if x.grid == gid then x.kill else x) else s.block? c b := by
      unfold State.block?; rw [core_run]; split
      · rename_i e; rw [e]; exact hm _ _
      · rfl
    rw [h1]
    have kk : ∀ x : Block, (if ((if x.grid == gid then x.kill else x).grid == gid) = true then (if x.grid == gid then x.kill else x).kill else (if x.grid == gid then x.kill else x)) = if x.grid == gid then x.kill else x := by
      intro x; by_cases hx : (x.grid == gid) = true
      · have : (x.kill.grid == gid) = true := hx
        simp only [hx, if_true, this]
        unfold Block.kill; simp [Slice.kill, Function.comp_def]
      · have hx' : (x.grid == gid) = false := by simpa using hx
        simp only [hx', Bool.false_eq_true, if_false]
    by_cases hc : c = k
    · subst hc; simp only [if_true, List.mem_cons, true_or]
      split
      · rw [Option.map_map]; congr 1; funext x; exact kk x
      · rfl
    · simp only [hc, if_false, List.mem_cons, false_or]

theorem ctx_each {β} (l : List β) (i : β → Nat) (f : β → Context → Context) (s : State) :
   let t := (Prog.each l fun e => .one (.ctx (i e) (f e))).run s
   t.sys = s.sys ∧ t.grids = s.grids ∧ ∀ c b, t.block? c b = s.block? c b := by
  induction l generalizing s with
  | nil => exact ⟨rfl, rfl, fun _ _ => rfl⟩
  | cons a l ih =>
    obtain ⟨h1, h2, h3⟩ := ih ((Prog.one (.ctx (i a) (f a))).run s)
    exact ⟨h1, h2, h3⟩

theorem tab_mem {β} (l : Tab β) (c : Nat) (h : c ∉ l.map (·.1)) : l.get? c = none := by
  induction l with
  | nil => rfl
  | cons a l ih =>
    obtain ⟨i, y⟩ := a
    simp only [List.map_cons, List.mem_cons, not_or] at h
    rw [Tab.get?, if_neg (fun e => h.1 e.symm)]
    exact ih h.2

theorem kill_end (gid cause : Nat) (s : State) : End gid cause s ((killGrid gid cause).run s) := by
  unfold killGrid; rw [read_run, all_cons_run, all_cons_run, all_cons_run, all_nil_run]
  have e1 : (Prog.each s.cores fun e => Prog.one (.core e.1 fun k => { k with blocks := k.blocks.map fun b => if b.2.grid == gid then (b.1, b.2.kill) else b })) =
     Prog.each (s.cores.map (·.1)) fun e => Prog.one (.core e fun k => { k with blocks := k.blocks.map fun b => if b.2.grid == gid then (b.1, b.2.kill) else b }) := by
    unfold Prog.each; rw [List.map_map]; rfl
  rw [e1]
  obtain ⟨h1, h2, h3, h4⟩ := kill_blocks gid (s.cores.map (·.1)) s
  generalize (Prog.each (s.cores.map (·.1)) fun e => Prog.one (.core e fun k => { k with blocks := k.blocks.map fun b => if b.2.grid == gid then (b.1, b.2.kill) else b })).run s = s1 at *
  obtain ⟨k1, k2, k3⟩ := ctx_each s.ctxs (·.1) (fun _ x => x.dropGrid gid) s1
  generalize (Prog.each s.ctxs fun e => Prog.one (.ctx e.1 fun x => x.dropGrid gid)).run s1 = s2 at *
  refine ⟨?_, fun n => ?_, fun c b => ?_⟩
  · show s2.sys.log = _; rw [k1, h1]
  · show (s2.grids.modify gid _).get? n = _
    rw [Tab.get?_modify, k2, h2]; rfl
  · show s2.block? c b = _
    rw [k3, h4]
    split
    · rfl
    · rename_i h
      have : s.block? c b = none := by
        unfold State.block? State.core; rw [tab_mem _ _ h]; rfl
      rw [this]; rfl

theorem tab_get_mem {β} (l : Tab β) (n : Nat) (h : β) (e : l.get? n = some h) : (n, h) ∈ l := by
  induction l with
  | nil => cases e
  | cons a l ih =>
    obtain ⟨i, y⟩ := a
    rw [Tab.get?] at e
    split at e
    · rename_i hi; cases e; subst hi; exact List.mem_cons_self
    · exact List.mem_cons_of_mem _ (ih e)

def Ended (x cause : Nat) (s t : State) (n : Nat) : Prop :=
  (∀ h, s.grid? n = some h → ∃ k, t.grid? n = some k ∧ k.cause = BitVec.ofNat 8 cause ∧ k.done = true ∧ k.armed = false) ∧
  (∀ k i z, t.block? k i = some z → z.grid = n → ∀ w ∈ z.slices, w.live = 0)

theorem end_keeps {gid x cause n} {s t u : State} (h : Ended x cause s t n) (e : End gid cause t u) : Ended x cause s u n := by
  refine ⟨fun g hg => ?_, fun k i z hz hn => ?_⟩
  · obtain ⟨k, h1, h2⟩ := h.1 g hg
    rw [e.grid]
    split
    · rw [h1]; exact ⟨_, rfl, rfl, rfl, rfl⟩
    · exact ⟨k, h1, h2⟩
  · rw [e.block] at hz
    rw [Option.map_eq_some_iff] at hz
    obtain ⟨y, hy, rfl⟩ := hz
    by_cases hq : (y.grid == gid) = true
    · rw [if_pos hq] at hn ⊢
      intro w hw
      unfold Block.kill at hw; obtain ⟨_, _, rfl⟩ := List.mem_map.mp hw; rfl
    · rw [if_neg hq] at hn ⊢
      exact h.2 k i y hy hn

theorem ends (x cause : Nat) (l : List (Nat × Grid)) (s0 s : State) (hs : ∀ n h, s0.grid? n = some h → (s.grid? n).isSome) :
   let t := (Prog.each l fun e => if e.2.ctx == x then killGrid e.1 cause else .done).run s
   t.sys.log = s.sys.log ∧ (∀ n, Ended x cause s0 s n → Ended x cause s0 t n) ∧ ∀ e ∈ l, e.2.ctx = x → Ended x cause s0 t e.1 := by
  induction l generalizing s with
  | nil => exact ⟨rfl, fun _ h => h, fun _ h => absurd h (by simp)⟩
  | cons a l ih =>
    intro t
    rw [show t = (Prog.each l fun e => if e.2.ctx == x then killGrid e.1 cause else .done).run ((if a.2.ctx == x then killGrid a.1 cause else .done).run s) from each_run_cons _ _ _ _]
    by_cases ha : (a.2.ctx == x) = true
    · rw [if_pos ha]
      have e := kill_end a.1 cause s
      obtain ⟨h1, h2, h3⟩ := ih ((killGrid a.1 cause).run s) (fun n h hn => by
        rw [e.grid]; split
        · simpa using hs n h hn
        · exact hs n h hn)
      refine ⟨h1.trans e.log, fun n hn => h2 n (end_keeps hn e), fun b hb hx => ?_⟩
      rcases List.mem_cons.mp hb with rfl | hb
      · refine h2 _ ⟨fun g hg => ?_, fun k i z hz hn => ?_⟩
        · rw [e.grid, if_pos rfl]
          obtain ⟨y, hy⟩ := Option.isSome_iff_exists.mp (hs _ _ hg)
          rw [hy]; exact ⟨_, rfl, rfl, rfl, rfl⟩
        · rw [e.block, Option.map_eq_some_iff] at hz
          obtain ⟨y, hy, rfl⟩ := hz
          by_cases hh : (y.grid == b.1) = true
          · rw [if_pos hh] at hn ⊢
            intro w hw
            unfold Block.kill at hw; obtain ⟨_, _, rfl⟩ := List.mem_map.mp hw; rfl
          · rw [if_neg hh] at hn; exact absurd (by simpa using hn) hh
      · exact h3 b hb hx
    · rw [if_neg ha]
      obtain ⟨h1, h2, h3⟩ := ih s hs
      refine ⟨h1, h2, fun b hb hx => ?_⟩
      rcases List.mem_cons.mp hb with rfl | hb
      · exact absurd (by simpa using hx) ha
      · exact h3 b hb hx

theorem resolve_go_g (x : Slice) (l e) : (Slice.resolve.go x l e).gang = x.gang := by
  induction l generalizing e with
  | nil => rfl
  | cons d r ih =>
    cases d <;> unfold Slice.resolve.go <;> split_ifs <;> first | rfl | exact ih _

theorem unit_gang {s len v} (h : unitOf s len = some v) : v.blk.gangs.get? v.g = some v.gang := by
  unfold unitOf at h
  split at h <;> try contradiction
  split at h <;> try contradiction
  split at h <;> try contradiction
  dsimp only at h
  split at h <;> try contradiction
  cases h
  assumption

theorem part_fold (ms : List Nat) (pcOf : Nat → W64) (x0 : Gang) (ps : List Nat) (b : Block) (g : Nat) (y : Gang) (hg : b.gangs.get? g = some y) (hl : g < b.nextGang) :
  let r := ps.foldl (fun b p =>
      let id := b.nextGang
      let b := (ms.filter fun i => (pcOf i).toNat == p).foldl (fun b i => b.modSlice i fun y => { y with gang := id }) b
      { b with gangs := b.gangs.set id { x0 with pend := [] }, nextGang := id + 1 }) b
  r.gangs.get? g = some y ∧ r.lanes = b.lanes ∧ ∀ i, ∃ gf : Slice → Nat, r.slice? i = (b.slice? i).map fun z => { z with gang := if i ∈ ms then gf z else z.gang } := by
  induction ps generalizing b with
  | nil =>
    refine ⟨hg, rfl, fun i => ⟨fun z => z.gang, ?_⟩⟩
    simp
  | cons p ps ih =>
    have hsl : ∀ (l : List Nat) (b0 : Block) (n : Nat), (l.foldl (fun b i => b.modSlice i fun y => { y with gang := n }) b0).gangs = b0.gangs ∧ (l.foldl (fun b i => b.modSlice i fun y => { y with gang := n }) b0).nextGang = b0.nextGang ∧ (l.foldl (fun b i => b.modSlice i fun y => { y with gang := n }) b0).lanes = b0.lanes ∧
       ∀ i, (l.foldl (fun b i => b.modSlice i fun y => { y with gang := n }) b0).slice? i = (b0.slice? i).map fun z => { z with gang := if i ∈ l then n else z.gang } := by
      intro l; induction l with
      | nil => intro b0 n; exact ⟨rfl, rfl, rfl, fun i => by simp⟩
      | cons a l ih =>
        intro b0 n
        obtain ⟨h1, h2, h3, h4⟩ := ih (b0.modSlice a fun y => { y with gang := n }) n
        refine ⟨h1, h2, h3, fun i => ?_⟩
        rw [List.foldl_cons, h4, slice_modSlice]
        by_cases hi : i = a
        · subst hi; simp [Function.comp_def]
        · simp [hi]
    rw [List.foldl_cons]
    generalize hb : ({ (ms.filter fun i => (pcOf i).toNat == p).foldl (fun b_1 i => b_1.modSlice i fun y => { y with gang := b.nextGang }) b with gangs := ((ms.filter fun i => (pcOf i).toNat == p).foldl (fun b_1 i => b_1.modSlice i fun y => { y with gang := b.nextGang }) b).gangs.set b.nextGang { x0 with pend := [] }, nextGang := b.nextGang + 1 } : Block) = b'
    obtain ⟨k1, k2, k3, k4⟩ := hsl (ms.filter fun i => (pcOf i).toNat == p) b b.nextGang
    have e1 : b'.gangs.get? g = some y := by rw [← hb]; show Tab.get? (Tab.set _ _ _) g = _; rw [Tab.get?_set, if_neg (by omega), k1]; exact hg
    obtain ⟨i1, i2, i3⟩ := ih b' e1 (by rw [← hb]; show g < b.nextGang + 1; omega)
    refine ⟨i1, i2.trans (by rw [← hb]; exact k3), fun i => ?_⟩
    obtain ⟨gf, hgf⟩ := i3 i
    have e4 : b'.slice? i = (b.slice? i).map fun z => { z with gang := if i ∈ ms.filter (fun i => (pcOf i).toNat == p) then b.nextGang else z.gang } := by
      rw [← k4 i, ← hb]; rfl
    refine ⟨fun z => gf { z with gang := if i ∈ ms.filter (fun i => (pcOf i).toNat == p) then b.nextGang else z.gang }, ?_⟩
    refine hgf.trans ?_
    rw [e4, Option.map_map]; congr 1; funext z
    simp only [Function.comp]
    by_cases hi : i ∈ ms
    · simp [hi]
    · have : i ∉ ms.filter (fun i => (pcOf i).toNat == p) := fun h => hi (List.mem_filter.mp h).1
      simp [hi, this]

theorem part_facts (b : Block) (g : Nat) (y : Gang) (hg : b.gangs.get? g = some y) (hl : g < b.nextGang) :
  (b.part g).gangs.get? g = some y ∧ (b.part g).lanes = b.lanes ∧ ∀ i, ∃ gf : Slice → Nat, (b.part g).slice? i = (b.slice? i).map fun z => { z with gang := if i ∈ b.members g then gf z else z.gang } := by
  unfold Block.part; dsimp only
  have base : b.gangs.get? g = some y ∧ b.lanes = b.lanes ∧ ∀ i, ∃ gf : Slice → Nat, b.slice? i = (b.slice? i).map fun z => { z with gang := if i ∈ b.members g then gf z else z.gang } :=
    ⟨hg, rfl, fun i => ⟨fun z => z.gang, by simp⟩⟩
  split
  · exact base
  · exact base
  · rename_i m l x h1 h2
    exact part_fold _ _ _ _ _ _ _ hg hl

theorem restore_facts (x : Slice) (i f a) :
  (x.restore i f a).sreg 61 = f.s61 ∧ (x.restore i f a).sreg 62 = f.s62 ∧ (∀ k, k ≠ 61 → k ≠ 62 → (x.restore i f a).sreg k = x.sreg k) ∧ (x.restore i f a).gang = x.gang
   ∧ (bits 4 f.active (4 * i) &&& x.live ≠ 0 → (x.restore i f a).live = x.live ∧ (x.restore i f a).active = bits 4 f.active (4 * i) &&& x.live ∧ (x.restore i f a).pc = a) := by
  unfold Slice.restore; dsimp only
  generalize hd : x.stack.drop _ = st
  generalize hy : ({ x with active := bits 4 f.active (4 * i) &&& x.live, pc := a, stack := st } : Slice) = y
  have hf := setS_fields (y.setS 61 f.s61) 62 f.s62
  have hf2 := setS_fields y 61 f.s61
  have q61 : ((y.setS 61 f.s61).setS 62 f.s62).sreg 61 = f.s61 := by rw [sreg_setS_ne _ _ _ _ (by decide), sreg_setS]; rfl
  have q62 : ((y.setS 61 f.s61).setS 62 f.s62).sreg 62 = f.s62 := by rw [sreg_setS]; rfl
  have qk : ∀ k, k ≠ 61 → k ≠ 62 → ((y.setS 61 f.s61).setS 62 f.s62).sreg k = x.sreg k := fun k h1 h2 => by
    rw [sreg_setS_ne _ _ _ _ h2, sreg_setS_ne _ _ _ _ h1, ← hy]; rfl
  have rs : ∀ z : Slice, z.resolve.s = z.s := fun z => by unfold Slice.resolve; exact resolve_go_s _ _ _
  have rg : ∀ z : Slice, z.resolve.gang = z.gang := fun z => by unfold Slice.resolve; exact resolve_go_g _ _ _
  have key : ∀ z : Slice, (∀ k, z.resolve.sreg k = z.sreg k) := fun z k => by unfold Slice.sreg; rw [rs]
  split
  · rename_i h0
    refine ⟨(key _ _).trans q61, (key _ _).trans q62, fun k h1 h2 => (key _ _).trans (qk k h1 h2), ?_, fun h => ?_⟩
    · rw [rg, hf.2.2.2.1, hf2.2.2.2.1, ← hy]
    · rw [hf.2.2.1, hf2.2.2.1, ← hy] at h0; exact absurd h0 h
  · refine ⟨q61, q62, qk, ?_, fun _ => ⟨?_, ?_, ?_⟩⟩
    · rw [hf.2.2.2.1, hf2.2.2.2.1, ← hy]
    · rw [hf.2.1, hf2.2.1, ← hy]
    · rw [hf.2.2.1, hf2.2.2.1, ← hy]
    · rw [hf.1, hf2.1, ← hy]

/-- With no imprecise cause in a block, none is attached anew. -/
theorem settle_none (c b : Nat) (s : State) (x : Block) (hb : s.block? c b = some x) (h1 : x.pend = []) (h2 : ∀ e ∈ x.gangs, e.2.pend = []) :
    (settlePend c b).run s = s := by
  unfold settlePend; rw [read_run]; simp only [hb]
  have : (x.pend ++ x.gangs.flatMap fun e => e.2.pend) = [] := by
    rw [h1, List.nil_append, List.flatMap_eq_nil_iff]; exact h2
  simp only [this, List.isEmpty_nil, if_true]; rfl

/-- What the end of a context's grids does, where some grid of it has not ended. -/
theorem killContext_ends (x cause : Nat) (s : State) (h : ∃ n g, s.grid? n = some g ∧ g.ctx = x ∧ g.done = false) :
    let t := (killContext x cause).run s
    t.sys.log = s.sys.log ++ [.context x cause] ∧ ∀ n g, s.grid? n = some g → g.ctx = x → Ended x cause s t n := by
  intro t
  have ha : (s.grids.any fun e => e.2.ctx == x && !e.2.done) = true := by
    obtain ⟨n, g, hg, hx, hd⟩ := h
    rw [List.any_eq_true]; exact ⟨(n, g), tab_get_mem _ _ _ hg, by simp [hx, hd]⟩
  have ht : t = (Prog.one (.sys fun y => { y with log := y.log ++ [.context x cause] })).run
      ((Prog.each s.grids fun e => if e.2.ctx == x then killGrid e.1 cause else .done).run s) := by
    show (killContext x cause).run s = _
    unfold killContext; rw [run_read, ha]
    show ((Prog.each s.grids _).andThen _).run s = _
    rw [Prog.run_andThen]
  obtain ⟨k1, _, k3⟩ := ends x cause s.grids s s (fun n h hn => by rw [hn]; rfl)
  generalize (Prog.each s.grids fun e => if e.2.ctx == x then killGrid e.1 cause else .done).run s = r at *
  refine ⟨by rw [ht, ← k1]; rfl, fun n g hg hx => ?_⟩
  have := k3 (n, g) (tab_get_mem _ _ _ hg) hx
  rw [ht]; exact this

end Sys2Proof.Claims
end

