-- ==== Sys2Proof/Laws/PerInstr.lean ====
section
/-! SUPPORT. One lemma per instruction: of the three encodings, native, hart and Exdin, it has at most one, and an event of the
table has none. -/

namespace Sys2Proof.Laws.Table

open Sys2Proof.Machine

/-- The instruction is a native word's, a hart's or an Exdin word's, and no two of them; an event is none of them. -/
def Statement (i : Instr) : Prop :=
  (encodeNative i = [] ∨ (encodeHart i = [] ∧ encodeExdin i = [])) ∧ (encodeHart i = [] ∨ encodeExdin i = [])
    ∧ (Instr.isEvent i = true → encodeNative i = [] ∧ encodeHart i = [] ∧ encodeExdin i = [])

/-- Whether the three encodings of an instruction give no word. -/
def wordless (i : Instr) : Bool := (encodeNative i).isEmpty && (encodeHart i).isEmpty && (encodeExdin i).isEmpty

theorem wordless_empty {i : Instr} (h : wordless i = true) : encodeNative i = [] ∧ encodeHart i = [] ∧ encodeExdin i = [] := by
  simpa [wordless, List.isEmpty_iff, and_assoc] using h

theorem of_native {i : Instr} (h : encodeHart i = []) (e : encodeExdin i = []) (d : Instr.isEvent i = wordless i) : Statement i :=
  ⟨.inr ⟨h, e⟩, .inl h, fun k => wordless_empty (d ▸ k)⟩
theorem of_exdin {i : Instr} (n : encodeNative i = []) (h : encodeHart i = []) (d : Instr.isEvent i = wordless i) : Statement i :=
  ⟨.inl n, .inl h, fun k => wordless_empty (d ▸ k)⟩
theorem of_hart {i : Instr} (n : encodeNative i = []) (e : encodeExdin i = []) (d : Instr.isEvent i = wordless i) : Statement i :=
  ⟨.inl n, .inr e, fun k => wordless_empty (d ▸ k)⟩
/-- A meaning that no word of its own has, and that is no event. -/
theorem of_stop {i : Instr} (h : encodeHart i = []) (e : encodeExdin i = []) (d : Instr.isEvent i = false) : Statement i :=
  ⟨.inr ⟨h, e⟩, .inl h, fun k => absurd (d ▸ k) (by decide)⟩

theorem iadd (f : RForm) : Statement (.iadd f) := of_native rfl rfl rfl
theorem isub (f : RForm) : Statement (.isub f) := of_native rfl rfl rfl
theorem iaddc (f : RForm) : Statement (.iaddc f) := of_native rfl rfl rfl
theorem imul (f : RForm) : Statement (.imul f) := of_native rfl rfl rfl
theorem imulh (f : RForm) : Statement (.imulh f) := of_native rfl rfl rfl
theorem imad (f : RForm) : Statement (.imad f) := of_native rfl rfl rfl
theorem idiv (f : RForm) : Statement (.idiv f) := of_native rfl rfl rfl
theorem irem (f : RForm) : Statement (.irem f) := of_native rfl rfl rfl
theorem ineg (f : RForm) : Statement (.ineg f) := of_native rfl rfl rfl
theorem iabs (f : RForm) : Statement (.iabs f) := of_native rfl rfl rfl
theorem imin (f : RForm) : Statement (.imin f) := of_native rfl rfl rfl
theorem imax (f : RForm) : Statement (.imax f) := of_native rfl rfl rfl
theorem icmp (f : RForm) : Statement (.icmp f) := of_native rfl rfl rfl
theorem iaddImm32 (f : IForm) : Statement (.iaddImm32 f) := of_native rfl rfl rfl
theorem imulImm32 (f : IForm) : Statement (.imulImm32 f) := of_native rfl rfl rfl
theorem andImm32 (f : IForm) : Statement (.andImm32 f) := of_native rfl rfl rfl
theorem orImm32 (f : IForm) : Statement (.orImm32 f) := of_native rfl rfl rfl
theorem xorImm32 (f : IForm) : Statement (.xorImm32 f) := of_native rfl rfl rfl
theorem shlImm32 (f : IForm) : Statement (.shlImm32 f) := of_native rfl rfl rfl
theorem shrImm32 (f : IForm) : Statement (.shrImm32 f) := of_native rfl rfl rfl
theorem sarImm32 (f : IForm) : Statement (.sarImm32 f) := of_native rfl rfl rfl
theorem rotImm32 (f : IForm) : Statement (.rotImm32 f) := of_native rfl rfl rfl
theorem movi32 (f : IForm) : Statement (.movi32 f) := of_native rfl rfl rfl
theorem iaddImm64 (f : IForm) : Statement (.iaddImm64 f) := of_native rfl rfl rfl
theorem imulImm64 (f : IForm) : Statement (.imulImm64 f) := of_native rfl rfl rfl
theorem andImm64 (f : IForm) : Statement (.andImm64 f) := of_native rfl rfl rfl
theorem orImm64 (f : IForm) : Statement (.orImm64 f) := of_native rfl rfl rfl
theorem xorImm64 (f : IForm) : Statement (.xorImm64 f) := of_native rfl rfl rfl
theorem shlImm64 (f : IForm) : Statement (.shlImm64 f) := of_native rfl rfl rfl
theorem shrImm64 (f : IForm) : Statement (.shrImm64 f) := of_native rfl rfl rfl
theorem sarImm64 (f : IForm) : Statement (.sarImm64 f) := of_native rfl rfl rfl
theorem rotImm64 (f : IForm) : Statement (.rotImm64 f) := of_native rfl rfl rfl
theorem movi64 (f : IForm) : Statement (.movi64 f) := of_native rfl rfl rfl
theorem andR (f : RForm) : Statement (.andR f) := of_native rfl rfl rfl
theorem orR (f : RForm) : Statement (.orR f) := of_native rfl rfl rfl
theorem xorR (f : RForm) : Statement (.xorR f) := of_native rfl rfl rfl
theorem andn (f : RForm) : Statement (.andn f) := of_native rfl rfl rfl
theorem notR (f : RForm) : Statement (.notR f) := of_native rfl rfl rfl
theorem shl (f : RForm) : Statement (.shl f) := of_native rfl rfl rfl
theorem shr (f : RForm) : Statement (.shr f) := of_native rfl rfl rfl
theorem sar (f : RForm) : Statement (.sar f) := of_native rfl rfl rfl
theorem rot (f : RForm) : Statement (.rot f) := of_native rfl rfl rfl
theorem bfx (f : RForm) : Statement (.bfx f) := of_native rfl rfl rfl
theorem bfi (f : RForm) : Statement (.bfi f) := of_native rfl rfl rfl
theorem popc (f : RForm) : Statement (.popc f) := of_native rfl rfl rfl
theorem clz (f : RForm) : Statement (.clz f) := of_native rfl rfl rfl
theorem ctz (f : RForm) : Statement (.ctz f) := of_native rfl rfl rfl
theorem brev (f : RForm) : Statement (.brev f) := of_native rfl rfl rfl
theorem nop (f : RForm) : Statement (.nop f) := of_native rfl rfl rfl
theorem mov (f : RForm) : Statement (.mov f) := of_native rfl rfl rfl
theorem movl (f : RForm) : Statement (.movl f) := of_native rfl rfl rfl
theorem sel (f : RForm) : Statement (.sel f) := of_native rfl rfl rfl
theorem pset (f : RForm) : Statement (.pset f) := of_native rfl rfl rfl
theorem pmov (f : RForm) : Statement (.pmov f) := of_native rfl rfl rfl
theorem lea (f : RForm) : Statement (.lea f) := of_native rfl rfl rfl
theorem fadd (f : RForm) : Statement (.fadd f) := of_native rfl rfl rfl
theorem fsub (f : RForm) : Statement (.fsub f) := of_native rfl rfl rfl
theorem fmul (f : RForm) : Statement (.fmul f) := of_native rfl rfl rfl
theorem ffma (f : RForm) : Statement (.ffma f) := of_native rfl rfl rfl
theorem fmin (f : RForm) : Statement (.fmin f) := of_native rfl rfl rfl
theorem fmax (f : RForm) : Statement (.fmax f) := of_native rfl rfl rfl
theorem fcmp (f : RForm) : Statement (.fcmp f) := of_native rfl rfl rfl
theorem fclass (f : RForm) : Statement (.fclass f) := of_native rfl rfl rfl
theorem fdiv (f : RForm) : Statement (.fdiv f) := of_native rfl rfl rfl
theorem fsqrt (f : RForm) : Statement (.fsqrt f) := of_native rfl rfl rfl
theorem faddImm (f : IForm) : Statement (.faddImm f) := of_native rfl rfl rfl
theorem fmulImm (f : IForm) : Statement (.fmulImm f) := of_native rfl rfl rfl
theorem fminImm (f : IForm) : Statement (.fminImm f) := of_native rfl rfl rfl
theorem fmaxImm (f : IForm) : Statement (.fmaxImm f) := of_native rfl rfl rfl
theorem frcp (f : RForm) : Statement (.frcp f) := of_native rfl rfl rfl
theorem frsq (f : RForm) : Statement (.frsq f) := of_native rfl rfl rfl
theorem fexp2 (f : RForm) : Statement (.fexp2 f) := of_native rfl rfl rfl
theorem flog2 (f : RForm) : Statement (.flog2 f) := of_native rfl rfl rfl
theorem fsin (f : RForm) : Statement (.fsin f) := of_native rfl rfl rfl
theorem fcos (f : RForm) : Statement (.fcos f) := of_native rfl rfl rfl
theorem ftanh (f : RForm) : Statement (.ftanh f) := of_native rfl rfl rfl
theorem hadd2 (f : RForm) : Statement (.hadd2 f) := of_native rfl rfl rfl
theorem hmul2 (f : RForm) : Statement (.hmul2 f) := of_native rfl rfl rfl
theorem hfma2 (f : RForm) : Statement (.hfma2 f) := of_native rfl rfl rfl
theorem dot4 (f : RForm) : Statement (.dot4 f) := of_native rfl rfl rfl
theorem cvt (f : RForm) : Statement (.cvt f) := of_native rfl rfl rfl
theorem cvti (f : RForm) : Statement (.cvti f) := of_native rfl rfl rfl
theorem cvtf (f : RForm) : Statement (.cvtf f) := of_native rfl rfl rfl
theorem rnd (f : RForm) : Statement (.rnd f) := of_native rfl rfl rfl
theorem pack (f : RForm) : Statement (.pack f) := of_native rfl rfl rfl
theorem unpack (f : RForm) : Statement (.unpack f) := of_native rfl rfl rfl
theorem scaleq (f : RForm) : Statement (.scaleq f) := of_native rfl rfl rfl
theorem bscale (f : RForm) : Statement (.bscale f) := of_native rfl rfl rfl
theorem shfli (f : XForm) : Statement (.shfli f) := of_native rfl rfl rfl
theorem shflx (f : XForm) : Statement (.shflx f) := of_native rfl rfl rfl
theorem shfld (f : XForm) : Statement (.shfld f) := of_native rfl rfl rfl
theorem shfla (f : XForm) : Statement (.shfla f) := of_native rfl rfl rfl
theorem bcast (f : XForm) : Statement (.bcast f) := of_native rfl rfl rfl
theorem vote (f : RForm) : Statement (.vote f) := of_native rfl rfl rfl
theorem redl (f : RForm) : Statement (.redl f) := of_native rfl rfl rfl
theorem scanl (f : RForm) : Statement (.scanl f) := of_native rfl rfl rfl
theorem xmov (f : XForm) : Statement (.xmov f) := of_native rfl rfl rfl
theorem ld (f : MForm) : Statement (.ld f) := of_native rfl rfl rfl
theorem st (f : MForm) : Statement (.st f) := of_native rfl rfl rfl
theorem lds (f : MForm) : Statement (.lds f) := of_native rfl rfl rfl
theorem sts (f : MForm) : Statement (.sts f) := of_native rfl rfl rfl
theorem ldk (f : MForm) : Statement (.ldk f) := of_native rfl rfl rfl
theorem stk (f : MForm) : Statement (.stk f) := of_native rfl rfl rfl
theorem ldc (f : MForm) : Statement (.ldc f) := of_native rfl rfl rfl
theorem pref (f : MForm) : Statement (.pref f) := of_native rfl rfl rfl
theorem gath (f : MForm) : Statement (.gath f) := of_native rfl rfl rfl
theorem scat (f : MForm) : Statement (.scat f) := of_native rfl rfl rfl
theorem atom (f : XForm) : Statement (.atom f) := of_native rfl rfl rfl
theorem atoms (f : XForm) : Statement (.atoms f) := of_native rfl rfl rfl
theorem red (f : XForm) : Statement (.red f) := of_native rfl rfl rfl
theorem fence (f : XForm) : Statement (.fence f) := of_native rfl rfl rfl
theorem pfence (f : XForm) : Statement (.pfence f) := of_native rfl rfl rfl
theorem vjoin (f : XForm) : Statement (.vjoin f) := of_native rfl rfl rfl
theorem cctl (f : XForm) : Statement (.cctl f) := of_native rfl rfl rfl
theorem talloc (f : XForm) : Statement (.talloc f) := of_native rfl rfl rfl
theorem tseal (f : XForm) : Statement (.tseal f) := of_native rfl rfl rfl
theorem tld (f : XForm) : Statement (.tld f) := of_native rfl rfl rfl
theorem tst (f : XForm) : Statement (.tst f) := of_native rfl rfl rfl
theorem tdrop (f : XForm) : Statement (.tdrop f) := of_native rfl rfl rfl
theorem tquery (f : XForm) : Statement (.tquery f) := of_native rfl rfl rfl
theorem qpost (f : XForm) : Statement (.qpost f) := of_native rfl rfl rfl
theorem qtake (f : XForm) : Statement (.qtake f) := of_native rfl rfl rfl
theorem qadv (f : XForm) : Statement (.qadv f) := of_native rfl rfl rfl
theorem qcnt (f : XForm) : Statement (.qcnt f) := of_native rfl rfl rfl
theorem mlease (f : XForm) : Statement (.mlease f) := of_native rfl rfl rfl
theorem mrel (f : XForm) : Statement (.mrel f) := of_native rfl rfl rfl
theorem mloadw (f : XForm) (blk : Option ParamBlock) : Statement (.mloadw f blk) := of_native rfl rfl rfl
theorem mswap (f : XForm) : Statement (.mswap f) := of_native rfl rfl rfl
theorem mstream (f : XForm) (blk : Option ParamBlock) : Statement (.mstream f blk) := of_native rfl rfl rfl
theorem mzero (f : XForm) : Statement (.mzero f) := of_native rfl rfl rfl
theorem mread (f : XForm) : Statement (.mread f) := of_native rfl rfl rfl
theorem mwrite (f : XForm) : Statement (.mwrite f) := of_native rfl rfl rfl
theorem mmeta (f : XForm) : Statement (.mmeta f) := of_native rfl rfl rfl
theorem mshape (f : XForm) : Statement (.mshape f) := of_native rfl rfl rfl
theorem cpy (f : XForm) (blk : Option ParamBlock) : Statement (.cpy f blk) := of_native rfl rfl rfl
theorem cpyAlloc (f : XForm) (blk : Option ParamBlock) : Statement (.cpyAlloc f blk) := of_native rfl rfl rfl
theorem cpyw (f : XForm) : Statement (.cpyw f) := of_native rfl rfl rfl
theorem cpyq (f : XForm) : Statement (.cpyq f) := of_native rfl rfl rfl
theorem splw (f : XForm) : Statement (.splw f) := of_native rfl rfl rfl
theorem splr (f : XForm) : Statement (.splr f) := of_native rfl rfl rfl
theorem splf (f : XForm) : Statement (.splf f) := of_native rfl rfl rfl
theorem mbsend (f : XForm) : Statement (.mbsend f) := of_native rfl rfl rfl
theorem launch (f : XForm) : Statement (.launch f) := of_native rfl rfl rfl
theorem bar (f : XForm) : Statement (.bar f) := of_native rfl rfl rfl
theorem barxArv (f : XForm) : Statement (.barxArv f) := of_native rfl rfl rfl
theorem barxExp (f : XForm) : Statement (.barxExp f) := of_native rfl rfl rfl
theorem barw (f : XForm) : Statement (.barw f) := of_native rfl rfl rfl
theorem bbrot (f : XForm) : Statement (.bbrot f) := of_native rfl rfl rfl
theorem waitc (f : XForm) : Statement (.waitc f) := of_native rfl rfl rfl
theorem qpoint (f : XForm) : Statement (.qpoint f) := of_native rfl rfl rfl
theorem bra (f : BForm) : Statement (.bra f) := of_native rfl rfl rfl
theorem call (f : BForm) : Statement (.call f) := of_native rfl rfl rfl
theorem rconv (f : BForm) : Statement (.rconv f) := of_native rfl rfl rfl
theorem modeVliw (f : BForm) : Statement (.modeVliw f) := of_native rfl rfl rfl
theorem modeSimt (f : BForm) : Statement (.modeSimt f) := of_native rfl rfl rfl
theorem loop (f : BForm) : Statement (.loop f) := of_native rfl rfl rfl
theorem brx (f : XForm) : Statement (.brx f) := of_native rfl rfl rfl
theorem ret (f : XForm) : Statement (.ret f) := of_native rfl rfl rfl
theorem exit (f : XForm) : Statement (.exit f) := of_native rfl rfl rfl
theorem regang (f : XForm) : Statement (.regang f) := of_native rfl rfl rfl
theorem lend (f : XForm) : Statement (.lend f) := of_native rfl rfl rfl
theorem yield (f : XForm) : Statement (.yield f) := of_native rfl rfl rfl
theorem sleep (f : XForm) : Statement (.sleep f) := of_native rfl rfl rfl
theorem pgrant (f : XForm) : Statement (.pgrant f) := of_native rfl rfl rfl
theorem prels (f : XForm) : Statement (.prels f) := of_native rfl rfl rfl
theorem pgate (f : XForm) : Statement (.pgate f) := of_native rfl rfl rfl
theorem trap (f : XForm) : Statement (.trap f) := of_native rfl rfl rfl
theorem hret (f : XForm) : Statement (.hret f) := of_native rfl rfl rfl
theorem brk (f : XForm) : Statement (.brk f) := of_native rfl rfl rfl
theorem probe (f : XForm) : Statement (.probe f) := of_native rfl rfl rfl
theorem docinv (f : XForm) : Statement (.docinv f) := of_native rfl rfl rfl
theorem sread (f : XForm) : Statement (.sread f) := of_native rfl rfl rfl
theorem swrite (f : XForm) : Statement (.swrite f) := of_native rfl rfl rfl
theorem bundle (hdr : BitVec 64) (words : List (BitVec 64)) : Statement (.bundle hdr words) := of_native rfl rfl rfl
theorem hcpy (f : HForm) : Statement (.hcpy f) := of_hart rfl rfl rfl
theorem hwait (f : HForm) : Statement (.hwait f) := of_hart rfl rfl rfl
theorem halloc (f : HForm) : Statement (.halloc f) := of_hart rfl rfl rfl
theorem hpost (f : HForm) : Statement (.hpost f) := of_hart rfl rfl rfl
theorem hsig (f : HForm) : Statement (.hsig f) := of_hart rfl rfl rfl
theorem hsleep (f : HForm) : Statement (.hsleep f) := of_hart rfl rfl rfl
theorem exNop (f : ExForm) : Statement (.exNop f) := of_exdin rfl rfl rfl
theorem exMov (f : ExForm) : Statement (.exMov f) := of_exdin rfl rfl rfl
theorem exAdd (f : ExForm) : Statement (.exAdd f) := of_exdin rfl rfl rfl
theorem exSub (f : ExForm) : Statement (.exSub f) := of_exdin rfl rfl rfl
theorem exMul (f : ExForm) : Statement (.exMul f) := of_exdin rfl rfl rfl
theorem exMad (f : ExForm) : Statement (.exMad f) := of_exdin rfl rfl rfl
theorem exDiv (f : ExForm) : Statement (.exDiv f) := of_exdin rfl rfl rfl
theorem exRem (f : ExForm) : Statement (.exRem f) := of_exdin rfl rfl rfl
theorem exMin (f : ExForm) : Statement (.exMin f) := of_exdin rfl rfl rfl
theorem exMax (f : ExForm) : Statement (.exMax f) := of_exdin rfl rfl rfl
theorem exAnd (f : ExForm) : Statement (.exAnd f) := of_exdin rfl rfl rfl
theorem exOr (f : ExForm) : Statement (.exOr f) := of_exdin rfl rfl rfl
theorem exXor (f : ExForm) : Statement (.exXor f) := of_exdin rfl rfl rfl
theorem exShl (f : ExForm) : Statement (.exShl f) := of_exdin rfl rfl rfl
theorem exShr (f : ExForm) : Statement (.exShr f) := of_exdin rfl rfl rfl
theorem exBitc (f : ExForm) : Statement (.exBitc f) := of_exdin rfl rfl rfl
theorem exBfx (f : ExForm) : Statement (.exBfx f) := of_exdin rfl rfl rfl
theorem exBfi (f : ExForm) : Statement (.exBfi f) := of_exdin rfl rfl rfl
theorem exCmp (f : ExForm) : Statement (.exCmp f) := of_exdin rfl rfl rfl
theorem exSel (f : ExForm) : Statement (.exSel f) := of_exdin rfl rfl rfl
theorem exFadd (f : ExForm) : Statement (.exFadd f) := of_exdin rfl rfl rfl
theorem exFsub (f : ExForm) : Statement (.exFsub f) := of_exdin rfl rfl rfl
theorem exFmul (f : ExForm) : Statement (.exFmul f) := of_exdin rfl rfl rfl
theorem exFfma (f : ExForm) : Statement (.exFfma f) := of_exdin rfl rfl rfl
theorem exFmin (f : ExForm) : Statement (.exFmin f) := of_exdin rfl rfl rfl
theorem exFmax (f : ExForm) : Statement (.exFmax f) := of_exdin rfl rfl rfl
theorem exFdiv (f : ExForm) : Statement (.exFdiv f) := of_exdin rfl rfl rfl
theorem exFsqrt (f : ExForm) : Statement (.exFsqrt f) := of_exdin rfl rfl rfl
theorem exFcmp (f : ExForm) : Statement (.exFcmp f) := of_exdin rfl rfl rfl
theorem exFunc (f : ExForm) : Statement (.exFunc f) := of_exdin rfl rfl rfl
theorem exCvt (f : ExForm) : Statement (.exCvt f) := of_exdin rfl rfl rfl
theorem exQuant (f : ExForm) : Statement (.exQuant f) := of_exdin rfl rfl rfl
theorem exBscale (f : ExForm) : Statement (.exBscale f) := of_exdin rfl rfl rfl
theorem exShfl (f : ExForm) : Statement (.exShfl f) := of_exdin rfl rfl rfl
theorem exBcast (f : ExForm) : Statement (.exBcast f) := of_exdin rfl rfl rfl
theorem exVote (f : ExForm) : Statement (.exVote f) := of_exdin rfl rfl rfl
theorem exXred (f : ExForm) : Statement (.exXred f) := of_exdin rfl rfl rfl
theorem exXscan (f : ExForm) : Statement (.exXscan f) := of_exdin rfl rfl rfl
theorem exLd (f : ExForm) : Statement (.exLd f) := of_exdin rfl rfl rfl
theorem exSt (f : ExForm) : Statement (.exSt f) := of_exdin rfl rfl rfl
theorem exLds (f : ExForm) : Statement (.exLds f) := of_exdin rfl rfl rfl
theorem exSts (f : ExForm) : Statement (.exSts f) := of_exdin rfl rfl rfl
theorem exAtom (f : ExForm) : Statement (.exAtom f) := of_exdin rfl rfl rfl
theorem exFence (f : ExForm) : Statement (.exFence f) := of_exdin rfl rfl rfl
theorem exTalloc (f : ExForm) : Statement (.exTalloc f) := of_exdin rfl rfl rfl
theorem exTseal (f : ExForm) : Statement (.exTseal f) := of_exdin rfl rfl rfl
theorem exTld (f : ExForm) : Statement (.exTld f) := of_exdin rfl rfl rfl
theorem exTst (f : ExForm) : Statement (.exTst f) := of_exdin rfl rfl rfl
theorem exTdrop (f : ExForm) : Statement (.exTdrop f) := of_exdin rfl rfl rfl
theorem exQpost (f : ExForm) : Statement (.exQpost f) := of_exdin rfl rfl rfl
theorem exQtake (f : ExForm) : Statement (.exQtake f) := of_exdin rfl rfl rfl
theorem exCopy (f : ExForm) : Statement (.exCopy f) := of_exdin rfl rfl rfl
theorem exWload (f : ExForm) : Statement (.exWload f) := of_exdin rfl rfl rfl
theorem exMm (f : ExForm) : Statement (.exMm f) := of_exdin rfl rfl rfl
theorem exAcc (f : ExForm) : Statement (.exAcc f) := of_exdin rfl rfl rfl
theorem exIf (f : ExForm) : Statement (.exIf f) := of_exdin rfl rfl rfl
theorem exLoop (f : ExForm) : Statement (.exLoop f) := of_exdin rfl rfl rfl
theorem exBrk (f : ExForm) : Statement (.exBrk f) := of_exdin rfl rfl rfl
theorem exSreg (f : ExForm) : Statement (.exSreg f) := of_exdin rfl rfl rfl
theorem exExit (f : ExForm) : Statement (.exExit f) := of_exdin rfl rfl rfl
theorem undefinedWord (w : BitVec 64) : Statement (.undefinedWord w) := of_stop rfl rfl rfl
theorem hartBaseInstruction (w : BitVec 32) : Statement (.hartBaseInstruction w) := of_hart rfl rfl rfl
theorem gsync : Statement .gsync := of_native rfl rfl rfl
theorem phase : Statement .phase := of_native rfl rfl rfl
theorem join : Statement .join := of_native rfl rfl rfl
theorem exElse : Statement .exElse := of_exdin rfl rfl rfl
theorem exEndif : Statement .exEndif := of_exdin rfl rfl rfl
theorem exEndloop : Statement .exEndloop := of_exdin rfl rfl rfl
theorem exBar : Statement .exBar := of_exdin rfl rfl rfl
theorem qtail : Statement .qtail := of_native rfl rfl rfl
theorem qctl : Statement .qctl := of_native rfl rfl rfl
theorem registerWrite : Statement .registerWrite := of_native rfl rfl rfl
theorem invgo : Statement .invgo := of_native rfl rfl rfl
theorem launchPacketRead : Statement .launchPacketRead := of_native rfl rfl rfl
theorem stealRequest : Statement .stealRequest := of_native rfl rfl rfl
theorem unitPlacement : Statement .unitPlacement := of_native rfl rfl rfl
theorem blockEnd : Statement .blockEnd := of_native rfl rfl rfl
theorem gridCompletion : Statement .gridCompletion := of_native rfl rfl rfl
theorem mailboxHandlerLaunch : Statement .mailboxHandlerLaunch := of_native rfl rfl rfl
theorem mailboxDelivery : Statement .mailboxDelivery := of_native rfl rfl rfl
theorem serviceMailboxMessage : Statement .serviceMailboxMessage := of_native rfl rfl rfl
theorem copyCompletion : Statement .copyCompletion := of_native rfl rfl rfl
theorem gatherElement : Statement .gatherElement := of_native rfl rfl rfl
theorem weightLoadCompletion : Statement .weightLoadCompletion := of_native rfl rfl rfl
theorem streamCompletion : Statement .streamCompletion := of_native rfl rfl rfl
theorem loadReturn : Statement .loadReturn := of_native rfl rfl rfl
theorem storeDrain : Statement .storeDrain := of_native rfl rfl rfl
theorem stampedWriteApply : Statement .stampedWriteApply := of_native rfl rfl rfl
theorem monitorReexamine : Statement .monitorReexamine := of_native rfl rfl rfl
theorem monitorPoll : Statement .monitorPoll := of_native rfl rfl rfl
theorem waitcTimeout : Statement .waitcTimeout := of_native rfl rfl rfl
theorem sleepDeadline : Statement .sleepDeadline := of_native rfl rfl rfl
theorem tileGrant : Statement .tileGrant := of_native rfl rfl rfl
theorem poolStall : Statement .poolStall := of_native rfl rfl rfl
theorem tileDrain : Statement .tileDrain := of_native rfl rfl rfl
theorem leaseGrant : Statement .leaseGrant := of_native rfl rfl rfl
theorem leaseExpiry : Statement .leaseExpiry := of_native rfl rfl rfl
theorem powerGrant : Statement .powerGrant := of_native rfl rfl rfl
theorem powerWindow : Statement .powerWindow := of_native rfl rfl rfl
theorem powerBudget : Statement .powerBudget := of_native rfl rfl rfl
theorem vaultSensorReading : Statement .vaultSensorReading := of_native rfl rfl rfl
theorem throttleStep : Statement .throttleStep := of_native rfl rfl rfl
theorem hotPageMigration : Statement .hotPageMigration := of_native rfl rfl rfl
theorem agentCounterWriteback : Statement .agentCounterWriteback := of_native rfl rfl rfl
theorem clockChange : Statement .clockChange := of_native rfl rfl rfl
theorem preemptForPriority : Statement .preemptForPriority := of_native rfl rfl rfl
theorem starvationResume : Statement .starvationResume := of_native rfl rfl rfl
theorem blockResume : Statement .blockResume := of_native rfl rfl rfl
theorem taskBudgetExpiry : Statement .taskBudgetExpiry := of_native rfl rfl rfl
theorem taskPreload : Statement .taskPreload := of_native rfl rfl rfl
theorem phaseTaskStart : Statement .phaseTaskStart := of_native rfl rfl rfl
theorem rillAppend : Statement .rillAppend := of_native rfl rfl rfl
theorem spillwayPushArrival : Statement .spillwayPushArrival := of_native rfl rfl rfl
theorem impreciseTrapDelivery : Statement .impreciseTrapDelivery := of_native rfl rfl rfl
theorem deadlockWatchdog : Statement .deadlockWatchdog := of_native rfl rfl rfl
theorem coreAcknowledge : Statement .coreAcknowledge := of_native rfl rfl rfl
theorem invalidationWatchdog : Statement .invalidationWatchdog := of_native rfl rfl rfl
theorem migrationQuantum : Statement .migrationQuantum := of_native rfl rfl rfl
theorem holdExpiry : Statement .holdExpiry := of_native rfl rfl rfl
theorem checkpoint : Statement .checkpoint := of_native rfl rfl rfl
theorem instructionSample : Statement .instructionSample := of_native rfl rfl rfl
theorem fatalError : Statement .fatalError := of_native rfl rfl rfl
theorem moduleReset : Statement .moduleReset := of_native rfl rfl rfl
theorem patrolScrub : Statement .patrolScrub := of_native rfl rfl rfl
theorem flitRetry : Statement .flitRetry := of_native rfl rfl rfl
theorem creditReturn : Statement .creditReturn := of_native rfl rfl rfl
theorem peerWriteArrival : Statement .peerWriteArrival := of_native rfl rfl rfl
theorem hostAccess : Statement .hostAccess := of_native rfl rfl rfl
theorem featget : Statement .featget := of_native rfl rfl rfl
theorem featset : Statement .featset := of_native rfl rfl rfl
theorem ctxnew : Statement .ctxnew := of_native rfl rfl rfl
theorem ctxend : Statement .ctxend := of_native rfl rfl rfl
theorem mbxreg : Statement .mbxreg := of_native rfl rfl rfl
theorem mbxunreg : Statement .mbxunreg := of_native rfl rfl rfl
theorem codesync : Statement .codesync := of_native rfl rfl rfl
theorem attest : Statement .attest := of_native rfl rfl rfl
theorem dbgctl : Statement .dbgctl := of_native rfl rfl rfl
theorem stop : Statement .stop := of_native rfl rfl rfl
theorem resume : Statement .resume := of_native rfl rfl rfl
theorem ckpt : Statement .ckpt := of_native rfl rfl rfl
theorem imgwrite : Statement .imgwrite := of_native rfl rfl rfl
theorem reset : Statement .reset := of_native rfl rfl rfl
theorem dumpbase : Statement .dumpbase := of_native rfl rfl rfl
theorem coupling : Statement .coupling := of_native rfl rfl rfl
theorem fetchFault : Statement .fetchFault := of_stop rfl rfl rfl
theorem spillwayPopArrival : Statement .spillwayPopArrival := of_native rfl rfl rfl
theorem docinvCompletion : Statement .docinvCompletion := of_native rfl rfl rfl
theorem pageMoveCompletion : Statement .pageMoveCompletion := of_native rfl rfl rfl
theorem peerReadArrival : Statement .peerReadArrival := of_native rfl rfl rfl
theorem forcedUnload : Statement .forcedUnload := of_native rfl rfl rfl
theorem replay : Statement .replay := of_native rfl rfl rfl
theorem unknownCommand : Statement .unknownCommand := of_native rfl rfl rfl

end Sys2Proof.Laws.Table
end

