-- ==== Sys2Proof/Tests/Slice0.lean ====
section
/-! SUPPORT. The model's own tests: witnesses that the statements' premises hold, words written out from the encoding tables, ill-formed
terms, and single steps whose results were found by hand from the rules named. -/

section

set_option Elab.async false
set_option maxRecDepth 100000

open Sys2Proof Sys2Proof.Machine Sys2Proof.Claims

namespace Sys2Proof.Tests

/-! ## A small module -/

/-- The tables of a context with its code page at 0x200000, and a data page at 0x300000 behind the next entry. -/
def wMem : Mem := (freshTables []).writeAll 0x40008 (leBytes 0x60001 8)

def wSegs : List Seg := freshSegs ++ [{ base := 0x300000, limit := 0x10000, ptab := 0x130008, attr := 0xD }]

def wOwner : Owner := { hart := false, core := 0, key := 0, grid := 0, bx := 0, byy := 0, bz := 0 }

/-- s0 a global address, s1 the handle of a tile that is written, s2 that of a sealed tile, s4 one. -/
def wS : List (Nat × W64) := [(0, 0x300000), (1, 0x1000000), (2, 0x1000001), (4, 1)]

def wTile (st : TileSt) (gen : Nat) : Tile :=
  { size := 1, cnt := 3, st, ker := false, owner := wOwner, agent := 0, gen, reads := 0 }

def wPart : Part :=
  { units := 1, lastgen := [(0, 1), (1, 1)], used := [0, 1], tiles := [(0, wTile .writing 1), (1, wTile .sealed 1)] }

def wBlock : Block :=
  { freshBlock 1 0 false with
    slices := List.replicate 4 { gang := 0, pc := 0x200000, live := 15, active := 15, s := wS }
    nbr := 8, scrLen := 65536, zpb := 4 }

def wFlume : Flume := { ring := [(0, 0x1000001)], posts := 1, ncur := 2, part := 0, grid := some 0 }

def wCore : Core :=
  { spw := 0x1810200000000000, blocks := [(0, wBlock)], flumes := [(0, wFlume)], rill := List.replicate 16 5
    inbound := [{ words := [(0, 7)], ctx := 1 }] }

def wCluster : Cluster :=
  { cpw := 0x0400000000000000, partGrid := some 0, parts := [wPart], budget := 100000
    lease := some { core := 0, blk := 0, cls := 0, cmds := 16, cyc := 4096 }
    active := { valid := true, ctx := 1 } }

def wCtx : Context := { saveVa := 0x100000, saveSize := 0x2000000, savePt := 0, feat := Config.offered }

def wGrid : Grid := { ctx := 1, segs := wSegs, started := true, placed := [0], flumes := 1, fdecl := [8] }

/-- A module with a context, a grid of it, and a block of the grid as one gang of four slices about to issue on core 0. -/
def wState : State :=
  { mem := wMem, cores := [(0, wCore)], clusters := [(0, wCluster)], ctxs := [(1, wCtx)], grids := [(0, wGrid)]
    sys := { mbx := [(0, { ring := 0x80000, depth := 8, opn := true, valid := true })] }, cur := .gang 0 0 0 }

/-- `wState` with the gang, the block, the core, the cluster, the context or the grid changed. -/
def wCore' (f : Core → Core) : State := { wState with cores := [(0, f wCore)] }
def wBlk (f : Block → Block) : State := wCore' fun c => { c with blocks := [(0, f wBlock)] }
def wGang (g : Gang) : State := wBlk fun b => { b with gangs := [(0, g)] }
def wClus (f : Cluster → Cluster) : State := { wState with clusters := [(0, f wCluster)] }
def wCtx' (f : Context → Context) : State := { wState with ctxs := [(1, f wCtx)] }
def wGrid' (f : Grid → Grid) : State := { wState with grids := [(0, f wGrid)] }
def wSys (f : Sys → Sys) : State := { wState with sys := f wState.sys }
def wArgs (s : State) (l : List Nat) (bs : List Byte := []) : State := { s with args := { num := l, bytes := bs } }

def wR : RForm :=
  { g := ⟨7, false⟩, d := 2, a := 0, b := 0, c := 0, lx := none, ty := .i32, rm := .ne, sat := false, xm := 0 }
def wI : IForm := { g := ⟨7, false⟩, d := 2, a := 4, imm := 5, ik := 0 }
def wM : MForm :=
  { g := ⟨7, false⟩, w := .b32, d := 2, a := 0xC0, x := 0xFF, off := 0, ord := .plain, scp := .core, view := false }
def wX : XForm := { g := ⟨7, false⟩, d := 0, a := 0, b := 0, c := 0, imm := 0 }
def wB : BForm := { g := ⟨7, false⟩, a := 0, b := 0, off := 8 }

/-- One, two and three sources of a type. -/
def w1 (t : Ty := .i32) : RForm := { wR with ty := t, a := 4 }
def w2 (t : Ty := .i32) : RForm := { wR with ty := t, a := 4, b := 6 }
def w3 (t : Ty := .i32) : RForm := { wR with ty := t, a := 4, b := 6, c := 8 }

/-- Each instruction of a list is well formed, and its row of a table says that it completes in `s`. -/
def good (t : Instr → Option Row) (s : State) (l : List Instr) : Bool := l.all fun i => i.wf && (t i).any fun r => r.ok s
def goodLane (t : Instr → Option LaneOp) (s : State) (l : List Instr) : Bool := l.all fun i => i.wf && (t i).any fun l => l.row.ok s

/-- The segment table of the context, as it stands in the save area. -/
def segBytes (g : Seg) : List Byte := leBytes g.base.toNat 8 ++ leBytes g.limit.toNat 8 ++ leBytes g.ptab.toNat 8 ++ leBytes g.attr.toNat 8
def tSegs : List Seg := freshSegs ++ [{ base := 0x300000, limit := 0x10000, ptab := 0x130008, attr := 0x40000000000D }]
def tMem : Mem := wMem.writeAll 0x11000 (tSegs.flatMap segBytes)

theorem cellGet_none {w : Nat} (t : List (Nat × BitVec w)) (a : Nat) (h : ∀ c ∈ t, c.1 ≠ a) : cellGet t a = 0 := by
  induction t with
  | nil => rfl
  | cons c t ih =>
    simp only [cellGet, if_neg (h c (List.mem_cons_self ..))]
    exact ih fun d hd => h d (List.mem_cons_of_mem _ hd)

/-- The table of a context whose entries from `n` on are absent. -/
theorem ctxSegs_of (s : State) (x : Context) (n : Nat) (hn : n ≤ 1024) (hp : x.savePage = 65536)
    (hw : s.pteAt x.tlb x.savePt.toNat = 0x10001) (h : ∀ c ∈ s.mem, c.1 < 0x11018 + 32 * n ∨ 0x20000 ≤ c.1) :
    ctxSegs s x = (List.range n).filterMap fun i =>
      let o := 0x1000 + 32 * i
      let word := saveWord s x (o + 24)
      let attr := if s.cxl then word else word &&& ~~~0x80
      if attr.getLsbD 0 then some { base := saveWord s x o, limit := saveWord s x (o + 8), ptab := saveWord s x (o + 16), attr }
      else none := by
  have z : ∀ i, n ≤ i → i < 1024 → (saveWord s x (0x1000 + 32 * i + 24)).getLsbD 0 = false := by
    intro i h1 h2
    have e : saveLoc s x (0x1000 + 32 * i + 24) = ⟨0, 0, 0x11018 + 32 * i⟩ := by
      simp only [saveLoc, hp, show (0x1000 + 32 * i + 24) / 65536 = 0 by omega, Nat.mul_zero, Nat.add_zero, hw]
      simp only [show (bits 23 (0x10001 : W64) 16).toNat = 1 by decide]
      congr 1; omega
    have b : s.readLoc ⟨0, 0, 0x11018 + 32 * i⟩ = 0 := cellGet_none _ _ fun c hc => by
      show c.1 ≠ 0x11018 + 32 * i
      rcases h c hc with h | h <;> omega
    simp only [saveWord, e, State.readBytes, b, leNat, BitVec.getLsbD_ofNat]
    simp
    omega
  obtain ⟨m, hm⟩ := Nat.exists_eq_add_of_le hn
  have t : ((List.range m).map (n + ·)).filterMap (fun i =>
      let o := 0x1000 + 32 * i
      let word := saveWord s x (o + 24)
      let attr := if s.cxl then word else word &&& ~~~0x80
      if attr.getLsbD 0 then some ({ base := saveWord s x o, limit := saveWord s x (o + 8), ptab := saveWord s x (o + 16), attr } : Seg)
      else none) = [] := by
    rw [List.filterMap_eq_nil_iff]
    intro i hi
    obtain ⟨j, hj, rfl⟩ := List.mem_map.1 hi
    have := List.mem_range.1 hj
    have q : (if s.cxl then saveWord s x (0x1000 + 32 * (n + j) + 24) else saveWord s x (0x1000 + 32 * (n + j) + 24) &&& ~~~0x80).getLsbD 0
        = false := by
      have e := z (n + j) (by omega) (by omega)
      split
      · exact e
      · rw [BitVec.getLsbD_and, e, Bool.false_and]
    simp only [q]
    rfl
  rw [ctxSegs, hm, List.range_add, List.filterMap_append, t, List.append_nil]

theorem readBytes_mem (s : State) (a n : Nat) : s.readBytes ⟨0, 0, a⟩ n = s.mem.bytes a n := by
  induction n generalizing a with
  | zero => rfl
  | succ n ih => exact congrArg _ (ih (a + 1))

theorem saveWord_congr (s t : State) (x : Context) (o : Nat) (h : s.mem = t.mem) : saveWord s x o = saveWord t x o := by
  simp only [saveWord, saveLoc, State.pteAt, State.word, readBytes_mem, h]

theorem tSegs_at (s : State) (h : s.mem = tMem) : ctxSegs s wCtx = tSegs := by
  have w : s.pteAt wCtx.tlb wCtx.savePt.toNat = 0x10001 := by
    simp only [State.pteAt, State.word, readBytes_mem, h]; decide +kernel
  rw [ctxSegs_of _ _ 3 (by decide) rfl w (by rw [h]; decide +kernel)]
  simp only [saveWord_congr s { mem := tMem } wCtx _ h]
  cases s.cxl <;> decide +kernel

def tState : State := { wState with mem := tMem }

/-! ## Each instruction completes in some state: witnesses of the completion statements -/

theorem test_integer_lanes_complete : goodLane intLane wState
    [.iadd (w2), .isub w2, .iaddc { w2 .n32 with xm := 0 }, .imul w2, .imulh w2, .imad w3, .idiv w2, .irem w2, .ineg w1, .iabs w1,
     .imin w2, .imax w2, .icmp { w2 with xm := 5 }, .iaddImm32 wI, .imulImm32 wI, .andImm32 wI, .orImm32 wI, .xorImm32 wI,
     .shlImm32 wI, .shrImm32 wI, .sarImm32 wI, .rotImm32 wI, .movi32 { wI with a := 0 }, .iaddImm64 wI, .imulImm64 wI, .andImm64 wI,
     .orImm64 wI, .xorImm64 wI, .shlImm64 wI, .shrImm64 wI, .sarImm64 wI, .rotImm64 wI, .movi64 { wI with a := 0 }] = true := by
  decide +kernel

theorem test_logic_and_move_lanes_complete : goodLane intLane wState
    [.andR (w2 .b64), .orR (w2 .b64), .xorR (w2 .b32), .andn (w2 .b32), .notR (w1 .b32), .shl (w2 .b64), .shr (w2 .b32),
     .sar (w2 .b32), .rot (w2 .b32), .bfx w2, .bfi (w3 .b32), .popc (w1 .b64), .clz (w1 .b32), .ctz (w1 .b32), .brev (w1 .b32),
     .nop { wR with ty := .i8, d := 0 }, .mov { w1 .b128 with d := 8 }, .movl { wR with ty := .b64, lx := some 7 },
     .sel { w2 .b32 with c := 1 }, .pset { w2 .i8 with b := 5 }, .pmov { wR with ty := .i8 },
     .lea { w2 with xm := 3 }] = true := by
  decide +kernel

theorem test_float_lanes_complete : goodLane fpLane wState
    [.fadd (w2 .f32), .fsub (w2 .f32), .fmul (w2 .f32), .ffma (w3 .f32), .fmin (w2 .f32), .fmax (w2 .f32), .fcmp (w2 .f32),
     .fclass (w1 .f16), .fdiv (w2 .f32), .fsqrt (w1 .f32), .faddImm { wI with ik := 3 }, .fmulImm { wI with ik := 3 },
     .fminImm { wI with ik := 3 }, .fmaxImm { wI with ik := 3 }, .frcp (w1 .f32), .frsq (w1 .f32), .fexp2 (w1 .f32),
     .flog2 (w1 .f32), .fsin (w1 .f32), .fcos (w1 .f32), .ftanh (w1 .f32)] = true := by
  decide +kernel

theorem test_narrow_lanes_complete : goodLane fpLane wState
    [.hadd2 (w2 .f16), .hmul2 (w2 .bf16), .hfma2 (w3 .f16), .dot4 (w3 .i8), .cvt { w1 .e2m1 with c := 0x90, rm := .sr },
     .cvti { w1 .i32 with c := 0x90 }, .cvtf { w1 .f32 with c := 0x10 }, .rnd (w1 .f32), .pack { w2 .f16 with c := 0x90 },
     .unpack { w1 .f32 with c := 0xA8, xm := 7 }, .scaleq { w2 .e4m3 with c := 0x90 }, .bscale { w1 .e4m3 with c := 0x90 }] = true := by
  decide +kernel

theorem test_exchanges_complete : good exchangeRow wState
    [.shfli { wX with d := 2, a := 4, b := 6 }, .shflx { wX with d := 2, a := 4, imm := 1 }, .shfld { wX with imm := 0x4003 },
     .shfla wX, .bcast wX, .vote { wR with ty := .i8, xm := 3 }, .redl w1, .scanl { w1 with xm := 8 }] = true := by
  decide +kernel

/-- The offset forms take 32-bit addresses. -/
def wMs : MForm := { wM with a := 0xFF }

theorem test_loads_and_stores_complete : good memoryRow wState
    [.ld { wM with ord := .acq, scp := .dev }, .st { wM with w := .b128, d := 4 }, .lds { wMs with view := true }, .sts wMs, .ldk wMs,
     .stk { wMs with w := .n8 }, .ldc wM] = true := by
  decide +kernel

theorem test_memory_completes : good memoryRow wState
    [.pref { wM with w := .n8, d := 0 }, .gath { wM with d := 0xC5, x := 4 }, .scat { wM with d := 0xC5, x := 4, view := true },
     .atom { wX with d := 2, a := 0xC0, imm := 0x0400 }, .atoms { wX with d := 2, a := 0xFF, imm := 0x0400 },
     .red { wX with a := 0xC0, imm := 0x0400 }, .fence { wX with imm := 0xA000 }, .pfence wX, .vjoin wX,
     .cctl { wX with a := 0xC0 }] = true := by
  decide +kernel

theorem test_tiles_complete : good tileRow wState
    [.talloc { wX with d := 0xC6, b := 0xC4, imm := 3 }, .tseal { wX with a := 0xC1 },
     .tld { wX with d := 2, a := 0xC2, b := 0xFF, imm := 0x1000 }, .tst { wX with d := 2, a := 0xC1, b := 0xFF, imm := 0x1000 },
     .tdrop { wX with a := 0xC2, imm := 1 }, .tquery { wX with d := 2, a := 0xC2 }, .qpost { wX with a := 0xC2 },
     .qtake { wX with d := 0xC6, imm := 1 }, .qadv { wX with imm := 1 }, .qcnt { wX with d := 2 }] = true := by
  decide +kernel

/-- Eight rows of 128 bytes, from a stated row and stride. -/
def wBlk0 : ParamBlock := ⟨0x0008800900020013, 0x0010001800C00000, 0, 0⟩

theorem test_matrix_completes : good matrixRow wState
    [.mrel wX, .mloadw { wX with a := 0xC5, imm := 0x8000 } (some ⟨0x20000, 0, 0, 0⟩), .mswap wX,
     .mstream { wX with a := 0xC0, imm := 0x8000 } (some ⟨0x100000000, 0, 0, 0⟩), .mzero { wX with imm := 0x0020 },
     .mread { wX with d := 2, b := 0xC5 }, .mwrite { wX with d := 2, b := 0xC5, imm := 0x0200 }, .mmeta { wX with a := 0xC0 },
     .mshape { wX with a := 0xC4 }] = true
    ∧ good matrixRow (wClus fun q => { q with lease := none }) [.mlease { wX with imm := 4 }] = true := by
  decide +kernel

theorem test_engines_complete : good engineRow wState
    [.cpy { wX with a := 0xC0, b := 0xC0, imm := 0x8000 } (some ⟨0x0001000100100000, 0x0001, 0, 0⟩),
     .cpyAlloc { wX with d := 0xC5, a := 0xC0, c := 0xC4, imm := 0xA000 } (some ⟨0x000100010010000C, 0x0001, 0, 0⟩), .cpyw wX,
     .cpyq { wX with d := 2 }, .splw { wX with a := 4 }, .splr { wX with d := 4 }, .splf { wX with d := 4 },
     .mbsend { wX with a := 0xC5, b := 0xC0, imm := 8 }, .launch { wX with d := 0xC5, a := 0xC0 }] = true := by
  decide +kernel

theorem test_synchronisation_completes : good syncRow wState
    [.bar { wX with d := 1 }, .barxArv { wX with d := 1 }, .barxExp { wX with d := 1, imm := 0x8004 }, .barw { wX with d := 1 },
     .bbrot { wX with imm := 1 }, .phase, .regang { wX with imm := 0x000F }, .qpoint wX,
     .waitc { wX with d := 1, a := 0xC0, b := 0xFF, c := 0xFF }] = true
    ∧ good syncRow (wGrid' fun g => { g with pkt := { lctl := 1 <<< 60 } }) [.gsync] = true := by
  decide +kernel

/-- A gang inside an open `JOIN` region. -/
def wJoin : State := wBlk fun b => { b with slices := b.slices.map fun x => { x with stack := [.join 0x200100 15 0] } }

theorem test_control_flow_completes : good controlRow wState
    [.bra wB, .call { wB with a := 0xC5 }, .brx { wX with a := 0xFF }, .ret { wX with a := 0xFF }, .exit wX, .rconv wB, .modeVliw wB,
     .yield wX, .sleep { wX with a := 0xFF, imm := 5 }] = true
    ∧ good controlRow wJoin [.join] = true := by
  decide +kernel

/-- A gang in a handler at user or supervisor level. -/
def wFrame (sup : Bool) : Frame :=
  { sup, rpc := 0x200008, active := 0xFFFF, slices := 15, vliw := false, s61 := 0, s62 := 0, loops := [], cause := 0,
    resumable := true, depths := [] }
def wHandler (sup : Bool) : State := wGang { frames := [wFrame sup] }

theorem test_system_completes : good systemRow wState
    [.pgrant wX, .prels wX, .pgate wX, .trap wX, .brk wX, .probe wX, .sread { wX with d := 2, imm := 0x18 },
     .swrite { wX with imm := 0x13 }] = true
    ∧ good systemRow (wHandler false) [.hret { wX with a := 0xFF }] = true
    ∧ good systemRow (wHandler true) [.docinv { wX with a := 0xC5, b := 0xC5 }] = true := by
  decide +kernel

/-- A VLIW thread, with a loop open. -/
def wVliw (ls : List LoopLevel) : State :=
  { wGang { vliw := true, loops := ls } with cores := [(0, { wCore with
      blocks := [(0, { wBlock with gangs := [(0, { vliw := true, loops := ls })] })], qmask := 1 })] }

/-- An instruction alone in a bundle completes in `s`, and its word decodes to it. -/
def soloOk (i : Instr) (s : State) : Bool :=
  i.wf && (slotRow i).any fun (m, fn, r) => r.ok s && (match encodeNative i with
    | [w] => wordMaj w == m && (bits 6 w 48).toNat == fn && (match decodeNative [w] with | .ok (j, []) => j == i | _ => false)
    | _ => false)

theorem test_bundles_complete :
    (Instr.bundle soloHeader [0x1000000000000000]).wf = true ∧ (bundleRow soloHeader [0x1000000000000000]).ok (wVliw []) = true
    ∧ soloOk (.xmov { wX with d := 2, a := 4 }) (wVliw []) = true ∧ soloOk (.modeSimt wB) (wVliw []) = true
    ∧ soloOk (.loop { wB with a := 0xC4 }) (wVliw []) = true
    ∧ soloOk (.lend wX) (wVliw [{ start := 0x200000, stop := 0x200100, count := 3 }]) = true := by
  decide +kernel

theorem test_undecoded_words_trap : (undefinedRow 0xFFFFFFFFFFFFFFFF).ok wState = true
    ∧ fetchFaultRow.ok (wBlk fun b => { b with slices := b.slices.map fun x => { x with pc := 0x300000 } }) = true := by
  decide +kernel

/-! ## Exdin's instructions and the harts' -/

/-- Declarations and homes: x0, x1 lane registers, x2 a predicate, x3, x4 handles in s-registers, x5 a uniform address, x6 a
fragment, x7 a spilled register, x8 an FP32 lane register, x9 a pair, x10 an E4M3 one. -/
def wInfo : ExInfo :=
  { nreg := 0
    decls := [0x02, 0x02, 0x48, 0x8A, 0x8A, 0x23, 0x72, 0x02, 0x12, 0x03, 0x13]
    map := [10, 11, 0x20000001, 0x10000001, 0x10000002, 0x10000000, 0x30000000, 0x40000000, 12, 14, 16] }

def wCracked : State := wGrid' fun g => { g with exdin := some wInfo }

def wE (ops : List ExOp) (ty : Ty := .i32) (xm : BitVec 11 := 0) : ExForm :=
  { ty, rm := .ne, sat := false, guard := none, xm, ops }

def x (n : Nat) : ExOp := .reg (BitVec.ofNat 12 n)

/-- Two sources of a type: x1 and five. -/
def wE2 (t : Ty := .i32) : ExForm := wE [x 0, x 1, .imm 5] t
def wF (n : Nat) : ExForm := wE (List.replicate n (x 8)) .f32

theorem test_exdin_integer_lanes_complete : good exLaneTable wCracked
    [.exAdd wE2, .exSub wE2, .exMul wE2, .exMad (wE [x 0, x 1, .imm 5, x 0]), .exDiv wE2, .exRem wE2, .exMin wE2, .exMax wE2,
     .exAnd (wE2 .b32), .exOr (wE2 .b32), .exXor (wE2 .b32), .exShl (wE2 .b32), .exShr (wE2 .b32), .exBitc (wE [x 0, x 1] .b32),
     .exBfx wE2, .exBfi (wE [x 0, x 1, .imm 5, x 0] .b32), .exCmp (wE [x 2, x 1, .imm 5])] = true := by
  decide +kernel

theorem test_exdin_float_lanes_complete : good exLaneTable wCracked
    [.exFadd (wF 3), .exFsub (wF 3), .exFmul (wF 3), .exFfma (wF 4), .exFmin (wF 3), .exFmax (wF 3), .exFdiv (wF 3), .exFsqrt (wF 2),
     .exFcmp (wE [x 2, x 8, x 8] .f32), .exFunc (wF 2), .exCvt (wE [x 8, x 0] .f32 2), .exQuant (wE [x 10, x 8, x 1] .e4m3),
     .exBscale (wE [x 0, x 8] .e4m3)] = true := by
  decide +kernel

theorem test_exdin_moves_complete : good exMoveTable wCracked
    [.exNop (wE [] .i8), .exMov (wE [x 0, x 1] .b32), .exSel (wE [x 0, x 2, x 0, x 1] .b32), .exShfl (wE [x 0, x 1, .imm 1] .b32),
     .exBcast (wE [x 0, x 1, .imm 1] .b32), .exVote (wE [x 2, x 2] .i8), .exXred (wE [x 0, x 1]), .exXscan (wE [x 7, x 1]),
     .exSreg (wE [x 0] .b32)] = true := by
  decide +kernel

theorem test_exdin_memory_completes : good exMemTable wCracked
    [.exLd (wE [x 0, x 5, .imm 4]), .exSt (wE [x 5, .imm 4, x 0]), .exLds (wE [x 0, x 1, .imm 4]), .exSts (wE [x 1, .imm 4, x 0]),
     .exAtom (wE [x 0, x 5, x 1, x 1]), .exFence (wE [] .i8 2)] = true := by
  decide +kernel

/-- A gang whose lease has just been granted. -/
def wFresh : State :=
  { wCracked with clusters := [(0, { wCluster with lease := some { core := 0, blk := 0, cls := 0, cmds := 1, cyc := 4096, fresh := some 0 } })] }

theorem test_exdin_engines_complete : good exEngineTable wCracked
    [.exTalloc (wE [x 3, .imm 1, .imm 3] .i8), .exTseal (wE [x 3] .i8), .exTld (wE [x 0, x 4, .imm 8]), .exTst (wE [x 3, .imm 8, x 0]),
     .exTdrop (wE [x 4, .imm 1] .i8), .exQpost (wE [x 4] .i8), .exQtake (wE [x 3, .imm 1] .i8),
     .exCopy (wE [x 5, x 5, .imm 16, .imm 1, .imm 0, .imm 0] .i8), .exAcc (wE [x 6, .imm 0, .imm 1] .i8 0),
     .exAcc (wE [x 6, x 0, .imm 0, .imm 1] .i32 1), .exAcc (wE [x 6, .imm 0, .imm 1, x 0] .i32 2)] = true := by
  decide +kernel

theorem test_exdin_array_completes : good exEngineTable wFresh
    [.exWload (wE [.imm 0, .imm 0, .imm 0, .imm 0] .i8 0x40), .exMm (wE [x 6, x 5, .imm 1, .imm 0, .imm 0, .imm 0] .i8)] = true := by
  decide +kernel

/-- Inside an `if` or a `loop`. -/
def wRegion (loop : Bool) : State :=
  { wCracked with cores := [(0, { wCore with blocks := [(0, { wBlock with
      slices := wBlock.slices.map fun x =>
        { x with stack := [.join 0x200100 15 0], ex := [{ loop, depth := 0, slices := 15, start := 0x200000, remain := 0 }] } })] })] }

theorem test_exdin_control_completes : good exControlTable wCracked
    [.exIf (wE [x 2, .target 4, .target 8] .i8), .exLoop (wE [.imm 3, .target 8] .i8), .exBar, .exExit (wE [] .i8)] = true
    ∧ good exControlTable (wRegion false) [.exElse, .exEndif] = true
    ∧ good exControlTable (wRegion true) [.exEndloop, .exBrk (wE [x 2] .i8)] = true := by
  decide +kernel

/-- A running loader: x5 to x8 an address of data, one, a tile's handle and three. -/
def wLoader : Hart :=
  { run := true, grid := 0, ctx := 1, x := [(5, 0x300000), (6, 1), (7, 0x1000001), (8, 3)], pc := 0x100, store := List.replicate 1024 0 }

/-- A copy of sixteen bytes from 0x300000 to 0x300040 in a control block at 0x300000. -/
def wCcb : List Byte :=
  leBytes 0x300000 8 ++ leBytes 0x300040 8 ++ leBytes 0 10 ++ leBytes 16 2 ++ leBytes 1 2 ++ leBytes 1 2 ++ leBytes 1 2

def wHart (f : Hart → Hart) : State :=
  { wState with cores := [(0, { wCore with loader := f wLoader })], cur := .hart 0 false, mem := wMem.writeAll 0x60000 wCcb }

/-- An `ADDI`, and the six extension instructions. -/
theorem test_harts_complete : good hartTable (wHart id)
    [.hartBaseInstruction 0x00628393, .hcpy ⟨9, 5, 0⟩, .hwait ⟨9, 8, 0⟩, .halloc ⟨9, 6, 8⟩, .hpost ⟨9, 7, 0⟩, .hsig ⟨9, 0, 5⟩,
     .hsleep ⟨9, 6, 0⟩] = true := by
  decide +kernel

/-! ## Events -/

/-- Whether an event's row says that it takes place in `s` with arguments. -/
def goodAt (t : Instr → Option Row) (l : List (Instr × State × List Nat × List Byte)) : Bool :=
  l.all fun e => (t e.1).any fun r => r.ok (wArgs e.2.1 e.2.2.1 e.2.2.2)

/-- A copy of sixteen bytes, in flight. -/
def wCopy : CopyOp :=
  { id := 3, n := [16, 1, 1, 1], ss := [0, 0, 0], ds := [0, 0, 0], src := { sp := 0, base := 0x60000 }, dst := { sp := 0, base := 0x60100 },
    dbase := 0x300100, con := false, post := none, bar := none, mail := none, total := 16, pc := 0x200000, slices := 15, ctx := 1, grid := 0,
    moved := false }

def wWload : WLoad :=
  { core := 0, blk := 0, ctx := 1, grid := 0, src := { sp := 1, base := 0 }, fmt := .i8, sparse := false, cstride := 0, doff := 0, soff := 0,
    ioff := 0, sstride := 0, istride := 0, consume := false }

def wStream : StreamOp :=
  { core := 0, blk := 0, tile := 0, src := { sp := 1, base := 0 }, afmt := .i8, rows := 1, row0 := 0, aoff := 0, astride := 0, soff := 0,
    sstride := 0, acc := false, mword := 0, consume := false, plane := wCluster.active }

def wLoad : PendLoad := { id := 4, blk := 0, lane := 2, sreg := false, reg := 5, w := .b32, val := 77, pc := 0x200000, va := 0x300000 }

def wStore (id : Nat) : BufStore := { id, blk := 0, thr := 1, runs := [(⟨0, 0, 0x60010 + id⟩, [id])], weak := false, rel := false }

def wGather : GatherOp :=
  { id := 6, blk := 0, scat := false, size := 4, elems := [{ lane := 1, va := 0x300000, glob := ⟨0, 0, 0x60000⟩, scr := [(⟨2, 0, 0⟩, 4)] }],
    bar := 0, pc := 0x200000, slices := 15 }

def wBusy : State := wCore' fun c =>
  { c with
    blocks := [(0, { wBlock with cq := { ops := [wCopy] } })]
    loads := [wLoad], sbuf := [wStore 7, wStore 8], gathers := [wGather], arriving := [{ words := [(0, 9)], ctx := 1 }], popsInFlight := 1 }

theorem test_engine_events_complete : goodAt engineEvents
    [(.copyCompletion, wBusy, [0, 2, 0], []),
     (.gatherElement, wBusy, [0, 6, 1, 0], []),
     (.weightLoadCompletion, wClus fun q => { q with wloads := [wWload] }, [0], []),
     (.streamCompletion, wClus fun q => { q with streams := [wStream] }, [0], []),
     (.loadReturn, wBusy, [0, 4, 0], []),
     (.storeDrain, wBusy, [0, 7], []),
     (.stampedWriteApply, wSys fun y =>
        { y with stamped := [{ id := 2, src := 0, thr := (0, 0, 0), stamp := [1], loc := ⟨0, 0, 0x60000⟩, bytes := [5] }] }, [2, 13], []),
     (.spillwayPushArrival, wBusy, [0], []),
     (.spillwayPopArrival, wBusy, [0], [])] = true := by
  decide +kernel

/-- The mailbox's deliveries. -/
def wMail : State := wSys fun y =>
  { y with mbx := y.mbx.set 5 { ring := 0x300000, depth := 3, opn := true, owner := 1, valid := true, handler := 0x300080, slots := [2] },
           deliveries := [{ mbx := 5, kind := 1, payload := [1, 2], ctx := 1, src := .grid 0 }] }
def wQueue : State := { tState with sys := { wState.sys with queues := [(3, { base := 0x300000, en := true, ctx := 1, szl := 4, tail := 2, head := 1 })] } }
/-- A grid all of whose blocks have ended. -/
def wOver : State := { wState with cores := [(0, { wCore with blocks := [] })], grids := [(0, { wGrid with ended := [0] })] }

theorem test_mail_events_complete : goodAt mailEvents
    [(.mailboxDelivery, { wMail with mem := tMem }, [5], []),
     (.qtail, wQueue, [3, 3], []),
     (.qctl, wQueue, [4, 2 ^ 63 + 2 ^ 44], []),
     (.gridCompletion, wOver, [0], [])] = true := by
  decide +kernel

/-- A packet of `n` blocks of sixteen lanes with sixteen registers, HEATV set and no heat. -/
def wPkt (n : Nat) : Packet :=
  { gx := BitVec.ofNat 32 n, spw := 0x0200000000000000, lctl := 0x10404080, res := 0x0080000000000000 }

/-- Every cluster but the first holds another grid's scratch. -/
def wFull : List (Nat × Cluster) := (List.range 23).map fun i => (i + 1, { csuGrid := some (9, 0) })

/-- A started grid that has `n` blocks still to place, on a module whose cluster 0 is empty. -/
def wPlace (n : Nat) (own : List (Nat × Nat)) : State :=
  { wState with
    cores := [], clusters := (0, {}) :: wFull, grids := [(0, { ctx := 1, segs := wSegs, started := true, pkt := wPkt n, owner := own })]
    sys := { st := .locked } }

/-- A saved block of grid 0. -/
def wSavedBlk : SavedBlock :=
  { blk := { wBlock with n := 16, nbr := 1, scrLen := 0, zpb := 0 }, core := 0, scratch := [], acc := [], bars := [{}], csu := [], area := [], clus := 0, task := none,
    savedAt := 0, by_ := none, eligible := true, stopped := false, watchdog := false, codeGone := false }
def wSaved (f : SavedBlock → SavedBlock) : State :=
  { wPlace 1 [] with ctxs := [(1, { wCtx with saved := [f wSavedBlk] })], grids := [(0, { ctx := 1, segs := wSegs, started := true, pkt := wPkt 1, placed := [0] })],
                     sys := { st := .locked, time := 3000000 } }

/-- Two blocks of a core; the second waits for its next phase. -/
def wTasks : State := { wCore' fun c => { c with
    spw := 0x0400000000000000
    blocks := [(0, { wBlock with n := 16 }), (4, { wBlock with idx := 1, n := 16, phys := [4, 5, 6, 7], gangs := [], phaseRec := some { lanes := [], s := [], pc := 0x200000, live := [15, 15, 15, 15] } })]
    tasks := [.phase 4 1] } with
  grids := [(0, { wGrid with pkt := { wPkt 2 with lctl := 0x0800000010404080, res := 0x0080000040000000 }, placed := [0, 1] })], sys := { time := 1000000 } }
def wPreload : State := { wTasks with cores := wTasks.cores.map fun e => (e.1, { e.2 with preload := true }) }

/-- A lower-priority block of another context stands where a grid could be placed. -/
def wPre : State :=
  { wPlace 1 [] with
    cores := [(0, { wCore with blocks := [(0, { wBlock with ctx := 2, grid := 1 })], inbound := [], flumes := [] })]
    clusters := (0, { cpw := 1 }) :: wFull
    ctxs := [(1, { wCtx with prio := 1 }), (2, wCtx)]
    grids := [(0, { ctx := 1, prio := 1, segs := wSegs, started := true, pkt := wPkt 1 }), (1, { ctx := 2, segs := wSegs, started := true, pkt := {wPkt 1 with cpw := 1}, placed := [0] })]
    sys := { st := .locked, time := 100000 } }

def wWait (d : Option Nat) : State :=
  { wGang { wait := .waitc 0 0x300000 4 0 false 0, dues := d.toList.map fun t => (0x200000, 16, t) } with sys := { time := 1000000000 } }
theorem test_placement_completes : goodAt placeEvents
    [(.unitPlacement, wPlace 1 [], [0, 0], []),
     (.stealRequest, wPlace 2 [(0, 0), (1, 0)], [1], []),
     (.blockEnd, wBlk fun b => { b with slices := b.slices.map fun x => { x with live := 0 } }, [0, 0], []),
     (.blockResume, wSaved id, [1, 0], []),
     (.preemptForPriority, wPre, [0], []),
     (.starvationResume, wSaved id, [1], [])] = true := by
  decide +kernel

theorem test_tasks_and_waits_complete : goodAt placeEvents
    [(.phaseTaskStart, wTasks, [0], []),
     (.taskPreload, wTasks, [0], []),
     (.taskBudgetExpiry, wPreload, [0], []),
     (.monitorReexamine, wWait none, [0, 0, 0], []),
     (.monitorPoll, wWait none, [0, 0, 0], []),
     (.waitcTimeout, wWait (some 5), [0, 0, 0], []),
     (.deadlockWatchdog, wWait none, [1], [])] = true := by
  decide +kernel

theorem test_handler_launches : (handlerDoes (wArgs { wMail with mem := tMem } [5])).isSome = true := by
  have h : (wArgs { wMail with mem := tMem } [5]).ctx? 1 = some wCtx := by decide +kernel
  have g := tSegs_at (wArgs { wMail with mem := tMem } [5]) rfl
  have m : (wArgs { wMail with mem := tMem } [5]).sys.mbx.get? ((wArgs { wMail with mem := tMem } [5]).arg 0) = some 
    { ring := 0x300000, depth := 3, opn := true, owner := 1, valid := true, handler := 0x300080, slots := [2] } := by decide +kernel
  simp only [handlerDoes, m, h, viaCtx, g]
  cases e : State.devBytes (wArgs { wMail with mem := tMem } [5]) { segs := tSegs } wCtx 0x300080 128 with
  | none => exact absurd e (by decide +kernel)
  | some raw =>
    simp only [onlyIf]
    rw [if_pos (by decide +kernel)]; rfl

theorem test_packet_read : (packetDoes (wArgs wQueue [3])).isSome = true := by
  have h : (wArgs wQueue [3]).ctx? ((wArgs wQueue [3]).sys.queue ((wArgs wQueue [3]).arg 0)).ctx = some wCtx := by decide +kernel
  have g := tSegs_at (wArgs wQueue [3]) rfl
  simp only [packetDoes, h, viaCtx, g]
  cases e : State.devBytes (wArgs wQueue [3]) { segs := tSegs } wCtx (((wArgs wQueue [3]).sys.queue ((wArgs wQueue [3]).arg 0)).base +
    BitVec.ofNat 64 (128 * (((wArgs wQueue [3]).sys.queue ((wArgs wQueue [3]).arg 0)).head.toNat % 2 ^ ((wArgs wQueue [3]).sys.queue ((wArgs wQueue [3]).arg 0)).szl))) 128 with
  | none => exact absurd e (by decide +kernel)
  | some raw =>
    simp only [onlyIf]
    rw [if_pos (by decide +kernel)]; rfl

def wReq : AllocReq := { hart := false, core := 0, key := 0, gang := 0, copy := false, size := 1, count := 1, ker := false, dst := 0xC5, slot := none }
def wAsk (stall : Nat) : State :=
  { wGang { wait := .talloc } with clusters := [(0, { wCluster with parts := [{ wPart with reqs := [wReq], stall }] })] }
def wLeaseAsk : State := { wGang { wait := .mlease } with clusters := [(0, { wCluster with lease := none, reqs := [{ core := 0, blk := 0, gang := 0, cls := 0, cmds := 4, cyc := 4096 }] })] }
def wPowerAsk : State := { wGang { wait := .pgrant } with clusters := [(0, { wCluster with preqs := [(0, 0, 0, 1)] })] }
theorem test_grant_events_complete : goodAt grantEvents
    [(.sleepDeadline, { wGang { wait := .sleep 5 true } with sys := { time := 6 } }, [0, 0, 0], []), (.tileGrant, wAsk 0, [0, 0], []),
  (.poolStall, wAsk (2 ^ 22), [0, 0], []), (.tileDrain, wClus fun q => { q with parts := [{ wPart with tiles := [(1, wTile .draining 1)] }] }, [0, 0, 1], []),
  (.leaseGrant, wLeaseAsk, [0], []), (.leaseExpiry, wClus fun q => { q with lease := some { core := 0, blk := 0, cls := 0, cmds := 0, cyc := 9 } }, [0], []),
  (.powerGrant, wPowerAsk, [0], []), (.powerWindow, wState, [0, 0, 2000], []), (.powerBudget, wState, [1000], []), (.docinvCompletion, wGang { wait := .docinv 0x200000 64 false }, [0, 0, 0], [])] = true := by
  decide +kernel

/-- A core that has a request of its context to acknowledge, and a tagged instruction. -/
def wOwed : State :=
  { wCore' fun c => { c with samples := [{ ctx := 1, blk := 0, pc := 0x200000, bx := 0, byy := 0, bz := 0, phasecnt := 0, vliw := false, exdin := false, time := 1 }] } with
    ctxs := [(1, { wCtx with dbg := 4, invs := [{ num := 1, soft := true, start := 0x300000, len := 4096, since := 0, owed := [0], quiet := [] }] })]
    sys := { time := 200000 } }
/-- A move of the data page of segment 2, and the page held. -/
def wMove : State := { tState with sys := { wState.sys with
    moves := [{ ctx := 1, seg := 2, page := 0, oldFrame := 0x60000, newFrame := 0x70000, copied := false, inv := none, toHost := false, migr := false }]
    pins := [(1, 2, 0, 10)], time := 20 } }
def wPend : Pend := { cause := 9, pc := 0x200000, addr := 0, lanes := 3, slices := 15 }
def wHot (t : Nat) : State := wSys fun y => { y with vaults := [(0, { reading := t * 1024 })] }
theorem test_heat_events_complete : goodAt heatEvents
    [(.vaultSensorReading, wState, List.replicate 256 60000, []), (.clockChange, wState, [0, 12, 2], []),
  (.hotPageMigration, wHot 102, [0], []), 
  (.coreAcknowledge, wOwed, [1, 0], []), (.invalidationWatchdog, wOwed, [1, 0], []), (.agentCounterWriteback, wState, [1], []), (.rillAppend, wState, [0, 7], []),
  (.instructionSample, wOwed, [0, 1, 2, 3, 4, 5, 1], []), (.impreciseTrapDelivery, wGang { pend := [wPend] }, [0, 0, 0], [])] = true := by
  decide +kernel

theorem test_module_events_complete : goodAt moduleEvents
    [(.patrolScrub, wState, [1, 0, 0], []), (.flitRetry, wState, [0, 0], []), (.creditReturn, wState, [0, 1], []), (.peerWriteArrival, wState, [0, 0x60000], [1, 2, 3, 4]),
   (.peerReadArrival, wState, [0, 0x60000, 0, 1, 2, 0, 5, 0], []), (.hostAccess, wState, [0, 0, 0x60000, 1], [1, 2]), (.checkpoint, { wState with cores := [], ctxs := [(1, { wCtx with ckT := 1 })] }, [1, 0], []),
   (.replay, wSys fun y => { y with replay := some (1, []) }, [1], []), (.fatalError, wState, [], []), (.forcedUnload, wState, [0x200000, 64, 1], []), (.moduleReset, wState, [0], [])] = true := by
  decide +kernel

/-- Whichever vaults lie over the cluster. -/
theorem test_throttle_step : (throttleDoes (wArgs wState [0, 0])).isSome = true := by
  have q : ((wArgs wState [0, 0]).cluster ((wArgs wState [0, 0]).arg 0)).throttle = [] := by decide +kernel
  simp only [throttleDoes, q]
  split
  · rfl
  · split
    · rfl
    · simp

theorem walk_congr (s t : State) (l : List Trans) (segs : List Seg) (p : W64) (n : Nat) (va : W64) (h : s.mem = t.mem) :
    walk s l segs p n va = walk t l segs p n va := by
  have w : ∀ a, s.pteAt l a = t.pteAt l a := fun a => by rw [State.pteAt, State.pteAt, State.word, State.word, h]
  induction n generalizing va with
  | zero => rfl
  | succ n ih => simp only [walk, ih, w]

/-- The data page, page 0 of segment 2. -/
theorem tPage (s : State) (h : s.mem = tMem) : s.pageOf wCtx 2 0 =
    some ({ base := 0x300000, limit := 0x10000, ptab := 0x130008, attr := 0x40000000000D }, 0x300000, 0x40008, 0x60001) := by
  have w : walk s = walk { mem := tMem } := by funext l a b c d; exact walk_congr s _ l a b c d h
  unfold State.pageOf
  rw [tSegs_at s h, w]
  decide +kernel

theorem test_page_moves :
    (moveDoes (wArgs wMove [0])).isSome = true ∧ (holdDoes (wArgs wMove [1, 2, 0])).isSome = true
    ∧ (quantumDoes (wArgs tState [1, 2, 0, 1, 0])).isSome = true := by
  refine ⟨?_, ?_, ?_⟩
  · have h : (wArgs wMove [0]).ctx? 1 = some wCtx := by decide +kernel
    have m : (wArgs wMove [0]).sys.moves[(wArgs wMove [0]).arg 0]? = some
      { ctx := 1, seg := 2, page := 0, oldFrame := 0x60000, newFrame := 0x70000, copied := false, inv := none, toHost := false,
        migr := false } := by decide +kernel
    simp only [moveDoes, m, h, Option.bind_some, tPage (wArgs wMove [0]) rfl, Option.map_some]
    decide +kernel
  · have h : (wArgs wMove [1, 2, 0]).ctx? ((wArgs wMove [1, 2, 0]).arg 0) = some wCtx := by decide +kernel
    have e : (wArgs wMove [1, 2, 0]).pageOf wCtx ((wArgs wMove [1, 2, 0]).arg 1) ((wArgs wMove [1, 2, 0]).arg 2) = _ :=
      tPage (wArgs wMove [1, 2, 0]) rfl
    simp only [holdDoes, h, Option.bind_some, e]
    decide +kernel
  · have h : (wArgs tState [1, 2, 0, 1, 0]).ctx? ((wArgs tState [1, 2, 0, 1, 0]).arg 0) = some wCtx := by decide +kernel
    have e : (wArgs tState [1, 2, 0, 1, 0]).pageOf wCtx ((wArgs tState [1, 2, 0, 1, 0]).arg 1) ((wArgs tState [1, 2, 0, 1, 0]).arg 2) = _ :=
      tPage (wArgs tState [1, 2, 0, 1, 0]) rfl
    simp only [quantumDoes, h, e]
    decide +kernel

/-- A host command of `ws` as its argument words, before Rhavos in a state of the module. -/
def wCmd (s : State) (st : ModSt) (opc : Nat) (ws : List Nat) : State :=
  { s with sys := { s.sys with st, rh := { len := BitVec.ofNat 32 (8 * ws.length), seq := 4, opc := BitVec.ofNat 16 opc, busy := true,
                                           args := Mem.writeAll [] 0 (ws.flatMap fun w => leBytes w 8) } } }
/-- The same of a locked module whose features are all given. -/
def wHost (opc : Nat) (ws : List Nat) : State := wCmd (wSys fun y => { y with lockedFeat := some Config.offered }) .locked opc ws

theorem test_commands_complete : goodAt commandEvents
    [(.registerWrite, wState, [0x2100, 7], []), (.invgo, wState, [], []),
   (.featget, wHost 1 [], [], []), (.featset, wCmd wState .ready 2 [1, 0, 0, 0], [], []), (.ctxnew, wHost 3 [7, 1, 0x100000, 0x40000, 0, 0, 1, 0, 0, 0], [], []),
   (.ctxend, wCmd { wCore' (fun c => { c with inbound := [] }) with sys := { lockedFeat := some Config.offered } } .locked 4 [1], [], []), (.mbxreg, wHost 5 [9, 0x300000, 3, 1, 0, 1], [], []), (.mbxunreg, wHost 6 [9], [], []), (.codesync, wHost 7 [1], [], [])] = true := by
  decide +kernel

theorem test_further_commands_complete : goodAt commandEvents
    [(.attest, wHost 8 [1, 2, 3, 4], [], []), (.dbgctl, wHost 9 [1, 1, 0x300000, 4096], [], []), (.stop, wHost 10 [1, 0, 0, 0], [], []),
   (.ckpt, wHost 12 [1, 5, 0, 0], [], []), (.imgwrite, wCmd wState .recovery 13 [0, 77], [], []), (.reset, wHost 14 [], [], []), (.dumpbase, wHost 15 [0, 0], [], []),
   (.coupling, wHost 16 [0, 64], [], []), (.unknownCommand, wHost 17 [], [], []),
   (.resume, wCmd (wSaved fun v => { v with stopped := true }) .locked 11 [1, 0, 0, 0], [], [])] = true := by
  decide +kernel
/-- An interrupt message of another kind stands oldest in mailbox 0. -/
def wService : State := { wState with mem := wMem.writeAll 0x800C0 (leBytes (16 + 256 * 2 + 65536) 8), sys := { mbx := [(0, { ring := 0x80000, tail := 1, depth := 8, opn := true, valid := true })] } }
theorem test_service_message : goodAt commandEvents [(.serviceMailboxMessage, wService, [], [])] = true := by
  decide +kernel

/-! ## Results at the edges of their rules, and what the statements about them assume -/

/-- The first lanes hold `(A, B)` in registers 4 and 6. -/
def wVals (l : List (W32 × W32)) : State :=
  wBlk fun b => { b with lanes := l.map (fun e => { v := [(4, e.1), (6, e.2)] }) ++ List.replicate (16 - l.length) {} }

/-- A register of the first `n` lanes after an instruction. -/
def outs (i : Instr) (s : State) (n : Nat) (r : Nat := 2) : List Nat :=
  match exec i s with
  | .next t => match t.block? 0 0 with | some b => (List.range n).map fun j => ((b.lane j).reg r).toNat | none => []
  | _ => []

/-- A predicate of the first `n` lanes after an instruction, and the lanes' flags. -/
def predOuts (i : Instr) (s : State) (n : Nat) (p : Nat := 2) : List (Bool × Nat) :=
  match exec i s with
  | .next t => match t.block? 0 0 with | some b => (List.range n).map fun j => ((b.lane j).pred p, (b.lane j).fp.toNat) | none => []
  | _ => []

/-- R137: under SAT the sum stays at the greatest value, and without it wraps. -/
theorem test_add_saturates :
    outs (.iadd { w2 with sat := true }) (wVals [(0x7FFFFFFF, 1), (0x80000000, 0xFFFFFFFF)]) 2 = [0x7FFFFFFF, 0x80000000]
    ∧ outs (.iadd w2) (wVals [(0x7FFFFFFF, 1), (0x80000000, 0xFFFFFFFF)]) 2 = [0x80000000, 0x7FFFFFFF] := by decide +kernel

/-- R138: (-2^31)^2 / 2^32 and -1 * 1 / 2^32, rounded down. -/
theorem test_mulh : outs (.imulh w2) (wVals [(0x80000000, 0x80000000), (0xFFFFFFFF, 1)]) 2 = [0x40000000, 0xFFFFFFFF] := by
  decide +kernel

/-- R139: 7 / 0, the lowest value by -1, -7 / 2 and 7 / -2. -/
theorem test_division :
    outs (.idiv w2) (wVals [(7, 0), (0x80000000, 0xFFFFFFFF), (0xFFFFFFF9, 2), (7, 0xFFFFFFFE)]) 4
      = [0xFFFFFFFF, 0x80000000, 0xFFFFFFFD, 0xFFFFFFFD]
    ∧ outs (.irem w2) (wVals [(7, 0), (0x80000000, 0xFFFFFFFF), (0xFFFFFFF9, 2), (7, 0xFFFFFFFE)]) 4 = [7, 0, 0xFFFFFFFF, 1]
    ∧ outs (.idiv { w2 with sat := true }) (wVals [(0x80000000, 0xFFFFFFFF)]) 1 = [0x7FFFFFFF] := by decide +kernel

/-- R144: counts of 0, 31, 32, 255 and 256, whose low byte is zero. -/
theorem test_shifts :
    outs (.shl (w2 .b32)) (wVals [(3, 0), (3, 31), (3, 32), (3, 255), (3, 256)]) 5 = [3, 0x80000000, 0, 0, 3]
    ∧ outs (.shr (w2 .b32)) (wVals [(0xC0000000, 31), (0xC0000000, 32)]) 2 = [1, 0]
    ∧ outs (.sar (w2 .b32)) (wVals [(0xC0000000, 30), (0xC0000000, 32), (0x40000000, 255)]) 3 = [0xFFFFFFFF, 0xFFFFFFFF, 0]
    ∧ outs (.rot (w2 .b32)) (wVals [(0x80000001, 1), (0x80000001, 32), (0x80000001, 31)]) 3 = [3, 0x80000001, 0xC0000000] := by
  decide +kernel

/-- R145: a field of no bits, one cut off at the top, and one from beyond the word. -/
theorem test_bit_fields :
    outs (.bfx w2) (wVals [(0xF0F0F0F0, 0x0404), (0xF0F0F0F0, 0x0004), (0xF0F0F0F0, 0x081C), (0xF0F0F0F0, 0x0828)]) 4
      = [0xFFFFFFFF, 0, 0xFFFFFFFF, 0]
    ∧ outs (.bfi (w3 .b32)) (wVals [(0xFFFFFFFF, 0x0404), (0xFFFFFFFF, 0x081C), (0xFFFFFFFF, 0x0828)]) 3 = [0xF0, 0xF0000000, 0] := by
  decide +kernel

/-- R143's counts of a word without a set bit, and of one. -/
theorem test_counts :
    outs (.popc (w1 .b32)) (wVals [(0, 0), (0x80000001, 0)]) 2 = [0, 2] ∧ outs (.clz (w1 .b32)) (wVals [(0, 0), (0x40000000, 0)]) 2 = [32, 1]
    ∧ outs (.ctz (w1 .b32)) (wVals [(0, 0), (0x40000000, 0)]) 2 = [32, 30]
    ∧ outs (.andn (w2 .b32)) (wVals [(0xFF, 0x0F)]) 1 = [0xF0] := by decide +kernel

/-- R141's signed less-than, R140's carry, and R153: numbers, zeros of either sign, a quiet and a signalling NaN. -/
theorem test_predicates :
    predOuts (.icmp { w2 with xm := 2 }) (wVals [(0xFFFFFFFF, 0), (0, 0), (0, 0xFFFFFFFF)]) 3 = [(true, 0), (false, 0), (false, 0)]
    ∧ predOuts (.iaddc { w2 .n32 with xm := 2, c := 8 }) (wVals [(0xFFFFFFFF, 1), (0xFFFFFFFF, 0)]) 2 = [(true, 0), (false, 0)]
    ∧ predOuts (.fcmp { w2 .f32 with xm := 3 }) (wVals [(0x3F800000, 0x40000000), (0, 0x80000000), (0x7FC00000, 0), (0x7F800001, 0)]) 4
      = [(true, 0), (true, 0), (false, 0), (false, 1)]
    ∧ predOuts (.fcmp { w2 .f32 with xm := 6 }) (wVals [(0x7FC00000, 0), (0, 0)]) 2 = [(true, 0), (false, 0)] := by decide +kernel

/-- R150: a sign-extended index of three bytes' power. -/
theorem test_lea : outs (.lea { w2 with xm := 3 }) (wVals [(0x1000, 0xFFFFFFFF)]) 1 = [0xFF8]
    ∧ outs (.lea { w2 with xm := 3 }) (wVals [(0x1000, 0xFFFFFFFF)]) 1 3 = [0] := by decide +kernel

/-- A result statement's premises hold for a form in a state. -/
def rOk (i : Instr) (f : RForm) (wd wa wb wc : Nat) (s : State) : Bool :=
  i.wf && match unitOf s (rLen f) with
    | some v => !v.gang.vliw && ready (v.guarded f.g) [(f.d, wd), (f.a, wa), (f.b, if f.lx.isSome then 0 else wb), (f.c, wc)]
    | none => false

theorem rReady_of_rOk {i : Instr} {f : RForm} {wd wa wb wc : Nat} {s : State} (h : rOk i f wd wa wb wc s = true) :
    i.wf = true ∧ ∃ u, rReady f wd wa wb wc s u := by
  simp only [rOk, Bool.and_eq_true] at h
  obtain ⟨h1, h2⟩ := h
  split at h2
  · next v e =>
    simp only [Bool.and_eq_true, Bool.not_eq_true'] at h2
    exact ⟨h1, _, v, e, h2.1, rfl, h2.2⟩
  · exact absurd h2 (by decide)

/-- Forms of every result statement, `s63` and a long immediate among them. -/
theorem test_result_premises :
    (([(.iadd w2, w2, 32, 32, 32, 0), (.isub { w2 .n64 with d := 0xFF }, { w2 .n64 with d := 0xFF }, 64, 64, 64, 0),
       (.imad w3, w3, 32, 32, 32, 32), (.ineg w1, w1, 32, 32, 0, 0), (.imulh w2, w2, 32, 32, 32, 0), (.idiv w2, w2, 32, 32, 32, 0),
       (.irem { w1 with lx := some 5 }, { w1 with lx := some 5 }, 32, 32, 32, 0), (.shl (w2 .b64), w2 .b64, 64, 64, 32, 0),
       (.bfx w2, w2, 32, 32, 32, 0), (.bfi (w3 .b32), w3 .b32, 32, 32, 32, 32), (.andR (w2 .b32), w2 .b32, 32, 32, 32, 0),
       (.popc (w1 .b64), w1 .b64, 32, 64, 0, 0), (.mov (w1 .b64), w1 .b64, 64, 64, 0, 0), (.lea w2, w2, 64, 64, 32, 0),
       (.iaddc (w2 .n32), w2 .n32, 32, 32, 32, 0), (.icmp w2, w2, 0, 32, 32, 0), (.pset (w1 .i8), w1 .i8, 0, 0, 0, 0),
       (.pmov { wR with ty := .i8 }, { wR with ty := .i8 }, 32, 0, 0, 0),
       (.pmov { w1 .i8 with d := 0, xm := 1 }, { w1 .i8 with d := 0, xm := 1 }, 0, 32, 0, 0), (.fcmp (w2 .f32), w2 .f32, 0, 32, 32, 0)] :
        List (Instr × RForm × Nat × Nat × Nat × Nat)).all
      fun e => rOk e.1 e.2.1 e.2.2.1 e.2.2.2.1 e.2.2.2.2.1 e.2.2.2.2.2 wState) = true := by decide +kernel

/-! ## What the statements about memory, frames and exceptions assume -/

/-- An agent's counters are at hand. -/
def counts (s : State) (x a : Nat) : Bool :=
  (s.ctx? x).all fun c => (c.agents.get? a).isSome || !s.saveBroken c (0x9000 + 64 * a) 64

theorem countable_of {s : State} {x a : Nat} (h : counts s x a = true) : countable s x a := by
  intro c hc
  simp only [counts, hc, Option.all_some, Bool.or_eq_true, Bool.not_eq_true'] at h
  exact h

/-- No load of a core is still to be bound, and no stamped write is in flight. -/
def calm (s : State) (c : Nat) : Bool := ((s.core c).loads.all fun p => !p.late) && s.sys.stamped == []

/-- The store and load forms in each space, plain and weak, into a lane register and into an s-register. -/
theorem test_access_premises :
    ((storeRow .global 64 wM).ok wState && (storeRow .scratch 32 { wMs with ord := .weak }).ok wState
      && (storeRow .clus 32 { wMs with w := .n8 }).ok wState && (loadRow .global 64 { wM with d := 0xC5, w := .b64 }).ok wState
      && (loadRow .scratch 32 { wMs with w := .i8, view := true }).ok wState && (loadRow .clus 32 { wMs with ord := .weak }).ok wState
      && calm wState 0 && (unitOf wState 8).any fun v => counts wState v.blk.ctx v.blk.agent.toNat) = true := by decide +kernel

/-- R183, R344: on a core of die 1, stores bound to bytes of its own die, of another die, and of the pool. -/
theorem test_store_drain_premises :
    ([(⟨0, 0, 0x1000⟩, true, true), (⟨0, 0, 0x60000⟩, true, false), (⟨2, 48, 0⟩, false, false)] : List (Loc × Bool × Bool)).all (fun e =>
      let s := wArgs { wState with cores := [(48, { wCore with sbuf := [{ wStore 7 with runs := [(e.1, [7])] }] })] } [48, 7]
      ((s.core (s.arg 0)).sbuf.find? (fun x => x.id == s.arg 1) == some { wStore 7 with runs := [(e.1, [7])] })
        && !(s.core (s.arg 0)).sbuf.any (fun x => x.before { wStore 7 with runs := [(e.1, [7])] })
        && calm s 48 && ((s.block? (s.arg 0) 0).any fun x => counts s x.ctx (wStore 7).agent)
        && crosses (dieOf (s.arg 0)) e.1 0 == (e.2.1 && !e.2.2)) = true := by decide +kernel

/-- R180, R183: a load into a lane register, and one into an s-register, whose gang holds slices 0 and 2. -/
theorem test_load_return_premises :
    ([wLoad, { wLoad with sreg := true, reg := 6, lane := 0, slices := 5 }] : List PendLoad).all (fun p =>
      let s := wArgs (wCore' fun c => { c with loads := [p] }) [0, 4, 0]
      (s.core (s.arg 0)).loads.find? (fun q => q.id == s.arg 1) == some p && s.arg 2 == 0 && calm s 0
        && (s.block? (s.arg 0) p.blk).any fun x => decide (p.lane < x.lanes.length)) = true := by decide +kernel

/-- R194: one lane alone, and sixteen, with an empty store buffer. -/
theorem test_atomic_premises :
    let f : XForm := { wX with d := 2, a := 0xFF, imm := 0x0400 }
    let one := wBlk fun b => { b with slices := b.slices.zipIdx.map fun e => { e.1 with active := if e.2 = 0 then 1 else 0 } }
    ([(wState, 16), (one, 1)] : List (State × Nat)).all (fun e =>
      (atomRowOn .scratch false false f .i64 .plain).ok e.1 && (e.1.core 0).sbuf == [] && calm e.1 0
        && (unitOf e.1 8).any fun v => (v.guarded f.g).part.length == e.2) = true
    ∧ atomTy (f.fld 3 9) = some .i64 ∧ Ord.ofCode (bits 3 f.imm 6) = some .plain := by decide +kernel

/-- R175, R176: an odd address, of each form. -/
theorem test_misaligned_premises :
    ([(.ld { wM with off := 1 }, { wM with off := 1 }, 64), (.st { wM with off := 1 }, { wM with off := 1 }, 64),
      (.lds { wMs with off := 2 }, { wMs with off := 2 }, 32), (.sts { wMs with off := 2 }, { wMs with off := 2 }, 32),
      (.ldk { wMs with off := 3 }, { wMs with off := 3 }, 32), (.stk { wMs with off := 3 }, { wMs with off := 3 }, 32)] :
      List (Instr × MForm × Nat)).all (fun e => (unitOf wState 8).any fun v =>
        let u := v.guarded e.2.1.g
        !v.gang.vliw && ready u [(e.2.1.d, dataW e.2.1.w), (e.2.1.a, e.2.2), (e.2.1.x, 32)]
          && !(u.part.filter fun j => decide (u.ea e.2.1 e.2.2 j % (e.2.1.w.size : Int) ≠ 0)).isEmpty) = true := by decide +kernel

theorem test_quiet_premises : good quietRow wState
    [.ld wM, .st wM, .lds wMs, .sts wMs, .ldk wMs, .stk wMs, .ldc wM, .pref { wM with w := .n8, d := 0 }, .tquery { wX with d := 2, a := 0xC2 },
     .qcnt { wX with d := 2 }, .cpyq { wX with d := 2 }, .mmeta { wX with a := 0xC0 }, .mshape { wX with a := 0xC4 }, .rconv wB, .yield wX,
     .prels wX, .sread { wX with d := 2, imm := 0x18 }, .swrite { wX with imm := 0x13 }, .shfla wX] = true := by decide +kernel

theorem test_plain_premises : good plainRow wState
    [.st wM, .scat { wM with d := 0xC5, x := 4 }, .fence { wX with imm := 0xA000 }, .tseal { wX with a := 0xC1 }, .qpost { wX with a := 0xC2 },
     .mzero { wX with imm := 0x0020 }, .cpyw wX, .bar { wX with d := 1 }, .bra wB, .brx { wX with a := 0xFF }, .pgrant wX, .probe wX] = true
    := by decide +kernel

/-- `s63`, and `p7` as every predicate that an instruction names (R11, R14). -/
theorem test_hard_wired_premises :
    goodLane intLane wState [.iadd { w2 with d := 0xFF }, .icmp { w2 with d := 7 }, .pset { w1 .i8 with d := 7 }, .iaddc { w2 .n32 with xm := 7 }]
      = true
    ∧ goodLane fpLane wState [.fadd { w2 .f32 with d := 0xFF }, .fcmp { w2 .f32 with d := 7 }] = true
    ∧ predsOf (.iaddc { w2 .n32 with xm := 7 }) = [7] ∧ predsOf (.fcmp { w2 .f32 with d := 7 }) = [7] := by decide +kernel

/-- Exdin destinations in a lane register, an s-register, a predicate and a spilled place. -/
theorem test_exdin_frame_premises :
    good exLaneTable wCracked [.exAdd wE2, .exCmp (wE [x 2, x 1, .imm 5]), .exAdd (wE [x 7, x 1, .imm 5])] = true
    ∧ good exMoveTable wCracked [.exMov (wE [x 5, x 5] .b64), .exNop (wE [] .i8)] = true
    ∧ ((crackedUnit wCracked (.exAdd wE2)).any fun c => [c.field 0, c.field 5, c.field 2, c.field 7] == [some 10, some 0xC0, none, none]) = true
    := by decide +kernel

/-- `ADDI x7, x5, 6`, `ADD x7, x5, x6` and `LUI x7, 0x12345`, and `LUI x0`. -/
theorem test_hart_integer_premises :
    ([0x00628393, 0x006283B3, 0x123453B7, 0x12345037] : List W32).all (fun w =>
      (hartIf (hartLen w) (hartBase w)).ok (wHart id) && (hartOf (wHart id) 4).isSome
        && [0x13, 0x1B, 0x17, 0x33, 0x37, 0x3B].contains (bits 7 w 0).toNat) = true := by decide +kernel

/-- Causes with a handler: the user one, the supervisor's for a user gang and for a handler at user level; and a VLIW thread. -/
def wTraps (uh sup : W64) (g : Gang) : State :=
  { wState with
    cores := [(0, { wCore with blocks := [(0, { wBlock with gangs := [(0, g)] })] })]
    ctxs := [(1, { wCtx with sup })], grids := [(0, { wGrid with uh })] }

def entryOk (s : State) (t : TrapReq) : Bool :=
  let r := (t.pre.andThen (beforeVector 0 0 0)).run s
  (r.block? 0 0).any fun x => (x.gangs.get? 0).any fun y => (r.grid? x.grid).any fun grid => (r.ctx? x.ctx).any fun ctx =>
    let sup := supCause t.cause || grid.uh == 0 || !y.frames.isEmpty
    (y.frames.head?.all fun f => !f.sup) && (!sup || ctx.sup != 0) && !r.saveBroken ctx (faultArea 0) 0x4000
      && x.members 0 != [] && decide (y.loops.length ≤ 8)

theorem test_trap_entry_premises :
    (entryOk (wTraps 0x200100 0 {}) { cause := 2, recs := [{ cause := 2, lanes := [3] }] }
      && entryOk (wTraps 0 0x200200 {}) { cause := 2, recs := [{ cause := 2, lanes := [3] }] }
      && entryOk (wTraps 0x200100 0x200200 { frames := [wFrame false] }) { cause := 2, recs := [{ cause := 2, lanes := [] }] }
      && entryOk (wTraps 0x200100 0x200200 { vliw := true, loops := List.replicate 8 { start := 0x200000, stop := 0x200100, count := 3 } }) { cause := 4, recs := [{ cause := 4, lanes := [0] }, { cause := 6, lanes := [4] }] }) = true
    := by decide +kernel

/-- A cause inside a supervisor handler, one at supervisor level without a handler there (R387), and one whose fault area's page
is not PRESENT (R449). -/
theorem test_no_handler_premises :
    ([wTraps 0x200100 0x200200 { frames := [wFrame true] }, wTraps 0 0 {},
      { wTraps 0x200100 0x200200 {} with mem := [] }] : List State).all (fun s =>
      let t : TrapReq := { cause := 2, recs := [{ cause := 2, lanes := [3] }] }
      let r := (t.pre.andThen (beforeVector 0 0 0)).run s
      (r.block? 0 0).any fun x => (x.gangs.get? 0).any fun y => (r.grid? x.grid).any fun grid => (r.ctx? x.ctx).any fun ctx =>
        x.members 0 != [] && (r.grids.any fun e => e.2.ctx == x.ctx && !e.2.done) && (y.frames.head?.any (·.sup) || ((supCause t.cause || grid.uh == 0 || !y.frames.isEmpty) && ctx.sup == 0)
          || r.saveBroken ctx (faultArea 0) 0x4000)) = true := by decide +kernel

/-- User level, `%agent`'s selector, a register in range and ready, and a context without the bit of bring-up. -/
theorem test_privilege_premises :
    ((unitOf wState 8).any fun v => v.user && !v.gang.vliw && v.gang.frames == [] && ready (v.guarded wX.g) [(0xC0, 64)] && takes (v.guarded wX.g)) = true
    ∧ ((unitOf (wCtx' fun c => { c with feat := [0, 0, 0, 0] }) 8).any fun v => v.user && !v.feat 3 0 && v.regOk 0xC4 32
      && ready (v.guarded wX.g) [(0xC4, 32)]) = true
    ∧ ({ wX with imm := 0x19 } : XForm).fld 8 0 = 0x19 := by decide +kernel

/-- Each engine form with PB = 0, and with SW = 1 and a block, at user level without the bit of bring-up. -/
theorem test_engine_privilege_premises :
    let s := wCtx' fun c => { c with feat := [0, 0, 0, 0] }
    let sw : XForm := { wX with imm := 0xC000 }
    let blk : ParamBlock := ⟨0, 0, 0, 0⟩
    ([none, some blk] : List (Option ParamBlock)).all (fun b => (unitOf s (blkLen b)).any fun v =>
      let u := v.guarded wX.g
      v.user && !v.gang.vliw && !v.feat 3 0 && u.blkFeats b && !u.mailBad b && decide (wX.d.toNat < v.blk.zpb)
        && decide (wX.fld 3 9 < (u.parts s).length) && ready u ((wX.a, 64) :: (wX.b, 64) :: (wX.c, 64) :: (wX.d, 64) :: blkRegs b)) = true
    ∧ sw.fld 1 14 = 1 := by decide +kernel

/-- R390: a user handler's return, a supervisor's, one from a cause that is not resumable, and a thread's to a bundle's header. -/
theorem test_hret_premises :
    ([wHandler false, wHandler true, wGang { frames := [{ wFrame true with resumable := false }] },
      { wGang { frames := [{ wFrame false with vliw := true }] } with mem := wMem.writeAll 0x60000 (leBytes soloHeader.toNat 8) }]
      : List State).all (fun s =>
    (hretRow { wX with a := 0xC0 }).ok s && (unitOf s 8).any fun v =>
      let u := v.guarded wX.g
      (hretReady u s { wX with a := 0xC0 }).isSome && decide (u.g < u.blk.nextGang) && (u.core.loads.all fun p => p.blk != u.b)
        && u.blk.pend == [] && u.core.sbuf == [] && u.blk.gangs.all fun e => e.2.pend == []) = true := by
  decide +kernel

/-- R331 by hand: unit 129 has h = 1, so its vault is 1 xor 1 = 0 at 4 KiB; the last byte of memory is the last of its vault. -/
theorem test_vault_map : vaultOf 0 = 0 ∧ vaultOf 0x1000 = 1 ∧ vaultOf 0x81005 = 0 ∧ vaultOff 0x81005 = 0x1005 ∧ homeDie 0x81005 / 2 = 0
    ∧ vaultOf (2 ^ 39 - 1) = 0 ∧ vaultOff (2 ^ 39 - 1) = 2 ^ 32 - 1 ∧ vaultOf 0x7F000 = 127 ∧ homeDie 0x7F000 / 2 = 7 := by decide +kernel

/-! ## Steps, words and well-formedness -/

/-- The premises of the statement about a gang's issue, at the word that stands where the gang fetches. -/
def issueOk (s : State) (i : Instr) : Bool :=
  match s.agenda with
  | .issue (.gang c b g) :: rest =>
    let r := { s with agenda := rest, cur := .gang c b g }
    match unitOf r 0 with
    | none => false
    | some u =>
      let n := u.fetchCount (u.head r)
      let bytes := u.fetchBytes r u.inExdin u.pc (u.headBytes * n)
      State.turnOf { s with agenda := rest } (.gang c b g) == .gang c b g && s.sys.st != .fatal && !u.blk.halt
        && !u.core.gated && u.blk.regrant == none && !u.gang.skip && !u.gang.wait.held
        && (match u.gang.wait with | .qpoint _ => false | _ => true) && u.gang.pend == []
        && (u.blk.grant.isNone || decide (u.blk.excess < 4)) && (u.fetchBad r u.headBytes 1).isNone && (u.fetchBad r u.headBytes n).isNone
        && i != .fetchFault
        && (if u.inExdin then match decodeExdin (splitHalves (leNat bytes) n) with | .ok (j, _) => j == i | _ => false
            else if u.gang.vliw then match splitWords (leNat bytes) n with | hdr :: ws => wordMaj hdr == 0x3C && i == .bundle hdr ws | _ => false
            else match decodeNative (splitWords (leNat bytes) n) with | .ok (j, _) => j == i | _ => false)
  | _ => false

theorem test_issue_premises :
    (issueOk (State.reset.withFetchWord 64 0x0100010101400200) (.iadd { w2 with g := ⟨2, false⟩, d := 4, a := 4, b := 5 })
      && issueOk (State.reset.withFetchWord 64 0xF000040000000000) (.bundle 0xF000040000000000 [0])
      && issueOk (State.reset.withFetchWord 32 0x04260000) (.exAdd (wE [x 0, x 0, x 0]))) = true := by decide +kernel

/-- A hart at a word of four bytes, and at one of two. -/
theorem test_hart_issue_premises :
    ([(State.reset.withFetchWord 32 0x0000000B, 3), ({ wHart id with agenda := [.issue (.hart 0 false)] }, 0)] : List (State × Nat)).all (fun e =>
      let s := e.1
      match s.agenda with
      | .issue (.hart c st) :: rest => (hartOf { s with agenda := rest, cur := .hart c st } 0).any fun a =>
          s.sys.st != .fatal && (bits 2 (a.h.store.getD a.h.pc.toNat 0) 0).toNat == e.2 && decide (a.h.pc.toNat + 4 ≤ 65536)
      | _ => false) = true := by decide +kernel

theorem test_event_premises : Instr.isEvent .qtail = true ∧ Instr.isEvent .phase = false
    ∧ ({ wState with agenda := [.event .qtail {}, .event .phase {}] } : State).agenda = [.event .qtail {}, .event .phase {}] := by
  refine ⟨rfl, rfl, rfl⟩

/-- A step of a state whose stores are canonical answers a next state. -/
theorem test_step_premises :
    (let s := State.reset.withFetchWord 64 0x0100010101400200
     s.mem.wf && s.ext.wf && (s.cores.all fun e => e.2.pool.wf) && (s.clusters.all fun e => e.2.csu.wf && e.2.cist.wf)
       && (match step s with | .next _ => true | _ => false)) = true := by decide +kernel

theorem test_round_trip_premises :
    (Instr.iadd w2).wf = true ∧ encodeNative (.iadd w2) ≠ [] ∧ (Instr.movl { wR with ty := .b64, lx := some 7 }).wf = true
    ∧ (Instr.exAdd wE2).wf = true ∧ encodeExdin (.exAdd wE2) ≠ [] ∧ (Instr.hcpy ⟨1, 2, 3⟩).wf = true ∧ encodeHart (.hcpy ⟨1, 2, 3⟩) ≠ []
    ∧ (Instr.bundle 0xF000040000000000 [0xBB85C50000000007]).wf = true := by decide +kernel

theorem test_native_word_premise : decodeNative [0x0100010101400200, 5] =
    .ok (.iadd { w2 with g := ⟨2, false⟩, d := 4, a := 4, b := 5 }, [5]) := by rfl

theorem test_bundle_word_premise : decodeBundle [0xF000040000000000, 0xBB85C50000000007, 1] =
    .ok (.bundle 0xF000040000000000 [0xBB85C50000000007], [1]) := by rfl

/-- The edges of the reserved and illegal majors. -/
theorem test_reserved_premises : wordMaj 0xC000000000000000 = 0x30 ∧ wordMaj 0xDFFFFFFFFFFFFFFF = 0x37 ∧ wordMaj 0xF800000000000000 = 0x3E
    ∧ wordMaj 0xF000000000000000 = 0x3C ∧ wordMaj 0xF400000000000000 = 0x3D ∧ wordMaj 0xFC00000000000000 = 0x3F
    ∧ wordMaj 0x1400000000000000 = 0x05 ∧ wordMaj 0xB400000000000000 = 0x2D ∧ wordMaj 0xEC00000000000000 = 0x3B := by decide +kernel

/-- Each check of a word refuses a term that fails it alone: a type that the instruction has not, an odd pair, an operand that is
not used, a rounding mode, SAT, XM, a long immediate, a shift count, a predicate's index, a scope of a plain access, a signed store,
an s-register where one is needed, a parameter block without PB, a substitution's reserved bits, a guard on a barrier, a count of no
columns, a selector, a bundle's count, and Exdin's types, operands, XM and guard. -/
theorem test_wellformed_refuses : ([
    .iadd { w2 with ty := .b32 }, .iadd { w2 .i64 with d := 3 }, .iadd { w2 with c := 1 }, .fadd { w2 .f32 with rm := .sr },
    .imulh { w2 with sat := true }, .icmp { w2 with xm := 6 }, .ineg { w1 with lx := some 1 }, .movl { wR with ty := .b64 },
    .shlImm32 { wI with imm := 32 }, .iaddImm32 { wI with ik := 3 }, .movi32 wI, .faddImm wI, .pset { w1 .i8 with d := 8 },
    .cvt { w1 .f32 with c := 0x91 }, .cvt { w1 .f32 with c := 0x90, rm := .sr }, .unpack { w1 .f32 with c := 0x90, xm := 1 },
    .redl { w1 .b32 with xm := 0 }, .vote { wR with ty := .i8, d := 8 }, .ld { wM with scp := .dev }, .ld { wM with ord := .rel },
    .st { wM with w := .i8 }, .ld { wM with view := true }, .gath { wM with d := 0xFF }, .pref { wM with w := .n8, d := 3 },
    .atom { wX with a := 0xC0, imm := 0x0C00 }, .red { wX with a := 0xC0, imm := 0x6A00 }, .fence { wX with imm := 0x2000 },
    .shflx { wX with imm := 0xA000 }, .tseal wX, .qpost { wX with d := 32, a := 0xC0 }, .qtake { wX with d := 0xC0 },
    .mloadw { wX with a := 0xC0 } (some wBlk0), .mloadw { wX with a := 0xC0, imm := 0x8000 } (some ⟨0x8040, 0, 0, 0⟩),
    .mzero wX, .mlease wX, .mshape { wX with d := 4 }, .mread { wX with b := 0xC0, imm := 0x0600 },
    .cpy { wX with a := 0xC0, b := 0xFF, imm := 0x8000 } (some wBlk0), .mbsend { wX with a := 0xC0, b := 0xC0 },
    .bar { wX with g := ⟨0, false⟩ }, .waitc { wX with a := 0xC0, b := 0xC0, c := 0xC0, imm := 0xC000 }, .call { wB with a := 0xFF },
    .sread { wX with imm := 0x07 }, .xmov { wX with a := 0xC0 }, .bundle 0xF000040000000000 [], .bundle 0 [],
    .hartBaseInstruction 0x0000000B, .exAdd (wE2 .f32), .exAdd (wE [x 0, x 1]), .exAdd (wE [.imm 1, x 1, x 1]), .exShr { wE2 .b32 with xm := 2 },
    .exAdd { wE2 with guard := some (.imm 1, false) }, .exIf { wE [x 2, .target 4, .target 8] .i8 with guard := some (x 2, false) },
    .exCvt (wE [x 8, x 0] .f32 0x1F), .exFence (wE [] .i8 0), .exAcc (wE [x 6, .imm 0, .imm 1] .i8 3)] : List Instr).all
      (fun i => !i.wf) = true := by decide +kernel

/-! ## Words written out from the tables of R76 and R95 -/

/-- A native word decodes to an instruction. -/
def reads (w : W64) (i : Instr) : Bool := match decodeNative [w] with | .ok (j, []) => j == i | _ => false

theorem test_words_tiles_and_arrays :
    reads 0x838100C100000000 (.tseal { wX with a := 0xC1 }) = true ∧ reads 0x8781C60300000001 (.qtake { wX with d := 0xC6, a := 3, imm := 1 }) = true
    ∧ reads 0x9385030000001080 (.mzero { wX with d := 3, imm := 0x1080 }) = true ∧ reads 0xA381000000000004 (.cpyw { wX with imm := 4 }) = true
    ∧ reads 0xAB8000C5C0000008 (.mbsend { wX with a := 0xC5, b := 0xC0, imm := 8 }) = true := by decide +kernel

theorem test_words_sync_and_system :
    reads 0xB380050000000000 (.bar { wX with d := 5 }) = true ∧ reads 0xE380000000000002 (.pgrant { wX with imm := 2 }) = true
    ∧ reads 0xE78100C000000000 (.hret { wX with a := 0xC0 }) = true ∧ reads 0xEB80020000000018 (.sread { wX with d := 2, imm := 0x18 }) = true
    ∧ reads 0xEB81000400000013 (.swrite { wX with a := 4, imm := 0x13 }) = true
    ∧ reads 0x6B8002C004000400 (.atom { wX with d := 2, a := 0xC0, b := 4, imm := 0x400 }) = true
    ∧ reads 0xBF82000000000000 (.exit wX) = true ∧ reads 0xBB81C50000000010 (.call { wB with a := 0xC5, off := 16 }) = true := by decide +kernel

/-! ## Single steps -/

/-- The gang's state after an instruction: each slice's PC and active lanes. -/
def after (i : Instr) (s : State) : List (Nat × Nat) :=
  match exec i s with
  | .next t => match t.block? 0 0 with | some b => b.slices.map fun x => (x.pc.toNat, x.active.toNat) | none => []
  | _ => []

/-- R13, R243: a lane whose guard fails keeps its register. -/
theorem test_guard : outs (.iadd { w2 with g := ⟨2, false⟩ }) (wVals [(1, 2)]) 1 = [0]
    ∧ outs (.iadd { w2 with g := ⟨2, true⟩ }) (wVals [(1, 2)]) 1 = [3] := by decide +kernel

/-- R11: `s63` discards, and the PC goes on by eight. -/
theorem test_s63 : outs (.iadd { w2 with d := 0xFF }) (wVals [(1, 2)]) 1 = [0]
    ∧ after (.iadd { w2 with d := 0xFF }) (wVals [(1, 2)]) = List.replicate 4 (0x200008, 15) := by decide +kernel

/-- R169: lane `l` reads lane `l` xor 1. -/
theorem test_shuffle : outs (.shflx { wX with d := 2, a := 4, imm := 0x4001 }) (wVals [(10, 0), (11, 0), (12, 0), (13, 0)]) 4 = [11, 10, 13, 12] := by
  decide +kernel

/-- R171: the sum of all lanes, in each. -/
theorem test_reduce : outs (.redl w1) (wVals [(10, 0), (11, 0), (12, 0), (13, 0)]) 2 = [46, 46] := by decide +kernel

/-- R246: a taken branch, eight words on (R241). -/
theorem test_branch : after (.bra wB) wState = List.replicate 4 (0x200040, 15) := by decide +kernel

/-- R249: lanes that exit leave, and the rest go on. -/
theorem test_exit : after (.exit { wX with g := ⟨2, true⟩ }) wState = after (.exit wX) wState
    ∧ after (.exit { wX with g := ⟨2, false⟩ }) wState = List.replicate 4 (0x200008, 15) := by decide +kernel

/-- R194: sixteen lanes add one each to one word of scratchpad. -/
theorem test_atomic : (match exec (.atoms { wX with d := 2, a := 0xFF, b := 0xC4, imm := 0x0400 }) wState with
    | .next t => (t.readBytes ⟨2, 0, 196608⟩ 8, (t.core 0).loads.map fun p => p.val.toNat)
    | _ => ([], [])) = ([16, 0, 0, 0, 0, 0, 0, 0], List.range 16) := by decide +kernel

/-- The PCs of the block's slices and the frames of its gang after a step. -/
def vectored (o : Host.Outcome State Fault Refusal) : List Nat × List (Bool × Nat × Nat) :=
  match o with
  | .next t =>
    match t.block? 0 0 with
    | some b => (b.slices.map fun (x : Slice) => x.pc.toNat,
        ((b.gangs.get? 0).getD {}).frames.map fun (f : Frame) => (f.sup, f.rpc.toNat, f.cause.toNat))
    | none => ([], [])
  | _ => ([], [])

/-- R385, R388: `TRAP` goes to the supervisor's handler, after the instruction; an all-ones word, which is ILLEGAL, to the user's, at
the word. -/
theorem test_vectoring :
    vectored (exec (.trap { wX with imm := 7 }) (wTraps 0x200100 0x200200 {})) = (List.replicate 4 0x200200, [(true, 0x200008, 0)])
    ∧ vectored (exec (.undefinedWord 0xFFFFFFFFFFFFFFFF) (wTraps 0x200100 0x200200 {})) = (List.replicate 4 0x200100, [(false, 0x200000, 1)])
    := by decide +kernel

/-- R390: a handler's return to `s0`. -/
theorem test_hret : vectored (exec (.hret { wX with a := 0xC0 }) (wHandler false)) = (List.replicate 4 0x300000, [])
    ∧ after (.hret { wX with a := 0xC0 }) (wHandler true) = List.replicate 4 (0x300000, 15) := by decide +kernel

end Sys2Proof.Tests

end
end

