-- ==== Sys2Proof/Proofs/Reset.lean ====
section
/-! PROOFS. The registers after reset (R4, R350, R413, R416, R422): what each region of BAR0 reads when the part of the module that
stands behind it is at its reset value. -/

namespace Sys2Proof.Proofs.Reset

open Sys2Proof.Machine

/-! ## BAR0 by its regions -/

/-- R350: the launch queues. -/
theorem register_eq_zero_of_queue_eq {y : Sys} {off : Nat} (hoff : off < 0x2000) (hq : y.queue (off / 32) = {}) :
    y.register off = 0 := by
  simp only [Sys.register, if_pos hoff, hq]
  split <;> rfl

/-- R413: the command registers, below the argument area. -/
theorem register_eq_zero_of_rh_eq {y : Sys} {off : Nat} (hlo : 0x2000 ≤ off) (hhi : off < 0x2100) (hrh : y.rh = {}) :
    y.register off = 0 := by
  have hqueues : ¬ off < 0x2000 := by omega
  have hargs : ¬ (0x2100 ≤ off ∧ off < 0x3000) := by omega
  have hmodule : off ≠ 0x3000 ∧ off ≠ 0x3008 ∧ off ≠ 0x3010 ∧ off ≠ 0x3018 ∧ off ≠ 0x3020 := by omega
  have herrors : ¬ (0x3040 ≤ off ∧ off < 0x3078) := by omega
  simp [Sys.register, hqueues, hargs, hmodule, herrors, hrh]

/-- R416: STATE, BOOTS and the invalidation registers; R422: the error counters. -/
theorem register_eq_zero_of_module_zero {y : Sys} {off : Nat} (hoff : 0x3000 ≤ off) (hst : y.st = .boot) (hboots : y.boots = 0)
    (hctx : y.invCtx = 0) (hstart : y.invStart = 0) (hlen : y.invLen = 0) (herr : ∀ i, y.errors.getD i 0 = 0) :
    y.register off = 0 := by
  have hqueues : ¬ off < 0x2000 := by omega
  have hcommand : off ≠ 0x2000 ∧ off ≠ 0x2008 := by omega
  have hargs : ¬ (0x2100 ≤ off ∧ off < 0x3000) := by omega
  simp [Sys.register, hqueues, hcommand, hargs, hst, ModSt.code, hboots, hctx, hstart, hlen, herr, -List.getD_eq_getElem?_getD]

/-! ## The state after reset -/

/-- No queue is listed at reset, so each stands at its reset value. -/
theorem queue_reset (i : Nat) : State.reset.sys.queue i = {} := rfl

theorem errors_reset : State.reset.sys.errors = List.replicate 7 0 := rfl

theorem errors_reset_getElem? {i : Nat} (hi : i < 7) : State.reset.sys.errors[i]? = some 0 := by
  rw [errors_reset, List.getElem?_replicate_of_lt hi]

theorem errors_reset_getD (i : Nat) : State.reset.sys.errors.getD i 0 = 0 := by
  rw [errors_reset, List.getD_eq_getElem?_getD, List.getElem?_getD_replicate_default_eq]

/-- Every offset outside the argument area reads zero at reset. -/
theorem register_reset {off : Nat} (hoff : off < 0x2100 ∨ 0x3000 ≤ off) : State.reset.sys.register off = 0 := by
  rcases hoff with hlow | hmodule
  · rcases Nat.lt_or_ge off 0x2000 with hqueues | hcommand
    · exact register_eq_zero_of_queue_eq hqueues (queue_reset _)
    · exact register_eq_zero_of_rh_eq hcommand hlow rfl
  · exact register_eq_zero_of_module_zero hmodule rfl rfl rfl rfl rfl errors_reset_getD

/-- No core is listed at reset, so no block is resident. -/
theorem block?_reset (c b : Nat) : State.reset.block? c b = none := rfl

/-- Settles O10: the named fields are the state's own reset values, and what the host reads is zero region by region of BAR0. -/
theorem resetRegisters : Obligations.ResetRegisters := by
  unfold Obligations.ResetRegisters
  exact ⟨rfl, rfl, rfl, rfl, fun i _ => by simp [queue_reset i], rfl, rfl, rfl, rfl, rfl, rfl, rfl, fun _ => errors_reset_getElem?,
    fun _ => register_reset, rfl, rfl, rfl, block?_reset⟩

end Sys2Proof.Proofs.Reset
end

