-- ==== Sys2Proof/Proofs/MachineState.lean ====
section
/-! PROOFS. Lane instructions, the return of a load, and privilege: the 88 lane instructions share one meaning and one program of
effects, so that their completion and their frame are proved once and hold of each by its place in the table; a load's return is two
effects on its core; a privileged instruction at user level is a trap's entry and no more. -/

namespace Sys2Proof.Proofs.MachineState

open Sys2Proof.Machine Sys2Proof.Claims

/-! ## The meaning of a lane instruction (R129 to R133) -/

/-- The instruction is issued with the length and guard of `l`, and where the condition of `l` holds it means its lane operation. -/
def MeansLane (i : Instr) (l : LaneOp) : Prop :=
  ∃ sem : Sem, (∀ s, exec i s = runSimt l.len l.g sem s)
    ∧ ∀ u s, l.cond u = true → sem u s = laneSem l.o l.d l.a l.b l.c l.imm u s

theorem meansLane_r {i : Instr} {f : RForm} {o : AluOp} (h : ∀ s, exec i s = runR f (semR f o) s) : MeansLane i (rLane f o) :=
  ⟨semR f o, h, fun _ _ _ => rfl⟩

theorem meansLane_i {i : Instr} {f : IForm} {o : AluOp} (h : ∀ s, exec i s = runI f (semI f o) s) : MeansLane i (iLane f o) :=
  ⟨semI f o, h, fun _ _ _ => rfl⟩

theorem meansLane_movi {i : Instr} {f : IForm} {w : Nat} (h : ∀ s, exec i s = runI f (semMovi f w) s) :
    MeansLane i (moviLane f w) :=
  ⟨semMovi f w, h, fun _ _ _ => rfl⟩

theorem meansLane_fimm {i : Instr} {f : IForm} {o : AluOp}
    (h : ∀ s, exec i s = runI f (laneSem o f.d f.a 0 0 (some (f.imm.setWidth 64))) s) : MeansLane i (fimmLane f o) :=
  ⟨_, h, fun _ _ _ => rfl⟩

/-- The feature bit that E2M1 values need is the operation's condition, so the check of it passes (R328). -/
theorem meansLane_e2 {i : Instr} {f : RForm} {b : Bool} {o : AluOp}
    (h : ∀ s, exec i s = runR f (needE2m1 b (semR f o)) s) : MeansLane i (e2Lane f b o) := by
  refine ⟨needE2m1 b (semR f o), h, fun u s hcond => ?_⟩
  have hfeat : (b && !u.feat 0 featE2m1) = false := by
    rw [← Bool.not_eq_true', Bool.not_and, Bool.not_not]
    exact hcond
  simp only [needE2m1, hfeat, Bool.false_eq_true, ↓reduceIte]
  rfl

/-! ## The predicates that each operation writes (R140, R141, R148, R149, R153), and its flags -/

/-- An operation that writes no predicate. -/
theorem preds_of_nil {o : AluOp} {ps : List Nat} (h : ∀ x, (o.fn x).preds = []) (x : In) : ∀ q ∈ (o.fn x).preds, q.1 ∈ ps := by
  simp [h x]

/-- An operation that writes one predicate. -/
theorem preds_of_single {o : AluOp} {p : Nat} (h : ∀ x, ∃ v, (o.fn x).preds = [(p, v)]) (x : In) :
    ∀ q ∈ (o.fn x).preds, q.1 ∈ [p] := by
  obtain ⟨v, hv⟩ := h x
  simp [hv]

/-- R149: both directions of `PMOV`. -/
theorem pmov_preds (f : RForm) (x : In) :
    ∀ q ∈ ((if f.xm == 0 then opPget else opPput).fn x).preds, q.1 ∈ predsOf (.pmov f) := by
  cases hxm : f.xm == 0
  · simp only [predsOf, hxm, Bool.false_eq_true, ↓reduceIte, opPput]
    intro q hq
    obtain ⟨i, hi, rfl⟩ := List.mem_map.mp hq
    have : i < 7 := List.mem_range.mp hi
    simp only [List.mem_cons, List.not_mem_nil, or_false]
    omega
  · simp [opPget]

theorem dot4_preds (t : Ty) (m : Rnd) (sat : Bool) (x : In) : ((opDot4 t m sat).fn x).preds = [] := by
  simp only [opDot4]; split <;> rfl

theorem cvti_preds (dst src : Ty) (m : Rnd) (sat : Bool) (x : In) : ((opCvti dst src m sat).fn x).preds = [] := by
  simp only [opCvti]; split <;> rfl

theorem pmov_flags (f : RForm) (x : In) : ((if f.xm == 0 then opPget else opPput).fn x).flags = 0 := by
  split <;> rfl

/-! ## The 88 lane instructions -/

/-- The instruction means the lane operation `l`, which writes no predicate but those that the instruction names. -/
structure IsLane (i : Instr) (l : LaneOp) : Prop where
  means : MeansLane i l
  preds : ∀ x, ∀ q ∈ (l.o.fn x).preds, q.1 ∈ predsOf i

/-- R136 to R150: each instruction of the integer families, by its format and the predicates it writes; none raises a flag. -/
theorem isLane_of_intLane {i : Instr} {l : LaneOp} (h : intLane i = some l) : IsLane i l ∧ ∀ x, (l.o.fn x).flags = 0 := by
  cases i
  case iaddImm32 | imulImm32 | andImm32 | orImm32 | xorImm32 | shlImm32 | shrImm32 | sarImm32 | rotImm32
      | iaddImm64 | imulImm64 | andImm64 | orImm64 | xorImm64 | shlImm64 | shrImm64 | sarImm64 | rotImm64 =>
    cases h; exact ⟨⟨meansLane_i fun _ => rfl, preds_of_nil fun _ => rfl⟩, fun _ => rfl⟩
  case movi32 | movi64 =>
    cases h; exact ⟨⟨meansLane_movi fun _ => rfl, preds_of_nil fun _ => rfl⟩, fun _ => rfl⟩
  case iaddc | icmp | pset =>
    cases h; exact ⟨⟨meansLane_r fun _ => rfl, preds_of_single fun _ => ⟨_, rfl⟩⟩, fun _ => rfl⟩
  case pmov f =>
    cases h; exact ⟨⟨meansLane_r fun _ => rfl, pmov_preds f⟩, pmov_flags f⟩
  case iadd | isub | imul | imulh | imad | idiv | irem | ineg | iabs | imin | imax
      | andR | orR | xorR | andn | notR | shl | shr | sar | rot | bfx | bfi | popc | clz | ctz | brev
      | nop | mov | movl | sel | lea =>
    cases h; exact ⟨⟨meansLane_r fun _ => rfl, preds_of_nil fun _ => rfl⟩, fun _ => rfl⟩
  all_goals cases h

/-- R151 to R167: each floating-point, packed, conversion or narrow-format instruction, in the same way. -/
theorem isLane_of_fpLane {i : Instr} {l : LaneOp} (h : fpLane i = some l) : IsLane i l := by
  cases i
  case faddImm | fmulImm | fminImm | fmaxImm =>
    cases h; exact ⟨meansLane_fimm fun _ => rfl, preds_of_nil fun _ => rfl⟩
  case cvt | pack | unpack | scaleq | bscale =>
    cases h; exact ⟨meansLane_e2 fun _ => rfl, preds_of_nil fun _ => rfl⟩
  case fcmp =>
    cases h; exact ⟨meansLane_r fun _ => rfl, preds_of_single fun _ => ⟨_, rfl⟩⟩
  case dot4 f =>
    cases h; exact ⟨meansLane_r fun _ => rfl, preds_of_nil (dot4_preds f.ty f.rm f.sat)⟩
  case cvti f =>
    cases h; exact ⟨meansLane_r fun _ => rfl, preds_of_nil (cvti_preds f.ty (srcTy f) f.rm f.sat)⟩
  case fadd | fsub | fmul | ffma | fmin | fmax | fclass | fdiv | fsqrt | frcp | frsq | fexp2 | flog2 | fsin | fcos | ftanh
      | hadd2 | hmul2 | hfma2 | cvtf | rnd =>
    cases h; exact ⟨meansLane_r fun _ => rfl, preds_of_nil fun _ => rfl⟩
  all_goals cases h

theorem isLane_of_lane {i : Instr} {l : LaneOp} (h : intLane i = some l ∨ fpLane i = some l) : IsLane i l :=
  h.elim (fun hint => (isLane_of_intLane hint).1) isLane_of_fpLane

/-! ## Completion -/

theorem exec_of_meansLane {i : Instr} {l : LaneOp} {s : State} (h : MeansLane i l) (hok : l.row.ok s = true) :
    exec i s = .next (l.row.next s) := by
  obtain ⟨sem, hexec, hsem⟩ := h
  rw [hexec]
  exact LaneOp.runs hok fun u => hsem u s

/-- Settles O13: each instruction means its lane operation, which completes where its row allows. -/
theorem integerLanesComplete : Obligations.IntegerLanesComplete := by
  unfold Obligations.IntegerLanesComplete
  exact fun _ _ _ hlane hok => exec_of_meansLane ((isLane_of_intLane hlane).1.means) hok

/-- Settles O14, in the same way. -/
theorem floatLanesComplete : Obligations.FloatLanesComplete := by
  unfold Obligations.FloatLanesComplete
  exact fun _ _ _ hlane hok => exec_of_meansLane ((isLane_of_fpLane hlane).means) hok

/-! ## Effects on one core -/

theorem sameOutside_of_cores {s t : State} (h : t = { s with cores := t.cores }) : SameOutside s t := by
  rw [h]
  exact ⟨rfl, rfl, rfl, rfl, rfl, rfl, rfl, rfl, rfl, rfl, rfl⟩

theorem sameAround_trans {c b : Nat} {s t r : State} (h : SameAround c b s t) (k : SameAround c b t r) : SameAround c b s r :=
  ⟨fun i hi => (k.1 i hi).trans (h.1 i hi), fun i hi => (k.2 i hi).trans (h.2 i hi)⟩

/-- An effect on core `c` that changes no other block of it leaves every other core and block as it was. -/
theorem sameAround_core {c b : Nat} {f : Core → Core} {s : State}
    (h : ∀ k, k ≠ b → (f (s.core c)).blocks.get? k = (s.core c).blocks.get? k) :
    SameAround c b s ((Prog.one (.core c f)).run s) := by
  refine ⟨fun k hk => ?_, fun k hk => ?_⟩
  · exact (Tab.get?_set _ _ _ _).trans (if_neg hk)
  · unfold State.block?
    rw [core_run, if_pos rfl]
    exact h k hk

theorem sameAround_onBlock (c b : Nat) (f : Block → Block) (s : State) : SameAround c b s ((onBlock c b f).run s) :=
  sameAround_core fun k hk => by rw [Tab.get?_modify, if_neg hk]

/-- Nothing has changed but block `b` of core `c`, and the Rill queue and the issue slot of that core. -/
structure BlockAndRill (c b : Nat) (s t : State) : Prop where
  cores : t = { s with cores := t.cores }
  around : SameAround c b s t
  core : SameCore c s t

theorem BlockAndRill.refl (c b : Nat) (s : State) : BlockAndRill c b s s := ⟨rfl, ⟨fun _ _ => rfl, fun _ _ => rfl⟩, rfl⟩

theorem BlockAndRill.trans {c b : Nat} {s t r : State} (h : BlockAndRill c b s t) (k : BlockAndRill c b t r) :
    BlockAndRill c b s r := by
  refine ⟨?_, sameAround_trans h.around k.around, ?_⟩
  · rw [k.cores, h.cores]
  · have hst := h.core
    have htr := k.core
    unfold SameCore at *
    rw [htr, hst]

theorem blockAndRill_onBlock (c b : Nat) (f : Block → Block) (s : State) : BlockAndRill c b s ((onBlock c b f).run s) := by
  refine ⟨rfl, sameAround_onBlock c b f s, ?_⟩
  unfold SameCore onBlock
  rw [core_run, if_pos rfl]
  rfl

theorem popSimt_blocks (k : Core) : k.popSimt.blocks = k.blocks := by
  unfold Core.popSimt; split <;> rfl

/-- R124: taking the words of stochastic rounding changes the queue and the issue slot alone. -/
theorem popSimt_eq (k : Core) : k.popSimt = { k with rill := k.popSimt.rill, slot := k.popSimt.slot } := by
  unfold Core.popSimt; split <;> rfl

theorem blockAndRill_popRill (u : U) (s : State) : BlockAndRill u.c u.b s (u.popRill.run s) := by
  unfold U.popRill
  split
  · exact .refl _ _ _
  · refine ⟨rfl, sameAround_core fun k _ => by rw [popSimt_blocks], ?_⟩
    unfold SameCore
    rw [core_run, if_pos rfl, Core.update, popSimt_eq]

theorem popRill_block (u : U) (x : Bool) (s : State) (c b : Nat) :
    ((Prog.when x u.popRill).run s).block? c b = s.block? c b := by
  unfold U.popRill
  rw [Prog.run_when]
  split_ifs
  · rfl
  · exact core_blocks s u.c _ popSimt_blocks c b
  · rfl

theorem blockAndRill_when {c b : Nat} {p : Prog} {s : State} (x : Bool) (h : BlockAndRill c b s (p.run s)) :
    BlockAndRill c b s ((Prog.when x p).run s) := by
  rw [Prog.run_when]
  split
  · exact h
  · exact .refl _ _ _

/-! ## What a lane instruction leaves as it was (R13, R26, R130) -/

/-- The results of the lane operation in the gang's participating lanes. -/
def laneResults (l : LaneOp) (u : U) : List (Nat × Res) := u.results l.o l.d l.a l.b l.c l.imm

/-- The effect of a lane operation that completes: its results, the words of stochastic rounding taken, and the next PC. -/
def laneProg (l : LaneOp) (u : U) : Prog :=
  ((onBlock u.c u.b (u.commitRes l.o.wd l.d (laneResults l u))).andThen
    (Prog.when (l.o.rill && takes u) u.popRill)).andThen (u.advance u.next)

theorem laneRow_next {l : LaneOp} {s : State} {v : U} (hv : unitOf s l.len = some v) :
    l.row.next s = (laneProg l (v.guarded l.g)).run s := by
  simp only [LaneOp.row, simt, hv]
  rfl

/-- The block with the results of a lane operation written. -/
def laneWritten (l : LaneOp) (u : U) : Block := u.commitRes l.o.wd l.d (laneResults l u) u.blk

/-- A block whose gang `g`, of the slices `ms`, has issued and stands at `a`. -/
def advanced (x : Block) (g : Nat) (ms : List Nat) (a : W64) : Block :=
  ({ x with issued := x.issued + 1 }.setPc ms a).modGang g Gang.issued

theorem advanced_eq (x : Block) (g : Nat) {ms : List Nat} (hms : ms.Nodup) (a : W64) :
    advanced x g ms a = { x with slices := (advanced x g ms a).slices, gangs := x.gangs.modify g Gang.issued
                                 issued := x.issued + 1 } := by
  have hpc : Block.setPc { x with issued := x.issued + 1 } ms a = _ := (setPc_slices _ ms hms a).1
  unfold advanced Block.modGang
  rw [hpc]

theorem advanced_slice (x : Block) (g : Nat) {ms : List Nat} (hms : ms.Nodup) (a : W64) (i : Nat) :
    (advanced x g ms a).slice? i = if i ∈ ms then (x.slice? i).map (fun y => { y with pc := a }) else x.slice? i :=
  (setPc_slices { x with issued := x.issued + 1 } ms hms a).2 i

theorem advance_run_block {u : U} {a : W64} {s : State} {x : Block} (h : s.block? u.c u.b = some x) :
    ((u.advance a).run s).block? u.c u.b = some (advanced x u.g u.members a) := by
  unfold U.advance
  rw [block_onBlock, if_pos ⟨rfl, rfl⟩, h]
  rfl

theorem blockAndRill_laneProg (l : LaneOp) (u : U) (s : State) : BlockAndRill u.c u.b s ((laneProg l u).run s) := by
  unfold laneProg
  rw [Prog.run_andThen, Prog.run_andThen]
  exact ((blockAndRill_onBlock _ _ _ _).trans (blockAndRill_when _ (blockAndRill_popRill _ _))).trans (blockAndRill_onBlock _ _ _ _)

theorem laneProg_block (l : LaneOp) {u : U} {s : State} (h : s.block? u.c u.b = some u.blk) :
    ((laneProg l u).run s).block? u.c u.b = some (advanced (laneWritten l u) u.g u.members u.next) := by
  unfold laneProg
  rw [Prog.run_andThen, Prog.run_andThen]
  refine advance_run_block ?_
  rw [popRill_block, block_onBlock, if_pos ⟨rfl, rfl⟩, h]
  rfl

theorem laneResults_lanes (l : LaneOp) (u : U) : (laneResults l u).map (·.1) = u.part := by
  simp [laneResults, U.results, Function.comp_def]

theorem laneResults_fn {l : LaneOp} {u : U} {e : Nat × Res} (he : e ∈ laneResults l u) : ∃ x, e.2 = l.o.fn x := by
  obtain ⟨i, -, rfl⟩ := List.mem_map.mp he
  exact ⟨_, rfl⟩

theorem sliceKeeps_pc {x y : Slice} {k : Option Nat} (a : W64) (h : SliceKeeps x y k) : SliceKeeps x { y with pc := a } k := by
  obtain ⟨heq, hs⟩ := h
  exact ⟨by rw [heq], hs⟩

/-- R13, R26, R130: the frame of a lane operation that writes predicates of `ps` alone. -/
theorem laneFrame_laneProg {l : LaneOp} {u : U} {s : State} {ps : List Nat} (hblk : s.block? u.c u.b = some u.blk)
    (hslot : u.slot = none) (hms : u.members.Nodup) (hps : ∀ x, ∀ q ∈ (l.o.fn x).preds, q.1 ∈ ps) :
    LaneFrame u s ((laneProg l u).run s) l.d l.o.wd ps := by
  obtain ⟨hwritten, -, hothers, hlanes, hslices⟩ :=
    commitRes_frame u l.o.wd l.d (laneResults l u) u.blk ps hslot hms
      (fun e he q hq => by obtain ⟨x, hx⟩ := laneResults_fn he; exact hps x q (hx ▸ hq))
  rw [laneResults_lanes] at hothers
  have hkept := blockAndRill_laneProg l u s
  have hafter := advanced_eq (laneWritten l u) u.g hms u.next
  have hgangs : (laneWritten l u).gangs = u.blk.gangs := by unfold laneWritten; rw [hwritten]
  have hlane : ∀ j, (advanced (laneWritten l u) u.g u.members u.next).lane j = (laneWritten l u).lane j := fun j => by
    rw [hafter]; rfl
  refine ⟨sameOutside_of_cores hkept.cores, hkept.around, hkept.core, _, laneProg_block l hblk, ?_, ?_, ?_, ?_, ?_⟩
  · unfold SameBlock
    rw [hafter]
    unfold laneWritten
    rw [hwritten]
  · rw [hafter, hgangs]
  · intro j hj
    rw [hlane]; exact hothers j hj
  · intro j _
    rw [hlane]; exact hlanes j
  · intro i x hx
    obtain ⟨y, hy, hkeep⟩ := hslices i x hx
    rw [advanced_slice _ _ hms, show (laneWritten l u).slice? i = some y from hy]
    by_cases hi : i ∈ u.members
    · rw [if_pos hi] at hkeep ⊢
      exact ⟨_, rfl, by rw [if_pos hi]; exact ⟨rfl, sliceKeeps_pc _ hkeep.2⟩⟩
    · rw [if_neg hi] at hkeep ⊢
      exact ⟨y, rfl, by rw [if_neg hi]; exact hkeep⟩

theorem putBlock_fp (u : U) (d : BitVec 8) (w : Nat) (vals : List (Nat × Nat)) (b : Block) (hms : u.members.Nodup) (j : Nat) :
    ((u.putBlock d w vals b).lane j).fp = (b.lane j).fp := by
  unfold U.putBlock
  split_ifs
  · rfl
  · cases vals with
    | nil => rfl
    | cons e r => exact congrArg Lane.fp (lane_of_slices (putS_slices b u.members hms _ _).1 j)
  · exact foldl_modLane_rel vals (fun e => (u.place e.1 d).1) (fun e l => l.setRegs (u.place e.1 d).2 e.2 (regCount w))
      (fun x y => y.fp = x.fp) (fun _ => rfl) (fun _ _ _ h k => k.trans h) (fun _ _ _ => (setRegs_p _ _ _ _).2) b j

theorem setPreds_fp (l : Lane) (qs : List (Nat × Bool)) : (qs.foldl (fun l q => l.setPred q.1 q.2) l).fp = l.fp := by
  induction qs generalizing l with
  | nil => rfl
  | cons q r ih => rw [List.foldl_cons, ih, setPred_fp]

/-- R26: results that raise no flag leave every lane's flags as they were. -/
theorem commitRes_fp {u : U} {d : BitVec 8} {w : Nat} {rs : List (Nat × Res)} {b : Block} (hms : u.members.Nodup)
    (hrs : ∀ e ∈ rs, e.2.flags = 0) (j : Nat) : ((u.commitRes w d rs b).lane j).fp = (b.lane j).fp := by
  have hraise := foldl_modLane_rel rs (·.1) (fun e l => (e.2.preds.foldl (fun l q => l.setPred q.1 q.2) l).raise e.2.flags)
    (fun x y => y.fp = x.fp) (fun _ => rfl) (fun _ _ _ h k => k.trans h)
    (fun e he x => by simp [Lane.raise, hrs e he, setPreds_fp])
    (u.putBlock d w (rs.map fun e => (e.1, e.2.val)) b) j
  exact hraise.trans (putBlock_fp u d w _ b hms j)

theorem flagsKept_laneProg {l : LaneOp} {u : U} {s : State} (hblk : s.block? u.c u.b = some u.blk) (hms : u.members.Nodup)
    (hflags : ∀ x, (l.o.fn x).flags = 0) : FlagsKept u ((laneProg l u).run s) := by
  refine ⟨_, laneProg_block l hblk, fun j => ?_⟩
  rw [advanced_eq _ _ hms]
  exact commitRes_fp hms (fun e he => by obtain ⟨x, hx⟩ := laneResults_fn he; rw [hx]; exact hflags x) j

/-- What the frame needs of the unit that issues: its block stands in the state, and it is no slot's. -/
theorem lane_unit {s : State} {len : Nat} {v : U} (hv : unitOf s len = some v) :
    s.block? v.c v.b = some v.blk ∧ v.slot = none ∧ v.members.Nodup := by
  obtain ⟨hblk, -, hmembers, -, hslot, -, -⟩ := unit_facts hv
  exact ⟨hblk, hslot, hmembers ▸ members_nodup _ _⟩

theorem exec_lane_frame {i : Instr} {l : LaneOp} {s : State} {v : U} (hlane : intLane i = some l ∨ fpLane i = some l)
    (hok : l.row.ok s = true) (hv : unitOf s l.len = some v) :
    exec i s = .next ((laneProg l (v.guarded l.g)).run s)
      ∧ LaneFrame (v.guarded l.g) s ((laneProg l (v.guarded l.g)).run s) l.d l.o.wd (predsOf i) := by
  obtain ⟨hblk, hslot, hms⟩ := lane_unit hv
  refine ⟨?_, laneFrame_laneProg hblk hslot hms (isLane_of_lane hlane).preds⟩
  rw [← laneRow_next hv]
  exact exec_of_meansLane (isLane_of_lane hlane).means hok

/-- Settles O49: the frame of the shared program of effects, with each operation's predicates and flags. -/
theorem laneInstructionsFrame : Obligations.LaneInstructionsFrame := by
  unfold Obligations.LaneInstructionsFrame
  intro i l s v hlane hok hv
  obtain ⟨hexec, hframe⟩ := exec_lane_frame hlane hok hv
  obtain ⟨hblk, -, hms⟩ := lane_unit hv
  exact ⟨_, hexec, hframe, fun hint => flagsKept_laneProg (u := v.guarded l.g) hblk hms (isLane_of_intLane hint).2⟩

/-! ## Destinations that discard what is written (R11, R14) -/

theorem laneFrame_regs_s63 {u : U} {s t : State} {w : Nat} {ps : List Nat} {b : Block} (h : LaneFrame u s t 0xFF w ps)
    (hb : t.block? u.c u.b = some b) (j k : Nat) : (b.lane j).reg k = (u.blk.lane j).reg k := by
  obtain ⟨-, -, -, x, hx, -, -, hothers, hlanes, -⟩ := h
  obtain rfl : x = b := Option.some.inj (hx.symm.trans hb)
  by_cases hj : j ∈ u.part
  · refine (hlanes j hj).1 k ?_
    have hnone : (isS 0xFF || w == 0) = true := rfl
    rw [if_pos hnone]
    omega
  · rw [hothers j hj]

theorem sreg_63 (x : Slice) : x.sreg 63 = 0 := rfl

theorem laneFrame_sregs_s63 {u : U} {s t : State} {w : Nat} {ps : List Nat} {b : Block} (h : LaneFrame u s t 0xFF w ps)
    (hb : t.block? u.c u.b = some b) {j : Nat} {x : Slice} (hx : u.blk.slice? j = some x) :
    ∃ y, b.slice? j = some y ∧ ∀ k, y.sreg k = x.sreg k := by
  obtain ⟨-, -, -, z, hz, -, -, -, -, hslices⟩ := h
  obtain rfl : z = b := Option.some.inj (hz.symm.trans hb)
  obtain ⟨y, hy, hkeep⟩ := hslices j x hx
  refine ⟨y, hy, fun k => ?_⟩
  by_cases hj : j ∈ u.members
  · rw [if_pos hj] at hkeep
    obtain ⟨-, -, hs⟩ := hkeep
    by_cases hk : k = 63
    · rw [hk, sreg_63, sreg_63]
    · refine hs k fun he => ?_
      split at he
      · exact hk (Option.some.inj he)
      · cases he
  · rw [if_neg hj] at hkeep
    rw [hkeep]

theorem pred_7 (l : Lane) : l.pred 7 = true := rfl

theorem laneFrame_preds_p7 {u : U} {s t : State} {d : BitVec 8} {w : Nat} {ps : List Nat} {b : Block}
    (h : LaneFrame u s t d w ps) (hb : t.block? u.c u.b = some b) (hps : ∀ p ∈ ps, p = 7) (j k : Nat) :
    (b.lane j).pred k = (u.blk.lane j).pred k := by
  obtain ⟨-, -, -, x, hx, -, -, hothers, hlanes, -⟩ := h
  obtain rfl : x = b := Option.some.inj (hx.symm.trans hb)
  by_cases hj : j ∈ u.part
  · by_cases hk : k = 7
    · rw [hk, pred_7, pred_7]
    · exact (hlanes j hj).2.1 k fun hmem => hk (hps k hmem)
  · rw [hothers j hj]

/-- Settles O50: the frame leaves only `s63` and `p7` open, and those read as constants. -/
theorem hardWiredRegistersDiscard : Obligations.HardWiredRegistersDiscard := by
  unfold Obligations.HardWiredRegistersDiscard
  intro i l s v hlane hok hv
  obtain ⟨hexec, hframe⟩ := exec_lane_frame hlane hok hv
  have hb := laneProg_block l (u := v.guarded l.g) (lane_unit hv).1
  refine ⟨_, _, hexec, hb, fun hd => ?_, laneFrame_preds_p7 (u := v.guarded l.g) hframe hb⟩
  rw [hd] at hframe
  exact ⟨laneFrame_regs_s63 (u := v.guarded l.g) hframe hb, fun _ _ => laneFrame_sregs_s63 (u := v.guarded l.g) hframe hb⟩

/-! ## The return of a load (R180, R183) -/

/-- Where every load that `f` selects is bound, none is bound late. -/
theorem bindLate_of_bound {s : State} {c : Nat} {f : PendLoad → Bool} (h : ∀ q ∈ (s.core c).loads, f q = true → q.late = false) :
    (bindLate c f).run s = s := by
  have hnone : ((s.core c).loads.filter fun q => q.late && f q) = [] := by
    rw [List.filter_eq_nil_iff]
    intro q hq hlate
    rw [Bool.and_eq_true] at hlate
    exact absurd (h q hq hlate.2) (by simp [hlate.1])
  simp only [bindLate, Prog.run_read, hnone]
  rfl

/-- The effects of the return of load `p`, which is bound. -/
def returnProg (c : Nat) (p : PendLoad) : Prog := (dropLoad c p.id).andThen (onBlock c p.blk p.deliver)

theorem returnLoad_run {s : State} {c id : Nat} {p : PendLoad} (hp : (s.core c).loads.find? (fun q => q.id == id) = some p)
    (hbound : ∀ q ∈ (s.core c).loads, q.id = id → q.late = false) : (returnLoad c id).run s = (returnProg c p).run s := by
  have hbind : (bindLate c fun q => q.id == id).run s = s :=
    bindLate_of_bound fun q hq hsel => hbound q hq (beq_iff_eq.mp hsel)
  have hid : p.id = id := by simpa using List.find?_some hp
  simp only [returnLoad, returnProg, Prog.run_andThen, hbind, Prog.run_read, hp, hid]

theorem exec_loadReturn {s : State} {p : PendLoad} (hp : (s.core (s.arg 0)).loads.find? (fun q => q.id == s.arg 1) = some p)
    (herr : s.arg 2 = 0) (hbound : ∀ q ∈ (s.core (s.arg 0)).loads, q.id = p.id → q.late = false) :
    exec .loadReturn s = .next ((returnProg (s.arg 0) p).run s) := by
  have hid : p.id = s.arg 1 := by simpa using List.find?_some hp
  have hmeans : loadReturn s = returnLoad (s.arg 0) p.id := by simp [loadReturn, hp, herr]
  show runEvent loadReturn s = _
  rw [runEvent, hmeans, returnLoad_run (by rw [hid]; exact hp) hbound]

theorem returnProg_core (c : Nat) (p : PendLoad) (s : State) :
    ((returnProg c p).run s).core c =
      { s.core c with loads := (s.core c).loads.filter fun q => q.id != p.id
                      blocks := (s.core c).blocks.modify p.blk p.deliver } := by
  unfold returnProg dropLoad onBlock
  rw [Prog.run_andThen, core_run, if_pos rfl, core_run, if_pos rfl]
  rfl

theorem returnProg_cores (c : Nat) (p : PendLoad) (s : State) :
    (returnProg c p).run s = { s with cores := ((returnProg c p).run s).cores } := rfl

theorem sameAround_returnProg (c : Nat) (p : PendLoad) (s : State) : SameAround c p.blk s ((returnProg c p).run s) := by
  unfold returnProg dropLoad
  rw [Prog.run_andThen]
  exact sameAround_trans (sameAround_core fun _ _ => rfl) (sameAround_onBlock _ _ _ _)

theorem quiet_returnProg (c : Nat) (p : PendLoad) : Quiet (returnProg c p) := Quiet.andThen (Quiet.core _ _) (Quiet.onBlock _ _ _)

theorem returnProg_block {c : Nat} {p : PendLoad} {s : State} {x : Block} (h : s.block? c p.blk = some x) :
    ((returnProg c p).run s).block? c p.blk = some (p.deliver x) := by
  unfold State.block? at h ⊢
  rw [returnProg_core, Tab.get?_modify, if_pos rfl, h]
  rfl

theorem deliver_eq (p : PendLoad) (x : Block) :
    p.deliver x = { x with lanes := (p.deliver x).lanes, slices := (p.deliver x).slices } := by
  unfold PendLoad.deliver
  split
  · rw [(foldl_modSlice _ (fun _ z => z.setS p.reg (p.val.setWidth 64)) x (List.Nodup.filter _ List.nodup_range)).1]
  · rfl

theorem lanes_of_slicesOnly {x y : Block} (h : SlicesOnly x y) : y.lanes = x.lanes := by
  unfold SlicesOnly at h
  rw [h]

/-- R11, R12: what an s-register load writes in the slices of the gang that issued it. -/
theorem deliver_sreg {p : PendLoad} (hp : p.sreg = true) (x : Block) :
    (p.deliver x).lanes = x.lanes ∧ ∀ j, (p.deliver x).slice? j =
      if p.slices.getLsbD j = true then (x.slice? j).map (·.setS p.reg (p.val.setWidth 64)) else x.slice? j := by
  have hfold := foldl_modSlice ((List.range x.slices.length).filter p.slices.getLsbD)
    (fun _ z => z.setS p.reg (p.val.setWidth 64)) x (List.Nodup.filter _ List.nodup_range)
  obtain ⟨hslices, hget⟩ := hfold
  simp only [PendLoad.deliver, hp, ↓reduceIte]
  refine ⟨lanes_of_slicesOnly hslices, fun j => ?_⟩
  rw [hget]
  by_cases hj : j < x.slices.length
  · simp only [List.mem_filter, List.mem_range, hj, true_and]
  · have hout : x.slice? j = none := List.getElem?_eq_none (Nat.not_lt.mp hj)
    simp [hout]

/-- R180: what a load writes in its lane. -/
theorem deliver_lane {p : PendLoad} (hp : p.sreg = false) (x : Block) :
    (p.deliver x).slices = x.slices ∧ ∀ j, (p.deliver x).lane j =
      if j = p.lane ∧ j < x.lanes.length then (x.lane j).setRegs p.reg p.val.toNat (regsOf p.w) else x.lane j := by
  simp only [PendLoad.deliver, hp, Bool.false_eq_true, ↓reduceIte]
  exact ⟨rfl, fun j => lane_modLane _ _ _ _⟩

theorem setRegs_eq (l : Lane) (i x n : Nat) : l.setRegs i x n = { l with v := (l.setRegs i x n).v } := by
  induction n generalizing l i x with
  | zero => rfl
  | succ n ih => rw [Lane.setRegs, ih]; rfl

theorem setS_eq (x : Slice) (i : Nat) (v : W64) : x.setS i v = { x with s := (x.setS i v).s } := by
  unfold Slice.setS; split <;> rfl

/-- Settles O45: the event is the two effects on its core, and the delivery writes one register. -/
theorem loadReturnWrites : Obligations.LoadReturnWrites := by
  unfold Obligations.LoadReturnWrites
  intro s p x c hp herr hbound hx hlane
  have hcore := returnProg_core c p s
  refine ⟨_, _, exec_loadReturn hp herr hbound, quiet_returnProg c p s, by rw [hcore], returnProg_block hx,
    sameOutside_of_cores (returnProg_cores c p s), sameAround_returnProg c p s, by rw [hcore], deliver_eq p x, ?_⟩
  cases hsreg : p.sreg
  · obtain ⟨hslices, hlanes⟩ := deliver_lane hsreg x
    have hown : (p.deliver x).lane p.lane = (x.lane p.lane).setRegs p.reg p.val.toNat (regsOf p.w) := by
      rw [hlanes, if_pos ⟨rfl, hlane⟩]
    rw [if_neg Bool.false_ne_true, hown]
    exact ⟨hslices, fun j hj => by rw [hlanes, if_neg fun h => hj h.1], setRegs_eq _ _ _ _,
      fun k hk => reg_setRegs _ _ _ _ _ hk, regs_setRegs _ _ _ _⟩
  · obtain ⟨hlanes, hslices⟩ := deliver_sreg hsreg x
    rw [if_pos rfl]
    refine ⟨hlanes, fun j y hy => ?_⟩
    rw [hslices, hy]
    split
    · exact ⟨_, rfl, setS_eq _ _ _, fun k hk => sreg_setS_ne _ _ _ _ hk, sreg_setS _ _ _⟩
    · exact ⟨y, rfl, rfl⟩

/-! ## Privileged instructions and the return from a handler (R22, R23, R298, R299, R301) -/

/-- An instruction of SIMT code whose meaning is a trap takes that trap's entry, and does nothing else. -/
theorem runX_of_trap {f : XForm} {sem : Sem} {s : State} {v : U} {t : TrapReq} (hv : unitOf s 8 = some v)
    (hsimt : v.gang.vliw = false) (h : sem (v.guarded f.g) s = .trap t) :
    runX f sem s = .next ((takeTrap v.c v.b v.g t v.pc v.pc).run s) := by
  simp only [runX, runSimt, hv, hsimt, Bool.false_eq_true, ↓reduceIte, h]
  rfl

theorem semSwrite_privileged {f : XForm} {u : U} (s : State) (huser : u.user = true) (hsel : f.fld 8 0 = 0x19)
    (hreg : u.regOk f.a 32 = true) : semSwrite f u s = u.privileged := by
  simp [semSwrite, hreg, hsel, huser]

theorem semDocinv_privileged (f : XForm) {u : U} (s : State) (huser : u.user = true) : semDocinv f u s = u.privileged :=
  if_pos huser

theorem semMshape_privileged {f : XForm} {u : U} (s : State) (huser : u.user = true) (hfeat : u.feat 3 0 = false)
    (hready : ready u [(f.a, 32)] = true) : semMshape f u s = u.privileged := by
  have hbringup : u.noBringup = true := by simp [U.noBringup, huser, hfeat]
  rw [semMshape, need_ok u _ _ hready, if_pos hbringup]

/-- R298: a gang without a handler's frame has nothing to return from. -/
theorem semHret_illegal {f : XForm} {u : U} (s : State) (hframes : u.gang.frames = []) (hready : ready u [(f.a, 64)] = true)
    (htakes : takes u = true) : semHret f u s = u.trap cIllegal := by
  simp only [semHret, need_ok u _ _ hready, once_ok u _ htakes, hframes]

/-- Settles O57: each of the four meanings is a trap, and a trap's entry is the whole effect. -/
theorem privilegeTraps : Obligations.PrivilegeTraps := by
  unfold Obligations.PrivilegeTraps
  intro f s v hv hsimt
  refine ⟨fun huser hsel hreg => ?_, fun huser => ?_, fun huser hfeat hready => ?_, fun hframes hready htakes => ?_⟩
  · exact runX_of_trap hv hsimt (semSwrite_privileged (u := v.guarded f.g) s huser hsel hreg)
  · exact runX_of_trap hv hsimt (semDocinv_privileged f (u := v.guarded f.g) s huser)
  · exact runX_of_trap hv hsimt (semMshape_privileged s huser hfeat hready)
  · exact runX_of_trap hv hsimt (semHret_illegal s hframes hready htakes)

end Sys2Proof.Proofs.MachineState
end

