-- ==== Sys2Proof/Proofs/ExecutionModel.lean ====
section
/-! PROOFS. The execution model: a turn runs the instruction or the event that it names; control flow, a thread's bundle and the
events of mailboxes, placement and pre-emption each carry out the program of effects that their row gives, wherever the row's
condition holds. -/

namespace Sys2Proof.Proofs.ExecutionModel

open Sys2Proof.Machine Sys2Proof.Claims

/-! ## A turn that is an event (R69, R360, log 1) -/

theorem step_of_nextTurn {s t : State} {i : Instr} (h : nextTurn s = (t, some i)) : step s = tagAfter t i (exec i t) := by
  simp only [step, h]

/-- Only an instruction of a program is tagged (R428). -/
theorem tagAfter_of_event {i : Instr} (h : Instr.isEvent i = true) (s : State) (o : Host.Outcome State Fault Refusal) :
    tagAfter s i o = o := by
  cases o
  case next t => simp only [tagAfter, h, if_true]
  all_goals rfl

/-- Settles O9: the head of the agenda names what runs, and an event is never tagged. -/
theorem stepRunsTheEvent : Obligations.StepRunsTheEvent := by
  unfold Obligations.StepRunsTheEvent
  intro s rest i a hagenda
  refine ⟨fun hevent => ?_, fun hword => ?_⟩
  · have hturn : nextTurn s = ({ s with agenda := rest, args := a }, some i) := by
      simp only [nextTurn, hagenda, hevent, if_true]
    rw [step_of_nextTurn hturn, tagAfter_of_event hevent]
  · simp only [step, nextTurn, hagenda, hword, Bool.false_eq_true, if_false]

/-! ## The issue turn of a gang or thread (R69, R247) -/

theorem fetchBytes_length (u : U) (s : State) (cracked : Bool) (va : W64) (n : Nat) :
    (u.fetchBytes s cracked va n).length = n := by
  simp only [U.fetchBytes]
  split
  · split
    · rw [List.length_take]
      omega
    · rw [List.length_map, List.length_range]
  · rw [List.length_map, List.length_range]

theorem headBytes_pos (u : U) : 0 < u.headBytes := by
  unfold U.headBytes
  split <;> decide

/-- R84 to R92, R311: what the unit decodes from `n` words is the instruction of its mode. -/
theorem decode_of_decoded {u : U} {bs : List Byte} {n : Nat} {i : Instr} (hlen : bs.length = u.headBytes * n)
    (h : Decoded u bs n i) : u.decode bs = i := by
  have hn : bs.length / u.headBytes = n := by rw [hlen, Nat.mul_div_cancel_left n (headBytes_pos u)]
  unfold Decoded at h
  unfold U.decode
  rw [hn]
  split at h
  · rename_i hexdin
    obtain ⟨r, hr⟩ := h
    simp only [if_pos hexdin, hr]
  · rename_i hnative
    split at h
    · rename_i hvliw
      obtain ⟨hdr, ws, hws, hmaj, rfl⟩ := h
      simp [hnative, hvliw, hws, hmaj]
    · rename_i hsimt
      rw [Bool.not_eq_true] at hsimt
      obtain ⟨r, hr⟩ := h
      simp only [if_neg hnative, hsimt, Bool.false_and, Bool.false_eq_true, if_false, hr]

/-- R247: words that pass the fetch checks are fetched and decoded. -/
theorem fetch_of_decoded {u : U} {s : State} {i : Instr} (hhead : u.fetchBad s u.headBytes 1 = none)
    (hall : u.fetchBad s u.headBytes (u.fetchCount (u.head s)) = none)
    (h : Decoded u (u.fetchBytes s u.inExdin u.pc (u.headBytes * u.fetchCount (u.head s))) (u.fetchCount (u.head s)) i) :
    u.fetch s = ((u.fetchFill s (u.headBytes * u.fetchCount (u.head s))).run s, i) := by
  simp only [U.fetch, hhead, hall, decode_of_decoded (fetchBytes_length _ _ _ _ _) h]

theorem arrived_of_not_held {w : Wait} (h : w.held = false) : w.arrived = false := by
  cases w
  case barw | sleep => cases h
  all_goals exact h

/-- R69, R71, R294 to R296, R386, R424, R429: nothing keeps the unit from issuing the instruction at its PC. -/
structure MayIssue (u : U) (s : State) : Prop where
  alive : s.sys.st ≠ .fatal
  runs : u.blk.halt = false
  awake : u.core.gated = false
  granted : u.blk.regrant = none
  turn : u.gang.skip = false
  free : u.gang.wait.held = false
  noQpoint : ∀ a, u.gang.wait ≠ .qpoint a
  noCause : u.gang.pend = []
  inBudget : u.blk.grant.isSome = true → u.blk.excess < 4

theorem MayIssue.not_stopped {u : U} {s : State} (h : MayIssue u s) :
    (u.core.gated || u.blk.regrant.isSome || u.blk.halt || s.sys.st == .fatal) = false := by
  simp [h.awake, h.granted, h.runs, h.alive]

theorem MayIssue.not_overdrawn {u : U} {s : State} (h : MayIssue u s) :
    (u.blk.grant.isSome && decide (u.blk.excess ≥ 4)) = false := by
  cases hgrant : u.blk.grant.isSome
  · rfl
  · simpa using h.inBudget hgrant

/-- The turn of a unit that may issue: the fetch, and what precedes the instruction. -/
theorem gangTurn_of_mayIssue {s : State} {u : U} {i : Instr} {t : State} (hu : unitOf s 0 = some u) (hmay : MayIssue u s)
    (hfetch : u.fetch s = (t, i)) (hi : i ≠ .fetchFault) : gangTurn s = (u.begin_.run t, some i) := by
  simp only [gangTurn, hu, hmay.not_stopped, hmay.turn, if_neg (hmay.noQpoint false), arrived_of_not_held hmay.free,
    hmay.not_overdrawn, hmay.noCause, List.isEmpty_nil, Bool.not_true, hmay.free, Bool.false_eq_true, if_false]
  split
  · rename_i a hwait
    exact absurd hwait (hmay.noQpoint a)
  · rw [hfetch]
    split
    · rename_i hfault
      exact absurd hfault hi
    · rfl

/-- A turn that names an agent that is due itself is that agent's turn (R70). -/
theorem nextTurn_of_issue {s : State} {rest : List Turn} {c b g : Nat} (hagenda : s.agenda = .issue (.gang c b g) :: rest)
    (hturn : State.turnOf { s with agenda := rest } (.gang c b g) = .gang c b g) :
    nextTurn s = gangTurn { s with agenda := rest, cur := .gang c b g } := by
  simp only [nextTurn, hagenda, hturn, issueTurn]

/-- Settles O7: the turn fetches the words and leaves the instruction that they decode to, which then runs. -/
theorem stepRunsTheFetchedInstruction : Obligations.StepRunsTheFetchedInstruction := by
  unfold Obligations.StepRunsTheFetchedInstruction
  intro s rest c b g u i r n bytes hagenda hturn hu hst hhalt hgated hregrant hskip hheld hqpoint hpend hbudget hhead hall hdec hi
  have hmay : MayIssue u r := ⟨hst, hhalt, hgated, hregrant, hskip, hheld, hqpoint, hpend, hbudget⟩
  have hbegun := gangTurn_of_mayIssue hu hmay (fetch_of_decoded hhead hall hdec) hi
  exact step_of_nextTurn ((nextTurn_of_issue hagenda hturn).trans hbegun)

/-! ## Control flow (R43 to R57, R244 to R250, R266, R267) -/

/-- An instruction of SIMT code completes as its row says when its meaning carries out the row's effect wherever the row's
condition holds. -/
theorem runSimt_of_carries {len : Nat} {g : Guard} {cond : U → State → Bool} {eff : U → State → Prog} {sem : Sem} {s : State}
    (hok : (simt len g cond eff).ok s = true)
    (h : ∀ u : U, u.slot = none → cond u s = true → u.carry (sem u s) = eff u s) :
    runSimt len g sem s = .next ((simt len g cond eff).next s) :=
  simt_ok hok fun u _ _ hcond hslot _ => by rw [h (u.guarded g) hslot hcond]

/-- R43: the effect of an instruction after which the gang parts. -/
theorem moved_eq (u : U) (f : Block → Block) : u.moved f = .own (partAfter u f) := rfl

/-- R244: a branch with room on the stacks. -/
theorem braOp_simt {u : U} (target : W64) (first : Prog) (hslot : u.slot = none)
    (hroom : u.stackFull (fun i x => if x.braPushes (sliceMask i u.part) then 1 else 0) = []) :
    braOp u target first = .own (first.andThen (partAfter u fun b =>
      (u.members.foldl (fun b i => b.modSlice i fun x => x.bra (sliceMask i u.part) target u.next) b).follow u.members)) := by
  simp only [braOp, hslot, hroom, ne_eq, not_true_eq_false, if_false, moved_eq]

/-- R244, R245: an instruction that means a branch, with what it writes first. -/
theorem branch_completes {g : Guard} {cond : U → State → Bool} {target : U → W64} {first : U → Prog} {sem : Sem} {s : State}
    (hok : (braWith g cond target first).ok s = true)
    (h : ∀ u, cond u s = true → sem u s = braOp u (target u) (first u)) :
    runSimt 8 g sem s = .next ((braWith g cond target first).next s) := by
  refine runSimt_of_carries hok fun u hslot hcond => ?_
  rw [Bool.and_eq_true, beq_iff_eq] at hcond
  rw [h u hcond.1, braOp_simt _ _ hslot hcond.2]
  rfl

/-- R246: `BRX` and `RET`, which mean the same. -/
theorem brx_completes {f : XForm} {s : State} (hok : (brxRow f).ok s = true) : runX f (semBrx f) s = .next ((brxRow f).next s) := by
  simp only [brxRow] at hok ⊢
  refine runSimt_of_carries hok fun u hslot hcond => ?_
  simp only [Bool.and_eq_true, beq_iff_eq] at hcond
  obtain ⟨⟨hready, haligned⟩, hroom⟩ := hcond
  simp only [semBrx, need_ok _ _ _ hready, brxOp, haligned, hslot, hroom, ne_eq, not_true_eq_false, if_false]
  rfl

/-- R249: what waited for the exiting lanes is tried again. -/
theorem exit_completes {f : XForm} {s : State} (hok : (exitRow f).ok s = true) : execExit f s = .next ((exitRow f).next s) := by
  refine runSimt_of_carries hok fun u hslot _ => ?_
  simp only [semExit, exitOp, hslot, Option.isSome_none, Bool.false_eq_true, if_false, moved_eq]
  rfl

theorem rconv_completes {f : BForm} {s : State} (hok : (rconvRow f).ok s = true) : execRconv f s = .next ((rconvRow f).next s) := by
  refine runSimt_of_carries hok fun u hslot hcond => ?_
  rw [beq_iff_eq] at hcond
  simp only [semRconv, hslot, hcond, Option.isSome_none, Bool.false_eq_true, ne_eq, not_true_eq_false, if_false]
  rfl

theorem join_completes {s : State} (hok : joinRow.ok s = true) : execJoin s = .next (joinRow.next s) := by
  refine runSimt_of_carries hok fun u hslot hcond => ?_
  rw [beq_iff_eq] at hcond
  simp only [semJoin, hslot, hcond, Option.isSome_none, Bool.false_eq_true, ne_eq, not_true_eq_false, if_false]
  rfl

theorem modeVliw_completes {f : BForm} {s : State} (hok : (modeVliwRow f).ok s = true) :
    execModeVliw f s = .next ((modeVliwRow f).next s) := by
  refine runSimt_of_carries hok fun u _ hcond => ?_
  rw [Bool.and_eq_true] at hcond
  obtain ⟨hfeat, hcollapse⟩ := hcond
  simp only [semModeVliw, hfeat, hcollapse, Bool.not_true, Bool.false_eq_true, if_false]
  rfl

theorem yield_completes {f : XForm} {s : State} (hok : (yieldRow f).ok s = true) : execYield f s = .next ((yieldRow f).next s) := by
  refine runSimt_of_carries hok fun u _ htakes => ?_
  rw [semYield, once_ok _ _ htakes]
  rfl

/-- R267: a sleep of no length completes at once, and another waits for its deadline. -/
theorem sleep_completes {f : XForm} {s : State} (hok : (sleepRow f).ok s = true) : execSleep f s = .next ((sleepRow f).next s) := by
  simp only [sleepRow] at hok ⊢
  refine runSimt_of_carries hok fun u _ hcond => ?_
  rw [Bool.and_eq_true] at hcond
  obtain ⟨hready, htakes⟩ := hcond
  simp only [semSleep, need_ok _ _ _ hready, once_ok _ _ htakes]
  split <;> rfl

/-- Settles O21: each of the ten instructions is its own program of effects wherever its row's condition holds. -/
theorem controlFlowCompletes : Obligations.ControlFlowCompletes := by
  unfold Obligations.ControlFlowCompletes
  intro i r s hrow hok
  cases i
  case bra => cases hrow; exact branch_completes hok fun _ _ => rfl
  case call => cases hrow; exact branch_completes hok fun u hready => need_ok u _ _ hready
  case brx | ret => cases hrow; exact brx_completes hok
  case exit => cases hrow; exact exit_completes hok
  case rconv => cases hrow; exact rconv_completes hok
  case join => cases hrow; exact join_completes hok
  case modeVliw => cases hrow; exact modeVliw_completes hok
  case yield => cases hrow; exact yield_completes hok
  case sleep => cases hrow; exact sleep_completes hok
  all_goals cases hrow

/-! ## Bundles (R59, R60, R448) -/

/-- A bundle that nothing stops is carried out whole: its slots commit, and then what stands behind them. -/
theorem issueBundle_of_commit {u : U} {s t : State} {hdr : W64} {words : List W64} {xs : List Slot} {bad : List (Nat × Nat)}
    (hslots : splitSlots (rawSlots hdr words) = (xs, bad)) (htrap : bundleTrap u s hdr words (rawSlots hdr words) xs bad = none)
    (hwait : bundleWait u s xs = none)
    (hcommit : commitSlots { u with pre := (bundleReads u xs).run s } ((bundleReads u xs).run s) (commitOrder xs)
      ((bundleBase u s (lopOf hdr) xs).run ((bundleReads u xs).run s)) = .ok t) :
    issueBundle u hdr words s = (bundleEnd u s hdr xs).run t := by
  simp only [issueBundle, hslots, htrap, hwait, hcommit]

theorem exec_bundle {hdr : W64} {words : List W64} {s : State} {u : U} (hu : unitOf s (8 + 8 * words.length) = some u)
    (hvliw : u.gang.vliw = true) : exec (.bundle hdr words) s = .next (issueBundle u hdr words s) := by
  show execBundle hdr words s = _
  simp only [execBundle, hu, hvliw, if_true]

/-- R59, R60, R448: a thread's bundle that no slot stops. -/
theorem bundle_completes {hdr : W64} {words : List W64} {s : State} (hok : (bundleRow hdr words).ok s = true) :
    exec (.bundle hdr words) s = .next ((bundleRow hdr words).next s) := by
  simp only [bundleRow] at hok ⊢
  cases hu : unitOf s (8 + 8 * words.length) with
  | none => simp [hu] at hok
  | some u =>
    simp only [hu, Bool.and_eq_true, Option.isNone_iff_eq_none] at hok ⊢
    obtain ⟨⟨⟨hvliw, htrap⟩, hwait⟩, hcommits⟩ := hok
    rw [exec_bundle hu hvliw]
    split at hcommits
    · rename_i t ht
      rw [issueBundle_of_commit Prod.mk.eta.symm htrap hwait ht]
    · cases hcommits

/-! ## A bundle of one word (R86, R88, R91, R172, R252 to R254) -/

/-- The four instructions that a slot alone may hold, with their majors and functions. -/
inductive SlotOnly : Instr → Nat → Nat → Prop where
  | xmov (f : XForm) : SlotOnly (.xmov f) 0x16 0
  | modeSimt (f : BForm) : SlotOnly (.modeSimt f) 0x2E 4
  | loop (f : BForm) : SlotOnly (.loop f) 0x2E 5
  | lend (f : XForm) : SlotOnly (.lend f) 0x2F 5

/-- The word as the bundle holds it, in slot 0 with no data behind it. -/
def soloRaw (w : W64) : RawSlot := { k := 0, w, data := [] }

/-- R86: the header occupies slot 0 and surrenders none. -/
theorem occOf_solo : (List.range 16).filter (occOf soloHeader).getLsbD = [0] := by decide

theorem surOf_solo : surOf soloHeader = 0 := by decide

theorem rawSlots_solo (w : W64) : rawSlots soloHeader [w] = [soloRaw w] := by
  simp [rawSlots, occupied, occOf_solo, surOf_solo, soloRaw]

theorem runAfter_zero (k : Nat) : runAfter 0 k = 0 := by
  unfold runAfter
  cases List.range (15 - k) with
  | nil => rfl
  | cons j js => simp

section

variable {w : W64} {i : Instr} {m fn : Nat}

/-- R88: no data follows such a word. -/
theorem SlotOnly.wordsAfter_eq_zero (h : SlotOnly i m fn) (hm : wordMaj w = m) : wordsAfter w = 0 := by
  have hr : rOp m (bits 8 w 46).toNat = none := by cases h <;> exact rOp_none (by decide)
  have hxb : xbOp m (bits 6 w 48).toNat (bits 16 w 0) = none := by cases h <;> exact xbOp_none (by decide)
  simp only [wordsAfter, hm, hr, hxb, Option.isSome_none, Bool.false_eq_true, if_false]

/-- R91: the header of one word is refused neither alone nor for its data. -/
theorem headerBad_solo (h : wordsAfter w = 0) : headerBad soloHeader [w] = false := by
  have hhdr : hdrRefused soloHeader = false := by decide
  simp only [headerBad, hhdr, Bool.false_or, surOf_solo, runAfter_zero, rawSlots_solo]
  rw [List.any_eq_false]
  intro k _
  cases hk : (0 == k) <;> simp [soloRaw, hk, h]

/-- A bundle of one word holds no two that exclude each other. -/
theorem clash_single (r : RawSlot) (p : RawSlot → Bool) : clash [r] p = [] := by
  unfold clash
  cases hp : p r <;> simp [hp]

/-- R90, R91: the majors and functions of the four name no slot. -/
theorem SlotOnly.groupBad_eq_nil (h : SlotOnly i m fn) (hm : wordMaj w = m) (hfn : wordFn w = fn) :
    groupBad soloHeader [soloRaw w] = [] := by
  have hlop : lopOf soloHeader = 0 := by decide
  have hmda : mdaOf soloHeader = 0 := by decide
  cases h <;> simp [groupBad, clash_single, hlop, hmda, soloRaw, hm, hfn]

theorem destBad_single (x : Slot) : destBad [x] = [] := by
  simp [destBad]

/-- The decoded slot. -/
def soloSlot (w : W64) (i : Instr) (info : SlotInfo) : Slot := { k := 0, w, i, info }

variable {info : SlotInfo}

@[simp] theorem soloSlot_k : (soloSlot w i info).k = 0 := rfl

@[simp] theorem soloSlot_w : (soloSlot w i info).w = w := rfl

@[simp] theorem soloSlot_i : (soloSlot w i info).i = i := rfl

@[simp] theorem soloSlot_info : (soloSlot w i info).info = info := rfl

@[simp] theorem soloSlot_unit (u : U) : (soloSlot w i info).unit u = u.atSlot 0 info.g := rfl

theorem splitSlots_solo (hdec : decodeNative [w] = .ok (i, [])) (hinfo : slotInfo i = some info) :
    splitSlots [soloRaw w] = ([soloSlot w i info], []) := by
  have hx : (soloRaw w).decode = .ok (soloSlot w i info) := by simp only [RawSlot.decode, soloRaw, hdec, hinfo, soloSlot]
  simp only [splitSlots, List.filterMap_cons, List.filterMap_nil, hx]

/-- A slot's issue completes: it has the effect `p`, and the thread, whose next bundle is `next`, goes on at `a`. -/
inductive Completes (next a : W64) (p : Prog) : Issue → Prop where
  | commit (h : a = next) : Completes next a p (.commit p)
  | goto : Completes next a p (.goto a p)

variable {u : U} {s : State} {a : W64} {p : Prog}

/-- R59: a slot that completes raises nothing. -/
theorem bundleTraps_solo (hsem : Completes u.next a p (info.sem (u.atSlot 0 info.g) s)) (f : Slot → Bool) :
    bundleTraps u s ([soloSlot w i info].filter f) = ([], []) := by
  generalize hissue : info.sem (u.atSlot 0 info.g) s = issue at hsem
  cases hf : f (soloSlot w i info) <;> cases hsem <;> simp [bundleTraps, hf, hissue]

/-- R448: no step stops the bundle. -/
theorem bundleTrap_solo (h : SlotOnly i m fn) (hm : wordMaj w = m) (hfn : wordFn w = fn) (hfeat : u.feat 0 featVliw = true)
    (henc : (soloSlot w i info).encodeCause u s = none) (hsem : Completes u.next a p (info.sem (u.atSlot 0 info.g) s)) :
    bundleTrap u s soloHeader [w] [soloRaw w] [soloSlot w i info] [] = none := by
  have hlop : lopOf soloHeader = 0 := by decide
  have hencode : [soloSlot w i info].filterMap (fun x => (x.encodeCause u s).map fun c => (x.k, c)) = [] := by simp [henc]
  simp only [bundleTrap, headerBad_solo (h.wordsAfter_eq_zero hm), hfeat, h.groupBad_eq_nil hm hfn, destBad_single, hencode,
    bundleTraps_solo hsem, hlop]
  generalize hissue : info.sem (u.atSlot 0 info.g) s = issue at hsem
  cases hsem <;> simp [dedup, dropRo, hissue]

theorem bundleWait_solo (hsem : Completes u.next a p (info.sem (u.atSlot 0 info.g) s)) :
    bundleWait u s [soloSlot w i info] = none := by
  generalize hissue : info.sem (u.atSlot 0 info.g) s = issue at hsem
  cases hsem <;> simp [bundleWait, hissue]

/-- R60: none of the four reads what acquires or returns bring. -/
theorem SlotOnly.bundleReads_run (h : SlotOnly i m fn) : (bundleReads u [soloSlot w i info]).run s = s := by
  cases h <;> rfl

theorem SlotOnly.commitOrder_eq (h : SlotOnly i m fn) (hm : wordMaj w = m) :
    commitOrder [soloSlot w i info] = [soloSlot w i info] := by
  cases h <;> simp [commitOrder, Slot.isLate, Slot.isLast, hm]

theorem SlotOnly.commitSlots_eq (h : SlotOnly i m fn) (hsem : Completes u.next a p (info.sem (u.atSlot 0 info.g) s)) (t : State) :
    commitSlots u s [soloSlot w i info] t = .ok (p.run t) := by
  have hshared : (soloSlot w i info).isShared = false := by cases h <;> rfl
  generalize hissue : info.sem (u.atSlot 0 info.g) s = issue at hsem
  cases hsem <;> simp [commitSlots, Slot.issueAt, hshared, hissue, Slot.effect]

/-- R89: where the thread goes on. -/
theorem nextBundle_solo (hsem : Completes u.next a p (info.sem (u.atSlot 0 info.g) s)) :
    nextBundle u s [soloSlot w i info] u.next = a := by
  generalize hissue : info.sem (u.atSlot 0 info.g) s = issue at hsem
  cases hsem
  case commit h => simp [nextBundle, hissue, h]
  case goto => simp [nextBundle, hissue]

theorem bundleBase_solo (hsem : Completes u.next a p (info.sem (u.atSlot 0 info.g) s)) :
    bundleBase u s (lopOf soloHeader) [soloSlot w i info] = onBlock u.c u.b fun b =>
      ({ b with issued := b.issued + 1 }.setPc u.members a).modGang u.g fun x => { x.issued with loops := u.gang.loops } := by
  have hlop : lopOf soloHeader = 0 := by decide
  simp only [bundleBase, hlop, lopStep, nextBundle_solo hsem]

/-- Nothing vectors or stops behind a slot that completes (R297, R429). -/
theorem bundleAfter_solo (hsem : Completes u.next a p (info.sem (u.atSlot 0 info.g) s)) (next : W64) (t : State) :
    (bundleAfter u s [soloSlot w i info] next).run t = t := by
  generalize hissue : info.sem (u.atSlot 0 info.g) s = issue at hsem
  have hvector : vectorSlots u s [soloSlot w i info] = [] := by cases hsem <;> simp [vectorSlots, hissue]
  have hstop : stopsBlock u s [soloSlot w i info] = false := by cases hsem <;> simp [stopsBlock, hissue]
  simp only [bundleAfter, hvector, hstop, Prog.run_read]
  split <;> rfl

/-- R60, R334: behind the slot only what a release asks for is left to do. -/
theorem SlotOnly.bundleEnd_run (h : SlotOnly i m fn) (hsem : Completes u.next a p (info.sem (u.atSlot 0 info.g) s)) (t : State) :
    (bundleEnd u s soloHeader [soloSlot w i info]).run t =
      (Prog.all [onBlock u.c u.b fun b => b.advanceMc u.members 0,
        Prog.when (soloSlot w i info).isRelease (joinThread u.c u.b (64 + u.members.headD 0 / 4))]).run t := by
  have hmda : mdaOf soloHeader = 0 := by decide
  have hrill : (soloSlot w i info).takesRill u = false := by cases h <;> simp [Slot.takesRill]
  have htry : ∀ t, (tryWaits u [soloSlot w i info]).run t = t := fun t => by cases h <;> rfl
  simp only [bundleEnd, hmda, List.any_cons, List.any_nil, Bool.or_false, hrill, Prog.run_all_cons, Prog.run_all_nil,
    Prog.run_when_false, htry, bundleAfter_solo hsem]

theorem unitOf_pre {len : Nat} (h : unitOf s len = some u) : u.pre = s := by
  simp only [unitOf] at h
  (repeat' split at h) <;> cases h
  rfl

/-- The word is one of the four instructions', with its slot's meaning; `rel` says that what the thread wrote is then performed. -/
structure SoloWord (w : W64) (i : Instr) (info : SlotInfo) (m fn : Nat) (rel : Bool) : Prop where
  only : SlotOnly i m fn
  meaning : slotInfo i = some info
  major : wordMaj w = m
  function : wordFn w = fn
  decodes : decodeNative [w] = .ok (i, [])
  release : (soloSlot w i info).isRelease = rel

/-- R448: such a word, alone in its thread's bundle, completes as its row says where no check stops the slot and
its issue completes. -/
theorem SoloWord.runs {rel : Bool} {cond : U → Bool} {goes : U → W64} {eff : U → Prog} (h : SoloWord w i info m fn rel)
    (henc : ∀ u : U, u.feat 0 featVliw = true → cond (u.atSlot 0 info.g) = true → (soloSlot w i info).encodeCause u s = none)
    (hsem : ∀ u : U, u.feat 0 featVliw = true → cond (u.atSlot 0 info.g) = true →
      Completes u.next (goes (u.atSlot 0 info.g)) (eff (u.atSlot 0 info.g)) (info.sem (u.atSlot 0 info.g) s))
    (hok : (solo rel info.g cond goes eff).ok s = true) :
    exec (.bundle soloHeader [w]) s = .next ((solo rel info.g cond goes eff).next s) := by
  simp only [solo] at hok ⊢
  cases hu : unitOf s 16 with
  | none => simp [hu] at hok
  | some u =>
    simp only [hu, Bool.and_eq_true] at hok ⊢
    obtain ⟨⟨hvliw, hfeat⟩, hcond⟩ := hok
    have hdone := hsem u hfeat hcond
    have hpre : { u with pre := s } = u := by rw [← unitOf_pre hu]
    have hslots : splitSlots (rawSlots soloHeader [w]) = ([soloSlot w i info], []) := by
      rw [rawSlots_solo, splitSlots_solo h.decodes h.meaning]
    have htrap : bundleTrap u s soloHeader [w] (rawSlots soloHeader [w]) [soloSlot w i info] [] = none := by
      rw [rawSlots_solo]
      exact bundleTrap_solo h.only h.major h.function hfeat (henc u hfeat hcond) hdone
    have hcommit := h.only.commitSlots_eq (w := w) hdone ((bundleBase u s (lopOf soloHeader) [soloSlot w i info]).run s)
    rw [exec_bundle hu hvliw, issueBundle_of_commit hslots htrap (bundleWait_solo hdone)
      (by rw [h.only.bundleReads_run, hpre, h.only.commitOrder_eq h.major]; exact hcommit),
      h.only.bundleEnd_run hdone, bundleBase_solo hdone, h.release]
    simp only [Prog.run_all_cons, Prog.run_all_nil]

/-! ## The four instructions in their slots (R172, R252 to R254) -/

theorem atSlot_slot (u : U) (k : Nat) (g : Guard) : (u.atSlot k g).slot = some k := rfl

/-- R172: nothing that the source's lane still loads is read. -/
theorem semXmov_completes {f : XForm} {u : U} {k : Nat} (s : State) (hslot : u.slot = some k)
    (hreg : f.a.toNat + regCount (xmovW f) ≤ u.blk.n)
    (hready : ready u [(f.d, xmovW f), (f.b, if f.fld 1 4 == 1 then 32 else 0)] = true)
    (hfree : (u.core.loads.any fun p => p.blk == u.b && !p.sreg && u.active.any fun i => xmovSrc u f i == p.lane
      && decide (f.a.toNat < p.reg + regsOf p.w) && decide (p.reg < f.a.toNat + regCount (xmovW f))) = false) :
    semXmov f u s =
      .commit (u.put f.d (xmovW f) (u.part.map fun i => (i, (u.blk.lane (xmovSrc u f i)).regs f.a.toNat (regCount (xmovW f))))) := by
  unfold xmovW at *
  unfold xmovSrc at *
  simp only [semXmov, hslot, gt_iff_lt, Nat.not_lt.mpr hreg, if_false, need_ok _ _ _ hready, hfree, Bool.false_eq_true]

/-- The unit as the encoding checks of a slot see it: they need no lane, and no load holds them up (R96, R97). -/
def emptied (u : U) : U := { u with part := [], core := { u.core with loads := [] } }

theorem ready_emptied {u : U} {fs : List (BitVec 8 × Nat)} (h : ready u fs = true) : ready (emptied u) fs = true := by
  simp only [ready, Bool.and_eq_true] at h ⊢
  exact ⟨h.1, rfl⟩

/-- R96: the encoding checks pass where the slot's issue without lanes raises nothing. -/
theorem encodeCause_eq_none (hi : (∃ f, i = .xmov f) ∨ ∃ f, i = .modeSimt f)
    (h : ∃ q, info.sem (emptied (u.atSlot 0 info.g)) s = .commit q) : (soloSlot w i info).encodeCause u s = none := by
  obtain ⟨q, hq⟩ := h
  unfold emptied at hq
  rcases hi with ⟨f, rfl⟩ | ⟨f, rfl⟩ <;> simp only [Slot.encodeCause, soloSlot_i, soloSlot_info, soloSlot_unit, hq]

variable {r : Row}

/-- R172: a register of another lane of the thread. -/
theorem xmov_completes {f : XForm} (hrow : slotRow (.xmov f) = some (m, fn, r)) (hm : wordMaj w = m) (hfn : wordFn w = fn)
    (hdec : decodeNative [w] = .ok (.xmov f, [])) (hok : r.ok s = true) : exec (.bundle soloHeader [w]) s = .next (r.next s) := by
  cases hrow
  have hword : SoloWord w (.xmov f) ⟨f.g, semXmov f, [(f.d, xmovW f)]⟩ 0x16 0 false :=
    ⟨.xmov f, rfl, hm, hfn, hdec, by simp [Slot.isRelease, hm]⟩
  refine hword.runs ?_ ?_ hok
  · intro u hfeat hcond
    simp only [Bool.and_eq_true, decide_eq_true_eq] at hcond
    obtain ⟨⟨hreg, hready⟩, -⟩ := hcond
    exact encodeCause_eq_none (.inl ⟨f, rfl⟩)
      ⟨_, semXmov_completes (u := emptied (u.atSlot 0 f.g)) s (atSlot_slot u 0 f.g) hreg (ready_emptied hready) rfl⟩
  · intro u hfeat hcond
    simp only [Bool.and_eq_true, decide_eq_true_eq, Bool.not_eq_true'] at hcond
    obtain ⟨⟨hreg, hready⟩, hfree⟩ := hcond
    simp only [semXmov_completes s (atSlot_slot u 0 f.g) hreg hready hfree]
    exact .commit rfl

/-- R55, R252: outside every loop a thread becomes a gang. -/
theorem modeSimt_completes {f : BForm} (hrow : slotRow (.modeSimt f) = some (m, fn, r)) (hm : wordMaj w = m) (hfn : wordFn w = fn)
    (hdec : decodeNative [w] = .ok (.modeSimt f, [])) (hok : r.ok s = true) :
    exec (.bundle soloHeader [w]) s = .next (r.next s) := by
  cases hrow
  have hword : SoloWord w (.modeSimt f) ⟨f.g, semModeSimt f, []⟩ 0x2E 4 true := ⟨.modeSimt f, rfl, hm, hfn, hdec, rfl⟩
  have hopen : ∀ u : U, u.feat 0 featVliw = true → u.slot = some 0 → u.gang.loops.isEmpty = true →
      (!u.feat 0 featVliw) = false ∧ (u.slot != some 0 || !u.gang.loops.isEmpty) = false := by
    intro u hfeat hslot hloops
    simp [hfeat, hslot, hloops]
  refine hword.runs ?_ ?_ hok
  · intro u hfeat hcond
    rw [Bool.and_eq_true] at hcond
    obtain ⟨hvliw, hfirst⟩ := hopen (emptied (u.atSlot 0 f.g)) hfeat rfl hcond.1
    exact encodeCause_eq_none (.inr ⟨f, rfl⟩) ⟨.done, by simp only [semModeSimt, hvliw, hfirst, Bool.false_eq_true, if_false]; rfl⟩
  · intro u hfeat hcond
    rw [Bool.and_eq_true] at hcond
    obtain ⟨hvliw, hfirst⟩ := hopen (u.atSlot 0 f.g) hfeat rfl hcond.1
    have htakes : (u.atSlot 0 f.g).part.isEmpty = false := by simpa [takes] using hcond.2
    simp only [semModeSimt, hvliw, hfirst, htakes, Bool.false_eq_true, if_false]
    exact .goto

/-- R253: a level is pushed on a loop stack with room. -/
theorem loop_completes {f : BForm} (hrow : slotRow (.loop f) = some (m, fn, r)) (hm : wordMaj w = m) (hfn : wordFn w = fn)
    (hdec : decodeNative [w] = .ok (.loop f, [])) (hok : r.ok s = true) : exec (.bundle soloHeader [w]) s = .next (r.next s) := by
  cases hrow
  have hword : SoloWord w (.loop f) ⟨f.g, semLoop f, []⟩ 0x2E 5 false :=
    ⟨.loop f, rfl, hm, hfn, hdec, by simp [Slot.isRelease, hm]⟩
  refine hword.runs ?_ ?_ hok
  · intro u hfeat hcond
    simp only [Bool.and_eq_true] at hcond
    obtain ⟨⟨⟨hready, -⟩, -⟩, -⟩ := hcond
    have hreg : (u.atSlot 0 f.g).regOk f.a 32 = true := by
      simp only [ready, List.all_cons, List.all_nil, Bool.and_true, Bool.and_eq_true] at hready
      exact hready.1
    simp only [Slot.encodeCause, soloSlot_i, soloSlot_unit, hfeat, hreg, Bool.not_true, Bool.or_self,
      Bool.false_eq_true, if_false]
  · intro u hfeat hcond
    simp only [Bool.and_eq_true, decide_eq_true_eq] at hcond
    obtain ⟨⟨⟨hready, hoff⟩, hcount⟩, hroom⟩ := hcond
    have hvliw : (u.atSlot 0 f.g).feat 0 featVliw = true := hfeat
    simp only [semLoop, atSlot_slot, hvliw, need_ok _ _ _ hready, Int.not_le.mpr hoff, hcount, loopMax, ge_iff_le,
      Nat.not_le.mpr hroom, decide_false, Bool.not_true, Bool.false_eq_true, if_false]
    exact .goto

/-- R254: the innermost level ends. -/
theorem lend_completes {f : XForm} (hrow : slotRow (.lend f) = some (m, fn, r)) (hm : wordMaj w = m) (hfn : wordFn w = fn)
    (hdec : decodeNative [w] = .ok (.lend f, [])) (hok : r.ok s = true) : exec (.bundle soloHeader [w]) s = .next (r.next s) := by
  cases hrow
  have hword : SoloWord w (.lend f) ⟨f.g, semLend f, []⟩ 0x2F 5 false :=
    ⟨.lend f, rfl, hm, hfn, hdec, by simp [Slot.isRelease, hm]⟩
  refine hword.runs ?_ ?_ hok
  · intro u hfeat _
    simp only [Slot.encodeCause, soloSlot_i, hfeat, Bool.not_true, Bool.false_eq_true, if_false]
  · intro u hfeat hcond
    rw [Bool.and_eq_true, Bool.not_eq_true'] at hcond
    obtain ⟨htakes, hloops⟩ := hcond
    have hvliw : (u.atSlot 0 f.g).feat 0 featVliw = true := hfeat
    have hpart : (u.atSlot 0 f.g).part.isEmpty = false := by simpa [takes] using htakes
    cases hstack : (u.atSlot 0 f.g).gang.loops with
    | nil => simp [hstack] at hloops
    | cons l ls =>
      simp only [semLend, atSlot_slot, hvliw, hpart, hstack, Bool.not_true, Bool.false_eq_true, if_false]
      exact .goto

end

/-- Settles O23: a bundle is its checks and its commit, and each of the four instructions, alone in one, passes the checks and
commits. -/
theorem bundlesComplete : Obligations.BundlesComplete := by
  unfold Obligations.BundlesComplete
  refine ⟨fun _ _ _ => bundle_completes, fun i w m fn r s hrow hm hfn hdec hok => ?_⟩
  cases i
  case xmov => exact xmov_completes hrow hm hfn hdec hok
  case modeSimt => exact modeSimt_completes hrow hm hfn hdec hok
  case loop => exact loop_completes hrow hm hfn hdec hok
  case lend => exact lend_completes hrow hm hfn hdec hok
  all_goals cases hrow

/-! ## Mailboxes, launch queues and grids (R290, R291, R351, R356 to R358) -/

/-- R290: a delivery that its mailbox takes. -/
theorem mailboxDelivery_of_does {s : State} {p : Prog} (h : deliveryDoes s = some p) :
    ((mailboxDelivery s).andThen stopHalted).run s = p.run s := by
  unfold deliveryDoes at h
  unfold mailboxDelivery
  split at h
  · cases h
  · rename_i d hd
    split at h
    · rename_i q hq
      cases h
      simp [hd, hq]
    · cases h

/-- R291: a handler that its mailbox may launch. -/
theorem mailboxHandlerLaunch_of_does {s : State} {p : Prog} (h : handlerDoes s = some p) : mailboxHandlerLaunch s = p := by
  simp only [handlerDoes] at h
  unfold mailboxHandlerLaunch
  split at h
  · cases h
  · rename_i e he
    split at h
    · rename_i i r x hslots hctx
      split at h
      · cases h
      · rename_i raw hraw
        obtain ⟨hfree, rfl⟩ := onlyIf_ok h
        rw [Bool.not_eq_true'] at hfree
        simp only [he, hslots, hctx, hraw, hfree, Bool.false_eq_true, if_false]
    · cases h

/-- R351: a doorbell in range. -/
theorem qtailProg_of_does {s : State} {p : Prog} (h : qtailDoes s = some p) : qtailProg s = p := by
  obtain ⟨hok, rfl⟩ := onlyIf_ok h
  simp only [Bool.and_eq_true, decide_eq_true_eq, Option.isNone_iff_eq_none] at hok
  obtain ⟨⟨hq, hreplay⟩, hroom⟩ := hok
  have hin : ¬ (256 ≤ s.arg 0) := Nat.not_le.mpr hq
  simp only [qtailProg, ge_iff_le, hin, hreplay, decide_false, Option.isSome_none, Bool.or_self, Bool.false_eq_true,
    if_false, gt_iff_lt, Nat.not_lt.mpr hroom]

theorem onHostQueue_run_congr {q : Nat} {f g : Queue → Queue} {s : State} (h : f (s.sys.queue q) = g (s.sys.queue q)) :
    (onHostQueue q f).run s = (onHostQueue q g).run s := by
  simp only [onHostQueue, Prog.run_one, Eff.apply, h]

/-- R351: a control write of EN alone, or to a queue that is disabled and empty. -/
theorem qctlProg_of_does {s : State} {p : Prog} (h : qctlDoes s = some p) : (qctlProg s).run s = p.run s := by
  obtain ⟨hok, rfl⟩ := onlyIf_ok h
  rw [Bool.and_eq_true, decide_eq_true_eq] at hok
  obtain ⟨hq, hmay⟩ := hok
  simp only [qctlProg, ge_iff_le, if_neg (Nat.not_le.mpr hq)]
  split
  · rename_i hsame
    exact onHostQueue_run_congr (by rw [← hsame.1, ← hsame.2])
  · rename_i hother
    have hidle : (!(s.sys.queue (s.arg 0)).en && (s.sys.queue (s.arg 0)).head == (s.sys.queue (s.arg 0)).tail) = true := by
      simp only [Bool.or_eq_true, Bool.and_eq_true, beq_iff_eq] at hmay hother ⊢
      exact hmay.resolve_left hother
    rw [if_pos hidle]

/-- R351, R356: a packet that is read. -/
theorem launchPacketRead_of_does {s : State} {p : Prog} (h : packetDoes s = some p) : launchPacketRead s = p := by
  simp only [packetDoes] at h
  unfold launchPacketRead
  split at h
  · cases h
  · rename_i x hctx
    split at h
    · cases h
    · rename_i raw hraw
      obtain ⟨hok, rfl⟩ := onlyIf_ok h
      simp only [Bool.and_eq_true, Bool.not_eq_true', Option.isNone_iff_eq_none] at hok
      obtain ⟨⟨⟨hen, hnew⟩, hroom⟩, hreplay⟩ := hok
      simp [Queue.pending, hen, hnew, hroom, hreplay, hctx, hraw]

/-- R357: the steps of a completion that its notification, when it has one, still waits for or has made. -/
theorem gridCompletion_of_does {s : State} {p : Prog} (h : gridDoneDoes s = some p) :
    (gridCompletion s).run s = p.run s := by
  simp only [gridDoneDoes] at h
  unfold gridCompletion completeGrid
  split at h
  · cases h
  · rename_i g hg
    obtain ⟨hok, rfl⟩ := onlyIf_ok h
    simp only [Bool.and_eq_true, Bool.or_eq_true, bne_iff_ne, ne_eq, beq_iff_eq] at hok
    obtain ⟨⟨hover, hnot1⟩, hdue⟩ := hok
    simp only [Prog.run_read, hg, hover, Bool.not_true, Bool.false_eq_true, if_false, if_neg hnot1]
    by_cases hmade : g.notified = 2
    · simp only [if_pos hmade]
    · have hreplay : s.replayAllows g.ctx (s.depRecs (s.arg 0) g) = true := hdue.resolve_left hmade
      simp only [if_neg hmade, hreplay, Bool.not_true, Bool.false_eq_true, if_false]

/-! ## Placement, saves and tasks (R359 to R361, R371 to R373, R403) -/

/-- Events of the dies take place in a module that is LOCKED, for a die that there is. -/
theorem die_ok {s : State} {d : Nat} (hst : s.sys.st = .locked) (hd : d < 16) :
    (s.sys.st != .locked || decide (d ≥ 16)) = false := by
  rw [hst, decide_eq_false (Nat.not_le.mpr hd)]
  rfl

/-- R359, R360, R373: a unit is placed, or joins a task queue. -/
theorem unitPlacement_of_does {s : State} {p : Prog} (h : placementDoes s = some p) : unitPlacement s = p := by
  simp only [placementDoes] at h
  split at h
  · rename_i hdie
    obtain ⟨hst, hd⟩ := hdie
    split at h
    · rename_i q hplace
      cases h
      simp only [unitPlacement, die_ok hst hd, Bool.false_eq_true, if_false, hplace]
    · rename_i hplace
      split at h
      · cases h
      · rename_i hcore
        simp only [unitPlacement, die_ok hst hd, Bool.false_eq_true, if_false, hplace, if_neg hcore, h, Option.getD_some]
  · cases h

theorem any_isSome_eq_false {β γ : Type} {l : List β} {f : β → Option γ} (h : (l.all fun e => (f e).isNone) = true) :
    (l.any fun e => (f e).isSome) = false := by
  rw [List.any_eq_false]
  intro e he
  have hnone := List.all_eq_true.mp h e he
  rw [Option.isNone_iff_eq_none] at hnone
  simp [hnone]

/-- R361: a unit changes its die. -/
theorem stealRequest_of_does {s : State} {p : Prog} (h : stealDoes s = some p) : stealRequest s = p := by
  simp only [stealDoes] at h
  split at h
  · rename_i hdie
    obtain ⟨hst, hd, hnone⟩ := hdie
    obtain ⟨r, hr, rfl⟩ := Option.map_eq_some_iff.mp h
    simp only [stealRequest, die_ok hst hd, any_isSome_eq_false hnone, Bool.or_self, Bool.false_eq_true, if_false, hr]
  · cases h

/-- R41: a block of which nothing is left to do. -/
theorem blockEnd_of_does {s : State} {p : Prog}
    (h : onlyIf (s.blockOver (s.arg 0) (s.arg 1)) (endBlock (s.arg 0) (s.arg 1)) = some p) : blockEnd s = p := by
  obtain ⟨hover, rfl⟩ := onlyIf_ok h
  simp only [blockEnd, Prog.when, hover, if_true]

/-- R403: the group of a saved block resumes. -/
theorem blockResume_of_does {s : State} {p : Prog} (h : resumeDoes s = some p) : blockResume s = p := by
  simp only [resumeDoes] at h
  split at h
  · cases h
  · rename_i ctx hctx
    split at h
    · cases h
    · rename_i v hv
      split at h
      · rename_i hmay
        simp only [Bool.and_eq_true, Bool.not_eq_true'] at hmay
        obtain ⟨⟨heligible, hstop⟩, hpark⟩ := hmay
        simp only [blockResume, hctx, hv, heligible, hstop, hpark, Bool.not_true, Bool.or_self, Bool.false_eq_true, if_false, h,
          Option.getD_some]
      · cases h

/-- R371: a unit is placed in the stead of blocks of lower priority. -/
theorem preemptForPriority_of_does {s : State} {p : Prog} (h : preemptDoes s = some p) : preemptForPriority s = p := by
  simp only [preemptDoes] at h
  split at h
  · rename_i hdie
    obtain ⟨hst, hd⟩ := hdie
    simp only [preemptForPriority, die_ok hst hd, Bool.false_eq_true, if_false]
    exact congrArg (fun r : Option Prog => r.getD .done) h
  · cases h

/-- R372: a block that has been due for two milliseconds resumes. -/
theorem starvationResume_of_does {s : State} {p : Prog} (h : starvationDoes s = some p) : starvationResume s = p := by
  simp only [starvationDoes] at h
  split at h
  · cases h
  · rename_i ctx hctx
    split at h
    · cases h
    · rename_i hpark
      simp only [starvationResume, hctx, if_neg hpark]
      exact congrArg (fun r : Option Prog => r.getD .done) h

theorem run_when_any_not {β : Type} {l : List β} {f : β → Bool} (h : l.all f = true) (p : Prog) (s : State) :
    (Prog.when (l.any fun t => !f t) p).run s = s := by
  have hnone : (l.any fun t => !f t) = false := by rw [← List.not_all_eq_any_not, h]; rfl
  rw [hnone, Prog.run_when_false]

/-- R63, R65, R373: with no task that is over, the queue stays as it is and its first task that can start does. -/
theorem phaseTaskStart_of_does {s : State} {p : Prog} (h : taskDoes s = some p) : (phaseTaskStart s).run s = p.run s := by
  simp only [taskDoes] at h
  split at h
  · rename_i hlive
    simp only [phaseTaskStart, Prog.run_andThen]
    refine (congrArg (startTask (s.arg 0)).run (run_when_any_not hlive _ s)).trans ?_
    simp only [startTask, Prog.run_read, h, Option.getD_some]
  · cases h

/-- R373: the next task's storage is reserved. -/
theorem taskPreload_of_does {s : State} {p : Prog} (h : preloadDoes s = some p) : taskPreload s = p := by
  simp only [preloadDoes] at h
  split at h
  · rename_i t r horder
    obtain ⟨hok, rfl⟩ := onlyIf_ok h
    simp only [taskPreload, horder, Prog.when, hok, if_true]
  · cases h

/-- R373: a block's budget has run out and a preloaded task takes its place. -/
theorem taskBudgetExpiry_of_does {s : State} {p : Prog} (h : budgetDoes s = some p) : taskBudgetExpiry s = p := by
  simp only [budgetDoes] at h
  split at h
  · rename_i t r g horder hgrid
    split at h
    · rename_i e hexcess
      obtain ⟨hpreload, rfl⟩ := onlyIf_ok h
      rw [horder, List.head?_cons, Option.bind_some] at hgrid
      simp only [taskBudgetExpiry, horder, List.head?_cons, Option.bind_some, hgrid, hpreload, Prog.when, if_true]
      split
      · rename_i e' hexcess'
        obtain rfl : e = e' := Option.some.inj (hexcess.symm.trans hexcess')
        rfl
      · rename_i hnone
        cases hexcess.symm.trans hnone
    · cases h
  · cases h

theorem savedBase_le_iff (n : Nat) : savedBase ≤ n ↔ ¬ n < 768 := Nat.not_lt.symm

/-- R262, R263: what an examination of a monitor does. -/
theorem monitorReexamine_of_does {s : State} {p : Prog} (h : monitorDoes s = some p) : monitorReexamine s = p := by
  obtain rfl := Option.some.inj h
  simp only [monitorReexamine, ge_iff_le, savedBase_le_iff]
  by_cases hcore : s.arg 0 < 768
  · rw [if_neg (not_not_intro hcore), if_pos hcore]
    rfl
  · rw [if_pos hcore, if_neg hcore]
    rfl

/-- R262: a poll is such an examination. -/
theorem monitorPoll_of_does {s : State} {p : Prog} (h : monitorDoes s = some p) : monitorPoll s = p := monitorReexamine_of_does h

/-- R262: a deadline that has passed. -/
theorem waitcTimeout_of_does {s : State} {p : Prog} (h : timeoutDoes s = some p) : waitcTimeout s = p := by
  obtain rfl := Option.some.inj h
  simp only [waitcTimeout, ge_iff_le, savedBase_le_iff]
  by_cases hcore : s.arg 0 < 768
  · rw [if_neg (not_not_intro hcore), if_pos hcore]
  · rw [if_pos hcore, if_neg hcore]
    rfl

/-- R404: a context that does not wait, begins to wait, or has waited for 100 ms. -/
theorem deadlockWatchdog_of_does {s : State} {p : Prog} (h : watchdogDoes s = some p) : deadlockWatchdog s = p := by
  simp only [watchdogDoes] at h
  split at h
  · cases h
  · rename_i ctx hctx
    split at h
    · cases h
    · rename_i hpark
      split at h
      · rename_i hbusy
        cases h
        simp only [deadlockWatchdog, hctx, if_neg hpark, if_pos hbusy]
      · rename_i hwaits
        split at h
        · rename_i hsince
          cases h
          simp only [deadlockWatchdog, hctx, if_neg hpark, if_neg hwaits, hsince]
        · rename_i t hsince
          split at h
          · cases h
          · rename_i hlong
            cases h
            have hms : ¬ s.sys.time < t + ms 100 := hlong
            simp only [deadlockWatchdog, hctx, if_neg hpark, if_neg hwaits, hsince, if_neg hms]

/-! ## The events as the table has them -/

/-- An event whose program is the one that the row gives. -/
theorem event_ok_of_eq {does : State → Option Prog} {prog : State → Prog} {s : State} (hok : (eventRow does).ok s = true)
    (h : ∀ {p}, does s = some p → prog s = p) : runEvent prog s = .next ((eventRow does).next s) :=
  event_ok hok fun _ hdoes => by rw [h hdoes]

/-- Settles O30: each event is the program of its rule, which is the row's wherever the row's condition holds. -/
theorem placementEventsComplete : Obligations.PlacementEventsComplete := by
  unfold Obligations.PlacementEventsComplete
  intro i r s hrow hok
  rcases hrow with hmail | hplace
  · cases i
    case mailboxDelivery =>
      cases hmail
      exact event_ok (prog := fun s => (mailboxDelivery s).andThen stopHalted) hok fun _ h => mailboxDelivery_of_does h
    case mailboxHandlerLaunch => cases hmail; exact event_ok_of_eq hok mailboxHandlerLaunch_of_does
    case qtail => cases hmail; exact event_ok_of_eq hok qtailProg_of_does
    case qctl => cases hmail; exact event_ok hok fun _ h => qctlProg_of_does h
    case launchPacketRead => cases hmail; exact event_ok_of_eq hok launchPacketRead_of_does
    case gridCompletion => cases hmail; exact event_ok hok fun _ h => gridCompletion_of_does h
    all_goals cases hmail
  · cases i
    case unitPlacement => cases hplace; exact event_ok_of_eq hok unitPlacement_of_does
    case stealRequest => cases hplace; exact event_ok_of_eq hok stealRequest_of_does
    case blockEnd => cases hplace; exact event_ok_of_eq hok blockEnd_of_does
    case blockResume => cases hplace; exact event_ok_of_eq hok blockResume_of_does
    case preemptForPriority => cases hplace; exact event_ok_of_eq hok preemptForPriority_of_does
    case starvationResume => cases hplace; exact event_ok_of_eq hok starvationResume_of_does
    case phaseTaskStart => cases hplace; exact event_ok hok fun _ h => phaseTaskStart_of_does h
    case taskPreload => cases hplace; exact event_ok_of_eq hok taskPreload_of_does
    case taskBudgetExpiry => cases hplace; exact event_ok_of_eq hok taskBudgetExpiry_of_does
    case monitorReexamine => cases hplace; exact event_ok_of_eq hok monitorReexamine_of_does
    case monitorPoll => cases hplace; exact event_ok_of_eq hok monitorPoll_of_does
    case waitcTimeout => cases hplace; exact event_ok_of_eq hok waitcTimeout_of_does
    case deadlockWatchdog => cases hplace; exact event_ok_of_eq hok deadlockWatchdog_of_does
    all_goals cases hplace

end Sys2Proof.Proofs.ExecutionModel
end

