-- ==== Sys2Proof/Proofs/FormatsAssembly.lean ====
section
/-! PROOFS. Formats and decoding: a native word, a hart's word and a bundle each decode to the instruction that they encode and
encode to the words read; words of no instruction are refused by name and trap; a hart's turn runs the word in its store, and its
instructions carry out the program of effects that their row gives. -/

namespace Sys2Proof.Proofs.FormatsAssembly

open Sys2Proof.Machine Sys2Proof.Claims

/-! ## A native instruction and its words (R75 to R95) -/

/-- R257: the two forms of `BARX` differ in IMM16[15]. -/
theorem barxArv_imm {f : XForm} (h : (Instr.barxArv f).wf = true) : ¬ f.imm.getLsbD 15 = true := by
  simp only [Instr.wf, XForm.bareOk, XUse.ok, Bool.and_eq_true, beq_iff_eq] at h
  obtain ⟨-, -, himm⟩ := h
  have hzero : f.imm = 0 := BitVec.and_allOnes.symm.trans himm
  rw [hzero]
  decide

/-- A one-bit field is one when the bit it holds is set. -/
theorem fld_one (f : XForm) (l : Nat) : (f.fld 1 l == 1) = f.imm.getLsbD l := by
  have hbit : bits 1 f.imm l = BitVec.ofBool (f.imm.getLsbD l) := by
    apply BitVec.eq_of_getElem_eq
    intro i hi
    obtain rfl : i = 0 := by omega
    simp [bits]
  rw [XForm.fld, hbit]
  cases f.imm.getLsbD l <;> rfl

theorem barxExp_imm {f : XForm} (h : (Instr.barxExp f).wf = true) : f.imm.getLsbD 15 = true := by
  simp only [Instr.wf, Bool.and_eq_true] at h
  exact (fld_one f 15).symm.trans h.2

/-- R269: the two forms of `CPY` differ in IMM16[13]. -/
theorem cpyOk_imm {f : XForm} {blk : Option ParamBlock} {alloc : Bool} (h : cpyOk f blk alloc = true) :
    f.blkOk blk = true ∧ f.imm.getLsbD 13 = alloc := by
  obtain ⟨hblk, hform⟩ := Bool.and_eq_true_iff.mp h
  refine ⟨hblk, (fld_one f 13).symm.trans ?_⟩
  cases alloc with
  | true =>
    simp only [if_true, Bool.and_eq_true] at hform
    exact hform.1.1
  | false =>
    simp only [Bool.false_eq_true, if_false, Bool.and_eq_true, beq_iff_eq] at hform
    rw [hform.1]
    rfl

/-- Settles O2: by format, each instruction's opcode finds it in the table that decodes its word. -/
theorem nativeRoundTrip : Obligations.NativeRoundTrip := by
  unfold Obligations.NativeRoundTrip
  intro i rest h hne hbundle
  cases i
  case iadd f | isub f | iaddc f | imul f | imulh f | imad f | idiv f | irem f | ineg f | iabs f | imin f | imax f | icmp f
      | andR f | orR f | xorR f | andn f | notR f | shl f | shr f | sar f | rot f | bfx f | bfi f | popc f | clz f | ctz f | brev f
      | nop f | mov f | movl f | sel f | pset f | pmov f | lea f
      | fadd f | fsub f | fmul f | ffma f | fmin f | fmax f | fcmp f | fclass f | fdiv f | fsqrt f
      | frcp f | frsq f | fexp2 f | flog2 f | fsin f | fcos f | ftanh f | hadd2 f | hmul2 f | hfma2 f | dot4 f
      | cvt f | cvti f | cvtf f | rnd f | pack f | unpack f | scaleq f | bscale f | vote f | redl f | scanl f =>
    exact decodeNative_putR f rest rfl h
  case iaddImm32 f | imulImm32 f | andImm32 f | orImm32 f | xorImm32 f | shlImm32 f | shrImm32 f | sarImm32 f | rotImm32 f | movi32 f
      | iaddImm64 f | imulImm64 f | andImm64 f | orImm64 f | xorImm64 f | shlImm64 f | shrImm64 f | sarImm64 f | rotImm64 f | movi64 f
      | faddImm f | fmulImm f | fminImm f | fmaxImm f =>
    exact decodeNative_putI f rest (by decide) rfl h
  case ld f | st f | lds f | sts f | ldk f | stk f | ldc f | pref f | gath f | scat f =>
    exact decodeNative_putM f rest (by decide) (by decide) rfl h
  case barxExp f => exact decodeNative_putX f rest (by decide) (by decide) (by decide) (congrArg some (if_pos (barxExp_imm h))) h
  case barxArv f => exact decodeNative_putX f rest (by decide) (by decide) (by decide) (congrArg some (if_neg (barxArv_imm h))) h
  case shfli f | shflx f | shfld f | shfla f | bcast f | xmov f | atom f | atoms f | red f | fence f | pfence f | vjoin f | cctl f
      | talloc f | tseal f | tld f | tst f | tdrop f | tquery f | qpost f | qtake f | qadv f | qcnt f
      | mlease f | mrel f | mswap f | mzero f | mread f | mwrite f | mmeta f | mshape f | cpyw f | cpyq f | splw f | splr f | splf f
      | mbsend f | launch f | bar f | barw f | bbrot f | waitc f | qpoint f | brx f | ret f | exit f | regang f | lend f | yield f
      | sleep f | pgrant f | prels f | pgate f | trap f | hret f | brk f | probe f | docinv f | sread f | swrite f =>
    exact decodeNative_putX f rest (by decide) (by decide) (by decide) rfl h
  case mloadw f blk | mstream f blk =>
    exact decodeNative_putXB f blk rest (by decide) (by decide) (by decide) rfl rfl (Bool.and_eq_true_iff.mp h).2 h
  case cpy f blk =>
    obtain ⟨hblk, himm⟩ := cpyOk_imm h
    exact decodeNative_putXB f blk rest (by decide) (by decide) (by decide) rfl
      (congrArg some (if_neg (Bool.not_eq_true _ ▸ himm))) hblk h
  case cpyAlloc f blk =>
    obtain ⟨hblk, himm⟩ := cpyOk_imm h
    exact decodeNative_putXB f blk rest (by decide) (by decide) (by decide) rfl (congrArg some (if_pos himm)) hblk h
  case bra f | call f | rconv f | modeVliw f | modeSimt f | loop f => exact decodeNative_putB f rest rfl h
  case gsync | phase | join => rfl
  case bundle hdr ws => exact absurd rfl (hbundle hdr ws)
  all_goals exact absurd rfl hne

/-! ## Fields that follow one another -/

theorem bits_append_bits {w n m : Nat} (x : BitVec w) {h l : Nat} (hl : h = l + m) : bits n x h ++ bits m x l = bits (n + m) x l := by
  apply BitVec.eq_of_getElem_eq
  intro i hi
  simp only [bits, BitVec.getElem_append, BitVec.getElem_extractLsb']
  split
  · rfl
  · congr 1; omega

theorem bit_beq_one (x : BitVec 1) : bit (x == 1) = x := by
  revert x; decide

theorem Ty.code_of_ofCode {c : BitVec 5} {t : Ty} (h : Ty.ofCode c = some t) : t.code = c := by
  unfold Ty.ofCode at h
  split at h <;> cases h <;> rename_i hc <;> exact BitVec.eq_of_toNat_eq hc.symm

theorem Rnd.code_of_ofCode {c : BitVec 3} {r : Rnd} (h : Rnd.ofCode c = some r) : r.code = c := by
  unfold Rnd.ofCode at h
  split at h <;> cases h <;> rename_i hc <;> exact BitVec.eq_of_toNat_eq hc.symm

theorem Width.code_of_ofCode {c : BitVec 4} {w : Width} (h : Width.ofCode c = some w) : w.code = c := by
  unfold Width.ofCode at h
  split at h <;> cases h <;> rename_i hc <;> exact BitVec.eq_of_toNat_eq hc.symm

theorem Ord.code_of_ofCode {c : BitVec 3} {o : Ord} (h : Ord.ofCode c = some o) : o.code = c := by
  unfold Ord.ofCode at h
  split at h <;> cases h <;> rename_i hc <;> exact BitVec.eq_of_toNat_eq hc.symm

theorem Scope.code_ofCode (c : BitVec 2) : (Scope.ofCode c).code = c := by
  revert c; decide

theorem headR_getR {w : W64} {lx : Option W64} {f : RForm} (hlx : (bits 1 w 13 == 1) = lx.isSome) (h : getR w lx = some f) :
    headR (bits 6 w 58) (bits 8 w 46) f = w ∧ f.lx = lx := by
  unfold getR at h
  split at h
  · rename_i ty rm hty hrm
    cases h
    refine ⟨?_, rfl⟩
    simp only [headR, wordGuard, ← hlx, bit_beq_one, Ty.code_of_ofCode hty, Rnd.code_of_ofCode hrm]
    simp (disch := rfl) only [bits_append_bits]
    exact bits_whole w
  · cases h

theorem headI_getI (w : W64) : headI (bits 6 w 58) (bits 4 w 50) (getI w) = w := by
  simp only [headI, getI, wordGuard, bit_beq_one]
  simp (disch := rfl) only [bits_append_bits]
  exact bits_whole w

theorem headM_getM {w : W64} {f : MForm} (h : getM w = some f) : headM (bits 6 w 58) (bits 4 w 50) f = w := by
  unfold getM at h
  split at h
  · rename_i wd ord hwd hord
    cases h
    simp only [headM, wordGuard, bit_beq_one, Width.code_of_ofCode hwd, Ord.code_of_ofCode hord, Scope.code_ofCode]
    simp (disch := rfl) only [bits_append_bits]
    exact bits_whole w
  · cases h

theorem headX_getX (w : W64) : headX (bits 6 w 58) (bits 6 w 48) (getX w) = w := by
  simp only [headX, getX, wordGuard, bit_beq_one]
  simp (disch := rfl) only [bits_append_bits]
  exact bits_whole w

theorem headB_getB (w : W64) : headB (bits 6 w 58) (bits 6 w 48) (getB w) = w := by
  simp only [headB, getB, wordGuard, bit_beq_one]
  simp (disch := rfl) only [bits_append_bits]
  exact bits_whole w

/-! ## The instruction of an opcode is encoded with that opcode (R94, R95) -/

theorem encode_of_rOp {m n : Nat} {k : RForm → Instr} (h : rOp m n = some k) (f : RForm) :
    encodeNative (k f) = putR (BitVec.ofNat 6 m) (BitVec.ofNat 8 n) f := by
  unfold rOp at h
  split at h <;> cases h <;> rfl

theorem encode_of_iOp {m n : Nat} {k : IForm → Instr} (h : iOp m n = some k) (f : IForm) :
    encodeNative (k f) = putI (BitVec.ofNat 6 m) (BitVec.ofNat 4 n) f := by
  unfold iOp at h
  split at h <;> cases h <;> rfl

theorem encode_of_mOp {m n : Nat} {k : MForm → Instr} (h : mOp m n = some k) (f : MForm) :
    encodeNative (k f) = putM (BitVec.ofNat 6 m) (BitVec.ofNat 4 n) f := by
  unfold mOp at h
  split at h <;> cases h <;> rfl

theorem encode_of_xOp {m n : Nat} {imm : BitVec 16} {k : XForm → Instr} (h : xOp m n imm = some k) (f : XForm) :
    encodeNative (k f) = putX (BitVec.ofNat 6 m) (BitVec.ofNat 6 n) f := by
  unfold xOp at h
  generalize imm.getLsbD 15 = expects at h
  cases expects <;> split at h <;> cases h <;> rfl

theorem encode_of_xbOp {m n : Nat} {imm : BitVec 16} {k : XForm → Option ParamBlock → Instr} (h : xbOp m n imm = some k)
    (f : XForm) (blk : Option ParamBlock) : encodeNative (k f blk) = putXB (BitVec.ofNat 6 m) (BitVec.ofNat 6 n) f blk := by
  unfold xbOp at h
  generalize imm.getLsbD 13 = allocates at h
  cases allocates <;> split at h <;> cases h <;> rfl

theorem encode_of_bOp {m n : Nat} {k : BForm → Instr} (h : bOp m n = some k) (f : BForm) :
    encodeNative (k f) = putB (BitVec.ofNat 6 m) (BitVec.ofNat 6 n) f := by
  unfold bOp at h
  split at h <;> cases h <;> rfl

/-- R243, R77: the three instructions whose word has no free bit. -/
theorem encode_of_xnOp {m n : Nat} {i : Instr} (h : xnOp m n = some i) :
    encodeNative i = putX (BitVec.ofNat 6 m) (BitVec.ofNat 6 n) bareX ∧ i.wf = true := by
  unfold xnOp at h
  split at h <;> cases h <;> exact ⟨rfl, rfl⟩

theorem eq_bareX {f : XForm} (h : f.bareOk { zero := 0xFFFF } = true) : f = bareX := by
  obtain ⟨⟨pg, pn⟩, d, a, b, c, imm⟩ := f
  simp only [XForm.bareOk, XUse.ok, Use.ok, Guard.isAlways, Bool.and_eq_true, beq_iff_eq, Bool.not_eq_true'] at h
  obtain ⟨⟨rfl, rfl⟩, ⟨⟨⟨hd, ha⟩, hb⟩, hc⟩, himm⟩ := h
  obtain rfl : d = 0 := BitVec.eq_of_toNat_eq hd
  obtain rfl : a = 0 := BitVec.eq_of_toNat_eq ha
  obtain rfl : b = 0 := BitVec.eq_of_toNat_eq hb
  obtain rfl : c = 0 := BitVec.eq_of_toNat_eq hc
  obtain rfl : imm = 0 := BitVec.and_allOnes.symm.trans himm
  rfl

/-! ## What a native word that decodes was read as (R76 to R96) -/

theorem of_checked {j i : Instr} {rest tail : List W64} (h : checked j rest = .ok (i, tail)) :
    j.wf = true ∧ j = i ∧ rest = tail := by
  unfold checked at h
  split at h
  · rename_i hwf
    cases h
    exact ⟨hwf, rfl, rfl⟩
  · cases h

theorem ofNat_toNat_bits {n w l : Nat} (x : BitVec w) : BitVec.ofNat n (bits n x l).toNat = bits n x l := by
  rw [BitVec.ofNat_toNat, BitVec.setWidth_eq]

/-- The words `ws` were read as the instruction `i`: it is well formed, and `ws` is its encoding followed by `rest`. -/
def ReadAs (ws : List W64) (i : Instr) (rest : List W64) : Prop := i.wf = true ∧ ws = encodeNative i ++ rest

theorem readAs_of_checked {j i : Instr} {ws rest tail : List W64} (h : checked j rest = .ok (i, tail))
    (henc : ws = encodeNative j ++ rest) : ReadAs ws i tail := by
  obtain ⟨hwf, rfl, rfl⟩ := of_checked h
  exact ⟨hwf, henc⟩

theorem readAs_r {w : W64} {k : RForm → Instr} {lx : Option W64} {f : RForm} {i : Instr} {rest tail : List W64}
    (hk : rOp (wordMaj w) (bits 8 w 46).toNat = some k) (hlx : (bits 1 w 13 == 1) = lx.isSome) (hf : getR w lx = some f)
    (h : checked (k f) rest = .ok (i, tail)) : ReadAs (w :: (lx.toList ++ rest)) i tail := by
  refine readAs_of_checked h ?_
  obtain ⟨hhead, hfx⟩ := headR_getR hlx hf
  rw [encode_of_rOp hk, wordMaj, ofNat_toNat_bits, ofNat_toNat_bits, putR_eq, hhead, hfx, List.cons_append]

theorem readAs_i {w : W64} {k : IForm → Instr} {i : Instr} {rest tail : List W64} (hk : iOp (wordMaj w) (bits 4 w 50).toNat = some k)
    (h : checked (k (getI w)) rest = .ok (i, tail)) : ReadAs (w :: rest) i tail := by
  refine readAs_of_checked h ?_
  rw [encode_of_iOp hk, wordMaj, ofNat_toNat_bits, ofNat_toNat_bits, putI_eq, headI_getI, List.singleton_append]

theorem readAs_m {w : W64} {k : MForm → Instr} {f : MForm} {i : Instr} {rest tail : List W64}
    (hk : mOp (wordMaj w) (bits 4 w 50).toNat = some k) (hf : getM w = some f) (h : checked (k f) rest = .ok (i, tail)) :
    ReadAs (w :: rest) i tail := by
  refine readAs_of_checked h ?_
  rw [encode_of_mOp hk, wordMaj, ofNat_toNat_bits, ofNat_toNat_bits, putM_eq, headM_getM hf, List.singleton_append]

theorem readAs_x {w : W64} {k : XForm → Instr} {i : Instr} {rest tail : List W64}
    (hk : xOp (wordMaj w) (bits 6 w 48).toNat (bits 16 w 0) = some k) (h : checked (k (getX w)) rest = .ok (i, tail)) :
    ReadAs (w :: rest) i tail := by
  refine readAs_of_checked h ?_
  rw [encode_of_xOp hk, wordMaj, ofNat_toNat_bits, ofNat_toNat_bits, putX_eq, headX_getX, List.singleton_append]

/-- R92: the words of a parameter block, where there is one. -/
def blockWords (blk : Option ParamBlock) : List W64 := match blk with | some b => [b.w0, b.w1, b.w2, b.w3] | none => []

theorem readAs_xb {w : W64} {k : XForm → Option ParamBlock → Instr} {blk : Option ParamBlock} {i : Instr} {rest tail : List W64}
    (hk : xbOp (wordMaj w) (bits 6 w 48).toNat (bits 16 w 0) = some k) (h : checked (k (getX w) blk) rest = .ok (i, tail)) :
    ReadAs (w :: (blockWords blk ++ rest)) i tail := by
  refine readAs_of_checked h ?_
  rw [encode_of_xbOp hk, wordMaj, ofNat_toNat_bits, ofNat_toNat_bits]
  unfold putXB
  rw [putX_eq, headX_getX]
  rfl

theorem readAs_b {w : W64} {k : BForm → Instr} {i : Instr} {rest tail : List W64} (hk : bOp (wordMaj w) (bits 6 w 48).toNat = some k)
    (h : checked (k (getB w)) rest = .ok (i, tail)) : ReadAs (w :: rest) i tail := by
  refine readAs_of_checked h ?_
  rw [encode_of_bOp hk, wordMaj, ofNat_toNat_bits, ofNat_toNat_bits, putB_eq, headB_getB, List.singleton_append]

theorem readAs_xn {w : W64} {i : Instr} (hk : xnOp (wordMaj w) (bits 6 w 48).toNat = some i)
    (hbare : (getX w).bareOk { zero := 0xFFFF } = true) (rest : List W64) : ReadAs (w :: rest) i rest := by
  obtain ⟨henc, hwf⟩ := encode_of_xnOp hk
  refine ⟨hwf, ?_⟩
  rw [henc, wordMaj, ofNat_toNat_bits, ofNat_toNat_bits, putX_eq, ← eq_bareX hbare, headX_getX, List.singleton_append]

/-- Settles O3: each format's word is put together again from the fields that the decoder takes out of it. -/
theorem nativeWordsHaveOneMeaning : Obligations.NativeWordsHaveOneMeaning := by
  unfold Obligations.NativeWordsHaveOneMeaning
  intro ws i tail h
  change ReadAs ws i tail
  cases ws with
  | nil => cases h
  | cons w rest =>
    simp only [decodeNative] at h
    split at h
    · rename_i k hk
      split at h
      · cases h
      · rename_i imm rest hlx
        split at h
        · rename_i f hf
          exact readAs_r (lx := some imm) hk hlx hf h
        · cases h
      · rename_i hlx
        split at h
        · rename_i f hf
          exact readAs_r (lx := none) hk hlx hf h
        · cases h
    split at h
    · rename_i k hk
      exact readAs_i hk h
    split at h
    · rename_i k hk
      split at h
      · rename_i f hf
        exact readAs_m hk hf h
      · cases h
    split at h
    · rename_i k hk
      exact readAs_x hk h
    split at h
    · rename_i k hk
      split at h
      · exact readAs_xb (blk := some _) hk h
      · cases h
      · exact readAs_xb (blk := none) hk h
    split at h
    · rename_i k hk
      exact readAs_b hk h
    split at h
    · rename_i j hk
      split at h
      · rename_i hbare
        cases h
        exact readAs_xn hk hbare _
      · cases h
    · cases h

/-! ## Words of a hart (R98) -/

/-- The extension instruction of a funct3 (R98). -/
def hartOp (f3 : Nat) (f : HForm) : Instr :=
  match f3 with
  | 0 => .hcpy f | 1 => .hwait f | 2 => .halloc f | 3 => .hpost f | 4 => .hsig f | _ => .hsleep f

/-- The registers that a hart's word names. -/
def getH (w : W32) : HForm := ⟨bits 5 w 7, bits 5 w 15, bits 5 w 20⟩

theorem decodeHart_eq (w : W32) :
    decodeHart w = if hartExt w then hartOp (bits 3 w 12).toNat (getH w) else .hartBaseInstruction w := rfl

theorem f3_putH (f3 : BitVec 3) (f : HForm) : bits 3 (putH f3 f) 12 = f3 := by
  simp (disch := omega) only [putH, bits_append_hi, bits_append_lo]
  simp only [Nat.sub_self, bits_whole, Nat.reduceSub]

theorem getH_putH (f3 : BitVec 3) (f : HForm) : getH (putH f3 f) = f := by
  simp (disch := omega) only [putH, getH, bits_append_hi, bits_append_lo]
  simp only [Nat.sub_self, bits_whole, Nat.reduceSub]

theorem hartExt_putH {f3 : BitVec 3} (hf3 : f3.toNat < 6) (f : HForm) : hartExt (putH f3 f) = true := by
  have hop : bits 7 (putH f3 f) 0 = 0x0B := by
    simp (disch := omega) only [putH, bits_append_lo, bits_whole]
    rfl
  have hf7 : bits 7 (putH f3 f) 25 = 0 := by
    simp (disch := omega) only [putH, bits_append_hi]
    simp only [Nat.sub_self, bits_whole, Nat.reduceSub]
    rfl
  simp [hartExt, hop, hf7, f3_putH, hf3]

theorem decodeHart_putH {f3 : BitVec 3} (hf3 : f3.toNat < 6) (f : HForm) : decodeHart (putH f3 f) = hartOp f3.toNat f := by
  rw [decodeHart_eq, if_pos (hartExt_putH hf3 f), f3_putH, getH_putH]

theorem putH_getH {w : W32} (h : hartExt w = true) : putH (bits 3 w 12) (getH w) = w := by
  simp only [hartExt, Bool.and_eq_true, beq_iff_eq] at h
  obtain ⟨⟨hop, hf7⟩, -⟩ := h
  have hword : bits 7 w 25 ++ bits 5 w 20 ++ bits 5 w 15 ++ bits 3 w 12 ++ bits 5 w 7 ++ bits 7 w 0 = w := by
    simp (disch := rfl) only [bits_append_bits]
    exact bits_whole w
  rwa [hf7, hop] at hword

theorem encodeHart_hartOp {f3 : Nat} (hf3 : f3 < 6) (f : HForm) :
    encodeHart (hartOp f3 f) = [putH (BitVec.ofNat 3 f3) f] ∧ (hartOp f3 f).wf = true := by
  interval_cases f3 <;> exact ⟨rfl, rfl⟩

theorem decodeHart_of_encodeHart {i : Instr} {w : W32} (hwf : i.wf = true) (h : encodeHart i = [w]) : decodeHart w = i := by
  cases i
  case hcpy f | hwait f | halloc f | hpost f | hsig f | hsleep f =>
    cases h
    exact decodeHart_putH (by decide) f
  case hartBaseInstruction v =>
    cases h
    rw [decodeHart_eq, if_neg (by simpa [Instr.wf] using hwf)]
  all_goals cases h

theorem encodeHart_decodeHart (w : W32) : encodeHart (decodeHart w) = [w] ∧ (decodeHart w).wf = true := by
  rw [decodeHart_eq]
  split
  · rename_i hext
    have hf3 : (bits 3 w 12).toNat < 6 := by
      simp only [hartExt, Bool.and_eq_true, decide_eq_true_eq] at hext
      exact hext.2
    obtain ⟨henc, hwf⟩ := encodeHart_hartOp hf3 (getH w)
    rw [BitVec.ofNat_toNat, BitVec.setWidth_eq, putH_getH hext] at henc
    exact ⟨henc, hwf⟩
  · rename_i hbase
    exact ⟨rfl, by simpa [Instr.wf] using hbase⟩

/-! ## Bundles (R86, R87) -/

theorem wordMaj_eq_iff {w : W64} {m : BitVec 6} : wordMaj w = m.toNat ↔ bits 6 w 58 = m := BitVec.toNat_inj

theorem bundleOk_iff {hdr : W64} {ws : List W64} :
    (Instr.bundle hdr ws).wf = true ↔ wordMaj hdr = 0x3C ∧ ws.length = popcount (occOf hdr) := by
  change bundleOk hdr ws = true ↔ _
  simp only [bundleOk, Bool.and_eq_true, beq_iff_eq]
  exact and_congr_left fun _ => (wordMaj_eq_iff (m := 0x3C)).symm

theorem encodeNative_bundle (hdr : W64) (ws : List W64) : encodeNative (.bundle hdr ws) = hdr :: ws := rfl

theorem decodeBundle_encode {hdr : W64} {ws : List W64} (rest : List W64) (hwf : (Instr.bundle hdr ws).wf = true) :
    decodeBundle (encodeNative (.bundle hdr ws) ++ rest) = .ok (.bundle hdr ws, rest) := by
  obtain ⟨hmaj, hlen⟩ := bundleOk_iff.mp hwf
  simp only [encodeNative_bundle, List.cons_append, decodeBundle, hmaj, ← hlen, if_true, List.length_append, Nat.le_add_right,
    List.take_left, List.drop_left]

theorem of_decodeBundle {ws rest : List W64} {i : Instr} (h : decodeBundle ws = .ok (i, rest)) :
    i.wf = true ∧ ws = encodeNative i ++ rest := by
  cases ws with
  | nil => cases h
  | cons hdr tail =>
    simp only [decodeBundle] at h
    split at h
    · rename_i hmaj
      split at h
      · rename_i hlen
        cases h
        refine ⟨bundleOk_iff.mpr ⟨hmaj, List.length_take_of_le hlen⟩, ?_⟩
        simp only [encodeNative_bundle, List.cons_append, List.take_append_drop]
      · cases h
    · cases h

/-- Settles O5: a hart's word by its funct3 and registers, a bundle by its header's major and the count of its words. -/
theorem hartAndBundleRoundTrip : Obligations.HartAndBundleRoundTrip :=
  ⟨fun _ _ => decodeHart_of_encodeHart, encodeHart_decodeHart, fun _ _ rest hwf => decodeBundle_encode rest hwf,
    fun _ _ _ => of_decodeBundle⟩

/-! ## Majors that no table lists (R94, R96) -/

/-- The majors of the tables of R94 and R95 that hold an instruction of a native word. -/
def assignedMajors : List Nat :=
  [0x00, 0x01, 0x02, 0x03, 0x04, 0x08, 0x09, 0x0A, 0x0B, 0x10, 0x11, 0x14, 0x15, 0x16, 0x18, 0x19, 0x1A, 0x1B, 0x20, 0x21, 0x24,
    0x28, 0x29, 0x2A, 0x2C, 0x2E, 0x2F, 0x38, 0x39, 0x3A]

theorem xOp_eq_none {m n : Nat} {imm : BitVec 16} (h : m ∉ assignedMajors) : xOp m n imm = none := by
  have hassigned : ∀ {k}, xOp m n imm = some k → m ∈ assignedMajors := fun hk => by
    unfold xOp at hk
    split at hk <;> cases hk <;> decide
  exact Option.eq_none_iff_forall_ne_some.mpr fun k hk => h (hassigned hk)

theorem xnOp_eq_none {m n : Nat} (h : m ∉ assignedMajors) : xnOp m n = none := by
  have hassigned : ∀ {i}, xnOp m n = some i → m ∈ assignedMajors := fun hk => by
    unfold xnOp at hk
    split at hk <;> cases hk <;> decide
  exact Option.eq_none_iff_forall_ne_some.mpr fun k hk => h (hassigned hk)

/-- R96 steps 1 to 3: the word of a major that no table lists is refused by its major, whatever follows. -/
theorem decodeNative_of_not_assigned {w : W64} (h : wordMaj w ∉ assignedMajors) (rest : List W64) :
    decodeNative (w :: rest) = .error (majErr (wordMaj w)) := by
  have hsub : ∀ l : List Nat, l ⊆ assignedMajors → wordMaj w ∉ l := fun _ hl hm => h (hl hm)
  have hb : wordMaj w ≠ 0x2E := fun hm => h (by rw [hm]; decide)
  simp only [decodeNative, rOp_none (hsub _ (by decide)), iOp_none (hsub _ (by decide)), mOp_none (hsub _ (by decide)),
    xOp_eq_none h, xbOp_none (hsub _ (by decide)), bOp_none hb, xnOp_eq_none h]

theorem reserved_not_assigned {m : Nat} (h : (0x30 ≤ m ∧ m ≤ 0x37) ∨ m = 0x3E) : m ∉ assignedMajors := by
  intro hm
  have hbound : ∀ n ∈ assignedMajors, ¬ ((0x30 ≤ n ∧ n ≤ 0x37) ∨ n = 0x3E) := by decide
  exact hbound m hm h

theorem illegal_not_assigned {m : Nat} (h : m = 0x3C ∨ m = 0x3D ∨ m = 0x3F) : m ∉ assignedMajors := by
  rcases h with rfl | rfl | rfl <;> decide

theorem majErr_eq_reserved_iff {m : Nat} : majErr m = .reservedMajor ↔ (0x30 ≤ m ∧ m ≤ 0x37) ∨ m = 0x3E := by
  refine ⟨fun h => ?_, fun h => if_pos h⟩
  unfold majErr at h
  split at h
  · assumption
  · split at h <;> cases h

theorem majErr_illegal {m : Nat} (h : m = 0x3C ∨ m = 0x3D ∨ m = 0x3F) : majErr m = .illegalMajor := by
  rcases h with rfl | rfl | rfl <;> rfl

/-- The majors of R94 that the table marks with no group. -/
theorem none_not_assigned : ∀ m ∈ [0x05, 0x06, 0x07, 0x0C, 0x0D, 0x0E, 0x0F, 0x12, 0x13, 0x17, 0x1C, 0x1D, 0x1E, 0x1F, 0x22, 0x23, 0x25,
    0x26, 0x27, 0x2B, 0x2D, 0x3B], m ∉ assignedMajors ∧ majErr m = .unassigned := by
  decide

/-- Settles O6: no table lists such a major, and `majErr` names its refusal. -/
theorem reservedMajors : Obligations.ReservedMajors := by
  unfold Obligations.ReservedMajors
  have hillegal : ∀ (w : W64) (rest : List W64), wordMaj w = 0x3C ∨ wordMaj w = 0x3D ∨ wordMaj w = 0x3F →
      decodeNative (w :: rest) = .error .illegalMajor := fun w rest h => by
    rw [decodeNative_of_not_assigned (illegal_not_assigned h), majErr_illegal h]
  refine ⟨fun w rest h => ?_, hillegal, fun w rest h => ?_, fun rest => hillegal _ rest (.inr (.inr (by decide)))⟩
  · rw [decodeNative_of_not_assigned (reserved_not_assigned h), majErr_eq_reserved_iff.mpr h]
  · obtain ⟨hnone, herr⟩ := none_not_assigned _ h
    rw [decodeNative_of_not_assigned hnone, herr]

/-! ## Words of no instruction, and stopped fetches (R96, R247) -/

theorem undefinedCause_eq (vliw : Bool) (w : W64) : undefinedCause vliw w =
    if !vliw && ((decide (0x30 ≤ wordMaj w) && decide (wordMaj w ≤ 0x37)) || wordMaj w == 0x3E) then 0x02 else 0x01 := by
  have hmaj : (majErr (wordMaj w) == .reservedMajor) =
      ((decide (0x30 ≤ wordMaj w) && decide (wordMaj w ≤ 0x37)) || wordMaj w == 0x3E) := by
    rw [Bool.eq_iff_iff]
    simp only [beq_iff_eq, majErr_eq_reserved_iff, Bool.or_eq_true, Bool.and_eq_true, decide_eq_true_eq]
  rw [undefinedCause, hmaj]
  rfl

theorem issuer_ok {len : Nat} {cond : U → State → Bool} {eff : U → State → Prog} {s : State} (h : (issuer len cond eff).ok s = true) :
    ∃ u, unitOf s len = some u ∧ cond u s = true ∧ (issuer len cond eff).next s = (eff u s).run s := by
  simp only [issuer] at h ⊢
  split at h
  · rename_i u hu
    simp only [hu]
    exact ⟨u, rfl, h, rfl⟩
  · cases h

/-- Settles O24: the meanings of both are that one trap. -/
theorem undecodedWordsTrap : Obligations.UndecodedWordsTrap := by
  unfold Obligations.UndecodedWordsTrap
  refine ⟨fun w s hok => ?_, fun s hok => ?_⟩
  · obtain ⟨u, hu, -, hnext⟩ := issuer_ok hok
    refine Eq.trans ?_ (congrArg Host.Outcome.next hnext.symm)
    change execUndefinedWord w s = _
    simp only [execUndefinedWord, hu, undefinedCause_eq]
    rfl
  · obtain ⟨u, hu, hstop, hnext⟩ := issuer_ok hok
    refine Eq.trans ?_ (congrArg Host.Outcome.next hnext.symm)
    change fetchFault s = _
    simp only [fetchFault, hu]
    cases hfetch : u.fetchStop s with
    | none => simp only [hfetch, Bool.false_eq_true] at hstop
    | some r =>
      cases r with
      | trap t => rfl
      | _ => simp only [hfetch, Bool.false_eq_true] at hstop

/-! ## Words written out (R76 to R98, R311) -/

/-- Settles O1: the decoders evaluate on each word. -/
theorem decodesSpecWords : Obligations.DecodesSpecWords := by
  unfold Obligations.DecodesSpecWords
  refine ⟨rfl, rfl, rfl, rfl, rfl, rfl, rfl, rfl, rfl, rfl, rfl, rfl, rfl, rfl, rfl⟩

/-! ## The issue turn of a hart (R98, R280) -/

theorem turnOf_hart (s : State) (c : Nat) (st : Bool) : s.turnOf (.hart c st) = .hart c st := rfl

theorem clearStall_cur (x : Nat) (ctx : Context) (w : Bool) (s : State) : ((clearStall x ctx w).run s).cur = s.cur := by
  rw [clearStall, Prog.run_when]
  split <;> rfl

/-- R428: the core tags no instruction of a hart. -/
theorem tagAfter_of_hart {s : State} {c : Nat} {st : Bool} (h : s.cur = .hart c st) (i : Instr)
    (o : Host.Outcome State Fault Refusal) : tagAfter s i o = o := by
  have htag : ∀ t, s.tagged t = t := fun t => by simp only [State.tagged, unitOf, h]
  cases o
  case next t => simp only [tagAfter, htag, ite_self]
  all_goals rfl

/-- Byte `i` from a hart's PC in its store. -/
def storeByte (a : HU) (i : Nat) : Byte := a.h.store.getD (a.h.pc.toNat + i) 0

theorem low_two_bits (x y : Byte) : bits 2 (x ++ y : BitVec 16) 0 = bits 2 y 0 := bits_append_lo x y 2 0 (by decide)

/-- R280: a running hart whose next instruction lies in its store takes it from there; the low bits of its first byte say how long it
is. -/
theorem hartTurn_eq {s : State} {a : HU} {n : Nat} (hst : s.sys.st ≠ .fatal) (ha : hartOf s 0 = some a)
    (hn : (if bits 2 (storeByte a 0) 0 == 3 then 4 else 2) = n) (hin : a.h.pc.toNat + n ≤ 65536) :
    hartTurn s = ((clearStall a.h.ctx a.u.ctx (a.h.wait == .ready)).run s,
      some (if n = 2 then .hartBaseInstruction ((storeByte a 1 ++ storeByte a 0 : BitVec 16).setWidth 32)
        else decodeHart (storeByte a 3 ++ storeByte a 2 ++ storeByte a 1 ++ storeByte a 0))) := by
  have hlive : (if s.sys.st == .fatal then none else hartOf s 0) = some a := by
    rw [beq_eq_false_iff_ne.mpr hst, ha]
    rfl
  have hlow : (if bits 2 (storeByte a 1 ++ storeByte a 0 : BitVec 16) 0 == 3 then 4 else 2) = n := by rw [low_two_bits, hn]
  simp only [hartTurn, hlive, ← storeByte.eq_1, hlow, if_neg (Nat.not_lt.mpr hin), gt_iff_lt]

theorem step_of_hartTurn {s : State} {rest : List Turn} {c : Nat} {st : Bool} {x : Nat} {ctx : Context} {w : Bool} {i : Instr}
    (hagenda : s.agenda = .issue (.hart c st) :: rest)
    (h : hartTurn { s with agenda := rest, cur := .hart c st } =
      ((clearStall x ctx w).run { s with agenda := rest, cur := .hart c st }, some i)) :
    step s = exec i ((clearStall x ctx w).run { s with agenda := rest, cur := .hart c st }) := by
  have hturn : nextTurn s = hartTurn { s with agenda := rest, cur := .hart c st } := by
    simp only [nextTurn, hagenda, turnOf_hart, issueTurn]
  rw [ExecutionModel.step_of_nextTurn (hturn.trans h), tagAfter_of_hart (clearStall_cur ..)]

/-- Settles O8: the turn leaves the instruction in the store, which runs and is never tagged. -/
theorem stepRunsTheHartsInstruction : Obligations.StepRunsTheHartsInstruction := by
  unfold Obligations.StepRunsTheHartsInstruction
  intro s rest c st a r byte begun hagenda hst ha
  refine ⟨fun hlow hin => ?_, fun hlow hin => ?_⟩
  · exact step_of_hartTurn hagenda (hartTurn_eq (n := 4) hst ha (if_pos (beq_iff_eq.mpr hlow)) hin)
  · exact step_of_hartTurn hagenda (hartTurn_eq (n := 2) hst ha (if_neg (mt beq_iff_eq.mp hlow)) hin)

/-! ## The base set (R280, log 12) -/

theorem of_hartAt {a : HU} {s : State} {use : Use3} {scope : Seg → Bool} {va : W64} {n : Nat} {l : Loc}
    (h : hartAt a s use scope va n = some l) : (va.toNat % n != 0) = false ∧ a.access s use scope va n = .ok l := by
  unfold hartAt at h
  split at h
  · cases h
  · rename_i haligned
    split at h
    · rename_i hok
      cases h
      exact ⟨Bool.not_eq_true _ ▸ haligned, hok⟩
    · cases h

theorem load_of_hartAt {a : HU} {s : State} {va : W64} {n : Nat} {l : Loc} (h : hartAt a s .rd (fun _ => true) va n = some l)
    (k : Nat → Prog) :
    a.load s va n k = .read fun t =>
      let hit := a.u.hits t .global { lane := 0, ea := va.toNat, size := n }
      Prog.all [a.keep va, a.u.touch false [(va, l)], if hit then landMet (dieOf a.c) l n else mergeRead (dieOf a.c) l n,
        .read fun t => k (leNat (seeBytes t a.c a.u.b a.thr hit l n))] := by
  obtain ⟨haligned, hok⟩ := of_hartAt h
  simp only [HU.load, haligned, hok, Bool.false_eq_true, if_false]

theorem store_of_hartAt {a : HU} {s : State} {va : W64} {n : Nat} {l : Loc} (h : hartAt a s .wr (fun _ => true) va n = some l)
    (v : W64) : a.store s va n v = (a.write va l (leBytes v.toNat n)).andThen (a.on fun h => h.retire a.next) := by
  obtain ⟨haligned, hok⟩ := of_hartAt h
  simp only [HU.store, haligned, hok, Bool.false_eq_true, if_false]

/-- Bytes of an atomic by the width in its funct3. -/
def amoSize (w : W32) : Nat := if bits 3 w 12 == 2 then 4 else 8

theorem ite_eq_amoSize (w : W32) : (if bits 3 w 12 == 2 then 4 else 8) = amoSize w := rfl

/-- R430: the entries that a hart's atomic takes in the order log of its context. -/
def orderEntries (a : HU) (l : Loc) : List OrderRec :=
  if l.sp = 0 then [atomRec l.a [a.h.grid, 2 ^ 32 + 2 * a.c + (if a.st then 1 else 0), 0]] else []

theorem ite_eq_orderEntries (a : HU) (l : Loc) : (if l.sp = 0 then
    [atomRec l.a [a.h.grid, 2 ^ 32 + 2 * a.c + (if a.st then 1 else 0), 0]] else []) = orderEntries a l := rfl

theorem amo_of_hartAmo {a : HU} {s : State} {w : W32} {x y : W64} {p : Prog} (hf3 : bits 3 w 12 = 2 ∨ bits 3 w 12 = 3)
    (h : hartAmo a s w (amoSize w) x y = some p) : a.amo s w (bits 5 w 7).toNat x y = p := by
  have hwidth : (bits 3 w 12 == 2 || bits 3 w 12 == 3) = true := by simpa using hf3
  simp only [hartAmo, ite_eq_orderEntries] at h
  unfold HU.amo
  simp only [ite_eq_amoSize, ite_eq_orderEntries, hwidth]
  split at h
  · rename_i hop
    obtain ⟨hrs2, h⟩ := Option.ite_none_left_eq_some.mp h
    obtain ⟨l, hl, rfl⟩ := Option.map_eq_some_iff.mp h
    obtain ⟨haligned, hok⟩ := of_hartAt hl
    have hrs2 : bits 5 w 20 = 0 := by simpa using hrs2
    simp [hop, hrs2, haligned, hok]
  · rename_i hop
    obtain ⟨l, hl, rfl⟩ := Option.map_eq_some_iff.mp h
    obtain ⟨haligned, hok⟩ := of_hartAt hl
    simp [hop, haligned, hok]
  · rename_i hlr hsc
    obtain ⟨hop, h⟩ := Option.ite_none_left_eq_some.mp h
    obtain ⟨l, hl, h⟩ := Option.bind_eq_some_iff.mp h
    obtain ⟨haligned, hok⟩ := of_hartAt hl
    obtain ⟨hreplay, h⟩ := Option.ite_none_left_eq_some.mp h
    cases h
    have hlr : (bits 5 w 27).toNat ≠ 2 := hlr
    have hsc : (bits 5 w 27).toNat ≠ 3 := hsc
    simp [hlr, hsc, hop, haligned, hok, hreplay]

theorem csrOp_of_hartCsr {a : HU} {w : W32} {p : Prog} (h : hartCsr a w = some p) :
    (bits 3 w 12 == 0 || bits 3 w 12 == 4) = false ∧ a.csrOp w (bits 5 w 7).toNat = p := by
  simp only [hartCsr] at h
  split at h
  · cases h
  · rename_i old hold
    obtain ⟨hlegal, h⟩ := Option.ite_none_left_eq_some.mp h
    obtain ⟨hf3, hwrite⟩ := not_or.mp hlegal
    refine ⟨?_, ?_⟩
    · revert hf3
      generalize bits 3 w 12 = f3
      revert f3
      decide
    · simp only [HU.csrOp, hold, hwrite, Bool.false_eq_true, if_false]
      exact Option.some.inj h

/-- R280: what a word of the base set does where it completes is its meaning; an illegal word's report is not reached. -/
theorem run32_of_hartDoes {a : HU} {s : State} {w : W32} {p : Prog} (h : hartDoes a s w = some p) (raw : W32) :
    a.run32 s raw w = p := by
  simp only [hartDoes] at h
  split at h
  all_goals rename_i hop
  all_goals simp only [HU.run32, hop]
  -- LUI, AUIPC and JAL
  case h_1 | h_2 | h_3 => exact Option.some.inj h
  -- JALR
  case h_4 =>
    obtain ⟨hf3, h⟩ := Option.ite_none_right_eq_some.mp h
    rw [if_pos hf3]
    exact Option.some.inj h
  -- branches
  case h_5 =>
    obtain ⟨t, ht, rfl⟩ := Option.map_eq_some_iff.mp h
    simp only [ht]
  -- loads
  case h_6 =>
    obtain ⟨hf3, h⟩ := Option.ite_none_left_eq_some.mp h
    obtain ⟨l, hl, rfl⟩ := Option.map_eq_some_iff.mp h
    rw [if_neg hf3, load_of_hartAt hl]
  -- stores
  case h_7 =>
    obtain ⟨hf3, h⟩ := Option.ite_none_left_eq_some.mp h
    obtain ⟨l, hl, rfl⟩ := Option.map_eq_some_iff.mp h
    rw [if_neg hf3, store_of_hartAt hl]
  -- OP-IMM and OP
  case h_8 | h_10 =>
    obtain ⟨v, hv, rfl⟩ := Option.map_eq_some_iff.mp h
    simp only [hv]
  -- OP-IMM-32 and OP-32
  case h_9 | h_11 =>
    obtain ⟨v, hv, rfl⟩ := Option.map_eq_some_iff.mp h
    simp only [hv, Option.map_some]
  -- AMO, LR and SC
  case h_12 =>
    split at h
    · rename_i hf3
      have hword : bits 3 w 12 = 2 := BitVec.eq_of_toNat_eq hf3
      exact amo_of_hartAmo (.inl hword) (by rwa [amoSize, hword])
    · obtain ⟨hf3, h⟩ := Option.ite_none_right_eq_some.mp h
      have hword : bits 3 w 12 = 3 := BitVec.eq_of_toNat_eq hf3
      exact amo_of_hartAmo (.inr hword) (by rwa [amoSize, hword])
  -- FENCE and FENCE.I
  case h_13 =>
    split at h
    · rename_i hf3
      rw [if_pos hf3]
      exact Option.some.inj h
    · rename_i hf3
      obtain ⟨hf3', h⟩ := Option.ite_none_right_eq_some.mp h
      rw [if_neg hf3, if_pos hf3']
      exact Option.some.inj h
  -- SYSTEM
  case h_14 =>
    split at h
    case h_5 hcall hbreak hwfi hmret =>
      obtain ⟨hf3, rfl⟩ := csrOp_of_hartCsr h
      simp only [HU.system, hf3, Bool.false_eq_true, if_false]
    all_goals
      rename_i hw
      simp only [HU.system, hw]
      exact Option.some.inj h
  -- no opcode of the base set
  case h_15 => cases h

/-- R280, log 12: a word of the base set, or the one that a compressed word stands for. -/
theorem hartBaseInstruction_completes {w : W32} {s : State} (hok : (hartIf (hartLen w) (hartBase w)).ok s = true) :
    execHartBaseInstruction w s = .next ((hartIf (hartLen w) (hartBase w)).next s) := by
  refine hart_ok hok fun a p _ h => ?_
  unfold hartBase at h
  split at h
  · rename_i hlong
    have hlen : hartLen w = 4 := if_pos (beq_iff_eq.mpr hlong)
    rw [if_pos hlen, run32_of_hartDoes h]
  · rename_i hshort
    have hlen : hartLen w = 2 := if_neg (mt beq_iff_eq.mp hshort)
    obtain ⟨v, hv, h⟩ := Option.bind_eq_some_iff.mp h
    rw [hlen, if_neg (by decide), hv]
    exact run32_of_hartDoes h _

/-! ## Copies (R274) -/

/-- The conditions that both forms of a copy share, one by one. -/
structure CopyReady (u : U) (s : State) (p : Nat → Nat) (alloc con : Bool) (count part sbase : Nat) : Prop where
  right : u.copyRight = true
  legal : copyBad u p alloc con count = false
  source : sideReach u s (srcSpace p) sbase (p 1) (srcRuns p) (if con then .consume else .read) false = true
  flume : (actPost p && some part != (u.grid.flume? (p 14)).map (·.1)) = false
  room : ¬ (s.queueOf u.c u.qkey).ops.length ≥ queueMax
  count : (actBar p && decide (((s.core u.c).bar (u.copyBar p)).pend + copyTotal p > pendMax)) = false

theorem CopyReady.of_copyReady {u : U} {s : State} {p : Nat → Nat} {alloc con : Bool} {count part sbase : Nat}
    (h : copyReady u s p alloc con count part sbase = true) : CopyReady u s p alloc con count part sbase := by
  simp only [copyReady, Bool.and_eq_true, Bool.not_eq_true', decide_eq_true_eq] at h
  obtain ⟨⟨⟨⟨⟨hright, hlegal⟩, hsource⟩, hflume⟩, hroom⟩, hcount⟩ := h
  exact ⟨hright, hlegal, hsource, hflume, Nat.not_le.mpr hroom, hcount⟩

/-- R274: a copy to a place that is given is queued. -/
theorem copyOp_of_ready {u : U} {s : State} {p : Nat → Nat} {con : Bool} {count sbase dbase : Nat}
    (h : copyReady u s p false con count (hPart (dbase % 2 ^ 32)) sbase = true)
    (hdst : sideReach u s (dstSpace p) dbase (p 1) (dstRuns p) .write true = true) (part : Nat) (ker : Bool) (shapes : Prog)
    (write : Nat → Prog) :
    copyOp u s p sbase dbase false con part ker count shapes write =
      .commit (keptSides u p sbase (some dbase) (shapes.andThen (queueCopy u s p con sbase dbase (dstRuns p)))) := by
  have hready := CopyReady.of_copyReady h
  have hqueue : ∀ k, u.copySide s (srcSpace p) sbase (p 1) (srcRuns p) (if con then .consume else .read) false
      (u.copySide s (dstSpace p) dbase (p 1) (dstRuns p) .write true (.commit k)) =
        .commit (keptSides u p sbase (some dbase) k) := fun k => by
    rw [side_ok hdst, side_ok hready.source]
    rfl
  simp only [copyOp, hready.right, hready.legal, hready.flume, hready.room, hready.count, ← hqueue, Bool.not_true, Bool.false_eq_true,
    Bool.false_and, if_false]
  rfl

/-- R274, R212: a copy into a tile that is allocated at once is queued. -/
theorem copyOp_alloc_of_ready {u : U} {s : State} {p : Nat → Nat} {con : Bool} {count part sbase : Nat} {r : Part}
    (h : copyReady u s p true con count part sbase = true) (hpart : (u.parts s)[part]? = some r)
    (hlegal : allocBad r ((copyExtent p + 4095) / 4096) count = false)
    (hgrant : r.mayGrant u.hart.isSome u.c u.b u.g ((copyExtent p + 4095) / 4096) = true) (dbase : Nat) (ker : Bool) (shapes : Prog)
    (write : Nat → Prog) :
    copyOp u s p sbase dbase true con part ker count shapes write =
      .commit (keptSides u p sbase none <| Prog.all [shapes,
        onPart (clusterOf u.c) part fun r => r.unqueue u.hart.isSome u.c u.b u.g,
        allocTile (clusterOf u.c) part u.blk.ctx ((copyExtent p + 4095) / 4096) count ker u.owner u.blk.agent fun h =>
          (write h).andThen (queueCopy u s p con sbase h (dstRuns p))]) := by
  have hready := CopyReady.of_copyReady h
  simp only [copyOp, hready.right, hready.legal, hready.flume, hready.room, hready.count, hpart, hlegal, hgrant, Bool.not_true,
    Bool.false_eq_true, Bool.and_false, if_false, if_true]
  exact side_ok hready.source

/-! ## The extension instructions (R281 to R283) -/

/-- What stands for a hart where an engine takes a unit (R280, R375). -/
structure HartUnit (a : HU) : Prop where
  core : a.u.c = a.c
  hart : a.u.hart.isSome = true
  gang : a.u.g = 0
  ctx : a.u.blk.ctx = a.h.ctx
  agent : a.u.blk.agent = 0

theorem hartUnit_of_hartOf {s : State} {len : Nat} {a : HU} (h : hartOf s len = some a) : HartUnit a := by
  unfold hartOf at h
  split at h
  · rename_i c st _
    dsimp only at h
    generalize (if st then (s.core c).storer else (s.core c).loader) = k at h
    obtain ⟨-, h⟩ := Option.ite_none_left_eq_some.mp h
    split at h
    · cases h
      exact ⟨rfl, rfl, rfl, rfl, rfl⟩
    · cases h
  · cases h

theorem HartUnit.mayGrant {a : HU} (h : HartUnit a) (r : Part) (size : Nat) :
    r.mayGrant a.u.hart.isSome a.u.c a.u.b a.u.g size = r.mayGrant true a.c a.u.b 0 size := by
  rw [h.hart, h.core, h.gang]

theorem noRs2_of_zero {a : HU} {f3 : BitVec 3} {f : HForm} (h : f.rs2 = 0) (k : Prog) : a.noRs2 f3 f k = k :=
  if_pos (beq_iff_eq.mpr h)

/-- R282: a copy that its control block describes. -/
theorem hcpy_completes {f : HForm} {s : State} (hok : (hartIf 4 (hartCopy f)).ok s = true) :
    execHcpy f s = .next ((hartIf 4 (hartCopy f)).next s) := by
  refine hart_ok hok fun a p ha h => ?_
  have hunit := hartUnit_of_hartOf ha
  simp only [hartCopy] at h
  obtain ⟨l, hl, h⟩ := Option.bind_eq_some_iff.mp h
  obtain ⟨haligned, hok⟩ := of_hartAt hl
  obtain ⟨hlegal, h⟩ := Option.ite_none_left_eq_some.mp h
  obtain ⟨hrs2, hblk⟩ := not_or.mp hlegal
  rw [noRs2_of_zero (not_not.mp hrs2)]
  simp only [haligned, hok, HU.copy, hblk, Bool.false_eq_true, if_false]
  split at h
  · rename_i halloc
    obtain ⟨hcond, h⟩ := Option.ite_none_right_eq_some.mp h
    obtain ⟨hready, hpart⟩ := Bool.and_eq_true_iff.mp hcond
    split at hpart
    · rename_i r hr
      rw [Bool.and_eq_true, Bool.not_eq_true'] at hpart
      obtain ⟨hcount, hgrant⟩ := hpart
      simp only [halloc, beq_self_eq_true, if_true, copyOp_alloc_of_ready hready hr hcount ((hunit.mayGrant r _).trans hgrant),
        hunit.core, hunit.hart, hunit.gang, hunit.ctx, hunit.agent]
      exact Option.some.inj h
    · cases hpart
  · rename_i halloc
    obtain ⟨hcond, h⟩ := Option.ite_none_right_eq_some.mp h
    obtain ⟨hready, hdst⟩ := Bool.and_eq_true_iff.mp hcond
    simp only [beq_eq_false_iff_ne.mpr halloc, Bool.false_eq_true, if_false, copyOp_of_ready hready hdst]
    exact Option.some.inj h

/-- R281: a wait for a copy queue that has emptied far enough. -/
theorem hwait_completes {f : HForm} {s : State} (hok : (hartIf 4 (hartAwait f)).ok s = true) :
    execHwait f s = .next ((hartIf 4 (hartAwait f)).next s) := by
  refine hart_ok hok fun a p _ h => ?_
  obtain ⟨⟨hrs2, hmax, hle⟩, h⟩ := Option.ite_none_right_eq_some.mp h
  rw [noRs2_of_zero hrs2]
  dsimp only
  rw [if_pos (le_min hle hmax)]
  exact Option.some.inj h

/-- R281: a tile that may be granted at once. -/
theorem halloc_completes {f : HForm} {s : State} (hok : (hartIf 4 (hartAlloc f)).ok s = true) :
    execHalloc f s = .next ((hartIf 4 (hartAlloc f)).next s) := by
  refine hart_ok hok fun a p _ h => ?_
  simp only [hartAlloc] at h
  split at h
  · cases h
  · rename_i q hq
    obtain ⟨⟨hy, hcount, hgrant⟩, h⟩ := Option.ite_none_right_eq_some.mp h
    rw [Bool.not_eq_true'] at hcount
    simp only [hq, hcount, hgrant, decide_eq_false (Nat.not_le.mpr hy), ge_iff_le, Bool.or_false, Bool.false_eq_true, if_false, if_true]
    exact Option.some.inj h

/-- R281: a tile of the hart's own that is WRITING is sealed first. -/
theorem hpost_completes {f : HForm} {s : State} (hok : (hartIf 4 (hartPost f)).ok s = true) :
    execHpost f s = .next ((hartIf 4 (hartPost f)).next s) := by
  refine hart_ok hok fun a p _ h => ?_
  simp only [hartPost] at h
  split at h
  · cases h
  · rename_i part ncur hflume
    obtain ⟨⟨hpart, hroom, hmine⟩, h⟩ := Option.ite_none_right_eq_some.mp h
    rw [Bool.not_eq_true'] at hroom
    simp only [hflume, hpart, hroom, bne_self_eq_false, Bool.false_eq_true, if_false]
    cases hseal : tileCheck (a.u.parts s) a.u.owner ((a.h.reg f.rs1.toNat).toNat % 2 ^ 32) .seal with
    | inr t =>
      simp only [hseal] at h
      exact Option.some.inj h
    | inl cause =>
      simp only [hseal, Bool.false_or] at h hmine
      split at hmine
      · rename_i t hpost
        simp only [hpost]
        exact Option.some.inj h
      · cases hmine

/-- R281, R290: a message that its mailbox takes. -/
theorem hsig_completes {f : HForm} {s : State} (hok : (hartIf 4 (hartSend f)).ok s = true) :
    execHsig f s = .next ((hartIf 4 (hartSend f)).next s) := by
  refine hart_ok hok fun a p _ h => ?_
  simp only [hartSend] at h
  split at h
  · rename_i r hmail
    simp only [hmail]
    exact Option.some.inj h
  · cases h

/-- R283: a sleep of no length, one that has ended, and one that begins. -/
theorem hsleep_completes {f : HForm} {s : State} (hok : (hartIf 4 (hartSleep f)).ok s = true) :
    execHsleep f s = .next ((hartIf 4 (hartSleep f)).next s) := by
  refine hart_ok hok fun a p _ h => ?_
  simp only [hartSleep] at h
  obtain ⟨hrs2, h⟩ := Option.ite_none_left_eq_some.mp h
  rw [noRs2_of_zero (not_not.mp hrs2)]
  dsimp only
  split at h
  · rename_i hn
    rw [if_pos hn]
    exact Option.some.inj h
  · rename_i hn
    rw [if_neg hn]
    cases hwait : a.h.wait
    case hsleep due =>
      simp only [hwait] at h ⊢
      obtain ⟨hends, h⟩ := Option.ite_none_right_eq_some.mp h
      rw [if_pos hends]
      exact Option.some.inj h
    all_goals
      simp only [hwait] at h ⊢
      exact Option.some.inj h

/-- Settles O28: each instruction of a hart carries out its row's program. -/
theorem hartsComplete : Obligations.HartsComplete := by
  unfold Obligations.HartsComplete
  intro i r s hrow hok
  cases i
  case hartBaseInstruction w => cases hrow; exact hartBaseInstruction_completes hok
  case hcpy f => cases hrow; exact hcpy_completes hok
  case hwait f => cases hrow; exact hwait_completes hok
  case halloc f => cases hrow; exact halloc_completes hok
  case hpost f => cases hrow; exact hpost_completes hok
  case hsig f => cases hrow; exact hsig_completes hok
  case hsleep f => cases hrow; exact hsleep_completes hok
  all_goals cases hrow

end Sys2Proof.Proofs.FormatsAssembly
end

