-- ==== Sys2Proof/Proofs/NumberFormats.lean ====
section
/-! PROOFS. The comparison of FP32 values (R109, R153): a magnitude in units of the least subnormal grows strictly with the bits
that encode it, so that values stand in the order of their encodings under their signs; and what an instruction that writes a
predicate leaves in a lane. -/

namespace Sys2Proof.Proofs.NumberFormats

open Sys2Proof.Machine Sys2Proof.Claims Sys2Proof.Proofs.MachineState

/-! ## An R-format instruction that is ready (R78, R84, R129) -/

/-- What the lane operation reads in lane `j`. -/
def laneIn (l : LaneOp) (u : U) (j : Nat) : In :=
  { a := u.rd j l.a l.o.wa, b := match l.imm with | some x => x.toNat | none => u.rd j l.b l.o.wb, c := u.rd j l.c l.o.wc,
    d := if l.o.rdD then u.rd j l.d l.o.wd else 0, p := (u.blk.lane j).pred, rnd := u.rnd j }

theorem mem_laneResults (l : LaneOp) {u : U} {j : Nat} (hj : j ∈ u.part) : (j, l.o.fn (laneIn l u j)) ∈ laneResults l u :=
  List.mem_map_of_mem hj

/-- The unit that issues stands in the state, and each of its slices and lanes counts once. -/
theorem rReady_unit {f : RForm} {wd wa wb wc : Nat} {s : State} {u : U} (h : rReady f wd wa wb wc s u) :
    s.block? u.c u.b = some u.blk ∧ u.members.Nodup ∧ u.part.Nodup := by
  obtain ⟨v, hv, -, rfl, -⟩ := h
  obtain ⟨hblk, -, hms⟩ := lane_unit hv
  exact ⟨hblk, hms, unit_part_nodup hv f.g⟩

/-- An operation that takes no words of stochastic rounding completes with its own effects. -/
theorem exec_of_rReady {i : Instr} {f : RForm} {o : AluOp} {s : State} {u : U}
    (hlane : intLane i = some (rLane f o) ∨ fpLane i = some (rLane f o)) (hrill : o.rill = false)
    (h : rReady f o.wd o.wa o.wb o.wc s u) : exec i s = .next ((laneProg (rLane f o) u).run s) := by
  obtain ⟨v, hv, hsimt, rfl, hready⟩ := h
  have hv' : unitOf s (rLane f o).len = some v := hv
  have hok : (rLane f o).row.ok s = true := by
    simp only [LaneOp.row, simt, hv', hsimt, show (rLane f o).o.rill = false from hrill, Bool.not_false, Bool.true_and,
      Bool.true_or, Bool.and_true]
    exact Bool.and_eq_true_iff.mpr ⟨hready, rfl⟩
  exact (exec_lane_frame hlane hok hv').1

/-! ## A lane after a predicate is written (R14, R26) -/

theorem laneProg_lane (l : LaneOp) {u : U} {s : State} (hblk : s.block? u.c u.b = some u.blk) (hms : u.members.Nodup) :
    ∃ b, ((laneProg l u).run s).block? u.c u.b = some b ∧ ∀ j, b.lane j = (laneWritten l u).lane j := by
  refine ⟨_, laneProg_block l hblk, fun j => ?_⟩
  rw [advanced_eq _ _ hms]
  rfl

theorem setPred_pred_same (l : Lane) {p : Nat} (hp : p < 8) (v : Bool) :
    (l.setPred p v).pred p = if p = 7 then true else v := by
  unfold Lane.setPred Lane.pred
  by_cases h : p = 7
  · simp [h]
  · have hlt : p < 7 := by omega
    rw [if_neg (by omega), if_neg h]
    cases v <;> simp [h, hlt]

/-- An operation without a destination register writes its predicates and raises its flags, lane by lane. -/
theorem laneWritten_lane {l : LaneOp} {u : U} (hwd : l.o.wd = 0) (hn : u.part.Nodup) {j : Nat} (hj : j ∈ u.part)
    (hlen : j < u.blk.lanes.length) {x : Res} (hx : l.o.fn (laneIn l u j) = x) :
    (laneWritten l u).lane j = (x.preds.foldl (fun l q => l.setPred q.1 q.2) (u.blk.lane j)).raise x.flags := by
  have hput : u.putBlock l.d l.o.wd ((laneResults l u).map fun e => (e.1, e.2.val)) u.blk = u.blk := if_pos hwd
  have hres : (j, x) ∈ laneResults l u := hx ▸ mem_laneResults l hj
  unfold laneWritten U.commitRes
  rw [hput]
  exact foldl_modLane_at (laneResults l u) (·.1)
    (fun e l => (e.2.preds.foldl (fun l q => l.setPred q.1 q.2) l).raise e.2.flags) u.blk
    (by rwa [laneResults_lanes]) (j, x) hres hlen

/-! ## FP32 magnitudes (R108, R109) -/

/-- The finite magnitude that 31 bits encode, in units of 2 ^ -149. -/
def f32Units (m : Nat) : Nat := if m < 2 ^ 23 then m else (2 ^ 23 + m % 2 ^ 23) * 2 ^ (m / 2 ^ 23 - 1)

theorem f32Units_subnormal {m : Nat} (h : m < 2 ^ 23) : f32Units m = m := if_pos h

theorem f32Units_normal {e r : Nat} (hr : r < 2 ^ 23) : f32Units (2 ^ 23 * (e + 1) + r) = (2 ^ 23 + r) * 2 ^ e := by
  have hquot : (2 ^ 23 * (e + 1) + r) / 2 ^ 23 = e + 1 := by omega
  have hrem : (2 ^ 23 * (e + 1) + r) % 2 ^ 23 = r := by omega
  rw [f32Units, if_neg (by omega), hquot, hrem, Nat.add_sub_cancel]

/-- The next encoding stands for a greater magnitude: a subnormal's, the same exponent's, or the next exponent's. -/
theorem f32Units_lt_succ (m : Nat) : f32Units m < f32Units (m + 1) := by
  by_cases hsub : m < 2 ^ 23
  · rw [f32Units_subnormal hsub]
    by_cases hnext : m + 1 < 2 ^ 23
    · rw [f32Units_subnormal hnext]
      exact Nat.lt_succ_self m
    · obtain rfl : m = 2 ^ 23 - 1 := by omega
      decide
  · obtain ⟨e, r, hr, rfl⟩ : ∃ e r, r < 2 ^ 23 ∧ m = 2 ^ 23 * (e + 1) + r :=
      ⟨m / 2 ^ 23 - 1, m % 2 ^ 23, by omega, by omega⟩
    rw [f32Units_normal hr]
    by_cases hsame : r + 1 < 2 ^ 23
    · rw [Nat.add_assoc, f32Units_normal hsame]
      exact Nat.mul_lt_mul_of_pos_right (by omega) (by positivity)
    · have hnext : 2 ^ 23 * (e + 1) + r + 1 = 2 ^ 23 * (e + 1 + 1) + 0 := by omega
      rw [hnext, f32Units_normal (by decide), Nat.pow_succ]
      have hpos : 0 < 2 ^ e := by positivity
      obtain rfl : r = 2 ^ 23 - 1 := by omega
      omega

theorem f32Units_strictMono : StrictMono f32Units := strictMono_nat_of_lt_succ f32Units_lt_succ

/-! ## The value of an FP32 encoding (R108, R109) -/

/-- The value has the sign `neg` and the magnitude that the 31 bits `m` encode: a number, or the infinity above them all. -/
def Encodes (neg : Bool) (m : Nat) : FVal → Prop
  | .nan _ => False
  | .inf s => s = neg ∧ m = 255 * 2 ^ 23
  | .fin s a b => s = neg ∧ m < 255 * 2 ^ 23 ∧ 0 < b ∧ a * 2 ^ 149 = f32Units m * b

theorem encodes_dyadic {neg : Bool} {m n e : Nat} (hm : m < 255 * 2 ^ 23) (hunits : f32Units m = n * 2 ^ e) :
    Encodes neg m (dyadic neg n ((e : Int) - 149)) := by
  unfold dyadic
  split
  · have hexp : ((e : Int) - 149).toNat + 149 = e := by omega
    refine ⟨rfl, hm, Nat.one_pos, ?_⟩
    rw [hunits, Nat.mul_assoc, ← Nat.pow_add, hexp, Nat.mul_one]
  · have hexp : e + (-((e : Int) - 149)).toNat = 149 := by omega
    refine ⟨rfl, hm, by positivity, ?_⟩
    rw [hunits, Nat.mul_assoc, ← Nat.pow_add, hexp]

/-- `fdec` at FP32, by the exponent's and the mantissa's bits. -/
theorem fdec_f32 (x : Nat) : fdec .f32 x =
    if x / 2 ^ 23 % 256 = 255 then
      (if x % 2 ^ 23 = 0 then .inf (x.testBit 31) else .nan (decide (x % 2 ^ 23 < 2 ^ 22)))
    else if x / 2 ^ 23 % 256 = 0 then
      (if x % 2 ^ 23 = 0 then .zero (x.testBit 31) else dyadic (x.testBit 31) (x % 2 ^ 23) (-149))
    else dyadic (x.testBit 31) (2 ^ 23 + x % 2 ^ 23) ((x / 2 ^ 23 % 256 : Nat) - 127 - 23) := by
  have hspecial : (true && x / 2 ^ 23 % 2 ^ 8 == 2 ^ 8 - 1) = true ↔ x / 2 ^ 23 % 256 = 255 := by
    simp
  have hsign : (x / 2 ^ (23 + 8) % 2 == 1) = x.testBit 31 := (Nat.testBit_eq_decide_div_mod_eq (i := 31)).symm
  exact if_congr hspecial (by rw [← hsign]; rfl) (by rw [← hsign]; rfl)

theorem fdec_f32_nan {x : Nat} (h : f32Nan x = true) : fdec .f32 x = .nan (!x.testBit 22) := by
  simp only [f32Nan, Bool.and_eq_true, beq_iff_eq, bne_iff_ne] at h
  obtain ⟨hexp, hman⟩ := h
  rw [fdec_f32, if_pos hexp, if_neg hman, Nat.testBit_eq_decide_div_mod_eq, ← decide_not]
  congr 2
  have hquiet : x % 2 ^ 23 < 2 ^ 22 ↔ ¬ x / 2 ^ 22 % 2 = 1 := by omega
  exact propext hquiet

/-- R108, R109: what is no NaN is the value that its bits encode. -/
theorem encodes_fdec_f32 {x : Nat} (h : f32Nan x = false) : Encodes (x.testBit 31) (x % 2 ^ 31) (fdec .f32 x) := by
  have hbits : x % 2 ^ 31 = 2 ^ 23 * (x / 2 ^ 23 % 256) + x % 2 ^ 23 := by omega
  have hman : x % 2 ^ 23 < 2 ^ 23 := Nat.mod_lt _ (by decide)
  have hexp : x / 2 ^ 23 % 256 < 256 := Nat.mod_lt _ (by decide)
  simp only [f32Nan, Bool.and_eq_false_imp, beq_iff_eq, bne_eq_false_iff_eq] at h
  rw [fdec_f32, hbits]
  generalize x / 2 ^ 23 % 256 = e at *
  generalize x % 2 ^ 23 = m at *
  by_cases hinf : e = 255
  · rw [if_pos hinf, if_pos (h hinf), hinf, h hinf]
    exact ⟨rfl, rfl⟩
  rw [if_neg hinf]
  by_cases hsub : e = 0
  · subst hsub
    rw [if_pos rfl, Nat.mul_zero, Nat.zero_add]
    split
    case isTrue hzero =>
      subst hzero
      exact ⟨rfl, by decide, Nat.one_pos, rfl⟩
    case isFalse =>
      exact encodes_dyadic (e := 0) (by omega) (by rw [f32Units_subnormal hman, Nat.pow_zero, Nat.mul_one])
  · obtain ⟨k, rfl⟩ := Nat.exists_eq_succ_of_ne_zero hsub
    rw [if_neg hsub, show ((k.succ : Nat) : Int) - 127 - 23 = (k : Int) - 149 by omega]
    exact encodes_dyadic (by omega) (f32Units_normal hman)

/-! ## The order of FP32 values (R153) -/

/-- A strictly increasing measure of magnitudes orders them under their signs as the magnitudes themselves. -/
theorem sInt_lt_iff {g : Nat → Nat} (hg : StrictMono g) (hzero : g 0 = 0) (s t : Bool) (m n : Nat) :
    sInt s (g m) < sInt t (g n) ↔ sInt s m < sInt t n := by
  have hmn := hg.lt_iff_lt (a := m) (b := n)
  have hnm := hg.lt_iff_lt (a := n) (b := m)
  have hm := hg.lt_iff_lt (a := 0) (b := m)
  have hn := hg.lt_iff_lt (a := 0) (b := n)
  cases s <;> cases t <;> simp only [sInt, Bool.false_eq_true, ↓reduceIte] <;> omega

theorem sInt_mul_lt_iff {k : Nat} (hk : 0 < k) (s t : Bool) (m n : Nat) :
    sInt s (m * k) < sInt t (n * k) ↔ sInt s m < sInt t n :=
  sInt_lt_iff (g := (· * k)) (fun _ _ h => Nat.mul_lt_mul_of_pos_right h hk) (Nat.zero_mul k) s t m n

/-- Two fractions compare as their numerators over a common denominator. -/
theorem fLt_fin_iff {s t : Bool} {m n a b c d : Nat} (hb : 0 < b) (hd : 0 < d) (hm : a * 2 ^ 149 = f32Units m * b)
    (hn : c * 2 ^ 149 = f32Units n * d) : sInt s (a * d) < sInt t (c * b) ↔ sInt s m < sInt t n := by
  have hleft : a * d * 2 ^ 149 = f32Units m * (b * d) := by rw [Nat.mul_right_comm, hm, Nat.mul_assoc]
  have hright : c * b * 2 ^ 149 = f32Units n * (b * d) := by rw [Nat.mul_right_comm, hn, Nat.mul_assoc, Nat.mul_comm d b]
  rw [← sInt_mul_lt_iff (k := 2 ^ 149) (by positivity), hleft, hright, sInt_mul_lt_iff (Nat.mul_pos hb hd),
    sInt_lt_iff f32Units_strictMono rfl]

theorem fLt_of_encodes {s t : Bool} {m n : Nat} {x y : FVal} (hx : Encodes s m x) (hy : Encodes t n y) :
    fLt x y = decide (sInt s m < sInt t n) := by
  cases x with
  | nan => exact hx.elim
  | inf p =>
    obtain ⟨rfl, rfl⟩ := hx
    cases y with
    | nan => exact hy.elim
    | inf q =>
      obtain ⟨rfl, rfl⟩ := hy
      revert p q
      decide
    | fin q =>
      obtain ⟨rfl, hn, -, -⟩ := hy
      cases p <;> cases q <;> simp [fLt, sInt] <;> omega
  | fin p =>
    obtain ⟨rfl, hm, hb, ha⟩ := hx
    cases y with
    | nan => exact hy.elim
    | inf q =>
      obtain ⟨rfl, rfl⟩ := hy
      cases p <;> cases q <;> simp [fLt, sInt] <;> omega
    | fin =>
      obtain ⟨rfl, -, hd, hc⟩ := hy
      exact decide_eq_decide.mpr (fLt_fin_iff hb hd ha hc)

theorem not_nan_of_encodes {s : Bool} {m : Nat} {x : FVal} (h : Encodes s m x) : x.isNan = false ∧ x.isSig = false := by
  cases x with
  | nan => exact h.elim
  | inf | fin => exact ⟨rfl, rfl⟩

theorem isNan_fdec_f32 (x : Nat) : (fdec .f32 x).isNan = f32Nan x := by
  cases h : f32Nan x
  · exact (not_nan_of_encodes (encodes_fdec_f32 h)).1
  · rw [fdec_f32_nan h]; rfl

theorem isSig_fdec_f32 (x : Nat) : (fdec .f32 x).isSig = f32Signals x := by
  unfold f32Signals
  cases h : f32Nan x
  · exact (not_nan_of_encodes (encodes_fdec_f32 h)).2
  · rw [fdec_f32_nan h]; rfl

theorem fLt_fdec_f32 {x y : Nat} (hx : f32Nan x = false) (hy : f32Nan y = false) :
    fLt (fdec .f32 x) (fdec .f32 y) = decide (f32Key x < f32Key y) :=
  fLt_of_encodes (encodes_fdec_f32 hx) (encodes_fdec_f32 hy)

theorem fEq_fdec_f32 {x y : Nat} (hx : f32Nan x = false) (hy : f32Nan y = false) :
    fEq (fdec .f32 x) (fdec .f32 y) = (f32Key x == f32Key y) := by
  rw [fEq, isNan_fdec_f32, isNan_fdec_f32, hx, hy, fLt_fdec_f32 hx hy, fLt_fdec_f32 hy hx, Bool.eq_iff_iff, beq_iff_eq]
  simp only [Bool.not_false, Bool.true_and, Bool.and_eq_true, Bool.not_eq_true', decide_eq_false_iff_not, Int.not_lt]
  omega

theorem fLe_fdec_f32 {x y : Nat} (hx : f32Nan x = false) (hy : f32Nan y = false) :
    (fLt (fdec .f32 x) (fdec .f32 y) || fEq (fdec .f32 x) (fdec .f32 y)) = decide (f32Key x ≤ f32Key y) := by
  rw [fLt_fdec_f32 hx hy, fEq_fdec_f32 hx hy, Bool.eq_iff_iff, Bool.or_eq_true, beq_iff_eq, decide_eq_true_eq, decide_eq_true_eq]
  omega

theorem fEq_comm (x y : FVal) : fEq x y = fEq y x := by
  unfold fEq
  ac_rfl

/-- The eight codes at FP32, by the encodings. -/
theorem fcmpCode_fdec_f32 (cc a b : Nat) :
    fcmpCode cc (fdec .f32 a) (fdec .f32 b) =
      let un := f32Nan a || f32Nan b
      match cc with
      | 0 => !un && f32Key a == f32Key b
      | 1 => un || f32Key a != f32Key b
      | 2 => !un && decide (f32Key a < f32Key b)
      | 3 => !un && decide (f32Key a ≤ f32Key b)
      | 4 => !un && decide (f32Key b < f32Key a)
      | 5 => !un && decide (f32Key b ≤ f32Key a)
      | 6 => un
      | _ => !un := by
  unfold fcmpCode
  simp only [isNan_fdec_f32]
  cases hun : f32Nan a || f32Nan b
  case true => rfl
  case false =>
    obtain ⟨ha, hb⟩ := Bool.or_eq_false_iff.mp hun
    have hge := fLe_fdec_f32 hb ha
    rw [fEq_comm] at hge
    rw [fLe_fdec_f32 ha hb, hge, fEq_fdec_f32 ha hb, fLt_fdec_f32 ha hb, fLt_fdec_f32 hb ha]
    rfl

theorem sigFlag_fdec_f32 (a b : Nat) :
    sigFlag [fdec .f32 a, fdec .f32 b] = if f32Signals a || f32Signals b then 1 else 0 := by
  simp [sigFlag, isSig_fdec_f32, fNV]

/-! ## `FCMP` -/

theorem fcmp_wf {f : RForm} (h : (Instr.fcmp f).wf = true) : f.d.toNat < 8 ∧ f.xm.toNat < 8 := by
  have hok : RUse.ok { types := [.f32], d := .pred, a := .reg 32, b := .reg 32, lx := true, xms := 8 } f = true := h
  simp only [RUse.ok, Use.ok, Bool.and_eq_true, decide_eq_true_eq] at hok
  omega

/-- R153: what `FCMP` leaves in a lane that takes part. -/
theorem fcmp_lane {f : RForm} {s : State} {u : U} (h : rReady f 0 32 32 0 s u) :
    ∃ t b, exec (.fcmp f) s = .next t ∧ t.block? u.c u.b = some b ∧ ∀ j ∈ u.part, j < u.blk.lanes.length →
      b.lane j = ((u.blk.lane j).setPred f.d.toNat
        (fcmpCode f.xm.toNat (fdec .f32 (u.rd j f.a 32)) (fdec .f32 (rB u f j 32)))).raise
        (sigFlag [fdec .f32 (u.rd j f.a 32), fdec .f32 (rB u f j 32)]) := by
  obtain ⟨hblk, hms, hpart⟩ := rReady_unit h
  obtain ⟨b, hb, hlane⟩ := laneProg_lane (rLane f (opFcmp f.xm.toNat f.d.toNat)) hblk hms
  refine ⟨_, b, exec_of_rReady (.inr rfl) rfl h, hb, fun j hj hlen => ?_⟩
  rw [hlane, laneWritten_lane rfl hpart hj hlen rfl]
  rfl

/-- Settles O41: values stand in the order of their encodings, and one predicate and the flags are written in each lane. -/
theorem floatCompare : Obligations.FloatCompare := by
  unfold Obligations.FloatCompare
  intro f hwf
  obtain ⟨hd, hxm⟩ := fcmp_wf hwf
  refine ⟨hd, hxm, fun s u hready => ?_⟩
  obtain ⟨t, b, hexec, hb, hlane⟩ := fcmp_lane hready
  refine ⟨t, hexec, ⟨b, hb, fun j hj hlen => ?_⟩, b, hb, fun j hj hlen => ?_⟩
  · rw [hlane j hj hlen]
    refine (setPred_pred_same (u.blk.lane j) hd _).trans ?_
    exact if_congr Iff.rfl rfl (fcmpCode_fdec_f32 ..)
  · rw [hlane j hj hlen, ← sigFlag_fdec_f32, ← setPred_fp (u.blk.lane j)]
    rfl

end Sys2Proof.Proofs.NumberFormats
end

