-- ==== Sys2Proof/Proofs/LaneArithmetic.lean ====
section
/-! PROOFS. Lane arithmetic: the exchanges, each completing where its groups fit the block; and the integer instructions, whose
destinations receive in each lane the value of the lane operation, which is the value that the rule's formula gives, bit by bit or as
an exact integer. -/

namespace Sys2Proof.Proofs.LaneArithmetic

open Sys2Proof.Machine Sys2Proof.Claims Sys2Proof.Proofs.MachineState Sys2Proof.Proofs.ExecutionModel
  Sys2Proof.Proofs.NumberFormats

/-! ## Exchanges, votes and reductions (R168 to R171) -/

/-- R132, R133: a group form of SIMT code whose groups fit the block means its own effect. -/
theorem groupSem_of_fits {gw : Nat} {fs : List (BitVec 8 × Nat)} {k : U → Issue} {u : U} (s : State) (hslot : u.slot = none)
    (hfits : (u.part.isEmpty || decide (gw ≤ u.blk.width)) = true) (hready : ready u fs = true) : groupSem gw fs k u s = k u := by
  have hwide : (!u.part.isEmpty && decide (gw > u.blk.width)) = false := by
    rw [← Bool.not_eq_true', Bool.not_and, Bool.not_not, ← decide_not]
    simpa only [gt_iff_lt, Nat.not_lt] using hfits
  simp only [groupSem, hslot, Option.isSome_none, Bool.false_eq_true, if_false, need_ok _ _ _ hready, hwide]

/-- R169: a shuffle of any of the five forms. -/
theorem shuffle_completes {f : XForm} {wb : Nat} {b : BitVec 8} {src : Nat → Nat → Int} {s : State}
    (hok : (shuffleRow f wb b src).ok s = true) :
    runX f (shuffle (shflW f) (shflG f) wb f.d f.a b src) s = .next ((shuffleRow f wb b src).next s) := by
  refine runSimt_of_carries hok fun u hslot hcond => ?_
  obtain ⟨hfits, hready⟩ := Bool.and_eq_true_iff.mp hcond
  rw [shuffle, groupSem_of_fits s hslot hfits hready]
  rfl

/-- R170: the mask goes to a register, any other answer to a predicate. -/
theorem vote_completes {f : RForm} {s : State} (hok : (voteRow f).ok s = true) : execVote f s = .next ((voteRow f).next s) := by
  simp only [voteRow] at hok ⊢
  refine runSimt_of_carries hok fun u hslot hready => ?_
  simp only [semVote, voteSem, hslot, Option.isSome_none, Bool.false_eq_true, if_false, need_ok _ _ _ hready, thenNext]
  split <;> rfl

/-- R171: a reduction or a scan. -/
theorem reduce_completes {f : RForm} {scan ex : Bool} {s : State} (hok : (reduceRow f scan ex).ok s = true) :
    runR f (reduceSem (f.xm.toNat % 8) (4 * 2 ^ (f.c.toNat % 8)) f.ty scan ex f.d f.a) s = .next ((reduceRow f scan ex).next s) := by
  simp only [reduceRow] at hok ⊢
  refine runSimt_of_carries hok fun u hslot hcond => ?_
  obtain ⟨hfits, hready⟩ := Bool.and_eq_true_iff.mp hcond
  rw [reduceSem, groupSem_of_fits s hslot hfits hready]
  rfl

/-- Settles O15: five shuffles, the vote and two reductions, each completing where its row allows. -/
theorem exchangesComplete : Obligations.ExchangesComplete := by
  unfold Obligations.ExchangesComplete
  intro i r s hrow hok
  cases i
  case shfli | shflx | shfld | shfla | bcast => cases hrow; exact shuffle_completes hok
  case vote => cases hrow; exact vote_completes hok
  case redl | scanl => cases hrow; exact reduce_completes hok
  all_goals cases hrow


/-! ## Destinations of an R-format instruction (R13, R14, R26, R130) -/

theorem intLane_exec {i : Instr} {f : RForm} {o : AluOp} {s : State} {u : U} (hlane : intLane i = some (rLane f o))
    (hrill : o.rill = false) (h : rReady f o.wd o.wa o.wb o.wc s u) :
    exec i s = .next ((laneProg (rLane f o) u).run s) ∧ FlagsKept u ((laneProg (rLane f o) u).run s) := by
  obtain ⟨hblk, hms, -⟩ := rReady_unit h
  exact ⟨exec_of_rReady (.inl hlane) hrill h, flagsKept_laneProg hblk hms (isLane_of_intLane hlane).2⟩

theorem rReady_slot {f : RForm} {wd wa wb wc : Nat} {s : State} {u : U} (h : rReady f wd wa wb wc s u) : u.slot = none := by
  obtain ⟨v, hv, -, rfl, -⟩ := h
  exact (lane_unit hv).2.1

/-- R13, R130: a destination of whole registers receives the operation's values. -/
theorem lands_laneProg {l : LaneOp} {u : U} {s : State} (hblk : s.block? u.c u.b = some u.blk) (hslot : u.slot = none)
    (hms : u.members.Nodup) (hpart : u.part.Nodup) (hw : l.o.wd ≠ 0 ∧ 32 * regCount l.o.wd = l.o.wd)
    (hv : ∀ j, (l.o.fn (laneIn l u j)).val < 2 ^ l.o.wd) :
    Lands u ((laneProg l u).run s) l.d l.o.wd fun j => (l.o.fn (laneIn l u j)).val := by
  obtain ⟨hwd, hwhole⟩ := hw
  refine ⟨_, laneProg_block l hblk, ?_⟩
  split
  case isTrue hs =>
    intro j r hj i hi x hx
    have hres : laneResults l u = (j, l.o.fn (laneIn l u j)) :: r.map fun k => (k, l.o.fn (laneIn l u k)) :=
      congrArg (List.map fun k => (k, l.o.fn (laneIn l u k))) hj
    rw [advanced_slice _ _ hms, if_pos hi] at hx
    obtain ⟨y, hy, rfl⟩ := Option.map_eq_some_iff.mp hx
    exact commitRes_slice u l.o.wd l.d _ u.blk hs hwd hms _ _ hres i y hi hy
  case isFalse hs =>
    intro j hj hlen
    have hvalue := commitRes_lane u l.o.wd l.d (laneResults l u) u.blk hslot (Bool.eq_false_iff.mpr hs) hwd
      (by rwa [laneResults_lanes]) _ (mem_laneResults l hj) hlen
    rw [hwhole, Nat.mod_eq_of_lt (hv j)] at hvalue
    rw [advanced_eq _ _ hms]
    exact hvalue

/-- R137 to R150: an operation that takes no words of stochastic rounding and fits its destination writes its values. -/
theorem rWritesSuch_of_lane {i : Instr} {f : RForm} {o : AluOp} {P : U → Nat → Nat → Prop} (hlane : intLane i = some (rLane f o))
    (hrill : o.rill = false) (hw : o.wd ≠ 0 ∧ 32 * regCount o.wd = o.wd)
    (h : ∀ u j, (o.fn (laneIn (rLane f o) u j)).val < 2 ^ o.wd ∧ P u j (o.fn (laneIn (rLane f o) u j)).val) :
    RWritesSuch i f o.wd o.wa o.wb o.wc P := by
  intro s u hready
  obtain ⟨hblk, hms, hpart⟩ := rReady_unit hready
  obtain ⟨hexec, hflags⟩ := intLane_exec hlane hrill hready
  exact ⟨_, _, hexec, lands_laneProg (l := rLane f o) hblk (rReady_slot hready) hms hpart hw fun j => (h u j).1, hflags,
    fun j => (h u j).2⟩

theorem putBlock_lanes_length (u : U) (d : BitVec 8) (w : Nat) (vals : List (Nat × Nat)) (b : Block) (hms : u.members.Nodup) :
    (u.putBlock d w vals b).lanes.length = b.lanes.length := by
  unfold U.putBlock
  split_ifs
  · rfl
  · cases vals with
    | nil => rfl
    | cons e r => exact congrArg List.length (lanes_of_slicesOnly (putS_slices b u.members hms _ _).1)
  · exact (foldl_modLane vals (fun e => (u.place e.1 d).1) (fun e l => l.setRegs (u.place e.1 d).2 e.2 (regCount w)) b).1.2

/-- R14: of several predicates written, each holds its value. -/
theorem setPreds_pred {qs : List (Nat × Bool)} (hn : (qs.map (·.1)).Nodup) {p : Nat} {v : Bool} (hp : p < 8) (hq : (p, v) ∈ qs)
    (l : Lane) : (qs.foldl (fun l q => l.setPred q.1 q.2) l).pred p = if p = 7 then true else v := by
  induction qs generalizing l with
  | nil => cases hq
  | cons q r ih =>
    rw [List.map_cons, List.nodup_cons] at hn
    rw [List.foldl_cons]
    rcases List.mem_cons.mp hq with rfl | hr
    · obtain ⟨-, hkept, -⟩ := setPreds_keeps (l.setPred p v) r 0 0 (r.map (·.1)) fun q hq => List.mem_map_of_mem hq
      rw [hkept p hn.1, setPred_pred_same l hp]
    · exact ih hn.2 hr _

/-- R14, R140, R141, R148, R149: predicate `p`, which the operation gives the value `v j` in lane `j`, holds it. -/
theorem predLands_laneProg {l : LaneOp} {u : U} {s : State} {p : Nat} {v : Nat → Bool} (hblk : s.block? u.c u.b = some u.blk)
    (hms : u.members.Nodup) (hpart : u.part.Nodup) (hp : p < 8)
    (h : ∀ j, ((l.o.fn (laneIn l u j)).preds.map (·.1)).Nodup ∧ (p, v j) ∈ (l.o.fn (laneIn l u j)).preds) :
    PredLands u ((laneProg l u).run s) p v := by
  obtain ⟨b, hb, hlane⟩ := laneProg_lane l hblk hms
  refine ⟨b, hb, fun j hj hlen => ?_⟩
  obtain ⟨hn, hmem⟩ := h j
  have hwritten := foldl_modLane_at (laneResults l u) (·.1)
    (fun e l => (e.2.preds.foldl (fun l q => l.setPred q.1 q.2) l).raise e.2.flags)
    (u.putBlock l.d l.o.wd ((laneResults l u).map fun e => (e.1, e.2.val)) u.blk) (by rwa [laneResults_lanes])
    _ (mem_laneResults l hj) (by rwa [putBlock_lanes_length _ _ _ _ _ hms])
  rw [hlane]
  exact (congrArg (Lane.pred · p) hwritten).trans (setPreds_pred hn hp hmem _)

/-- R141, R148, R149: an operation without a destination register writes its predicates alone. -/
theorem rTests_of_lane {i : Instr} {f : RForm} {o : AluOp} {p : Nat} {v : U → Nat → Bool} (hlane : intLane i = some (rLane f o))
    (hrill : o.rill = false) (hwd : o.wd = 0) (hwc : o.wc = 0) (hp : p < 8)
    (h : ∀ u j, ((o.fn (laneIn (rLane f o) u j)).preds.map (·.1)).Nodup ∧ (p, v u j) ∈ (o.fn (laneIn (rLane f o) u j)).preds) :
    RTests i f o.wa o.wb p v := by
  intro s u hready
  obtain ⟨hblk, hms, hpart⟩ := rReady_unit hready
  obtain ⟨hexec, hflags⟩ := intLane_exec hlane hrill (by rw [hwd, hwc]; exact hready)
  exact ⟨_, hexec, predLands_laneProg hblk hms hpart hp (h u), hflags⟩


/-! ## What the encoding of an R-format word fixes (R78, R79) -/

/-- The type is one of the list, XM is a code of its own, and SAT is set only where it may be. -/
theorem RUse.of_ok {use : RUse} {f : RForm} (h : use.ok f = true) :
    f.ty ∈ use.types ∧ use.d.ok f.d = true ∧ (use.sat = false → f.sat = false) ∧ f.xm.toNat < use.xms := by
  simp only [RUse.ok, Bool.and_eq_true, decide_eq_true_eq, List.contains_iff_mem, Bool.or_eq_true, Bool.not_eq_true'] at h
  obtain ⟨⟨⟨⟨⟨⟨⟨hty, hd⟩, -⟩, -⟩, -⟩, -⟩, hsat⟩, hxm⟩ := h
  exact ⟨hty, hd, fun hno => hsat.resolve_left (by simp [hno]), hxm⟩

/-- R129: types of the list have the width of one, two or four registers. -/
theorem wholeRegs {use : RUse} {f : RForm} (h : use.ok f = true)
    (hall : ∀ t ∈ use.types, t.bits ≠ 0 ∧ 32 * regCount t.bits = t.bits) : f.ty.bits ≠ 0 ∧ 32 * regCount f.ty.bits = f.ty.bits :=
  hall _ (RUse.of_ok h).1

theorem int4_whole : ∀ t ∈ int4, t.bits ≠ 0 ∧ 32 * regCount t.bits = t.bits := by decide

theorem bit2_whole : ∀ t ∈ bit2, t.bits ≠ 0 ∧ 32 * regCount t.bits = t.bits := by decide

/-! ## Integers of a width (R137) -/

theorem intVal_true (w x : Nat) : intVal true w x = (BitVec.ofNat w x).toInt := by
  rw [BitVec.toInt_eq_toNat_cond, BitVec.toNat_ofNat]
  simp only [intVal, Bool.true_and, decide_eq_true_eq]
  rcases w with _ | n
  · simp [Nat.mod_one]
  · have hpow : 2 ^ (n + 1) = 2 * 2 ^ n := by rw [Nat.pow_succ, Nat.mul_comm]
    have hcast : ((2 : Int) ^ (n + 1)) = ((2 ^ (n + 1) : Nat) : Int) := by push_cast; rfl
    rw [Nat.add_sub_cancel]
    generalize hm : x % 2 ^ (n + 1) = m
    have hm' : (x : Int) % 2 ^ (n + 1) = m := by rw [← hm]; push_cast; rfl
    rw [hm', hcast]
    split_ifs <;> omega

theorem intVal_false (w x : Nat) : intVal false w x = ((BitVec.ofNat w x).toNat : Int) := by
  rw [BitVec.toNat_ofNat]; rfl

/-- R137: a source by its type's signedness. -/
theorem intVal_eq_tyVal (t : Ty) (x : Nat) : intVal t.signed t.bits x = tyVal t x := by
  unfold tyVal
  split
  case isTrue h => rw [h, intVal_true]
  case isFalse h => rw [Bool.eq_false_iff.mpr h, intVal_false]

theorem wrapTo_eq (w : Nat) (x : Int) : wrapTo w x = (BitVec.ofInt w x).toNat := by
  rw [BitVec.toNat_ofInt, wrapTo]; push_cast; rfl

theorem wrapTo_eq_lowBits (t : Ty) (x : Int) : wrapTo t.bits x = lowBits t x := wrapTo_eq _ _

theorem lowBits_lt (t : Ty) (x : Int) : lowBits t x < 2 ^ t.bits := BitVec.isLt _

theorem satResult_lt (t : Ty) (sat : Bool) (x : Int) : satResult t sat x < 2 ^ t.bits := lowBits_lt _ _

theorem typeMin_le_typeMax (signed : Bool) (w : Nat) : typeMin signed w ≤ typeMax signed w := by
  have hhalf : (0 : Int) < 2 ^ (w - 1) := by positivity
  have hwhole : (0 : Int) < 2 ^ w := by positivity
  unfold typeMin typeMax
  split <;> omega

theorem clampTo_eq (signed : Bool) (w : Nat) (x : Int) :
    clampTo signed w x = if x < typeMin signed w then typeMin signed w else if typeMax signed w < x then typeMax signed w else x := by
  have hle := typeMin_le_typeMax signed w
  unfold clampTo
  split_ifs <;> omega

theorem clampTo_of_fits {signed : Bool} {w : Nat} {x : Int} (hlo : typeMin signed w ≤ x) (hhi : x ≤ typeMax signed w) :
    clampTo signed w x = x := by
  unfold clampTo; omega

/-- R137: the exact result clamped under SAT, and its low bits. -/
theorem intResult_eq_satResult (t : Ty) (sat : Bool) (x : Int) : intResult t.signed sat t.bits x = satResult t sat x := by
  unfold intResult satResult
  rw [wrapTo_eq_lowBits, clampTo_eq]
  rfl

/-! ## Integer arithmetic (R137) -/

/-- R137: an instruction that means an operation with an exact result writes that result. -/
theorem rWrites_of_exact {i : Instr} {f : RForm} {use : RUse} {o : AluOp} {v : U → Nat → Int} (hok : use.ok f = true)
    (hint : ∀ t ∈ use.types, t ∈ int4) (hlane : intLane i = some (rLane f o)) (hrill : o.rill = false) (hwd : o.wd = f.ty.bits)
    (h : ∀ u j, (o.fn (laneIn (rLane f o) u j)).val = satResult f.ty f.sat (v u j)) :
    RWrites i f o.wd o.wa o.wb o.wc fun u j => satResult f.ty f.sat (v u j) := by
  refine rWritesSuch_of_lane hlane hrill ?_ fun u j => ⟨?_, h u j⟩
  · rw [hwd]
    exact wholeRegs hok fun t ht => int4_whole t (hint t ht)
  · rw [h, hwd]
    exact satResult_lt _ _ _

/-- R137: what an operation with an exact result computes from its sources. -/
theorem opExact_val (t : Ty) (sat : Bool) (wc : Nat) (op : Int → Int → Int → Int) (x : In) :
    ((opExact t sat wc op).fn x).val = satResult t sat (op (tyVal t x.a) (tyVal t x.b) (tyVal t x.c)) := by
  rw [← intResult_eq_satResult, ← intVal_eq_tyVal, ← intVal_eq_tyVal, ← intVal_eq_tyVal]
  rfl

theorem ite_neg_eq_abs (x : Int) : (if x < 0 then -x else x) = |x| := by
  split
  case isTrue h => exact (abs_of_neg h).symm
  case isFalse h => exact (abs_of_nonneg (Int.not_lt.mp h)).symm

/-- Settles O33: the eight operations are exact, and SAT is clear where the encoding leaves it no place. -/
theorem integerArithmetic : Obligations.IntegerArithmetic := by
  unfold Obligations.IntegerArithmetic
  intro f
  have hself : ∀ t ∈ int4, t ∈ int4 := fun _ h => h
  have hsigned : ∀ t ∈ [Ty.i32, .i64], t ∈ int4 := by decide
  have hval := fun (wc : Nat) (op : Int → Int → Int → Int) (x : In) => opExact_val f.ty f.sat wc op x
  refine ⟨fun hwf => ?_, fun hwf => ?_, fun hwf => ?_, fun hwf => ?_, fun hwf => ?_, fun hwf => ?_, fun hwf => ?_, fun hwf => ?_⟩
  · exact rWrites_of_exact (o := intAdd f.ty f.sat) hwf hself rfl rfl rfl fun _ _ => hval 0 (fun a b _ => a + b) _
  · exact rWrites_of_exact (o := intSub f.ty f.sat) hwf hself rfl rfl rfl fun _ _ => hval 0 (fun a b _ => a - b) _
  · exact rWrites_of_exact (o := intMul f.ty f.sat) hwf hself rfl rfl rfl fun _ _ => hval 0 (fun a b _ => a * b) _
  · exact rWrites_of_exact (o := intMad f.ty f.sat) hwf hself rfl rfl rfl fun _ _ => hval f.ty.bits (fun a b c => a * b + c) _
  · exact rWrites_of_exact (o := intNeg f.ty f.sat) hwf hsigned rfl rfl rfl fun _ _ => hval 0 (fun a _ _ => -a) _
  · exact rWrites_of_exact (o := intAbs f.ty f.sat) hwf hsigned rfl rfl rfl fun _ _ =>
      (hval 0 (fun a _ _ => if a < 0 then -a else a) _).trans (congrArg _ (ite_neg_eq_abs _))
  · have hsat : f.sat = false := (RUse.of_ok hwf).2.2.1 rfl
    exact rWrites_of_exact (o := intMin f.ty) hwf hself rfl rfl rfl fun _ _ => hsat ▸ opExact_val _ _ 0 (fun a b _ => min a b) _
  · have hsat : f.sat = false := (RUse.of_ok hwf).2.2.1 rfl
    exact rWrites_of_exact (o := intMax f.ty) hwf hself rfl rfl rfl fun _ _ => hsat ▸ opExact_val _ _ 0 (fun a b _ => max a b) _

/-- Settles O34: a quotient by a power of two, rounded down, is the floor of the fraction. -/
theorem multiplyHigh : Obligations.MultiplyHigh := by
  unfold Obligations.MultiplyHigh
  intro f hwf
  refine rWritesSuch_of_lane (o := opMulh f.ty) rfl rfl (wholeRegs hwf int4_whole) fun u j => ?_
  have hval : ∀ x : In, ((opMulh f.ty).fn x).val =
      lowBits f.ty (Int.floor (((tyVal f.ty x.a * tyVal f.ty x.b : Int) : Rat) / 2 ^ f.ty.bits)) := fun x => by
    have hfloor := Rat.floor_intCast_div_natCast (tyVal f.ty x.a * tyVal f.ty x.b) (2 ^ f.ty.bits)
    push_cast at hfloor ⊢
    rw [hfloor, ← Int.fdiv_eq_ediv_of_nonneg _ (by positivity), ← wrapTo_eq_lowBits, ← intVal_eq_tyVal, ← intVal_eq_tyVal]
    rfl
  exact ⟨hval _ ▸ lowBits_lt _ _, hval _⟩


/-! ## Division (R139) -/

/-- R139: a quotient and a remainder of the dividend's sign are those of division truncated toward zero. -/
theorem tdiv_tmod_of_divides {a b q m : Int} (hb : b ≠ 0) (heq : a = q * b + m) (hlt : |m| < |b|) (hpos : 0 ≤ a → 0 ≤ m)
    (hneg : a ≤ 0 → m ≤ 0) : a.tdiv b = q ∧ a.tmod b = m := by
  have hsum : m + b * q = a := by rw [heq]; ring
  rcases Int.le_total 0 a with ha | ha
  · exact (Int.tdiv_tmod_unique ha hb).mpr ⟨hsum, hpos ha, by rwa [abs_of_nonneg (hpos ha), Int.abs_eq_natAbs] at hlt⟩
  · refine (Int.tdiv_tmod_unique' ha hb).mpr ⟨hsum, ?_, hneg ha⟩
    rw [abs_of_nonpos (hneg ha), Int.abs_eq_natAbs] at hlt
    omega

theorem tyVal_bounds (t : Ty) (x : Nat) : typeMin t.signed t.bits ≤ tyVal t x ∧ tyVal t x ≤ typeMax t.signed t.bits := by
  unfold tyVal typeMin typeMax
  split
  case isTrue =>
    have hlo := BitVec.le_toInt (BitVec.ofNat t.bits x)
    have hhi := BitVec.toInt_lt (x := BitVec.ofNat t.bits x)
    omega
  case isFalse =>
    have hlt := (BitVec.ofNat t.bits x).isLt
    have hcast : ((2 : Int) ^ t.bits) = ((2 ^ t.bits : Nat) : Int) := by push_cast; rfl
    omega

theorem abs_tdiv_le (a b : Int) : |a.tdiv b| ≤ |a| := by
  rw [Int.abs_eq_natAbs, Int.abs_eq_natAbs]
  exact_mod_cast Int.natAbs_tdiv_le_natAbs a b

/-- The lowest value's quotient is too great for its type by -1 alone. -/
theorem neg_tdiv_lt {h b : Int} (hh : 0 < h) (hb : b ≠ -1) : (-h).tdiv b < h := by
  by_cases hone : b = 1
  · rw [hone, Int.tdiv_one]; omega
  · have hlt : ((-h).tdiv b).natAbs < h.natAbs := by
      rw [Int.natAbs_tdiv, Int.natAbs_neg]
      rcases Nat.eq_zero_or_pos b.natAbs with hzero | hpos
      · rw [hzero]
        exact lt_of_eq_of_lt (Nat.div_zero _) (by omega)
      · exact Nat.div_lt_self (by omega) (by omega)
    omega

/-- R139: the quotient is in range, but for the lowest value by -1. -/
theorem tdiv_bounds {t : Ty} {a b : Int} (ha : typeMin t.signed t.bits ≤ a ∧ a ≤ typeMax t.signed t.bits)
    (hb : typeMin t.signed t.bits ≤ b) (hlow : ¬ (t.signed = true ∧ a = -2 ^ (t.bits - 1) ∧ b = -1)) :
    typeMin t.signed t.bits ≤ a.tdiv b ∧ a.tdiv b ≤ typeMax t.signed t.bits := by
  have habs := abs_le.mp (abs_tdiv_le a b)
  unfold typeMin typeMax at *
  cases hsigned : t.signed
  case false =>
    simp only [hsigned, Bool.false_eq_true, if_false] at ha hb ⊢
    rw [abs_of_nonneg ha.1] at habs
    exact ⟨Int.tdiv_nonneg ha.1 hb, habs.2.trans ha.2⟩
  case true =>
    simp only [hsigned, if_true, true_and] at ha hlow ⊢
    have hpos : (0 : Int) < 2 ^ (t.bits - 1) := by positivity
    generalize (2 : Int) ^ (t.bits - 1) = h at *
    by_cases hmin : a = -h
    · subst hmin
      have hlt := neg_tdiv_lt hpos fun hb => hlow ⟨rfl, hb⟩
      rw [abs_neg, abs_of_pos hpos] at habs
      omega
    · have hle : |a| ≤ h - 1 := abs_le.mpr (by omega)
      omega

theorem opDiv_val (t : Ty) (sat : Bool) (x : In) : ((opDiv t sat).fn x).val =
    if tyVal t x.b = 0 then 2 ^ t.bits - 1 else satResult t sat ((tyVal t x.a).tdiv (tyVal t x.b)) := by
  rw [← intResult_eq_satResult, ← intVal_eq_tyVal, ← intVal_eq_tyVal]
  rfl

theorem lowBits_tyVal (t : Ty) (x : Nat) : lowBits t (tyVal t x) = x % 2 ^ t.bits := by
  unfold lowBits tyVal
  split
  · rw [BitVec.ofInt_toInt, BitVec.toNat_ofNat]
  · rw [BitVec.ofInt_natCast, BitVec.ofNat_toNat, BitVec.setWidth_eq, BitVec.toNat_ofNat]

theorem opRem_val (t : Ty) (x : In) : ((opRem t).fn x).val =
    if tyVal t x.b = 0 then lowBits t (tyVal t x.a) else lowBits t ((tyVal t x.a).tmod (tyVal t x.b)) := by
  rw [lowBits_tyVal, ← wrapTo_eq_lowBits, ← intVal_eq_tyVal, ← intVal_eq_tyVal]
  rfl

theorem lowBits_natCast {t : Ty} {n : Nat} (h : n < 2 ^ t.bits) : lowBits t n = n := by
  rw [lowBits, BitVec.ofInt_natCast, BitVec.toNat_ofNat, Nat.mod_eq_of_lt h]

/-- The lowest value by -1. -/
theorem lowest_tdiv (w : Nat) : (-2 ^ (w - 1) : Int).tdiv (-1) = ((2 ^ (w - 1) : Nat) : Int) := by
  rw [Int.tdiv_neg, Int.tdiv_one, neg_neg]; push_cast; rfl

/-- R137, R139: the quotient that is out of range by one. -/
theorem satResult_half {t : Ty} (hsigned : t.signed = true) (sat : Bool) :
    satResult t sat ((2 ^ (t.bits - 1) : Nat) : Int) = if sat then 2 ^ (t.bits - 1) - 1 else 2 ^ (t.bits - 1) := by
  have hpos : 0 < 2 ^ (t.bits - 1) := by positivity
  have hlt : 2 ^ (t.bits - 1) < 2 ^ t.bits := Nat.pow_lt_pow_right (by decide) (by cases t <;> decide)
  have hcast : (2 : Int) ^ (t.bits - 1) = ((2 ^ (t.bits - 1) : Nat) : Int) := by push_cast; rfl
  simp only [satResult, hsigned, if_true, hcast]
  generalize 2 ^ (t.bits - 1) = h at *
  cases sat
  · exact lowBits_natCast hlt
  · have hclamp : (if ((h : Nat) : Int) < -h then -(h : Int) else if (h : Int) - 1 < h then (h : Int) - 1 else h) = ((h - 1 : Nat) : Int) := by
      rw [if_neg (by omega), if_pos (by omega)]; omega
    simp only [if_true, hclamp]
    exact lowBits_natCast (by omega)

/-- R137: a result in range is not clamped. -/
theorem satResult_of_fits {t : Ty} (sat : Bool) {x : Int} (hlo : typeMin t.signed t.bits ≤ x) (hhi : x ≤ typeMax t.signed t.bits) :
    satResult t sat x = lowBits t x := by
  rw [← intResult_eq_satResult, ← wrapTo_eq_lowBits, intResult, clampTo_of_fits hlo hhi, ite_self]

/-- R139: the lowest value by -1. -/
theorem quotient_lowest {t : Ty} {a b : Int} (sat : Bool) (hlow : t.signed = true ∧ a = -2 ^ (t.bits - 1) ∧ b = -1) :
    (if b = 0 then 2 ^ t.bits - 1 else satResult t sat (a.tdiv b)) = if sat then 2 ^ (t.bits - 1) - 1 else 2 ^ (t.bits - 1) := by
  obtain ⟨hsigned, rfl, rfl⟩ := hlow
  rw [if_neg (by decide), lowest_tdiv, satResult_half hsigned]

theorem remainder_lowest {t : Ty} {a b : Int} (hb : b = -1) :
    (if b = 0 then lowBits t a else lowBits t (a.tmod b)) = 0 := by
  subst hb
  rw [if_neg (by decide), Int.tmod_neg, Int.tmod_one]
  exact lowBits_natCast (n := 0) (by positivity)

/-- Settles O35: `tdiv` and `tmod` are the quotient and the remainder that R139 describes, and its table gives the two other cases. -/
theorem division : Obligations.Division := by
  unfold Obligations.Division
  intro f
  refine ⟨fun hwf => ?_, fun hwf => ?_⟩
  · refine rWritesSuch_of_lane (o := opDiv f.ty f.sat) rfl rfl (wholeRegs hwf int4_whole) fun u j => ?_
    have hval := opDiv_val f.ty f.sat (laneIn (rLane f (opDiv f.ty f.sat)) u j)
    refine ⟨?_, fun hzero => hval.trans (if_pos hzero), fun hlow => hval.trans (quotient_lowest f.sat hlow),
      fun hb hlow q m ⟨heq, hlt, hpos, hneg⟩ => ?_⟩
    · rw [hval]
      split
      · exact Nat.sub_lt (by positivity) Nat.one_pos
      · exact satResult_lt _ _ _
    · obtain ⟨hlo, hhi⟩ := tdiv_bounds (tyVal_bounds f.ty _) (tyVal_bounds f.ty _).1 hlow
      rw [← (tdiv_tmod_of_divides hb heq hlt hpos hneg).1, ← satResult_of_fits f.sat hlo hhi]
      exact hval.trans (if_neg hb)
  · refine rWritesSuch_of_lane (o := opRem f.ty) rfl rfl (wholeRegs hwf int4_whole) fun u j => ?_
    have hval := opRem_val f.ty (laneIn (rLane f (opRem f.ty)) u j)
    refine ⟨?_, fun hzero => hval.trans (if_pos hzero), fun ⟨_, _, hone⟩ => hval.trans (remainder_lowest hone),
      fun hb q m ⟨heq, hlt, hpos, hneg⟩ => ?_⟩
    · rw [hval]
      split <;> exact lowBits_lt _ _
    · rw [← (tdiv_tmod_of_divides hb heq hlt hpos hneg).2]
      exact hval.trans (if_neg hb)

/-! ## Bits of a value (R143 to R145) -/

theorem bitsAre_toNat {w : Nat} {p : Nat → Bool} {x : BitVec w} (h : ∀ i, i < w → x.getLsbD i = p i) : bitsAre w p x.toNat :=
  ⟨x.isLt, h⟩

/-- The low `w` bits of a value whose bits are given. -/
theorem bitsAre_mod {w : Nat} {p : Nat → Bool} {x : Nat} (h : ∀ i, i < w → x.testBit i = p i) : bitsAre w p (x % 2 ^ w) :=
  ⟨Nat.mod_lt _ (by positivity), fun i hi => by rw [Nat.testBit_mod_two_pow, decide_eq_true hi, Bool.true_and, h i hi]⟩

theorem testBit_mod_of_lt {w i : Nat} (hi : i < w) (x : Nat) : (x % 2 ^ w).testBit i = x.testBit i := by
  rw [Nat.testBit_mod_two_pow, decide_eq_true hi, Bool.true_and]

/-! ## Shifts and rotates (R144) -/

theorem shlN_eq (w a c : Nat) : shlN w a c = if w ≤ c then 0 else (BitVec.ofNat w a <<< c).toNat := by
  rw [BitVec.toNat_shiftLeft, BitVec.toNat_ofNat, Nat.shiftLeft_eq, Nat.mod_mul_mod, ← Nat.shiftLeft_eq]
  rfl

theorem shrN_eq (w a c : Nat) : shrN w a c = if w ≤ c then 0 else (BitVec.ofNat w a >>> c).toNat := by
  rw [BitVec.toNat_ushiftRight, BitVec.toNat_ofNat]
  rfl

theorem ofInt_toInt_shiftRight {w : Nat} (x : BitVec w) (n : Nat) : BitVec.ofInt w (x.toInt >>> n) = x.sshiftRight n := by
  rw [← BitVec.toInt_sshiftRight, BitVec.ofInt_toInt]

/-- R144: copies of the sign come in from the left. -/
theorem sarN_bits (w a c : Nat) : bitsAre w (fun i => if c + i < w then (BitVec.ofNat w a).getLsbD (c + i)
    else (BitVec.ofNat w a).getLsbD (w - 1)) (sarN w a c) := by
  have hshift : sarN w a c = ((BitVec.ofNat w a).sshiftRight (min c w)).toNat := by
    rw [sarN, wrapTo_eq, intVal_true, Int.fdiv_eq_ediv_of_nonneg _ (by positivity), ← ofInt_toInt_shiftRight, Int.shiftRight_eq_div_pow]
    push_cast; rfl
  rw [hshift]
  refine bitsAre_toNat fun i hi => ?_
  rw [BitVec.getLsbD_sshiftRight, decide_eq_false (Nat.not_le.mpr hi), Bool.not_false, Bool.true_and, BitVec.msb_eq_getLsbD_last]
  by_cases hc : c ≤ w
  · rw [Nat.min_eq_left hc]
  · rw [if_neg (by omega), if_neg (by omega)]

theorem rotN_eq (w a c : Nat) : rotN w a c = ((BitVec.ofNat w a).rotateLeft (c % w)).toNat := by
  have hlt : (BitVec.ofNat w a).toNat >>> (w - c % w) < 2 ^ w := lt_of_le_of_lt (Nat.shiftRight_le _ _) (BitVec.isLt _)
  rw [BitVec.toNat_rotateLeft, Nat.mod_mod, rotN, Nat.or_mod_two_pow, ← BitVec.toNat_ofNat a w, Nat.mod_eq_of_lt hlt]

/-- R144: a right rotation by `n` is a left one by the rest of the width. -/
theorem rotateLeft_sub_eq {w n : Nat} (hn : n < w) (x : BitVec w) : x.rotateLeft ((w - n) % w) = x.rotateRight n := by
  rw [BitVec.rotateLeft_def, BitVec.rotateRight_def, Nat.mod_mod, Nat.mod_eq_of_lt hn]
  rcases Nat.eq_zero_or_pos n with rfl | hpos
  · rw [Nat.sub_zero, Nat.mod_self, Nat.sub_zero, BitVec.shiftLeft_zero, BitVec.ushiftRight_zero]
    exact BitVec.eq_of_toNat_eq (by simp [Nat.shiftRight_eq_div_pow, Nat.div_eq_of_lt x.isLt])
  · rw [Nat.mod_eq_of_lt (by omega), BitVec.or_comm, show w - (w - n) = n by omega]

/-- Settles O36: the four operations are those of bit vectors. -/
theorem shifts : Obligations.Shifts := by
  unfold Obligations.Shifts
  intro f
  refine ⟨fun hwf => ?_, fun hwf => ?_, fun hwf => ?_, fun hwf => ?_⟩
  · refine rWritesSuch_of_lane (o := opShift f.w shlN) rfl rfl (wholeRegs hwf bit2_whole) fun u j => ⟨?_, shlN_eq _ _ _⟩
    refine lt_of_eq_of_lt (shlN_eq _ _ _) ?_
    split
    · positivity
    · exact BitVec.isLt _
  · refine rWritesSuch_of_lane (o := opShift f.w shrN) rfl rfl (wholeRegs hwf bit2_whole) fun u j => ⟨?_, shrN_eq _ _ _⟩
    refine lt_of_eq_of_lt (shrN_eq _ _ _) ?_
    split
    · positivity
    · exact BitVec.isLt _
  · exact rWritesSuch_of_lane (o := opShift f.w sarN) rfl rfl (wholeRegs hwf bit2_whole) fun u j =>
      ⟨(sarN_bits _ _ _).1, sarN_bits _ _ _⟩
  · refine rWritesSuch_of_lane (o := opShift f.w rotN) rfl rfl (wholeRegs hwf bit2_whole) fun u j =>
      ⟨lt_of_eq_of_lt (rotN_eq _ _ _) (BitVec.isLt _), rotN_eq _ _ _, fun n hn hc => ?_⟩
    rw [← rotateLeft_sub_eq hn, ← hc]
    exact rotN_eq _ _ _


/-! ## Bit fields (R145) -/

/-- R145: the field of `n` bits of `a` from bit `p`. -/
theorem field_testBit (a p n i : Nat) : ((a >>> p) % 2 ^ n).testBit i = (decide (i < n) && a.testBit (p + i)) := by
  rw [Nat.testBit_mod_two_pow, Nat.testBit_shiftRight]

theorem ofNat_field_getLsbD (a p n i : Nat) :
    (BitVec.ofNat n ((a >>> p) % 2 ^ n)).getLsbD i = (decide (i < n) && a.testBit (p + i)) := by
  rw [BitVec.getLsbD_ofNat, field_testBit, ← Bool.and_assoc, Bool.and_self]

/-- R145: a field is extended by the signedness of its type. -/
theorem opBfx_bits (t : Ty) (x : In) :
    let pos := min (x.b % 256) t.bits
    let len := min (x.b / 256 % 256) (t.bits - pos)
    bitsAre t.bits (fun i => if len = 0 then false else if i < len then x.a.testBit (pos + i)
      else t.signed && x.a.testBit (pos + len - 1)) ((opBfx t).fn x).val := by
  intro pos len
  have hval : ((opBfx t).fn x).val = if len = 0 then 0
      else if t.signed then wrapTo t.bits (intVal true len ((x.a >>> pos) % 2 ^ len)) else (x.a >>> pos) % 2 ^ len := rfl
  have hlen : len ≤ t.bits := (Nat.min_le_right _ _).trans (Nat.sub_le _ _)
  rw [hval]
  by_cases hzero : len = 0
  · simp only [if_pos hzero]
    exact ⟨by positivity, fun i _ => Nat.zero_testBit i⟩
  · simp only [if_neg hzero]
    cases t.signed <;> simp only [Bool.false_eq_true, if_true, if_false]
    · refine ⟨lt_of_lt_of_le (Nat.mod_lt _ (by positivity)) (Nat.pow_le_pow_right (by decide) hlen), fun i _ => ?_⟩
      rw [field_testBit]
      by_cases hi : i < len <;> simp [hi]
    · have hext : wrapTo t.bits (intVal true len ((x.a >>> pos) % 2 ^ len)) =
          ((BitVec.ofNat len ((x.a >>> pos) % 2 ^ len)).signExtend t.bits).toNat := by rw [wrapTo_eq, intVal_true]; rfl
      have hlast : pos + (len - 1) = pos + len - 1 := by omega
      rw [hext]
      refine bitsAre_toNat fun i hi => ?_
      rw [BitVec.getLsbD_signExtend, BitVec.msb_eq_getLsbD_last, ofNat_field_getLsbD, ofNat_field_getLsbD, hlast, decide_eq_true hi,
        decide_eq_true (Nat.sub_lt (Nat.pos_of_ne_zero hzero) Nat.one_pos)]
      by_cases hin : i < len <;> simp [hin]

/-- R143: the second operand's bits are cleared. -/
theorem andNot_testBit {w i : Nat} (hi : i < w) (a b : Nat) : (andNot w a b).testBit i = (a.testBit i && !b.testBit i) := by
  rw [andNot, Nat.testBit_and, Nat.testBit_xor, Nat.testBit_two_pow_sub_one, decide_eq_true hi, Bool.xor_true]

/-- R145: a field of C is replaced. -/
theorem opBfi_bits (w : Nat) (x : In) :
    let pos := min (x.b % 256) w
    let len := min (x.b / 256 % 256) (w - pos)
    bitsAre w (fun i => if pos ≤ i ∧ i < pos + len then x.a.testBit (i - pos) else x.c.testBit i) ((opBfi w).fn x).val := by
  intro pos len
  have hval : ((opBfi w).fn x).val =
      (andNot w (x.c % 2 ^ w) ((2 ^ len - 1) <<< pos) ||| ((x.a % 2 ^ len) <<< pos)) % 2 ^ w := rfl
  rw [hval]
  refine bitsAre_mod fun i hi => ?_
  rw [Nat.testBit_or, andNot_testBit hi, testBit_mod_of_lt hi, Nat.testBit_shiftLeft, Nat.testBit_shiftLeft,
    Nat.testBit_two_pow_sub_one, Nat.testBit_mod_two_pow]
  by_cases hlo : pos ≤ i
  · have hiff : i - pos < len ↔ i < pos + len := by omega
    by_cases hhi : i < pos + len <;> simp [hlo, hhi, hiff]
  · simp [hlo]

/-- Settles O37: the field's bits, one by one. -/
theorem bitFields : Obligations.BitFields := by
  unfold Obligations.BitFields
  intro f
  refine ⟨fun hwf => ?_, fun hwf => ?_⟩
  · exact rWritesSuch_of_lane (o := opBfx f.ty) rfl rfl (wholeRegs hwf int4_whole) fun u j =>
      ⟨(opBfx_bits f.ty _).1, opBfx_bits f.ty (laneIn (rLane f (opBfx f.ty)) u j)⟩
  · exact rWritesSuch_of_lane (o := opBfi f.w) rfl rfl (wholeRegs hwf bit2_whole) fun u j =>
      ⟨(opBfi_bits f.w _).1, opBfi_bits f.w (laneIn (rLane f (opBfi f.w)) u j)⟩

/-! ## Logic and bit counts (R143) -/

/-- R143: an operation that works bit by bit. -/
theorem opBits_bits {w : Nat} {op : Nat → Nat → Nat} {g : Bool → Bool → Bool}
    (hop : ∀ a b i, i < w → (op a b).testBit i = g (a.testBit i) (b.testBit i)) (x : In) :
    bitsAre w (fun i => g (x.a.testBit i) (x.b.testBit i)) ((opBits w op).fn x).val :=
  bitsAre_mod fun i hi => by rw [hop _ _ i hi, testBit_mod_of_lt hi, testBit_mod_of_lt hi]

/-- R143: the bits that `revN` has taken stand in falling order. -/
theorem revN_bits (w a : Nat) : bitsAre w (fun i => a.testBit (w - 1 - i)) (revN w a) := by
  unfold revN
  induction w with
  | zero => exact ⟨Nat.one_pos, fun i hi => absurd hi (Nat.not_lt_zero i)⟩
  | succ n ih =>
    rw [List.range_succ, List.foldl_append, List.foldl_cons, List.foldl_nil]
    generalize (List.range n).foldl (fun r i => 2 * r + if a.testBit i then 1 else 0) 0 = r at ih
    obtain ⟨hlt, hbits⟩ := ih
    have hbit : (if a.testBit n then 1 else 0) < 2 := by split <;> decide
    refine ⟨by rw [Nat.pow_succ]; omega, fun i hi => ?_⟩
    cases i with
    | zero =>
      rw [Nat.testBit_zero, Nat.mul_add_mod]
      show _ = a.testBit n
      cases a.testBit n <;> rfl
    | succ i =>
      rw [Nat.testBit_succ, Nat.mul_add_div (by decide), Nat.div_eq_of_lt hbit, Nat.add_zero, hbits i (by omega)]
      have hplace : n - 1 - i = n + 1 - 1 - (i + 1) := by omega
      exact congrArg a.testBit hplace

theorem foldl_count {β : Type} (p : β → Bool) (l : List β) (n : Nat) :
    l.foldl (fun n i => if p i then n + 1 else n) n = n + (l.filter p).length := by
  induction l generalizing n with
  | nil => rfl
  | cons e r ih =>
    rw [List.foldl_cons, ih, List.filter_cons]
    split
    · rw [List.length_cons]; omega
    · rfl

theorem popN_eq (w a : Nat) : popN w a = setBits (BitVec.ofNat w a) :=
  (foldl_count _ _ 0).trans (Nat.zero_add _)

/-- R143: zeros above the highest set bit of the low `n` bits. -/
theorem length_takeWhile_high (m n : Nat) : ((List.range n).reverse.takeWhile fun i => !m.testBit i).length =
    if m % 2 ^ n = 0 then n else n - 1 - Nat.log2 (m % 2 ^ n) := by
  induction n with
  | zero => simp [Nat.mod_one]
  | succ n ih =>
    have hlow : m % 2 ^ n < 2 ^ n := Nat.mod_lt _ (by positivity)
    have hsplit : m % 2 ^ (n + 1) = 2 ^ n * (m.testBit n).toNat + m % 2 ^ n := by
      rw [Nat.mod_pow_succ, Nat.toNat_testBit, Nat.add_comm]
    rw [List.range_succ, List.reverse_append, List.reverse_singleton, List.singleton_append, List.takeWhile_cons, hsplit]
    cases m.testBit n
    case true =>
      have hlog : Nat.log2 (2 ^ n + m % 2 ^ n) = n :=
        (Nat.log2_eq_iff (by positivity)).mpr ⟨by omega, by rw [Nat.pow_succ]; omega⟩
      have hne : 2 ^ n + m % 2 ^ n ≠ 0 := by positivity
      simp [hlog]
    case false =>
      simp only [Bool.not_false, if_true, List.length_cons, ih, Bool.toNat_false, Nat.mul_zero, Nat.zero_add]
      split
      case isTrue => rfl
      case isFalse hne =>
        have hlog : Nat.log2 (m % 2 ^ n) < n := (Nat.log2_lt hne).mpr hlow
        omega

theorem clzN_eq (w a : Nat) : clzN w a = zerosAbove (BitVec.ofNat w a) := by
  have hhigh := length_takeWhile_high (a % 2 ^ w) w
  rw [Nat.mod_mod, ← BitVec.toNat_ofNat] at hhigh
  rw [clzN, ← BitVec.toNat_ofNat]
  exact hhigh.symm

/-- The first number from `k` on that meets a condition stands behind those that do not. -/
theorem find?_range' (p : Nat → Bool) (k n : Nat) :
    ((List.range' k n).find? p).getD (k + n) = k + ((List.range' k n).takeWhile fun i => !p i).length := by
  induction n generalizing k with
  | zero => rfl
  | succ n ih =>
    rw [List.range'_succ, List.find?_cons, List.takeWhile_cons]
    cases hp : p k
    · have hrest := ih (k + 1)
      simp only [Bool.not_false, if_true, List.length_cons]
      rw [show k + (n + 1) = k + 1 + n by omega, hrest]
      omega
    · rfl

theorem ctzN_eq (w a : Nat) : ctzN w a = zerosBelow (BitVec.ofNat w a) := by
  have hbits : ∀ i ∈ List.range w, (a.testBit i) = (BitVec.ofNat w a).getLsbD i := fun i hi => by
    rw [BitVec.getLsbD_ofNat, decide_eq_true (List.mem_range.mp hi), Bool.true_and]
  have hfind := find?_range' (BitVec.ofNat w a).getLsbD 0 w
  rw [Nat.zero_add, Nat.zero_add, ← List.range_eq_range', ← List.find?_congr hbits] at hfind
  exact hfind

theorem setBits_le {w : Nat} (x : BitVec w) : setBits x ≤ w :=
  (List.length_filter_le _ _).trans (List.length_range).le

theorem zerosAbove_le {w : Nat} (x : BitVec w) : zerosAbove x ≤ w :=
  (List.takeWhile_sublist _).length_le.trans (by rw [List.length_reverse, List.length_range])

theorem zerosBelow_le {w : Nat} (x : BitVec w) : zerosBelow x ≤ w :=
  (List.takeWhile_sublist _).length_le.trans (List.length_range).le

/-- R143: a count of a register's bits. -/
theorem rWrites_of_count {i : Instr} {f : RForm} {use : RUse} {op : Nat → Nat → Nat} {v : (w : Nat) → BitVec w → Nat}
    (hok : use.ok f = true) (hbit : ∀ t ∈ use.types, t ∈ bit2) (hlane : intLane i = some (rLane f (opCount f.w op)))
    (h : ∀ w a, op w a = v w (BitVec.ofNat w a)) (hle : ∀ w x, v w x ≤ w) :
    RWrites i f 32 f.ty.bits 0 0 fun u j => v f.ty.bits (BitVec.ofNat f.ty.bits (u.rd j f.a f.ty.bits)) := by
  have hbits : ∀ t ∈ bit2, t.bits < 2 ^ 32 := by decide
  refine rWritesSuch_of_lane (o := opCount f.w op) hlane rfl ⟨(by decide : 32 ≠ 0), rfl⟩ fun u j => ⟨?_, h _ _⟩
  exact lt_of_le_of_lt ((h _ _).trans_le (hle _ _)) (hbits _ (hbit _ (RUse.of_ok hok).1))

/-- Settles O38: each logic operation works bit by bit, and each count is the length of a list of places. -/
theorem logicAndCounts : Obligations.LogicAndCounts := by
  unfold Obligations.LogicAndCounts
  intro f
  have hself : ∀ t ∈ bit2, t ∈ bit2 := fun _ h => h
  refine ⟨fun hwf => ?_, fun hwf => ?_, fun hwf => ?_, fun hwf => ?_, fun hwf => ?_, fun hwf => ?_, fun hwf => ?_, fun hwf => ?_,
    fun hwf => ?_⟩
  · have hbits := opBits_bits (w := f.w) (op := fun a b => a &&& b) (g := and) fun a b i _ => Nat.testBit_and a b i
    exact rWritesSuch_of_lane (o := opBits f.w fun a b => a &&& b) rfl rfl (wholeRegs hwf bit2_whole) fun u j =>
      ⟨(hbits _).1, hbits _⟩
  · have hbits := opBits_bits (w := f.w) (op := fun a b => a ||| b) (g := or) fun a b i _ => Nat.testBit_or a b i
    exact rWritesSuch_of_lane (o := opBits f.w fun a b => a ||| b) rfl rfl (wholeRegs hwf bit2_whole) fun u j =>
      ⟨(hbits _).1, hbits _⟩
  · have hbits := opBits_bits (w := f.w) (op := fun a b => a ^^^ b) (g := xor) fun a b i _ => Nat.testBit_xor a b i
    exact rWritesSuch_of_lane (o := opBits f.w fun a b => a ^^^ b) rfl rfl (wholeRegs hwf bit2_whole) fun u j =>
      ⟨(hbits _).1, hbits _⟩
  · have hbits := opBits_bits (w := f.w) (op := fun a b => andNot f.w a b) (g := fun a b => a && !b) fun a b i hi => andNot_testBit hi a b
    exact rWritesSuch_of_lane (o := opBits f.w fun a b => andNot f.w a b) rfl rfl (wholeRegs hwf bit2_whole) fun u j =>
      ⟨(hbits _).1, hbits _⟩
  · have hbits := opBits_bits (w := f.w) (op := fun a _ => a ^^^ (2 ^ f.w - 1)) (g := fun a _ => !a) fun a b i hi => by
      rw [Nat.testBit_xor, Nat.testBit_two_pow_sub_one, decide_eq_true hi, Bool.xor_true]
    exact rWritesSuch_of_lane (o := { opBits f.w (fun a _ => a ^^^ (2 ^ f.w - 1)) with wb := 0 }) rfl rfl (wholeRegs hwf bit2_whole)
      fun u j => ⟨(hbits _).1, hbits _⟩
  · exact rWritesSuch_of_lane (o := opRev f.w) rfl rfl (wholeRegs hwf bit2_whole) fun u j => ⟨(revN_bits _ _).1, revN_bits _ _⟩
  · exact rWrites_of_count (v := fun _ => setBits) hwf hself rfl popN_eq fun _ => setBits_le
  · exact rWrites_of_count (v := fun _ => zerosAbove) hwf hself rfl clzN_eq fun _ => zerosAbove_le
  · exact rWrites_of_count (v := fun _ => zerosBelow) hwf hself rfl ctzN_eq fun _ => zerosBelow_le


/-! ## Moves, selection and addresses (R146, R147, R150) -/

theorem mod_eq_ofNat_toNat (w x : Nat) : x % 2 ^ w = (BitVec.ofNat w x).toNat := (BitVec.toNat_ofNat x w).symm

/-- R147: the value selected. -/
theorem opSel_val (w : Nat) (c : BitVec 8) (x : In) : ((opSel w c).fn x).val =
    (BitVec.ofNat w (if x.p (c.toNat % 8) = !c.getLsbD 3 then x.a else x.b)).toNat := by
  rw [← mod_eq_ofNat_toNat]
  show (if x.p (c.toNat % 8) != c.getLsbD 3 then x.a else x.b) % 2 ^ w = _
  cases x.p (c.toNat % 8) <;> cases c.getLsbD 3 <;> rfl

/-- R150: the sum modulo 2^64 of a base and a scaled index. -/
theorem wrapTo_lea (a : Nat) (e : Int) (n : Nat) :
    wrapTo 64 ((a : Int) + e * 2 ^ n) = (BitVec.ofNat 64 a + BitVec.ofInt 64 e * BitVec.ofNat 64 (2 ^ n)).toNat := by
  rw [wrapTo_eq, BitVec.ofInt_add, BitVec.ofInt_mul, BitVec.ofInt_natCast, ← BitVec.ofInt_natCast 64 (2 ^ n)]
  push_cast
  rfl

/-- R150: the index, extended to 64 bits by its type. -/
theorem ofInt_intVal_index {t : Ty} (ht : t ∈ [Ty.i32, .n32]) (b : Nat) : BitVec.ofInt 64 (intVal t.signed 32 b) =
    if t = .i32 then (BitVec.ofNat 32 b).signExtend 64 else (BitVec.ofNat 32 b).setWidth 64 := by
  rcases List.mem_pair.mp ht with rfl | rfl
  · rw [if_pos rfl]
    show BitVec.ofInt 64 (intVal true 32 b) = _
    rw [intVal_true]; rfl
  · rw [if_neg (by decide)]
    show BitVec.ofInt 64 (intVal false 32 b) = _
    rw [intVal_false, BitVec.ofInt_natCast]
    exact BitVec.eq_of_toNat_eq (by simp)

theorem opLea_val {t : Ty} (ht : t ∈ [Ty.i32, .n32]) (n : Nat) (lx : Bool) (x : In) : ((opLea t n lx).fn x).val =
    (BitVec.ofNat 64 x.a + (if lx then BitVec.ofNat 64 x.b else if t = .i32 then (BitVec.ofNat 32 x.b).signExtend 64
      else (BitVec.ofNat 32 x.b).setWidth 64) * BitVec.ofNat 64 (2 ^ n)).toNat := by
  refine (wrapTo_lea _ _ _).trans ?_
  cases lx
  · rw [← ofInt_intVal_index ht]; rfl
  · rw [if_pos rfl, if_pos rfl, BitVec.ofInt_natCast]

/-- Settles O39: a move, a selection and an address, each by its value. -/
theorem movesAndAddresses : Obligations.MovesAndAddresses := by
  unfold Obligations.MovesAndAddresses
  intro f
  refine ⟨fun hwf => ?_, fun hwf => ?_, fun hwf => ⟨?_, ?_⟩⟩
  · have hwhole : ∀ t ∈ [Ty.b32, .b64, .b128], t.bits ≠ 0 ∧ 32 * regCount t.bits = t.bits := by decide
    exact rWritesSuch_of_lane (o := opMov f.w) rfl rfl (wholeRegs hwf hwhole) fun u j =>
      ⟨Nat.mod_lt _ (by positivity), mod_eq_ofNat_toNat _ _⟩
  · exact rWritesSuch_of_lane (o := opSel f.w f.c) rfl rfl (wholeRegs hwf bit2_whole) fun u j =>
      ⟨Nat.mod_lt _ (by positivity), opSel_val _ _ _⟩
  · have hxm : f.xm.toNat < 8 := (RUse.of_ok hwf).2.2.2
    exact Nat.testBit_lt_two_pow hxm
  · have ht := (RUse.of_ok hwf).1
    have hwhole : 64 ≠ 0 ∧ 32 * regCount 64 = 64 := by decide
    exact rWritesSuch_of_lane (o := opLea f.ty f.xm.toNat f.lx.isSome) rfl rfl hwhole fun u j =>
      ⟨lt_of_eq_of_lt (opLea_val ht _ _ _) (BitVec.isLt _), opLea_val ht _ _ _⟩

/-! ## Predicates (R140, R141, R148, R149) -/

theorem pred_single {p : Nat} {v w : Bool} (h : w = v) : (([(p, w)] : List (Nat × Bool)).map (·.1)).Nodup ∧ (p, v) ∈ [(p, w)] :=
  ⟨List.nodup_singleton _, by rw [h]; exact List.mem_singleton_self _⟩

/-- R141: the comparison by its code. -/
theorem cmpInt_tyVal (t : Ty) (cc a b : Nat) : cmpInt cc (intVal t.signed t.bits a) (intVal t.signed t.bits b) =
    match cc with
    | 0 => decide (tyVal t a = tyVal t b) | 1 => decide (tyVal t a ≠ tyVal t b) | 2 => decide (tyVal t a < tyVal t b)
    | 3 => decide (tyVal t a ≤ tyVal t b) | 4 => decide (tyVal t b < tyVal t a) | _ => decide (tyVal t b ≤ tyVal t a) := by
  rw [intVal_eq_tyVal, intVal_eq_tyVal]; rfl

theorem testBit_add_two_pow {s k : Nat} (h : s < 2 ^ k) (i : Nat) : (2 ^ k + s).testBit i = (i == k || s.testBit i) := by
  have hor := Nat.two_pow_add_eq_or_of_lt h 1
  rw [Nat.mul_one] at hor
  rw [hor, Nat.testBit_or, Nat.testBit_two_pow, decide_eq_decide.mpr (eq_comm (a := k))]
  rfl

/-- R149: the predicates below `k` that `predByte` has taken. -/
theorem predByte_prefix (p : Nat → Bool) (k : Nat) (n : Nat) : ∃ s < 2 ^ k, (∀ i, s.testBit i = (decide (i < k) && p i)) ∧
    (List.range k).foldl (fun n i => n + if p i then 2 ^ i else 0) n = n + s := by
  induction k with
  | zero => exact ⟨0, Nat.one_pos, fun i => by simp, rfl⟩
  | succ k ih =>
    obtain ⟨s, hlt, hbits, hfold⟩ := ih
    rw [List.range_succ, List.foldl_append, hfold]
    cases hp : p k
    · refine ⟨s, by rw [Nat.pow_succ]; omega, fun i => ?_, by simp [hp]⟩
      rw [hbits]
      by_cases hi : i = k
      · simp [hi, hp]
      · simp [show i < k + 1 ↔ i < k by omega]
    · refine ⟨2 ^ k + s, by rw [Nat.pow_succ]; omega, fun i => ?_, by simp only [List.foldl_cons, List.foldl_nil, hp, if_true]; omega⟩
      rw [testBit_add_two_pow hlt, hbits]
      by_cases hi : i = k
      · simp [hi, hp]
      · simp [hi, show i < k + 1 ↔ i < k by omega]

/-- R149: seven predicates under bit 7. -/
theorem predByte_bits (p : Nat → Bool) : bitsAre 32 (fun i => if i < 7 then p i else i == 7) (predByte p) := by
  obtain ⟨s, hlt, hbits, hfold⟩ := predByte_prefix p 7 128
  have hval : predByte p = 2 ^ 7 + s := hfold
  rw [hval]
  refine ⟨by omega, fun i _ => ?_⟩
  rw [testBit_add_two_pow hlt, hbits]
  by_cases hi : i < 7
  · simp [hi, Nat.ne_of_lt hi]
  · simp [hi]

/-- R148: a predicate as a number. -/
theorem toNat_eq_ite (b : Bool) : b.toNat = if b then 1 else 0 := by cases b <;> rfl

/-- Settles O40: the carry and the comparison are of the values that the rules name, and each predicate is written alone. -/
theorem predicateResults : Obligations.PredicateResults := by
  unfold Obligations.PredicateResults
  intro f
  refine ⟨fun hwf => ⟨?_, fun s u hready => ?_⟩, fun hwf => ⟨?_, ?_⟩, fun hwf => ?_, fun hwf hxm => ?_, fun hwf hxm n hn => ?_⟩
  · have hwhole : ∀ t ∈ [Ty.n32, .n64], t.bits ≠ 0 ∧ 32 * regCount t.bits = t.bits := by decide
    refine rWritesSuch_of_lane (o := opAddc f.w f.c f.xm) rfl rfl (wholeRegs hwf hwhole) fun u j => ⟨Nat.mod_lt _ (by positivity), ?_⟩
    simp only [BitVec.toNat_ofNat]
    rfl
  · obtain ⟨hblk, hms, hpart⟩ := rReady_unit hready
    obtain ⟨hexec, -⟩ := intLane_exec (i := .iaddc f) (o := opAddc f.w f.c f.xm) rfl rfl hready
    refine ⟨_, hexec, predLands_laneProg hblk hms hpart (Nat.mod_lt _ (by decide)) fun j => pred_single ?_⟩
    simp only [BitVec.toNat_ofNat]
    rfl
  · exact (RUse.of_ok hwf).2.2.2
  · have hd : f.d.toNat < 8 := of_decide_eq_true (RUse.of_ok hwf).2.1
    exact rTests_of_lane (o := opCmp f.ty f.xm.toNat f.d.toNat) rfl rfl rfl rfl hd fun u j => pred_single (cmpInt_tyVal _ _ _ _)
  · have hd : f.d.toNat < 8 := of_decide_eq_true (RUse.of_ok hwf).2.1
    refine rTests_of_lane (o := opPset f) rfl rfl rfl rfl hd fun u j => pred_single ?_
    simp only [toNat_eq_ite]
    rfl
  · have hlane : intLane (.pmov f) = some (rLane f opPget) := by simp [intLane, hxm]
    exact rWritesSuch_of_lane (o := opPget) hlane rfl ⟨(by decide : 32 ≠ 0), rfl⟩ fun u j =>
      ⟨(predByte_bits _).1, predByte_bits _⟩
  · have hlane : intLane (.pmov f) = some (rLane f opPput) := by simp [intLane, hxm]
    refine rTests_of_lane (o := opPput) hlane rfl rfl rfl (by omega) fun u j => ⟨?_, List.mem_map.mpr ⟨n, List.mem_range.mpr hn, rfl⟩⟩
    rw [show (opPput.fn (laneIn (rLane f opPput) u j)).preds.map (·.1) = List.range 7 from rfl]
    exact List.nodup_range

end Sys2Proof.Proofs.LaneArithmetic
end

