-- ==== Sys2Proof/Proofs/RegistersKept.lean ====
section
/-! PROOFS. Instructions without a destination register: their effects keep the lanes and s-registers of every block, and each
completes where its row's condition holds. -/

namespace Sys2Proof.Proofs.RegistersKept

open Sys2Proof.Machine Sys2Proof.Claims Sys2Proof.Proofs.MachineState Sys2Proof.Proofs.ExecutionModel
  Sys2Proof.Proofs.FormatsAssembly

/-! ## Effects that keep lanes and s-registers: accesses (R176, R181, R188, R190) -/

theorem foldl_blocks {β : Type} (l : List β) (f : Core → β → Core) (hf : ∀ k a, (f k a).blocks = k.blocks) (k : Core) :
    (l.foldl f k).blocks = k.blocks := by
  induction l generalizing k with
  | nil => rfl
  | cons a l ih => exact (ih (f k a)).trans (hf k a)

theorem keeps_bind (u : U) (ls : List Nat) : K (u.bind ls) := K.bindLate

theorem keeps_bindMet (u : U) (s : State) (sp : Space) (accs : List LAcc) : K (u.bindMet s sp accs) := K.when K.bindLate

theorem keeps_sent (u : U) (s : State) (accs : List LAcc) : K (u.sent s accs) := K.andThen K.kept (K.each fun _ => K.sys)

/-- An access that goes ahead keeps what its own effect keeps. -/
theorem keeps_kept {u : U} {s : State} {sp : Space} {accs : List LAcc} {p : Prog} (hp : K p) : K (kept u s sp accs p) := by
  cases sp with
  | global => exact K.andThen (keeps_sent u s accs) hp
  | scratch | clus => exact hp

theorem keeps_viewHazard (u : U) (view : Bool) (accs : List LAcc) : K (viewHazard u view accs) := by
  unfold viewHazard
  split
  · dsimp only; split
    · exact K.done
    · exact K.onGang
  · exact K.done

theorem keeps_storeProg (u : U) (s : State) (sp : Space) (ord : Ord) (scp : Scope) (view : Bool) (accs : List LAcc) (vals : Nat → Nat) :
    K (u.storeProg s sp ord scp view accs vals) :=
  K.allCons (K.when (keeps_bind _ _)) <| K.allCons (K.read fun t => keeps_bindMet u t sp accs) <| K.allCons (K.when K.views) <|
    K.allCons (K.when (K.read fun _ => K.mixed)) <| K.allCons (K.each fun _ => K.buffer) <| K.allCons (K.when K.fullFence) K.allNil

theorem keeps_mergeConst (u : U) (s : State) (accs : List LAcc) : K (u.mergeConst s accs) := K.when (K.each fun _ => K.merge)

theorem keeps_constFill (u : U) (s : State) (accs : List LAcc) : K (u.constFill s accs) := by
  refine K.allCons (K.each fun n => ?_) (K.allCons (K.core fun k => foldl_blocks _ _ (fun k w => ?_) k) K.allNil)
  · split
    · exact K.home
    · exact K.done
  · split <;> rfl

theorem keeps_prefetch (u : U) (level : Nat) (accs : List LAcc) : K (u.prefetch level accs) := by
  refine K.read fun s => ?_
  split
  · exact K.touch
  · refine K.each fun n => ?_
    split
    · exact K.home
    · exact K.done
  · exact K.andThen (keeps_mergeConst _ _ _) (K.read fun t => keeps_constFill _ _ _)

theorem keeps_bufferFence (u : U) (wide : Bool) : K (u.bufferFence wide) := by
  refine K.core fun k => foldl_blocks _ _ (fun _ _ => ?_) k
  rfl

theorem keeps_fenceProg (ord : Ord) (scp : Scope) (u : U) : K (fenceProg ord scp u) := by
  refine K.when ?_
  split
  · exact K.fullFence
  · exact K.allCons (keeps_bind _ _) (K.allCons (K.when K.settle) (K.allCons (K.when (keeps_bufferFence _ _)) K.allNil))

theorem keeps_dropTile (u : U) : K u.dropTile := K.clus

theorem keeps_pfenceProg (path : Nat) (u : U) : K (pfenceProg path u) := by
  refine K.when (K.andThen K.fullFence ?_)
  split
  · exact K.done
  · exact K.core fun _ => rfl
  · exact K.clus
  · exact K.core fun _ => rfl

theorem keeps_vjoinProg (u : U) : K (vjoinProg u) := K.when (K.andThen K.drain (K.onBlock fun _ => BK.of rfl rfl))

/-! ## Effects that keep lanes and s-registers: tiles, the array and copies (R212 to R240, R274) -/

theorem keeps_consumeTile (k h n : Nat) : K (consumeTile k h n) := K.andThen K.onPart K.clus

theorem keeps_engTake (u : U) (c : EngCtl) (base : Nat) : K (u.engTake c base) :=
  K.when (K.andThen K.onPart (K.when (keeps_consumeTile _ _ _)))

theorem keeps_engFill (u : U) (s : State) (sp : Nat) (tile write : Bool) (l : List Span) : K (u.engFill s sp tile write l) := by
  refine K.when ?_
  split
  · exact K.touch
  · exact K.each fun _ => K.home

theorem keeps_engViews (u : U) (sp base : Nat) (view write : Bool) (l : List Span) : K (u.engViews sp base view write l) := by
  refine K.when ?_
  unfold engineViews
  split
  · dsimp only; split
    · exact K.onBlock fun _ => BK.of rfl rfl
    · exact K.when K.onGang
  · exact K.done

theorem keeps_keptSpans {u : U} {sp : Nat} {l : List Span} {p : Prog} (hp : K p) : K (keptSpans u sp l p) := by
  unfold keptSpans
  split
  · exact K.andThen K.kept hp
  · exact hp

theorem keeps_keptSides {u : U} {p : Nat → Nat} {sbase dbase : Nat} {q : Prog} (hq : K q) :
    K (keptSides u p sbase (some dbase) q) := keeps_keptSpans (keeps_keptSpans hq)

theorem keeps_setShapes (c en : Nat) (sets : List W64 × List W64) : K (setShapes c en sets) := K.core fun _ => rfl

theorem keeps_dropLease (u : U) : K (dropLease u) := K.onBlock fun _ => BK.of rfl rfl

theorem keeps_countCommand (u : U) : K (countCommand u) := K.andThen K.clus (keeps_dropLease u)

theorem blockKept_advanceMc (x : Block) (ms : List Nat) (n : Nat) : BK x (x.advanceMc ms n) := mods ms id _ fun _ _ => rfl

theorem keeps_mwriteProg (u : U) (z r col e : Nat) (vals : Nat → Nat) : K (mwriteProg u z r col e vals) :=
  K.each fun _ => K.each fun _ => K.write

theorem keeps_queueCopy (u : U) (s : State) (p : Nat → Nat) (con : Bool) (sbase dbase : Nat) (dstOffs : List Nat) :
    K (queueCopy u s p con sbase dbase dstOffs) := by
  refine K.allCons (K.when K.release) (K.allCons (keeps_engTake _ _ _) (K.allCons (K.when K.addPend)
    (K.allCons (K.read fun t => ?_) K.allNil)))
  exact K.allCons (keeps_engFill _ _ _ _ _ _) (K.allCons (keeps_engFill _ _ _ _ _ _) (K.allCons (keeps_engViews _ _ _ _ _ _)
    (K.allCons (keeps_engViews _ _ _ _ _ _) (K.allCons (K.andThen K.onQueue (K.core fun _ => rfl)) K.allNil))))

/-! ## Effects that keep lanes and s-registers: control flow (R244 to R250) -/

/-- The slices of a block move within its gang's code, as `f` says for each. -/
theorem blockKept_moved {x : Block} (ms : List Nat) (f : Nat → Slice → Slice) (hf : ∀ i z, (f i z).s = z.s) :
    BK x ((ms.foldl (fun b i => b.modSlice i (f i)) x).follow ms) := (mods ms id f hf).trans (BK.follow _ _)

theorem keeps_release_dropTile {u : U} {ps : List Prog} (hps : K (Prog.all ps)) : K (Prog.all (u.release :: u.dropTile :: ps)) :=
  K.allCons K.release (K.allCons (keeps_dropTile u) hps)

theorem keeps_single {p : Prog} (hp : K p) : K (Prog.all [p]) := K.allCons hp K.allNil

/-! ## Rows that keep lanes and s-registers -/

/-- A row whose effect keeps lanes and s-registers, and behind which the gang goes on. -/
theorem next_keeps {len : Nat} {g : Guard} {cond : U → State → Bool} {p : U → State → Prog} {s : State} (h : ∀ u, K (p u s)) :
    RegsKept s ((simt len g cond (thenNext p)).next s) := row_keep fun u => K.thenNext (h u)

theorem store_keeps (sp : Space) (base : Nat) (f : MForm) (s : State) : RegsKept s ((storeRow sp base f).next s) :=
  next_keeps fun _ => keeps_kept (keeps_storeProg _ _ _ _ _ _ _ _)

theorem gather_keeps (scat : Bool) (f : MForm) (s : State) : RegsKept s ((gatherRow scat f).next s) := by
  unfold gatherRow
  refine next_keeps fun u => keeps_kept (K.allCons K.release (K.allCons K.addPend (K.allCons ?_
    (K.allCons (K.each fun _ => K.home) (keeps_single (K.core fun _ => rfl))))))
  split
  · exact keeps_viewHazard _ _ _
  · exact K.views

theorem mloadw_keeps (f : XForm) (blk : Option ParamBlock) (s : State) : RegsKept s ((mloadwRow f blk).next s) := by
  unfold mloadwRow
  exact next_keeps fun _ => keeps_keptSpans <| K.allCons (keeps_setShapes _ _ _) <| K.allCons K.release <|
    K.allCons (keeps_countCommand _) <| K.allCons (keeps_engTake _ _ _) <| K.allCons (keeps_engFill _ _ _ _ _ _) <|
    K.allCons (keeps_engViews _ _ _ _ _ _) <| keeps_single K.clus

theorem mstream_keeps (f : XForm) (blk : Option ParamBlock) (s : State) : RegsKept s ((mstreamRow f blk).next s) := by
  unfold mstreamRow
  exact next_keeps fun _ => keeps_keptSpans <| K.allCons (keeps_setShapes _ _ _) <| K.allCons K.release <|
    K.allCons (keeps_countCommand _) <| K.allCons (keeps_engTake _ _ _) <| K.allCons (keeps_engFill _ _ _ _ _ _) <|
    K.allCons (keeps_engViews _ _ _ _ _ _) <| K.allCons (K.when K.clus) <| K.allCons K.clus <|
    keeps_single (K.onBlock fun _ => blockKept_advanceMc _ _ _)

theorem arrive_keeps (f : XForm) (waits : Bool) (s : State) : RegsKept s ((arriveRow f waits).next s) := by
  unfold arriveRow
  refine row_keep fun u => ?_
  dsimp only
  split
  · exact K.thenNext (keeps_release_dropTile (K.allCons (K.core fun _ => rfl) (keeps_single K.tryRelease)))
  · exact K.thenStay (keeps_release_dropTile (keeps_single (K.core fun _ => rfl)))

theorem barw_keeps (f : XForm) (s : State) : RegsKept s ((barwRow f).next s) := by
  unfold barwRow
  refine row_keep fun u => ?_
  dsimp only
  split
  · exact K.thenNext K.done
  · exact K.thenStay K.done

theorem qpoint_keeps (f : XForm) (s : State) : RegsKept s ((qpointRow f).next s) := by
  refine row_keep fun u => ?_
  split
  · exact K.thenNext K.done
  · split
    · exact K.thenNext (K.andThen K.release K.ctx)
    · exact K.thenStay K.release

theorem gsync_keeps (s : State) : RegsKept s (gsyncRow.next s) :=
  row_keep fun _ => K.andThen (K.thenStay (K.andThen K.release K.grid)) K.tryGsync

theorem bra_keeps (f : BForm) (s : State) :
    RegsKept s ((braWith f.g always (fun u => u.target f) fun _ => .done).next s) :=
  row_keep fun u => K.thenOwn (K.andThen K.done (K.partAfter fun _ => blockKept_moved u.members _ fun _ z => bra_s z _ _ _))

theorem brx_keeps (f : XForm) (s : State) : RegsKept s ((brxRow f).next s) := by
  unfold brxRow
  exact row_keep fun u => K.thenOwn (K.partAfter fun _ => blockKept_moved u.members _ fun _ z => brx_s z _)

theorem join_keeps (s : State) : RegsKept s (joinRow.next s) :=
  row_keep fun u => K.thenOwn (K.partAfter fun _ => blockKept_moved u.members (fun _ x => if x.active = 0 then x else x.joinLanes) fun _ z => by
    split
    · rfl
    · exact join_s z)

theorem rconv_keeps (f : BForm) (s : State) : RegsKept s ((rconvRow f).next s) :=
  next_keeps fun u => K.onBlock fun _ => mods u.members id _ fun _ _ => rfl

theorem sleep_keeps (f : XForm) (s : State) : RegsKept s ((sleepRow f).next s) := by
  unfold sleepRow
  refine row_keep fun u => ?_
  dsimp only
  split
  · exact K.thenNext K.done
  · exact K.thenStay (K.when K.onGang)

/-- Each of the forty-five rows keeps lanes and s-registers. -/
theorem plain_keeps {i : Instr} {r : Row} (hrow : plainRow i = some r) (s : State) : RegsKept s (r.next s) := by
  cases i
  case st | sts | stk => cases hrow; exact store_keeps _ _ _ s
  case pref => cases hrow; exact next_keeps fun _ => keeps_prefetch _ _ _
  case gath | scat => cases hrow; exact gather_keeps _ _ s
  case fence => cases hrow; exact next_keeps fun _ => keeps_fenceProg _ _ _
  case pfence => cases hrow; exact next_keeps fun _ => keeps_pfenceProg _ _
  case vjoin => cases hrow; exact next_keeps fun _ => keeps_vjoinProg _
  case tseal => cases hrow; exact next_keeps fun _ => keeps_release_dropTile (keeps_single K.onPart)
  case tst =>
    obtain ⟨w, -, rfl⟩ := Option.map_eq_some_iff.mp hrow
    exact next_keeps fun _ => K.each fun _ => K.write
  case tdrop => cases hrow; unfold tdropRow; exact next_keeps fun _ => keeps_consumeTile _ _ _
  case qpost => cases hrow; exact next_keeps fun _ => keeps_release_dropTile (keeps_single K.onFlume)
  case qadv => cases hrow; unfold qadvRow; exact next_keeps fun _ => K.onFlume
  case mlease => cases hrow; unfold mleaseRow; exact next_keeps fun _ => K.when (K.andThen (keeps_dropLease _) K.clus)
  case mrel => cases hrow; exact next_keeps fun _ => K.andThen K.clus (keeps_dropLease _)
  case mloadw => cases hrow; exact mloadw_keeps _ _ s
  case mswap => cases hrow; exact next_keeps fun _ => K.andThen (keeps_countCommand _) K.clus
  case mstream => cases hrow; exact mstream_keeps _ _ s
  case mzero => cases hrow; exact next_keeps fun _ => K.zero
  case mwrite => cases hrow; unfold mwriteRow; exact next_keeps fun _ => keeps_mwriteProg _ _ _ _ _ _
  case mmeta => cases hrow; unfold mmetaRow; exact next_keeps fun u => K.onBlock fun _ => mods u.members id _ fun _ _ => rfl
  case mshape => cases hrow; exact next_keeps fun _ => K.core fun _ => rfl
  case cpy => cases hrow; unfold cpyRow; exact next_keeps fun _ => keeps_keptSides (K.andThen (keeps_setShapes _ _ _) (keeps_queueCopy _ _ _ _ _ _ _))
  case cpyw => cases hrow; exact next_keeps fun _ => K.done
  case splw =>
    cases hrow
    exact next_keeps fun _ => K.allCons K.release (K.allCons (K.core fun _ => rfl) (keeps_single (K.core fun _ => rfl)))
  case bar | barxArv => cases hrow; exact arrive_keeps _ _ s
  case barxExp => cases hrow; unfold barxExpRow; exact next_keeps fun _ => K.andThen (K.core fun _ => rfl) K.tryRelease
  case barw => cases hrow; exact barw_keeps _ s
  case bbrot => cases hrow; exact next_keeps fun _ => K.onBlock fun _ => BK.of rfl rfl
  case gsync => cases hrow; exact gsync_keeps s
  case qpoint => cases hrow; exact qpoint_keeps _ s
  case bra => cases hrow; exact bra_keeps _ s
  case brx | ret => cases hrow; exact brx_keeps _ s
  case rconv => cases hrow; exact rconv_keeps _ s
  case join => cases hrow; exact join_keeps s
  case yield => cases hrow; exact next_keeps fun _ => K.andThen K.onGang (K.core fun _ => rfl)
  case sleep => cases hrow; exact sleep_keeps _ s
  case pgrant => cases hrow; unfold pgrantRow; exact next_keeps fun _ => K.andThen K.clus (K.onBlock fun _ => BK.of rfl rfl)
  case prels => cases hrow; exact next_keeps fun _ => K.onBlock fun _ => BK.of rfl rfl
  case pgate => cases hrow; exact next_keeps fun _ => K.andThen (K.core fun _ => rfl) K.tryGate
  case probe => cases hrow; exact next_keeps fun _ => K.when K.trace
  case docinv => cases hrow; exact next_keeps fun _ => K.done
  all_goals cases hrow

/-! ## Checks that pass (R92, R286) -/

theorem withShape_ok {u : U} {en : Nat} {f : XForm} {blk : Option ParamBlock} (h : mayShape u f blk = true)
    (k : (Nat → Nat) → Prog → Issue) :
    u.withShape en f blk k = k (shapeField u en f blk) (setShapes u.c en (u.shapeSets en blk (f.fld 1 14 == 1))) := by
  rw [mayShape, Bool.not_eq_true'] at h
  unfold U.withShape
  simp only [h, Bool.false_eq_true, if_false]
  rfl

theorem spill_ok {u : U} {s : State} (h : spillFree u s = true) (k : Issue) : u.spill s k = k := by
  unfold spillFree at h
  unfold U.spill
  cases hholder : s.spillHolder u.c with
  | none => rfl
  | some x =>
    rw [hholder] at h
    exact if_pos (beq_iff_eq.mp h)

/-- R218: the checks of a tile pass. -/
theorem tile_of_isSome {u : U} {s : State} {h : Nat} {use : TUse} (ht : (tileFor u s h use).isSome = true) (i : Issue) :
    (u.tile s h use fun _ => i) = i := by
  obtain ⟨t, ht⟩ := Option.isSome_iff_exists.mp ht
  exact tile_ok u s h use _ t ht

theorem planeFor_eq (u : U) (s : State) (f : XForm) : planeFor u s f =
    if f.fld 1 13 == 1 then (s.cluster (clusterOf u.c)).shadow else (s.cluster (clusterOf u.c)).active := rfl

/-- R237: a gang without metadata streams against the word 0. -/
theorem withMeta_none {u : U} (h : u.mc = none) (s : State) (k : W64 → Prog → Issue) : u.withMeta s k = k 0 .done := by
  unfold U.withMeta
  rw [h]

/-! ## Instructions that complete: memory (R173 to R203) -/

theorem store_completes {sp : Space} {base : Nat} {f : MForm} {s : State} (hok : (storeRow sp base f).ok s = true) :
    runM f (storeSem sp base f) s = .next ((storeRow sp base f).next s) := by
  refine runSimt_of_carries hok fun u _ hcond => ?_
  rw [Bool.and_eq_true] at hcond
  obtain ⟨hready, hreach⟩ := hcond
  rw [storeSem, need_ok _ _ _ hready, U.store, cleared_ok _ _ _ _ _ _ _ hreach]
  rfl

theorem pref_completes {f : MForm} {s : State} (hok : (prefRow f).ok s = true) : execPref f s = .next ((prefRow f).next s) := by
  refine runSimt_of_carries hok fun u _ hready => ?_
  rw [semPref, need_ok _ _ _ hready]
  rfl

/-- R188: both sides can be reached, and the barrier's count has room. -/
theorem gather_completes {scat : Bool} {f : MForm} {s : State} (hok : (gatherRow scat f).ok s = true) :
    runM f (gatherSem scat f) s = .next ((gatherRow scat f).next s) := by
  simp only [gatherRow] at hok ⊢
  refine runSimt_of_carries hok fun u hslot hcond => ?_
  simp only [Bool.and_eq_true, beq_iff_eq, decide_eq_true_eq, takes, Bool.not_eq_true'] at hcond
  obtain ⟨⟨⟨⟨⟨⟨hready, hzero⟩, hbar⟩, htakes⟩, hglob⟩, hscr⟩, hroom⟩ := hcond
  simp only [gatherSem, hslot, Option.isSome_none, Bool.false_eq_true, if_false, need_ok _ _ _ hready, htakes, hzero, hbar, bne_self_eq_false,
    Bool.not_true, Bool.or_self, gt_iff_lt, Nat.not_lt.mpr hroom, cleared_ok _ _ _ _ _ _ _ hscr, kept, cleared_ok _ _ _ _ _ _ _ hglob]
  rfl

/-! ## Instructions that complete: tiles and flumes (R216 to R226) -/

theorem tseal_completes {f : XForm} {s : State} (hok : (tsealRow f).ok s = true) : execTseal f s = .next ((tsealRow f).next s) := by
  refine runSimt_of_carries hok fun u _ hcond => ?_
  simp only [Bool.and_eq_true] at hcond
  obtain ⟨⟨hready, htakes⟩, htile⟩ := hcond
  rw [semTseal, need_ok _ _ _ hready, tsealOp, once_ok _ _ htakes, tile_of_isSome htile]
  rfl

theorem tst_completes {f : XForm} {w : Width} {s : State} (hw : f.tileW = some w) (hok : (tstRow f w).ok s = true) :
    execTst f s = .next ((tstRow f w).next s) := by
  refine runSimt_of_carries hok fun u _ hcond => ?_
  simp only [Bool.and_eq_true] at hcond
  obtain ⟨⟨hready, htakes⟩, hin⟩ := hcond
  obtain ⟨t, htile, hoffs⟩ := inTile_ok hin
  simp only [semTst, hw, need_ok _ _ _ hready, tstOp, tileAccess, once_ok _ _ htakes, tile_ok _ _ _ _ _ _ htile, hoffs]
  rfl

theorem tdrop_completes {f : XForm} {s : State} (hok : (tdropRow f).ok s = true) : execTdrop f s = .next ((tdropRow f).next s) := by
  simp only [tdropRow] at hok ⊢
  refine runSimt_of_carries hok fun u _ hcond => ?_
  simp only [Bool.and_eq_true, Bool.not_eq_true'] at hcond
  obtain ⟨⟨⟨hready, htakes⟩, hcount⟩, htile⟩ := hcond
  simp only [semTdrop, need_ok _ _ _ hready, tdropOp, once_ok _ _ htakes, hcount, Bool.false_eq_true, if_false, tile_of_isSome htile]
  rfl

theorem qpost_completes {f : XForm} {s : State} (hok : (qpostRow f).ok s = true) : execQpost f s = .next ((qpostRow f).next s) := by
  refine runSimt_of_carries hok fun u _ hcond => ?_
  simp only [Bool.and_eq_true] at hcond
  obtain ⟨⟨⟨hready, htakes⟩, htile⟩, hflume⟩ := hcond
  split at hflume
  next q hq =>
    simp only [Bool.and_eq_true, beq_iff_eq, Bool.not_eq_true'] at hflume
    obtain ⟨hpart, hroom⟩ := hflume
    simp only [semQpost, need_ok _ _ _ hready, qpostOp, flume_ok hq, once_ok _ _ htakes, tile_of_isSome htile, hpart, hroom,
      bne_self_eq_false, Bool.false_eq_true, if_false]
    rfl
  next => contradiction

theorem qadv_completes {f : XForm} {s : State} (hok : (qadvRow f).ok s = true) : execQadv f s = .next ((qadvRow f).next s) := by
  simp only [qadvRow] at hok ⊢
  refine runSimt_of_carries hok fun u _ hcond => ?_
  simp only [Bool.and_eq_true, Bool.not_eq_true'] at hcond
  obtain ⟨⟨⟨hready, htakes⟩, hcount⟩, hflume⟩ := hcond
  split at hflume
  next q hq =>
    simp only [Bool.and_eq_true, decide_eq_true_eq] at hflume
    obtain ⟨hcur, hbeyond⟩ := hflume
    simp only [semQadv, need_ok _ _ _ hready, flume_ok hq, once_ok _ _ htakes, hcount, ge_iff_le, Nat.not_le.mpr hcur, gt_iff_lt,
      Nat.not_lt.mpr hbeyond, Bool.false_eq_true, if_false]
    rfl
  next => contradiction

/-! ## Instructions that complete: the matrix array (R228 to R239) -/

/-- R229: a lease that was granted, or that arbitration gives at once. -/
theorem mlease_completes {f : XForm} {s : State} (hok : (mleaseRow f).ok s = true) : execMlease f s = .next ((mleaseRow f).next s) := by
  simp only [mleaseRow] at hok ⊢
  refine runSimt_of_carries hok fun u _ hcond => ?_
  rw [Bool.and_eq_true] at hcond
  obtain ⟨htakes, hgrant⟩ := hcond
  rw [semMlease, mleaseOp, once_ok _ _ htakes]
  cases hgranted : u.gang.granted with
  | true => simp only [if_true, thenNext, hgranted, Bool.not_true]; rfl
  | false =>
    rw [hgranted, Bool.false_or, Bool.and_eq_true] at hgrant
    obtain ⟨hfree, hpick⟩ := hgrant
    split at hpick
    next w q hw =>
      simp only [Bool.false_eq_true, if_false, mleaseOp.ask, hfree, if_true, hw, hpick, thenNext, hgranted, Bool.not_false, Prog.when]
      rfl
    next => contradiction

theorem mrel_completes {f : XForm} {s : State} (hok : (mrelRow f).ok s = true) : execMrel f s = .next ((mrelRow f).next s) := by
  refine runSimt_of_carries hok fun u _ htakes => ?_
  rw [semMrel, once_ok _ _ htakes]
  rfl

theorem mloadw_completes {f : XForm} {blk : Option ParamBlock} {s : State} (hok : (mloadwRow f blk).ok s = true) :
    execMloadw f blk s = .next ((mloadwRow f blk).next s) := by
  simp only [mloadwRow] at hok ⊢
  refine runSimt_of_carries hok fun u _ hcond => ?_
  simp only [Bool.and_eq_true, Bool.not_eq_true'] at hcond
  obtain ⟨⟨⟨⟨⟨⟨hfeats, hready⟩, hshape⟩, htakes⟩, hlegal⟩, hleased⟩, hsource⟩ := hcond
  simp only [semMloadw, hfeats, Bool.not_true, Bool.false_eq_true, if_false, need_ok _ _ _ hready, withShape_ok hshape, mloadwOp,
    once_ok _ _ htakes, hlegal, leased_ok hleased, engReach_ok hsource]
  rfl

theorem mswap_completes {f : XForm} {s : State} (hok : (mswapRow f).ok s = true) : execMswap f s = .next ((mswapRow f).next s) := by
  refine runSimt_of_carries hok fun u _ hcond => ?_
  simp only [Bool.and_eq_true, beq_iff_eq] at hcond
  obtain ⟨⟨htakes, hleased⟩, hidle⟩ := hcond
  simp only [semMswap, once_ok _ _ htakes, leased_ok hleased, hidle, ne_eq, not_true_eq_false, if_false]
  rfl

/-- R234 to R237: a stream of a gang without metadata. -/
theorem mstream_completes {f : XForm} {blk : Option ParamBlock} {s : State} (hok : (mstreamRow f blk).ok s = true) :
    execMstream f blk s = .next ((mstreamRow f blk).next s) := by
  simp only [mstreamRow] at hok ⊢
  refine runSimt_of_carries hok fun u hslot hcond => ?_
  simp only [Bool.and_eq_true, Bool.not_eq_true', decide_eq_true_eq, beq_iff_eq] at hcond
  obtain ⟨⟨⟨⟨⟨⟨⟨⟨⟨⟨⟨⟨⟨hfeats, htile⟩, hready⟩, hshape⟩, htakes⟩, hlegal⟩, hleased⟩, hswap⟩, hvalid⟩, hctx⟩, hclass⟩, hmeta⟩, hsource⟩,
    hidle⟩ := hcond
  have hqueue : ((f.fld 1 13 == 1) && decide ((s.cluster (clusterOf u.c)).wloads ≠ [])) = false := by
    simpa using hswap
  simp only [semMstream, hfeats, Bool.not_true, ge_iff_le, Nat.not_le.mpr htile, decide_false, Bool.false_eq_true, if_false,
    need_ok _ _ _ hready, withShape_ok hshape, mstreamOp, once_ok _ _ htakes, hlegal, leased_ok hleased, hqueue, ← planeFor_eq, hvalid,
    hctx, hclass, bne_self_eq_false, Bool.or_false, withMeta_none hmeta, hidle, engReach_ok hsource, hslot, Option.isNone_none]
  rfl

theorem mzero_completes {f : XForm} {s : State} (hok : (mzeroRow f).ok s = true) : execMzero f s = .next ((mzeroRow f).next s) := by
  refine runSimt_of_carries hok fun u _ hcond => ?_
  rw [Bool.and_eq_true] at hcond
  obtain ⟨hfree, htakes⟩ := hcond
  rw [semMzero, mzeroOp, accum_ok hfree, once_ok _ _ htakes]
  rfl

theorem mwrite_completes {f : XForm} {s : State} (hok : (mwriteRow f).ok s = true) : execMwrite f s = .next ((mwriteRow f).next s) := by
  simp only [mwriteRow] at hok ⊢
  refine runSimt_of_carries hok fun u _ hcond => ?_
  rw [Bool.and_eq_true] at hcond
  obtain ⟨hready, hfree⟩ := hcond
  simp only [semMwrite, need_ok _ _ _ hready, accum_ok hfree]
  rfl

theorem mmeta_completes {f : XForm} {s : State} (hok : (mmetaRow f).ok s = true) : execMmeta f s = .next ((mmetaRow f).next s) := by
  simp only [mmetaRow] at hok ⊢
  refine runSimt_of_carries hok fun u _ hcond => ?_
  simp only [Bool.and_eq_true, Bool.or_eq_true, beq_iff_eq] at hcond
  obtain ⟨⟨hready, htakes⟩, haligned⟩ := hcond
  have hlegal : ¬ (f.a.toNat != 0xFF && (BitVec.ofNat 64 (u.rd1 f.a 64)).toNat % 8 != 0) = true := by
    simpa only [Bool.and_eq_true, bne_iff_ne, not_and_or, ne_eq, not_not] using haligned
  simp only [semMmeta, need_ok _ _ _ hready, once_ok _ _ htakes, hlegal]
  rfl

theorem mshape_completes {f : XForm} {s : State} (hok : (mshapeRow f).ok s = true) : execMshape f s = .next ((mshapeRow f).next s) := by
  refine runSimt_of_carries hok fun u _ hcond => ?_
  simp only [Bool.and_eq_true, Bool.not_eq_true'] at hcond
  obtain ⟨⟨hlevel, hready⟩, htakes⟩ := hcond
  simp only [semMshape, need_ok _ _ _ hready, hlevel, Bool.false_eq_true, if_false, once_ok _ _ htakes]
  rfl

/-! ## Instructions that complete: copies and the Spillway (R274, R278, R284) -/

theorem cpy_completes {f : XForm} {blk : Option ParamBlock} {s : State} (hok : (cpyRow f blk).ok s = true) :
    execCpy f blk s = .next ((cpyRow f blk).next s) := by
  simp only [cpyRow] at hok ⊢
  refine runSimt_of_carries hok fun u _ hcond => ?_
  simp only [Bool.and_eq_true, Bool.not_eq_true'] at hcond
  obtain ⟨⟨⟨⟨⟨hmail, hready⟩, hshape⟩, htakes⟩, hcopy⟩, hdst⟩ := hcond
  simp only [semCpy, hmail, Bool.false_eq_true, if_false, need_ok _ _ _ hready, withShape_ok hshape, once_ok _ _ htakes,
    copyOp_of_ready hcopy hdst]
  rfl

theorem cpyw_completes {f : XForm} {s : State} (hok : (cpywRow f).ok s = true) : execCpyw f s = .next ((cpywRow f).next s) := by
  refine runSimt_of_carries hok fun u _ hcond => ?_
  simp only [Bool.and_eq_true, decide_eq_true_eq] at hcond
  obtain ⟨⟨htakes, hright⟩, hroom⟩ := hcond
  simp only [semCpyw, once_ok _ _ htakes, hright, Bool.not_true, Bool.false_eq_true, if_false, hroom, if_true]
  rfl

theorem splw_completes {f : XForm} {s : State} (hok : (splwRow f).ok s = true) : execSplw f s = .next ((splwRow f).next s) := by
  refine runSimt_of_carries hok fun u _ hcond => ?_
  simp only [Bool.and_eq_true, decide_eq_true_eq, takes, Bool.not_eq_true'] at hcond
  obtain ⟨⟨⟨⟨⟨hfeat, hfield⟩, hready⟩, htakes⟩, hfree⟩, hslots⟩ := hcond
  simp only [semSplw, hfeat, hfield, Bool.not_true, Bool.or_self, Bool.false_eq_true, if_false, need_ok _ _ _ hready, htakes, spill_ok hfree,
    hslots]
  rfl

/-! ## Instructions that complete: synchronisation (R255 to R265) -/

theorem arrive_completes {f : XForm} {waits : Bool} {s : State} (hok : (arriveRow f waits).ok s = true) :
    runX f (fun u s => arriveOp u s (u.blk.barOf f.d.toNat) waits) s = .next ((arriveRow f waits).next s) := by
  simp only [arriveRow] at hok ⊢
  refine runSimt_of_carries hok fun u _ hcond => ?_
  rw [Bool.and_eq_true, decide_eq_true_eq] at hcond
  obtain ⟨howns, hroom⟩ := hcond
  rw [arriveOp_eq _ _ _ _ howns hroom]
  split <;> rfl

theorem barxExp_completes {f : XForm} {s : State} (hok : (barxExpRow f).ok s = true) :
    execBarxExp f s = .next ((barxExpRow f).next s) := by
  simp only [barxExpRow] at hok ⊢
  refine runSimt_of_carries hok fun u _ hcond => ?_
  simp only [Bool.and_eq_true, bne_iff_ne, ne_eq, decide_eq_true_eq] at hcond
  obtain ⟨⟨howns, hpos⟩, hle⟩ := hcond
  have hlegal : (!u.blk.ownsBar (u.blk.barOf f.d.toNat) || f.fld 5 0 == 0 || decide (f.fld 5 0 > u.blk.width / 4)) = false := by
    simp [howns, hpos, hle]
  simp only [semBarxExp, hlegal, Bool.false_eq_true, if_false]
  rfl

theorem barw_completes {f : XForm} {s : State} (hok : (barwRow f).ok s = true) : execBarw f s = .next ((barwRow f).next s) := by
  simp only [barwRow] at hok ⊢
  refine runSimt_of_carries hok fun u _ hcond => ?_
  rw [Bool.and_eq_true] at hcond
  obtain ⟨howns, htakes⟩ := hcond
  simp only [semBarw, once_ok _ _ htakes, howns, Bool.not_true, Bool.false_eq_true, if_false]
  split <;> rfl

theorem bbrot_completes {f : XForm} {s : State} (hok : (bbrotRow f).ok s = true) : execBbrot f s = .next ((bbrotRow f).next s) := by
  refine runSimt_of_carries hok fun u _ htakes => ?_
  rw [semBbrot, once_ok _ _ htakes]
  rfl

/-- R260: the gang's arrival, without the release that it may bring about. -/
def gsyncArrival : Row :=
  simt 8 Guard.always (fun u _ => u.grid.pkt.coop)
    (thenStay (fun u => .gsync u.grid.gsyncGen true)
      (fun u _ => u.release.andThen (.one (.grid u.blk.grid fun g => g.arrive u.blk.idx u.members))))

theorem gsyncArrival_completes {s : State} (hok : gsyncArrival.ok s = true) :
    runSimt 8 Guard.always semGsync s = .next (gsyncArrival.next s) := by
  refine runSimt_of_carries hok fun u _ hcoop => ?_
  simp only [semGsync, hcoop, Bool.not_true, Bool.false_eq_true, if_false]
  rfl

/-- The release is tried once the gang waits. -/
theorem gsync_completes {s : State} (hok : gsyncRow.ok s = true) : execGsync s = .next (gsyncRow.next s) := by
  have harrival := gsyncArrival_completes (s := s) hok
  cases hunit : unitOf s 8 with
  | none => simp only [gsyncRow, simt, hunit, Bool.false_eq_true] at hok
  | some u =>
    simp only [execGsync, harrival, hunit, gsyncArrival, gsyncRow, simt, Prog.run_andThen]
    rfl

theorem qpoint_completes {f : XForm} {s : State} (hok : (qpointRow f).ok s = true) : execQpoint f s = .next ((qpointRow f).next s) := by
  refine runSimt_of_carries hok fun u hslot htakes => ?_
  simp only [semQpoint, once_ok _ _ htakes, hslot, Option.isNone_none, Bool.true_and]
  split
  · rfl
  · split <;> rfl

/-! ## Instructions that complete: power, trace and invalidation (R294 to R301) -/

theorem pgrant_completes {f : XForm} {s : State} (hok : (pgrantRow f).ok s = true) : execPgrant f s = .next ((pgrantRow f).next s) := by
  simp only [pgrantRow] at hok ⊢
  refine runSimt_of_carries hok fun u _ hcond => ?_
  rw [Bool.and_eq_true] at hcond
  obtain ⟨htakes, hmay⟩ := hcond
  rw [semPgrant, once_ok _ _ htakes]
  rcases (Bool.or_eq_true _ _).mp hmay with hheld | hturn
  · exact (congrArg u.carry (if_pos hheld)).trans rfl
  · rw [if_pos hturn, ite_self]; rfl

theorem prels_completes {f : XForm} {s : State} (hok : (prelsRow f).ok s = true) : execPrels f s = .next ((prelsRow f).next s) := by
  refine runSimt_of_carries hok fun u _ htakes => ?_
  rw [semPrels, once_ok _ _ htakes]
  rfl

theorem pgate_completes {f : XForm} {s : State} (hok : (pgateRow f).ok s = true) : execPgate f s = .next ((pgateRow f).next s) := by
  refine runSimt_of_carries hok fun u _ htakes => ?_
  rw [semPgate, once_ok _ _ htakes]
  rfl

theorem probe_completes {f : XForm} {s : State} (hok : (probeRow f).ok s = true) : execProbe f s = .next ((probeRow f).next s) := by
  refine runSimt_of_carries hok fun u _ htakes => ?_
  rw [semProbe, once_ok _ _ htakes]
  rfl

/-- R301: an empty range, or one that every core has discarded. -/
theorem docinv_completes {f : XForm} {s : State} (hok : (docinvRow f).ok s = true) : execDocinv f s = .next ((docinvRow f).next s) := by
  refine runSimt_of_carries hok fun u _ hcond => ?_
  simp only [Bool.and_eq_true, Bool.not_eq_true', Bool.or_eq_true, beq_iff_eq] at hcond
  obtain ⟨⟨⟨hlevel, hready⟩, htakes⟩, hdone⟩ := hcond
  simp only [semDocinv, hlevel, Bool.false_eq_true, if_false, need_ok _ _ _ hready, once_ok _ _ htakes]
  rcases hdone with hempty | hdiscarded
  · rw [if_pos hempty]; rfl
  · rw [if_pos hdiscarded, ite_self]; rfl

/-! ## The obligation -/

/-- Each of the forty-five instructions completes where its row's condition holds. -/
theorem plain_completes {i : Instr} {r : Row} {s : State} (hrow : plainRow i = some r) (hok : r.ok s = true) :
    exec i s = .next (r.next s) := by
  cases i
  case st | sts | stk => cases hrow; exact store_completes hok
  case pref => cases hrow; exact pref_completes hok
  case gath | scat => cases hrow; exact gather_completes hok
  case fence | pfence | vjoin => cases hrow; exact runSimt_of_carries hok fun _ _ _ => rfl
  case tseal => cases hrow; exact tseal_completes hok
  case tst =>
    obtain ⟨w, hw, rfl⟩ := Option.map_eq_some_iff.mp hrow
    exact tst_completes hw hok
  case tdrop => cases hrow; exact tdrop_completes hok
  case qpost => cases hrow; exact qpost_completes hok
  case qadv => cases hrow; exact qadv_completes hok
  case mlease => cases hrow; exact mlease_completes hok
  case mrel => cases hrow; exact mrel_completes hok
  case mloadw => cases hrow; exact mloadw_completes hok
  case mswap => cases hrow; exact mswap_completes hok
  case mstream => cases hrow; exact mstream_completes hok
  case mzero => cases hrow; exact mzero_completes hok
  case mwrite => cases hrow; exact mwrite_completes hok
  case mmeta => cases hrow; exact mmeta_completes hok
  case mshape => cases hrow; exact mshape_completes hok
  case cpy => cases hrow; exact cpy_completes hok
  case cpyw => cases hrow; exact cpyw_completes hok
  case splw => cases hrow; exact splw_completes hok
  case bar | barxArv => cases hrow; exact arrive_completes hok
  case barxExp => cases hrow; exact barxExp_completes hok
  case barw => cases hrow; exact barw_completes hok
  case bbrot => cases hrow; exact bbrot_completes hok
  case gsync => cases hrow; exact gsync_completes hok
  case qpoint => cases hrow; exact qpoint_completes hok
  case bra | brx | ret | rconv | join | yield | sleep => cases hrow; exact controlFlowCompletes _ _ s rfl hok
  case pgrant => cases hrow; exact pgrant_completes hok
  case prels => cases hrow; exact prels_completes hok
  case pgate => cases hrow; exact pgate_completes hok
  case probe => cases hrow; exact probe_completes hok
  case docinv => cases hrow; exact docinv_completes hok
  all_goals cases hrow

/-- Settles O53: each instruction completes as its row says, and the row's effect keeps lanes and s-registers. -/
theorem registersKept : Obligations.RegistersKept := by
  unfold Obligations.RegistersKept
  exact fun i s r hrow hok => ⟨plain_completes hrow hok, plain_keeps hrow s⟩

end Sys2Proof.Proofs.RegistersKept
end

