-- ==== Sys2Proof/Proofs/MemoryInstructions.lean ====
section
/-! PROOFS. Memory instructions (R173 to R205): each completes where its row's condition holds. -/

namespace Sys2Proof.Proofs.MemoryInstructions

open Sys2Proof.Machine Sys2Proof.Claims Sys2Proof.Proofs.ExecutionModel Sys2Proof.Proofs.RegistersKept

/-! ## Instructions that complete (R181, R184, R191, R204) -/

theorem load_completes {sp : Space} {base : Nat} {f : MForm} {s : State} (hok : (loadRow sp base f).ok s = true) :
    runM f (loadSem sp base f) s = .next ((loadRow sp base f).next s) := by
  refine runSimt_of_carries hok fun u _ hcond => ?_
  rw [Bool.and_eq_true] at hcond
  obtain ⟨hready, hreach⟩ := hcond
  rw [loadSem, need_ok _ _ _ hready, U.load, cleared_ok _ _ _ _ _ _ _ hreach]
  rfl

/-- R184: in SIMT code a constant-path load reads what stands as it goes ahead. -/
theorem ldc_completes {f : MForm} {s : State} (hok : (ldcRow f).ok s = true) : execLdc f s = .next ((ldcRow f).next s) := by
  refine runSimt_of_carries hok fun u hslot hcond => ?_
  rw [Bool.and_eq_true] at hcond
  obtain ⟨hready, hreach⟩ := hcond
  simp only [semLdc, need_ok _ _ _ hready, cleared_ok _ _ _ _ _ _ _ hreach, hslot, Option.isNone_none, Option.isSome_none,
    Bool.false_eq_true, if_false]
  rfl

/-- R191, R430: an atomic whose lanes may reach their locations, and that a replay's log has next. -/
theorem atomOn_completes {sp : Space} {view red : Bool} {f : XForm} {ty : Ty} {ord : Ord} {s : State}
    (hty : atomTy (f.fld 3 9) = some ty) (hord : Ord.ofCode (bits 3 f.imm 6) = some ord)
    (hok : (atomRowOn sp view red f ty ord).ok s = true) :
    runX f (atomSem sp view red f) s = .next ((atomRowOn sp view red f ty ord).next s) := by
  unfold atomRowOn at hok ⊢
  refine runSimt_of_carries hok fun u _ hcond => ?_
  rw [Bool.and_eq_true, Bool.and_eq_true] at hcond
  obtain ⟨⟨hready, hreach⟩, hreplay⟩ := hcond
  have hallowed : (sp == .global && !s.replayAllows u.blk.ctx
      (u.atomRecs s (u.part.map fun i => { lane := i, ea := u.rd i f.a (if sp == .global then 64 else 32), size := ty.bits / 8 }))) = false := by
    cases hsp : sp == .global with
    | false => rfl
    | true => simpa [bne, hsp] using hreplay
  simp only [atomSem, hty, hord, need_ok _ _ _ hready, U.atomic, hallowed, Bool.false_eq_true, if_false, cleared_ok _ _ _ _ _ _ _ hreach]
  rfl

theorem atom_completes {sp : Space} {view red : Bool} {f : XForm} {s : State} (hok : (atomRow sp view red f).ok s = true) :
    runX f (atomSem sp view red f) s = .next ((atomRow sp view red f).next s) := by
  unfold atomRow at hok ⊢
  split at hok
  next ty ord hty hord => exact atomOn_completes hty hord hok
  next => cases hok

/-- R204, R417: the ports to the lines' peers are open. -/
theorem cctl_completes {f : XForm} {s : State} (hok : (cctlRow f).ok s = true) : execCctl f s = .next ((cctlRow f).next s) := by
  unfold cctlRow at hok ⊢
  refine runSimt_of_carries hok fun u _ hcond => ?_
  rw [Bool.and_eq_true] at hcond
  obtain ⟨hready, hports⟩ := hcond
  simp only [semCctl, need_ok _ _ _ hready, hports, Bool.not_true, Bool.false_eq_true, if_false]
  rfl

/-- Settles O16: stores, prefetches, gathers and fences complete as instructions without a destination do; loads, atomics and cache
control complete by the lemmas above. -/
theorem memoryCompletes : Obligations.MemoryCompletes := by
  unfold Obligations.MemoryCompletes
  intro i r s hrow hok
  cases i
  case ld | lds | ldk => cases hrow; exact load_completes hok
  case st | sts | stk | pref | gath | scat | fence | pfence | vjoin => exact plain_completes hrow hok
  case ldc => cases hrow; exact ldc_completes hok
  case atom | atoms | red => cases hrow; exact atom_completes hok
  case cctl => cases hrow; exact cctl_completes hok
  all_goals cases hrow

end Sys2Proof.Proofs.MemoryInstructions
end

