-- ==== Sys2Proof/Proofs/EngineEvents.lean ====
section
/-! PROOFS. Events of stores, copies, the Spillway and tiles (R183, R232, R275, R284, R344): what each does where its condition
holds. -/

namespace Sys2Proof.Proofs.EngineEvents

open Sys2Proof.Machine Sys2Proof.Claims

@[simp] theorem countEcc_zero : countEcc 0 = .done := rfl

/-- R275: the oldest copy of a queue, or of a saved block's. -/
theorem copyCompletion_of_copyDoes {s : State} {p : Prog} (h : copyDoes s = some p) : (copyCompletion s).run s = p.run s := by
  unfold copyDoes at h
  split at h
  next hsaved =>
    obtain ⟨hecc, rfl⟩ := onlyIf_ok h
    simp only [beq_iff_eq] at hecc
    simp [copyCompletion, savedBase, hecc, hsaved]
  next hlive =>
    split at h
    next => cases h
    next =>
      obtain ⟨hcond, rfl⟩ := onlyIf_ok h
      simp only [Bool.and_eq_true, beq_iff_eq] at hcond
      simp [copyCompletion, savedBase, hcond.1.1, hlive]

/-- R188, R189: an element that no lower lane holds up moves, if its peer's port takes it. -/
theorem gatherElement_of_gatherDoes {s : State} {p : Prog} (h : gatherDoes s = some p) : (gatherElement s).run s = p.run s := by
  unfold gatherDoes at h
  dsimp only at h
  split at h
  next => cases h
  next g hg =>
    split at h
    next => cases h
    next e he =>
      obtain ⟨hcond, rfl⟩ := onlyIf_ok h
      simp only [Bool.and_eq_true, beq_iff_eq, Bool.not_eq_true'] at hcond
      obtain ⟨⟨hecc, hfree⟩, hports⟩ := hcond
      rw [gatherElement, hecc, countEcc_zero]
      show (moveElement (s.arg 0) (s.arg 1) (s.arg 2) false).run s = _
      simp only [moveElement, read_run, hg, he, hfree, hports, Bool.not_true, Bool.or_self, Bool.false_eq_true, if_false] <;> rfl

/-- R183: the load found is the one that returns. -/
theorem loadReturn_of_loadDoes {s : State} {p : Prog} (h : loadDoes s = some p) : (loadReturn s).run s = p.run s := by
  unfold loadDoes at h
  split at h
  next => cases h
  next q hq =>
    obtain ⟨hecc, rfl⟩ := onlyIf_ok h
    simp only [beq_iff_eq] at hecc
    simp only [loadReturn, hq, hecc, bne_self_eq_false, Bool.false_eq_true, if_false, returnLoad, Prog.run_andThen, read_run]
    generalize (bindLate (s.arg 0) fun x => x.id == q.id).run s = t
    cases hfound : (t.core (s.arg 0)).loads.find? fun x => x.id == q.id with
    | none => rfl
    | some x =>
      have hid : x.id = q.id := by simpa using List.find?_some hfound
      simp only [hid]

/-- R337: no older store must go first. -/
theorem storeDrain_of_drainDoes {s : State} {p : Prog} (h : drainDoes s = some p) : (storeDrain s).run s = p.run s := by
  unfold drainDoes at h
  split at h
  next => cases h
  next e he =>
    obtain ⟨hfirst, rfl⟩ := onlyIf_ok h
    simp only [Bool.not_eq_true'] at hfirst
    simp only [storeDrain, he, hfirst, Bool.false_eq_true, if_false]

/-- Settles O29: each event does what its row says where the row's condition holds. -/
theorem engineEventsComplete : Obligations.EngineEventsComplete := by
  unfold Obligations.EngineEventsComplete
  intro i r s hrow hok
  cases i
  case copyCompletion => cases hrow; exact event_ok hok fun _ => copyCompletion_of_copyDoes
  case gatherElement => cases hrow; exact event_ok hok fun _ => gatherElement_of_gatherDoes
  case loadReturn => cases hrow; exact event_ok hok fun _ => loadReturn_of_loadDoes
  case storeDrain => cases hrow; exact event_ok hok fun _ => storeDrain_of_drainDoes
  case weightLoadCompletion =>
    cases hrow
    refine event_ok hok fun p hp => ?_
    split at hp
    next => cases hp
    next =>
      obtain ⟨hecc, rfl⟩ := onlyIf_ok hp
      exact congrArg (fun ecc => (completeWload (s.arg 0) (ecc, BitVec.ofNat 64 (s.arg 2))).run s) (beq_iff_eq.mp hecc)
  case streamCompletion =>
    cases hrow
    refine event_ok hok fun p hp => ?_
    split at hp
    next => cases hp
    next =>
      obtain ⟨hecc, rfl⟩ := onlyIf_ok hp
      exact congrArg (fun ecc => (completeStream (s.arg 0) (ecc, BitVec.ofNat 64 (s.arg 2))).run s) (beq_iff_eq.mp hecc)
  case stampedWriteApply =>
    cases hrow
    refine event_ok hok fun p hp => ?_
    split at hp
    next w hw =>
      obtain ⟨hready, rfl⟩ := onlyIf_ok hp
      simp only [stampedWriteApply, hw, hready, if_true]
    next => cases hp
  case spillwayPushArrival =>
    cases hrow
    refine event_ok hok fun p hp => ?_
    split at hp
    next => cases hp
    next e rest harriving =>
      cases hp
      simp only [spillwayPushArrival, harriving, liftGate]
  case spillwayPopArrival =>
    cases hrow
    refine event_ok hok fun p hp => ?_
    obtain ⟨hpops, rfl⟩ := onlyIf_ok hp
    simp only [spillwayPopArrival, if_neg (bne_iff_ne.mp hpops), spillMax]
  all_goals cases hrow

end Sys2Proof.Proofs.EngineEvents
end

