-- ==== Sys2Proof/Proofs/Misaligned.lean ====
section
/-! PROOFS. Step 1 of R176: an access at an address that is no multiple of its size traps before any lane performs it. -/

namespace Sys2Proof.Proofs.Misaligned

open Sys2Proof.Machine Sys2Proof.Claims

/-- The lanes whose addresses are no multiple of the access size. -/
def misalignedLanes (u : U) (f : MForm) (base : Nat) : List Nat :=
  u.part.filter fun j => decide (u.ea f base j % (f.w.size : Int) ≠ 0)

/-- The cause that these lanes raise: one record, whose address is the lowest lane's (R389). -/
def misalignedTrap (u : U) (f : MForm) (base : Nat) (write : Bool) : TrapReq :=
  { cause := cMisaligned, write,
    recs := [{ cause := cMisaligned, addr := BitVec.ofInt 64 (u.ea f base ((misalignedLanes u f base).headD 0)),
               lanes := misalignedLanes u f base }] }

theorem size_dvd (w : Width) : w.size ∣ 2 ^ 64 := by cases w <;> decide

/-- The size of an access divides 2^64, so that a wrapped address is misaligned where the exact one is. -/
theorem toNat_ofInt_mod {n : Nat} (h : n ∣ 2 ^ 64) (x : Int) : (((BitVec.ofInt 64 x).toNat % n : Nat) : Int) = x % (n : Int) := by
  have hdvd : (n : Int) ∣ ((2 ^ 64 : Nat) : Int) := Int.natCast_dvd_natCast.mpr h
  rw [BitVec.toNat_ofInt, Int.natCast_emod, Int.toNat_of_nonneg (Int.emod_nonneg _ (by decide)), Int.emod_emod_of_dvd _ hdvd]

/-- The accesses at misaligned addresses are those of the misaligned lanes. -/
theorem accs_misaligned (u : U) (f : MForm) (base : Nat) :
    ((u.accs f base).filter fun a => decide (a.ea % (a.size : Int) ≠ 0)) =
      (misalignedLanes u f base).map fun i => { lane := i, ea := u.ea f base i, size := f.w.size } := by
  rw [U.accs, List.filter_map]
  rfl

theorem lrec_misaligned {u : U} {f : MForm} {base : Nat} (h : misalignedLanes u f base ≠ []) :
    lrec cMisaligned ((misalignedLanes u f base).map fun i => { lane := i, ea := u.ea f base i, size := f.w.size }) =
      [{ cause := cMisaligned, addr := BitVec.ofInt 64 (u.ea f base ((misalignedLanes u f base).headD 0)),
         lanes := misalignedLanes u f base }] := by
  obtain ⟨j, rest, hbad⟩ := List.exists_cons_of_ne_nil h
  simp [lrec, hbad, LAcc.va, Function.comp_def]

/-- Of an offset space the first check finds these lanes. -/
theorem checkOffsets_misaligned {u : U} {f : MForm} {base : Nat} (lim : Nat) (write : Bool) (h : misalignedLanes u f base ≠ []) :
    checkOffsets lim write (u.accs f base) = some (misalignedTrap u f base write) := by
  unfold checkOffsets
  dsimp only
  rw [accs_misaligned, if_pos (by simpa using h), lrec_misaligned h]
  rfl

/-- Of global memory the first check finds the same lanes. -/
theorem globalAccs_misaligned (u : U) (f : MForm) (base : Nat) :
    (((u.accs f base).map fun a => ({ lane := a.lane, va := a.va, size := a.size } : Acc)).filter fun a => a.va.toNat % a.size != 0) =
      (misalignedLanes u f base).map fun i => { lane := i, va := BitVec.ofInt 64 (u.ea f base i), size := f.w.size } := by
  have hsame : ∀ i, ((BitVec.ofInt 64 (u.ea f base i)).toNat % f.w.size != 0) = decide (u.ea f base i % (f.w.size : Int) ≠ 0) := by
    intro i
    have hmod := toNat_ofInt_mod (size_dvd f.w) (u.ea f base i)
    rw [Bool.eq_iff_iff]
    simp only [bne_iff_ne, ne_eq, decide_eq_true_eq]
    omega
  rw [U.accs, List.map_map, List.filter_map, misalignedLanes]
  congr 1
  exact List.filter_congr fun i _ => hsame i

theorem checkGlobal_misaligned {u : U} {f : MForm} {base : Nat} (s : State) (x : Nat) (g : Grid) (c : Context) (agent : Nat) (sup : Bool)
    (use : Use3) (seg : Seg → Bool) (hfetch : use ≠ .fx) (h : misalignedLanes u f base ≠ []) :
    checkGlobal s x g c agent sup use seg ((u.accs f base).map fun a => { lane := a.lane, va := a.va, size := a.size }) =
      .trap (misalignedTrap u f base use.writes) := by
  have hrec : oneRec cMisaligned ((misalignedLanes u f base).map fun i =>
      ({ lane := i, va := BitVec.ofInt 64 (u.ea f base i), size := f.w.size } : Acc)) = (misalignedTrap u f base use.writes).recs := by
    obtain ⟨j, rest, hbad⟩ := List.exists_cons_of_ne_nil h
    simp [oneRec, misalignedTrap, hbad, Function.comp_def]
  have hnotFetch : (use == .fx) = false := beq_eq_false_iff_ne.mpr hfetch
  simp only [checkGlobal, globalAccs_misaligned, ne_eq, List.map_eq_nil_iff, h, not_false_eq_true, if_true, hrec, hnotFetch]
  rfl

/-- R176, step 1: in every space the access is not cleared. -/
theorem cleared_misaligned {u : U} {f : MForm} {base : Nat} (s : State) (sp : Space) (use : Use3) (seg : Seg → Bool) (k : Issue)
    (hfetch : use ≠ .fx) (h : misalignedLanes u f base ≠ []) :
    u.cleared s sp use seg (u.accs f base) k = .trap (misalignedTrap u f base use.writes) := by
  cases sp
  case global => simp only [U.cleared, checkGlobal_misaligned _ _ _ _ _ _ _ _ hfetch h]
  case scratch | clus => simp only [U.cleared, checkOffsets_misaligned _ _ h]

theorem loadSem_misaligned {u : U} {f : MForm} {base : Nat} (s : State) (sp : Space)
    (hready : ready u [(f.d, dataW f.w), (f.a, base), (f.x, 32)] = true) (h : misalignedLanes u f base ≠ []) :
    loadSem sp base f u s = .trap (misalignedTrap u f base false) := by
  rw [loadSem, need_ok _ _ _ hready]
  exact cleared_misaligned s sp .rd _ _ (by decide) h

theorem storeSem_misaligned {u : U} {f : MForm} {base : Nat} (s : State) (sp : Space)
    (hready : ready u [(f.d, dataW f.w), (f.a, base), (f.x, 32)] = true) (h : misalignedLanes u f base ≠ []) :
    storeSem sp base f u s = .trap (misalignedTrap u f base true) := by
  rw [storeSem, need_ok _ _ _ hready]
  exact cleared_misaligned s sp .wr _ _ (by decide) h

/-- A load or store of SIMT code whose meaning is a trap takes that trap's entry, and does nothing else. -/
theorem runM_of_trap {f : MForm} {sem : Sem} {s : State} {v : U} {t : TrapReq} (hv : unitOf s 8 = some v)
    (hsimt : v.gang.vliw = false) (h : sem (v.guarded f.g) s = .trap t) :
    runM f sem s = .next ((takeTrap v.c v.b v.g t v.pc v.pc).run s) := by
  simp only [runM, runSimt, hv, hsimt, Bool.false_eq_true, ↓reduceIte, h]
  rfl

/-- Settles O47: the first check of R176 stops loads and stores of each space alike. -/
theorem misalignedTraps : Obligations.MisalignedTraps := by
  unfold Obligations.MisalignedTraps
  intro i base f s v hform hv hsimt u write hready bad hbad
  rcases hform with ⟨rfl | rfl, rfl⟩ | ⟨rfl | rfl | rfl | rfl, rfl⟩
  case inl.inl | inr.inl | inr.inr.inr.inl =>
    have hwrite : decide write = false := by simp [write]
    rw [hwrite]
    exact runM_of_trap (v := v) hv hsimt (loadSem_misaligned s _ hready hbad)
  case inl.inr | inr.inr.inl | inr.inr.inr.inr =>
    have hwrite : decide write = true := by simp [write]
    rw [hwrite]
    exact runM_of_trap (v := v) hv hsimt (storeSem_misaligned s _ hready hbad)

end Sys2Proof.Proofs.Misaligned
end

