-- ==== Sys2Proof/Proofs/QuietMemory.lean ====
section
/-! PROOFS. What memory instructions do where no stamped write is in flight: a write that has left for another die may land before an
access (R344), and nothing else stands between a quiet instruction and the bytes. -/

namespace Sys2Proof.Proofs.QuietMemory

open Sys2Proof.Machine Sys2Proof.Claims Sys2Proof.Proofs.ExecutionModel Sys2Proof.Proofs.RegistersKept
open Sys2Proof.Proofs.MemoryInstructions

/-! ## Programs that change no byte where no stamped write is in flight -/

/-- Where no stamped write is in flight, the program changes no byte and sends none. -/
def Hushed (p : Prog) : Prop := ∀ s, s.sys.stamped = [] → SameBytes s (p.run s) ∧ (p.run s).sys.stamped = []

/-- Where no stamped write is in flight, the program changes no byte. -/
def QuietUnstamped (p : Prog) : Prop := ∀ s, s.sys.stamped = [] → SameBytes s (p.run s)

theorem Hushed.done : Hushed .done := fun _ h => ⟨fun _ => rfl, h⟩

theorem Hushed.andThen {p q : Prog} (hp : Hushed p) (hq : Hushed q) : Hushed (p.andThen q) := by
  intro s hnone
  rw [Prog.run_andThen]
  obtain ⟨hpBytes, hpNone⟩ := hp s hnone
  obtain ⟨hqBytes, hqNone⟩ := hq _ hpNone
  exact ⟨fun l => (hqBytes l).trans (hpBytes l), hqNone⟩

theorem Hushed.read {k : State → Prog} (h : ∀ s, Hushed (k s)) : Hushed (.read k) := fun s => h s s

theorem Hushed.each {β : Type} {l : List β} {f : β → Prog} (h : ∀ x, Hushed (f x)) : Hushed (Prog.each l f) := by
  unfold Prog.each
  induction l with
  | nil => exact Hushed.done
  | cons x rest ih => exact Hushed.andThen (h x) ih

theorem Hushed.when {b : Bool} {p : Prog} (h : b = true → Hushed p) : Hushed (Prog.when b p) := by
  cases b
  · exact Hushed.done
  · exact h rfl

/-- A program that leaves memory, clocks and stamped writes alone. -/
theorem Hushed.calm {p : Prog} (h : Calm 0 0 p) : Hushed p := fun s hnone => ⟨h.bytes s, (h.stamped s).1.trans hnone⟩

theorem Hushed.core (c : Nat) (f : Core → Core) : Hushed (.one (.core c f)) := fun s hnone => ⟨Quiet.core c f s, hnone⟩

theorem Hushed.mergeRead (d : Nat) (l : Loc) (n : Nat) : Hushed (mergeRead d l n) := by
  intro s hnone
  rw [mergeRead_none hnone]
  exact ⟨fun _ => rfl, hnone⟩

theorem Hushed.landMet (d : Nat) (l : Loc) (n : Nat) : Hushed (landMet d l n) := by
  intro s hnone
  rw [landMet_none hnone]
  exact ⟨fun _ => rfl, hnone⟩

theorem Hushed.bindLate (c : Nat) (f : PendLoad → Bool) : Hushed (bindLate c f) :=
  .read fun _ => .when fun _ => .andThen (.each fun _ => .each fun _ => .mergeRead _ _ _) (.read fun _ => .core _ _)

theorem Hushed.bindMet (u : U) (s : State) (sp : Space) (l : List LAcc) : Hushed (u.bindMet s sp l) := .when fun _ => .bindLate _ _

theorem Hushed.mergeLoads (u : U) (s : State) (sp : Space) (l : List LAcc) : Hushed (u.mergeLoads s sp l) := by
  refine .when fun _ => .each fun _ => .each fun _ => ?_
  split
  · exact .landMet _ _ _
  · exact .mergeRead _ _ _

theorem Hushed.mergeConst (u : U) (s : State) (l : List LAcc) : Hushed (u.mergeConst s l) :=
  .when fun _ => .each fun _ => .mergeRead _ _ _

theorem Hushed.bufferStore (u : U) (s : State) (sp : Space) (view weak rel wide : Bool) (a : LAcc) (x : Nat) :
    Hushed (u.bufferStore s sp view weak rel wide a x) := .core _ _

/-- R395, R417: the translations kept and the flits sent are no bytes of storage. -/
theorem calm_sent {c b : Nat} (u : U) (s : State) (l : List LAcc) : Calm c b (u.sent s l) :=
  .andThen (.kept _ _ _) (.each fun _ _ => .sys _ fun _ => ⟨rfl, rfl⟩)

theorem Quiet.unstamped {p : Prog} (h : Quiet p) : QuietUnstamped p := fun s _ => h s

theorem Hushed.thenQuiet {p q : Prog} (hp : Hushed p) (hq : QuietUnstamped q) : QuietUnstamped (p.andThen q) := by
  intro s hnone l
  rw [Prog.run_andThen]
  obtain ⟨hbytes, hnone'⟩ := hp s hnone
  exact (hq _ hnone' l).trans (hbytes l)

theorem QuietUnstamped.read {k : State → Prog} (h : ∀ s, QuietUnstamped (k s)) : QuietUnstamped (.read k) := fun s => h s s

theorem quietUnstamped_kept {u : U} {s : State} {sp : Space} {l : List LAcc} {p : Prog} (h : QuietUnstamped p) :
    QuietUnstamped (kept u s sp l p) := by
  cases sp
  case global => exact (Hushed.calm (calm_sent u s l)).thenQuiet h
  case scratch | clus => exact h

/-- An instruction goes on behind a program that changes no byte. -/
theorem next_unstamped {len : Nat} {g : Guard} {cond : U → State → Bool} {eff : U → State → Prog} {s : State}
    (h : ∀ u, QuietUnstamped (eff u s)) (hnone : s.sys.stamped = []) :
    SameBytes s ((simt len g cond (thenNext eff)).next s) := by
  unfold simt
  dsimp only
  cases unitOf s len with
  | none => exact fun _ => rfl
  | some u =>
    intro l
    exact (congrArg (State.readLoc · l) (Prog.run_andThen _ _ s)).trans
      ((Quiet.advance (u.guarded g) _ _ l).trans (h (u.guarded g) s hnone l))

theorem next_quiet {len : Nat} {g : Guard} {cond : U → State → Bool} {eff : U → State → Prog} {s : State}
    (h : ∀ u, Quiet (eff u s)) (hnone : s.sys.stamped = []) : SameBytes s ((simt len g cond (thenNext eff)).next s) :=
  next_unstamped (fun u => Quiet.unstamped (h u)) hnone

/-! ## Loads, stores, constant loads and prefetches (R181, R184, R190) -/

theorem Quiet.constFill (u : U) (s : State) (l : List LAcc) : Quiet (u.constFill s l) := by
  refine Quiet.allCons (Quiet.each fun _ _ => ?_) (Quiet.allCons (Quiet.core _ _) Quiet.allNil)
  split
  · exact Quiet.home _ _ _ _ _
  · exact Quiet.done

/-- R181: a plain or weak load waits for nothing of another thread. -/
theorem Hushed.acquire {u : U} {ord : Ord} (scp : Scope) (hord : ord = .plain ∨ ord = .weak) : Hushed (u.acquire ord scp) := by
  rcases hord with rfl | rfl <;> exact Hushed.done

theorem quietUnstamped_loadProg {u : U} {sp : Space} {ord : Ord} (scp : Scope) (view : Bool) (l : List LAcc)
    (k : LoadSrc → List (Nat × Nat) → Prog) (hord : ord = .plain ∨ ord = .weak) (hk : ∀ x vals, Quiet (k x vals)) :
    QuietUnstamped (u.loadProg sp ord scp view l k) := by
  refine (Hushed.when fun _ => Hushed.acquire scp hord).thenQuiet <|
    (Hushed.when fun _ => .calm (.hazard _ _ _)).thenQuiet <|
    (Hushed.read fun _ => .bindMet _ _ _ _).thenQuiet <|
    (Hushed.read fun _ => .when fun _ => .mergeLoads _ _ _ _).thenQuiet <| Quiet.unstamped ?_
  refine Quiet.allCons (Quiet.read fun t => ?_) Quiet.allNil
  exact Quiet.allCons (Quiet.when (Quiet.mixed _ _ _ _)) <| Quiet.allCons (Quiet.when (Quiet.touch _ _ _)) <|
    Quiet.allCons (hk _ _) Quiet.allNil

/-- R181: a plain or weak store only enters the buffer. -/
theorem hushed_storeProg {u : U} {s : State} {sp : Space} {ord : Ord} (scp : Scope) (view : Bool) (l : List LAcc) (vals : Nat → Nat)
    (hord : ord = .plain ∨ ord = .weak) : Hushed (u.storeProg s sp ord scp view l vals) := by
  have hrel : (ord == .rel) = false := by rcases hord with rfl | rfl <;> rfl
  have hsc : (ord == .sc) = false := by rcases hord with rfl | rfl <;> rfl
  unfold U.storeProg
  simp only [hrel, hsc, Bool.or_self]
  exact Hushed.andThen .done <| .andThen (.read fun _ => .bindMet _ _ _ _) <| .andThen (.when fun _ => .calm (.views _ _ _)) <|
    .andThen (.when fun _ => .read fun _ => .calm (.mixed _ _ _ _)) <| .andThen (.each fun _ => .bufferStore _ _ _ _ _ _ _ _ _) <|
    .andThen .done .done

theorem quietUnstamped_prefetch (u : U) (level : Nat) (l : List LAcc) : QuietUnstamped (u.prefetch level l) := by
  refine QuietUnstamped.read fun s => ?_
  split
  · exact Quiet.unstamped (Quiet.touch _ _ _)
  · refine Quiet.unstamped (Quiet.each fun _ _ => ?_)
    split
    · exact Quiet.home _ _ _ _ _
    · exact Quiet.done
  · exact (Hushed.mergeConst _ _ _).thenQuiet (Quiet.unstamped (Quiet.read fun _ => Quiet.constFill _ _ _))

theorem load_bytes {sp : Space} {base : Nat} {f : MForm} {s : State} (hord : f.ord = .plain ∨ f.ord = .weak)
    (hnone : s.sys.stamped = []) : SameBytes s ((loadRow sp base f).next s) :=
  next_unstamped (fun _ => quietUnstamped_kept (quietUnstamped_loadProg _ _ _ _ hord fun _ _ => Quiet.bind _ _ _ _ _ _)) hnone

theorem store_bytes {sp : Space} {base : Nat} {f : MForm} {s : State} (hord : f.ord = .plain ∨ f.ord = .weak)
    (hnone : s.sys.stamped = []) : SameBytes s ((storeRow sp base f).next s) :=
  next_unstamped (fun _ => quietUnstamped_kept fun t ht => (hushed_storeProg _ _ _ _ hord t ht).1) hnone

theorem ldc_bytes {f : MForm} {s : State} (hnone : s.sys.stamped = []) : SameBytes s ((ldcRow f).next s) :=
  next_unstamped (fun _ => quietUnstamped_kept ((Hushed.mergeConst _ _ _).thenQuiet
    (Quiet.unstamped (Quiet.read fun _ => Quiet.andThen (Quiet.bind _ _ _ _ _ _) (Quiet.constFill _ _ _))))) hnone

/-! ## Queries, special registers and exchanges (R168 to R171, R223, R226, R279, R299) -/

theorem tquery_completes {f : XForm} {s : State} (hok : (tqueryRow f).ok s = true) : execTquery f s = .next ((tqueryRow f).next s) := by
  refine runSimt_of_carries hok fun u hslot hcond => ?_
  rw [Bool.and_eq_true] at hcond
  obtain ⟨hready, htakes⟩ := hcond
  simp only [semTquery, need_ok _ _ _ hready, once_ok _ _ htakes, hslot, Option.isSome_none, Bool.false_eq_true, if_false]
  rfl

theorem qcnt_completes {f : XForm} {s : State} (hok : (qcntRow f).ok s = true) : execQcnt f s = .next ((qcntRow f).next s) := by
  unfold qcntRow at hok ⊢
  refine runSimt_of_carries hok fun u _ hcond => ?_
  simp only [Bool.and_eq_true] at hcond
  obtain ⟨⟨hready, htakes⟩, hcursor⟩ := hcond
  split at hcursor
  next q hflume =>
    have hlt : ¬ f.fld 2 14 ≥ q.ncur := Nat.not_le.mpr (of_decide_eq_true hcursor)
    simp only [semQcnt, need_ok _ _ _ hready, flume_ok hflume, if_neg hlt, once_ok _ _ htakes, hflume, U.carry, thenNext]
  next => cases hcursor

theorem cpyq_completes {f : XForm} {s : State} (hok : (cpyqRow f).ok s = true) : execCpyq f s = .next ((cpyqRow f).next s) := by
  refine runSimt_of_carries hok fun u _ hcond => ?_
  simp only [Bool.and_eq_true] at hcond
  obtain ⟨⟨hready, htakes⟩, hright⟩ := hcond
  simp only [semCpyq, need_ok _ _ _ hready, once_ok _ _ htakes, hright, Bool.not_true, Bool.false_eq_true, if_false]
  rfl

theorem sread_completes {f : XForm} {s : State} (hok : (sreadRow f).ok s = true) : execSread f s = .next ((sreadRow f).next s) := by
  unfold sreadRow at hok ⊢
  refine runSimt_of_carries hok fun u _ hready => ?_
  simp only [semSread, need_ok _ _ _ hready]
  rfl

/-- What a write of a special register does. -/
def swriteProg (f : XForm) (u : U) : Prog :=
  if f.fld 8 0 = 0x13 then onBlock u.c u.b fun b => { b with bbase := BitVec.ofNat 6 (u.rd1 f.a 32) }
  else if f.fld 8 0 = 0x19 then onBlock u.c u.b fun b => { b with agent := BitVec.ofNat 8 (u.rd1 f.a 32) }
  else if f.fld 8 0 = 0x30 then onBlock u.c u.b fun b =>
    u.part.foldl (fun b i => b.modLane i fun l => { l with fp := BitVec.ofNat 5 (u.rd i f.a 32) }) b
  else .done

/-- R299: `%agent` is a supervisor's alone; the other registers are any thread's. -/
theorem semSwrite_eq {f : XForm} {u : U} (s : State) (hlevel : (f.fld 8 0 == 0x19 && u.user) = false)
    (hready : ready u [(f.a, 32)] = true) (htakes : takes u = true) : semSwrite f u s = .commit (swriteProg f u) := by
  have hreg : u.regOk f.a 32 = true := by
    simp only [ready, List.all_cons, Bool.and_eq_true] at hready
    exact hready.1.1
  have hallowed : ¬ (f.fld 8 0 = 0x19 ∧ u.user = true) := by simpa using hlevel
  have hlane : u.part.isEmpty = false := by simpa [takes] using htakes
  simp only [semSwrite, hreg, Bool.not_true, Bool.false_eq_true, if_false, hallowed, need_ok _ _ _ hready, hlane, swriteProg]
  congr 1
  split <;> simp_all

theorem swrite_completes {f : XForm} {s : State} (hok : (swriteRow f).ok s = true) : execSwrite f s = .next ((swriteRow f).next s) := by
  unfold swriteRow at hok ⊢
  refine runSimt_of_carries hok fun u _ hcond => ?_
  simp only [Bool.and_eq_true, Bool.not_eq_true'] at hcond
  obtain ⟨⟨hlevel, hready⟩, htakes⟩ := hcond
  rw [semSwrite_eq s hlevel hready htakes]
  rfl

theorem Quiet.swrite (f : XForm) (u : U) : Quiet (swriteProg f u) :=
  Quiet.iteP (Quiet.onBlock _ _ _) (Quiet.iteP (Quiet.onBlock _ _ _) (Quiet.iteP (Quiet.onBlock _ _ _) Quiet.done))

theorem qcnt_bytes {f : XForm} {s : State} (hnone : s.sys.stamped = []) : SameBytes s ((qcntRow f).next s) := by
  unfold qcntRow
  refine next_quiet (fun u => ?_) hnone
  split
  · exact Quiet.putAll _ _ _ _
  · exact Quiet.done

theorem shuffle_bytes {f : XForm} {wb : Nat} {b : BitVec 8} {src : Nat → Nat → Int} {s : State} (hnone : s.sys.stamped = []) :
    SameBytes s ((shuffleRow f wb b src).next s) := next_quiet (fun _ => Quiet.put _ _ _ _) hnone

theorem reduce_bytes {f : RForm} {scan ex : Bool} {s : State} (hnone : s.sys.stamped = []) :
    SameBytes s ((reduceRow f scan ex).next s) := by
  unfold reduceRow
  exact next_quiet (fun _ => Quiet.onBlock _ _ _) hnone

theorem vote_bytes {f : RForm} {s : State} (hnone : s.sys.stamped = []) : SameBytes s ((voteRow f).next s) := by
  unfold voteRow
  exact next_quiet (fun _ => Quiet.iteP (Quiet.putAll _ _ _ _) (Quiet.putPred _ _ _)) hnone

/-! ## The obligation -/

/-- A row given under a condition. -/
theorem row_of_ite {c : Prop} [Decidable c] {a r : Row} (h : (if c then some a else none) = some r) : c ∧ a = r := by
  split at h
  next hc => exact ⟨hc, Option.some.inj h⟩
  next => cases h

theorem quiet_completes {i : Instr} {r : Row} {s : State} (hrow : quietRow i = some r) (hok : r.ok s = true) :
    exec i s = .next (r.next s) := by
  cases i
  case ld | lds | ldk => obtain ⟨-, rfl⟩ := row_of_ite hrow; exact load_completes hok
  case st | sts | stk => obtain ⟨-, rfl⟩ := row_of_ite hrow; exact store_completes hok
  case ldc => cases hrow; exact ldc_completes hok
  case pref | mmeta | mshape | rconv | yield | prels => exact plain_completes hrow hok
  case tquery => cases hrow; exact tquery_completes hok
  case qcnt => cases hrow; exact qcnt_completes hok
  case cpyq => cases hrow; exact cpyq_completes hok
  case sread => cases hrow; exact sread_completes hok
  case swrite => cases hrow; exact swrite_completes hok
  case shfli | shflx | shfld | shfla | bcast | vote | redl | scanl => exact LaneArithmetic.exchangesComplete _ _ s hrow hok
  all_goals cases hrow

theorem quiet_bytes {i : Instr} {r : Row} {s : State} (hrow : quietRow i = some r) (hnone : s.sys.stamped = []) :
    SameBytes s (r.next s) := by
  cases i
  case ld | lds | ldk => obtain ⟨hord, rfl⟩ := row_of_ite hrow; exact load_bytes hord hnone
  case st | sts | stk => obtain ⟨hord, rfl⟩ := row_of_ite hrow; exact store_bytes hord hnone
  case ldc => cases hrow; exact ldc_bytes hnone
  case pref => cases hrow; exact next_unstamped (fun _ => quietUnstamped_prefetch _ _ _) hnone
  case tquery => cases hrow; exact next_quiet (fun _ => Quiet.read fun _ => Quiet.putAll _ _ _ _) hnone
  case qcnt => cases hrow; exact qcnt_bytes hnone
  case cpyq => cases hrow; exact next_quiet (fun _ => Quiet.putAll _ _ _ _) hnone
  case mmeta => cases hrow; unfold mmetaRow; exact next_quiet (fun _ => Quiet.onBlock _ _ _) hnone
  case rconv | prels => cases hrow; exact next_quiet (fun _ => Quiet.onBlock _ _ _) hnone
  case mshape => cases hrow; exact next_quiet (fun _ => Quiet.core _ _) hnone
  case yield => cases hrow; exact next_quiet (fun _ => Quiet.andThen (Quiet.onGang _ _ _ _) (Quiet.core _ _)) hnone
  case sread => cases hrow; unfold sreadRow; exact next_quiet (fun _ => Quiet.put _ _ _ _) hnone
  case swrite => cases hrow; unfold swriteRow; exact next_quiet (fun _ => Quiet.swrite _ _) hnone
  case shfli | shflx | shfld | shfla | bcast => cases hrow; exact shuffle_bytes hnone
  case redl | scanl => cases hrow; exact reduce_bytes hnone
  case vote => cases hrow; exact vote_bytes hnone
  all_goals cases hrow

/-- Settles O48: each instruction completes as its row says, and the row's effect changes no byte where no stamped write is in flight. -/
theorem memoryQuiet : Obligations.MemoryQuiet := by
  unfold Obligations.MemoryQuiet
  exact fun i s r hrow hok => ⟨quiet_completes hrow hok, quiet_bytes hrow⟩

end Sys2Proof.Proofs.QuietMemory
end

