-- ==== Sys2Proof/Proofs/StoreBuffer.lean ====
section
/-! PROOFS. The store buffer (R181, R183, R344): what a plain or weak store leaves in it, and what a store that drains changes. -/

namespace Sys2Proof.Proofs.StoreBuffer

open Sys2Proof.Machine Sys2Proof.Claims Sys2Proof.Proofs.RegistersKept Sys2Proof.Proofs.QuietMemory

/-! ## Programs that leave the store buffers and the blocks -/

/-- A core's store buffer and every block are as they were. -/
structure StoresKept (c : Nat) (s t : State) : Prop where
  sbuf : (t.core c).sbuf = (s.core c).sbuf
  blocks : ∀ k i, t.block? k i = s.block? k i

theorem StoresKept.refl {c : Nat} {s : State} : StoresKept c s s := ⟨rfl, fun _ _ => rfl⟩

theorem StoresKept.trans {c : Nat} {s t r : State} (h : StoresKept c s t) (h' : StoresKept c t r) : StoresKept c s r :=
  ⟨h'.sbuf.trans h.sbuf, fun k i => (h'.blocks k i).trans (h.blocks k i)⟩

theorem StoresKept.face {c b : Nat} {s t : State} (h : StoresKept c s t) : faces t c b = faces s c b := by
  unfold faces
  rw [h.blocks]

/-- The program leaves a core's store buffer and every block. -/
def KeepsStores (c : Nat) (p : Prog) : Prop := ∀ s, StoresKept c s (p.run s)

theorem KeepsStores.done {c : Nat} : KeepsStores c .done := fun _ => .refl

theorem KeepsStores.andThen {c : Nat} {p q : Prog} (hp : KeepsStores c p) (hq : KeepsStores c q) : KeepsStores c (p.andThen q) := by
  intro s
  rw [Prog.run_andThen]
  exact (hp s).trans (hq _)

theorem KeepsStores.read {c : Nat} {k : State → Prog} (h : ∀ s, KeepsStores c (k s)) : KeepsStores c (.read k) := fun s => h s s

theorem KeepsStores.each {c : Nat} {β : Type} {l : List β} {f : β → Prog} (h : ∀ x, KeepsStores c (f x)) :
    KeepsStores c (Prog.each l f) := by
  unfold Prog.each
  induction l with
  | nil => exact .done
  | cons x rest ih => exact .andThen (h x) ih

theorem KeepsStores.when {c : Nat} {b : Bool} {p : Prog} (h : KeepsStores c p) : KeepsStores c (Prog.when b p) := by
  cases b
  · exact .done
  · exact h

theorem KeepsStores.sys {c : Nat} (f : Sys → Sys) : KeepsStores c (.one (.sys f)) := fun _ => ⟨rfl, fun _ _ => rfl⟩

theorem KeepsStores.write {c : Nat} (l : Loc) (bs : List Byte) : KeepsStores c (.one (.write l bs)) :=
  fun s => ⟨sbuf_writeLoc s l bs c, block_writeLoc s l bs⟩

theorem KeepsStores.core {c d : Nat} {f : Core → Core} (hf : ∀ k, (f k).blocks = k.blocks ∧ (f k).sbuf = k.sbuf) :
    KeepsStores c (.one (.core d f)) := by
  refine fun s => ⟨?_, core_blocks s d f fun k => (hf k).1⟩
  rw [core_run]
  split
  next hc => rw [hc, Core.update, (hf _).2]
  next => rfl

theorem KeepsStores.landSome {c : Nat} (d : Nat) (f : Stamped → Bool) : KeepsStores c (landSome d f) :=
  .read fun _ => .each fun _ => .read fun _ => .andThen (.write _ _) (.sys _)

theorem KeepsStores.mergeRead {c : Nat} (d : Nat) (l : Loc) (n : Nat) : KeepsStores c (mergeRead d l n) :=
  .andThen (.read fun _ => .when (.landSome _ _)) (.read fun _ => .when (.sys _))

/-- R337: late loads are bound past the stores. -/
theorem KeepsStores.bindLate {c : Nat} (d : Nat) (f : PendLoad → Bool) : KeepsStores c (bindLate d f) :=
  .read fun _ => .when (.andThen (.each fun _ => .each fun _ => .mergeRead _ _ _) (.read fun _ => .core fun _ => ⟨rfl, rfl⟩))

/-! ## A plain or weak store (R181, R183, R185) -/

/-- A store that goes ahead performs `p` behind the translations that it keeps and the flits that it sends. -/
theorem kept_run (u : U) (s t : State) (sp : Space) (l : List LAcc) (p : Prog) :
    (kept u s sp l p).run t = p.run ((kept u s sp l .done).run t) := by
  cases sp
  case global => simp only [kept, Prog.run_andThen]; rfl
  case scratch | clus => rfl

theorem calm_kept_done {c b : Nat} (u : U) (s : State) (sp : Space) (l : List LAcc) : Calm c b (kept u s sp l .done) := by
  cases sp
  case global => exact .andThen (calm_sent u s l) .done
  case scratch | clus => exact .done

/-- What memory debug notes of a plain or weak store (R177, R185). -/
def storeNotes (u : U) (sp : Space) (ord : Ord) (view : Bool) (l : List LAcc) : Prog :=
  (Prog.when (sp == .scratch) (markViews u view l)).andThen
    (Prog.when (ord != .weak && sp == .global) (.read fun t => mixedSize u t true l))

theorem calm_storeNotes {c b : Nat} (u : U) (sp : Space) (ord : Ord) (view : Bool) (l : List LAcc) :
    Calm c b (storeNotes u sp ord view l) := .andThen (.when (.views _ _ _)) (.when (.read fun _ => .mixed _ _ _ _))

/-- A plain or weak store waits for no fence: late loads of its bytes are bound, and its bytes enter the buffer. -/
theorem storeProg_run {u : U} {s : State} {sp : Space} {ord : Ord} (scp : Scope) (view : Bool) (l : List LAcc) (vals : Nat → Nat)
    (hord : ord = .plain ∨ ord = .weak) (t : State) :
    (u.storeProg s sp ord scp view l vals).run t =
      (Prog.each l fun a => u.bufferStore s sp view (ord == .weak) false false a (vals a.lane)).run
        ((storeNotes u sp ord view l).run ((u.bindMet t sp l).run t)) := by
  have hrel : (ord == .rel) = false := by rcases hord with rfl | rfl <;> rfl
  have hsc : (ord == .sc) = false := by rcases hord with rfl | rfl <;> rfl
  simp only [U.storeProg, hrel, hsc, Bool.or_self, Bool.false_and, all_cons_run, all_nil_run, when_false_run, read_run, storeNotes,
    Prog.run_andThen]

/-- With no load still to be bound, a plain or weak store changes no byte. -/
theorem quiet_storeProg {u : U} {s t : State} {sp : Space} {ord : Ord} (scp : Scope) (view : Bool) (l : List LAcc) (vals : Nat → Nat)
    (hord : ord = .plain ∨ ord = .weak) (hbound : ∀ p ∈ (t.core u.c).loads, p.late = false) :
    SameBytes t ((u.storeProg s sp ord scp view l vals).run t) := by
  have hmet : (u.bindMet t sp l).run t = t := by
    unfold U.bindMet Prog.when
    split
    · exact bindLate_none hbound _
    · rfl
  rw [storeProg_run scp view l vals hord, hmet]
  exact fun b => (Quiet.each (fun _ _ => Quiet.buffer _ _ _ _ _ _ _ _ _) _ b).trans ((calm_storeNotes (c := 0) (b := 0) u sp ord view l).bytes t b)

theorem storeRow_bytes {sp : Space} {base : Nat} {f : MForm} {s : State} {v : U} (hv : unitOf s 8 = some v)
    (hord : f.ord = .plain ∨ f.ord = .weak)
    (hquiet : s.sys.stamped = [] ∨ ∀ p ∈ (s.core (v.guarded f.g).c).loads, p.late = false) :
    SameBytes s ((storeRow sp base f).next s) := by
  rcases hquiet with hnone | hbound
  · exact store_bytes hord hnone
  · intro l
    have hkept : Calm (v.guarded f.g).c 0 (kept (v.guarded f.g) s sp ((v.guarded f.g).accs f base) .done) := calm_kept_done _ _ _ _
    unfold storeRow
    rw [simt_next hv, thenNext, Prog.run_andThen, kept_run]
    refine (Quiet.advance _ _ _ l).trans ((quiet_storeProg _ _ _ _ hord ?_ l).trans (hkept.bytes s l))
    rw [hkept.loads]
    exact hbound

/-- Settles O42: late loads of the same bytes are bound past the buffer, and then each lane's entries follow what the buffer held. -/
theorem storeEntersBuffer : Obligations.StoreEntersBuffer := by
  unfold Obligations.StoreEntersBuffer
  intro i sp f s v hform hord base hok hv u
  have hexec : exec i s = .next ((storeRow sp base f).next s) := by
    rcases hform with ⟨rfl, rfl⟩ | ⟨rfl, rfl⟩ | ⟨rfl, rfl⟩ <;> exact store_completes hok
  let s₁ := (kept u s sp (u.accs f base) .done).run s
  let s₂ := (u.bindMet s₁ sp (u.accs f base)).run s₁
  let s₃ := (storeNotes u sp f.ord f.view (u.accs f base)).run s₂
  let s₄ := (Prog.each (u.accs f base) fun a =>
    u.bufferStore s sp f.view (f.ord == .weak) false false a (u.rd a.lane f.d (dataW f.w))).run s₃
  have hnext : (storeRow sp base f).next s = (u.advance u.next).run s₄ := by
    unfold storeRow
    rw [simt_next hv, thenNext, Prog.run_andThen, kept_run, storeProg_run _ _ _ _ hord]
  have hkept : Calm u.c u.b (kept u s sp (u.accs f base) .done) := calm_kept_done u s sp _
  have hmet : StoresKept u.c s₁ s₂ := KeepsStores.when (.bindLate _ _) s₁
  have hnotes : Calm u.c u.b (storeNotes u sp f.ord f.view (u.accs f base)) := calm_storeNotes u sp f.ord f.view _
  obtain ⟨new, hsbuf, hentries, hcells, hface⟩ := buffers_run u s sp f.view (f.ord == .weak) false false
    (fun j => u.rd j f.d (dataW f.w)) (u.accs f base) s₃
  have hface₄ : faces s₄ u.c u.b = some (u.blk.lanes, u.blk.slices) := by
    rw [hface, hnotes.face, hmet.face, hkept.face]
    exact face_block (unit_facts hv).1
  obtain ⟨x, hx, hlanes, hslices⟩ := face_some hface₄
  obtain ⟨b, hb, hblanes, hbslices⟩ := advance_block u u.next s₄ x (members_of (v := v) hv) hx
  refine ⟨(u.advance u.next).run s₄, new, b, hnext ▸ hexec, fun hquiet => hnext ▸ storeRow_bytes hv hord hquiet, ?_, hentries, hcells,
    hb, hblanes.trans hlanes, fun j y hj => hbslices j y ?_⟩
  · rw [(advance_core u u.next s₄).1, hsbuf, hnotes.sbuf, hmet.sbuf, hkept.sbuf]
  · rw [Block.slice?, hslices]
    exact hj

/-! ## A store that drains (R183, R337, R344, R375) -/

/-- With no stamped write in flight, the program changes clocks alone. -/
def OnlyClocks (p : Prog) : Prop := ∀ s : State, s.sys.stamped = [] → ∃ y : Sys, y.stamped = [] ∧ p.run s = { s with sys := y }

theorem OnlyClocks.settleDie (d : Nat) : OnlyClocks (settleDie d) := fun _ hnone => settleDie_none hnone d

theorem OnlyClocks.whenSettle (b : Bool) (d : Nat) : OnlyClocks (Prog.when b (Machine.settleDie d)) := by
  cases b
  · exact fun s hnone => ⟨s.sys, hnone, rfl⟩
  · exact .settleDie d

theorem afterStamped_none {s : State} (hnone : s.sys.stamped = []) (d : Nat) (e : BufStore) : (afterStamped d e).run s = s := by
  unfold afterStamped
  induction e.runs with
  | nil => rfl
  | cons r rest ih => rw [each_run_cons, mergeRead_none hnone, ih]

theorem OnlyClocks.beforeStore (d : Nat) (e : BufStore) : OnlyClocks (if e.weak then afterStamped d e else Machine.settleDie d) := by
  split
  · exact fun s hnone => ⟨s.sys, hnone, afterStamped_none hnone d e⟩
  · exact .settleDie d

/-- R375: a store whose agent's counters are at hand is charged, and nothing else happens. -/
theorem chargeStore_run {s : State} {c : Nat} {e : BufStore} (hcount : ∀ x, s.block? c e.blk = some x → countable s x.ctx e.agent) :
    SameBytes s ((chargeStore c e).run s) ∧ StoresKept c s ((chargeStore c e).run s)
      ∧ ((chargeStore c e).run s).sys.stamped = s.sys.stamped := by
  unfold chargeStore
  rw [read_run]
  split
  next b hb =>
    have hcalm : CalmIf (countable · b.ctx e.agent) c (Prog.each e.runs fun r => homeTouch b.ctx e.agent e.va r.1 true) :=
      .each fun _ => .home _ _ _
    have hs := hcount b hb
    exact ⟨hcalm.bytes s hs, ⟨hcalm.sbuf s hs, hcalm.blocks s hs⟩, (hcalm.stamped s hs).1⟩
  next => exact ⟨fun _ => rfl, .refl, rfl⟩

/-- R344: each run of a store leaves under a stamp of its own. -/
theorem sends_run (c : Nat) (e : BufStore) (runs : List (Loc × List Byte)) (s : State) :
    ∃ y : Sys, (Prog.each runs (sendStamped c e)).run s = { s with sys := y }
      ∧ y.stamped.map (fun w => (w.loc, w.bytes, w.old)) =
        s.sys.stamped.map (fun w => (w.loc, w.bytes, w.old)) ++ runs.map fun r => (r.1, r.2, none) := by
  induction runs generalizing s with
  | nil => exact ⟨s.sys, rfl, by simp⟩
  | cons r rest ih =>
    obtain ⟨y, hrun, hstamped⟩ := ih ((sendStamped c e r).run s)
    refine ⟨y, by rw [each_run_cons, hrun]; rfl, ?_⟩
    rw [hstamped]
    simp [sendStamped, vcSet]

/-- The bytes of some runs are written. -/
def writeEach (runs : List (Loc × List Byte)) : Prog := Prog.each runs fun r => .one (.write r.1 r.2)

theorem writeEach_frame (runs : List (Loc × List Byte)) (s : State) (l : Loc) (h : ∀ r ∈ runs, ¬ within l r.1 r.2.length) :
    ((writeEach runs).run s).readLoc l = s.readLoc l := by
  unfold writeEach
  induction runs generalizing s with
  | nil => rfl
  | cons r rest ih =>
    rw [each_run_cons, ih _ fun q hq => h q (List.mem_cons_of_mem _ hq)]
    exact readLoc_writeLoc_ne s r.1 l r.2 (h r List.mem_cons_self)

/-- A byte in several runs takes the last's value. -/
theorem writeEach_byte (pre post : List (Loc × List Byte)) (r : Loc × List Byte) (s : State) (k : Nat) (hk : k < r.2.length)
    (h : ∀ q ∈ post, ¬ within { r.1 with a := r.1.a + k } q.1 q.2.length) :
    ((writeEach (pre ++ r :: post)).run s).readLoc { r.1 with a := r.1.a + k } = r.2.getD k 0 := by
  unfold writeEach
  induction pre generalizing s with
  | nil =>
    rw [List.nil_append, each_run_cons]
    exact (writeEach_frame post _ _ h).trans (readLoc_writeLoc_eq s r.1 r.2 k hk)
  | cons q rest ih => rw [List.cons_append, each_run_cons, ih]

theorem writeEach_stamped (runs : List (Loc × List Byte)) (s : State) : ((writeEach runs).run s).sys = s.sys := by
  unfold writeEach
  induction runs generalizing s with
  | nil => rfl
  | cons r rest ih => rw [each_run_cons, ih]; exact sys_writeLoc s r.1 r.2

theorem leaves_iff (c : Nat) (e : BufStore) :
    e.leaves c = true ↔ e.weak = false ∧ e.fence = false ∧ e.runs ≠ [] ∧ ∀ r ∈ e.runs, crosses (dieOf c) r.1 e.va = true := by
  simp [BufStore.leaves, and_assoc]

/-- R183: what is left of the buffer when a store has drained. -/
theorem dropStore_run (c id : Nat) (s : State) :
    let t := (Prog.one (.core c fun k => { k with sbuf := k.sbuf.filter fun f => f.id != id })).run s
    SameBytes s t ∧ t.sys = s.sys ∧ (t.core c).sbuf = (s.core c).sbuf.filter (fun f => f.id != id) ∧ ∀ k i, t.block? k i = s.block? k i := by
  refine ⟨Quiet.core _ _ s, rfl, ?_, core_blocks s c _ fun _ => rfl⟩
  rw [core_run, if_pos rfl]
  rfl

/-- A store to another die's home slice leaves under a stamp (R344). -/
theorem performStore_leaves {s : State} {c : Nat} {e : BufStore} (hleaves : e.leaves c = true) (hnone : s.sys.stamped = [])
    (hcount : ∀ x, s.block? c e.blk = some x → countable s x.ctx e.agent) :
    SameBytes s ((performStore c e).run s) ∧ StoresKept c s ((performStore c e).run s)
      ∧ ((performStore c e).run s).sys.stamped.map (fun w => (w.loc, w.bytes, w.old)) = e.runs.map fun r => (r.1, r.2, none) := by
  obtain ⟨y, hyNone, hsettled⟩ := OnlyClocks.whenSettle e.wide (dieOf c) s hnone
  obtain ⟨hbytes, hstores, hstamped⟩ := chargeStore_run (s := { s with sys := y }) (c := c) (e := e)
    fun x hx => countable_congr rfl rfl (hcount x hx)
  obtain ⟨z, hsent, hmap⟩ := sends_run c e e.runs ((chargeStore c e).run { s with sys := y })
  rw [performStore, if_pos hleaves, all_cons_run, all_cons_run, all_cons_run, all_nil_run, hsettled, hsent]
  exact ⟨hbytes, ⟨hstores.sbuf, hstores.blocks⟩, by rw [hmap, hstamped, hyNone]; rfl⟩

/-- Any other store is written where it was bound to. -/
theorem performStore_stays {s : State} {c : Nat} {e : BufStore} (hstays : ¬ e.leaves c = true) (hnone : s.sys.stamped = [])
    (hcount : ∀ x, s.block? c e.blk = some x → countable s x.ctx e.agent) :
    ∃ t, (performStore c e).run s = (writeEach e.runs).run t ∧ SameBytes s t ∧ StoresKept c s t ∧ t.sys.stamped = [] := by
  obtain ⟨y, hyNone, hsettled⟩ := OnlyClocks.beforeStore (dieOf c) e s hnone
  obtain ⟨hbytes, hstores, hstamped⟩ := chargeStore_run (s := { s with sys := y }) (c := c) (e := e)
    fun x hx => countable_congr rfl rfl (hcount x hx)
  refine ⟨(chargeStore c e).run { s with sys := y }, ?_, hbytes, ⟨hstores.sbuf, hstores.blocks⟩, hstamped.trans hyNone⟩
  rw [performStore, if_neg hstays, all_cons_run, all_cons_run, all_cons_run, all_nil_run, hsettled]
  rfl

/-- Settles O43: a store that leaves is sent run by run; one that stays is written run by run. -/
theorem storeDrainFrame : Obligations.StoreDrainFrame := by
  unfold Obligations.StoreDrainFrame
  intro s e hfind hfirst hnone hcount leaves
  let c := s.arg 0
  let s₁ := (performStore c e).run s
  let t := (Prog.one (.core c fun k => { k with sbuf := k.sbuf.filter fun f => f.id != e.id })).run s₁
  have hexec : exec .storeDrain s = .next t := by
    show runEvent storeDrain s = _
    simp only [runEvent, storeDrain, hfind, hfirst, Bool.false_eq_true, if_false, Prog.run_andThen]
    rfl
  obtain ⟨hdropBytes, hdropSys, hdropSbuf, hdropBlocks⟩ := dropStore_run c e.id s₁
  by_cases hleaves : e.leaves c = true
  · obtain ⟨hbytes, hstores, hstamped⟩ := performStore_leaves hleaves hnone hcount
    refine ⟨t, hexec, hdropSbuf.trans (by rw [hstores.sbuf]), fun _ => ⟨fun l => (hdropBytes l).trans (hbytes l), ?_⟩,
      fun hnot => absurd ((leaves_iff c e).mp hleaves) hnot, fun k i => (hdropBlocks k i).trans (hstores.blocks k i)⟩
    rw [hdropSys]
    exact hstamped
  · obtain ⟨s₂, hperform, hbytes, hstores, hstamped⟩ := performStore_stays hleaves hnone hcount
    have hwritten : StoresKept c s₂ s₁ := by
      rw [show s₁ = _ from hperform]
      exact KeepsStores.each (fun _ => .write _ _) s₂
    have hread : ∀ l, t.readLoc l = ((writeEach e.runs).run s₂).readLoc l := fun l => (hdropBytes l).trans (by rw [← hperform])
    refine ⟨t, hexec, hdropSbuf.trans (by rw [hwritten.sbuf, hstores.sbuf]), fun h => absurd ((leaves_iff c e).mpr h) hleaves,
      fun _ => ⟨?_, fun l hout => ?_, fun pre r post hruns k hk hlast => ?_⟩,
      fun k i => (hdropBlocks k i).trans ((hwritten.blocks k i).trans (hstores.blocks k i))⟩
    · show t.sys.stamped = []
      rw [hdropSys, show s₁ = _ from hperform, writeEach_stamped, hstamped]
    · rw [hread, writeEach_frame _ _ _ hout, hbytes]
    · rw [hread, hruns, writeEach_byte _ _ _ _ _ hk hlast]

end Sys2Proof.Proofs.StoreBuffer
end

