-- ==== Sys2Proof/Proofs/Atomics.lean ====
section
/-! PROOFS. Atomics on scratchpad and cluster scratch (R191, R193, R194). -/

namespace Sys2Proof.Proofs.Atomics

open Sys2Proof.Machine Sys2Proof.Claims Sys2Proof.Proofs.MemoryInstructions

/-! ## What `ATOMS` does at its issue -/

/-- The accesses of the participating lanes. -/
def atomAccs (u : U) (f : XForm) (ty : Ty) : List LAcc := u.part.map fun i => { lane := i, ea := u.rd i f.a 32, size := ty.bits / 8 }

/-- What a lane's old value does. -/
def atomPut (u : U) (f : XForm) (ty : Ty) (a : LAcc) (old : Nat) : Prog := u.atomOld ty.bits f.d (atomAccs u f ty) a old

/-- The operation's value for a lane, from the old one. -/
def atomValue (u : U) (f : XForm) (ty : Ty) (j old : Nat) : Nat :=
  atomNew (f.fld 4 12) ty old (u.rd j f.b ty.bits) (if f.fld 4 12 = 7 then u.rd j f.c ty.bits else 0)

/-- One lane's operation. -/
def atomOne (u : U) (sp : Space) (view : Bool) (f : XForm) (ty : Ty) (ord : Ord) (a : LAcc) : Prog :=
  u.atomicLane sp view ord (Scope.ofCode (bits 2 f.imm 4)) ty (f.fld 4 12) (atomPut u f ty) a
    (u.rd a.lane f.b ty.bits) (if f.fld 4 12 = 7 then u.rd a.lane f.c ty.bits else 0)

/-- All the lanes' operations, behind what the lanes have stored. -/
def atomsProg (u : U) (sp : Space) (view : Bool) (f : XForm) (ty : Ty) (ord : Ord) : Prog :=
  u.atomicProg sp view ord (Scope.ofCode (bits 2 f.imm 4)) ty (f.fld 4 12) (atomPut u f ty) (atomAccs u f ty)
    (fun i => u.rd i f.b ty.bits) fun i => if f.fld 4 12 = 7 then u.rd i f.c ty.bits else 0

theorem quiet_atomPut (u : U) (f : XForm) (ty : Ty) (a : LAcc) (old : Nat) : Quiet (atomPut u f ty a old) :=
  Quiet.when (Quiet.bind _ _ _ _ _ _)

/-! ## One lane's operation (R193) -/

section
variable {sp : Space} (hsp : sp = .clus ∨ sp = .scratch)
include hsp

theorem not_global : (sp == .global) = false := by rcases hsp with rfl | rfl <;> rfl

/-- An offset's place rests on the unit alone. -/
theorem runs_unit (u : U) (s t : State) (view : Bool) (a : LAcc) : u.runs t sp view a = u.runs s sp view a := by
  rcases hsp with rfl | rfl <;> rfl

theorem runs_ne_nil (u : U) (s : State) (view : Bool) {a : LAcc} (hsize : 0 < a.size) : u.runs s sp view a ≠ [] := by
  rcases hsp with rfl | rfl
  · exact List.cons_ne_nil _ _
  · simp only [U.runs, scratchRuns]
    split
    · simp only [ne_eq, List.map_eq_nil_iff, List.range_eq_nil]
      omega
    · exact List.cons_ne_nil _ _

/-- R193: the location is read, the operation's value is written, and the old value goes to the destination. -/
theorem atomOne_run (u : U) (view : Bool) (f : XForm) (ty : Ty) (ord : Ord) (a : LAcc) (s : State) :
    (atomOne u sp view f ty ord a).run s =
      (atomPut u f ty a (leNat (readRuns s (u.runs s sp view a)))).run
        ((writeRuns (u.runs s sp view a) (leBytes (atomValue u f ty a.lane (leNat (readRuns s (u.runs s sp view a)))) a.size)).run s) := by
  simp only [atomOne, atomValue, U.atomicLane, read_run, Prog.run_andThen, not_global hsp, when_false_run, Bool.false_and,
    rmw_run _ (runs_sp u s sp view a hsp), all_cons_run, all_nil_run]

/-- Bytes outside the lanes' locations stay. -/
theorem atomOnes_frame (u : U) (view : Bool) (f : XForm) (ty : Ty) (ord : Ord) (s₀ : State) (k : Loc) (l : List LAcc)
    (hout : ∀ a ∈ l, ∀ r ∈ u.runs s₀ sp view a, ¬ within k r.1 r.2) (s : State) :
    ((Prog.each l (atomOne u sp view f ty ord)).run s).readLoc k = s.readLoc k := by
  induction l generalizing s with
  | nil => rfl
  | cons a rest ih =>
    rw [each_run_cons, ih fun a' ha' => hout a' (List.mem_cons_of_mem _ ha'), atomOne_run hsp, quiet_atomPut]
    refine writeRuns_frame _ _ _ _ fun r hr => hout a List.mem_cons_self r ?_
    rwa [runs_unit hsp u s₀ s] at hr

/-- R193, R194: the location of a lane then holds the operation's value. -/
theorem atomOne_bytes (u : U) (view : Bool) (f : XForm) (ty : Ty) (ord : Ord) {a : LAcc} (s : State) (hpos : 0 < a.size) (hsize : a.size ≤ 8)
    (haligned : 4 < a.size → a.ea.toNat % 8 = 0) :
    readRuns ((atomOne u sp view f ty ord a).run s) (u.runs s sp view a) =
      leBytes (atomValue u f ty a.lane (leNat (readRuns s (u.runs s sp view a)))) a.size := by
  rw [atomOne_run hsp, readRuns_congr fun _ _ l _ => quiet_atomPut _ _ _ _ _ _ l]
  refine writeRuns_read _ _ _ (runs_apart u s sp view a hsp hsize haligned) ?_
  rw [leBytes_length, total_runs u s sp view a (runs_ne_nil hsp u s view hpos)]

/-- Where nothing waits, the lanes' operations begin and end among states with the same bytes and the same loads. -/
theorem atomsProg_run {u : U} {f : XForm} {ty : Ty} {s : State} (view : Bool) (ord : Ord)
    (hsbuf : (s.core u.c).sbuf = []) (hbound : ∀ p ∈ (s.core u.c).loads, p.late = false) (hnone : s.sys.stamped = []) :
    ∃ s₁, Still u.c s s₁ ∧
      Still u.c ((Prog.each (atomAccs u f ty) (atomOne u sp view f ty ord)).run s₁) ((atomsProg u sp view f ty ord).run s) := by
  obtain ⟨s₀, hdrain, hstill, -⟩ := drain_still u s hsbuf hbound hnone
  refine ⟨(Prog.when (sp == .scratch) (viewHazard u view (atomAccs u f ty))).run s₀,
    hstill.trans (Calm.still (b := 0) (.when (.hazard _ _ _)) _), ?_⟩
  simp only [atomsProg, U.atomicProg, not_global hsp, Bool.and_false, Bool.false_eq_true, if_false, all_cons_run, all_nil_run,
    when_false_run, hdrain]
  exact Calm.still (b := 0) (.when (.views _ _ _)) _

/-! ## The row's condition and its next state -/

theorem atomsRow_next {view : Bool} {f : XForm} {ty : Ty} {ord : Ord} {s : State} {v : U} (hv : unitOf s 8 = some v) :
    (atomRowOn sp view false f ty ord).next s =
      ((v.guarded f.g).advance (v.guarded f.g).next).run ((atomsProg (v.guarded f.g) sp view f ty ord).run s) := by
  unfold atomRowOn
  rw [simt_next hv, thenNext, Prog.run_andThen]
  rcases hsp with rfl | rfl <;> simp [kept, atomsProg, atomAccs] <;> rfl

omit hsp in
/-- A row's condition, of the unit that issues. -/
theorem cond_of_ok {len : Nat} {g : Guard} {cond : U → State → Bool} {eff : U → State → Prog} {s : State} {v : U}
    (hok : (simt len g cond eff).ok s = true) (hv : unitOf s len = some v) : cond (v.guarded g) s = true := by
  simp only [simt, hv, Bool.and_eq_true] at hok
  exact hok.2

omit hsp in
/-- R176: offsets that pass are multiples of their sizes. -/
theorem aligned_of_checkOffsets {lim : Nat} {write : Bool} {l : List LAcc} (h : checkOffsets lim write l = none) :
    ∀ a ∈ l, a.ea % (a.size : Int) = 0 := by
  unfold checkOffsets at h
  dsimp only at h
  split at h
  next => cases h
  next hnone =>
    intro a ha
    simpa using List.filter_eq_nil_iff.mp (not_not.mp hnone) a ha

/-- R176: each participating lane's location starts at a multiple of its size. -/
theorem atomsRow_aligned {view : Bool} {f : XForm} {ty : Ty} {ord : Ord} {s : State} {v : U} (hv : unitOf s 8 = some v)
    (hok : (atomRowOn sp view false f ty ord).ok s = true) : ∀ a ∈ atomAccs (v.guarded f.g) f ty, a.ea % (a.size : Int) = 0 := by
  unfold atomRowOn at hok
  have hcond := cond_of_ok hok hv
  rw [Bool.and_eq_true, Bool.and_eq_true] at hcond
  obtain ⟨⟨-, hreach⟩, -⟩ := hcond
  rcases hsp with rfl | rfl <;> exact aligned_of_checkOffsets (Option.isNone_iff_eq_none.mp hreach)

end

/-! ## The destination (R13, R191) -/

/-- Only lane `j` participates: its old value is bound to the destination. -/
theorem atomOld_run {u : U} {w : Nat} {d : BitVec 8} {l : List LAcc} {a : LAcc} {j : Nat} (hslot : u.slot = none) (hpart : u.part = [j])
    (ha : a.lane = j) (old : Nat) (s : State) :
    ∃ p, (((u.atomOld w d l a old).run s).core u.c).loads = (s.core u.c).loads ++ [p] ∧ p.lane = j ∧ p.sreg = isS d
      ∧ p.reg = (if isS d then d.toNat - 0xC0 else d.toNat) ∧ p.val = BitVec.ofNat 128 old := by
  have hputs : (!isS d || some a.lane == u.part.head?) = true := by simp [hpart, ha]
  have hextend : extendTo32 (if w = 64 then .b64 else .b32) old = old := by split <;> rfl
  have hvals : (if isS d = true then [(a.lane, old)].take 1 else [(a.lane, old)]) = [(j, old)] := by rw [ha]; exact ite_self _
  obtain ⟨new, hloads, hmap, -, -⟩ := bind_run u hslot (if w = 64 then .b64 else .b32) d l {} [(a.lane, old)] s
  rw [hvals] at hmap
  obtain ⟨p, rfl, hp⟩ := List.map_eq_singleton_iff.mp hmap
  simp only [Prod.mk.injEq, hextend] at hp
  obtain ⟨hlane, hsreg, hreg, hval⟩ := hp
  refine ⟨p, ?_, hlane, hsreg, hreg, hval⟩
  rw [U.atomOld, hputs]
  exact hloads

/-- R191, R192: an atomic is of four or of eight bytes. -/
theorem atomTy_size {n : Nat} {ty : Ty} (h : atomTy n = some ty) : ty.bits / 8 = 4 ∨ ty.bits / 8 = 8 := by
  unfold atomTy at h
  split at h <;> cases h <;> simp [Ty.bits]

/-! ## The obligation -/

/-- Settles O46: nothing is drained, so that the lanes' operations act on the bytes as they stand; each writes its own location alone. -/
theorem atomicFrame : Obligations.AtomicFrame := by
  unfold Obligations.AtomicFrame
  intro f s v ty ord sp view hty hord hok hv u size runs hsbuf hbound hnone
  have hsp : sp = .clus ∨ sp = .scratch := ite_eq_or_eq _ _ _
  have hexec : exec (.atoms f) s = .next ((atomRowOn sp view false f ty ord).next s) := atomOn_completes hty hord hok
  obtain ⟨s₁, hbefore, hafter⟩ := atomsProg_run hsp view ord (f := f) (ty := ty) hsbuf hbound hnone
  refine ⟨_, hexec, fun l hout => ?_, fun j hpart => ?_⟩
  · rw [atomsRow_next hsp hv, Quiet.advance, hafter.bytes, atomOnes_frame hsp _ _ _ _ _ s, hbefore.bytes]
    intro a ha
    obtain ⟨j, hj, rfl⟩ := List.mem_map.mp ha
    exact hout j hj
  · let a : LAcc := { lane := j, ea := u.rd j f.a 32, size := size }
    have haccs : atomAccs u f ty = [a] := by rw [atomAccs, hpart]; rfl
    have hsize : size = 4 ∨ size = 8 := atomTy_size hty
    have haligned : 4 < a.size → a.ea.toNat % 8 = 0 := by
      have hmod : a.ea % (size : Int) = 0 := atomsRow_aligned hsp hv hok a (by rw [haccs]; exact List.mem_singleton_self a)
      intro (hlt : 4 < size)
      rw [show size = 8 by omega] at hmod
      omega
    have hruns : u.runs s₁ sp view a = runs j := runs_unit hsp u s s₁ view a
    have hold : readRuns s₁ (runs j) = readRuns s (runs j) := readRuns_congr fun _ _ l _ => hbefore.bytes l
    rw [haccs, each_run_cons] at hafter
    replace hafter : Still u.c ((atomOne u sp view f ty ord a).run s₁) ((atomsProg u sp view f ty ord).run s) := hafter
    refine ⟨?_, ?_⟩
    · have hnew := atomOne_bytes hsp u view f ty ord s₁ (a := a) (by show 0 < size; omega) (by show size ≤ 8; omega) haligned
      rw [hruns, hold] at hnew
      rw [atomsRow_next hsp hv]
      exact (readRuns_congr fun _ _ l _ => (Quiet.advance u u.next _ l).trans (hafter.bytes l)).trans hnew
    · have hslot : u.slot = none := (slot_of_unitOf hv).1
      obtain ⟨p, hloads, hp⟩ := atomOld_run (w := ty.bits) (d := f.d) (l := atomAccs u f ty) hslot hpart (a := a) rfl
        (leNat (readRuns s (runs j))) ((writeRuns (runs j) (leBytes (atomValue u f ty j (leNat (readRuns s (runs j)))) size)).run s₁)
      refine ⟨p, ?_, hp⟩
      rw [atomsRow_next hsp hv, (advance_core u u.next _).2, hafter.loads, atomOne_run hsp, hruns, hold]
      refine hloads.trans ?_
      rw [(writeRuns_core _ _ _ _).1, hbefore.loads]

end Sys2Proof.Proofs.Atomics
end

