-- ==== Sys2Proof/Proofs/LoadBinding.lean ====
section
/-! PROOFS. A load that makes a stamped write land may end its own context's grids: the write may break the page of the save area in
which the record of its agent's counters stands, which is at hand as the load issues (R344, R375, R449). -/

namespace Sys2Proof.Proofs.LoadBinding

open Sys2Proof.Machine Sys2Proof.Claims Sys2Proof.Proofs.MemoryInstructions

/-! ## The state -/

/-- A block of four slices, whose `s0` is an address in the data page. -/
def dataBlock : Block :=
  { freshBlock 1 0 false with
    slices := List.replicate 4 { gang := 0, pc := 0x200000, live := 15, active := 15, s := [(0, 0x300000)] } }

/-- A stamped write that die 0 has applied and its home slice has not: it clears the first byte of the save area's first table entry. -/
def tableWrite : Stamped := { id := 0, src := 0, thr := (1, 0, 0), stamp := [], loc := ⟨0, 0, 0⟩, bytes := [0], va := 0 }

/-- The data page of the grid lies over the page table of its context's save area, and no counters of its agent are held. -/
def tableState : State :=
  { mem := (freshTables []).writeAll 0x40008 (leBytes 0x00001 8)
    cores := [(0, { blocks := [(0, dataBlock)] })]
    ctxs := [(1, { saveVa := 0x100000, saveSize := 0x2000000, savePt := 0, feat := Config.offered })]
    grids := [(0, { ctx := 1, started := true, placed := [0],
                    segs := freshSegs ++ [{ base := 0x300000, limit := 0x10000, ptab := 0x130008, attr := 0xD }] })]
    sys := { stamped := [tableWrite] }
    cur := .gang 0 0 0 }

/-- `LD.b32 r2, [s0]`, a plain load. -/
def tableLoad : MForm := { g := ⟨7, false⟩, w := .b32, d := 2, a := 0xC0, x := 0xFF, off := 0, ord := .plain, scp := .core, view := false }

/-! ## What the load does there -/

theorem tableLoad_ok : (loadRow .global 64 tableLoad).ok tableState = true := by decide +kernel

theorem tableState_unit : (unitOf tableState 8).map (fun v => (v.c, v.b, v.blk.ctx, v.blk.agent.toNat, (v.blk.slice? 0).map (·.live))) =
    some (0, 0, 1, 0, some 15) := by decide +kernel

theorem tableState_bound : ∀ p ∈ (tableState.core 0).loads, p.late = false := by decide +kernel

theorem tableState_saved : ((tableState.ctx? 1).all fun x => !tableState.saveBroken x 0x9000 64) = true := by decide +kernel

/-- The counters of the agent are at hand as the load issues. -/
theorem tableState_countable : countable tableState 1 0 := by
  intro x hx
  have hsaved := tableState_saved
  rw [hx, Option.all_some, Bool.not_eq_true'] at hsaved
  exact .inr hsaved

/-- The write lands before the load reads; then the agent's record cannot be reached, and the block's lanes have exited. -/
theorem tableLoad_ends :
    ((((loadRow .global 64 tableLoad).next tableState).block? 0 0).bind (·.slice? 0)).map (·.live) = some 0 := by decide +kernel

/-- Refutes O44: the slices of the gang do not stand as they were at the next instruction, since the load has ended its grid. -/
theorem not_loadBinds : ¬ Obligations.LoadBinds := by
  unfold Obligations.LoadBinds
  intro h
  obtain ⟨v, hv, hunit⟩ := Option.map_eq_some_iff.mp tableState_unit
  simp only [Prod.mk.injEq] at hunit
  obtain ⟨hc, hb, hctx, hagent, hlive⟩ := hunit
  obtain ⟨x, hx, hxlive⟩ := Option.map_eq_some_iff.mp hlive
  have hclaim := h (.ld tableLoad) .global tableLoad tableState v (.inl ⟨rfl, rfl⟩) (.inl rfl) tableLoad_ok hv
  obtain ⟨t, _, b, hexec, -, -, -, -, hblock, -, hslices⟩ := hclaim (hc ▸ tableState_bound) (by
    show countable tableState v.blk.ctx v.blk.agent.toNat
    rw [hctx, hagent]
    exact tableState_countable)
  have hnext : t = (loadRow .global 64 tableLoad).next tableState :=
    Host.Outcome.next.inj (hexec.symm.trans (load_completes tableLoad_ok))
  have hkept : (b.slice? 0).map (·.live) = some 15 := by
    rw [hslices 0 x hx]
    split <;> exact congrArg some hxlive
  replace hblock : t.block? 0 0 = some b := by rw [← hblock]; exact congrArg₂ t.block? hc.symm hb.symm
  have hended := tableLoad_ends
  rw [← hnext, hblock, Option.bind_some, hkept] at hended
  exact absurd hended (by decide)

end Sys2Proof.Proofs.LoadBinding
end

