-- ==== Sys2Proof/Proofs/CanonicalStores.lean ====
section
/-! PROOFS. Every step leads to its next state by a program of effects, and effects keep every byte store in canonical form (log 1,
log 3). -/

namespace Sys2Proof.Proofs.CanonicalStores

open Sys2Proof.Machine Sys2Proof.Safety

/-! ## States that effects lead to -/

/-- Some program of effects leads from the one state to the other. -/
def ByEffects (s t : State) : Prop := ∃ p : Prog, p.run s = t

theorem ByEffects.refl (s : State) : ByEffects s s := ⟨.done, rfl⟩

theorem byEffects_run (p : Prog) (s : State) : ByEffects s (p.run s) := ⟨p, rfl⟩

theorem ByEffects.trans {s t r : State} (hst : ByEffects s t) (htr : ByEffects t r) : ByEffects s r := by
  obtain ⟨p, rfl⟩ := hst
  obtain ⟨q, rfl⟩ := htr
  exact ⟨p.andThen q, Prog.run_andThen p q s⟩

theorem ByEffects.memOk {s t : State} (h : ByEffects s t) (hs : MemOk s) : MemOk t := by
  obtain ⟨p, rfl⟩ := h
  exact p.memOk hs

/-- A next state that the outcome answers is one that effects lead to. -/
def Acts (s : State) (o : Host.Outcome State Fault Refusal) : Prop := ∀ t, o = .next t → ByEffects s t

theorem acts_of_byEffects {s t : State} (h : ByEffects s t) : Acts s (.next t) := by
  rintro _ ⟨⟩
  exact h

theorem acts_run (p : Prog) (s : State) : Acts s (.next (p.run s)) := acts_of_byEffects (byEffects_run p s)

theorem acts_fault (s : State) (e : Fault) : Acts s (.fault e) := fun _ h => nomatch h

/-! ## The ways of issuing (R69, R97, R313) -/

theorem acts_runSimt (len : Nat) (g : Guard) (sem : Sem) (s : State) : Acts s (runSimt len g sem s) := by
  unfold runSimt
  split
  · exact acts_fault s _
  · exact acts_run _ s

theorem acts_runEvent (p : State → Prog) (s : State) : Acts s (runEvent p s) := acts_run (p s) s

theorem acts_runHart (len : Nat) (f : HU → State → Prog) (s : State) : Acts s (runHart len f s) := by
  unfold runHart
  split
  · exact acts_fault s _
  · exact acts_run _ s

theorem acts_runEx (i : Instr) (sem : ExSem) (s : State) : Acts s (runEx i sem s) := by
  unfold runEx
  dsimp only
  split
  · exact acts_fault s _
  split
  · exact acts_fault s _
  split
  · exact acts_fault s _
  · exact acts_run _ s

/-! ## Instructions that act once more behind their issue (R256, R260, R382) -/

theorem acts_gsync (s : State) : Acts s (execGsync s) := by
  have hissue := acts_runSimt 8 Guard.always semGsync s
  unfold execGsync
  split
  next t u ht _ => exact acts_of_byEffects ((hissue t ht).trans (byEffects_run _ t))
  next => exact hissue

theorem acts_phase (s : State) : Acts s (execPhase s) := by
  have hissue := acts_runSimt 8 Guard.always semPhase s
  unfold execPhase
  split
  next t u ht _ => exact acts_of_byEffects ((hissue t ht).trans (byEffects_run _ t))
  next => exact hissue

theorem acts_waitc (f : XForm) (s : State) : Acts s (execWaitc f s) := by
  have hissue : Acts s (runX f (semWaitc f) s) := acts_runSimt 8 f.g (semWaitc f) s
  unfold execWaitc
  split
  next t u ht _ => exact acts_of_byEffects ((hissue t ht).trans (byEffects_run _ t))
  next => exact hissue

/-! ## Words of no instruction, and bundles (R96, R247, R448) -/

theorem acts_fetchFault (s : State) : Acts s (execFetchFault s) := by
  unfold execFetchFault fetchFault
  split
  · exact acts_fault s _
  · exact acts_run _ s

theorem acts_undefinedWord (w : W64) (s : State) : Acts s (execUndefinedWord w s) := by
  unfold execUndefinedWord
  split
  · exact acts_fault s _
  · exact acts_run _ s

/-- Slots that commit act one after another. -/
theorem byEffects_commitSlots {u : U} {s : State} {xs : List Slot} {t r : State} (h : commitSlots u s xs t = .ok r) :
    ByEffects t r := by
  induction xs generalizing t with
  | nil =>
    cases h
    exact ByEffects.refl _
  | cons x xs ih =>
    unfold commitSlots at h
    split at h
    · cases h
    · exact (byEffects_run _ _).trans (ih h)

theorem byEffects_issueBundle (u : U) (hdr : W64) (ws : List W64) (s : State) : ByEffects s (issueBundle u hdr ws s) := by
  unfold issueBundle
  dsimp only
  split
  · exact byEffects_run _ s
  split
  · exact byEffects_run _ s
  split
  · exact byEffects_run _ s
  · exact byEffects_run _ s
  next t hcommit =>
    exact ((byEffects_run _ s).trans (byEffects_run _ _)).trans ((byEffects_commitSlots hcommit).trans (byEffects_run _ t))

theorem acts_bundle (hdr : W64) (ws : List W64) (s : State) : Acts s (execBundle hdr ws s) := by
  unfold execBundle
  split
  · exact acts_fault s _
  split
  · exact acts_of_byEffects (byEffects_issueBundle _ hdr ws s)
  · exact acts_run _ s

/-! ## Every instruction and event of the table -/

/-- The meaning of every instruction and event of the table acts by effects: an event, a hart's instruction, an operation of cracked
code, one of the six above, or an instruction that a gang issues in SIMT code. -/
theorem acts_exec (i : Instr) (s : State) : Acts s (exec i s) := by
  cases i with
  | qtail | qctl | registerWrite | invgo | launchPacketRead | stealRequest | unitPlacement | blockEnd | gridCompletion
  | mailboxHandlerLaunch | mailboxDelivery | serviceMailboxMessage | copyCompletion | gatherElement | weightLoadCompletion
  | streamCompletion | loadReturn | storeDrain | stampedWriteApply | monitorReexamine | monitorPoll | waitcTimeout
  | sleepDeadline | tileGrant | poolStall | tileDrain | leaseGrant | leaseExpiry | powerGrant | powerWindow | powerBudget
  | vaultSensorReading | throttleStep | hotPageMigration | agentCounterWriteback | clockChange | preemptForPriority
  | starvationResume | blockResume | taskBudgetExpiry | taskPreload | phaseTaskStart | rillAppend | spillwayPushArrival
  | impreciseTrapDelivery | deadlockWatchdog | coreAcknowledge | invalidationWatchdog | migrationQuantum | holdExpiry
  | checkpoint | instructionSample | fatalError | moduleReset | patrolScrub | flitRetry | creditReturn | peerWriteArrival
  | hostAccess | featget | featset | ctxnew | ctxend | mbxreg | mbxunreg | codesync | attest | dbgctl | stop | resume | ckpt
  | imgwrite | reset | dumpbase | coupling | spillwayPopArrival | docinvCompletion | pageMoveCompletion | peerReadArrival
  | forcedUnload | replay | unknownCommand =>
    simp only [exec]
    exact acts_runEvent _ s
  | hcpy | hwait | halloc | hpost | hsig | hsleep | hartBaseInstruction =>
    simp only [exec]
    exact acts_runHart _ _ s
  | exNop | exMov | exAdd | exSub | exMul | exMad | exDiv | exRem | exMin | exMax | exAnd | exOr | exXor | exShl | exShr | exBitc
  | exBfx | exBfi | exCmp | exSel | exFadd | exFsub | exFmul | exFfma | exFmin | exFmax | exFdiv | exFsqrt | exFcmp | exFunc
  | exCvt | exQuant | exBscale | exShfl | exBcast | exVote | exXred | exXscan | exLd | exSt | exLds | exSts | exAtom | exFence
  | exTalloc | exTseal | exTld | exTst | exTdrop | exQpost | exQtake | exCopy | exWload | exMm | exAcc | exIf | exLoop | exBrk
  | exSreg | exExit | exElse | exEndif | exEndloop | exBar =>
    simp only [exec]
    exact acts_runEx _ _ s
  | gsync => exact acts_gsync s
  | phase => exact acts_phase s
  | waitc f => exact acts_waitc f s
  | fetchFault => exact acts_fetchFault s
  | undefinedWord w => exact acts_undefinedWord w s
  | bundle hdr ws => exact acts_bundle hdr ws s
  | _ =>
    simp only [exec]
    exact acts_runSimt _ _ _ s

/-! ## A step (log 1) -/

/-- R247: the words of an instruction are fetched by effects. -/
theorem byEffects_fetch (u : U) (s : State) : ByEffects s (u.fetch s).1 := by
  unfold U.fetch
  split
  · exact ByEffects.refl s
  dsimp only
  split
  · exact ByEffects.refl s
  · exact byEffects_run _ s

theorem byEffects_ite {s : State} {b : Prop} [Decidable b] {x y : State × Option Instr} (hx : ByEffects s x.1)
    (hy : ByEffects s y.1) : ByEffects s (if b then x else y).1 := by
  split
  · exact hx
  · exact hy

theorem byEffects_gangTurn (s : State) : ByEffects s (gangTurn s).1 := by
  unfold gangTurn
  split
  · exact ByEffects.refl s
  refine byEffects_ite (.refl s) <| byEffects_ite (byEffects_run _ s) <| byEffects_ite (byEffects_run _ s) <| byEffects_ite (.refl s) <|
    byEffects_ite (byEffects_run _ s) <| byEffects_ite (byEffects_run _ s) <| byEffects_ite (.refl s) ?_
  split
  · exact byEffects_run _ s
  dsimp only
  split
  · exact byEffects_fetch _ s
  · exact (byEffects_fetch _ s).trans (byEffects_run _ _)

theorem byEffects_hartTurn (s : State) : ByEffects s (hartTurn s).1 := by
  unfold hartTurn
  split
  · exact ByEffects.refl s
  · exact byEffects_ite (byEffects_run _ s) (byEffects_run _ s)

/-- Naming the agent that issues touches no byte store. -/
theorem memOk_issueTurn {s : State} (h : MemOk s) (a : Agent) : MemOk (issueTurn a s).1 := by
  have hcur : MemOk { s with cur := a } := h
  unfold issueTurn
  dsimp only
  split
  · exact hcur
  · exact (byEffects_gangTurn _).memOk hcur
  · exact (byEffects_hartTurn _).memOk hcur

theorem memOk_nextTurn {s : State} (h : MemOk s) : MemOk (nextTurn s).1 := by
  unfold nextTurn
  split
  · exact memOk_issueTurn h _
  next rest _ =>
    have hrest : MemOk { s with agenda := rest } := h
    dsimp only
    split
    · exact memOk_issueTurn hrest _
    · exact (byEffects_run _ _).memOk hrest
    split
    · exact hrest
    · exact hrest

/-- R428: an instruction's tag is a program of effects. -/
theorem byEffects_tagged (s t : State) : ByEffects t (s.tagged t) := by
  unfold State.tagged
  split
  · dsimp only
    split
    · exact byEffects_run _ t
    · exact ByEffects.refl t
  · exact ByEffects.refl t

theorem acts_tagAfter {s : State} (i : Instr) {o : Host.Outcome State Fault Refusal} (h : Acts s o) : Acts s (tagAfter s i o) := by
  cases o with
  | next t =>
    have ht : ByEffects s t := h t rfl
    unfold tagAfter
    dsimp only
    split
    · exact acts_of_byEffects ht
    · exact acts_of_byEffects (ht.trans (byEffects_tagged s t))
  | fault e | refused e => exact h

/-- Settles O12: the turn begins, the instruction acts and its tag is set by effects alone, and every effect keeps the stores'
form. -/
theorem stepKeepsStoresCanonical : Obligations.StepKeepsStoresCanonical := by
  unfold Obligations.StepKeepsStoresCanonical
  intro s t hs hstep
  have hturn := memOk_nextTurn hs
  unfold step at hstep
  split at hstep
  next r i hnext =>
    rw [hnext] at hturn
    exact (acts_tagAfter i (acts_exec i r) t hstep).memOk hturn
  next r hnext =>
    rw [hnext] at hturn
    cases hstep
    exact hturn

end Sys2Proof.Proofs.CanonicalStores
end

