-- ==== Sys2Proof/Proofs/TilesAndMatrix.lean ====
section
/-! PROOFS. Cistern tiles, flumes and the matrix array (R206 to R240): the instructions with a destination complete where their rows'
conditions hold, beside those that have none. -/

namespace Sys2Proof.Proofs.TilesAndMatrix

open Sys2Proof.Machine Sys2Proof.Claims Sys2Proof.Proofs.ExecutionModel Sys2Proof.Proofs.RegistersKept

/-! ## Tiles (R214, R221, R223) -/

/-- R214: a legal size and count, and the issuer's turn at a free run. -/
theorem talloc_completes {f : XForm} {s : State} (hok : (tallocRow f).ok s = true) : execTalloc f s = .next ((tallocRow f).next s) := by
  simp only [tallocRow] at hok ⊢
  refine runSimt_of_carries hok fun u _ hcond => ?_
  simp only [Bool.and_eq_true] at hcond
  obtain ⟨⟨hready, htakes⟩, hgrant⟩ := hcond
  split at hgrant
  next => contradiction
  next q hq =>
    simp only [Bool.and_eq_true, Bool.not_eq_true'] at hgrant
    obtain ⟨hlegal, hmay⟩ := hgrant
    simp only [semTalloc, need_ok _ _ _ hready, tallocOp, hq, once_ok _ _ htakes, hlegal, hmay, Bool.false_eq_true, if_false, if_true]
    rfl

/-- R221: in SIMT code a tile load reads the tile as it goes ahead. -/
theorem tld_completes {f : XForm} {w : Width} {s : State} (hw : f.tileW = some w) (hok : (tldRow f w).ok s = true) :
    execTld f s = .next ((tldRow f w).next s) := by
  simp only [tldRow] at hok ⊢
  refine runSimt_of_carries hok fun u hslot hcond => ?_
  simp only [Bool.and_eq_true] at hcond
  obtain ⟨⟨hready, htakes⟩, hin⟩ := hcond
  obtain ⟨t, htile, hoffs⟩ := inTile_ok hin
  simp only [semTld, hw, need_ok _ _ _ hready, tldOp, tileAccess, once_ok _ _ htakes, tile_ok _ _ _ _ _ _ htile, hoffs, hslot,
    Option.isSome_none, Bool.false_eq_true, if_false]
  rfl

theorem tquery_completes {f : XForm} {s : State} (hok : (tqueryRow f).ok s = true) : execTquery f s = .next ((tqueryRow f).next s) := by
  refine runSimt_of_carries hok fun u hslot hcond => ?_
  rw [Bool.and_eq_true] at hcond
  obtain ⟨hready, htakes⟩ := hcond
  simp only [semTquery, need_ok _ _ _ hready, once_ok _ _ htakes, hslot, Option.isSome_none, Bool.false_eq_true, if_false]
  rfl

/-! ## Flumes (R226) -/

/-- R226: the handle at a cursor, with as many behind it as are asked for. -/
theorem qtake_completes {f : XForm} {s : State} (hok : (qtakeRow f).ok s = true) : execQtake f s = .next ((qtakeRow f).next s) := by
  simp only [qtakeRow] at hok ⊢
  refine runSimt_of_carries hok fun u _ hcond => ?_
  simp only [Bool.and_eq_true] at hcond
  obtain ⟨⟨hready, htakes⟩, hflume⟩ := hcond
  split at hflume
  next q hq =>
    simp only [Bool.and_eq_true, decide_eq_true_eq] at hflume
    obtain ⟨hcur, hbeyond⟩ := hflume
    simp only [semQtake, need_ok _ _ _ hready, qtakeOp, flume_ok hq, once_ok _ _ htakes, ge_iff_le, Nat.not_le.mpr hcur,
      Nat.not_lt.mpr hbeyond, if_false, thenNext, hq]
    rfl
  next => contradiction

theorem qcnt_completes {f : XForm} {s : State} (hok : (qcntRow f).ok s = true) : execQcnt f s = .next ((qcntRow f).next s) := by
  simp only [qcntRow] at hok ⊢
  refine runSimt_of_carries hok fun u _ hcond => ?_
  simp only [Bool.and_eq_true] at hcond
  obtain ⟨⟨hready, htakes⟩, hflume⟩ := hcond
  split at hflume
  next q hq =>
    have hcur := of_decide_eq_true hflume
    simp only [semQcnt, need_ok _ _ _ hready, flume_ok hq, once_ok _ _ htakes, ge_iff_le, Nat.not_le.mpr hcur, if_false, thenNext, hq]
    rfl
  next => contradiction

/-- Settles O17: five instructions complete as those without a destination register do, five by the lemmas above. -/
theorem tilesComplete : Obligations.TilesComplete := by
  unfold Obligations.TilesComplete
  intro i r s hrow hok
  cases i
  case talloc => cases hrow; exact talloc_completes hok
  case tld =>
    obtain ⟨w, hw, rfl⟩ := Option.map_eq_some_iff.mp hrow
    exact tld_completes hw hok
  case tquery => cases hrow; exact tquery_completes hok
  case qtake => cases hrow; exact qtake_completes hok
  case qcnt => cases hrow; exact qcnt_completes hok
  case tseal | tst | tdrop | qpost | qadv => exact plain_completes hrow hok
  all_goals cases hrow

/-! ## The matrix array (R238) -/

theorem mread_completes {f : XForm} {s : State} (hok : (mreadRow f).ok s = true) : execMread f s = .next ((mreadRow f).next s) := by
  simp only [mreadRow] at hok ⊢
  refine runSimt_of_carries hok fun u _ hcond => ?_
  rw [Bool.and_eq_true] at hcond
  obtain ⟨hready, hfree⟩ := hcond
  simp only [semMread, need_ok _ _ _ hready, accum_ok hfree]
  rfl

/-- Settles O18: `MREAD` has a destination register, and the nine others complete as instructions without one do. -/
theorem matrixCompletes : Obligations.MatrixCompletes := by
  unfold Obligations.MatrixCompletes
  intro i r s hrow hok
  cases i
  case mread => cases hrow; exact mread_completes hok
  case mlease | mrel | mloadw | mswap | mstream | mzero | mwrite | mmeta | mshape => exact plain_completes hrow hok
  all_goals cases hrow

end Sys2Proof.Proofs.TilesAndMatrix
end

