-- ==== Sys2Proof/Proofs/PowerEvents.lean ====
section
/-! PROOFS. Events of grants, power, temperature, vaults and pages (R123, R212 to R217, R228 to R230, R267, R294 to R301, R364 to R381,
R386, R399 to R406, R428): what each does where its condition holds. -/

namespace Sys2Proof.Proofs.PowerEvents

open Sys2Proof.Machine Sys2Proof.Claims Sys2Proof.Proofs.ExecutionModel

/-! ## Sleep and tiles (R212, R214, R215, R267) -/

/-- R267: a deadline that has been reached. -/
theorem sleepDeadline_of_does {s : State} {p : Prog} (h : sleepDoes s = some p) : sleepDeadline s = p := by
  unfold sleepDoes at h
  split at h
  next => cases h
  next blk hblk =>
    split at h
    next => cases h
    next x hgang =>
      split at h
      next due adv hwait =>
        obtain ⟨hdue, rfl⟩ := onlyIf_ok h
        simp only [sleepDeadline, hblk, hgang, hwait, hdue, Prog.when, if_true]
      next => cases h

/-- R214: the oldest request, whose issuer still waits, at a free run. -/
theorem tileGrant_of_does {s : State} {p : Prog} (h : grantDoes s = some p) : tileGrant s = p := by
  simp only [grantDoes] at h
  split at h
  next => cases h
  next q hq =>
    split at h
    next => cases h
    next r rest hreqs =>
      split at h
      next => cases h
      next hmay =>
        simp only [Bool.or_eq_true, not_or] at hmay
        obtain ⟨hwaits, hrun⟩ := hmay
        simp only [tileGrant, hq, hreqs, if_neg hwaits, if_neg hrun]
        split at h
        next hhart => cases h; exact if_pos hhart
        next hgang =>
          rw [if_neg hgang]
          split at h
          next hcopy => cases h; exact if_pos hcopy
          next halloc =>
            obtain ⟨blk, hblk, rfl⟩ := Option.map_eq_some_iff.mp h
            rw [if_neg halloc, hblk]

/-- R215, R281: a counter that has reached 2^22. -/
theorem poolStall_of_does {s : State} {p : Prog} (h : stallDoes s = some p) : poolStall s = p := by
  simp only [stallDoes] at h
  split at h
  next => cases h
  next q hq =>
    obtain ⟨hstall, rfl⟩ := onlyIf_ok h
    simp only [poolStall, hq]
    exact if_neg (Nat.not_lt.mpr (of_decide_eq_true hstall))

/-- R212: a draining tile with no read left. -/
theorem tileDrain_of_does {s : State} {p : Prog} (h : tileDrainDoes s = some p) : tileDrain s = p := by
  simp only [tileDrainDoes] at h
  split at h
  next => cases h
  next t ht =>
    obtain ⟨hdrained, rfl⟩ := onlyIf_ok h
    simp only [tileDrain, ht]
    exact if_pos hdrained

/-! ## The matrix lease (R228 to R230) -/

theorem lease_keepReqs (q : Cluster) (f : LeaseReq → Bool) : (q.keepReqs f).lease = q.lease := rfl

/-- R229, R230: a cluster without a lease grants one to the request that arbitration picks. -/
theorem leaseGrant_of_does {s : State} {p : Prog} (h : leaseDoes s = some p) : leaseGrant s = p := by
  simp only [leaseDoes] at h
  split at h
  next r q hlease hpick =>
    simp only [leaseGrant, lease_keepReqs, hlease, hpick, Option.isNone_none, if_true]
    exact Option.some.inj h
  next => cases h

/-- R228, R230: a lease that has run out. -/
theorem leaseExpiry_of_does {s : State} {p : Prog} (h : expiryDoes s = some p) : leaseExpiry s = p := by
  unfold expiryDoes at h
  split at h
  next l hlease =>
    obtain ⟨hover, rfl⟩ := onlyIf_ok h
    simp only [leaseExpiry, hlease, hover, Prog.when, if_true]
  next => cases h

/-! ## Power (R295, R379 to R381) and `DOCINV` (R301) -/

theorem not_and_not_of_or {a b : Bool} (h : (a || b) = true) : ¬ (!a && !b) = true := by
  rw [← Bool.not_or, h]
  decide

/-- R380: the oldest request, whose issuer still waits, within the budget. -/
theorem powerGrant_of_does {s : State} {p : Prog} (h : powerDoes s = some p) : powerGrant s = p := by
  simp only [powerDoes] at h
  split at h
  next => cases h
  next c b g n rest hreqs =>
    split at h
    next => cases h
    next x hblk =>
      obtain ⟨hmay, rfl⟩ := onlyIf_ok h
      rw [Bool.and_eq_true] at hmay
      obtain ⟨hwaits, hbudget⟩ := hmay
      simp only [powerGrant, hreqs, hblk, hbudget, Bool.not_true, Bool.false_eq_true, if_false]
      exact if_neg (not_and_not_of_or hwaits)

/-- R295, R368, R381: a window of a resident block. -/
theorem powerWindow_of_does {s : State} {p : Prog} (h : windowDoes s = some p) : powerWindow s = p := by
  simp only [windowDoes] at h
  split at h
  next => cases h
  next x hblk =>
    simp only [powerWindow, hblk]
    exact Option.some.inj h

/-- R301: the code caches have discarded a range that a gang waits for. -/
theorem docinvCompletion_of_does {s : State} {p : Prog} (h : docinvDoes s = some p) : docinvCompletion s = p := by
  unfold docinvDoes at h
  split at h
  next => cases h
  next x hblk =>
    split at h
    next a n hwait =>
      cases h
      obtain ⟨y, hgang, hy⟩ := Option.map_eq_some_iff.mp hwait
      simp only [docinvCompletion, hblk, hgang, hy]
    next => cases h

/-! ## Clocks and heat (R364 to R370, R377, R378, R381) -/

/-- R369, R381: a step down at once, a step down, or a step back. -/
theorem throttleStep_of_does {s : State} {p : Prog} (h : throttleDoes s = some p) : throttleStep s = p := by
  simp only [throttleDoes] at h
  simp only [throttleStep]
  split at h
  next hworst => cases h; exact if_pos hworst
  next hmild =>
    rw [if_neg hmild]
    split at h
    next hslow => cases h; exact if_pos hslow
    next hcool =>
      rw [if_neg hcool]
      split at h
      next hback => cases h; exact if_pos hback
      next => cases h

theorem clockChange_of_does {s : State} {p : Prog} (h : clockDoes s = some p) : clockChange s = p := by
  obtain ⟨hpoint, rfl⟩ := onlyIf_ok h
  simp only [clockChange, hpoint, Prog.when, if_true]

/-- R370: a vault in the ×4 band. -/
theorem hotPageMigration_of_does {s : State} {p : Prog} (h : hotDoes s = some p) : hotPageMigration s = p := by
  obtain ⟨hband, rfl⟩ := onlyIf_ok h
  rw [Bool.and_eq_true, decide_eq_true_eq, decide_eq_true_eq] at hband
  obtain ⟨hlow, hhigh⟩ := hband
  simp only [hotPageMigration]
  rw [if_neg (by simp; omega)]

/-! ## Pages (R370, R406) -/

/-- R370, R406: a move not yet made, of a page that stands where it did. -/
theorem pageMoveCompletion_of_does {s : State} {p : Prog} (h : moveDoes s = some p) : pageMoveCompletion s = p := by
  unfold moveDoes at h
  split at h
  next => cases h
  next m hm =>
    split at h
    next => cases h
    next x g va ph e hpage =>
      obtain ⟨hmay, rfl⟩ := onlyIf_ok h
      simp only [Bool.and_eq_true, Bool.not_eq_true', beq_iff_eq] at hmay
      obtain ⟨⟨hnew, hvalid⟩, hframe⟩ := hmay
      simp only [pageMoveCompletion, hm, hnew, hpage, hvalid, hframe, bne_self_eq_false, Bool.or_self, Bool.false_eq_true, if_false]

/-- R406: a page of a MIGR segment that some side asks for. -/
theorem migrationQuantum_of_does {s : State} {p : Prog} (h : quantumDoes s = some p) : migrationQuantum s = p := by
  simp only [quantumDoes] at h
  split at h
  next => cases h
  next x hctx =>
    split at h
    next => cases h
    next g va ph e hpage =>
      obtain ⟨hmay, rfl⟩ := onlyIf_ok h
      simp only [backRequests, Bool.and_eq_true, Bool.not_eq_true', beq_iff_eq] at hmay
      obtain ⟨⟨⟨hmigr, hinside⟩, hvalid⟩, hasked⟩ := hmay
      simp only [migrationQuantum, hctx, Option.bind_some, hpage, hmigr, hinside, hvalid, hasked, bne_self_eq_false, Bool.not_true,
        Bool.or_self, Bool.false_or, Bool.false_eq_true, if_false]
      rfl

/-- R406: a page whose hold is over. -/
theorem holdExpiry_of_does {s : State} {p : Prog} (h : holdDoes s = some p) : holdExpiry s = p := by
  simp only [holdDoes] at h
  split at h
  next => cases h
  next g va ph e hpage =>
    obtain ⟨hheld, rfl⟩ := onlyIf_ok h
    simp only [holdExpiry, hheld, if_true, hpage]

/-! ## Invalidation, the Rill generator, samples and imprecise causes (R123, R386, R400, R401, R428) -/

/-- R401: a core that owes an acknowledgement for 100 µs. -/
theorem invalidationWatchdog_of_does {s : State} {p : Prog} (h : invDogDoes s = some p) : invalidationWatchdog s = p := by
  simp only [invDogDoes] at h
  split at h
  next => cases h
  next ctx hctx =>
    obtain ⟨hlate, rfl⟩ := onlyIf_ok h
    simp only [invalidationWatchdog, hctx]
    exact if_pos hlate

theorem rillAppend_of_does {s : State} {p : Prog} (h : rillDoes s = some p) : rillAppend s = p := by
  obtain ⟨hcore, rfl⟩ := onlyIf_ok h
  simp only [rillAppend, hcore, Prog.when, if_true]

/-- R428: a tagged instruction that has written back, of a context that samples. -/
theorem instructionSample_of_does {s : State} {p : Prog} (h : sampleDoes s = some p) : instructionSample s = p := by
  unfold sampleDoes at h
  split at h
  next => cases h
  next y hy =>
    split at h
    next => cases h
    next x hctx =>
      obtain ⟨hmay, rfl⟩ := onlyIf_ok h
      rw [Bool.and_eq_true] at hmay
      obtain ⟨hsamples, hback⟩ := hmay
      simp only [instructionSample, hy, hctx, hsamples, hback, Prog.when, if_true]

/-- R386: the lowest pending cause of a gang at a boundary. -/
theorem deliverPend_of_does {s : State} {p : Prog} (h : pendDoes s = some p) :
    (deliverPend (s.arg 0) (s.arg 1) (s.arg 2)).run s = p.run s := by
  simp only [pendDoes] at h
  split at h
  next => cases h
  next blk hblk =>
    split at h
    next => cases h
    next x hgang =>
      split at h
      next => cases h
      next e hlow =>
        obtain ⟨hboundary, rfl⟩ := onlyIf_ok h
        rw [Bool.not_eq_true'] at hboundary
        simp only [deliverPend, Prog.run_read, hblk, hgang, hlow, hboundary, Bool.false_eq_true, if_false]

/-! ## The obligation -/

theorem grantEvents_complete {i : Instr} {r : Row} {s : State} (hrow : grantEvents i = some r) (hok : r.ok s = true) :
    exec i s = .next (r.next s) := by
  cases i
  case sleepDeadline => cases hrow; exact event_ok_of_eq hok sleepDeadline_of_does
  case tileGrant => cases hrow; exact event_ok_of_eq hok tileGrant_of_does
  case poolStall => cases hrow; exact event_ok_of_eq hok poolStall_of_does
  case tileDrain => cases hrow; exact event_ok_of_eq hok tileDrain_of_does
  case leaseGrant => cases hrow; exact event_ok_of_eq hok leaseGrant_of_does
  case leaseExpiry => cases hrow; exact event_ok_of_eq hok leaseExpiry_of_does
  case powerGrant => cases hrow; exact event_ok_of_eq hok powerGrant_of_does
  case powerWindow => cases hrow; exact event_ok_of_eq hok powerWindow_of_does
  case docinvCompletion => cases hrow; exact event_ok_of_eq hok docinvCompletion_of_does
  case powerBudget => cases hrow; rfl
  all_goals cases hrow

theorem heatEvents_complete {i : Instr} {r : Row} {s : State} (hrow : heatEvents i = some r) (hok : r.ok s = true) :
    exec i s = .next (r.next s) := by
  cases i
  case throttleStep => cases hrow; exact event_ok_of_eq hok throttleStep_of_does
  case clockChange => cases hrow; exact event_ok_of_eq hok clockChange_of_does
  case hotPageMigration => cases hrow; exact event_ok_of_eq hok hotPageMigration_of_does
  case pageMoveCompletion => cases hrow; exact event_ok_of_eq hok pageMoveCompletion_of_does
  case migrationQuantum => cases hrow; exact event_ok_of_eq hok migrationQuantum_of_does
  case holdExpiry => cases hrow; exact event_ok_of_eq hok holdExpiry_of_does
  case invalidationWatchdog => cases hrow; exact event_ok_of_eq hok invalidationWatchdog_of_does
  case rillAppend => cases hrow; exact event_ok_of_eq hok rillAppend_of_does
  case instructionSample => cases hrow; exact event_ok_of_eq hok instructionSample_of_does
  case impreciseTrapDelivery =>
    cases hrow
    exact event_ok (prog := fun s => deliverPend (s.arg 0) (s.arg 1) (s.arg 2)) hok fun _ => deliverPend_of_does
  case vaultSensorReading | coreAcknowledge | agentCounterWriteback => cases hrow; rfl
  all_goals cases hrow

/-- Settles O31: each of the twenty-three events does what its row says where the row's condition holds. -/
theorem powerEventsComplete : Obligations.PowerEventsComplete := by
  unfold Obligations.PowerEventsComplete
  intro i r s hrow hok
  rcases hrow with hgrant | hheat
  · exact grantEvents_complete hgrant hok
  · exact heatEvents_complete hheat hok

end Sys2Proof.Proofs.PowerEvents
end

