-- ==== Sys2Proof/Proofs/Synchronisation.lean ====
section
/-! PROOFS. Phases, regrouping and monitors (R44, R63, R251, R262 to R264): each completes where its row's condition holds, beside the
barriers, supersteps and quiescent points, which have no destination register either. -/

namespace Sys2Proof.Proofs.Synchronisation

open Sys2Proof.Machine Sys2Proof.Claims Sys2Proof.Proofs.ExecutionModel Sys2Proof.Proofs.RegistersKept

/-! ## What is tried once an instruction has issued -/

/-- A row's unit issues, and what is tried behind its effect is tried in the state that the effect leaves. -/
theorem simt_next_tried {len : Nat} {g : Guard} {cond : U → State → Bool} {eff : U → State → Prog} {tried : U → Prog} {s : State}
    (hok : (simt len g cond eff).ok s = true) (hguard : ∀ u : U, tried (u.guarded g) = tried u) :
    ∃ u, unitOf s len = some u
      ∧ (simt len g cond fun u s => (eff u s).andThen (tried u)).next s = (tried u).run ((simt len g cond eff).next s) := by
  cases hunit : unitOf s len with
  | none => simp only [simt, hunit, Bool.false_eq_true] at hok
  | some u => exact ⟨u, rfl, by simp only [simt_next hunit, Prog.run_andThen, hguard]⟩

/-! ## Phases (R63, R264) -/

/-- R264: the gang's arrival, without the release that it may bring about. -/
def phaseArrival : Row :=
  simt 8 Guard.always
    (fun u _ => (u.members.filter fun i =>
      match u.blk.slice? i with | some x => !x.stack.isEmpty || x.active != x.live | none => false) == [])
    (thenStay (fun _ => .phase)
      (fun u _ => Prog.all [u.release, u.dropTile,
        onBlock u.c u.b fun b => { b with phaseArr := b.phaseArr ||| maskOf 16 u.members }]))

/-- A gang in SIMT code whose slices have converged arrives. -/
theorem phaseArrival_completes {s : State} (hok : phaseArrival.ok s = true) :
    runSimt 8 Guard.always semPhase s = .next (phaseArrival.next s) := by
  refine simt_ok hok fun u _ hsimt hconverged _ _ => ?_
  have hmode : (u.guarded Guard.always).gang.vliw = false := hsimt
  rw [beq_iff_eq] at hconverged
  simp only [semPhase, hmode, Bool.false_eq_true, if_false]
  exact congrArg (fun i => ((u.guarded Guard.always).carry i).run s) (if_neg (not_not_intro hconverged))

/-- The release is tried once the gang waits. -/
theorem phase_completes {s : State} (hok : phaseRow.ok s = true) : execPhase s = .next (phaseRow.next s) := by
  have harrival : phaseArrival.ok s = true := hok
  obtain ⟨u, hunit, hnext⟩ := simt_next_tried (tried := fun u => tryPhase u.c u.b) harrival fun _ => rfl
  simp only [execPhase, phaseArrival_completes harrival, hunit]
  exact congrArg _ hnext.symm

/-! ## Regrouping (R44, R251) -/

/-- A gang in SIMT code all of whose slices the mask names waits for the others that it names. -/
theorem regang_completes {f : XForm} {s : State} (hok : (regangRow f).ok s = true) : execRegang f s = .next ((regangRow f).next s) := by
  simp only [regangRow] at hok ⊢
  refine simt_ok hok fun u _ hsimt hcond hslot _ => ?_
  have hmode : (u.guarded f.g).gang.vliw = false := hsimt
  rw [Bool.and_eq_true] at hcond
  obtain ⟨hrange, hnamed⟩ := hcond
  simp only [semRegang, hmode, hslot, hrange, hnamed, Option.isSome_none, Bool.not_true, Bool.or_self, Bool.false_eq_true, if_false]
  rfl

/-! ## Condition monitors (R262) -/

/-- The completion of a `WAITC` whose condition holds, without the donation that is tried behind it. -/
def waitcDone (f : XForm) : Row :=
  simt 8 f.g
    (fun u s => ready u [(f.a, 64), (f.b, 64), (f.c, 64)] && takes u && reach u s .global .rd (fun _ => true) (waitcAccs u f)
      && waitcHolds u s f)
    (thenNext fun u s => kept u s .global (waitcAccs u f) (Prog.all [waitcRead u s f, u.release, catchUp (dieOf u.c),
      u.putPred (f.d.toNat % 8) (u.part.map fun i => (i, true))]))

/-- The word's location is known and its value meets the comparison, so that the gang neither waits nor times out. -/
theorem waitcDone_completes {f : XForm} {s : State} (hok : (waitcDone f).ok s = true) :
    runX f (semWaitc f) s = .next ((waitcDone f).next s) := by
  simp only [waitcDone] at hok ⊢
  refine runSimt_of_carries hok fun u _ hcond => ?_
  simp only [Bool.and_eq_true, waitcAccs, waitcHolds] at hcond
  obtain ⟨⟨⟨hready, htakes⟩, hreach⟩, hholds⟩ := hcond
  split at hholds
  next l hword =>
    simp only [semWaitc, need_ok _ _ _ hready, once_ok _ _ htakes, hword, hholds, if_true, cleared_ok _ _ _ _ _ _ _ hreach, thenNext,
      waitcRead]
    rfl
  next => contradiction

/-- The donation is tried once the instruction has completed. -/
theorem waitc_completes {f : XForm} {s : State} (hok : (waitcRow f).ok s = true) : execWaitc f s = .next ((waitcRow f).next s) := by
  have hdone : (waitcDone f).ok s = true := hok
  obtain ⟨u, hunit, hnext⟩ := simt_next_tried (tried := fun u => donate u.c u.b u.g) hdone fun _ => rfl
  simp only [execWaitc, waitcDone_completes hdone, hunit]
  exact congrArg _ hnext.symm

/-- Settles O20: seven instructions complete as those without a destination register do, three by the lemmas above. -/
theorem synchronisationCompletes : Obligations.SynchronisationCompletes := by
  unfold Obligations.SynchronisationCompletes
  intro i r s hrow hok
  cases i
  case bar | barxArv | barxExp | barw | bbrot | gsync | qpoint => exact plain_completes hrow hok
  case phase => cases hrow; exact phase_completes hok
  case regang => cases hrow; exact regang_completes hok
  case waitc => cases hrow; exact waitc_completes hok
  all_goals cases hrow

end Sys2Proof.Proofs.Synchronisation
end

