-- ==== Sys2Proof/Proofs/EnginesAndSystem.lean ====
section
/-! PROOFS. Copies, the Spillway, mailboxes, launches and system instructions (R269 to R301): the instructions with a destination
register, with a trap's entry or with a handler's return as their effect complete where their rows' conditions hold, beside those
that have no destination register. -/

namespace Sys2Proof.Proofs.EnginesAndSystem

open Sys2Proof.Machine Sys2Proof.Claims Sys2Proof.Proofs.ExecutionModel Sys2Proof.Proofs.FormatsAssembly Sys2Proof.Proofs.RegistersKept

/-! ## Copies (R274, R279) -/

/-- R269, R274: a legal partition, with the issuer's turn at a free run in it. -/
theorem cpyAlloc_completes {f : XForm} {blk : Option ParamBlock} {s : State} (hok : (cpyAllocRow f blk).ok s = true) :
    execCpyAlloc f blk s = .next ((cpyAllocRow f blk).next s) := by
  simp only [cpyAllocRow] at hok ⊢
  refine runSimt_of_carries hok fun u _ hcond => ?_
  simp only [Bool.and_eq_true, Bool.not_eq_true', decide_eq_true_eq] at hcond
  obtain ⟨⟨⟨⟨⟨⟨hmail, hpart⟩, hready⟩, hshape⟩, htakes⟩, hcopy⟩, hgrant⟩ := hcond
  split at hgrant
  next r hr =>
    simp only [Bool.and_eq_true, Bool.not_eq_true'] at hgrant
    obtain ⟨hlegal, hmay⟩ := hgrant
    simp only [semCpyAlloc, hmail, ge_iff_le, Nat.not_le.mpr hpart, decide_false, Bool.or_self, Bool.false_eq_true, if_false,
      need_ok _ _ _ hready, withShape_ok hshape, once_ok _ _ htakes, copyOp_alloc_of_ready hcopy hr hlegal hmay]
    rfl
  next => contradiction

theorem cpyq_completes {f : XForm} {s : State} (hok : (cpyqRow f).ok s = true) : execCpyq f s = .next ((cpyqRow f).next s) := by
  refine runSimt_of_carries hok fun u _ hcond => ?_
  simp only [Bool.and_eq_true] at hcond
  obtain ⟨⟨hready, htakes⟩, hright⟩ := hcond
  simp only [semCpyq, need_ok _ _ _ hready, once_ok _ _ htakes, hright, Bool.not_true, Bool.false_eq_true, if_false]
  rfl

/-! ## The Spillway (R284, R285) -/

/-- R284: an entry stands inbound, and the gang pops the oldest. -/
theorem splr_completes {f : XForm} {s : State} (hok : (splrRow f).ok s = true) : execSplr f s = .next ((splrRow f).next s) := by
  simp only [splrRow] at hok ⊢
  refine runSimt_of_carries hok fun u _ hcond => ?_
  simp only [Bool.and_eq_true, takes, Bool.not_eq_true'] at hcond
  obtain ⟨⟨⟨⟨⟨hfeat, hfield⟩, hready⟩, htakes⟩, hfree⟩, hentry⟩ := hcond
  cases hinbound : (s.core u.c).inbound with
  | nil => simp [hinbound] at hentry
  | cons e es =>
    simp only [semSplr, hfeat, hfield, Bool.not_true, Bool.or_self, Bool.false_eq_true, if_false, need_ok _ _ _ hready, htakes,
      spill_ok hfree, hinbound, thenNext]
    rfl

theorem splf_completes {f : XForm} {s : State} (hok : (splfRow f).ok s = true) : execSplf f s = .next ((splfRow f).next s) := by
  refine runSimt_of_carries hok fun u _ hcond => ?_
  simp only [Bool.and_eq_true] at hcond
  obtain ⟨⟨⟨hfeat, hready⟩, htakes⟩, hfree⟩ := hcond
  simp only [semSplf, hfeat, Bool.not_true, Bool.false_eq_true, if_false, need_ok _ _ _ hready, once_ok _ _ htakes, spill_ok hfree]
  rfl

/-! ## Messages and launches (R290, R292) -/

/-- R290: the mailbox takes the message as it stands before what the release performs. -/
theorem mbsend_completes {f : XForm} {s : State} (hok : (mbsendRow f).ok s = true) :
    execMbsend f s = .next ((mbsendRow f).next s) := by
  simp only [mbsendRow] at hok ⊢
  refine runSimt_of_carries hok fun u _ hcond => ?_
  simp only [Bool.and_eq_true, decide_eq_true_eq] at hcond
  obtain ⟨⟨⟨⟨hfeat, hready⟩, htakes⟩, haddr⟩, hmail⟩ := hcond
  split at hmail
  next p hp =>
    simp only [semMbsend, hfeat, Bool.not_true, Bool.false_eq_true, if_false, need_ok _ _ _ hready, once_ok _ _ htakes, ge_iff_le,
      Nat.not_le.mpr haddr, hp]
    rfl
  next => contradiction

/-- R292: an aligned packet that may be read, and room in the task table. -/
theorem launch_completes {f : XForm} {s : State} (hok : (launchRow f).ok s = true) :
    execLaunch f s = .next ((launchRow f).next s) := by
  refine runSimt_of_carries hok fun u _ hcond => ?_
  simp only [Bool.and_eq_true, beq_iff_eq, Bool.not_eq_true'] at hcond
  obtain ⟨⟨⟨⟨⟨hfeat, hready⟩, htakes⟩, haligned⟩, hspans⟩, hroom⟩ := hcond
  simp only [semLaunch, hfeat, Bool.not_true, Bool.false_eq_true, if_false, need_ok _ _ _ hready, once_ok _ _ htakes, haligned,
    bne_self_eq_false, hroom, spans_ok _ _ _ _ _ _ _ hspans]
  rfl

/-- Settles O19: three instructions complete as those without a destination register do, six by the lemmas above. -/
theorem enginesComplete : Obligations.EnginesComplete := by
  unfold Obligations.EnginesComplete
  intro i r s hrow hok
  cases i
  case cpy | cpyw | splw => exact plain_completes hrow hok
  case cpyAlloc => cases hrow; exact cpyAlloc_completes hok
  case cpyq => cases hrow; exact cpyq_completes hok
  case splr => cases hrow; exact splr_completes hok
  case splf => cases hrow; exact splf_completes hok
  case mbsend => cases hrow; exact mbsend_completes hok
  case launch => cases hrow; exact launch_completes hok
  all_goals cases hrow

/-! ## Traps that the program asks for, and handlers' returns (R297, R298, R390) -/

/-- R297: an instruction that means a vector behind it. -/
theorem vector_completes {f : XForm} {cause : Nat} {cond : U → Bool} {sem : Sem} {s : State}
    (hok : (vectorRow f cause cond).ok s = true)
    (h : ∀ u, takes u = true → cond u = true → sem u s = .vector cause (f.imm.setWidth 64)) :
    runX f sem s = .next ((vectorRow f cause cond).next s) := by
  refine runSimt_of_carries hok fun u _ hcond => ?_
  rw [Bool.and_eq_true] at hcond
  obtain ⟨htakes, hmay⟩ := hcond
  rw [h u htakes hmay]
  rfl

/-- R298, R390: what leaving the handler of the frame `fr` does. -/
def leaveProg (f : XForm) (u : U) (fr : Frame) : Prog :=
  let lanes := u.members.flatMap fun i => (List.range 4).map (4 * i + ·)
  if !fr.resumable then killGrid u.blk.grid fr.cause.toNat
  else Prog.all [
    u.bind lanes, Prog.when fr.vliw (u.settle lanes),
    .one (.core u.c fun k => (retireLoads u.b u.members k).setQuarter u.physQuarter (fr.vliw || k.qmask.getLsbD u.physQuarter)),
    onBlock u.c u.b fun b => (b.leaveHandler u.g u.members fr (BitVec.ofNat 64 (u.rd1 f.a 64))).part u.g,
    settlePend u.c u.b]

/-- The frame's slices are together, and a thread's frame is left for a header. -/
theorem not_illegal_of_held {held vliw header : Bool} (hheld : held = true) (hheader : (!vliw || header) = true) :
    ¬ (!held || (vliw && !header)) = true := by
  simpa [hheld, imp_iff_not_or] using hheader

/-- R298, R390: a gang in SIMT code that may leave its innermost handler does so. -/
theorem semHret_of_hretReady {f : XForm} {u : U} {s : State} {fr : Frame} (hready : ready u [(f.a, 64)] = true) (htakes : takes u = true)
    (hsimt : u.gang.vliw = false) (hframe : hretReady u s f = some fr) : semHret f u s = .own (leaveProg f u fr) := by
  unfold hretReady at hframe
  split at hframe
  next => cases hframe
  next fr' _ hframes =>
    obtain ⟨hlegal, hsome⟩ := Option.ite_none_right_eq_some.mp hframe
    cases hsome
    simp only [Bool.and_eq_true, beq_iff_eq] at hlegal
    obtain ⟨⟨haligned, hheld⟩, hheader⟩ := hlegal
    simp only [semHret, need_ok _ _ _ hready, once_ok _ _ htakes, hframes, haligned, bne_self_eq_false, hsimt, Bool.or_false,
      Bool.false_eq_true, if_false, Bool.if_true_left, Bool.decide_eq_true]
    refine (if_neg (not_illegal_of_held hheld hheader)).trans ?_
    unfold leaveProg
    split <;> rfl

theorem hret_completes {f : XForm} {s : State} (hok : (hretRow f).ok s = true) : execHret f s = .next ((hretRow f).next s) := by
  simp only [hretRow] at hok ⊢
  refine simt_ok hok fun u _ hsimt hcond _ _ => ?_
  simp only [Bool.and_eq_true] at hcond
  obtain ⟨⟨hready, htakes⟩, hframe⟩ := hcond
  obtain ⟨fr, hfr⟩ := Option.isSome_iff_exists.mp hframe
  simp only [semHret_of_hretReady hready htakes hsimt hfr, thenOwn, hfr]
  rfl

/-! ## Special registers (R23, R299) -/

theorem sread_completes {f : XForm} {s : State} (hok : (sreadRow f).ok s = true) : execSread f s = .next ((sreadRow f).next s) := by
  simp only [sreadRow] at hok ⊢
  refine runSimt_of_carries hok fun u _ hready => ?_
  rw [semSread, need_ok _ _ _ hready]
  rfl

/-- R23, R299: the register is not `%agent` where the gang runs at user level. -/
theorem swrite_completes {f : XForm} {s : State} (hok : (swriteRow f).ok s = true) :
    execSwrite f s = .next ((swriteRow f).next s) := by
  simp only [swriteRow] at hok ⊢
  refine runSimt_of_carries hok fun u _ hcond => ?_
  simp only [Bool.and_eq_true, Bool.not_eq_true', takes] at hcond
  obtain ⟨⟨hlevel, hready⟩, htakes⟩ := hcond
  have hreg : u.regOk f.a 32 = true := by
    simp only [ready, List.all_cons, List.all_nil, Bool.and_true, Bool.and_eq_true] at hready
    exact hready.1
  have hmay : ¬ (f.fld 8 0 = 0x19 ∧ u.user = true) := by simpa using hlevel
  simp only [semSwrite, hreg, hmay, need_ok _ _ _ hready, htakes, Bool.not_true, Bool.false_eq_true, if_false, thenNext]
  split
  next hsel => simp only [hsel]; rfl
  next hsel => simp only [hsel]; rfl
  next hsel => simp only [hsel]; rfl
  next hbbase hagent hflags => rw [if_neg hbbase, if_neg hagent, if_neg hflags]; rfl

/-- Settles O22: five instructions complete as those without a destination register do, five by the lemmas above. -/
theorem systemCompletes : Obligations.SystemCompletes := by
  unfold Obligations.SystemCompletes
  intro i r s hrow hok
  cases i
  case pgrant | prels | pgate | probe | docinv => exact plain_completes hrow hok
  case trap => cases hrow; exact vector_completes hok fun u htakes _ => once_ok u _ htakes
  case brk =>
    cases hrow
    refine vector_completes hok fun u htakes hstop => ?_
    rw [Bool.not_eq_true'] at hstop
    simp only [semBrk, once_ok _ _ htakes, hstop, Bool.false_eq_true, if_false]
    rfl
  case hret => cases hrow; exact hret_completes hok
  case sread => cases hrow; exact sread_completes hok
  case swrite => cases hrow; exact swrite_completes hok
  all_goals cases hrow

end Sys2Proof.Proofs.EnginesAndSystem
end

