-- ==== Sys2Proof/Proofs/HartInteger.lean ====
section
/-! PROOFS. Integer computations of a hart (R280, log 12): each writes its result into `rd` and retires the hart, which is one effect on
one hart of its core. -/

namespace Sys2Proof.Proofs.HartInteger

open Sys2Proof.Machine Sys2Proof.Claims Sys2Proof.Proofs.FormatsAssembly

/-! ## Registers of a hart -/

theorem reg_setReg_ne {h : Hart} {i k : Nat} (v : W64) (hk : k ≠ i) : (h.setReg i v).reg k = h.reg k := by
  unfold Hart.setReg
  split
  next => rfl
  next => simp only [Hart.reg, cellGet_set_ne _ _ _ _ hk]

theorem reg_setReg_same {h : Hart} {i : Nat} (v : W64) (hi : i ≠ 0) : (h.setReg i v).reg i = v := by
  simp only [Hart.setReg, Hart.reg, if_neg hi, cellGet_cellSet, if_true]

theorem setReg_eq (h : Hart) (i : Nat) (v : W64) : h.setReg i v = { h with x := (h.setReg i v).x } := by
  unfold Hart.setReg
  split <;> rfl

/-! ## Completion with a result -/

/-- The hart of a core. -/
def hartIn (k : Core) (st : Bool) : Hart := if st then k.storer else k.loader

/-- The hart that issues, and the word behind its instruction. -/
theorem hartOf_hart {s : State} {len : Nat} {a : HU} (h : hartOf s len = some a) :
    a.h = hartIn (s.core a.c) a.st ∧ a.next = a.h.pc + BitVec.ofNat 64 len := by
  unfold hartOf at h
  split at h
  next c st _ =>
    obtain ⟨-, h⟩ := Option.ite_none_left_eq_some.mp h
    split at h
    next => cases h; exact ⟨rfl, rfl⟩
    next => cases h
  next => cases h

theorem done_hart (a : HU) (rd : Nat) (v : W64) (s : State) :
    hartIn (((a.done rd v).run s).core a.c) a.st = ((hartIn (s.core a.c) a.st).setReg rd v).retire a.next := by
  unfold HU.done HU.on onHart
  rw [core_run, if_pos rfl]
  unfold hartIn
  cases a.st <;> rfl

theorem done_block (a : HU) (rd : Nat) (v : W64) (s : State) (c b : Nat) : ((a.done rd v).run s).block? c b = s.block? c b := by
  refine core_blocks s a.c _ (fun k => ?_) c b
  cases a.st <;> rfl

theorem done_quiet (a : HU) (rd : Nat) (v : W64) : Quiet (a.done rd v) := Quiet.core _ _

/-! ## The six opcodes -/

/-- The values of `ADDI`, `ADD` and `LUI`. -/
structure ResultOf (a : HU) (w : W32) (v : W64) : Prop where
  addi : (bits 7 w 0).toNat = 0x13 → bits 3 w 12 = 0 → v = a.h.reg (bits 5 w 15).toNat + (bits 12 w 20).signExtend 64
  add : (bits 7 w 0).toNat = 0x33 → bits 3 w 12 = 0 → bits 7 w 25 = 0 →
    v = a.h.reg (bits 5 w 15).toNat + a.h.reg (bits 5 w 20).toNat
  lui : (bits 7 w 0).toNat = 0x37 → v = immU w

/-- A word of OP, OP-IMM, their 32-bit forms, LUI or AUIPC is no compressed one. -/
theorem low_bits_of_integer {w : W32} (hop : (bits 7 w 0).toNat ∈ [0x13, 0x1B, 0x17, 0x33, 0x37, 0x3B]) : bits 2 w 0 = 3 := by
  have hlow : (bits 2 w 0).toNat = (bits 7 w 0).toNat % 4 := by
    simp only [bits, BitVec.extractLsb'_toNat]
    omega
  refine BitVec.eq_of_toNat_eq (hlow.trans ?_)
  simp only [List.mem_cons, List.not_mem_nil, or_false] at hop
  rcases hop with hop | hop | hop | hop | hop | hop <;> rw [hop] <;> rfl

theorem rvOpImm_zero {w : W32} (hf3 : bits 3 w 12 = 0) (x : W64) : rvOpImm w x = some (x + (bits 12 w 20).signExtend 64) := by
  simp only [rvOpImm, hf3]
  rfl

/-- Where such a word completes, it writes its result into `rd`. -/
theorem done_of_integer {a : HU} {s : State} {w : W32} {p : Prog}
    (hop : (bits 7 w 0).toNat ∈ [0x13, 0x1B, 0x17, 0x33, 0x37, 0x3B]) (h : hartDoes a s w = some p) :
    ∃ v, p = a.done (bits 5 w 7).toNat v ∧ ResultOf a w v := by
  simp only [List.mem_cons, List.not_mem_nil, or_false] at hop
  rcases hop with himm | himm32 | hauipc | hreg | hlui | hreg32
  · simp only [hartDoes, himm] at h
    obtain ⟨v, hv, rfl⟩ := Option.map_eq_some_iff.mp h
    refine ⟨v, rfl, fun _ hf3 => ?_, by omega, by omega⟩
    rw [rvOpImm_zero hf3] at hv
    exact (Option.some.inj hv).symm
  · simp only [hartDoes, himm32] at h
    obtain ⟨v, -, rfl⟩ := Option.map_eq_some_iff.mp h
    exact ⟨_, rfl, by omega, by omega, by omega⟩
  · simp only [hartDoes, hauipc] at h
    cases h
    exact ⟨_, rfl, by omega, by omega, by omega⟩
  · simp only [hartDoes, hreg] at h
    obtain ⟨v, hv, rfl⟩ := Option.map_eq_some_iff.mp h
    refine ⟨v, rfl, by omega, fun _ hf3 hf7 => ?_, by omega⟩
    rw [hf3, hf7] at hv
    exact (Option.some.inj hv).symm
  · simp only [hartDoes, hlui] at h
    cases h
    exact ⟨_, rfl, by omega, by omega, fun _ => rfl⟩
  · simp only [hartDoes, hreg32] at h
    obtain ⟨v, -, rfl⟩ := Option.map_eq_some_iff.mp h
    exact ⟨_, rfl, by omega, by omega, by omega⟩

/-- The word completes with its result in `rd`, and does nothing else. -/
theorem exec_integer {w : W32} {s : State} {a : HU} (hop : (bits 7 w 0).toNat ∈ [0x13, 0x1B, 0x17, 0x33, 0x37, 0x3B])
    (hok : (hartIf (hartLen w) (hartBase w)).ok s = true) (ha : hartOf s 4 = some a) :
    ∃ v, exec (.hartBaseInstruction w) s = .next ((a.done (bits 5 w 7).toNat v).run s) ∧ ResultOf a w v := by
  have hlow := low_bits_of_integer hop
  have hlen : hartLen w = 4 := if_pos (beq_iff_eq.mpr hlow)
  have hrun := hartBaseInstruction_completes hok
  simp only [hartIf, hartRow, hlen, ha, hartBase, if_pos hlow] at hok hrun
  obtain ⟨p, hp⟩ := Option.isSome_iff_exists.mp hok
  obtain ⟨v, rfl, hv⟩ := done_of_integer hop hp
  rw [hp] at hrun
  exact ⟨v, hrun, hv⟩

/-- Settles O52: the result's write to `rd` and the retirement are the whole effect. -/
theorem hartIntegerFrame : Obligations.HartIntegerFrame := by
  unfold Obligations.HartIntegerFrame
  intro w s a hop hok ha rd hart
  obtain ⟨v, hexec, haddi, hadd, hlui⟩ := exec_integer hop hok ha
  obtain ⟨hself, hnext⟩ := hartOf_hart ha
  have hafter : hart ((a.done rd v).run s) = (a.h.setReg rd v).retire a.next := by
    rw [hself]; exact done_hart a rd v s
  have hreg : ∀ k, (hart ((a.done rd v).run s)).reg k = (a.h.setReg rd v).reg k := fun k => by rw [hafter]; rfl
  refine ⟨_, hexec, done_quiet a rd v s, done_block a rd v s, ?_, fun k hk => ?_, rfl, fun hrd hop hf3 => ?_, fun hrd hop hf3 hf7 => ?_,
    fun hrd hop => ?_⟩
  · rw [hafter, setReg_eq, hnext]; rfl
  · rw [hreg, reg_setReg_ne v hk]
  · rw [hreg, reg_setReg_same v hrd, haddi hop hf3]
  · rw [hreg, reg_setReg_same v hrd, hadd hop hf3 hf7]
  · rw [hreg, reg_setReg_same v hrd, hlui hop]; rfl

end Sys2Proof.Proofs.HartInteger
end

