-- ==== Sys2Proof/Proofs/HandlerReturn.lean ====
section
/-! PROOFS. A thread's return from its handler in a block whose physical slices are numbered above 15: the quarter mask has four bits,
and none for such a block's quarter (R52, R298, R390). Placement gives a block slices 0 to 15 (`slicesFor`), but the premises of the
statement are on any state. -/

namespace Sys2Proof.Proofs.HandlerReturn

open Sys2Proof.Machine Sys2Proof.Claims

/-! ## The state -/

/-- The frame of a thread that a resumable cause has interrupted. -/
def threadFrame : Frame :=
  { sup := false, rpc := 0x200000, active := 0xFFFF, slices := 15, vliw := true, s61 := 0, s62 := 0, loops := [], cause := 0,
    resumable := true, depths := [] }

/-- A block in that thread's handler, on physical slices 16 to 19; its `s0` is the address of a bundle's header. -/
def outsideBlock : Block :=
  { freshBlock 1 0 false with
    phys := [16, 17, 18, 19]
    slices := List.replicate 4 { gang := 0, pc := 0x200000, live := 15, active := 15, s := [(0, 0x200000)] }
    gangs := [(0, { frames := [threadFrame] })] }

def outsideState : State :=
  { mem := (freshTables []).writeAll 0x50000 (leBytes soloHeader.toNat 8)
    cores := [(0, { blocks := [(0, outsideBlock)] })]
    ctxs := [(1, { saveVa := 0x100000, saveSize := 0x2000000, savePt := 0, feat := Config.offered })]
    grids := [(0, { ctx := 1, started := true, placed := [0], segs := freshSegs })]
    cur := .gang 0 0 0 }

/-- `HRET s0`. -/
def hretS0 : XForm := { g := ⟨7, false⟩, d := 0, a := 0xC0, b := 0, c := 0, imm := 0 }

/-! ## What the return does there -/

theorem hretS0_ok : (hretRow hretS0).ok outsideState = true := by decide +kernel

/-- The frame may be left for the header, and the gang's quarter is the fifth. -/
theorem outsideState_unit : (unitOf outsideState 8).map (fun v => (hretReady (v.guarded hretS0.g) outsideState hretS0, v.physQuarter)) =
    some (some threadFrame, 4) := by decide +kernel

/-- Nothing of the block is outstanding. -/
theorem outsideState_idle :
    (unitOf outsideState 8).map (fun v => (v.g, v.blk.nextGang, v.core.loads.isEmpty, v.blk.pend.isEmpty,
      v.blk.gangs.all fun e => e.2.pend.isEmpty, v.core.sbuf.isEmpty)) = some (0, 1, true, true, true, true) := by decide +kernel

/-- Refutes O59: the frame is a thread's, and the quarter mask of four bits has none for the fifth quarter. -/
theorem not_hretRestores : ¬ Obligations.HretRestores := by
  unfold Obligations.HretRestores
  intro h
  obtain ⟨v, hv, hunit⟩ := Option.map_eq_some_iff.mp outsideState_unit
  have hidle := outsideState_idle
  simp only [hv, Option.map_some, Option.some.injEq, Prod.mk.injEq, List.isEmpty_iff, List.all_eq_true] at hunit hidle
  obtain ⟨hframe, hquarter⟩ := hunit
  obtain ⟨hg, hnext, hloads, hpend, hgangs, hsbuf⟩ := hidle
  obtain ⟨hrestores, -⟩ := h hretS0 outsideState v threadFrame hretS0_ok hv hframe
  obtain ⟨t, x, y, -, -, -, -, -, -, -, hbit, -⟩ := hrestores rfl
    (by show v.g < v.blk.nextGang; rw [hg, hnext]; decide)
    (by show ∀ p ∈ v.core.loads, p.blk ≠ v.b; rw [hloads]; simp)
    hpend hgangs fun _ => hsbuf
  replace hbit : (t.core v.c).qmask.getLsbD v.physQuarter = true := hbit
  rw [hquarter, BitVec.getLsbD_of_ge _ _ (by decide)] at hbit
  exact absurd hbit (by decide)

end Sys2Proof.Proofs.HandlerReturn
end

