-- ==== Sys2Proof/Proofs/ExdinEncoding.lean ====
section
/-! PROOFS. The Exdin encoding (R311 to R313): a well-formed instruction counts at most seven operand words, so that its head word,
guard word and operand words are read back as they were written. -/

namespace Sys2Proof.Proofs.ExdinEncoding

open Sys2Proof.Machine Sys2Proof.Claims

/-! ## The operand count of a well-formed form (R311) -/

theorem nop_le_of_ok {u : ExUse} {f : ExForm} (h : u.ok f = true) : f.nop ≤ 7 := by
  simp only [ExUse.ok, Bool.and_eq_true, decide_eq_true_eq] at h
  exact h.2

theorem nop_le_of_ok_and {u : ExUse} {f : ExForm} {b : Bool} (h : (u.ok f && b) = true) : f.nop ≤ 7 :=
  nop_le_of_ok (Bool.and_eq_true_iff.mp h).1

/-- R120 to R122: each pair of types has its own check of the form's use. -/
theorem nop_le_of_exCvtOk {f : ExForm} (h : exCvtOk f = true) : f.nop ≤ 7 := by
  unfold exCvtOk at h
  split at h
  next s _ =>
    simp only at h
    split_ifs at h
    · exact nop_le_of_ok h
    · exact nop_le_of_ok (Bool.and_eq_true_iff.mp h).2
    · exact nop_le_of_ok (Bool.and_eq_true_iff.mp h).2
    · simp only [Bool.and_eq_true] at h
      exact nop_le_of_ok h.1.2
  next => cases h

/-- R238: each of the three forms of `acc` has its own check of the form's use. -/
theorem nop_le_of_exAccOk {f : ExForm} (h : exAccOk f = true) : f.nop ≤ 7 := by
  unfold exAccOk at h
  split at h
  · exact nop_le_of_ok h
  · exact nop_le_of_ok h
  · exact nop_le_of_ok h
  · cases h

/-- The three forms of `acc` differ in the operand that is written, not in the form. -/
theorem exForm_exAcc (f : ExForm) : Instr.exForm (.exAcc f) = some f := by
  simp only [Instr.exForm, exSpec]
  split <;> rfl

/-- R311: NOP has three bits, and every check of a form bounds it so. -/
theorem nop_le_of_wf {i : Instr} {f : ExForm} (hf : Instr.exForm i = some f) (h : i.wf = true) : f.nop ≤ 7 := by
  cases i
  case exNop | exExit | exMov | exAdd | exSub | exMul | exDiv | exMad | exRem | exMin | exMax | exBfx | exAnd | exOr | exXor | exShl
      | exShr | exBitc | exBfi | exSel | exFadd | exFsub | exFmul | exFdiv | exFfma | exFmin | exFmax | exFsqrt | exFcmp | exQuant
      | exBscale | exVote | exTalloc | exTseal | exTld | exTst | exTdrop | exQpost | exQtake | exCopy | exWload | exMm | exBrk =>
    cases hf; exact nop_le_of_ok h
  case exCmp | exFunc | exShfl | exBcast | exLd | exSt | exLds | exSts | exSreg => cases hf; exact nop_le_of_ok_and h
  case exXred | exXscan | exAtom | exFence => cases hf; exact nop_le_of_ok_and (Bool.and_eq_true_iff.mp h).1
  case exIf | exLoop => cases hf; exact nop_le_of_ok (Bool.and_eq_true_iff.mp h).2
  case exCvt => cases hf; exact nop_le_of_exCvtOk h
  case exAcc g =>
    obtain rfl : g = f := Option.some.inj ((exForm_exAcc g).symm.trans hf)
    exact nop_le_of_exAccOk h
  all_goals cases hf

/-! ## An instruction and its words (R311 to R316) -/

/-- Where the operation of `opc` makes the instruction of its form, the words of that form are read back. -/
theorem decodeExdin_of_form {i : Instr} {opc : BitVec 7} {k : ExForm → Instr} {f : ExForm} (rest : List W32)
    (hk : exOp opc.toNat = some k) (hi : k f = i) (hf : Instr.exForm i = some f) (h : i.wf = true) :
    decodeExdin (putEx opc f ++ rest) = .ok (i, rest) := by
  subst hi
  exact decodeExdin_putEx f rest hk (nop_le_of_wf hf h) h

/-- Settles O4: each operation's code finds it again, and its operand words are as many as its head word counts. -/
theorem exdinRoundTrip : Obligations.ExdinRoundTrip := by
  unfold Obligations.ExdinRoundTrip
  intro i rest h hne
  cases i
  case exNop | exMov | exAdd | exSub | exMul | exMad | exDiv | exRem | exMin | exMax | exAnd | exOr | exXor | exShl | exShr
      | exBitc | exBfx | exBfi | exCmp | exSel | exFadd | exFsub | exFmul | exFfma | exFmin | exFmax | exFdiv | exFsqrt | exFcmp
      | exFunc | exCvt | exQuant | exBscale | exShfl | exBcast | exVote | exXred | exXscan | exLd | exSt | exLds | exSts | exAtom
      | exFence | exTalloc | exTseal | exTld | exTst | exTdrop | exQpost | exQtake | exCopy | exWload | exMm | exIf | exLoop
      | exBrk | exSreg | exExit =>
    exact decodeExdin_of_form rest rfl rfl rfl h
  case exAcc f => exact decodeExdin_of_form rest rfl rfl (exForm_exAcc f) h
  case exElse | exEndif | exEndloop | exBar => rfl
  all_goals exact absurd rfl hne

end Sys2Proof.Proofs.ExdinEncoding
end

