-- ==== Sys2Proof/Proofs/ExdinCompletion.lean ====
section
/-! PROOFS. Exdin operations in cracked code (R303 to R320): each completes, with the program of effects of its row, where the row's
condition holds. -/

namespace Sys2Proof.Proofs.ExdinCompletion

open Sys2Proof.Machine Sys2Proof.Claims

/-! ## An Exdin instruction and its row (R303, R313, R319) -/

/-- An Exdin instruction completes as its row says when its meaning is an effect of its own, no vectoring behind it, and is
carried out as the row's effect wherever the row's condition holds. -/
theorem runEx_of_runs {i : Instr} {cond : XU → State → Bool} {eff : XU → State → Prog} {sem : ExSem} {s : State}
    (hok : (cracked i cond eff).ok s = true)
    (h : ∀ x : XU, x.u.slot = none → cond x s = true →
      (∀ w p, sem x s ≠ .vector w p) ∧ (x.u.carry (sem x s)).run s = (eff x s).run s) :
    runEx i sem s = .next ((cracked i cond eff).next s) :=
  cracked_ok hok fun x _ hcond hslot _ _ => h x hslot hcond

/-- The instruction takes effect, and the gang goes on at the next head word. -/
theorem runEx_of_commit {i : Instr} {cond : XU → State → Bool} {p : XU → State → Prog} {sem : ExSem} {s : State}
    (hok : (cracked i cond (exNext p)).ok s = true) (h : ∀ x : XU, x.u.slot = none → cond x s = true → sem x s = .commit (p x s)) :
    runEx i sem s = .next ((cracked i cond (exNext p)).next s) :=
  runEx_of_runs hok fun x hslot hcond => by
    rw [h x hslot hcond]
    exact ⟨fun _ _ h => Issue.noConfusion h, rfl⟩

/-- An instruction that no check stops. -/
theorem runEx_commit {i : Instr} {cond : XU → State → Bool} {p : XU → State → Prog} {s : State}
    (hok : (cracked i cond (exNext p)).ok s = true) :
    runEx i (fun x s => .commit (p x s)) s = .next ((cracked i cond (exNext p)).next s) :=
  runEx_of_commit hok fun _ _ _ => rfl

/-- The instruction sets the PCs itself. -/
theorem runEx_of_own {i : Instr} {cond : XU → State → Bool} {p : XU → State → Prog} {sem : ExSem} {s : State}
    (hok : (cracked i cond (exOwn p)).ok s = true) (h : ∀ x : XU, x.u.slot = none → cond x s = true → sem x s = .own (p x s)) :
    runEx i sem s = .next ((cracked i cond (exOwn p)).next s) :=
  runEx_of_runs hok fun x hslot hcond => by
    rw [h x hslot hcond]
    exact ⟨fun _ _ h => Issue.noConfusion h, rfl⟩

/-! ## Lane operations, shuffles and reductions (R314, R315) -/

/-- R124: an operation that takes words of stochastic rounding finds them in the queue. -/
theorem exLane_completes {i : Instr} {o : AluOp} {fp : Nat → Bool} {s : State} (hok : (exLaneRow i o fp).ok s = true) :
    runEx i (exLane o fp) s = .next ((exLaneRow i o fp).next s) := by
  refine runEx_of_commit hok fun x _ hcond => ?_
  have hwords : (o.rill && !x.u.part.isEmpty && decide (x.u.core.rill.length < x.u.rillNeed)) = false := by
    simp only [Bool.or_eq_true, Bool.not_eq_true', decide_eq_true_eq, or_assoc] at hcond
    rcases hcond with hrill | hpart | hneed
    · rw [hrill]; rfl
    · rw [hpart]; simp
    · rw [decide_eq_false (Nat.not_lt.mpr hneed), Bool.and_false]
  simp only [exLane, hwords, Bool.false_eq_true, if_false]
  rfl

/-- R132: the group fits the block. -/
theorem exGroup_ok {x : XU} {f : ExForm} (h : (x.u.part.isEmpty || decide (4 * 2 ^ f.x 3 0 ≤ x.u.blk.width)) = true)
    (k : Nat → Issue) : exGroup f k x = k (4 * 2 ^ f.x 3 0) := by
  have hfits : (!x.u.part.isEmpty && decide (4 * 2 ^ f.x 3 0 > x.u.blk.width)) = false := by
    rw [Bool.or_eq_true, decide_eq_true_eq] at h
    rcases h with hpart | hwidth
    · rw [hpart]; rfl
    · rw [decide_eq_false (Nat.not_lt.mpr hwidth), Bool.and_false]
  simp only [exGroup, hfits, Bool.false_eq_true, if_false]

/-- R169, R310: every participating lane's offset lies in the group. -/
theorem exShuffle_completes {i : Instr} {f : ExForm} {kind : Nat} {s : State} (hok : (exShuffleRow i f kind).ok s = true) :
    runEx i (exShuffle f kind) s = .next ((exShuffleRow i f kind).next s) := by
  simp only [exShuffleRow] at hok ⊢
  refine runEx_of_commit hok fun x _ hcond => ?_
  rw [Bool.and_eq_true] at hcond
  obtain ⟨hgroup, hoffsets⟩ := hcond
  have hbad : (if kind = 3 then [] else x.u.part.filter fun i =>
      decide ((if kind = 3 then x.v s 2 i 32 else x.ranged s 2 i) ≥ 4 * 2 ^ f.x 3 0)) = [] := by
    rw [Bool.or_eq_true, beq_iff_eq, beq_iff_eq] at hoffsets
    split_ifs with hkind
    · rfl
    · exact (hoffsets.resolve_left hkind) ▸ by simp only [exOffset, hkind, if_false]
  simp only [exShuffle, exGroup_ok hgroup]
  rw [if_neg (not_not.mpr hbad)]
  rfl

theorem exReduce_completes {i : Instr} {f : ExForm} {scan : Bool} {s : State} (hok : (exReduceRow i f scan).ok s = true) :
    runEx i (exReduce f scan) s = .next ((exReduceRow i f scan).next s) := by
  simp only [exReduceRow] at hok ⊢
  refine runEx_of_commit hok fun x _ hgroup => ?_
  rw [exReduce, exGroup_ok hgroup]

/-- R314: an integer, logic, floating-point or conversion operation. -/
theorem exLaneTable_completes {i : Instr} {r : Row} {s : State} (hrow : exLaneTable i = some r) (hok : r.ok s = true) :
    exec i s = .next (r.next s) := by
  cases i
  case exAdd | exSub | exMul | exMad | exDiv | exRem | exMin | exMax | exAnd | exOr | exXor | exShl | exShr | exBitc | exBfx | exBfi
      | exCmp | exFadd | exFsub | exFmul | exFfma | exFmin | exFmax | exFdiv | exFsqrt | exFcmp | exFunc | exCvt | exQuant
      | exBscale =>
    cases hrow; exact exLane_completes hok
  all_goals cases hrow

/-- R314, R315: a move, a selection, an exchange or the read of a special register. -/
theorem exMoveTable_completes {i : Instr} {r : Row} {s : State} (hrow : exMoveTable i = some r) (hok : r.ok s = true) :
    exec i s = .next (r.next s) := by
  cases i
  case exNop | exMov | exSel | exVote | exSreg => 
    cases hrow
    have hnext := runEx_commit hok
    exact hnext
  case exShfl | exBcast => cases hrow; exact exShuffle_completes hok
  case exXred | exXscan => cases hrow; exact exReduce_completes hok
  all_goals cases hrow

/-- Settles O25: lane operations share one meaning; the moves and exchanges have theirs. -/
theorem exdinLanesComplete : Obligations.ExdinLanesComplete := by
  unfold Obligations.ExdinLanesComplete
  exact fun _ _ _ hrow hok => hrow.elim (exLaneTable_completes · hok) (exMoveTable_completes · hok)

end Sys2Proof.Proofs.ExdinCompletion
end

