-- ==== Sys2Proof/Proofs/ExdinMemory.lean ====
section
/-! PROOFS. Exdin memory, tiles, flumes and engines in cracked code (R179 to R238, R314): each completes, with the program of effects
of its row, where the checks of the native instruction that it stands for pass; a weight load or a stream takes its lease of one
command first, and neither its operands nor its checks depend on the lease. -/

namespace Sys2Proof.Proofs.ExdinMemory

open Sys2Proof.Machine Sys2Proof.Claims Sys2Proof.Proofs.ExdinCompletion

/-! ## Loads, stores and atomics (R181, R191, R314) -/

theorem exLoad_completes {i : Instr} {f : ExForm} {glob : Bool} {s : State} (hok : (exLoadRow i f glob).ok s = true) :
    runEx i (exLoad f glob) s = .next ((exLoadRow i f glob).next s) := by
  simp only [exLoadRow] at hok ⊢
  refine runEx_of_commit hok fun x _ hreach => ?_
  rw [exLoad, U.load, cleared_ok _ _ _ _ _ _ _ hreach]

theorem exStore_completes {i : Instr} {f : ExForm} {glob : Bool} {s : State} (hok : (exStoreRow i f glob).ok s = true) :
    runEx i (exStore f glob) s = .next ((exStoreRow i f glob).next s) := by
  simp only [exStoreRow] at hok ⊢
  refine runEx_of_commit hok fun x _ hreach => ?_
  rw [exStore, U.store, cleared_ok _ _ _ _ _ _ _ hreach]

/-- R191, R430: the lanes may reach their locations, and a replay's log has the atomic next. -/
theorem exAtom_completes {f : ExForm} {s : State} (hok : (exAtomRow f).ok s = true) :
    execExAtom f s = .next ((exAtomRow f).next s) := by
  simp only [exAtomRow] at hok ⊢
  refine runEx_of_commit hok fun x _ hcond => ?_
  rw [Bool.and_eq_true] at hcond
  obtain ⟨hreach, hreplay⟩ := hcond
  simp only [U.atomic, hreplay, Bool.not_true, Bool.and_false, Bool.false_eq_true, if_false, cleared_ok _ _ _ _ _ _ _ hreach]

theorem exMemTable_completes {i : Instr} {r : Row} {s : State} (hrow : exMemTable i = some r) (hok : r.ok s = true) :
    exec i s = .next (r.next s) := by
  cases i
  case exLd | exLds => cases hrow; exact exLoad_completes hok
  case exSt | exSts => cases hrow; exact exStore_completes hok
  case exAtom => cases hrow; exact exAtom_completes hok
  case exFence =>
    cases hrow
    have hnext := runEx_commit hok
    exact hnext
  all_goals cases hrow

/-! ## Tiles and flumes (R214 to R227) -/

/-- R214: a legal size and count, and the gang's turn at a free run. -/
theorem exTalloc_completes {f : ExForm} {s : State} (hok : (exTallocRow f).ok s = true) :
    execExTalloc f s = .next ((exTallocRow f).next s) := by
  simp only [exTallocRow] at hok ⊢
  refine runEx_of_commit hok fun x _ hcond => ?_
  rw [Bool.and_eq_true] at hcond
  obtain ⟨htakes, hgrant⟩ := hcond
  split at hgrant
  next => contradiction
  next q hq =>
    simp only [Bool.and_eq_true, Bool.not_eq_true'] at hgrant
    obtain ⟨hlegal, hmay⟩ := hgrant
    simp only [tallocOp, hq, once_ok _ _ htakes, hlegal, hmay, Bool.false_eq_true, if_false, if_true]

/-- R221: the tile is read as the operation goes ahead. -/
theorem exTld_completes {f : ExForm} {s : State} (hok : (exTldRow f).ok s = true) : execExTld f s = .next ((exTldRow f).next s) := by
  simp only [exTldRow] at hok ⊢
  refine runEx_of_commit hok fun x hslot hcond => ?_
  rw [Bool.and_eq_true] at hcond
  obtain ⟨htakes, hin⟩ := hcond
  obtain ⟨t, htile, hoffs⟩ := inTile_ok hin
  simp only [tldOp, tileAccess, once_ok _ _ htakes, tile_ok _ _ _ _ _ _ htile, hoffs, hslot, Option.isSome_none, Bool.false_eq_true,
    if_false]

theorem exTst_completes {f : ExForm} {s : State} (hok : (exTstRow f).ok s = true) : execExTst f s = .next ((exTstRow f).next s) := by
  simp only [exTstRow] at hok ⊢
  refine runEx_of_commit hok fun x _ hcond => ?_
  rw [Bool.and_eq_true] at hcond
  obtain ⟨htakes, hin⟩ := hcond
  obtain ⟨t, htile, hoffs⟩ := inTile_ok hin
  simp only [tstOp, tileAccess, once_ok _ _ htakes, tile_ok _ _ _ _ _ _ htile, hoffs]

/-- R216: the row of `tseal` has no name of its own in the table. -/
theorem exTseal_completes {f : ExForm} {r : Row} {s : State} (hrow : exEngineTable (.exTseal f) = some r) (hok : r.ok s = true) :
    execExTseal f s = .next (r.next s) := by
  cases hrow
  refine runEx_of_commit hok fun x _ hcond => ?_
  rw [Bool.and_eq_true] at hcond
  obtain ⟨htakes, htile⟩ := hcond
  rw [tsealOp, once_ok _ _ htakes, RegistersKept.tile_of_isSome htile]

theorem exTdrop_completes {f : ExForm} {r : Row} {s : State} (hrow : exEngineTable (.exTdrop f) = some r) (hok : r.ok s = true) :
    execExTdrop f s = .next (r.next s) := by
  cases hrow
  refine runEx_of_commit hok fun x _ hcond => ?_
  simp only [Bool.and_eq_true, Bool.not_eq_true'] at hcond
  obtain ⟨⟨htakes, hcount⟩, htile⟩ := hcond
  simp only [tdropOp, once_ok _ _ htakes, hcount, Bool.and_false, Bool.false_eq_true, if_false, RegistersKept.tile_of_isSome htile]

/-- R226: the handle's partition is the flume's, which has room. -/
theorem exQpost_completes {f : ExForm} {s : State} (hok : (exQpostRow f).ok s = true) :
    execExQpost f s = .next ((exQpostRow f).next s) := by
  simp only [exQpostRow] at hok ⊢
  refine runEx_of_commit hok fun x _ hcond => ?_
  simp only [Bool.and_eq_true] at hcond
  obtain ⟨⟨htakes, htile⟩, hflume⟩ := hcond
  split at hflume
  next q hq =>
    simp only [Bool.and_eq_true, beq_iff_eq, Bool.not_eq_true'] at hflume
    obtain ⟨hpart, hroom⟩ := hflume
    simp only [qpostOp, flume_ok hq, once_ok _ _ htakes, RegistersKept.tile_of_isSome htile, hpart, hroom, bne_self_eq_false,
      Bool.false_eq_true, if_false]
  next => contradiction

/-- R226: a legal count, and as many handles behind the cursor. -/
theorem exQtake_completes {f : ExForm} {s : State} (hok : (exQtakeRow f).ok s = true) :
    execExQtake f s = .next ((exQtakeRow f).next s) := by
  simp only [exQtakeRow] at hok ⊢
  refine runEx_of_commit hok fun x _ hcond => ?_
  simp only [Bool.and_eq_true, Bool.not_eq_true'] at hcond
  obtain ⟨⟨htakes, hcount⟩, hflume⟩ := hcond
  split at hflume
  next q hq =>
    simp only [Bool.and_eq_true, decide_eq_true_eq] at hflume
    obtain ⟨hcur, hbeyond⟩ := hflume
    simp only [hcount, qtakeOp, flume_ok hq, once_ok _ _ htakes, ge_iff_le, Nat.not_le.mpr hcur, Nat.not_lt.mpr hbeyond, Bool.and_false,
      Bool.false_eq_true, if_false]
  next => contradiction

/-! ## Copies (R272 to R277) -/

theorem exCopy_completes {f : ExForm} {s : State} (hok : (exCopyRow f).ok s = true) :
    execExCopy f s = .next ((exCopyRow f).next s) := by
  simp only [exCopyRow] at hok ⊢
  refine runEx_of_commit hok fun x _ hcond => ?_
  simp only [Bool.and_eq_true] at hcond
  obtain ⟨⟨htakes, hcopy⟩, hdst⟩ := hcond
  rw [once_ok _ _ htakes]
  exact FormatsAssembly.copyOp_of_ready hcopy hdst _ _ _ _

/-! ## Accumulators (R238) -/

/-- A row and a column in range (R310). -/
theorem accPlace_ok {x : XU} {row col : Nat} (h : (x.u.part.isEmpty || (decide (row < 32) && decide (col < 256))) = true) :
    (!x.u.part.isEmpty && (decide (row ≥ 32) || decide (col ≥ 256))) = false := by
  rw [Bool.or_eq_true, Bool.and_eq_true, decide_eq_true_eq, decide_eq_true_eq] at h
  rcases h with hpart | ⟨hrow, hcol⟩
  · rw [hpart]; rfl
  · rw [decide_eq_false (Nat.not_le.mpr hrow), decide_eq_false (Nat.not_le.mpr hcol), Bool.or_self, Bool.and_false]

theorem exAcc_completes {f : ExForm} {s : State} (hok : (exAccRow f).ok s = true) : execExAcc f s = .next ((exAccRow f).next s) := by
  unfold execExAcc
  unfold exAccRow at hok ⊢
  simp only at hok ⊢
  split at hok
  next =>
    refine runEx_of_commit hok fun x _ hcond => ?_
    simp only [Bool.and_eq_true, Bool.not_eq_true'] at hcond
    obtain ⟨⟨hfree, htakes⟩, hrows⟩ := hcond
    simp only [hrows, Bool.and_false, Bool.false_eq_true, if_false, mzeroOp, accum_ok hfree, once_ok _ _ htakes]
  next =>
    refine runEx_of_commit hok fun x _ hcond => ?_
    rw [Bool.and_eq_true] at hcond
    obtain ⟨hfree, hplace⟩ := hcond
    simp only [accPlace_ok hplace, Bool.false_eq_true, if_false, accum_ok hfree]
  next =>
    refine runEx_of_commit hok fun x _ hcond => ?_
    rw [Bool.and_eq_true] at hcond
    obtain ⟨hfree, hplace⟩ := hcond
    simp only [accPlace_ok hplace, Bool.false_eq_true, if_false, accum_ok hfree]

/-! ## The lease of one command (R319, log 20) -/

theorem cluster_clus (s : State) (k : Nat) (f : Cluster → Cluster) :
    ((Prog.one (.clus k f)).run s).cluster k = (s.cluster k).update f := by
  simp only [Prog.run_one, State.cluster, Eff.apply_clus_clusters, Tab.get?_set, if_true, Option.getD_some]

/-- While the operation holds its lease, only the lease of its cluster differs. -/
theorem heldLease_cluster (x : XU) (s : State) :
    (heldLease x s).cluster (clusterOf x.u.c) = { s.cluster (clusterOf x.u.c) with lease := some x.ownLease } :=
  cluster_clus s (clusterOf x.u.c) _

theorem heldLease_sameBytes (x : XU) (s : State) : SameBytes s (heldLease x s) := Quiet.clus _ _ s

theorem heldLease_streaming (x : XU) (s : State) (z : Nat) : x.u.streaming (heldLease x s) z = x.u.streaming s z := by
  simp only [U.streaming, heldLease_cluster]

/-- R228: a command of the operation that holds its lease goes ahead. -/
theorem command_held (x : XU) (s : State) (k : Issue) : x.u.command (heldLease x s) k = k := by
  refine leased_ok ?_
  simp [Claims.leased, U.lease, heldLease_cluster, XU.ownLease]

/-- An operation that has its lease, or is granted it at once, takes effect with the lease in hand. -/
theorem leased_commit {x : XU} {s : State} {k : State → Issue} {p : Prog} (htakes : takes x.u = true) (howns : ownsLease x s = true)
    (hk : k (heldLease x s) = .commit p) : x.leased s k = .commit (withLease x s p) := by
  have hpart : x.u.part.isEmpty = false := by rw [← Bool.not_eq_true']; exact htakes
  have hheld : k ((Prog.one (.clus (clusterOf x.u.c) fun q => { q with lease := some x.ownLease })).run s) = .commit p := hk
  simp only [XU.leased, hpart, hheld, Bool.false_eq_true, if_false]
  change (if freshLease x.u s then Issue.commit p else _) = .commit (if freshLease x.u s then p else _)
  rw [ownsLease, Bool.or_eq_true] at howns
  by_cases hfresh : freshLease x.u s = true
  · rw [if_pos hfresh, if_pos hfresh]
  · rw [if_neg hfresh, if_neg hfresh, if_pos (howns.resolve_left hfresh), Issue.after]

/-! ## Operands do not depend on a lease (R307, R310) -/

theorem readBytes_of_sameBytes {s t : State} (h : SameBytes s t) (l : Loc) (n : Nat) : t.readBytes l n = s.readBytes l n := by
  rw [readBytes_eq, readBytes_eq]
  exact List.map_congr_left fun i _ => h _

theorem reg_of_sameBytes {s t : State} (h : SameBytes s t) (x : XU) (n i : Nat) : x.reg t n i = x.reg s n i := by
  simp only [XU.reg, readBytes_of_sameBytes h]

theorem v1_of_sameBytes {s t : State} (h : SameBytes s t) (x : XU) (k w : Nat) : x.v1 t k w = x.v1 s k w := by
  simp only [XU.v1, XU.v, XU.val, reg_of_sameBytes h]

theorem count_of_sameBytes {s t : State} (h : SameBytes s t) (x : XU) (k : Nat) : x.count t k = x.count s k := by
  simp only [XU.count, XU.ranged, reg_of_sameBytes h]

/-! ## Weight loads and streams (R232 to R236, R447) -/

theorem exWload_completes {f : ExForm} {s : State} (hok : (exWloadRow f).ok s = true) :
    execExWload f s = .next ((exWloadRow f).next s) := by
  simp only [exWloadRow] at hok ⊢
  refine runEx_of_commit hok fun x _ hcond => ?_
  simp only [Bool.and_eq_true, Bool.not_eq_true'] at hcond
  obtain ⟨⟨⟨htakes, howns⟩, hlegal⟩, hsource⟩ := hcond
  refine leased_commit htakes howns ?_
  rw [v1_of_sameBytes (heldLease_sameBytes x s)]
  change mloadwOp x.u (heldLease x s) (exWloadField x s f) (x.v1 s 0 64) .done = _
  simp only [mloadwOp, once_ok _ _ htakes, hlegal, Bool.false_eq_true, if_false, command_held]
  exact engReach_ok hsource

theorem exPlane_held (x : XU) (s : State) (f : ExForm) : exPlane x (heldLease x s) f = exPlane x s f := by
  simp only [exPlane, heldLease_cluster]

theorem exMmField_held (x : XU) (s : State) (f : ExForm) : exMmField x (heldLease x s) f = exMmField x s f := by
  have hbytes := heldLease_sameBytes x s
  funext i
  simp only [exMmField, exPlane_held, v1_of_sameBytes hbytes, count_of_sameBytes hbytes]

theorem exMm_completes {f : ExForm} {s : State} (hok : (exMmRow f).ok s = true) : execExMm f s = .next ((exMmRow f).next s) := by
  simp only [exMmRow] at hok ⊢
  refine runEx_of_commit hok fun x _ hcond => ?_
  simp only [Bool.and_eq_true, Bool.not_eq_true', beq_iff_eq] at hcond
  obtain ⟨⟨⟨⟨⟨⟨⟨⟨⟨htakes, howns⟩, hlegal⟩, hswap⟩, hvalid⟩, hctx⟩, hclass⟩, hword⟩, hsource⟩, hidle⟩ := hcond
  refine leased_commit htakes howns ?_
  change mstreamOp x.u (heldLease x s) (exMmField x (heldLease x s) f) (x.v1 (heldLease x s) 1 64) (homeIdx (x.info.home (x.dst 0)))
    (f.x 1 5 == 1) (f.x 1 6 == 1) .done (fun k => if bits 26 (BitVec.ofNat 64 (x.v1 s 5 64)) 38 != 0 then x.u.trap cIllegal
      else k (BitVec.ofNat 64 (x.v1 s 5 64)) .done) .done = _
  rw [exMmField_held, v1_of_sameBytes (heldLease_sameBytes x s)]
  have hqueue : ((f.x 1 6 == 1) && decide (((heldLease x s).cluster (clusterOf x.u.c)).wloads ≠ [])) = false := by
    simpa [heldLease_cluster] using hswap
  have hplane : (if f.x 1 6 == 1 then ((heldLease x s).cluster (clusterOf x.u.c)).shadow
      else ((heldLease x s).cluster (clusterOf x.u.c)).active) = exPlane x s f := exPlane_held x s f
  have hformat : exMmField x s f 0 = f.x 5 0 := rfl
  simp only [mstreamOp, once_ok _ _ htakes, hlegal, command_held, hqueue, hplane, hvalid, hctx, hformat, hclass, hword,
    heldLease_streaming, hidle, bne_self_eq_false, Bool.not_true, Bool.or_self, Bool.false_eq_true, if_false]
  exact engReach_ok hsource

/-! ## The table (R314) -/

theorem exEngineTable_completes {i : Instr} {r : Row} {s : State} (hrow : exEngineTable i = some r) (hok : r.ok s = true) :
    exec i s = .next (r.next s) := by
  cases i
  case exTalloc => cases hrow; exact exTalloc_completes hok
  case exTseal => exact exTseal_completes hrow hok
  case exTld => cases hrow; exact exTld_completes hok
  case exTst => cases hrow; exact exTst_completes hok
  case exTdrop => exact exTdrop_completes hrow hok
  case exQpost => cases hrow; exact exQpost_completes hok
  case exQtake => cases hrow; exact exQtake_completes hok
  case exCopy => cases hrow; exact exCopy_completes hok
  case exWload => cases hrow; exact exWload_completes hok
  case exMm => cases hrow; exact exMm_completes hok
  case exAcc => cases hrow; exact exAcc_completes hok
  all_goals cases hrow

/-- Settles O26: each operation is the native one on homes, whose checks its row's condition names. -/
theorem exdinMemoryCompletes : Obligations.ExdinMemoryCompletes := by
  unfold Obligations.ExdinMemoryCompletes
  exact fun _ _ _ hrow hok => hrow.elim (exMemTable_completes · hok) (exEngineTable_completes · hok)

end Sys2Proof.Proofs.ExdinMemory
end

