-- ==== Sys2Proof/Proofs/ExdinControl.lean ====
section
/-! PROOFS. Exdin regions, the barrier and the exit in cracked code (R249, R256, R316): each has the effect of its row where the
regions nest and the stacks have room. -/

namespace Sys2Proof.Proofs.ExdinControl

open Sys2Proof.Machine Sys2Proof.Claims Sys2Proof.Proofs.ExdinCompletion

/-! ## Regions (R316) -/

theorem region_eq (x : XU) (f : Nat → Slice → Slice × Option (BitVec 16)) : x.region f = .own (regionProg x f) := rfl

/-- R314: an instruction of regions that a test can stop alone is its region's program where the test finds no slice or lane. -/
theorem region_completes {i : Instr} {bad : XU → State → List Nat} {stop : List Nat → XU → Issue}
    {f : XU → State → Nat → Slice → Slice × Option (BitVec 16)} {s : State}
    (hok : (cracked i (fun x s => bad x s == []) (exOwn fun x s => regionProg x (f x s))).ok s = true) :
    runEx i (fun x s => if bad x s ≠ [] then stop (bad x s) x else x.region (f x s)) s =
      .next ((cracked i (fun x s => bad x s == []) (exOwn fun x s => regionProg x (f x s))).next s) :=
  runEx_of_own hok fun x _ hcond => by rw [if_neg (not_not.mpr (beq_iff_eq.mp hcond)), region_eq]

/-! ## Barriers and exits (R249, R256) -/

theorem exBar_completes {r : Row} {s : State} (hrow : exControlTable .exBar = some r) (hok : r.ok s = true) :
    execExBar s = .next (r.next s) := by
  cases hrow
  refine runEx_of_runs hok fun x _ hcond => ?_
  rw [Bool.and_eq_true, decide_eq_true_eq] at hcond
  obtain ⟨howns, hroom⟩ := hcond
  rw [arriveOp_eq _ _ _ _ howns hroom]
  simp only [Bool.not_true, Bool.false_or]
  split
  · exact ⟨fun _ _ h => Issue.noConfusion h, rfl⟩
  · exact ⟨fun _ _ h => Issue.noConfusion h, rfl⟩

theorem exExit_completes {f : ExForm} {r : Row} {s : State} (hrow : exControlTable (.exExit f) = some r) (hok : r.ok s = true) :
    execExExit f s = .next (r.next s) := by
  cases hrow
  refine runEx_of_runs hok fun x hslot _ => ?_
  simp only [exitOp, hslot, Option.isSome_none, Bool.false_eq_true, if_false, ExecutionModel.moved_eq]
  refine ⟨fun _ _ h => Issue.noConfusion h, ?_⟩
  simp only [U.carry, exOwn, Prog.run_andThen, Prog.run_all_cons, Prog.run_all_nil]
  rfl

/-- Settles O27: six operations are the program of their region, and the barrier and the exit have their own. -/
theorem exdinControlCompletes : Obligations.ExdinControlCompletes := by
  unfold Obligations.ExdinControlCompletes
  intro i r s hrow hok
  cases i
  case exIf | exLoop =>
    cases hrow
    have hnext := region_completes (stop := fun full x => x.u.illegalAt full) hok
    exact hnext
  case exElse | exEndif | exEndloop | exBrk =>
    cases hrow
    have hnext := region_completes (stop := fun bad _ => illegalIn bad) hok
    exact hnext
  case exBar => exact exBar_completes hrow hok
  case exExit => exact exExit_completes hrow hok
  all_goals cases hrow

end Sys2Proof.Proofs.ExdinControl
end

