-- ==== Sys2Proof/Proofs/ExdinFrame.lean ====
section
/-! PROOFS. The frame of Exdin lane operations, moves and exchanges (R303, R305, R314): what an operation may write of its gang's block
and of the scratchpad is named once, each of its effects stays within that, and so does their sequence. -/

namespace Sys2Proof.Proofs.ExdinFrame

open Sys2Proof.Machine Sys2Proof.Claims Sys2Proof.Proofs.ExdinCompletion

/-! ## What an operation may write -/

/-- What an operation may write: `count` lane registers from `reg` and the predicates `preds` of its lanes, an s-register of its
slices, and bytes. -/
structure Written where
  reg : Nat
  count : Nat
  preds : List Nat
  sreg : Option Nat
  bytes : Loc → Prop

/-- Bytes of the spilled places of register `n` in the participating lanes (R307). -/
def spilled (x : XU) (n : Nat) (l : Loc) : Prop := ∃ j ∈ x.u.part, within l (x.slot n j) (declW (x.info.decl n) / 8)

/-- The home of the destination, if the operation has one (R305, R307). -/
def homeWritten (x : XU) (dst : Option Nat) : Written where
  reg := match dst.bind x.field with | some f => f.toNat | none => 0
  count := match dst with
    | some n =>
      match dst.bind x.field with
      | some f => if isS f || declW (x.info.decl n) == 0 then 0 else regCount (declW (x.info.decl n))
      | none => 0
    | none => 0
  preds := match dst with
    | some n => if dst.bind x.field = none ∧ homeOf (x.info.home n) = 2 then [homeIdx (x.info.home n)] else []
    | none => []
  sreg := match dst.bind x.field with
    | some f => if isS f then some (f.toNat - 0xC0) else none
    | none => none
  bytes l := ∃ n, dst = some n ∧ dst.bind x.field = none ∧ homeOf (x.info.home n) = 4 ∧ spilled x n l

theorem homeWritten_sreg {x : XU} {n : Nat} {f : BitVec 8} (hf : x.field n = some f) (hs : isS f = true) :
    (homeWritten x (some n)).sreg = some (f.toNat - 0xC0) := by
  simp only [homeWritten, Option.bind_some, hf, hs, if_true]

/-- R9: a lane register's home is as many registers as its width takes. -/
theorem homeWritten_registers {x : XU} {n : Nat} {f : BitVec 8} (hf : x.field n = some f) (hs : isS f = false)
    (hwidth : declW (x.info.decl n) ≠ 0) :
    (homeWritten x (some n)).reg = f.toNat ∧ (homeWritten x (some n)).count = regCount (declW (x.info.decl n)) := by
  simp [homeWritten, hf, hs, hwidth]

theorem homeWritten_preds {x : XU} {n : Nat} (hf : x.field n = none) (hhome : homeOf (x.info.home n) = 2) :
    (homeWritten x (some n)).preds = [homeIdx (x.info.home n)] :=
  if_pos ⟨hf, hhome⟩

/-! ## Blocks -/

/-- Block `y` is block `x` but for what the gang of `u` may write in its participating lanes and its slices. -/
structure BlockFrame (u : U) (w : Written) (x y : Block) : Prop where
  others : ∀ j, j ∉ u.part → y.lane j = x.lane j
  lanes : ∀ j, LaneKeeps (x.lane j) (y.lane j) w.reg w.count w.preds
  slices : ∀ k z, x.slice? k = some z → ∃ v, y.slice? k = some v ∧ if k ∈ u.members then SliceKeeps z v w.sreg else v = z

theorem sliceKeeps_refl (z : Slice) (sr : Option Nat) : SliceKeeps z z sr := ⟨rfl, fun _ _ => rfl⟩

theorem sliceKeeps_trans {x y z : Slice} {sr : Option Nat} (h : SliceKeeps x y sr) (k : SliceKeeps y z sr) : SliceKeeps x z sr := by
  obtain ⟨hxy, hs⟩ := h
  obtain ⟨hyz, ks⟩ := k
  exact ⟨by rw [hyz, hxy], fun i hi => (ks i hi).trans (hs i hi)⟩

theorem BlockFrame.refl (u : U) (w : Written) (x : Block) : BlockFrame u w x x :=
  ⟨fun _ _ => rfl, fun _ => keeps_refl _ _ _ _, fun _ z hz => ⟨z, hz, by split; exacts [sliceKeeps_refl _ _, rfl]⟩⟩

theorem BlockFrame.trans {u : U} {w : Written} {x y z : Block} (h : BlockFrame u w x y) (k : BlockFrame u w y z) :
    BlockFrame u w x z := by
  refine ⟨fun j hj => (k.others j hj).trans (h.others j hj), fun j => keeps_trans _ _ _ _ _ _ (h.lanes j) (k.lanes j),
    fun i a ha => ?_⟩
  obtain ⟨b, hb, hab⟩ := h.slices i a ha
  obtain ⟨c, hc, hbc⟩ := k.slices i b hb
  refine ⟨c, hc, ?_⟩
  split
  next hi =>
    rw [if_pos hi] at hab hbc
    exact sliceKeeps_trans hab hbc
  next hi =>
    rw [if_neg hi] at hab hbc
    exact hbc.trans hab

/-- Lanes of the gang that change one after another within what may be written. -/
theorem blockFrame_modLanes {α : Type} {u : U} {w : Written} {l : List (Nat × α)} {f : Nat × α → Lane → Lane}
    (hl : ∀ e ∈ l, e.1 ∈ u.part) (hf : ∀ e x, LaneKeeps x (f e x) w.reg w.count w.preds) (b : Block) :
    BlockFrame u w b (l.foldl (fun b e => b.modLane e.1 (f e)) b) := by
  obtain ⟨honly, hothers⟩ := foldl_modLane l (·.1) f b
  refine ⟨fun j hj => hothers j fun hmem => ?_,
    foldl_modLane_rel l (·.1) f (fun x y => LaneKeeps x y w.reg w.count w.preds) (fun _ => keeps_refl _ _ _ _)
      (fun _ _ _ => keeps_trans _ _ _ _ _ _) (fun e _ => hf e) b,
    fun k z hz => ⟨z, (slice_of_lanes honly k).trans hz, by split; exacts [sliceKeeps_refl _ _, rfl]⟩⟩
  obtain ⟨e, he, rfl⟩ := List.mem_map.mp hmem
  exact hj (hl e he)

/-- R11: an s-register of the gang's slices. -/
theorem blockFrame_putS {u : U} {w : Written} {i : Nat} (hms : u.members.Nodup) (hw : w.sreg = some i) (v : W64) (b : Block) :
    BlockFrame u w b (b.putS u.members i v) := by
  obtain ⟨honly, hslices⟩ := putS_slices b u.members hms i v
  have hlane := fun j => lane_of_slices honly j
  refine ⟨fun j _ => hlane j, fun j => hlane j ▸ keeps_refl _ _ _ _, fun k z hz => ?_⟩
  rw [hslices, hz]
  split
  · exact ⟨_, rfl, hw ▸ setS_keeps z i v⟩
  · exact ⟨z, rfl, rfl⟩

/-- R13, R305: a value goes to the field's lane registers, or to its s-register. -/
theorem blockFrame_putBlock {x : XU} {n : Nat} {f : BitVec 8} {vals : List (Nat × Nat)} (hslot : x.u.slot = none)
    (hms : x.u.members.Nodup) (hvals : ∀ e ∈ vals, e.1 ∈ x.u.part) (hf : x.field n = some f) (b : Block) :
    BlockFrame x.u (homeWritten x (some n)) b (x.u.putBlock f (declW (x.info.decl n)) vals b) := by
  have hplace : ∀ j, x.u.place j f = (j, f.toNat) := fun j => by rw [U.place, hslot]
  unfold U.putBlock
  simp only [hplace]
  by_cases hwidth : declW (x.info.decl n) = 0
  · rw [if_pos hwidth]
    exact .refl _ _ _
  rw [if_neg hwidth]
  cases hs : isS f with
  | true =>
    rw [if_pos rfl]
    cases vals with
    | nil => exact .refl _ _ _
    | cons e _ => exact blockFrame_putS hms (homeWritten_sreg hf hs) _ _
  | false =>
    obtain ⟨hreg, hcount⟩ := homeWritten_registers hf hs hwidth
    rw [if_neg Bool.false_ne_true]
    exact blockFrame_modLanes hvals (fun e l => by rw [hreg, hcount]; exact setRegs_keeps l _ e.2 _ _) b

/-- One value for each participating lane. -/
theorem mem_part_of_map {α : Type} {part : List Nat} {f : Nat → α} {e : Nat × α} (h : e ∈ part.map fun i => (i, f i)) : e.1 ∈ part := by
  obtain ⟨i, hi, rfl⟩ := List.mem_map.mp h
  exact hi

/-- One value for each lane that has one. -/
theorem mem_part_of_results {α β : Type} {part : List Nat} {rs : List (Nat × α)} {f : Nat × α → Nat × β} (hrs : ∀ e ∈ rs, e.1 ∈ part)
    (hf : ∀ e, (f e).1 = e.1) : ∀ e ∈ rs.map f, e.1 ∈ part := by
  intro e he
  obtain ⟨a, ha, rfl⟩ := List.mem_map.mp he
  exact hf a ▸ hrs a ha

/-! ## States -/

/-- State `t` is state `s` but for what the gang of `u` may write in its block and in memory, and for registers of no block. -/
structure Frame (u : U) (w : Written) (s t : State) : Prop where
  around : ∀ c k, (c ≠ u.c ∨ k ≠ u.b) → t.block? c k = s.block? c k
  memory : ∀ l, ¬ w.bytes l → t.readLoc l = s.readLoc l
  block : ∀ x, s.block? u.c u.b = some x → ∃ y, t.block? u.c u.b = some y ∧ BlockFrame u w x y

theorem Frame.of_blocks {u : U} {w : Written} {s t : State} (hblocks : ∀ c k, t.block? c k = s.block? c k)
    (hmem : ∀ l, ¬ w.bytes l → t.readLoc l = s.readLoc l) : Frame u w s t :=
  ⟨fun c k _ => hblocks c k, hmem, fun x hx => ⟨x, (hblocks _ _).trans hx, .refl _ _ _⟩⟩

theorem Frame.refl (u : U) (w : Written) (s : State) : Frame u w s s := .of_blocks (fun _ _ => rfl) fun _ _ => rfl

theorem Frame.trans {u : U} {w : Written} {s t r : State} (h : Frame u w s t) (k : Frame u w t r) : Frame u w s r := by
  refine ⟨fun c b hcb => (k.around c b hcb).trans (h.around c b hcb), fun l hl => (k.memory l hl).trans (h.memory l hl), fun x hx => ?_⟩
  obtain ⟨y, hy, hxy⟩ := h.block x hx
  obtain ⟨z, hz, hyz⟩ := k.block y hy
  exact ⟨z, hz, hxy.trans hyz⟩

theorem block_onBlock_ne {c b k j : Nat} (h : k ≠ c ∨ j ≠ b) (f : Block → Block) (s : State) :
    ((onBlock c b f).run s).block? k j = s.block? k j := by
  rw [block_onBlock, if_neg fun heq => h.elim (· heq.1) (· heq.2)]

theorem frame_onBlock {u : U} {w : Written} {f : Block → Block} (h : ∀ x, BlockFrame u w x (f x)) (s : State) :
    Frame u w s ((onBlock u.c u.b f).run s) := by
  refine ⟨fun c k hck => block_onBlock_ne hck f s, fun l _ => Quiet.onBlock u.c u.b f s l, fun x hx => ⟨f x, ?_, h x⟩⟩
  rw [block_onBlock, if_pos ⟨rfl, rfl⟩, hx]
  rfl

/-! ## The effects of an operation (R26, R124, R305, R307) -/

theorem frame_spill {x : XU} {n : Nat} {vals : List (Nat × Nat)} (hvals : ∀ e ∈ vals, e.1 ∈ x.u.part) (hf : x.field n = none)
    (hhome : homeOf (x.info.home n) = 4) (s : State) :
    Frame x.u (homeWritten x (some n)) s
      ((Prog.each vals fun e => .one (.write (x.slot n e.1) (leBytes e.2 (declW (x.info.decl n) / 8)))).run s) := by
  induction vals generalizing s with
  | nil => exact .refl _ _ _
  | cons e r ih =>
    rw [List.forall_mem_cons] at hvals
    obtain ⟨hhead, htail⟩ := hvals
    rw [Prog.run_each_cons, run_write]
    refine .trans (.of_blocks (block_writeLoc _ _ _) fun l hl => readLoc_writeLoc_ne _ _ _ _ fun hin => hl ?_) (ih htail _)
    rw [leBytes_length] at hin
    exact ⟨n, rfl, hf, hhome, e.1, hhead, hin⟩

/-- Values of participating lanes written to the home of a register. -/
theorem frame_put {x : XU} {n : Nat} {vals : List (Nat × Nat)} (hslot : x.u.slot = none) (hms : x.u.members.Nodup)
    (hvals : ∀ e ∈ vals, e.1 ∈ x.u.part) (s : State) : Frame x.u (homeWritten x (some n)) s ((x.put n vals).run s) := by
  simp only [XU.put]
  split
  next f hf =>
    exact frame_onBlock (blockFrame_putBlock hslot hms (mem_part_of_results hvals fun _ => by rfl) hf) s
  next hf =>
    split
    next hhome =>
      refine frame_onBlock (blockFrame_modLanes (mem_part_of_results hvals fun _ => by rfl) fun e l => ?_) s
      rw [homeWritten_preds hf hhome]
      exact setPreds_keeps l [(homeIdx (x.info.home n), e.2)] _ _ _ (by simp)
    next hhome => exact frame_spill hvals hf hhome s
    next => exact .refl _ _ _

theorem frame_raise {x : XU} {w : Written} {fl : List (Nat × BitVec 5)} (hfl : ∀ e ∈ fl, e.1 ∈ x.u.part) (s : State) :
    Frame x.u w s ((x.raise fl).run s) :=
  frame_onBlock (blockFrame_modLanes hfl fun _ _ => raise_keeps _ _ _ _ _) s

theorem frame_popRill (u : U) (w : Written) (b : Bool) (s : State) : Frame u w s ((Prog.when b u.popRill).run s) := by
  refine .of_blocks (MachineState.popRill_block u b s) fun l _ => ?_
  refine Quiet.when ?_ s l
  unfold U.popRill
  split
  · exact Quiet.done
  · exact Quiet.core _ _

/-! ## Operations that write the home of operand 0 (R314) -/

/-- The register that an operation writes: that of operand 0, and none for `nop`. -/
def dstOf (i : Instr) (x : XU) : Option Nat := match i with | .exNop _ => none | _ => some (x.dst 0)

/-- The row is an Exdin instruction's whose effect stays within the home of its destination, after which the gang goes on. -/
def WritesHome (i : Instr) (r : Row) : Prop :=
  ∃ (cond : XU → State → Bool) (p : XU → State → Prog), r = cracked i cond (exNext p)
    ∧ ∀ (x : XU) (s : State), x.u.slot = none → x.u.members.Nodup → Frame x.u (homeWritten x (dstOf i x)) s ((p x s).run s)

theorem writesHome_put {i : Instr} (hdst : ∀ x, dstOf i x = some (x.dst 0)) {cond : XU → State → Bool}
    {val : XU → State → Nat → Nat} :
    WritesHome i (cracked i cond (exNext fun x s => x.put (x.dst 0) (x.u.part.map fun j => (j, val x s j)))) :=
  ⟨cond, _, rfl, fun x s hslot hms => by
    rw [hdst]
    exact frame_put hslot hms (fun _ => mem_part_of_map) s⟩

theorem results_part (x : XU) (s : State) (o : AluOp) (fp : Nat → Bool) : ∀ e ∈ x.results s o fp, e.1 ∈ x.u.part :=
  fun _ => mem_part_of_map

theorem writesHome_lane {i : Instr} (hdst : ∀ x, dstOf i x = some (x.dst 0)) (o : AluOp) (fp : Nat → Bool) :
    WritesHome i (exLaneRow i o fp) := by
  unfold exLaneRow
  refine ⟨_, _, rfl, fun x s hslot hms => ?_⟩
  have hres := results_part x s o fp
  rw [hdst]
  simp only [Prog.run_all_cons, Prog.run_all_nil]
  refine .trans ?_ (frame_popRill _ _ _ _)
  refine .trans ?_ (frame_raise (mem_part_of_results hres fun _ => by rfl) _)
  exact frame_put hslot hms (mem_part_of_results hres fun _ => by rfl) s

/-- R315: a sum or scan has one result for each value. -/
theorem fsum_lanes (m : Rnd) (sat scan ex : Bool) (gw width : Nat) (vs : List (Nat × Nat)) :
    (fsum m sat scan ex gw width vs).map (·.1) = vs.map (·.1) := by
  simp [fsum, Function.comp_def]

theorem reduceRes_lanes (op gw : Nat) (t : Ty) (scan ex : Bool) (vs : List (Nat × Nat)) :
    (reduceRes op gw t scan ex vs).map (·.1) = vs.map (·.1) := by
  simp [reduceRes, Function.comp_def]

theorem writesHome_reduce {i : Instr} (hdst : ∀ x, dstOf i x = some (x.dst 0)) (f : ExForm) (scan : Bool) :
    WritesHome i (exReduceRow i f scan) := by
  refine ⟨_, _, rfl, fun x s hslot hms => ?_⟩
  rw [hdst]
  simp only [Prog.run_andThen]
  generalize hvs : x.u.part.map (fun j => (j, x.val s (x.op 1) j f.ty.bits (f.ty == .f32))) = vs
  have hlanes : vs.map (·.1) = x.u.part := by rw [← hvs]; simp [Function.comp_def]
  generalize hrs : (if f.ty == .f32 && f.x 3 8 == 0 then fsum f.rm f.sat scan (f.x 1 3 == 1) (4 * 2 ^ f.x 3 0) x.u.blk.width vs
    else reduceRes (f.x 3 8) (4 * 2 ^ f.x 3 0) f.ty scan (f.x 1 3 == 1) vs) = rs
  have hres : ∀ e ∈ rs, e.1 ∈ x.u.part := fun e he => by
    have hmem := List.mem_map_of_mem (f := (·.1)) he
    rw [← hrs] at hmem
    split at hmem
    · rwa [fsum_lanes, hlanes] at hmem
    · rwa [reduceRes_lanes, hlanes] at hmem
  exact (frame_put hslot hms (mem_part_of_results hres fun _ => by rfl) _).trans (frame_raise (mem_part_of_results hres fun _ => by rfl) _)

theorem writesHome_of_row {i : Instr} {r : Row} (h : exLaneTable i = some r ∨ exMoveTable i = some r) : WritesHome i r := by
  cases i
  case exAdd | exSub | exMul | exMad | exDiv | exRem | exMin | exMax | exAnd | exOr | exXor | exShl | exShr | exBitc | exBfx | exBfi
      | exCmp | exFadd | exFsub | exFmul | exFfma | exFmin | exFmax | exFdiv | exFsqrt | exFcmp | exFunc | exCvt | exQuant
      | exBscale =>
    rcases h with h | h <;> cases h
    exact writesHome_lane (fun _ => rfl) _ _
  case exNop =>
    rcases h with h | h <;> cases h
    exact ⟨_, _, rfl, fun _ _ _ _ => .refl _ _ _⟩
  case exMov | exSel | exShfl | exBcast | exVote | exSreg =>
    rcases h with h | h <;> cases h
    exact writesHome_put fun _ => rfl
  case exXred | exXscan =>
    rcases h with h | h <;> cases h
    exact writesHome_reduce (fun _ => rfl) _ _
  all_goals rcases h with h | h <;> cases h

/-! ## The obligation -/

/-- What the frame needs of the gang that issues in cracked code. -/
theorem cracked_unit {s : State} {i : Instr} {x : XU} (h : crackedUnit s i = some x) :
    s.block? x.u.c x.u.b = some x.u.blk ∧ x.u.slot = none ∧ x.u.members.Nodup := by
  simp only [crackedUnit] at h
  split at h
  next => cases h
  next u hu =>
    split at h
    next => cases h
    next info _ =>
      split at h
      next => cases h
      next =>
        have hfacts := MachineState.lane_unit hu
        cases h
        exact hfacts

/-- The block of a gang that goes on behind effects that stay within what may be written. -/
theorem issued_frame {u : U} {w : Written} {s t : State} (h : Frame u w s t) (hblk : s.block? u.c u.b = some u.blk)
    (hms : u.members.Nodup) :
    ∃ b, ((u.advance u.next).run t).block? u.c u.b = some b
      ∧ (∀ j, j ∉ u.part → b.lane j = u.blk.lane j)
      ∧ (∀ j, LaneKeeps (u.blk.lane j) (b.lane j) w.reg w.count w.preds)
      ∧ ∀ k z, u.blk.slice? k = some z → ∃ y, b.slice? k = some y ∧
          if k ∈ u.members then y.pc = u.next ∧ SliceKeeps z y w.sreg else y = z := by
  obtain ⟨y, hy, hothers, hlanes, hslices⟩ := h.block _ hblk
  have hlane : ∀ j, (MachineState.advanced y u.g u.members u.next).lane j = y.lane j := fun j => by
    rw [MachineState.advanced_eq _ _ hms]
    rfl
  refine ⟨_, MachineState.advance_run_block hy, fun j hj => (hlane j).trans (hothers j hj), fun j => hlane j ▸ hlanes j,
    fun k z hz => ?_⟩
  obtain ⟨v, hv, hkeep⟩ := hslices k z hz
  rw [MachineState.advanced_slice _ _ hms, hv]
  split
  next hk =>
    rw [if_pos hk] at hkeep
    exact ⟨_, rfl, rfl, MachineState.sliceKeeps_pc _ hkeep⟩
  next hk =>
    rw [if_neg hk] at hkeep
    exact ⟨v, rfl, hkeep⟩

/-- Settles O51: every effect of such an operation stays within the home of its destination, and the gang's PC follows. -/
theorem exdinLaneFrame : Obligations.ExdinLaneFrame := by
  unfold Obligations.ExdinLaneFrame
  intro i s r x hrow hok hx dst field width count
  have hexec := exdinLanesComplete i r s hrow hok
  obtain ⟨cond, p, rfl, hp⟩ := writesHome_of_row hrow
  obtain ⟨hblk, hslot, hms⟩ := cracked_unit hx
  have hframe := hp x s hslot hms
  obtain ⟨b, hb, hothers, hlanes, hslices⟩ := issued_frame hframe hblk hms
  have hnext : (cracked i cond (exNext p)).next s = (x.u.advance x.u.next).run ((p x s).run s) := by
    simp only [cracked, hx, exNext, Prog.run_andThen]
  refine ⟨_, b, hexec.trans (congrArg _ hnext), hb, fun c k hck => ?_, fun l hl => ?_, hothers, fun j _ => hlanes j, hslices⟩
  · exact (block_onBlock_ne hck _ _).trans (hframe.around c k hck)
  · refine (Quiet.advance x.u x.u.next _ l).trans (hframe.memory l ?_)
    rintro ⟨n, hn, hfield, hhome, j, hj, hin⟩
    exact hl n hn hfield hhome j hj hin

end Sys2Proof.Proofs.ExdinFrame
end

