-- ==== Sys2Proof/Proofs/DeviceMemory.lean ====
section
/-! PROOFS. Device memory: the byte stores at reset, and the place of an address among the vaults (R331). -/

namespace Sys2Proof.Proofs.DeviceMemory

open Sys2Proof.Machine Sys2Proof.Safety

/-- Settles O11: nothing is listed in any byte store at reset. -/
theorem resetIsCanonical : Obligations.ResetIsCanonical := by
  unfold Obligations.ResetIsCanonical
  exact ⟨Mem.wf_nil, Mem.wf_nil, fun _ h => absurd h List.not_mem_nil, fun _ h => absurd h List.not_mem_nil⟩

/-! ## Vaults (R331) -/

/-- R331: the unit of 4 KiB that holds an address. -/
def memUnit (a : Nat) : Nat := a / 2 ^ 12 % 2 ^ 27

theorem vaultOf_eq (a : Nat) : vaultOf a = (memUnit a % 128) ^^^ (memUnit a / 2 ^ 7 % 128) := rfl

theorem vaultOff_eq (a : Nat) : vaultOff a = 4096 * (memUnit a / 2 ^ 7) + a % 4096 := rfl

theorem homeDie_half (a : Nat) : homeDie a / 2 = vaultOf a / 16 := by
  unfold homeDie vaultDie
  omega

/-- An offset in a vault is that of a unit's `h` and of a place in the unit. -/
theorem vaultOff_eq_iff {a b : Nat} :
    vaultOff a = vaultOff b ↔ memUnit a / 2 ^ 7 = memUnit b / 2 ^ 7 ∧ a % 4096 = b % 4096 := by
  rw [vaultOff_eq, vaultOff_eq]
  omega

/-- Among the units of one `h`, the vault gives the low bits of the unit: exclusive or with the same bits is undone by itself. -/
theorem memUnit_eq_of_vaultOf_eq {a b : Nat} (hrow : memUnit a / 2 ^ 7 = memUnit b / 2 ^ 7) (h : vaultOf a = vaultOf b) :
    memUnit a = memUnit b := by
  rw [vaultOf_eq, vaultOf_eq, hrow, Nat.xor_left_inj] at h
  omega

theorem eq_of_memUnit_eq {a b : Nat} (ha : a < 2 ^ 39) (hb : b < 2 ^ 39) (hunit : memUnit a = memUnit b) (hplace : a % 4096 = b % 4096) :
    a = b := by
  unfold memUnit at hunit
  omega

/-- The address of offset `o` in vault `v`. -/
def placedAt (v o : Nat) : Nat := 4096 * (128 * (o / 4096) + (v ^^^ (o / 4096 % 128))) + o % 4096

theorem xor_lt_128 {x y : Nat} (hx : x < 128) (hy : y < 128) : x ^^^ y < 128 := Nat.xor_lt_two_pow (n := 7) hx hy

theorem placedAt_lt {v o : Nat} (hv : v < 128) (ho : o < 2 ^ 32) : placedAt v o < 2 ^ 39 := by
  have hlow := xor_lt_128 hv (Nat.mod_lt (o / 4096) (show 0 < 128 by decide))
  unfold placedAt
  omega

theorem memUnit_placedAt {v o : Nat} (hv : v < 128) (ho : o < 2 ^ 32) :
    memUnit (placedAt v o) = 128 * (o / 4096) + (v ^^^ (o / 4096 % 128)) := by
  have hlow := xor_lt_128 hv (Nat.mod_lt (o / 4096) (show 0 < 128 by decide))
  unfold memUnit placedAt
  omega

theorem vaultOf_placedAt {v o : Nat} (hv : v < 128) (ho : o < 2 ^ 32) : vaultOf (placedAt v o) = v := by
  have hlow := xor_lt_128 hv (Nat.mod_lt (o / 4096) (show 0 < 128 by decide))
  have hmod : (128 * (o / 4096) + (v ^^^ (o / 4096 % 128))) % 128 = v ^^^ (o / 4096 % 128) := by omega
  have hrow : (128 * (o / 4096) + (v ^^^ (o / 4096 % 128))) / 2 ^ 7 = o / 4096 := by omega
  rw [vaultOf_eq, memUnit_placedAt hv ho, hmod, hrow, Nat.xor_xor_cancel_right]

theorem vaultOff_placedAt {v o : Nat} (hv : v < 128) (ho : o < 2 ^ 32) : vaultOff (placedAt v o) = o := by
  have hlow := xor_lt_128 hv (Nat.mod_lt (o / 4096) (show 0 < 128 by decide))
  have hplace : placedAt v o % 4096 = o % 4096 := by unfold placedAt; omega
  rw [vaultOff_eq, memUnit_placedAt hv ho, hplace]
  omega

/-- Settles O60: vault and offset together give back unit and place, and every place is that of the address put together from it. -/
theorem vaultMap : Obligations.VaultMap := by
  unfold Obligations.VaultMap
  intro a ha u h
  refine ⟨vaultOf_eq a, vaultOff_eq a, homeDie_half a, fun b hb hvault hoff => ?_, fun b hb hrow hunits hvault => ?_,
    fun v o hv ho => ⟨placedAt v o, placedAt_lt hv ho, vaultOf_placedAt hv ho, vaultOff_placedAt hv ho⟩⟩
  · obtain ⟨hrow, hplace⟩ := vaultOff_eq_iff.mp hoff
    exact eq_of_memUnit_eq ha hb (memUnit_eq_of_vaultOf_eq hrow hvault) hplace
  · exact hunits (memUnit_eq_of_vaultOf_eq hrow hvault)

end Sys2Proof.Proofs.DeviceMemory
end

