-- ==== Sys2Proof/Proofs/ModuleEvents.lean ====
section
/-! PROOFS. Events of the module and its links, and the commands of Rhavos (R407, R412 to R431): a command answers OK with the results and the
effect that its row gives, and its rules of admission are proved once for the host and once for a device party. -/

namespace Sys2Proof.Proofs.ModuleEvents

open Sys2Proof.Machine Sys2Proof.Claims Sys2Proof.Proofs.ExecutionModel

/-! ## Links (R412, R417 to R419) -/

/-- R417: a retry at a host port, or at a peer port that is up. -/
theorem flitRetry_of_does {s : State} {p : Prog} (h : retryDoes s = some p) : flitRetry s = p := by
  simp only [retryDoes] at h
  split at h
  next hhost => cases h; exact if_pos hhost
  next hpeer =>
    obtain ⟨hup, rfl⟩ := onlyIf_ok h
    have hdown : ∀ n : Nat, (!decide (n ≥ 64)) = decide (n < 64) := fun n => by rw [← decide_not, decide_eq_decide, Nat.not_le]
    simp only [flitRetry, hup, hdown, Bool.not_true, Bool.false_eq_true, if_false]
    exact if_neg hpeer

theorem creditReturn_of_does {s : State} {p : Prog} (h : creditDoes s = some p) : creditReturn s = p := by
  obtain ⟨hport, rfl⟩ := onlyIf_ok h
  simp only [creditReturn, hport, Prog.when, if_true]

/-- R344, R348: a write from outside that fits device memory; a peer's may be a delivery. -/
theorem writeOutside_run {o : Outside} {a : Nat} {bs : List Byte} (hfits : a + bs.length ≤ memBytes) (s : State) :
    (writeOutside o a bs).run s = (Prog.when o.peer (arriveMail a bs.length)).run ((outsideWrite o a bs).run s) := by
  simp only [writeOutside, outsideWrite, hfits, decide_true, Prog.run_when_true, Prog.run_all_cons, Prog.run_all_nil]

theorem peerWriteArrival_of_does {s : State} {p : Prog} (h : peerWriteDoes s = some p) : (peerWriteArrival s).run s = p.run s := by
  obtain ⟨hmay, rfl⟩ := onlyIf_ok h
  rw [Bool.and_eq_true, decide_eq_true_eq] at hmay
  obtain ⟨hlive, hfits⟩ := hmay
  simp only [peerWriteArrival, hlive, Prog.run_when_true, writeOutside_run hfits, Prog.run_andThen]
  rfl

/-- R417, R418: a read or an atomic of a peer that has the credit for its answer. -/
theorem peerReadArrival_of_does {s : State} {p : Prog} (h : peerReadDoes s = some p) : peerReadArrival s = p := by
  obtain ⟨hmay, rfl⟩ := onlyIf_ok h
  simp only [Bool.and_eq_true, decide_eq_true_eq, Option.isNone_iff_eq_none] at hmay
  obtain ⟨⟨⟨hport, hup⟩, hlive⟩, hcredit⟩ := hmay
  simp only [peerReadArrival]
  rw [if_neg (by simp only [hup, hlive, Nat.not_le.mpr hport, Nat.not_lt.mpr hcredit]; decide)]
  rfl

/-- R4, R348, R429: an access of a host, by what it reaches. -/
theorem hostAccess_of_does {s : State} {p : Prog} (h : hostDoes s = some p) : (hostAccess s).run s = p.run s := by
  simp only [hostDoes] at h
  simp only [hostAccess]
  generalize s.arg 1 = reached at h ⊢
  split at h
  next => cases h
  next hport =>
    rw [if_neg hport]
    split at h
    next hread =>
      rw [if_pos hread]
      match reached with
      | 0 =>
        obtain ⟨hfits, rfl⟩ := onlyIf_ok h
        exact congrArg (fun b => (Prog.when b (readOutside (s.arg 0) (s.arg 2) (s.arg 5))).run s) hfits
      | 1 => cases h; rfl
      | 2 | _ + 4 =>
        obtain ⟨hfits, rfl⟩ := onlyIf_ok h
        exact congrArg (fun b => (Prog.when b _).run s) hfits
      | 3 =>
        obtain ⟨v, hv, rfl⟩ := Option.map_eq_some_iff.mp h
        rw [hv]
        rfl
    next hwrite =>
      rw [if_neg hwrite]
      match reached with
      | 0 =>
        obtain ⟨hmay, rfl⟩ := onlyIf_ok h
        rw [Bool.and_eq_true, decide_eq_true_eq] at hmay
        obtain ⟨hlive, hfits⟩ := hmay
        exact (congrArg (fun b => (Prog.when b (writeOutside _ _ _)).run s) hlive).trans (writeOutside_run hfits s)
      | 1 => cases h; rfl
      | 2 | _ + 4 => cases h
      | 3 =>
        obtain ⟨v, hv, rfl⟩ := Option.map_eq_some_iff.mp h
        rw [hv]
        rfl

/-! ## Checkpoints and replay (R430, R431) -/

/-- Two changes that agree on the entry that is there are one. -/
theorem modify_congr {β : Type} {t : Tab β} {k : Nat} {v : β} {f g : β → β} (hv : t.get? k = some v) (hfg : f v = g v) :
    t.modify k f = t.modify k g := by
  induction t with
  | nil => rfl
  | cons e r ih =>
    obtain ⟨j, w⟩ := e
    rw [Tab.get?] at hv
    rw [Tab.modify, Tab.modify]
    split at hv
    next hj => cases hv; rw [if_pos hj, if_pos hj, hfg]
    next hj => rw [if_neg hj, if_neg hj, ih hv]

/-- R430: what brings a context to rest, with its next checkpoint's time given by the period that stands in it. -/
theorem checkpoint_due {s : State} {x : Nat} {c : Context} (hctx : s.ctx? x = some c) (ps : List Prog) :
    (Prog.all (.one (.ctx x fun d => { d with ckDue := s.sys.time + ms d.ckT }) :: ps)).run s
      = (Prog.all (.one (.ctx x fun d => { d with ckDue := s.sys.time + 1000000 * c.ckT }) :: ps)).run s := by
  have happly : s.ctxs.modify x (fun d => { d with ckDue := s.sys.time + ms d.ckT })
      = s.ctxs.modify x fun d => { d with ckDue := s.sys.time + 1000000 * c.ckT } := modify_congr hctx rfl
  rw [Prog.run_all_cons, Prog.run_all_cons, Prog.run_one, Prog.run_one, Eff.apply, Eff.apply, happly]

theorem checkpoint_of_does {s : State} {p : Prog} (h : checkpointDoes s = some p) : (checkpoint s).run s = p.run s := by
  simp only [checkpointDoes] at h
  split at h
  next => cases h
  next c hctx =>
    obtain ⟨hmay, rfl⟩ := onlyIf_ok h
    simp only [Bool.and_eq_true, Bool.not_eq_true', bne_iff_ne, decide_eq_true_eq, Option.isNone_iff_eq_none] at hmay
    obtain ⟨⟨⟨⟨hperiod, hdue⟩, hlive⟩, hsaveable⟩, hidle⟩ := hmay
    have hquiet := checkpoint_due hctx [flushCopies (s.arg 0), saveContext (s.arg 0)]
    simp only [checkpoint, hctx]
    rw [hquiet, hidle, if_neg (by simp [hperiod, Nat.not_lt.mpr hdue, hlive, hsaveable]), Prog.run_all_cons, hquiet, ← Prog.run_all_cons]

theorem replay_of_does {s : State} {p : Prog} (h : replayDoes s = some p) : replay s = p := by
  simp only [replayDoes] at h
  split at h
  next hidle =>
    obtain ⟨k, hk, hbegin⟩ := Option.bind_eq_some_iff.mp h
    obtain ⟨hmay, rfl⟩ := onlyIf_ok hbegin
    simp only [Bool.and_eq_true, beq_iff_eq, decide_eq_true_eq, Option.isNone_iff_eq_none] at hmay
    obtain ⟨⟨hlocked, hnew⟩, hroom⟩ := hmay
    simp only [replay, hidle, hk]
    exact if_neg (by simp [hlocked, hnew, hroom])
  next y hrest =>
    obtain ⟨hctx, rfl⟩ := onlyIf_ok h
    simp only [replay, hrest]
    exact if_neg (by simpa using hctx)
  next y e r hrest =>
    obtain ⟨hmay, rfl⟩ := onlyIf_ok h
    rw [Bool.and_eq_true, beq_iff_eq, bne_iff_ne] at hmay
    obtain ⟨hctx, hkind⟩ := hmay
    simp only [replay, hrest]
    rw [if_neg (not_not.mpr hctx), if_neg hkind]

/-! ## Registers (R351, R411, R413, R416) -/

theorem registerWrite_of_does {s : State} {p : Prog} (h : registerDoes s = some p) : registerWrite s = p := by
  simp only [registerDoes] at h
  simp only [registerWrite]
  split_ifs at h ⊢
  · obtain ⟨hmay, rfl⟩ := onlyIf_ok h
    rw [hmay]
    rfl
  · cases h; rfl
  · cases h; rfl
  · obtain ⟨hmay, rfl⟩ := onlyIf_ok h
    rw [hmay]
    rfl
  · cases h; rfl
  · cases h; rfl
  · cases h; rfl

/-! ## Commands of Rhavos (R413, R414, R420) -/

/-- A command's meaning answers OK with a result and an effect wherever the row performs it with them; `runs` says in which state it
goes on. -/
def Answers (f : Cmd) (g : Performs) (runs : (Nat → W64) → State → Bool := fun _ _ => false) : Prop :=
  ∀ s from_ a bs out p, g s from_ a bs = some (out, p) → f s from_ a bs = { code := 0, out, prog := p, runs := runs a }

/-- R413, R420: a host command that Rhavos performs in its present state. -/
theorem hostCmd_of_does {opc : Nat} {ws : List Nat} {f : Cmd} {g : Performs} {runs : (Nat → W64) → State → Bool} {s : State}
    {p : Prog} (hf : Answers f g runs) (h : commandDoes opc ws g s runs = some p) : hostCmd opc ws f s = p := by
  simp only [commandDoes] at h
  split at h
  next => cases h
  next out q hperforms =>
    obtain ⟨hmay, rfl⟩ := onlyIf_ok h
    simp only [Bool.and_eq_true, Bool.or_eq_true, beq_iff_eq, decide_eq_true_eq] at hmay
    obtain ⟨⟨⟨⟨⟨hbusy, hopc⟩, hst⟩, hlong⟩, hshort⟩, hfit⟩ := hmay
    have hruns : ¬ (s.sys.st == .boot || s.sys.st == .fatal || s.sys.rh.opc.toNat != opc || !s.sys.rh.busy) = true := by
      rcases hst with (h | h) | ⟨h, _⟩ <;> simp [h, hopc, hbusy]
    have hperformed : ¬ (s.sys.st == .recovery && opc != 0x0D && opc != 0x0E) = true := by
      rcases hst with (h | h) | ⟨h, h | h⟩ <;> simp [h]
    have hargs : ¬ (s.sys.rh.len.toNat > 3840 || s.sys.rh.len.toNat < 8 * ws.length
        || !wordsFit ws fun i => BitVec.ofNat 64 (leNat (s.sys.rh.args.bytes (8 * i) 8))) = true := by
      simp [hfit, Nat.not_lt.mpr hlong, Nat.not_lt.mpr hshort]
    simp only [hostCmd]
    rw [if_neg hruns, if_neg hperformed, if_neg hargs, hf _ _ _ _ _ _ hperforms]
    rfl

/-- R414: a command in the oldest message of mailbox 0. -/
theorem devCmd_of_does {opc : Nat} {ws : List Nat} {f : Cmd} {g : Performs} {runs : (Nat → W64) → State → Bool} {s : State}
    {p : Prog} (hf : Answers f g runs) (h : messageDoes opc ws g s = some p) : devCmd (fun n => n == opc) ws f s = p := by
  simp only [messageDoes] at h
  split at h
  next => cases h
  next bs len kind x hmessage =>
    split at h
    next => cases h
    next out q hperforms =>
      obtain ⟨hmay, rfl⟩ := onlyIf_ok h
      simp only [Bool.and_eq_true, beq_iff_eq] at hmay
      obtain ⟨⟨⟨⟨hkind, hlen⟩, hopc⟩, hreply⟩, hfit⟩ := hmay
      simp only [devCmd, hmessage]
      rw [if_neg (by simp [hkind, hlen, hopc]), if_neg (by simp [hreply]), if_pos hfit, hf _ _ _ _ _ _ hperforms]

theorem eitherCmd_of_does {opc : Nat} {ws : List Nat} {f : Cmd} {g : Performs} {s : State} {p : Prog} (hf : Answers f g)
    (h : eitherDoes opc ws g s = some p) : eitherCmd opc ws f s = p := by
  unfold eitherDoes at h
  unfold eitherCmd
  split_ifs at h ⊢
  · exact devCmd_of_does hf h
  · exact hostCmd_of_does hf h

theorem performs_ok {b : Bool} {p q : Prog} {out : List Byte} (h : performs b p = some (out, q)) : b = true ∧ out = [] ∧ q = p := by
  unfold performs at h
  split at h
  next hb => cases h; exact ⟨hb, rfl, rfl⟩
  next => cases h

/-- A condition that a row states as an implication, and the model as the case that it leaves out. -/
theorem and_not_of_imp {a b : Bool} (h : (!a || b) = true) : (a && !b) = false := by
  rw [← Bool.not_eq_true', Bool.not_and, Bool.not_not, h]

theorem answers_featset : Answers cmdFeatset doesFeatset := by
  intro s from_ a bs out p h
  obtain ⟨hmay, rfl, rfl⟩ := performs_ok h
  rw [Bool.and_eq_true, Option.isNone_iff_eq_none] at hmay
  obtain ⟨hfirst, hoffered⟩ := hmay
  simp only [cmdFeatset, subWords]
  exact if_neg (by simp only [hfirst, hoffered]; decide)

theorem answers_ctxnew : Answers cmdCtxnew doesCtxnew := by
  intro s from_ a bs out p h
  simp only [doesCtxnew] at h
  split at h
  next => cases h
  next l hlocked =>
    obtain ⟨hmay, rfl, rfl⟩ := performs_ok h
    simp only [Bool.and_eq_true, bne_iff_ne, decide_eq_true_eq, Option.isNone_iff_eq_none] at hmay
    obtain ⟨⟨⟨hnumber, hnew⟩, hsubset⟩, hroom⟩ := hmay
    simp only [cmdCtxnew, subWords, hlocked]
    rw [if_neg (by simp only [hnumber, hnew, hsubset]; decide), if_neg (Nat.not_le.mpr hroom)]

theorem answers_ctxend : Answers cmdCtxend doesCtxend fun a t => (t.ctx? (a 0).toNat).isSome := by
  intro s from_ a bs out p h
  simp only [doesCtxend] at h
  split at h
  next => cases h
  next c hctx =>
    obtain ⟨hmay, rfl, rfl⟩ := performs_ok h
    simp only [cmdCtxend, hctx]
    exact if_neg (by rw [Bool.and_comm, and_not_of_imp (by rw [Bool.or_comm]; exact hmay)]; decide)

/-- R288: the sender's context owns the mailbox, or the one that the host names. -/
theorem answers_mbxreg : Answers cmdMbxreg doesMbxreg := by
  intro s from_ a bs out p h
  obtain ⟨hmay, rfl, rfl⟩ := performs_ok h
  simp only [Bool.and_eq_true, bne_iff_ne, beq_iff_eq, decide_eq_true_eq] at hmay
  obtain ⟨⟨⟨⟨⟨hnumber, howned⟩, hdepth⟩, hring⟩, hhandler⟩, howner⟩ := hmay
  cases from_
  all_goals
    simp only [cmdMbxreg]
    rw [if_neg (by simp [Nat.not_lt.mpr hdepth, hring, hhandler, Option.isSome_iff_ne_none.mp howner]),
      if_neg (by simp only [hnumber, bne, and_not_of_imp howned]; decide)]

theorem answers_mbxunreg : Answers cmdMbxunreg doesMbxunreg := by
  intro s from_ a bs out p h
  obtain ⟨hmay, rfl, rfl⟩ := performs_ok h
  simp only [Bool.and_eq_true, Bool.not_eq_true', bne_iff_ne] at hmay
  obtain ⟨⟨hnumber, howned⟩, hidle⟩ := hmay
  cases from_
  case none =>
    simp only [cmdMbxunreg]
    rw [if_neg (by simp [hnumber]), if_neg (by simp [hidle])]
  case some x =>
    simp only [cmdMbxunreg]
    rw [if_neg (by simp only [hnumber, bne, and_not_of_imp howned]; decide), if_neg (by simp [hidle])]

theorem answers_codesync : Answers cmdCodesync doesCodesync := by
  intro s from_ a bs out p h
  obtain ⟨hctx, rfl, rfl⟩ := performs_ok h
  simp only [cmdCodesync]
  exact if_neg (by simpa [Option.isSome_iff_ne_none] using hctx)

theorem answers_dbgctl : Answers cmdDbgctl doesDbgctl := by
  intro s from_ a bs out p h
  simp only [doesDbgctl] at h
  split at h
  next => cases h
  next c hctx =>
    obtain ⟨hmay, rfl, rfl⟩ := performs_ok h
    simp only [cmdDbgctl, hctx]
    rw [Bool.and_eq_true] at hmay
    obtain ⟨hdebug, htrace⟩ := hmay
    exact if_neg (by rw [and_not_of_imp hdebug, and_not_of_imp htrace]; decide)

theorem answers_stop : Answers cmdStop doesStop := by
  intro s from_ a bs out p h
  simp only [doesStop] at h
  split at h
  next => cases h
  next ctx c b x hctx hblock =>
    obtain ⟨-, rfl, rfl⟩ := performs_ok h
    simp only [cmdStop, hctx, hblock]
  next ctx hctx hblock =>
    obtain ⟨hsaved, rfl, rfl⟩ := performs_ok h
    simp only [cmdStop, hctx, hblock]
    exact if_pos hsaved

theorem answers_resume : Answers cmdResume doesResume := by
  intro s from_ a bs out p h
  simp only [doesResume] at h
  split at h
  next v hsaved =>
    cases h
    simp only [cmdResume, hsaved]
  next hsaved =>
    split at h
    next c b y hblock =>
      obtain ⟨hhalt, rfl, rfl⟩ := performs_ok h
      simp only [cmdResume, hsaved, hblock]
      exact if_pos hhalt
    next => cases h

theorem answers_ckpt : Answers cmdCkpt doesCkpt := by
  intro s from_ a bs out p h
  simp only [doesCkpt] at h
  split at h
  next => cases h
  next c hctx =>
    obtain ⟨hmay, rfl, rfl⟩ := performs_ok h
    rw [Bool.and_eq_true, decide_eq_true_eq] at hmay
    obtain ⟨hperiod, hfeat⟩ := hmay
    simp only [cmdCkpt, hctx]
    exact if_neg (by simp only [hfeat, Nat.not_lt.mpr hperiod]; decide)

/-- A host's command as the table has it. -/
theorem command_ok {opc : Nat} {ws : List Nat} {f : Cmd} {g : Performs} {runs : (Nat → W64) → State → Bool} {s : State}
    (hf : Answers f g runs) (hok : (eventRow fun s => commandDoes opc ws g s runs).ok s = true) :
    runEvent (hostCmd opc ws f) s = .next ((eventRow fun s => commandDoes opc ws g s runs).next s) :=
  event_ok_of_eq hok fun h => hostCmd_of_does hf h

/-- A command of the host or of a device party as the table has it. -/
theorem party_ok {opc : Nat} {ws : State → List Nat} {f : Cmd} {g : Performs} {s : State} (hf : Answers f g)
    (hok : (eventRow fun s => eitherDoes opc (ws s) g s).ok s = true) :
    runEvent (fun s => eitherCmd opc (ws s) f s) s = .next ((eventRow fun s => eitherDoes opc (ws s) g s).next s) :=
  event_ok_of_eq hok fun h => eitherCmd_of_does hf h

/-- R413: an operation code that names no command. -/
theorem unknownCommand_of_does {s : State} {p : Prog}
    (h : onlyIf (s.sys.rh.busy && (s.sys.rh.opc.toNat == 0 || decide (0x10 < s.sys.rh.opc.toNat))
        && (s.sys.st == .ready || s.sys.st == .locked) && decide (s.sys.rh.len.toNat ≤ 3840))
      (.one (.sys fun y => { y with rh := { y.rh with
        done := true, busy := false, seqDone := y.rh.seq, result := 1, args := y.rh.args.writeAll 0 [] } })) = some p) :
    (unknownCommand s).run s = p.run s := by
  obtain ⟨hmay, rfl⟩ := onlyIf_ok h
  simp only [Bool.and_eq_true, Bool.or_eq_true, beq_iff_eq, decide_eq_true_eq] at hmay
  obtain ⟨⟨⟨hbusy, hopc⟩, hst⟩, hlen⟩ := hmay
  have hnone : ¬ (1 ≤ s.sys.rh.opc.toNat ∧ s.sys.rh.opc.toNat ≤ 0x10) := by omega
  simp only [unknownCommand, if_neg hnone, hostCmd]
  rcases hst with hready | hlocked
  · simp [hready, hbusy, Nat.not_lt.mpr hlen, wordsFit]
  · simp [hlocked, hbusy, Nat.not_lt.mpr hlen, wordsFit]

/-- R414: a message that is no command. -/
theorem serviceMessage_of_other {s : State} {bs : List Byte} {len kind x : Nat} (hmessage : s.service = some (bs, len, kind, x))
    (hother : (kind != 0 || len != 64) = true) : serviceMessage s = passService := by
  simp only [serviceMessage, hmessage]
  exact if_pos hother

/-! ## The obligation -/

theorem moduleEvents_complete {i : Instr} {r : Row} {s : State} (hrow : moduleEvents i = some r) (hok : r.ok s = true) :
    exec i s = .next (r.next s) := by
  cases i
  case flitRetry => cases hrow; exact event_ok_of_eq hok flitRetry_of_does
  case creditReturn => cases hrow; exact event_ok_of_eq hok creditReturn_of_does
  case peerWriteArrival => cases hrow; exact event_ok hok fun _ => peerWriteArrival_of_does
  case peerReadArrival => cases hrow; exact event_ok_of_eq hok peerReadArrival_of_does
  case hostAccess => cases hrow; exact event_ok hok fun _ => hostAccess_of_does
  case checkpoint => cases hrow; exact event_ok hok fun _ => checkpoint_of_does
  case replay => cases hrow; exact event_ok_of_eq hok replay_of_does
  case patrolScrub | fatalError | forcedUnload | moduleReset => cases hrow; rfl
  all_goals cases hrow

theorem imgwrite_complete {r : Row} {s : State} (hrow : commandEvents .imgwrite = some r) (hok : r.ok s = true) :
    exec .imgwrite s = .next (r.next s) := by
  obtain rfl := Option.some.inj hrow
  refine command_ok (fun _ _ _ _ _ _ h => ?_) hok
  obtain ⟨hrecovery, rfl, rfl⟩ := performs_ok h
  exact if_neg (by rw [bne, hrecovery]; decide)

theorem dumpbase_complete {r : Row} {s : State} (hrow : commandEvents .dumpbase = some r) (hok : r.ok s = true) :
    exec .dumpbase s = .next (r.next s) := by
  obtain rfl := Option.some.inj hrow
  refine command_ok (fun _ _ _ _ _ _ h => ?_) hok
  obtain ⟨haligned, rfl, rfl⟩ := performs_ok h
  exact if_neg (by rw [bne, haligned]; decide)

theorem coupling_complete {r : Row} {s : State} (hrow : commandEvents .coupling = some r) (hok : r.ok s = true) :
    exec .coupling s = .next (r.next s) := by
  obtain rfl := Option.some.inj hrow
  refine command_ok (fun _ _ _ _ _ _ h => ?_) hok
  split at h
  next haligned =>
    obtain ⟨rfl, rfl⟩ := Prod.mk.inj (Option.some.inj h)
    exact if_neg (by rw [haligned]; decide)
  next => cases h

theorem commandEvents_complete {i : Instr} {r : Row} {s : State} (hrow : commandEvents i = some r) (hok : r.ok s = true) :
    exec i s = .next (r.next s) := by
  cases i
  case registerWrite => cases hrow; exact event_ok_of_eq hok registerWrite_of_does
  case invgo =>
    cases hrow
    refine event_ok_of_eq (prog := fun s => Prog.when s.sys.replay.isNone _) hok fun h => ?_
    obtain ⟨hlive, rfl⟩ := onlyIf_ok h
    rw [hlive]
    rfl
  case serviceMailboxMessage =>
    cases hrow
    refine event_ok_of_eq hok fun h => ?_
    split at h
    next hmessage =>
      obtain ⟨hother, rfl⟩ := onlyIf_ok h
      exact serviceMessage_of_other hmessage hother
    next => cases h
  case featget => cases hrow; exact command_ok (fun _ _ _ _ _ _ h => by cases h; rfl) hok
  case featset => cases hrow; exact command_ok answers_featset hok
  case ctxnew => cases hrow; exact command_ok answers_ctxnew hok
  case ctxend => cases hrow; exact command_ok answers_ctxend hok
  case mbxreg =>
    cases hrow
    exact party_ok (ws := fun s => if s.arg 0 = 1 then [12, 64, 4, 1, 64, 64] else [12, 64, 4, 1, 64, 12]) answers_mbxreg hok
  case mbxunreg => cases hrow; exact party_ok (ws := fun _ => [12]) answers_mbxunreg hok
  case codesync => cases hrow; exact party_ok (ws := fun _ => [12]) answers_codesync hok
  case attest => cases hrow; exact command_ok (fun _ _ _ _ _ _ h => by cases h; rfl) hok
  case dbgctl => cases hrow; exact party_ok (ws := fun _ => [12, 64, 64, 64]) answers_dbgctl hok
  case stop => cases hrow; exact command_ok answers_stop hok
  case resume => cases hrow; exact command_ok answers_resume hok
  case ckpt => cases hrow; exact command_ok answers_ckpt hok
  case reset => cases hrow; exact command_ok (fun _ _ _ _ _ _ h => by cases h; rfl) hok
  case imgwrite => exact imgwrite_complete hrow hok
  case dumpbase => exact dumpbase_complete hrow hok
  case coupling => exact coupling_complete hrow hok
  case unknownCommand => cases hrow; exact event_ok hok fun _ => unknownCommand_of_does
  all_goals cases hrow

/-- Settles O32: each of the thirty-one events and commands does what its row says where the row's condition holds. -/
theorem moduleEventsComplete : Obligations.ModuleEventsComplete := by
  unfold Obligations.ModuleEventsComplete
  intro i r s hrow hok
  rcases hrow with hmodule | hcommand
  · exact moduleEvents_complete hmodule hok
  · exact commandEvents_complete hcommand hok

end Sys2Proof.Proofs.ModuleEvents
end

