-- ==== Sys2Proof/Proofs/TrapEntry.lean ====
section
/-! PROOFS. Vectoring (R387 to R391): a trap with a handler writes its records and its frame, and then its gang stands in the handler. -/

namespace Sys2Proof.Proofs.TrapEntry

open Sys2Proof.Machine Sys2Proof.Claims

/-! ## What a trap saves (R388, R389) -/

section
variable (c g : Nat) (t : TrapReq) (pc resume : W64) (x : Block) (y : Gang) (grid : Grid)

/-- R385: the cause goes to the supervisor's handler. -/
def trapSup : Bool := supCause t.cause || grid.uh == 0 || !y.frames.isEmpty

/-- The records in ascending order of their lowest lanes; one that names no lanes is of all that are active. -/
def trapRecs : List Rec :=
  sortRecs (t.recs.map fun r => if r.lanes.isEmpty then { r with lanes := x.activeLanes (x.members g) } else r)

/-- The lowest physical slice of the gang. -/
def frameSlice : Nat := ((x.members g).map fun i => x.phys.getD i 0).foldl min 15

/-- The lowest slice of the gang. -/
def lowSlice : Slice := ((x.members g).head?.bind x.slice?).getD { gang := g, pc := 0, live := 0, active := 0 }

/-- The lanes that the handler begins with. -/
def trapLanes : List Nat := dedup (((trapRecs g t x).filter fun r => y.vliw || r.cause == t.cause).flatMap (·.lanes))

/-- The frame that the gang pushes. -/
def trapFrame : Frame :=
  { sup := trapSup t y grid, rpc := resume, active := maskOf 64 (x.activeLanes (x.members g)), slices := maskOf 16 (x.members g)
    vliw := y.vliw, s61 := (lowSlice g x).sreg 61, s62 := (lowSlice g x).sreg 62, loops := y.loops, cause := BitVec.ofNat 8 t.cause
    resumable := !finalCause t.cause, dues := y.dues, granted := y.granted, waits := (y.wait :: y.more).filter Wait.begun
    depths := (x.members g).map fun i =>
      (i, if y.vliw then 0 else match x.slice? i with | some z => z.stack.length | none => 0) }

/-- R389: the bytes of a record, chained to the one that follows. -/
def recordBytes (time : Nat) (r : Rec) (next : Option Rec) : List Byte :=
  recBytes pc r.addr (maskOf 64 r.lanes) x.bx x.byy x.bz r.slots r.cause
    (t.form.getD (flagBit y.vliw 0 + flagBit (grid.exdin.isSome && y.frames.isEmpty) 1) + flagBit (t.write || r.write) 2
      + flagBit t.fetch 3 + flagBit t.imprecise 4 + flagBit (finalCause r.cause) 5 + flagBit (trapSup t y grid) 6
      + flagBit next.isNone 7)
    (match next with | some q => x.physLane (q.lanes.headD 0) | none => 0xFF) x.ctx x.agent.toNat r.frame (t.time.getD time)

/-- R391: each record is written at its entry, and the frame at that of the gang's lowest physical slice. -/
def putRecords (time : Nat) : Prog :=
  Prog.each (trapRecs g t x).zipIdx fun e =>
    saveBytes x.ctx (recOff c (trapSup t y grid) (x.physLane (e.1.lanes.headD 0)))
      (recordBytes t pc x y grid time e.1 (trapRecs g t x)[e.2 + 1]?)

def putFrame : Prog :=
  saveBytes x.ctx (frameOff c (trapSup t y grid) (frameSlice g x)) (frameBytes (trapFrame g t resume x y grid))

/-- Addresses of the handler, of the first record and of the frame. -/
def handlerVa (ctx : Context) : W64 := if trapSup t y grid then ctx.sup else grid.uh
def recordVa (ctx : Context) : W64 :=
  ctx.saveVa + BitVec.ofNat 64 (recOff c (trapSup t y grid)
    (match trapRecs g t x with | r :: _ => x.physLane (r.lanes.headD 0) | [] => 0))
def frameVa (ctx : Context) : W64 := ctx.saveVa + BitVec.ofNat 64 (frameOff c (trapSup t y grid) (frameSlice g x))

/-- The block in its handler. -/
def vectored (ctx : Context) (z : Block) : Block :=
  z.vector g (trapFrame g t resume x y grid) (trapLanes g t x y) (handlerVa t y grid ctx) (recordVa c g t x y grid ctx)
    (frameVa c g t x y grid ctx)

/-- What the entry of the handler does to the core and its cluster. -/
def enterHandler (b : Nat) (ctx : Context) : Prog :=
  Prog.all [onBlock c b (vectored c g t resume x y grid ctx),
    .one (.clus (clusterOf c) fun q => q.forgetGang c b g (grid.exdin.isSome && y.frames.isEmpty)),
    Prog.when (trapSup t y grid) (dropPreload c),
    Prog.when y.vliw (.one (.core c fun k => { k with qmask := k.qmask &&& ~~~((1 : BitVec 4) <<< (frameSlice g x / 4)) }))]

end

/-- The state in which a trap vectors: the gang's earlier instructions have written their results. -/
def vectorPoint (c b g : Nat) (t : TrapReq) (s : State) : State := (t.pre.andThen (beforeVector c b g)).run s

/-- A trap that vectors: the gang has a live slice, its cause a handler, and the core's fault area can be written (R387, R449). -/
structure Vectors (c b g : Nat) (t : TrapReq) (s : State) (x : Block) (y : Gang) (grid : Grid) (ctx : Context) : Prop where
  here : (vectorPoint c b g t s).block? c b = some x
  gang : x.gangs.get? g = some y
  ofGrid : (vectorPoint c b g t s).grid? x.grid = some grid
  ofCtx : (vectorPoint c b g t s).ctx? x.ctx = some ctx
  user : ∀ f ∈ y.frames.head?, f.sup = false
  handler : trapSup t y grid = true → ctx.sup ≠ 0
  area : (vectorPoint c b g t s).saveBroken ctx (faultArea c) 0x4000 = false
  members : x.members g ≠ []

/-- Programs for the elements of a list, told by their places. -/
theorem map_range_eq_zipIdx {α β : Type} (l : List α) (f : Nat → β) (h : α × Nat → β) (hfh : ∀ i a, l[i]? = some a → f i = h (a, i)) :
    (List.range l.length).map f = l.zipIdx.map h := by
  refine List.ext_getElem (by simp) fun i hi _ => ?_
  have hi : i < l.length := by simpa using hi
  rw [List.getElem_map, List.getElem_map, List.getElem_range, List.getElem_zipIdx, Nat.zero_add]
  exact hfh i _ (List.getElem?_eq_getElem hi)

/-- The last of a list is the element that none follows. -/
theorem last_iff_next_isNone {α : Type} {l : List α} {i : Nat} {a : α} (h : l[i]? = some a) : (i + 1 == l.length) = l[i + 1]?.isNone := by
  have hi : i < l.length := (List.getElem?_eq_some_iff.mp h).1
  rw [Bool.eq_iff_iff, beq_iff_eq, Option.isNone_iff_eq_none, List.getElem?_eq_none_iff]
  omega

theorem takeTrap_run {c b g : Nat} {t : TrapReq} {s : State} {x : Block} {y : Gang} {grid : Grid} {ctx : Context}
    (h : Vectors c b g t s x y grid ctx) (pc resume : W64) :
    (takeTrap c b g t pc resume).run s = (enterHandler c g t resume x y grid b ctx).run
      ((putFrame c g t resume x y grid).run ((putRecords c g t pc x y grid (vectorPoint c b g t s).sys.time).run (vectorPoint c b g t s))) := by
  obtain ⟨hblock, hgang, hgrid, hctx, huser, hhandler, harea, hmembers⟩ := h
  unfold takeTrap
  rw [Prog.run_andThen, Prog.run_andThen, Prog.run_read]
  rw [vectorPoint, Prog.run_andThen] at *
  generalize (beforeVector c b g).run (t.pre.run s) = r at *
  simp only [hblock, hgang, hgrid, hctx]
  refine (congrArg (Prog.run · r) ((if_neg ?_).trans ((if_neg ?_).trans (if_neg ?_)))).trans ?_
  · simpa using hmembers
  · rw [Bool.or_eq_true, not_or]
    refine ⟨?_, fun h => ?_⟩
    · split
      next f _ hframes => rw [huser f (by rw [hframes]; rfl)]; decide
      next => decide
    · rw [Bool.and_eq_true, beq_iff_eq] at h
      exact hhandler h.1 h.2
  · rw [harea]
    decide
  rw [Prog.run_all_cons, Prog.run_all_cons]
  refine congrArg (fun r' => (enterHandler c g t resume x y grid b ctx).run ((putFrame c g t resume x y grid).run r'))
    (congrArg (fun l => (Prog.all l).run r) (map_range_eq_zipIdx (trapRecs g t x) _ _ fun i q hq => ?_))
  have hlast := last_iff_next_isNone hq
  unfold recordBytes
  unfold trapRecs at hq hlast ⊢
  rw [hq, hlast]
  dsimp only
  cases (sortRecs (t.recs.map fun r => if r.lanes.isEmpty then { r with lanes := x.activeLanes (x.members g) } else r))[i + 1]? <;> rfl

/-! ## What the writes and the entry leave -/

/-- A program that leaves every core as it is. -/
def CoresKept (p : Prog) : Prop := ∀ s, (p.run s).cores = s.cores

theorem CoresKept.each {α : Type} {l : List α} {f : α → Prog} (h : ∀ a, CoresKept (f a)) : CoresKept (Prog.each l f) := by
  intro s
  induction l generalizing s with
  | nil => rfl
  | cons a l ih => rw [Prog.run_each_cons, ih, h a s]

/-- The save area lies in device memory. -/
theorem coresKept_saveBytes (x off : Nat) (bs : List Byte) : CoresKept (saveBytes x off bs) := by
  intro s
  rw [saveBytes, Prog.run_read]
  split
  next => rfl
  next ctx _ => exact CoresKept.each (fun _ _ => rfl) s

theorem core_of_cores_eq {s r : State} (h : r.cores = s.cores) (c : Nat) : r.core c = s.core c := by rw [State.core, State.core, h]

section
variable {c b g : Nat} {t : TrapReq} {resume : W64} {x : Block} {y : Gang} {grid : Grid} {ctx : Context} {r : State}

theorem blocksKept_core {f : Core → Core} (h : ∀ k, (f k).blocks = k.blocks) : NB (.one (.core c f)) := fun s => core_blocks s c f h

theorem blocksKept_when {v : Bool} {p : Prog} (h : NB p) : NB (Prog.when v p) := by
  cases v
  · exact NB.done
  · exact h

theorem enterHandler_block (h : r.block? c b = some x) :
    ((enterHandler c g t resume x y grid b ctx).run r).block? c b = some (vectored c g t resume x y grid ctx x) := by
  rw [enterHandler, Prog.run_all_cons]
  have hrest := NB.andThen (fun _ _ _ => rfl : NB (.one (.clus (clusterOf c) fun q => q.forgetGang c b g (grid.exdin.isSome && y.frames.isEmpty))))
    (NB.andThen (blocksKept_when (v := trapSup t y grid) (blocksKept_core fun _ => rfl : NB (dropPreload c)))
      (NB.andThen (blocksKept_when (v := y.vliw) (blocksKept_core (c := c)
        (f := fun k => { k with qmask := k.qmask &&& ~~~((1 : BitVec 4) <<< (frameSlice g x / 4)) }) fun _ => rfl)) NB.done))
  refine (hrest _ c b).trans ?_
  rw [block_onBlock, if_pos ⟨rfl, rfl⟩, h]
  rfl

theorem qmask_onBlock (f : Block → Block) (r : State) : (((onBlock c b f).run r).core c).qmask = (r.core c).qmask := by
  rw [onBlock, core_run, if_pos rfl]
  rfl

theorem qmask_when_dropPreload (v : Bool) (r : State) : (((Prog.when v (dropPreload c)).run r).core c).qmask = (r.core c).qmask := by
  cases v
  · rfl
  · rw [Prog.run_when_true, dropPreload, core_run, if_pos rfl]
    rfl

/-- A bit cleared in a quarter mask. -/
theorem getLsbD_clear (m : BitVec 4) (n j : Nat) : (m &&& ~~~((1 : BitVec 4) <<< n)).getLsbD j = (m.getLsbD j && !(j == n)) := by
  have hplace : (decide (j < n) || !decide (j - n = 0)) = !(j == n) := by
    rw [Bool.eq_iff_iff]
    simp
    omega
  rcases Nat.lt_or_ge j 4 with hj | hj
  · simp [hj, hplace]
  · simp [BitVec.getLsbD_of_ge _ _ hj]

/-- R388: a thread's bit of the quarter mask is clear in its handler. -/
theorem enterHandler_qmask (j : Nat) :
    (((enterHandler c g t resume x y grid b ctx).run r).core c).qmask.getLsbD j
      = ((r.core c).qmask.getLsbD j && !(y.vliw && j == frameSlice g x / 4)) := by
  simp only [enterHandler, Prog.run_all_cons, Prog.run_all_nil]
  have hentry : (((Prog.when (trapSup t y grid) (dropPreload c)).run ((Prog.one (.clus (clusterOf c) fun q =>
      q.forgetGang c b g (grid.exdin.isSome && y.frames.isEmpty))).run
      ((onBlock c b (vectored c g t resume x y grid ctx)).run r))).core c).qmask = (r.core c).qmask :=
    (qmask_when_dropPreload _ _).trans (qmask_onBlock _ _)
  cases y.vliw
  · rw [Prog.run_when_false, hentry, Bool.false_and, Bool.not_false, Bool.and_true]
  · rw [Prog.run_when_true, core_run, if_pos rfl, Bool.true_and, ← getLsbD_clear, ← hentry]
    rfl

end

/-! ## The slices in the handler (R388) -/

/-- A slice of a gang that enters its handler at `e`, with what stands in its `s61` and `s62`. -/
def inHandler (z : Slice) (e frame rec1 : W64) (active : BitVec 4) (stack : List DivEntry) : Slice :=
  ({ z with pc := e, active, stack }.setS 62 rec1).setS 61 frame

section
variable (z : Slice) (e frame rec1 : W64) (active : BitVec 4) (stack : List DivEntry)

/-- What entering the handler leaves of a slice besides its s-registers. -/
theorem inHandler_fields : (inHandler z e frame rec1 active stack).pc = e ∧ (inHandler z e frame rec1 active stack).live = z.live
    ∧ (inHandler z e frame rec1 active stack).active = active ∧ (inHandler z e frame rec1 active stack).gang = z.gang
    ∧ (inHandler z e frame rec1 active stack).stack = stack := by
  obtain ⟨hpc, hlive, hactive, hgang, hstack⟩ := setS_fields { z with pc := e, active, stack } 62 rec1
  obtain ⟨hpc', hlive', hactive', hgang', hstack'⟩ := setS_fields ({ z with pc := e, active, stack }.setS 62 rec1) 61 frame
  exact ⟨hpc'.trans hpc, hlive'.trans hlive, hactive'.trans hactive, hgang'.trans hgang, hstack'.trans hstack⟩

theorem inHandler_s61 : (inHandler z e frame rec1 active stack).sreg 61 = frame := sreg_setS _ 61 frame

theorem inHandler_s62 : (inHandler z e frame rec1 active stack).sreg 62 = rec1 :=
  (sreg_setS_ne _ 61 62 _ (by decide)).trans (sreg_setS _ 62 rec1)

theorem inHandler_sreg {k : Nat} (h61 : k ≠ 61) (h62 : k ≠ 62) : (inHandler z e frame rec1 active stack).sreg k = z.sreg k :=
  (sreg_setS_ne _ 61 k _ h61).trans (sreg_setS_ne _ 62 k _ h62)

end

/-- A record that names no lanes is of all that are active. -/
theorem named_eq (act : List Nat) (q : Rec) :
    (if q.lanes.isEmpty then { q with lanes := act } else q) = { q with lanes := if q.lanes = [] then act else q.lanes } := by
  obtain ⟨cause, addr, lanes, frame, slots, write, ro⟩ := q
  cases lanes <;> rfl

/-- The lanes that become active: those of the records of the reported cause, or of every record for a thread. -/
theorem mem_trapLanes {g : Nat} {t : TrapReq} {x : Block} {y : Gang} {l : Nat} :
    l ∈ trapLanes g t x y ↔ ∃ q ∈ t.recs, (y.vliw = true ∨ q.cause = t.cause)
      ∧ l ∈ if q.lanes = [] then x.activeLanes (x.members g) else q.lanes := by
  simp only [trapLanes, trapRecs, named_eq, dedup_mem, List.mem_flatMap, List.mem_filter, sortRecs_mem, List.mem_map, Bool.or_eq_true,
    beq_iff_eq]
  constructor
  · rintro ⟨_, ⟨⟨q, hq, rfl⟩, hcause⟩, hl⟩
    exact ⟨q, hq, hcause, hl⟩
  · rintro ⟨q, hq, hcause, hl⟩
    exact ⟨_, ⟨⟨q, hq, rfl⟩, hcause⟩, hl⟩

theorem trapRecs_singleton {g : Nat} {t : TrapReq} {x : Block} {q : Rec} (h : t.recs = [q]) :
    trapRecs g t x = [{ q with lanes := if q.lanes = [] then x.activeLanes (x.members g) else q.lanes }] := by
  rw [trapRecs, h, ← named_eq]
  rfl

section
variable {c b g : Nat} {t : TrapReq} {s : State} {x : Block} {y : Gang} {grid : Grid} {ctx : Context}

/-- R388: the gang's slices stand at the handler; every other slice is as it was. -/
theorem vectored_slice (hgang : x.gangs.get? g = some y) (resume : W64) {i : Nat} {z : Slice} (hz : x.slice? i = some z) :
    (vectored c g t resume x y grid ctx x).slice? i = some (if i ∈ x.members g then
      inHandler z (handlerVa t y grid ctx) (frameVa c g t x y grid ctx) (recordVa c g t x y grid ctx)
        (maskOf 4 (((trapLanes g t x y).filter fun l => l / 4 == i).map (· % 4))) (if y.vliw then [] else z.stack)
      else z) := by
  obtain ⟨-, -, hslices⟩ := vector_facts x g y (trapFrame g t resume x y grid) (trapLanes g t x y) (handlerVa t y grid ctx)
    (recordVa c g t x y grid ctx) (frameVa c g t x y grid ctx) hgang
  rw [vectored, hslices, hz]
  split <;> rfl

theorem fault_writes_cores (time : Nat) (pc resume : W64) (r : State) :
    ((putFrame c g t resume x y grid).run ((putRecords c g t pc x y grid time).run r)).cores = r.cores :=
  (coresKept_saveBytes _ _ _ _).trans (CoresKept.each (fun _ => coresKept_saveBytes _ _ _) r)

theorem takeTrap_block (h : Vectors c b g t s x y grid ctx) (pc resume : W64) :
    ((takeTrap c b g t pc resume).run s).block? c b = some (vectored c g t resume x y grid ctx x) := by
  rw [takeTrap_run h]
  refine enterHandler_block ?_
  rw [State.block?, core_of_cores_eq (fault_writes_cores _ pc resume _)]
  exact h.here

theorem takeTrap_qmask (h : Vectors c b g t s x y grid ctx) (pc resume : W64) (j : Nat) :
    (((takeTrap c b g t pc resume).run s).core c).qmask.getLsbD j
      = (((vectorPoint c b g t s).core c).qmask.getLsbD j && !(y.vliw && j == frameSlice g x / 4)) := by
  rw [takeTrap_run h, enterHandler_qmask, core_of_cores_eq (fault_writes_cores _ pc resume _)]

end

/-- Settles O54: after the writes into the fault area, the block is that of the entry of its handler. -/
theorem trapEntry : Obligations.TrapEntry := by
  unfold Obligations.TrapEntry
  intro s c b g t pc resume x y grid ctx r hblock hgang hgrid hctx sup huser hhandler harea hmembers ms lanes
  have hvectors : Vectors c b g t s x y grid ctx := ⟨hblock, hgang, hgrid, hctx, huser, hhandler, harea, hmembers⟩
  obtain ⟨hgang', hlanes, -⟩ := vector_facts x g y (trapFrame g t resume x y grid) (trapLanes g t x y) (handlerVa t y grid ctx)
    (recordVa c g t x y grid ctx) (frameVa c g t x y grid ctx) hgang
  refine ⟨_, _, _, takeTrap_block hvectors pc resume, hgang', rfl, rfl, rfl, rfl, rfl, rfl, rfl, rfl, rfl, fun i z hi hz => ?_, rfl, rfl,
    rfl, hlanes, takeTrap_qmask hvectors pc resume, fun i z hz => ⟨_, vectored_slice hgang resume hz, ?_⟩⟩
  · have hlow : lowSlice g x = z := by rw [lowSlice, hi, Option.bind_some, hz, Option.getD_some]
    exact ⟨congrArg (·.sreg 61) hlow, congrArg (·.sreg 62) hlow⟩
  · split
    next =>
      obtain ⟨hpc, hlive, hactive, hofGang, hstack⟩ := inHandler_fields z (handlerVa t y grid ctx) (frameVa c g t x y grid ctx)
        (recordVa c g t x y grid ctx) (maskOf 4 (((trapLanes g t x y).filter fun l => l / 4 == i).map (· % 4)))
        (if y.vliw then [] else z.stack)
      refine ⟨hpc, hlive, hofGang, fun j hj => ?_, hstack, fun k h61 h62 => inHandler_sreg _ _ _ _ _ _ h61 h62, inHandler_s61 _ _ _ _ _ _,
        fun q hq => (inHandler_s62 _ _ _ _ _ _).trans ?_⟩
      · rw [hactive, lane_mask _ _ _ hj, mem_trapLanes]
      · rw [recordVa, trapRecs_singleton hq]
        rfl
    next => rfl

end Sys2Proof.Proofs.TrapEntry
end

