-- ==== Sys2Proof/Proofs/FaultArea.lean ====
section
/-! PROOFS. The bytes of the fault area (R389, R391): fields that stand in order are laid one after another, as records and frames are written.
The order of a frame's loop levels, outermost first, is the model's (log 69). -/

namespace Sys2Proof.Proofs.FaultArea

open Sys2Proof.Machine Sys2Proof.Claims Sys2Proof.Proofs.TrapEntry

/-! ## Fields laid out in bytes -/

/-- The byte at an offset among fields. -/
def laidByte (fields : List (Nat × Nat × Nat)) (i : Nat) : Byte :=
  ((fields.find? fun f => decide (f.1 ≤ i) && decide (i < f.1 + f.2.1)).map fun f => BitVec.ofNat 8 (f.2.2 / 256 ^ (i - f.1))).getD 0

theorem layBytes_eq (n : Nat) (fields : List (Nat × Nat × Nat)) : layBytes n fields = (List.range n).map (laidByte fields) := by
  unfold layBytes laidByte
  congr
  funext i
  cases fields.find? fun f => decide (f.1 ≤ i) && decide (i < f.1 + f.2.1) <;> rfl

/-- The fields stand in order from `o` on, and end by `n`. -/
def inOrder (o n : Nat) : List (Nat × Nat × Nat) → Prop
  | [] => o ≤ n
  | f :: r => o ≤ f.1 ∧ inOrder (f.1 + f.2.1) n r

/-- The bytes from `o` to `n`: before each field zeros, then its value. -/
def laidFrom (o n : Nat) : List (Nat × Nat × Nat) → List Byte
  | [] => List.replicate (n - o) 0
  | f :: r => List.replicate (f.1 - o) 0 ++ leBytes f.2.2 f.2.1 ++ laidFrom (f.1 + f.2.1) n r

theorem leBytes_eq_map (v w : Nat) : leBytes v w = (List.range w).map fun i => BitVec.ofNat 8 (v / 256 ^ i) := by
  induction w generalizing v with
  | zero => rfl
  | succ w ih =>
    rw [leBytes, ih, List.range_succ_eq_map, List.map_cons, List.map_map, Nat.pow_zero, Nat.div_one]
    congr 1
    refine List.map_congr_left fun i _ => ?_
    rw [Function.comp, Nat.pow_succ', Nat.div_div_eq_div_mul]

theorem laidByte_below {f : Nat × Nat × Nat} {r : List (Nat × Nat × Nat)} {i : Nat} (h : f.1 + f.2.1 ≤ i) :
    laidByte (f :: r) i = laidByte r i := by
  rw [laidByte, laidByte, List.find?_cons_of_neg]
  simp
  omega

theorem laidByte_in {f : Nat × Nat × Nat} {r : List (Nat × Nat × Nat)} {i : Nat} (h : i < f.2.1) :
    laidByte (f :: r) (f.1 + i) = BitVec.ofNat 8 (f.2.2 / 256 ^ i) := by
  rw [laidByte, List.find?_cons_of_pos (by simp; omega), Option.map_some, Option.getD_some, Nat.add_sub_cancel_left]

theorem inOrder_le {o n : Nat} {fields : List (Nat × Nat × Nat)} (h : inOrder o n fields) : o ≤ n := by
  induction fields generalizing o with
  | nil => exact h
  | cons f r ih =>
    obtain ⟨hstart, hrest⟩ := h
    have := ih hrest
    omega

theorem laidByte_before {o n i : Nat} {fields : List (Nat × Nat × Nat)} (h : inOrder o n fields) (hi : i < o) :
    laidByte fields i = 0 := by
  induction fields generalizing o with
  | nil => rfl
  | cons f r ih =>
    obtain ⟨hstart, hrest⟩ := h
    rw [← ih hrest (by omega), laidByte, laidByte, List.find?_cons_of_neg]
    simp
    omega

/-- Fields in order are laid one after another. -/
theorem laid_eq_laidFrom {o n : Nat} {fields : List (Nat × Nat × Nat)} (h : inOrder o n fields) :
    ((List.range (n - o)).map fun i => laidByte fields (o + i)) = laidFrom o n fields := by
  induction fields generalizing o with
  | nil =>
    refine List.eq_replicate_iff.mpr ⟨by simp, fun b hb => ?_⟩
    obtain ⟨i, -, rfl⟩ := List.mem_map.mp hb
    rfl
  | cons f r ih =>
    obtain ⟨hstart, hrest⟩ := h
    have hend := inOrder_le hrest
    have hgap : ((List.range (f.1 - o)).map fun i => laidByte (f :: r) (o + i)) = List.replicate (f.1 - o) 0 := by
      refine List.eq_replicate_iff.mpr ⟨by simp, fun b hb => ?_⟩
      obtain ⟨i, hi, rfl⟩ := List.mem_map.mp hb
      have hi : i < f.1 - o := List.mem_range.mp hi
      exact laidByte_before (o := f.1) (n := n) ⟨Nat.le_refl _, hrest⟩ (by omega)
    have hfield : ((List.range f.2.1).map fun i => laidByte (f :: r) (o + (f.1 - o + i))) = leBytes f.2.2 f.2.1 := by
      rw [leBytes_eq_map]
      refine List.map_congr_left fun i hi => ?_
      rw [show o + (f.1 - o + i) = f.1 + i by omega, laidByte_in (List.mem_range.mp hi)]
    have hlater : ((List.range (n - (f.1 + f.2.1))).map fun i => laidByte (f :: r) (o + (f.1 - o + (f.2.1 + i))))
        = laidFrom (f.1 + f.2.1) n r := by
      rw [← ih hrest]
      refine List.map_congr_left fun i _ => ?_
      rw [show o + (f.1 - o + (f.2.1 + i)) = f.1 + f.2.1 + i by omega, laidByte_below (by omega)]
    have hsplit : n - o = (f.1 - o) + (f.2.1 + (n - (f.1 + f.2.1))) := by omega
    rw [laidFrom, ← hgap, ← hfield, ← hlater, hsplit]
    simp only [List.range_add, List.map_append, List.map_map, List.append_assoc]
    rfl

theorem layBytes_eq_laidFrom {n : Nat} {fields : List (Nat × Nat × Nat)} (h : inOrder 0 n fields) :
    layBytes n fields = laidFrom 0 n fields := by
  rw [layBytes_eq, ← laid_eq_laidFrom h]
  simp only [Nat.sub_zero, Nat.zero_add]

/-! ## The record and the frame (R389, R391) -/

/-- R389: the fields of a record. -/
def recordFields (pc addr lanes : W64) (bx byy bz : W32) (slots : BitVec 16) (cause flags next ctx agent : Nat) (frame : W64) (time : Nat) :
    List (Nat × Nat × Nat) :=
  [(0, 8, pc.toNat), (8, 8, addr.toNat), (16, 8, lanes.toNat), (24, 4, bx.toNat), (28, 4, byy.toNat), (32, 4, bz.toNat),
    (36, 2, slots.toNat), (38, 1, cause), (39, 1, flags), (40, 1, next), (42, 2, ctx), (44, 1, agent), (48, 8, frame.toNat), (56, 8, time)]

theorem recBytes_eq_layBytes (pc addr lanes : W64) (bx byy bz : W32) (slots : BitVec 16) (cause flags next ctx agent : Nat) (frame : W64)
    (time : Nat) : recBytes pc addr lanes bx byy bz slots cause flags next ctx agent frame time
      = layBytes 64 (recordFields pc addr lanes bx byy bz slots cause flags next ctx agent frame time) := by
  rw [layBytes_eq_laidFrom (by simp [inOrder, recordFields])]
  simp [recBytes, laidFrom, recordFields]

/-- R391: the fields of a frame that precede its loop levels, and those of the levels. -/
def frameFields (f : Frame) : List (Nat × Nat × Nat) :=
  [(0, 8, f.rpc.toNat), (8, 8, f.active.toNat), (16, 2, f.slices.toNat), (18, 1, if f.vliw then 1 else 0), (24, 8, f.s61.toNat),
    (32, 8, f.s62.toNat)]

def levelFields (k : Nat) (l : List LoopLevel) : List (Nat × Nat × Nat) :=
  (l.zipIdx k).flatMap fun e =>
    [(64 + 24 * e.2, 8, e.1.start.toNat), (72 + 24 * e.2, 8, e.1.stop.toNat), (80 + 24 * e.2, 8, e.1.count.toNat)]

theorem levelFields_cons (k : Nat) (a : LoopLevel) (l : List LoopLevel) :
    levelFields k (a :: l) = (64 + 24 * k, 8, a.start.toNat) :: (72 + 24 * k, 8, a.stop.toNat) :: (80 + 24 * k, 8, a.count.toNat)
      :: levelFields (k + 1) l := rfl

theorem inOrder_levelFields {k : Nat} {l : List LoopLevel} (h : k + l.length ≤ 8) : inOrder (64 + 24 * k) 256 (levelFields k l) := by
  induction l generalizing k with
  | nil => simp only [levelFields, List.zipIdx_nil, List.flatMap_nil, inOrder, List.length_nil] at h ⊢; omega
  | cons a l ih =>
    rw [List.length_cons] at h
    have hrest := ih (k := k + 1) (by omega)
    simp only [levelFields_cons, inOrder]
    refine ⟨Nat.le_refl _, by omega, by omega, ?_⟩
    rwa [show 80 + 24 * k + 8 = 64 + 24 * (k + 1) by omega]

theorem laidFrom_levelFields {k : Nat} {l : List LoopLevel} (h : k + l.length ≤ 8) :
    laidFrom (64 + 24 * k) 256 (levelFields k l)
      = (l.flatMap fun a => leBytes a.start.toNat 8 ++ leBytes a.stop.toNat 8 ++ leBytes a.count.toNat 8)
        ++ List.replicate (24 * (8 - (k + l.length))) 0 := by
  induction l generalizing k with
  | nil =>
    simp only [levelFields, List.zipIdx_nil, List.flatMap_nil, laidFrom, List.nil_append, List.length_nil]
    congr 1
    omega
  | cons a l ih =>
    rw [List.length_cons] at h
    have hrest := ih (k := k + 1) (by omega)
    rw [levelFields_cons]
    simp only [laidFrom]
    rw [show 80 + 24 * k + 8 = 64 + 24 * (k + 1) by omega, hrest, Nat.sub_self, show 72 + 24 * k - (64 + 24 * k + 8) = 0 by omega,
      show 80 + 24 * k - (72 + 24 * k + 8) = 0 by omega, show k + 1 + l.length = k + (l.length + 1) by omega]
    simp only [List.replicate_zero, List.nil_append, List.flatMap_cons, List.append_assoc, List.length_cons]

theorem inOrder_mono {o m n : Nat} {fields : List (Nat × Nat × Nat)} (hom : o ≤ m) (h : inOrder m n fields) : inOrder o n fields := by
  cases fields with
  | nil => exact Nat.le_trans hom h
  | cons f r => exact ⟨Nat.le_trans hom h.1, h.2⟩

/-- Fields that stand from `m` on have zeros before it. -/
theorem laidFrom_pad {o m n : Nat} {fields : List (Nat × Nat × Nat)} (hom : o ≤ m) (h : inOrder m n fields) :
    laidFrom o n fields = List.replicate (m - o) 0 ++ laidFrom m n fields := by
  cases fields with
  | nil =>
    have hmn : m ≤ n := h
    rw [laidFrom, laidFrom, List.replicate_append_replicate]
    congr 1
    omega
  | cons f r =>
    obtain ⟨hstart, -⟩ := h
    rw [laidFrom, laidFrom, ← List.append_assoc, ← List.append_assoc, List.replicate_append_replicate]
    congr 3
    omega

theorem frameBytes_eq_layBytes {f : Frame} (h : f.loops.length ≤ 8) :
    frameBytes f = layBytes 256 (frameFields f ++ levelFields 0 f.loops.reverse) := by
  have hlen : 0 + f.loops.reverse.length ≤ 8 := by rw [List.length_reverse]; omega
  have hlevels : inOrder 64 256 (levelFields 0 f.loops.reverse) := inOrder_levelFields hlen
  have hlaid : laidFrom 40 256 (levelFields 0 f.loops.reverse) = _ := laidFrom_pad (by decide) hlevels
  rw [laidFrom_levelFields (k := 0) hlen, Nat.zero_add, List.length_reverse] at hlaid
  have hmode : leBytes (if f.vliw then 1 else 0) 6 = leBytes (if f.vliw then 1 else 0) 1 ++ List.replicate 5 0 := by
    cases f.vliw <;> rfl
  have horder : inOrder 0 256 (frameFields f ++ levelFields 0 f.loops.reverse) := by
    simp only [frameFields, List.cons_append, List.nil_append, inOrder]
    exact ⟨by decide, by decide, by decide, by decide, by decide, by decide, inOrder_mono (by decide) hlevels⟩
  rw [layBytes_eq_laidFrom horder]
  simp only [frameFields, List.cons_append, List.nil_append, laidFrom]
  rw [hlaid, frameBytes, hmode]
  simp

/-! ## The obligation -/

theorem frameOff_eq (c p : Nat) (sup : Bool) : faultArea c + (if sup then 0x2100 else 0x2000) + 512 * p = frameOff c sup p := by
  unfold frameOff
  cases sup
  · simp only [Bool.false_eq_true, if_false]
    omega
  · simp only [if_true]
    omega

/-- The entry of a handler changes no byte of storage. -/
theorem quiet_enterHandler (c g : Nat) (t : TrapReq) (resume : W64) (x : Block) (y : Gang) (grid : Grid) (b : Nat) (ctx : Context) :
    Quiet (enterHandler c g t resume x y grid b ctx) :=
  Quiet.allCons (Quiet.onBlock _ _ _) (Quiet.allCons (Quiet.clus _ _)
    (Quiet.allCons (Quiet.when (Quiet.core _ _)) (Quiet.allCons (Quiet.when (Quiet.core _ _)) Quiet.allNil)))

/-- Settles O55: the writes are those that the statement lists, and nothing of the handler's entry changes a byte. -/
theorem faultAreaBytes : Obligations.FaultAreaBytes := by
  unfold Obligations.FaultAreaBytes
  intro s c b g t pc resume x y grid ctx r hblock hgang hgrid hctx sup huser hhandler harea hmembers hloops ms recs entry bit flags record
    slice low frame level puts
  have hvectors : Vectors c b g t s x y grid ctx := ⟨hblock, hgang, hgrid, hctx, huser, hhandler, harea, hmembers⟩
  have hrecords : (Prog.each recs.zipIdx fun e => saveBytes x.ctx (level 0x1000 0 + 64 * entry e.1) (record e.1 recs[e.2 + 1]?))
      = putRecords c g t pc x y grid r.sys.time :=
    congrArg Prog.all (List.map_congr_left fun e _ => congrArg (saveBytes x.ctx _) (recBytes_eq_layBytes ..).symm)
  have hframe : saveBytes x.ctx (level 0x2000 0x2100 + 512 * slice) frame = putFrame c g t resume x y grid := by
    have hplace : level 0x2000 0x2100 + 512 * slice = frameOff c (trapSup t y grid) (frameSlice g x) := frameOff_eq ..
    rw [putFrame, hplace, frameBytes_eq_layBytes (f := trapFrame g t resume x y grid) hloops]
    rfl
  have hputs : puts.run r = (putFrame c g t resume x y grid).run ((putRecords c g t pc x y grid r.sys.time).run r) := by
    show (Prog.andThen _ _).run r = _
    rw [Prog.run_andThen, hrecords, hframe]
  rw [takeTrap_run hvectors pc resume, hputs]
  exact quiet_enterHandler c g t resume x y grid b ctx _

end Sys2Proof.Proofs.FaultArea
end

