-- ==== Sys2Proof/Proofs/ContextEnd.lean ====
section
/-! PROOFS. A cause with no handler (R387) where the table of grids lists the context's one grid twice, which no event makes (`Tab.set` replaces an
entry), but the premises of the statement are on any state: the end marks the first entry alone as done, so that the broken page of the
event log (R449) ends the context a second time, and a second entry stands in Rhavos's log. -/

namespace Sys2Proof.Proofs.ContextEnd

open Sys2Proof.Machine Sys2Proof.Claims

/-! ## The state -/

def twiceGrid : Grid := { ctx := 1, started := true, placed := [0], segs := freshSegs }

def bareCtx : Context := { saveVa := 0x100000, saveSize := 0x2000000, savePt := 0, feat := Config.offered }

/-- Memory is empty, so that no page of the save area is PRESENT; there is a handler at neither level. -/
def twiceState : State :=
  { cores := [(0, { blocks := [(0, freshBlock 1 0 false)] })], ctxs := [(1, bareCtx)], grids := [(0, twiceGrid), (0, twiceGrid)] }

/-- A reserved major (R385). -/
def majorTrap : TrapReq := { cause := cReservedMajor, recs := [{ cause := cReservedMajor, lanes := [0] }] }

def twicePoint : State := (majorTrap.pre.andThen (beforeVector 0 0 0)).run twiceState

/-! ## What the trap does there -/

theorem twicePoint_gang : twicePoint.block? 0 0 = some (freshBlock 1 0 false) ∧ (freshBlock 1 0 false).gangs.get? 0 = some {}
    ∧ (freshBlock 1 0 false).members 0 ≠ [] := by decide +kernel

theorem twicePoint_tables : twicePoint.grid? 0 = some twiceGrid ∧ twicePoint.ctx? 1 = some bareCtx := by decide +kernel

/-- The second entry of the grid is still not done when the event log cannot be written, and the context ends once more. -/
theorem twiceState_log : ((takeTrap 0 0 0 majorTrap 0 0).run twiceState).sys.log
    = twicePoint.sys.log ++ [.context 1 cReservedMajor, .context 1 cEcc] := by decide +kernel

/-- Refutes O56: the context's one grid stands twice in the table, and its end is logged twice. -/
theorem not_noHandlerEndsContext : ¬ Obligations.NoHandlerEndsContext := by
  unfold Obligations.NoHandlerEndsContext
  intro h
  obtain ⟨hblock, hgang, hmembers⟩ := twicePoint_gang
  obtain ⟨hgrid, hctx⟩ := twicePoint_tables
  obtain ⟨hlog, -⟩ := h twiceState 0 0 0 majorTrap 0 0 (freshBlock 1 0 false) {} twiceGrid bareCtx hblock hgang hgrid hctx hmembers
    ⟨0, twiceGrid, hgrid, rfl, rfl⟩ rfl
  rw [twiceState_log] at hlog
  exact absurd (List.append_cancel_left hlog) (by decide)

end Sys2Proof.Proofs.ContextEnd
end
